-- ==== Sys2Proof/Word.lean ====
section
/-! DEFINITION. The word types of the Cymas Smimied (R5, R17, R19). -/

namespace Sys2Proof

/-- One byte of a store. -/
abbrev Byte := BitVec 8

/-- One 32-bit lane (R17). -/
abbrev Lane := BitVec 32

/-- A sequencer register or any 64-bit register (R92). -/
abbrev Word := BitVec 64

/-- A tag (R20): die <31:28>, space <27:20>, index <19:8>, generation <7:0>. -/
abbrev Tag := BitVec 32

/-- The number of a sequencer register s0 to s31. -/
abbrev SReg := Fin 32

/-- A hardware context, ctx.id (R35). -/
abbrev CtxId := Fin 64

/-- A cluster of the package (R1). -/
abbrev Cluster := Fin 64

/-- A compute die (R1). -/
abbrev Die := Fin 8

/-- A scale-up port, die * 16 + port (R351). -/
abbrev Port := Fin 128

end Sys2Proof
end

