-- ==== Sys2Proof/Syntax.lean ====
section
/-! DEFINITION. The operations and events of the part: one constructor of `Instr` per row of the opcode table, and
the enumerations their operands are drawn from (R60 to R84, R374 to R378). -/

namespace Sys2Proof

/-- The integer element types, type codes 0 to 7 in this order (R71). -/
inductive IntTy where
  | i8 | i16 | i32 | i64 | n8 | n16 | n32 | n64
  deriving DecidableEq, Repr, Inhabited

/-- The float element types, type codes 0 to 3 in this order (R71). -/
inductive FltTy where
  | f16 | b16 | f32 | f64
  deriving DecidableEq, Repr, Inhabited

/-- The block element types, type codes 0 to 6 in this order (R71). -/
inductive BlkTy where
  | bx2 | bx3 | bx4 | bx5 | bx6 | bx7 | bx8
  deriving DecidableEq, Repr, Inhabited

/-- The width types of lane moves, atomics and pairs: codes 2, 3, 6 and 7 (R71, R75). -/
inductive WTy where
  | i32 | i64 | n32 | n64
  deriving DecidableEq, Repr, Inhabited

/-- The unified type code of a conversion: 0 to 7 an integer type, 8 to 11 a float type (R71). -/
inductive CvtTy where
  | int (t : IntTy)
  | flt (t : FltTy)
  deriving DecidableEq, Repr, Inhabited

/-- An operand select of a node operation (R72). -/
inductive Sel where
  | port (p : Fin 3)
  | x
  | hold (h : Fin 16)
  | const (k : Fin 8)
  | lane
  | ord
  | zero
  | win
  deriving DecidableEq, Repr, Inhabited

/-- The rounding modes (R47). -/
inductive Rnd where
  | rne | rz | ru | rd | sr
  deriving DecidableEq, Repr, Inhabited

/-- The condition codes of an integer compare (R132). -/
inductive ICond where
  | eq | ne | lt | le | gt | ge
  deriving DecidableEq, Repr, Inhabited

/-- The condition codes of a float compare (R135). -/
inductive FCond where
  | eq | ne | lt | le | gt | ge | un
  deriving DecidableEq, Repr, Inhabited

/-- The operators of an integer red, scan or rdc (R146). -/
inductive RedOp where
  | add | min | max | and | or | xor
  deriving DecidableEq, Repr, Inhabited

/-- The operators of a float red, scan or rdc (R146). -/
inductive FRedOp where
  | add | min | max
  deriving DecidableEq, Repr, Inhabited

/-- The kinds of a fence (R62, R174). -/
inductive FenceKind where
  | full | acq | rel
  deriving DecidableEq, Repr, Inhabited

/-- The engine classes, header class codes 0 to 3 (R81). -/
inductive EngClass where
  | copy | gather | press | jig
  deriving DecidableEq, Repr, Inhabited

/-- One engine of the package: its class, its cluster and its unit within the cluster (R81). -/
structure EngRef where
  cls : EngClass
  cluster : Cluster
  unit : Fin 16
  deriving DecidableEq, Repr, Inhabited

/-- A posted write of the host (R271, R306, R365): into BAR2 at an intermediate address, into BAR4 at a physical
address, each with the byte enables of the request (an absent byte is not written), or an ingress token. -/
inductive HostWrite where
  | memory (ia : BitVec 46) (bytes : List (Option Byte))
  | physical (pa : BitVec 40) (bytes : List (Option Byte))
  | ingress (c : CtxId) (token : List Word)
  deriving DecidableEq, Repr, Inhabited

/-- What a host read names (R365): registers through BAR0, the intermediate space through BAR2, physical memory through
BAR4. -/
inductive HostSpace where
  | registers | memory | physical
  deriving DecidableEq, Repr, Inhabited

/-- The kinds of a node (R69). -/
inductive NodeKind where
  | data | source | block
  deriving DecidableEq, Repr, Inhabited

/-- The firing rules (R26, R69). -/
inductive FireRule where
  | strict | merge | gate
  deriving DecidableEq, Repr, Inhabited

/-- A head word (R69).  `inputs`, `stages` and `scales` are the counts, `kmask` has one bit per constant. -/
structure HeadWord where
  kind : NodeKind
  inputs : Nat
  rule : FireRule
  space : Nat
  stages : Nat
  switches : Nat
  kmask : BitVec 8
  scales : Nat
  deriving DecidableEq, Repr, Inhabited

/-- An emit word (R74). -/
structure EmitWord where
  tagsel : Nat
  node : Nat
  deriving DecidableEq, Repr, Inhabited

/-- A switch word (R78). -/
inductive SwitchWord where
  | hop (dir count : Nat)
  | deliver (sel : Bool) (node port : Nat)
  | fan (branches : Nat)
  | far (die cluster pe : Nat)
  deriving DecidableEq, Repr, Inhabited

/-- One end of a route tree (R79): the hops of its branch in order, the far word if it has one, and its deliver. -/
structure Leaf where
  hops : List (Nat × Nat)
  far : Option (Nat × Nat × Nat)
  sel : Bool
  node : Nat
  port : Nat
  deriving DecidableEq, Repr, Inhabited

/-- A link word (R149) read as a destination: relative die, cluster within the die, PE, node slot and port. -/
structure LinkDest where
  die : Nat
  cluster : Nat
  pe : Nat
  node : Nat
  port : Nat
  deriving DecidableEq, Repr, Inhabited

/-- Where an engine's reply goes (R81): nowhere, to a sequencer register, or to a node port at a plane offset. -/
inductive ReplyTo where
  | none
  | reg (r : SReg)
  | node (plane : Nat) (d : LinkDest)
  deriving DecidableEq, Repr, Inhabited

/-- An active-message header whose fields R82 admits (R81).  `cluster` is nominal. -/
structure Header where
  op : Nat
  cls : EngClass
  unit : Nat
  cluster : Nat
  acq : Bool
  rel : Bool
  scope : Nat
  reply : ReplyTo
  body : Nat
  next : Nat
  deriving DecidableEq, Repr, Inhabited

/-- A mask word (R83). -/
inductive MaskWord where
  | stop
  | kltq (c : Fin 8) | kleq (c : Fin 8) | kgtq (c : Fin 8) | kgeq (c : Fin 8) | keqq (c : Fin 8)
  | qlt (c : Fin 8) | qge (c : Fin 8) | klt (c : Fin 8) | kge (c : Fin 8)
  | same | diff | and | or | not
  | pushc (b : Bool)
  deriving DecidableEq, Repr, Inhabited

/-- The operations and events of the part, one constructor per row of the opcode table.  Each is one whole and
indivisible step.  A sequencer or node operation acts for the context or firing that holds the turn; an event names
what it acts on. -/
inductive Instr where
  /-- R97: Sequencer ALU add: d := (s[a] + s[b]) mod 2^64. -/
  | add (d a b : SReg) (ea eb : Bool)
  /-- R97: Sequencer ALU subtract: d := (s[a] - s[b]) mod 2^64. -/
  | sub (d a b : SReg) (ea eb : Bool)
  /-- R97: Sequencer multiply: the low 64 bits of the product. -/
  | mul (d a b : SReg) (ea eb : Bool)
  /-- R97: Sequencer signed multiply: the high 64 bits of the product. -/
  | mulh (d a b : SReg) (ea eb : Bool)
  /-- R97: Sequencer unsigned multiply: the high 64 bits of the product. -/
  | mulhn (d a b : SReg) (ea eb : Bool)
  /-- R97: Sequencer bitwise AND. -/
  | and (d a b : SReg) (ea eb : Bool)
  /-- R97: Sequencer bitwise OR. -/
  | or (d a b : SReg) (ea eb : Bool)
  /-- R97: Sequencer bitwise XOR. -/
  | xor (d a b : SReg) (ea eb : Bool)
  /-- R97: Sequencer shift left by s[b]<5:0>. -/
  | sll (d a b : SReg) (ea eb : Bool)
  /-- R97: Sequencer logical shift right by s[b]<5:0>. -/
  | srl (d a b : SReg) (ea eb : Bool)
  /-- R97: Sequencer arithmetic shift right by s[b]<5:0>. -/
  | sra (d a b : SReg) (ea eb : Bool)
  /-- R97: Sequencer signed less-than: writes 1 or 0. -/
  | slt (d a b : SReg) (ea eb : Bool)
  /-- R97: Sequencer unsigned less-than: writes 1 or 0. -/
  | sltn (d a b : SReg) (ea eb : Bool)
  /-- R97: Sequencer equality test: writes 1 or 0. -/
  | seq (d a b : SReg) (ea eb : Bool)
  /-- R97: Sequencer signed minimum. -/
  | min (d a b : SReg) (ea eb : Bool)
  /-- R97: Sequencer signed maximum. -/
  | max (d a b : SReg) (ea eb : Bool)
  /-- R97: Sequencer unsigned minimum. -/
  | minn (d a b : SReg) (ea eb : Bool)
  /-- R97: Sequencer unsigned maximum. -/
  | maxn (d a b : SReg) (ea eb : Bool)
  /-- R98: Sequencer add of a sign-extended 15-bit immediate. -/
  | addi (d a : SReg) (e : Bool) (i : BitVec 15)
  /-- R98: Sequencer AND with a zero-extended immediate. -/
  | andi (d a : SReg) (e : Bool) (i : BitVec 15)
  /-- R98: Sequencer OR with a zero-extended immediate. -/
  | ori (d a : SReg) (e : Bool) (i : BitVec 15)
  /-- R98: Sequencer XOR with a zero-extended immediate. -/
  | xori (d a : SReg) (e : Bool) (i : BitVec 15)
  /-- R98: Sequencer shift left by an immediate amount. -/
  | slli (d a : SReg) (e : Bool) (n : Fin 64)
  /-- R98: Sequencer logical shift right by an immediate amount. -/
  | srli (d a : SReg) (e : Bool) (n : Fin 64)
  /-- R98: Sequencer arithmetic shift right by an immediate amount. -/
  | srai (d a : SReg) (e : Bool) (n : Fin 64)
  /-- R99: Writes imm << 16q to d, with the other bits zero. -/
  | movz (d : SReg) (q : Fin 4) (i : BitVec 16)
  /-- R99: Replaces quarter q of d with the immediate and keeps the other bits. -/
  | movk (d : SReg) (q : Fin 4) (i : BitVec 16)
  /-- R98: Sequencer signed less-than against a sign-extended immediate. -/
  | slti (d a : SReg) (e : Bool) (i : BitVec 15)
  /-- R98: Sequencer unsigned less-than against the sign-extended immediate. -/
  | sltni (d a : SReg) (e : Bool) (i : BitVec 15)
  /-- R98: Sequencer equality test against a sign-extended immediate. -/
  | seqi (d a : SReg) (e : Bool) (i : BitVec 15)
  /-- R100: Branches when s[a] equals zero. -/
  | beqz (a : SReg) (e : Bool) (i : BitVec 15)
  /-- R100: Branches when s[a] is not zero. -/
  | bnez (a : SReg) (e : Bool) (i : BitVec 15)
  /-- R100: Branches when s[a], read as signed, is below zero. -/
  | bltz (a : SReg) (e : Bool) (i : BitVec 15)
  /-- R100: Branches when s[a], read as signed, is at least zero. -/
  | bgez (a : SReg) (e : Bool) (i : BitVec 15)
  /-- R100: Branches when s[a], read as signed, is above zero. -/
  | bgtz (a : SReg) (e : Bool) (i : BitVec 15)
  /-- R100: Branches when s[a], read as signed, is at most zero. -/
  | blez (a : SReg) (e : Bool) (i : BitVec 15)
  /-- R100: Branches when bit c of s[a] is 1. -/
  | bbs (c : Fin 32) (a : SReg) (e : Bool) (i : BitVec 15)
  /-- R100: Branches when bit c of s[a] is 0. -/
  | bbc (c : Fin 32) (a : SReg) (e : Bool) (i : BitVec 15)
  /-- R100: Jumps by a 21-bit word offset and links P + 4 into d. -/
  | jal (d : SReg) (i : BitVec 21)
  /-- R100: Jumps to s[a] + 4 x sext(imm) and links P + 4 into d. -/
  | jalr (d a : SReg) (e : Bool) (i : BitVec 15)
  /-- R101: Starts hardware loop level v with count s[a] over the next n instructions, or skips the body when the count is 0. -/
  | loop (v : Fin 4) (a : SReg) (e : Bool) (n : BitVec 15)
  /-- R104: Starts loading a configuration image into planes p onward of every tile, or retires at once when the same image is resident. -/
  | cfg (a : SReg) (e : Bool) (p : Fin 4)
  /-- R105: Waits for the load, stores and hold writes, then starts a configuration period on the fabric load at plane p with the extents in s[a]. -/
  | run (a : SReg) (e : Bool) (p : Fin 4)
  /-- R106: Waits for the quiescence report of the period in progress and raises any held engine fault. -/
  | qwait
  /-- R108: Sends the active-message header s[b]:s[a] to an engine inbox, with the reply to d. -/
  | send (d a b : SReg) (ea eb : Bool)
  /-- R109: Samples the status word of the engine named by s[a] into d. -/
  | estat (d a : SReg) (e : Bool)
  /-- R111: Records the sequencer's arrival at barrier bN as a release at its scope. -/
  | arrive (b : Fin 128)
  /-- R111: Waits until the phase of the sequencer's latest arrive on bN completes, then acquires. -/
  | wait (b : Fin 128)
  /-- R112: Full fence: orders the sequencer's earlier ld, st and wld at scope gN. -/
  | fence (g : Fin 32)
  /-- R112: Acquire fence: later sequencer accesses follow every earlier ld and wld. -/
  | fenceAcq (g : Fin 32)
  /-- R112: Release fence: every earlier sequencer access is performed at scope before any later st. -/
  | fenceRel (g : Fin 32)
  /-- R113: The sequencer's pre-emption point: stops there when a pre-emption request is pending. -/
  | yield
  /-- R114: Reads 8 bytes of parameter window wN at s[a] + 8 x off into d. -/
  | wld (d a : SReg) (e : Bool) (w : Fin 8) (o : BitVec 12)
  /-- R115: Sequencer 8-byte scratchpad load at s[a] + 8 x sext(off). -/
  | ld (d a : SReg) (e : Bool) (i : BitVec 15)
  /-- R115: Sequencer 8-byte scratchpad store of s[v] at s[a] + 8 x sext(off). -/
  | st (v a : SReg) (ea ev : Bool) (i : BitVec 14)
  /-- R117: Binds the update region described at s[a] and writes its handle to d. -/
  | ubind (d a : SReg) (e : Bool)
  /-- R118: Applies every pending update of the region with handle s[a]. -/
  | uflush (a : SReg) (e : Bool)
  /-- R118: Applies and releases the update region with handle s[a]. -/
  | unbind (a : SReg) (e : Bool)
  /-- R315: Binds, or with s[b] = 0 removes, a data-triggered task for a tile; commits at the scheduler's acknowledgement. -/
  | tbind (a b : SReg) (ea eb : Bool)
  /-- R120: Reads a CSR into d. -/
  | csrr (d : SReg) (c : BitVec 12)
  /-- R120: Writes s[a] to a CSR under its access rules. -/
  | csrw (a : SReg) (e : Bool) (c : BitVec 12)
  /-- R120: Sets the bits of s[a] in the RW fields of a CSR. -/
  | csrs (a : SReg) (e : Bool) (c : BitVec 12)
  /-- R120: Clears the bits of s[a] in the RW fields of a CSR. -/
  | csrc (a : SReg) (e : Bool) (c : BitVec 12)
  /-- R121: Raises SEQ.TRAP with seq.tval := sext(imm). -/
  | trap (i : BitVec 15)
  /-- R122: Leaves a trap handler: h := 0 and pc := seq.epc. -/
  | tret
  /-- R123: Raises SEQ.BRK and freezes the context for debug. -/
  | brk (i : BitVec 9)
  /-- R124: Retires the graph with completion value s[a] after draining periods, engines, update regions and posted stores. -/
  | done (a : SReg) (e : Bool)
  /-- R61: A pending producer (engine reply, wld, estat or remote ld) writes its register and marks it full. -/
  | longLatencyWrite (c : CtxId) (k : Nat)
  /-- R129: Node operation that passes p0 or x through unchanged. -/
  | nop
  /-- R130: Lane integer add, wrapping or saturating. -/
  | addInteger (t : IntTy) (a b : Sel) (sat : Bool)
  /-- R130: Lane integer subtract, wrapping or saturating. -/
  | subInteger (t : IntTy) (a b : Sel) (sat : Bool)
  /-- R130: Lane integer multiply, wrapping or saturating. -/
  | mulInteger (t : IntTy) (a b : Sel) (sat : Bool)
  /-- R130: Lane integer high half of the product. -/
  | mulhInteger (t : IntTy) (a b : Sel)
  /-- R130: Lane integer a x b + c with one wrap or clamp. -/
  | mad (t : IntTy) (a b c : Sel) (sat : Bool)
  /-- R130: Lane integer negate. -/
  | negInteger (t : IntTy) (a : Sel) (sat : Bool)
  /-- R130: Lane integer absolute value. -/
  | absInteger (t : IntTy) (a : Sel) (sat : Bool)
  /-- R130: Lane integer minimum. -/
  | minInteger (t : IntTy) (a b : Sel)
  /-- R130: Lane integer maximum. -/
  | maxInteger (t : IntTy) (a b : Sel)
  /-- R131: Lane bitwise AND. -/
  | andInteger (t : IntTy) (a b : Sel)
  /-- R131: Lane bitwise OR. -/
  | orInteger (t : IntTy) (a b : Sel)
  /-- R131: Lane bitwise XOR. -/
  | xorInteger (t : IntTy) (a b : Sel)
  /-- R131: Lane complement of the n bits. -/
  | notInteger (t : IntTy) (a : Sel)
  /-- R131: Lane A AND NOT B. -/
  | andn (t : IntTy) (a b : Sel)
  /-- R131: Lane shift left. -/
  | shl (t : IntTy) (a b : Sel)
  /-- R131: Lane shift right, logical or arithmetic by type. -/
  | shr (t : IntTy) (a b : Sel)
  /-- R131: Lane rotate left. -/
  | rotl (t : IntTy) (a b : Sel)
  /-- R131: Lane rotate right. -/
  | rotr (t : IntTy) (a b : Sel)
  /-- R131: Lane count of leading zero bits. -/
  | clz (t : IntTy) (a : Sel)
  /-- R131: Lane count of one bits. -/
  | popc (t : IntTy) (a : Sel)
  /-- R132: Lane select of b where a is non-zero, else c. -/
  | sel (t : IntTy) (a b c : Sel)
  /-- R132: Lane integer compare under a condition code, writing 1 or 0. -/
  | cmpInteger (t : IntTy) (a b : Sel) (m : ICond)
  /-- R133: Lane floating-point add, rounded once. -/
  | addFloat (t : FltTy) (a b : Sel) (r : Rnd) (sat : Bool)
  /-- R133: Lane floating-point subtract, rounded once. -/
  | subFloat (t : FltTy) (a b : Sel) (r : Rnd) (sat : Bool)
  /-- R133: Lane floating-point multiply, rounded once. -/
  | mulFloat (t : FltTy) (a b : Sel) (r : Rnd) (sat : Bool)
  /-- R133: Lane fused multiply-add with one rounding. -/
  | fma (t : FltTy) (a b c : Sel) (r : Rnd) (sat : Bool)
  /-- R134: Lane floating-point minimum. -/
  | minFloat (t : FltTy) (a b : Sel)
  /-- R134: Lane floating-point maximum. -/
  | maxFloat (t : FltTy) (a b : Sel)
  /-- R134: Lane floating-point absolute value. -/
  | absFloat (t : FltTy) (a : Sel)
  /-- R134: Lane floating-point negate. -/
  | negFloat (t : FltTy) (a : Sel)
  /-- R135: Lane floating-point compare under a condition code, writing 1 or 0. -/
  | cmpFloat (t : FltTy) (a b : Sel) (m : FCond)
  /-- R136: Lane correctly rounded reciprocal. -/
  | rcp (t : FltTy) (a : Sel) (r : Rnd) (sat : Bool)
  /-- R136: Lane correctly rounded reciprocal square root. -/
  | rsqrt (t : FltTy) (a : Sel) (r : Rnd) (sat : Bool)
  /-- R136: Lane correctly rounded square root. -/
  | sqrt (t : FltTy) (a : Sel) (r : Rnd) (sat : Bool)
  /-- R136: Lane correctly rounded 2^a. -/
  | exp2 (t : FltTy) (a : Sel) (r : Rnd) (sat : Bool)
  /-- R136: Lane correctly rounded log2 a. -/
  | log2 (t : FltTy) (a : Sel) (r : Rnd) (sat : Bool)
  /-- R137: Converts from an integer type to the type named by C. -/
  | cvtIntegerSource (t : IntTy) (a : Sel) (c : CvtTy) (r : Rnd) (sat : Bool)
  /-- R137: Converts from a float type to the type named by C. -/
  | cvtFloatSource (t : FltTy) (a : Sel) (c : CvtTy) (r : Rnd) (sat : Bool)
  /-- R141: Quantises floats into a block format under the delivered scale and forwards per-lane scales. -/
  | quant (t : BlkTy) (a : Sel) (c : FltTy) (r : Rnd) (sat : Bool)
  /-- R142: Converts block elements to a float under their scale. -/
  | dequant (t : BlkTy) (a : Sel) (c : FltTy) (r : Rnd) (sat : Bool)
  /-- R143: Lane product of two block elements, rounded to binary32. -/
  | bmul (t : BlkTy) (a b : Sel) (c : BlkTy) (r : Rnd) (sat : Bool)
  /-- R144: Exact sum of block products over active lanes, rounded once into lane 0. -/
  | bdot (t : BlkTy) (a b : Sel) (c : BlkTy) (r : Rnd) (sat : Bool)
  /-- R145: Broadcasts one source lane to every active lane. -/
  | bcast (t : WTy) (a b : Sel)
  /-- R145: Moves source lanes by a per-lane index. -/
  | shuf (t : WTy) (a b : Sel)
  /-- R146: Integer reduction of active lanes by the fixed lane tree. -/
  | redInteger (t : IntTy) (a : Sel) (c : RedOp) (sat : Bool)
  /-- R146: Float reduction of active lanes by the fixed lane tree. -/
  | redFloat (t : FltTy) (a : Sel) (c : FRedOp) (r : Rnd) (sat : Bool)
  /-- R147: Integer prefix fold in ascending lane order. -/
  | scanInteger (t : IntTy) (a : Sel) (c : RedOp) (sat : Bool)
  /-- R147: Float prefix fold in ascending lane order. -/
  | scanFloat (t : FltTy) (a : Sel) (c : FRedOp) (r : Rnd) (sat : Bool)
  /-- R153: Allocates a tag in an inner plain space in the ring of the firing's tag, waiting while the slot is live. -/
  | alloc (a : Sel)
  /-- R154: Frees the firing's tag once no other token bears it. -/
  | free (a : Sel)
  /-- R155: Emits A with the tag read from B. -/
  | retag (a b : Sel)
  /-- R156: Emits A with the parent of the firing's tag without freeing it. -/
  | ctag (a : Sel)
  /-- R157: Writes the firing's tag into every active lane. -/
  | tagrd (a : Sel)
  /-- R158: Sends B to output 0 or 1 by the condition in A. -/
  | steer (a b : Sel)
  /-- R160: Re-emits each arriving token unchanged in arrival order. -/
  | merge
  /-- R159: Carry gate: continues with a fresh iteration tag or exits by freeing the tag, and releases held round markers on a yield. -/
  | gate
  /-- R161: Re-emits its p0 token unchanged, kind included. -/
  | dup (a : Sel)
  /-- R162: Draws a call tag in a call or deep space and records the return continuation. -/
  | call (a : Sel)
  /-- R163: Returns A with the recorded caller tag to the recorded destination and frees the call tag. -/
  | ret (a : Sel)
  /-- R164: Integer reduction across the tags of a ring in ascending ordinal. -/
  | rdcInteger (t : IntTy) (a : Sel) (c : RedOp) (sat : Bool)
  /-- R164: Float reduction across the tags of a ring in ascending ordinal. -/
  | rdcFloat (t : FltTy) (a : Sel) (c : FRedOp) (r : Rnd) (sat : Bool)
  /-- R165: Contiguous scratchpad load. -/
  | lds (t : IntTy) (a : Sel) (o : Bool)
  /-- R165: Contiguous scratchpad store. -/
  | sts (t : IntTy) (a b : Sel) (o : Bool)
  /-- R165: Contiguous global load. -/
  | ldg (t : IntTy) (a : Sel) (o : Bool)
  /-- R165: Contiguous global store. -/
  | stg (t : IntTy) (a b : Sel) (o : Bool)
  /-- R165: Global load of each lane at base + s x index. -/
  | gather (t : IntTy) (a b : Sel) (o : Bool)
  /-- R165: Scratchpad store of each lane at its own address. -/
  | scatter (t : IntTy) (a b : Sel) (o : Bool)
  /-- R169: Global acquire load at scope gN. -/
  | ldacq (t : IntTy) (a : Sel) (g : Fin 32) (o : Bool)
  /-- R169: Global release store at scope gN. -/
  | strel (t : IntTy) (a b : Sel) (g : Fin 32) (o : Bool)
  /-- R170: Scratchpad atomic integer add returning the old value. -/
  | atomIadd (t : WTy) (a b : Sel)
  /-- R170: Scratchpad atomic minimum returning the old value. -/
  | atomImin (t : WTy) (a b : Sel)
  /-- R170: Scratchpad atomic maximum returning the old value. -/
  | atomImax (t : WTy) (a b : Sel)
  /-- R170: Scratchpad atomic AND returning the old value. -/
  | atomAnd (t : WTy) (a b : Sel)
  /-- R170: Scratchpad atomic OR returning the old value. -/
  | atomOr (t : WTy) (a b : Sel)
  /-- R170: Scratchpad atomic XOR returning the old value. -/
  | atomXor (t : WTy) (a b : Sel)
  /-- R170: Scratchpad atomic exchange. -/
  | atomXchg (t : WTy) (a b : Sel)
  /-- R170: Scratchpad atomic compare-and-swap. -/
  | atomCas (t : WTy) (a b c : Sel)
  /-- R171: Looks up a key in the SP unit's tag table. -/
  | lookup (a : Sel)
  /-- R171: Inserts or replaces a key's value in the SP unit's tag table. -/
  | insert (a b : Sel)
  /-- R171: Invalidates a key's entry in the SP unit's tag table. -/
  | evict (a : Sel)
  /-- R172: Emits (offset, value) pairs into an update region toward the sorters. -/
  | upd (t : WTy) (a b : Sel)
  /-- R173: Records the PE's arrival at barrier bN as a release and emits. -/
  | arriveNode (b : Fin 128)
  /-- R173: Holds until the phase of the PE's latest arrive completes, then acquires and emits. -/
  | waitNode (b : Fin 128)
  /-- R174: Orders the PE's accesses at scope gN as full, acquire or release. -/
  | fenceNode (g : Fin 32) (k : FenceKind)
  /-- R175: Marks an iteration that may yield, letting a gate release held markers. -/
  | yieldNode
  /-- R177: Sends an active-message header from lane pair 0 of A and B to an engine inbox. -/
  | sendNode (a b : Sel)
  /-- R178: Raises OP.TRAP with a 10-bit code and suspends the context. -/
  | trapNode (i : BitVec 10)
  /-- R179: Raises OP.BRK and freezes the context before the firing emits. -/
  | brkNode (i : BitVec 10)
  /-- R191: Copy engine linear copy of n bytes. -/
  | copyLin (c : Cluster) (u : Fin 16)
  /-- R191: Copy engine 2-D strided copy. -/
  | copy2d (c : Cluster) (u : Fin 16)
  /-- R191: Copy engine row gather by an index vector. -/
  | copyRows (c : Cluster) (u : Fin 16)
  /-- R193: Cuts CSR rows into virtual rows with carry entries and writes the body back for the next pass. -/
  | copySeg (c : Cluster) (u : Fin 16)
  /-- R196: Gather unit fills its press's operand latch from indexed rows. -/
  | gath (c : Cluster) (u : Fin 16)
  /-- R200: Press block-mode matrix multiply into a0 or a1. -/
  | pressMm (c : Cluster) (u : Fin 16)
  /-- R200: Press BF16 element-exponent matrix multiply into a0 or a1. -/
  | pressBf (c : Cluster) (u : Fin 16)
  /-- R207: Accumulator read (pread) of a tile and optionally its checksums to scratchpad. -/
  | pressRd (c : Cluster) (u : Fin 16)
  /-- R234: Jig classes every tile by the mask program and writes the class map, tile list and element masks. -/
  | maskCls (c : Cluster)
  /-- R181: An engine inbox with room accepts a waiting header. -/
  | inboxAccept (e : EngRef)
  /-- R368: A die's power governor grants leave to the oldest waiting press command or sorter apply. -/
  | leaveGrant (d : Die)
  /-- R183: An engine command completes: status word changes, reply is sent, leave is returned. -/
  | commitPoint (e : EngRef)
  /-- R185: A held follow-on header is delivered to and accepted by the inbox it names. -/
  | followOnDelivery (e : EngRef)
  /-- R377: A node-port reply is delivered into the fabric load of the period in progress, or raises OP.ILL. -/
  | replyTokenDelivery (c : CtxId) (k : Nat)
  /-- R25: A token reaching stage M matches its frame: the node fires, or the token is stored or spilled. -/
  | tokenMatch (c : CtxId) (k : Nat)
  /-- R105: A source node emits the next point of the iteration space with a fresh root tag. -/
  | indexTokenIssue (c : CtxId) (k : Nat)
  /-- R22: A space's allocator grants a waiting request once its slot is free. -/
  | tagAllocGrant (c : CtxId) (k : Nat)
  /-- R154: A waiting free completes after the tag's last other token is consumed. -/
  | freeComplete (c : CtxId) (f : Nat)
  /-- R32: A physical tile switches to the next virtual tile with a waiting token once its active one has drained. -/
  | planeSwitch (c : Cluster)
  /-- R104: A cfg load finishes writing its planes and hold records. -/
  | configurationLoadComplete (c : CtxId)
  /-- R15: The quiescence tree reports the region empty, ending the configuration period. -/
  | quiescenceReport (c : CtxId)
  /-- R37: The region watchdog reaches 2^24 idle cycles and retires the graph with SCHED.HANG. -/
  | watchdogTrip (c : CtxId)
  /-- R167: A memory node enters a waiting access in its address-compare queue; store ordering tokens are emitted. -/
  | memoryAccessAccept (c : CtxId) (k : Nat)
  /-- R243: An access takes effect at its point of coherence. -/
  | accessPerform (c : CtxId) (k : Nat)
  /-- R165: A load's result token is emitted once every active lane has returned. -/
  | loadResult (c : CtxId) (f : Nat)
  /-- R335: A memory-side TLB miss sends a miss token to the die's walker, or joins a walk in progress. -/
  | tlbMiss (k : Nat)
  /-- R337: The walker returns a leaf, fault or malformed result to the TLB. -/
  | walkResult (k : Nat)
  /-- R339: A fault token parks the access, sets ctx.fault, signals the vector and drains the context. -/
  | pageFault (k : Nat)
  /-- R257: An arrive message reaches the barrier block of its home cluster and is recorded. -/
  | barrierArrivalRecord (c : CtxId) (k : Nat)
  /-- R256: A completed barrier phase's message reaches a cluster and releases its held waits with an acquire. -/
  | phaseCompletion (c : CtxId) (k : Nat)
  /-- R210: A sorter accepts an update pair as a record in bin SRAM or in a spill run. -/
  | pairAccept (c : CtxId) (k : Nat)
  /-- R216: A sorter applies completed records into memory at will to free bin SRAM. -/
  | sorterApply (c : CtxId) (h : Fin 16) (stack : Fin 16)
  /-- R271: A host posted write arrives at the I/O die, is cut into line writes, or enters an ingress channel. -/
  | hostPostedWrite (req : BitVec 16) (w : HostWrite)
  /-- R271: The I/O die forwards a held posted write once earlier writes of its requester are acknowledged. -/
  | hostWriteForward (k : Nat)
  /-- R271: A home acknowledges a posted write on its route once its line writes are performed. -/
  | homeAcknowledgement (k : Nat) (stack : Fin 16)
  /-- R259: A host read of device memory, held behind its requester's writes, is served at the home. -/
  | hostRead (req : BitVec 16) (space : HostSpace) (a : BitVec 46) (n : Nat)
  /-- R269: A host atomic request is answered with Unsupported Request and changes nothing. -/
  | hostAtomicRequest (req : BitVec 16) (ia : BitVec 46)
  /-- R209: A peer read or write of local memory is served or, into a bound update region, discarded with MEM.UPDST. -/
  | peerAccess (ia : BitVec 48) (w : Option (List Byte)) (n : Nat)
  /-- R260: A posted store to a peer or host window is acknowledged over its route. -/
  | peerStoreAcknowledgement (k : Nat)
  /-- R352: A peer refuses a window access and the issuer raises LINK.REMOTE. -/
  | linkRemoteRefusal (k : Nat)
  /-- R351: A flit fails its CRC and is replayed; the sixteenth consecutive failure declares the port down. -/
  | flitCrcFailure (p : Port)
  /-- R351: Loss of lane lock lasting 2^20 cycles declares the port down. -/
  | laneLockLoss (p : Port)
  /-- R353: A Token Transport frame is retransmitted; the 64th retransmission declares the route down. -/
  | cttRetransmission (p : Fin 8)
  /-- R351: A write of 1 to lnk.ps down clears it and retrains the port. -/
  | portRetrain (p : Port)
  /-- R354: A posted store arriving at an enabled edge adder adds the local partial sums and writes or forwards the result. -/
  | edgeAdderStore (p : Port) (ia : BitVec 48) (bytes : List Byte)
  /-- R307: A launch token is consumed and its task enters the context's queue, or is refused with SCHED.TOKEN. -/
  | launch (c : CtxId)
  /-- R307: A resume token returns a Suspended context's task to the head of its queue, plain or in handler mode. -/
  | resume (c : CtxId)
  /-- R329: A retire token retires the context's graph with SCHED.KILL. -/
  | retire (c : CtxId)
  /-- R312: A mark token clears then sets resident bits of the dependency table. -/
  | mark (c : CtxId)
  /-- R329: A stop token pre-empts the running graph and leaves the context Suspended. -/
  | stop (c : CtxId)
  /-- R316: The scheduler places the highest-priority ready task on a free block, by fresh launch or restore. -/
  | taskPlace
  /-- R316: A ready task whose effective priority exceeds running tasks' held priority requests their pre-emption. -/
  | preemptRequest
  /-- R321: A draining region is fully frozen and its state is written to the save frame. -/
  | drainComplete (c : CtxId)
  /-- R326: A retiring context writes its completion token once the egress ring has room. -/
  | completionTokenWrite (c : CtxId)
  /-- R310: A write of ctx.ctl.en moves a context between Free and Idle. -/
  | ctxCtlEn (c : CtxId) (v : Bool)
  /-- R340: A write of ctx.fault.go declares a page fault resolved and requeues the context. -/
  | faultGo (c : CtxId) (req : BitVec 16)
  /-- R335: A write of pt.root, discarded unless no context holds a launched graph. -/
  | ptRootWrite (v : Word)
  /-- R335: A write of pt.inval.go starts a TLB invalidation on every die. -/
  | ptInval (v : Word)
  /-- R335: An invalidation ends once every access that used a removed entry is performed; busy clears. -/
  | invalidationComplete
  /-- R350: A write of fi.ctl arms an injection; a scratchpad injection flips its bit at once. -/
  | faultInjectionArm (v : Word)
  /-- R7: A write to any register without behaviour of its own, under its access codes. -/
  | registerWrite (off : BitVec 26) (v : Word)
  /-- R361: Security op 0x01 validates an image and writes it over the older flash copy. -/
  | loadFirmware
  /-- R361: A loaded kind 4 to 7 image is installed once no context holds a launched graph. -/
  | firmwareInstallation (kind : Fin 8)
  /-- R359: Security op 0x02 enrols a public key in a slot. -/
  | enrolKey
  /-- R359: Security op 0x03 disables a key slot. -/
  | disableSlot
  /-- R360: Security op 0x04 raises a kind's rollback floor. -/
  | raiseFloor
  /-- R362: Security op 0x05 writes a signed attestation report, or the identity key. -/
  | attest
  /-- R362: Security op 0x06 returns a fresh debug nonce. -/
  | debugChallenge
  /-- R362: Security op 0x07 unlocks the debug block on a valid owner signature of the nonce. -/
  | debugUnlock
  /-- R362: Security op 0x08 locks the debug block. -/
  | debugLock
  /-- R363: Security op 0x09 writes dev.fmask once no context holds a launched graph. -/
  | writeFmask
  /-- R356: A device reset runs the boot stages, or enters minimal mode after three failed starts. -/
  | reset
  /-- R356: A start that has not reached stage 5 within 2^34 cycles fails. -/
  | bootTimeout
  /-- R357: A write of boot.ctl.retry clears the failed-start count and resets the device. -/
  | bootRetry
  /-- R369: Every 1,024 cycles the governor reads the hottest junction and throttles, stops grants or trips. -/
  | thermalSample (d : Die) (t : Nat)
  /-- R370: Every 2^20 cycles the management core writes the other telemetry copy and flips the index word. -/
  | telemetrySnapshot
  /-- R345: Background HBM scrubbing reads words, correcting single-bit errors and logging uncorrectable ones. -/
  | scrubPass (d : Die) (w : BitVec 40)
  /-- R67: A sequencer word with an unused opcode, fn, condition code or non-zero zero field that is reached at run time raises OP.ILL at its address and changes no state. -/
  | illegalSequencerWord (w : BitVec 32)
  /-- R218: A sorter finishes the apply of a binding that uflush, unbind, done or a period-count wrap started, returns its leave, and lets the waiting instruction retire. -/
  | applyCompletion (c : CtxId)
  /-- R119: The scheduler's acknowledgement of a tbind retires it and commits the binding, and the tile's waiting triggers issue from the new binding. -/
  | tbindCommit (c : CtxId)
  /-- R351: A Cymas Link port finishes training, sets up and its lane count, and starts carrying traffic. -/
  | portTrained (p : Port) (lanes : Fin 3)
  deriving DecidableEq, Repr, Inhabited

end Sys2Proof
end

