-- ==== Sys2Proof/WellFormed.lean ====
section
/-! DEFINITION. What makes a term of `Instr` an operation of the part: the restrictions that the encodings cannot hold
by the types of the operands alone (R62, R67, R71, R75, R81, R127, R139, R148, R366). -/

namespace Sys2Proof

/-- The CSR numbers that R366 assigns.  Every other number is refused (R67). -/
def csrAssigned (c : Nat) : Bool :=
  c ≤ 0x004 || (0x010 ≤ c && c ≤ 0x01B) || (0x020 ≤ c && c ≤ 0x024) || (0x040 ≤ c && c ≤ 0x05F) ||
  (0x060 ≤ c && c ≤ 0x090) || (0x0A0 ≤ c && c ≤ 0x0A3) || (0x0C0 ≤ c && c ≤ 0x100)

/-- A block operand may be read only from a port or from x (R127, R139). -/
def Sel.blockOk : Sel → Bool
  | .port _ => true
  | .x => true
  | .hold _ | .const _ | .lane | .ord | .zero | .win => false

/-- Whether a conversion's destination is a float type, so that its rounding field is legal on opcode 0x40 (R137). -/
def CvtTy.isFlt : CvtTy → Bool
  | .int _ => false
  | .flt _ => true

/-- Whether dequant rounds: its destination is binary16 or BF16 (R142). -/
def FltTy.narrow : FltTy → Bool
  | .f16 | .b16 => true
  | .f32 | .f64 => false

/-- The rounding and saturation fields of a float red, scan or rdc: min and max carry none (R127, R164). -/
def FRedOp.fieldsOk (c : FRedOp) (r : Rnd) (sat : Bool) : Bool :=
  match c with
  | .add => true
  | .min | .max => decide (r = .rne) && !sat

/-- The units of an engine class within a cluster (R81): copy 0 to 3, gather 0 to 15, press 0 to 15, jig 0. -/
def EngClass.units : EngClass → Nat
  | .copy => 4
  | .gather => 16
  | .press => 16
  | .jig => 1

/-- An engine reference names a unit that its class has (R81). -/
def EngRef.wf (e : EngRef) : Bool := decide (e.unit.val < e.cls.units)

/-- A host write carries 1 to 4,096 bytes (R269), and an ingress token is 64 bytes, eight words (R306). -/
def HostWrite.wf : HostWrite → Bool
  | .memory _ bs => decide (0 < bs.length ∧ bs.length ≤ 4096)
  | .physical _ bs => decide (0 < bs.length ∧ bs.length ≤ 4096)
  | .ingress _ t => decide (t.length = 8)

/-- The operation is one that its row of the opcode table admits. -/
def Instr.wf : Instr → Bool
  | .loop _ _ _ n => n != 0
  | .csrr _ c => csrAssigned c.toNat
  | .csrw _ _ c => csrAssigned c.toNat
  | .csrs _ _ c => csrAssigned c.toNat
  | .csrc _ _ c => csrAssigned c.toNat
  | .cvtIntegerSource _ _ c r _ => c.isFlt || decide (r = .rne)
  | .dequant _ a c r _ => a.blockOk && (c.narrow || decide (r = .rne))
  | .bmul _ a b _ _ _ => a.blockOk && b.blockOk
  | .bdot _ a b _ _ _ => a.blockOk && b.blockOk
  | .redFloat _ _ c r sat => c.fieldsOk r sat
  | .scanFloat _ _ c r sat => c.fieldsOk r sat
  | .rdcFloat _ _ c r sat => c.fieldsOk r sat
  | .copyLin _ u => decide (u.val < 4)
  | .copy2d _ u => decide (u.val < 4)
  | .copyRows _ u => decide (u.val < 4)
  | .copySeg _ u => decide (u.val < 4)
  | .inboxAccept e => e.wf
  | .commitPoint e => e.wf
  | .followOnDelivery e => e.wf
  | .hostPostedWrite _ w => w.wf
  | .firmwareInstallation k => decide (4 ≤ k.val)
  | _ => true

end Sys2Proof
end

