-- ==== Sys2Proof/Decode.lean ====
section
/-! DEFINITION. Decoding of every word kind of R59, total, with refusals by name, and the encoder of the two kinds of
operation words.  A sequencer word is decoded as R60 to R67 draw it, a node operation word as R70 to R77, R127 and R148
do.  Head, emit and switch words, active-message headers and mask words follow R69, R74, R78, R79, R81, R82 and R83. -/

namespace Sys2Proof

/-- Bits `hi:lo` of a word. -/
def bits (w hi lo : Nat) : Nat := w / 2 ^ lo % 2 ^ (hi + 1 - lo)

/-- One bit of a word. -/
def bit (w i : Nat) : Bool := w / 2 ^ i % 2 == 1

/-- A bit as a number. -/
def bitN (b : Bool) : Nat := if b then 1 else 0

/-! ## Why a word is refused -/

/-- The faults of a sequencer word that R67 lists. -/
inductive SeqIll where
  | opcode (op : Nat)
  | fn (fn : Nat)
  | cond (c : Nat)
  | unusedField
  | immediate
  | csr (n : Nat)
  | loopLength
  deriving DecidableEq, Repr

/-- The faults of a node operation word (R71, R72, R75, R127, R148). -/
inductive NodeIll where
  | opcode (op : Nat)
  | type (t : Nat)
  | unusedOperand
  | code (c : Nat)
  | rounding
  | saturate
  | modifier
  | blockOperand
  deriving DecidableEq, Repr

/-- The first named check that fails, or the result. -/
def firstBad {ε α : Type} : List (Bool × ε) → α → Except ε α
  | [], r => .ok r
  | (true, _) :: t, r => firstBad t r
  | (false, e) :: _, _ => .error e

/-! ## Codes of the enumerations -/

/-- The type code of an integer type (R71). -/
def IntTy.code : IntTy → Nat
  | .i8 => 0 | .i16 => 1 | .i32 => 2 | .i64 => 3 | .n8 => 4 | .n16 => 5 | .n32 => 6 | .n64 => 7

/-- The integer type of a code below 8 (R71). -/
def IntTy.ofCode : Nat → IntTy
  | 0 => .i8 | 1 => .i16 | 2 => .i32 | 3 => .i64 | 4 => .n8 | 5 => .n16 | 6 => .n32 | _ => .n64

/-- The type code of a float type (R71). -/
def FltTy.code : FltTy → Nat
  | .f16 => 0 | .b16 => 1 | .f32 => 2 | .f64 => 3

/-- The float type of a code; codes 4 to 7 are refused (R71). -/
def FltTy.ofCode? : Nat → Option FltTy
  | 0 => some .f16 | 1 => some .b16 | 2 => some .f32 | 3 => some .f64 | _ => none

/-- The type code of a block type (R71). -/
def BlkTy.code : BlkTy → Nat
  | .bx2 => 0 | .bx3 => 1 | .bx4 => 2 | .bx5 => 3 | .bx6 => 4 | .bx7 => 5 | .bx8 => 6

/-- The block type of a code; code 7 is refused (R71). -/
def BlkTy.ofCode? : Nat → Option BlkTy
  | 0 => some .bx2 | 1 => some .bx3 | 2 => some .bx4 | 3 => some .bx5 | 4 => some .bx6 | 5 => some .bx7
  | 6 => some .bx8 | _ => none

/-- The code of a width type (R71, R145). -/
def WTy.code : WTy → Nat
  | .i32 => 2 | .i64 => 3 | .n32 => 6 | .n64 => 7

/-- The width type of a code; codes 0, 1, 4 and 5 are refused (R71). -/
def WTy.ofCode? : Nat → Option WTy
  | 2 => some .i32 | 3 => some .i64 | 6 => some .n32 | 7 => some .n64 | _ => none

/-- The unified code of a conversion type (R71). -/
def CvtTy.code : CvtTy → Nat
  | .int t => t.code
  | .flt t => 8 + t.code

/-- The conversion type of a unified code; codes 12 to 31 are refused (R71). -/
def CvtTy.ofCode? (c : Nat) : Option CvtTy :=
  if c < 8 then some (.int (IntTy.ofCode c)) else (FltTy.ofCode? (c - 8)).map .flt

/-- The select code of an operand (R72). -/
def Sel.code : Sel → Nat
  | .port p => p.val
  | .x => 3
  | .hold h => 4 + h.val
  | .const k => 20 + k.val
  | .lane => 28
  | .ord => 29
  | .zero => 30
  | .win => 31

/-- The operand of a select code below 32 (R72). -/
def Sel.ofCode (n : Nat) : Sel :=
  if n < 3 then .port (Fin.ofNat 3 n)
  else if n = 3 then .x
  else if n < 20 then .hold (Fin.ofNat 16 (n - 4))
  else if n < 28 then .const (Fin.ofNat 8 (n - 20))
  else if n = 28 then .lane
  else if n = 29 then .ord
  else if n = 30 then .zero
  else .win

/-- The rounding field <5:4> of a mode (R47). -/
def Rnd.field : Rnd → Nat
  | .rne => 0 | .rz => 1 | .ru => 2 | .rd => 3 | .sr => 0

/-- The modifier field of a mode: bit <2> selects SR (R47). -/
def Rnd.modField : Rnd → Nat
  | .sr => 4
  | .rne | .rz | .ru | .rd => 0

/-- The mode of a rounding field and a modifier field (R47): SR with a non-zero rounding field is no instruction. -/
def Rnd.ofFields? (rnd mod : Nat) : Option Rnd :=
  match rnd, mod with
  | 0, 0 => some .rne
  | 1, 0 => some .rz
  | 2, 0 => some .ru
  | 3, 0 => some .rd
  | 0, 4 => some .sr
  | _, _ => none

/-- The condition code of an integer compare (R132). -/
def ICond.code : ICond → Nat
  | .eq => 0 | .ne => 1 | .lt => 2 | .le => 3 | .gt => 4 | .ge => 5

/-- The integer condition of a code; codes 6 and 7 are refused (R127). -/
def ICond.ofCode? : Nat → Option ICond
  | 0 => some .eq | 1 => some .ne | 2 => some .lt | 3 => some .le | 4 => some .gt | 5 => some .ge | _ => none

/-- The condition code of a float compare (R135). -/
def FCond.code : FCond → Nat
  | .eq => 0 | .ne => 1 | .lt => 2 | .le => 3 | .gt => 4 | .ge => 5 | .un => 6

/-- The float condition of a code; code 7 is refused (R127). -/
def FCond.ofCode? : Nat → Option FCond
  | 0 => some .eq | 1 => some .ne | 2 => some .lt | 3 => some .le | 4 => some .gt | 5 => some .ge | 6 => some .un
  | _ => none

/-- The code of an integer operator of red, scan and rdc (R146). -/
def RedOp.code : RedOp → Nat
  | .add => 0 | .min => 1 | .max => 2 | .and => 3 | .or => 4 | .xor => 5

/-- The integer operator of a code; codes above 5 are refused (R164). -/
def RedOp.ofCode? : Nat → Option RedOp
  | 0 => some .add | 1 => some .min | 2 => some .max | 3 => some .and | 4 => some .or | 5 => some .xor | _ => none

/-- The code of a float operator of red, scan and rdc (R146). -/
def FRedOp.code : FRedOp → Nat
  | .add => 0 | .min => 1 | .max => 2

/-- The float operator of a code; codes above 2 are refused (R164). -/
def FRedOp.ofCode? : Nat → Option FRedOp
  | 0 => some .add | 1 => some .min | 2 => some .max | _ => none

/-- The mod<1:0> code of a node fence and the imm<6:5> code of a sequencer fence (R62, R174). -/
def FenceKind.code : FenceKind → Nat
  | .full => 0 | .acq => 1 | .rel => 2

/-- The fence kind of a code; 3 is refused. -/
def FenceKind.ofCode? : Nat → Option FenceKind
  | 0 => some .full | 1 => some .acq | 2 => some .rel | _ => none

/-- The header class code of an engine class (R81). -/
def EngClass.code : EngClass → Nat
  | .copy => 0 | .gather => 1 | .press => 2 | .jig => 3

/-- The engine class of a code; 4 to 15 are refused (R81). -/
def EngClass.ofCode? : Nat → Option EngClass
  | 0 => some .copy | 1 => some .gather | 2 => some .press | 3 => some .jig | _ => none

/-! ## Sequencer words -/

/-- The fields of a sequencer word in every format of R60. -/
structure SeqFields where
  op : Nat
  d : Nat
  a : Nat
  b : Nat
  ea : Bool
  eb : Bool
  fn : Nat
  e : Bool
  e2 : Bool
  imm : Nat
  deriving DecidableEq, Repr

/-- The fields of a sequencer word (R60): `ea`, `eb` and `fn` are those of format S, `e` and `imm` those of format I
and `e2` the second empty rule of format IS. -/
def seqFields (w : Nat) : SeqFields :=
  { op := bits w 31 26, d := bits w 25 21, a := bits w 20 16, b := bits w 15 11, ea := bit w 10, eb := bit w 9,
    fn := bits w 8 0, e := bit w 15, e2 := bit w 14, imm := bits w 14 0 }

/-- A register field. -/
def regOf (n : Nat) : SReg := Fin.ofNat 32 n

/-- The ALU group (R64). -/
def decodeAlu (f : SeqFields) : Except SeqIll Instr :=
  let d := regOf f.d
  let a := regOf f.a
  let b := regOf f.b
  match f.fn with
  | 0x00 => .ok (.add d a b f.ea f.eb)
  | 0x01 => .ok (.sub d a b f.ea f.eb)
  | 0x02 => .ok (.mul d a b f.ea f.eb)
  | 0x03 => .ok (.mulh d a b f.ea f.eb)
  | 0x04 => .ok (.mulhn d a b f.ea f.eb)
  | 0x05 => .ok (.and d a b f.ea f.eb)
  | 0x06 => .ok (.or d a b f.ea f.eb)
  | 0x07 => .ok (.xor d a b f.ea f.eb)
  | 0x08 => .ok (.sll d a b f.ea f.eb)
  | 0x09 => .ok (.srl d a b f.ea f.eb)
  | 0x0A => .ok (.sra d a b f.ea f.eb)
  | 0x0B => .ok (.slt d a b f.ea f.eb)
  | 0x0C => .ok (.sltn d a b f.ea f.eb)
  | 0x0D => .ok (.seq d a b f.ea f.eb)
  | 0x0E => .ok (.min d a b f.ea f.eb)
  | 0x0F => .ok (.max d a b f.ea f.eb)
  | 0x10 => .ok (.minn d a b f.ea f.eb)
  | 0x11 => .ok (.maxn d a b f.ea f.eb)
  | n => .error (.fn n)

/-- The shift-immediate opcode (R62): imm<5:0> the amount, imm<7:6> the kind, imm<14:8> zero. -/
def decodeShift (f : SeqFields) : Except SeqIll Instr :=
  let n := Fin.ofNat 64 f.imm
  match f.imm / 64 with
  | 0 => .ok (.slli (regOf f.d) (regOf f.a) f.e n)
  | 1 => .ok (.srli (regOf f.d) (regOf f.a) f.e n)
  | 2 => .ok (.srai (regOf f.d) (regOf f.a) f.e n)
  | _ => .error .immediate

/-- The branches against zero (R65). -/
def decodeBranch (f : SeqFields) : Except SeqIll Instr :=
  let i := BitVec.ofNat 15 f.imm
  match f.d with
  | 0 => .ok (.beqz (regOf f.a) f.e i)
  | 1 => .ok (.bnez (regOf f.a) f.e i)
  | 2 => .ok (.bltz (regOf f.a) f.e i)
  | 3 => .ok (.bgez (regOf f.a) f.e i)
  | 4 => .ok (.bgtz (regOf f.a) f.e i)
  | 5 => .ok (.blez (regOf f.a) f.e i)
  | c => .error (.cond c)

/-- The fence opcode (R62): imm<4:0> the scope, imm<6:5> the kind, imm<14:7> zero. -/
def decodeSeqFence (f : SeqFields) : Except SeqIll Instr :=
  let g := Fin.ofNat 32 f.imm
  firstBad [(f.d == 0 && f.a == 0 && !f.e, .unusedField)] () |>.bind fun _ =>
  match f.imm / 32 with
  | 0 => .ok (.fence g)
  | 1 => .ok (.fenceAcq g)
  | 2 => .ok (.fenceRel g)
  | _ => .error .immediate

/-- A sequencer word decodes to its instruction, or is refused under R67. -/
def decodeSeq (w : Nat) : Except SeqIll Instr :=
  let f := seqFields w
  let d := regOf f.d
  let a := regOf f.a
  let b := regOf f.b
  let i := BitVec.ofNat 15 f.imm
  let p := Fin.ofNat 4 f.fn
  match f.op with
  | 0x00 => decodeAlu f
  | 0x01 => .ok (.addi d a f.e i)
  | 0x02 => .ok (.andi d a f.e i)
  | 0x03 => .ok (.ori d a f.e i)
  | 0x04 => .ok (.xori d a f.e i)
  | 0x05 => decodeShift f
  | 0x06 => firstBad [(bits w 18 16 == 0, .unusedField)]
      (.movz d (Fin.ofNat 4 (bits w 20 19)) (BitVec.ofNat 16 w))
  | 0x07 => firstBad [(bits w 18 16 == 0, .unusedField)]
      (.movk d (Fin.ofNat 4 (bits w 20 19)) (BitVec.ofNat 16 w))
  | 0x08 => .ok (.slti d a f.e i)
  | 0x09 => .ok (.sltni d a f.e i)
  | 0x0A => .ok (.seqi d a f.e i)
  | 0x10 => decodeBranch f
  | 0x11 => .ok (.bbs (Fin.ofNat 32 f.d) a f.e i)
  | 0x12 => .ok (.bbc (Fin.ofNat 32 f.d) a f.e i)
  | 0x13 => .ok (.jal d (BitVec.ofNat 21 w))
  | 0x14 => .ok (.jalr d a f.e i)
  | 0x18 => firstBad [(bits w 23 21 == 0, .unusedField), (f.imm != 0, .loopLength)]
      (.loop (Fin.ofNat 4 (bits w 25 24)) a f.e i)
  | 0x19 => firstBad [(f.d == 0 && f.b == 0 && !f.eb && f.fn / 4 == 0, .unusedField)] (.cfg a f.ea p)
  | 0x1A => firstBad [(f.d == 0 && f.b == 0 && !f.eb && f.fn / 4 == 0, .unusedField)] (.run a f.ea p)
  | 0x1B => firstBad [(bits w 25 0 == 0, .unusedField)] .qwait
  | 0x20 => firstBad [(f.fn == 0, .unusedField)] (.send d a b f.ea f.eb)
  | 0x21 => firstBad [(f.b == 0 && !f.eb && f.fn == 0, .unusedField)] (.estat d a f.ea)
  | 0x22 => firstBad [(f.d == 0 && f.a == 0 && !f.e && f.imm / 128 == 0, .unusedField)] (.arrive (Fin.ofNat 128 f.imm))
  | 0x23 => firstBad [(f.d == 0 && f.a == 0 && !f.e && f.imm / 128 == 0, .unusedField)] (.wait (Fin.ofNat 128 f.imm))
  | 0x24 => decodeSeqFence f
  | 0x25 => firstBad [(bits w 25 0 == 0, .unusedField)] .yield
  | 0x26 => .ok (.wld d a f.e (Fin.ofNat 8 (bits w 14 12)) (BitVec.ofNat 12 w))
  | 0x27 => .ok (.ld d a f.e i)
  | 0x28 => .ok (.st d a f.e f.e2 (BitVec.ofNat 14 w))
  | 0x29 => firstBad [(f.b == 0 && !f.eb && f.fn == 0, .unusedField)] (.ubind d a f.ea)
  | 0x2A => firstBad [(f.d == 0 && f.b == 0 && !f.eb && f.fn == 0, .unusedField)] (.uflush a f.ea)
  | 0x2B => firstBad [(f.d == 0 && f.b == 0 && !f.eb && f.fn == 0, .unusedField)] (.unbind a f.ea)
  | 0x2C => firstBad [(f.d == 0 && f.fn == 0, .unusedField)] (.tbind a b f.ea f.eb)
  | 0x30 => firstBad [(f.a == 0 && !f.e && f.imm / 4096 == 0, .unusedField),
      (csrAssigned (f.imm % 4096), .csr f.imm)] (.csrr d (BitVec.ofNat 12 w))
  | 0x31 => firstBad [(f.d == 0 && f.imm / 4096 == 0, .unusedField), (csrAssigned (f.imm % 4096), .csr f.imm)]
      (.csrw a f.e (BitVec.ofNat 12 w))
  | 0x32 => firstBad [(f.d == 0 && f.imm / 4096 == 0, .unusedField), (csrAssigned (f.imm % 4096), .csr f.imm)]
      (.csrs a f.e (BitVec.ofNat 12 w))
  | 0x33 => firstBad [(f.d == 0 && f.imm / 4096 == 0, .unusedField), (csrAssigned (f.imm % 4096), .csr f.imm)]
      (.csrc a f.e (BitVec.ofNat 12 w))
  | 0x38 => firstBad [(f.d == 0 && f.a == 0 && !f.e, .unusedField)] (.trap i)
  | 0x39 => firstBad [(bits w 25 0 == 0, .unusedField)] .tret
  | 0x3A => firstBad [(bits w 25 9 == 0, .unusedField)] (.brk (BitVec.ofNat 9 w))
  | 0x3B => firstBad [(f.d == 0 && f.b == 0 && !f.eb && f.fn == 0, .unusedField)] (.done a f.ea)
  | n => .error (.opcode n)

/-! ## Node operation words -/

/-- The fields of a node operation word (R70). -/
structure NodeFields where
  op : Nat
  t : Nat
  a : Nat
  b : Nat
  c : Nat
  rnd : Nat
  sat : Bool
  mod : Nat
  deriving DecidableEq, Repr

/-- The fields of a node operation word (R70). -/
def nodeFields (w : Nat) : NodeFields :=
  { op := bits w 31 24, t := bits w 23 21, a := bits w 20 16, b := bits w 15 11, c := bits w 10 6,
    rnd := bits w 5 4, sat := bit w 3, mod := bits w 2 0 }

/-- The type field of a family, or its refusal (R71). -/
def typed {α : Type} (f : NodeFields) (t : Option α) (k : α → Except NodeIll Instr) : Except NodeIll Instr :=
  match t with
  | some v => k v
  | none => .error (.type f.t)

/-- A C field that holds a code, or its refusal. -/
def coded {α : Type} (f : NodeFields) (c : Option α) (k : α → Except NodeIll Instr) : Except NodeIll Instr :=
  match c with
  | some v => k v
  | none => .error (.code f.c)

/-- The rounding mode of an operation that rounds (R47, R127). -/
def rounded (f : NodeFields) (k : Rnd → Except NodeIll Instr) : Except NodeIll Instr :=
  match Rnd.ofFields? f.rnd f.mod with
  | some r => k r
  | none => .error .rounding

/-- The checks of the fields an operation does not use: operands carry 30, rnd, sat and mod are 0 (R72, R127, R148). -/
def unusedB (f : NodeFields) : Bool × NodeIll := (f.b == 30, .unusedOperand)
@[inherit_doc unusedB] def unusedC (f : NodeFields) : Bool × NodeIll := (f.c == 30, .unusedOperand)
@[inherit_doc unusedB] def unusedA (f : NodeFields) : Bool × NodeIll := (f.a == 30, .unusedOperand)
@[inherit_doc unusedB] def noType (f : NodeFields) : Bool × NodeIll := (f.t == 0, .type f.t)
@[inherit_doc unusedB] def noRnd (f : NodeFields) : Bool × NodeIll := (f.rnd == 0, .rounding)
@[inherit_doc unusedB] def noSat (f : NodeFields) : Bool × NodeIll := (!f.sat, .saturate)
@[inherit_doc unusedB] def noMod (f : NodeFields) : Bool × NodeIll := (f.mod == 0, .modifier)
@[inherit_doc unusedB] def ordMod (f : NodeFields) : Bool × NodeIll := (decide (f.mod < 2), .modifier)

/-- An integer operation of one operand (R130, R131). -/
def dInt1 (f : NodeFields) (k : IntTy → Sel → Instr) : Except NodeIll Instr :=
  firstBad [unusedB f, unusedC f, noRnd f, noSat f, noMod f] (k (IntTy.ofCode f.t) (Sel.ofCode f.a))

/-- An integer operation of one operand that may saturate (R130). -/
def dInt1s (f : NodeFields) (k : IntTy → Sel → Bool → Instr) : Except NodeIll Instr :=
  firstBad [unusedB f, unusedC f, noRnd f, noMod f] (k (IntTy.ofCode f.t) (Sel.ofCode f.a) f.sat)

/-- An integer operation of two operands (R130, R131). -/
def dInt2 (f : NodeFields) (k : IntTy → Sel → Sel → Instr) : Except NodeIll Instr :=
  firstBad [unusedC f, noRnd f, noSat f, noMod f] (k (IntTy.ofCode f.t) (Sel.ofCode f.a) (Sel.ofCode f.b))

/-- An integer operation of two operands that may saturate (R130). -/
def dInt2s (f : NodeFields) (k : IntTy → Sel → Sel → Bool → Instr) : Except NodeIll Instr :=
  firstBad [unusedC f, noRnd f, noMod f] (k (IntTy.ofCode f.t) (Sel.ofCode f.a) (Sel.ofCode f.b) f.sat)

/-- A rounding float operation of one operand (R136). -/
def dFlt1 (f : NodeFields) (k : FltTy → Sel → Rnd → Bool → Instr) : Except NodeIll Instr :=
  typed f (FltTy.ofCode? f.t) fun t => rounded f fun r =>
  firstBad [unusedB f, unusedC f] (k t (Sel.ofCode f.a) r f.sat)

/-- A rounding float operation of two operands (R133). -/
def dFlt2 (f : NodeFields) (k : FltTy → Sel → Sel → Rnd → Bool → Instr) : Except NodeIll Instr :=
  typed f (FltTy.ofCode? f.t) fun t => rounded f fun r =>
  firstBad [unusedC f] (k t (Sel.ofCode f.a) (Sel.ofCode f.b) r f.sat)

/-- A float operation that does not round, of one operand (R134). -/
def dFlt1x (f : NodeFields) (k : FltTy → Sel → Instr) : Except NodeIll Instr :=
  typed f (FltTy.ofCode? f.t) fun t =>
  firstBad [unusedB f, unusedC f, noRnd f, noSat f, noMod f] (k t (Sel.ofCode f.a))

/-- A float operation that does not round, of two operands (R134). -/
def dFlt2x (f : NodeFields) (k : FltTy → Sel → Sel → Instr) : Except NodeIll Instr :=
  typed f (FltTy.ofCode? f.t) fun t =>
  firstBad [unusedC f, noRnd f, noSat f, noMod f] (k t (Sel.ofCode f.a) (Sel.ofCode f.b))

/-- A conversion from a float, or a quant or dequant, with its unified code in C (R137, R141, R142). -/
def dCvt {α β : Type} (f : NodeFields) (t : Option α) (c : Option β) (ok : β → Rnd → Bool)
    (k : α → Sel → β → Rnd → Bool → Instr) : Except NodeIll Instr :=
  typed f t fun t => coded f c fun c => rounded f fun r =>
  firstBad [unusedB f, (ok c r, .rounding)] (k t (Sel.ofCode f.a) c r f.sat)

/-- A product of block elements (R143, R144). -/
def dBlk2 (f : NodeFields) (k : BlkTy → Sel → Sel → BlkTy → Rnd → Bool → Instr) : Except NodeIll Instr :=
  typed f (BlkTy.ofCode? f.t) fun t => coded f (BlkTy.ofCode? f.c) fun c => rounded f fun r =>
  firstBad [((Sel.ofCode f.a).blockOk && (Sel.ofCode f.b).blockOk, .blockOperand)]
    (k t (Sel.ofCode f.a) (Sel.ofCode f.b) c r f.sat)

/-- An integer red, scan or rdc (R146, R147, R164). -/
def dRedI (f : NodeFields) (k : IntTy → Sel → RedOp → Bool → Instr) : Except NodeIll Instr :=
  coded f (RedOp.ofCode? f.c) fun c =>
  firstBad [unusedB f, noRnd f, noMod f] (k (IntTy.ofCode f.t) (Sel.ofCode f.a) c f.sat)

/-- A float red, scan or rdc (R127, R146, R147, R164). -/
def dRedF (f : NodeFields) (k : FltTy → Sel → FRedOp → Rnd → Bool → Instr) : Except NodeIll Instr :=
  typed f (FltTy.ofCode? f.t) fun t => coded f (FRedOp.ofCode? f.c) fun c => rounded f fun r =>
  firstBad [unusedB f, (c.fieldsOk r f.sat, .rounding)] (k t (Sel.ofCode f.a) c r f.sat)

/-- A lane move, atomic or pair emit with a width type and two operands (R145, R170, R172). -/
def dW2 (f : NodeFields) (k : WTy → Sel → Sel → Instr) : Except NodeIll Instr :=
  typed f (WTy.ofCode? f.t) fun t =>
  firstBad [unusedC f, noRnd f, noSat f, noMod f] (k t (Sel.ofCode f.a) (Sel.ofCode f.b))

/-- An operation without a type that reads A (R153 to R157, R161 to R163, R171). -/
def dNone1 (f : NodeFields) (k : Sel → Instr) : Except NodeIll Instr :=
  firstBad [noType f, unusedB f, unusedC f, noRnd f, noSat f, noMod f] (k (Sel.ofCode f.a))

/-- An operation without a type that reads A and B (R155, R158, R171, R177). -/
def dNone2 (f : NodeFields) (k : Sel → Sel → Instr) : Except NodeIll Instr :=
  firstBad [noType f, unusedC f, noRnd f, noSat f, noMod f] (k (Sel.ofCode f.a) (Sel.ofCode f.b))

/-- An operation without a type or operands (R129, R159, R160, R175). -/
def dNone0 (f : NodeFields) (k : Instr) : Except NodeIll Instr :=
  firstBad [noType f, unusedA f, unusedB f, unusedC f, noRnd f, noSat f, noMod f] k

/-- A load (R165): mod<0> is .ord. -/
def dLoad (f : NodeFields) (k : IntTy → Sel → Bool → Instr) : Except NodeIll Instr :=
  firstBad [unusedB f, unusedC f, noRnd f, noSat f, ordMod f] (k (IntTy.ofCode f.t) (Sel.ofCode f.a) (f.mod == 1))

/-- A store or gather (R165): mod<0> is .ord. -/
def dStore (f : NodeFields) (k : IntTy → Sel → Sel → Bool → Instr) : Except NodeIll Instr :=
  firstBad [unusedC f, noRnd f, noSat f, ordMod f]
    (k (IntTy.ofCode f.t) (Sel.ofCode f.a) (Sel.ofCode f.b) (f.mod == 1))

/-- A barrier operation (R75, R173): B holds N<4:0>, C<1:0> holds N<6:5>, and C<4:2> is zero. -/
def dBar (f : NodeFields) (k : Fin 128 → Instr) : Except NodeIll Instr :=
  firstBad [noType f, unusedA f, (f.c / 4 == 0, .code f.c), noRnd f, noSat f, noMod f]
    (k (Fin.ofNat 128 (f.c * 32 + f.b)))

/-- trap and brk (R178, R179): the code spans B and C. -/
def dCode (w : Nat) (f : NodeFields) (k : BitVec 10 → Instr) : Except NodeIll Instr :=
  firstBad [noType f, unusedA f, noRnd f, noSat f, noMod f] (k (BitVec.ofNat 10 (bits w 15 6)))

/-- A node operation word decodes to its operation, or is refused under R75, R127 and R148. -/
def decodeNode (w : Nat) : Except NodeIll Instr :=
  let f := nodeFields w
  let a := Sel.ofCode f.a
  let b := Sel.ofCode f.b
  let c := Sel.ofCode f.c
  let it := IntTy.ofCode f.t
  match f.op with
  | 0x00 => dNone0 f .nop
  | 0x01 => dInt2s f .addInteger
  | 0x02 => dInt2s f .subInteger
  | 0x03 => dInt2s f .mulInteger
  | 0x04 => dInt2 f .mulhInteger
  | 0x05 => firstBad [noRnd f, noMod f] (.mad it a b c f.sat)
  | 0x06 => dInt1s f .negInteger
  | 0x07 => dInt1s f .absInteger
  | 0x08 => dInt2 f .minInteger
  | 0x09 => dInt2 f .maxInteger
  | 0x0A => dInt2 f .andInteger
  | 0x0B => dInt2 f .orInteger
  | 0x0C => dInt2 f .xorInteger
  | 0x0D => dInt1 f .notInteger
  | 0x0E => dInt2 f .andn
  | 0x0F => dInt2 f .shl
  | 0x10 => dInt2 f .shr
  | 0x11 => dInt2 f .rotl
  | 0x12 => dInt2 f .rotr
  | 0x13 => dInt1 f .clz
  | 0x14 => dInt1 f .popc
  | 0x15 => firstBad [noRnd f, noSat f, noMod f] (.sel it a b c)
  | 0x16 => match ICond.ofCode? f.mod with
      | some m => firstBad [unusedC f, noRnd f, noSat f] (.cmpInteger it a b m)
      | none => .error .modifier
  | 0x30 => dFlt2 f .addFloat
  | 0x31 => dFlt2 f .subFloat
  | 0x32 => dFlt2 f .mulFloat
  | 0x33 => typed f (FltTy.ofCode? f.t) fun t => rounded f fun r => .ok (.fma t a b c r f.sat)
  | 0x34 => dFlt2x f .minFloat
  | 0x35 => dFlt2x f .maxFloat
  | 0x36 => dFlt1x f .absFloat
  | 0x37 => dFlt1x f .negFloat
  | 0x38 => typed f (FltTy.ofCode? f.t) fun t => match FCond.ofCode? f.mod with
      | some m => firstBad [unusedC f, noRnd f, noSat f] (.cmpFloat t a b m)
      | none => .error .modifier
  | 0x39 => dFlt1 f .rcp
  | 0x3A => dFlt1 f .rsqrt
  | 0x3B => dFlt1 f .sqrt
  | 0x3C => dFlt1 f .exp2
  | 0x3D => dFlt1 f .log2
  | 0x40 => dCvt f (some it) (CvtTy.ofCode? f.c) (fun c r => c.isFlt || decide (r = .rne)) .cvtIntegerSource
  | 0x41 => dCvt f (FltTy.ofCode? f.t) (CvtTy.ofCode? f.c) (fun _ _ => true) .cvtFloatSource
  | 0x48 => dCvt f (BlkTy.ofCode? f.t) (if f.c < 8 then none else FltTy.ofCode? (f.c - 8)) (fun _ _ => true) .quant
  | 0x49 => if a.blockOk then
      dCvt f (BlkTy.ofCode? f.t) (if f.c < 8 then none else FltTy.ofCode? (f.c - 8))
        (fun c r => c.narrow || decide (r = .rne)) .dequant
      else .error .blockOperand
  | 0x4A => dBlk2 f .bmul
  | 0x4B => dBlk2 f .bdot
  | 0x50 => dW2 f .bcast
  | 0x51 => dW2 f .shuf
  | 0x52 => dRedI f .redInteger
  | 0x53 => dRedF f .redFloat
  | 0x54 => dRedI f .scanInteger
  | 0x55 => dRedF f .scanFloat
  | 0x60 => dNone1 f .alloc
  | 0x61 => dNone1 f .free
  | 0x62 => dNone2 f .retag
  | 0x63 => dNone1 f .ctag
  | 0x64 => dNone1 f .tagrd
  | 0x68 => dNone2 f .steer
  | 0x69 => dNone0 f .merge
  | 0x6A => dNone0 f .gate
  | 0x6B => dNone1 f .dup
  | 0x6C => dNone1 f .call
  | 0x6D => dNone1 f .ret
  | 0x6E => dRedI f .rdcInteger
  | 0x6F => dRedF f .rdcFloat
  | 0x70 => dLoad f .lds
  | 0x71 => dStore f .sts
  | 0x72 => dLoad f .ldg
  | 0x73 => dStore f .stg
  | 0x74 => dStore f .gather
  | 0x75 => dStore f .scatter
  | 0x76 => firstBad [unusedB f, noRnd f, noSat f, ordMod f] (.ldacq it a (Fin.ofNat 32 f.c) (f.mod == 1))
  | 0x77 => firstBad [noRnd f, noSat f, ordMod f] (.strel it a b (Fin.ofNat 32 f.c) (f.mod == 1))
  | 0x80 => dW2 f .atomIadd
  | 0x81 => dW2 f .atomImin
  | 0x82 => dW2 f .atomImax
  | 0x83 => dW2 f .atomAnd
  | 0x84 => dW2 f .atomOr
  | 0x85 => dW2 f .atomXor
  | 0x86 => dW2 f .atomXchg
  | 0x87 => typed f (WTy.ofCode? f.t) fun t => firstBad [noRnd f, noSat f, noMod f] (.atomCas t a b c)
  | 0x88 => dNone1 f .lookup
  | 0x89 => dNone2 f .insert
  | 0x8A => dNone1 f .evict
  | 0x90 => dW2 f .upd
  | 0x98 => dBar f .arriveNode
  | 0x99 => dBar f .waitNode
  | 0x9A => match FenceKind.ofCode? f.mod with
      | some k => firstBad [noType f, unusedA f, unusedC f, noRnd f, noSat f] (.fenceNode (Fin.ofNat 32 f.b) k)
      | none => .error .modifier
  | 0x9B => dNone0 f .yieldNode
  | 0x9C => dNone2 f .sendNode
  | 0x9D => dCode w f .trapNode
  | 0x9E => dCode w f .brkNode
  | n => .error (.opcode n)

/-! ## The encoder -/

/-- A format S word (R60). -/
def packS (op d a b : Nat) (ea eb : Bool) (fn : Nat) : Nat :=
  op * 2 ^ 26 + d * 2 ^ 21 + a * 2 ^ 16 + b * 2 ^ 11 + bitN ea * 2 ^ 10 + bitN eb * 2 ^ 9 + fn

/-- A format I, B or L word (R60): `d` stands in <25:21> and `imm` in <14:0>. -/
def packI (op d a : Nat) (e : Bool) (imm : Nat) : Nat :=
  op * 2 ^ 26 + d * 2 ^ 21 + a * 2 ^ 16 + bitN e * 2 ^ 15 + imm

/-- A node operation word (R70). -/
def packN (op t a b c rnd : Nat) (sat : Bool) (mod : Nat) : Nat :=
  op * 2 ^ 24 + t * 2 ^ 21 + a * 2 ^ 16 + b * 2 ^ 11 + c * 2 ^ 6 + rnd * 2 ^ 4 + bitN sat * 2 ^ 3 + mod

/-- The word of a sequencer instruction (R60 to R65); nothing for any other operation. -/
def encodeSeq : Instr → Option Nat
  | .add d a b ea eb => some (packS 0 d.val a.val b.val ea eb 0)
  | .sub d a b ea eb => some (packS 0 d.val a.val b.val ea eb 1)
  | .mul d a b ea eb => some (packS 0 d.val a.val b.val ea eb 2)
  | .mulh d a b ea eb => some (packS 0 d.val a.val b.val ea eb 3)
  | .mulhn d a b ea eb => some (packS 0 d.val a.val b.val ea eb 4)
  | .and d a b ea eb => some (packS 0 d.val a.val b.val ea eb 5)
  | .or d a b ea eb => some (packS 0 d.val a.val b.val ea eb 6)
  | .xor d a b ea eb => some (packS 0 d.val a.val b.val ea eb 7)
  | .sll d a b ea eb => some (packS 0 d.val a.val b.val ea eb 8)
  | .srl d a b ea eb => some (packS 0 d.val a.val b.val ea eb 9)
  | .sra d a b ea eb => some (packS 0 d.val a.val b.val ea eb 10)
  | .slt d a b ea eb => some (packS 0 d.val a.val b.val ea eb 11)
  | .sltn d a b ea eb => some (packS 0 d.val a.val b.val ea eb 12)
  | .seq d a b ea eb => some (packS 0 d.val a.val b.val ea eb 13)
  | .min d a b ea eb => some (packS 0 d.val a.val b.val ea eb 14)
  | .max d a b ea eb => some (packS 0 d.val a.val b.val ea eb 15)
  | .minn d a b ea eb => some (packS 0 d.val a.val b.val ea eb 16)
  | .maxn d a b ea eb => some (packS 0 d.val a.val b.val ea eb 17)
  | .addi d a e i => some (packI 0x01 d.val a.val e i.toNat)
  | .andi d a e i => some (packI 0x02 d.val a.val e i.toNat)
  | .ori d a e i => some (packI 0x03 d.val a.val e i.toNat)
  | .xori d a e i => some (packI 0x04 d.val a.val e i.toNat)
  | .slti d a e i => some (packI 0x08 d.val a.val e i.toNat)
  | .sltni d a e i => some (packI 0x09 d.val a.val e i.toNat)
  | .seqi d a e i => some (packI 0x0A d.val a.val e i.toNat)
  | .jalr d a e i => some (packI 0x14 d.val a.val e i.toNat)
  | .ld d a e i => some (packI 0x27 d.val a.val e i.toNat)
  | .slli d a e n => some (packI 0x05 d.val a.val e (0 * 64 + n.val))
  | .srli d a e n => some (packI 0x05 d.val a.val e (1 * 64 + n.val))
  | .srai d a e n => some (packI 0x05 d.val a.val e (2 * 64 + n.val))
  | .movz d q i => some (0x06 * 2 ^ 26 + d.val * 2 ^ 21 + q.val * 2 ^ 19 + i.toNat)
  | .movk d q i => some (0x07 * 2 ^ 26 + d.val * 2 ^ 21 + q.val * 2 ^ 19 + i.toNat)
  | .beqz a e i => some (packI 0x10 0 a.val e i.toNat)
  | .bnez a e i => some (packI 0x10 1 a.val e i.toNat)
  | .bltz a e i => some (packI 0x10 2 a.val e i.toNat)
  | .bgez a e i => some (packI 0x10 3 a.val e i.toNat)
  | .bgtz a e i => some (packI 0x10 4 a.val e i.toNat)
  | .blez a e i => some (packI 0x10 5 a.val e i.toNat)
  | .bbs c a e i => some (packI 0x11 c.val a.val e i.toNat)
  | .bbc c a e i => some (packI 0x12 c.val a.val e i.toNat)
  | .jal d i => some (0x13 * 2 ^ 26 + d.val * 2 ^ 21 + i.toNat)
  | .loop v a e n => some (packI 0x18 (v.val * 8) a.val e n.toNat)
  | .cfg a e p => some (packS 0x19 0 a.val 0 e false p.val)
  | .run a e p => some (packS 0x1A 0 a.val 0 e false p.val)
  | .qwait => some (packS 0x1B 0 0 0 false false 0)
  | .yield => some (packS 0x25 0 0 0 false false 0)
  | .tret => some (packS 0x39 0 0 0 false false 0)
  | .send d a b ea eb => some (packS 0x20 d.val a.val b.val ea eb 0)
  | .estat d a e => some (packS 0x21 d.val a.val 0 e false 0)
  | .ubind d a e => some (packS 0x29 d.val a.val 0 e false 0)
  | .arrive b => some (packI 0x22 0 0 false b.val)
  | .wait b => some (packI 0x23 0 0 false b.val)
  | .fence g => some (packI 0x24 0 0 false (0 * 32 + g.val))
  | .fenceAcq g => some (packI 0x24 0 0 false (1 * 32 + g.val))
  | .fenceRel g => some (packI 0x24 0 0 false (2 * 32 + g.val))
  | .wld d a e w o => some (packI 0x26 d.val a.val e (w.val * 4096 + o.toNat))
  | .st v a ea ev i => some (packI 0x28 v.val a.val ea (bitN ev * 2 ^ 14 + i.toNat))
  | .uflush a e => some (packS 0x2A 0 a.val 0 e false 0)
  | .unbind a e => some (packS 0x2B 0 a.val 0 e false 0)
  | .done a e => some (packS 0x3B 0 a.val 0 e false 0)
  | .tbind a b ea eb => some (packS 0x2C 0 a.val b.val ea eb 0)
  | .csrr d c => some (packI 0x30 d.val 0 false c.toNat)
  | .csrw a e c => some (packI 0x31 0 a.val e c.toNat)
  | .csrs a e c => some (packI 0x32 0 a.val e c.toNat)
  | .csrc a e c => some (packI 0x33 0 a.val e c.toNat)
  | .trap i => some (packI 0x38 0 0 false i.toNat)
  | .brk i => some (packS 0x3A 0 0 0 false false i.toNat)
  | _ => none

/-- The word of a node operation (R70 to R77); nothing for any other operation. -/
def encodeNode : Instr → Option Nat
  | .nop => some (packN 0x00 0 30 30 30 0 false 0)
  | .addInteger t a b s => some (packN 0x01 t.code a.code b.code 30 0 s 0)
  | .subInteger t a b s => some (packN 0x02 t.code a.code b.code 30 0 s 0)
  | .mulInteger t a b s => some (packN 0x03 t.code a.code b.code 30 0 s 0)
  | .mad t a b c s => some (packN 0x05 t.code a.code b.code c.code 0 s 0)
  | .negInteger t a s => some (packN 0x06 t.code a.code 30 30 0 s 0)
  | .absInteger t a s => some (packN 0x07 t.code a.code 30 30 0 s 0)
  | .mulhInteger t a b => some (packN 0x04 t.code a.code b.code 30 0 false 0)
  | .minInteger t a b => some (packN 0x08 t.code a.code b.code 30 0 false 0)
  | .maxInteger t a b => some (packN 0x09 t.code a.code b.code 30 0 false 0)
  | .andInteger t a b => some (packN 0x0A t.code a.code b.code 30 0 false 0)
  | .orInteger t a b => some (packN 0x0B t.code a.code b.code 30 0 false 0)
  | .xorInteger t a b => some (packN 0x0C t.code a.code b.code 30 0 false 0)
  | .andn t a b => some (packN 0x0E t.code a.code b.code 30 0 false 0)
  | .shl t a b => some (packN 0x0F t.code a.code b.code 30 0 false 0)
  | .shr t a b => some (packN 0x10 t.code a.code b.code 30 0 false 0)
  | .rotl t a b => some (packN 0x11 t.code a.code b.code 30 0 false 0)
  | .rotr t a b => some (packN 0x12 t.code a.code b.code 30 0 false 0)
  | .notInteger t a => some (packN 0x0D t.code a.code 30 30 0 false 0)
  | .clz t a => some (packN 0x13 t.code a.code 30 30 0 false 0)
  | .popc t a => some (packN 0x14 t.code a.code 30 30 0 false 0)
  | .sel t a b c => some (packN 0x15 t.code a.code b.code c.code 0 false 0)
  | .cmpInteger t a b m => some (packN 0x16 t.code a.code b.code 30 0 false m.code)
  | .addFloat t a b r s => some (packN 0x30 t.code a.code b.code 30 r.field s r.modField)
  | .subFloat t a b r s => some (packN 0x31 t.code a.code b.code 30 r.field s r.modField)
  | .mulFloat t a b r s => some (packN 0x32 t.code a.code b.code 30 r.field s r.modField)
  | .fma t a b c r s => some (packN 0x33 t.code a.code b.code c.code r.field s r.modField)
  | .minFloat t a b => some (packN 0x34 t.code a.code b.code 30 0 false 0)
  | .maxFloat t a b => some (packN 0x35 t.code a.code b.code 30 0 false 0)
  | .absFloat t a => some (packN 0x36 t.code a.code 30 30 0 false 0)
  | .negFloat t a => some (packN 0x37 t.code a.code 30 30 0 false 0)
  | .cmpFloat t a b m => some (packN 0x38 t.code a.code b.code 30 0 false m.code)
  | .rcp t a r s => some (packN 0x39 t.code a.code 30 30 r.field s r.modField)
  | .rsqrt t a r s => some (packN 0x3A t.code a.code 30 30 r.field s r.modField)
  | .sqrt t a r s => some (packN 0x3B t.code a.code 30 30 r.field s r.modField)
  | .exp2 t a r s => some (packN 0x3C t.code a.code 30 30 r.field s r.modField)
  | .log2 t a r s => some (packN 0x3D t.code a.code 30 30 r.field s r.modField)
  | .cvtIntegerSource t a c r s => some (packN 0x40 t.code a.code 30 c.code r.field s r.modField)
  | .cvtFloatSource t a c r s => some (packN 0x41 t.code a.code 30 c.code r.field s r.modField)
  | .quant t a c r s => some (packN 0x48 t.code a.code 30 (8 + c.code) r.field s r.modField)
  | .dequant t a c r s => some (packN 0x49 t.code a.code 30 (8 + c.code) r.field s r.modField)
  | .bmul t a b c r s => some (packN 0x4A t.code a.code b.code c.code r.field s r.modField)
  | .bdot t a b c r s => some (packN 0x4B t.code a.code b.code c.code r.field s r.modField)
  | .bcast t a b => some (packN 0x50 t.code a.code b.code 30 0 false 0)
  | .shuf t a b => some (packN 0x51 t.code a.code b.code 30 0 false 0)
  | .atomIadd t a b => some (packN 0x80 t.code a.code b.code 30 0 false 0)
  | .atomImin t a b => some (packN 0x81 t.code a.code b.code 30 0 false 0)
  | .atomImax t a b => some (packN 0x82 t.code a.code b.code 30 0 false 0)
  | .atomAnd t a b => some (packN 0x83 t.code a.code b.code 30 0 false 0)
  | .atomOr t a b => some (packN 0x84 t.code a.code b.code 30 0 false 0)
  | .atomXor t a b => some (packN 0x85 t.code a.code b.code 30 0 false 0)
  | .atomXchg t a b => some (packN 0x86 t.code a.code b.code 30 0 false 0)
  | .upd t a b => some (packN 0x90 t.code a.code b.code 30 0 false 0)
  | .redInteger t a c s => some (packN 0x52 t.code a.code 30 c.code 0 s 0)
  | .scanInteger t a c s => some (packN 0x54 t.code a.code 30 c.code 0 s 0)
  | .rdcInteger t a c s => some (packN 0x6E t.code a.code 30 c.code 0 s 0)
  | .redFloat t a c r s => some (packN 0x53 t.code a.code 30 c.code r.field s r.modField)
  | .scanFloat t a c r s => some (packN 0x55 t.code a.code 30 c.code r.field s r.modField)
  | .rdcFloat t a c r s => some (packN 0x6F t.code a.code 30 c.code r.field s r.modField)
  | .alloc a => some (packN 0x60 0 a.code 30 30 0 false 0)
  | .free a => some (packN 0x61 0 a.code 30 30 0 false 0)
  | .ctag a => some (packN 0x63 0 a.code 30 30 0 false 0)
  | .tagrd a => some (packN 0x64 0 a.code 30 30 0 false 0)
  | .dup a => some (packN 0x6B 0 a.code 30 30 0 false 0)
  | .call a => some (packN 0x6C 0 a.code 30 30 0 false 0)
  | .ret a => some (packN 0x6D 0 a.code 30 30 0 false 0)
  | .lookup a => some (packN 0x88 0 a.code 30 30 0 false 0)
  | .evict a => some (packN 0x8A 0 a.code 30 30 0 false 0)
  | .retag a b => some (packN 0x62 0 a.code b.code 30 0 false 0)
  | .steer a b => some (packN 0x68 0 a.code b.code 30 0 false 0)
  | .insert a b => some (packN 0x89 0 a.code b.code 30 0 false 0)
  | .sendNode a b => some (packN 0x9C 0 a.code b.code 30 0 false 0)
  | .merge => some (packN 0x69 0 30 30 30 0 false 0)
  | .gate => some (packN 0x6A 0 30 30 30 0 false 0)
  | .yieldNode => some (packN 0x9B 0 30 30 30 0 false 0)
  | .lds t a o => some (packN 0x70 t.code a.code 30 30 0 false (bitN o))
  | .ldg t a o => some (packN 0x72 t.code a.code 30 30 0 false (bitN o))
  | .sts t a b o => some (packN 0x71 t.code a.code b.code 30 0 false (bitN o))
  | .stg t a b o => some (packN 0x73 t.code a.code b.code 30 0 false (bitN o))
  | .gather t a b o => some (packN 0x74 t.code a.code b.code 30 0 false (bitN o))
  | .scatter t a b o => some (packN 0x75 t.code a.code b.code 30 0 false (bitN o))
  | .ldacq t a g o => some (packN 0x76 t.code a.code 30 g.val 0 false (bitN o))
  | .strel t a b g o => some (packN 0x77 t.code a.code b.code g.val 0 false (bitN o))
  | .atomCas t a b c => some (packN 0x87 t.code a.code b.code c.code 0 false 0)
  | .arriveNode b => some (packN 0x98 0 30 (b.val % 32) (b.val / 32) 0 false 0)
  | .waitNode b => some (packN 0x99 0 30 (b.val % 32) (b.val / 32) 0 false 0)
  | .fenceNode g k => some (packN 0x9A 0 30 g.val 30 0 false k.code)
  | .trapNode i => some (packN 0x9D 0 30 (i.toNat / 32) (i.toNat % 32) 0 false 0)
  | .brkNode i => some (packN 0x9E 0 30 (i.toNat / 32) (i.toNat % 32) 0 false 0)
  | _ => none

/-- The word of an encoded operation: of a sequencer instruction or of a node operation; events have no word. -/
def encode (i : Instr) : Option Nat :=
  match encodeSeq i with
  | some w => some w
  | none => encodeNode i

/-! ## The other node words -/

/-- A head word, or nothing where R69 refuses it: kind 3, no input, a source or merge or gate count that R69 rules out,
rule 3, no stage, or a scales field that does not fit the kind. -/
def decodeHead (w : Nat) : Option HeadWord :=
  let kind := bits w 31 30
  let inputs := bits w 29 28
  let rule := bits w 27 26
  let stages := bits w 17 16
  let scales := bits w 1 0
  if kind = 3 ∨ inputs = 0 ∨ rule = 3 ∨ stages = 0 then none
  else if kind = 1 ∧ inputs ≠ 1 then none
  else if kind = 2 ∧ (scales = 0 ∨ scales = 3) then none
  else if kind ≠ 2 ∧ scales ≠ 0 then none
  else some
    { kind := match kind with | 0 => .data | 1 => .source | _ => .block
      inputs := inputs
      rule := match rule with | 0 => .strict | 1 => .merge | _ => .gate
      space := bits w 25 18
      stages := stages
      switches := bits w 15 10
      kmask := BitVec.ofNat 8 (bits w 9 2)
      scales := scales }

/-- An emit word, or nothing where R74 refuses it. -/
def decodeEmit (w : Nat) : Option EmitWord :=
  if bits w 31 30 = 3 ∨ bits w 29 28 ≠ 0 then none else some { tagsel := bits w 31 30, node := bits w 27 0 }

/-- A switch word, or nothing where R78 refuses it. -/
def decodeSwitch (w : Nat) : Option SwitchWord :=
  match bits w 15 14 with
  | 0 => if bits w 13 11 < 4 ∧ bits w 10 7 ≠ 0 ∧ bits w 6 0 = 0 then some (.hop (bits w 13 11) (bits w 10 7)) else none
  | 1 => if bits w 5 4 ≠ 3 ∧ bits w 3 0 = 0 then some (.deliver (bit w 13) (bits w 12 6) (bits w 5 4)) else none
  | 2 => if bits w 13 11 ≠ 0 ∧ bits w 10 0 = 0 then some (.fan (bits w 13 11 + 1)) else none
  | _ => if bits w 13 10 < 8 ∧ bits w 0 0 = 0 then some (.far (bits w 13 10) (bits w 9 7) (bits w 6 1)) else none

/-- Decode a run of switch words; one refused word refuses the run. -/
def decodeSwitches : List Nat → Option (List SwitchWord)
  | [] => some []
  | w :: t => match decodeSwitch w, decodeSwitches t with
      | some s, some r => some (s :: r)
      | _, _ => none

/-- The branches that a route tree has still to end: each with the hops so far, its far word, and whether the next word
must be the deliver that follows a far word (R79). -/
abbrev RouteWork := List (List (Nat × Nat) × Option (Nat × Nat × Nat))

/-- Reads a route tree in order (R79).  A fan duplicates the branch it stands on, its branches follow one after another,
each ends at its own deliver, and a word after a far word must be a deliver.  A route whose words run out, or that holds
words after its last branch, is refused. -/
def routeLeaves : List SwitchWord → RouteWork → Option (List Leaf)
  | [], [] => some []
  | [], _ :: _ => none
  | _ :: _, [] => none
  | .hop d c :: t, (hs, none) :: r => routeLeaves t ((hs ++ [(d, c)], none) :: r)
  | .hop _ _ :: _, (_, some _) :: _ => none
  | .far d c p :: t, (hs, none) :: r => routeLeaves t ((hs, some (d, c, p)) :: r)
  | .far _ _ _ :: _, (_, some _) :: _ => none
  | .fan n :: t, (hs, none) :: r => routeLeaves t (List.replicate n (hs, none) ++ r)
  | .fan _ :: _, (_, some _) :: _ => none
  | .deliver s n p :: t, (hs, f) :: r =>
      (routeLeaves t r).map ({ hops := hs, far := f, sel := s, node := n, port := p } :: ·)

/-- The leaves of a node's switch words; a node without switch words emits nothing (R69, R79). -/
def decodeRoute (ws : List Nat) : Option (List Leaf) :=
  match decodeSwitches ws with
  | none => none
  | some [] => some []
  | some l => routeLeaves l [([], none)]

/-- The destination fields of a link word (R149), or nothing where port 3, a die of 8 or more, or a non-zero zero field
refuses it. -/
def decodeLink (w : Nat) : Option LinkDest :=
  if bits w 23 22 = 3 ∨ 8 ≤ bits w 21 18 ∨ bits w 1 0 ≠ 0 then none
  else some { die := bits w 21 18, cluster := bits w 17 15, pe := bits w 14 9, node := bits w 8 2, port := bits w 23 22 }

/-! ## Active-message headers -/

/-- Whether an engine class defines an opcode (R182, R222): copy 1 to 4, gather 1, press 1 to 3, jig 1. -/
def EngClass.defines (c : EngClass) (op : Nat) : Bool :=
  match c with
  | .copy => decide (1 ≤ op ∧ op ≤ 4)
  | .gather => decide (op = 1)
  | .press => decide (1 ≤ op ∧ op ≤ 3)
  | .jig => decide (op = 1)

/-- A header's reply field (R81): a register number with <95:69> zero, or a node port with <95:88> zero, port below 3
and die below 8. -/
def decodeReply (h : Nat) : Option ReplyTo :=
  if bit h 96 then
    if bits h 95 88 ≠ 0 ∨ bits h 65 64 = 3 ∨ 8 ≤ bits h 85 82 then none
    else some (.node (bits h 87 86)
      { die := bits h 85 82, cluster := bits h 81 79, pe := bits h 78 73, node := bits h 72 66, port := bits h 65 64 })
  else if bits h 95 69 ≠ 0 then none
  else if bits h 68 64 = 0 then some .none
  else some (.reg (regOf (bits h 68 64)))

/-- An active-message header, or nothing where R82 refuses it whatever the region: a refused class, a unit out of
range, an opcode its class does not define, a non-zero zero field or a misaligned pointer. -/
def decodeHeader (h : Nat) : Option Header :=
  match EngClass.ofCode? (bits h 119 116), decodeReply h with
  | some c, some r =>
    let body := bits h 63 32
    let next := bits h 31 0
    if c.units ≤ bits h 115 110 ∨ ¬ c.defines (bits h 127 120) ∨ body % 64 ≠ 0 ∨ bits h 63 62 ≠ 0 ∨ next % 16 ≠ 0
    then none
    else some
      { op := bits h 127 120, cls := c, unit := bits h 115 110, cluster := bits h 109 104, acq := bit h 103,
        rel := bit h 102, scope := bits h 101 97, reply := r, body := body, next := next }
  | _, _ => none

/-! ## Mask words -/

/-- A mask word, or nothing where R84 reads an unknown opcode. -/
def decodeMask (w : Nat) : Option MaskWord :=
  let c := Fin.ofNat 8 (bits w 10 8)
  let z := bits w 10 8 = 0
  if bits w 7 0 ≠ 0 then none
  else match bits w 15 11 with
  | 0x00 => if z then some .stop else none
  | 0x01 => some (.kltq c)
  | 0x02 => some (.kleq c)
  | 0x03 => some (.kgtq c)
  | 0x04 => some (.kgeq c)
  | 0x05 => some (.keqq c)
  | 0x06 => some (.qlt c)
  | 0x07 => some (.qge c)
  | 0x08 => some (.klt c)
  | 0x09 => some (.kge c)
  | 0x0A => if z then some .same else none
  | 0x0B => if z then some .diff else none
  | 0x0C => if z then some .and else none
  | 0x0D => if z then some .or else none
  | 0x0E => if z then some .not else none
  | 0x0F => if bits w 10 9 = 0 then some (.pushc (bit w 8)) else none
  | _ => none

/-! ## The words of the opcode table -/

/-- The operation that a word of the opcode table decodes to.  Every encoded row of the table is one 32-bit word, stored
little-endian (R5), and the place a word lives in decides which decoder reads it (R59): a word that the node decoder
accepts is read as a node operation, any other as a sequencer instruction. -/
def decodeTableWord (nbits w : Nat) : Option Instr :=
  if nbits ≠ 32 then none
  else match decodeNode (w % 2 ^ 32) with
  | .ok i => some i
  | .error _ => match decodeSeq (w % 2 ^ 32) with
    | .ok i => some i
    | .error _ => none

end Sys2Proof
end

