-- ==== Sys2Proof/Machine/Flags.lean ====
section
/-! DEFINITION. The sticky flags of R52 and the computation of every flag that rounding, saturation and conversion set:
R39 (sat), R41 (inv), R42 (unf, inx), R49 (ovf), R136 (dz), R54 (flush). -/

namespace Sys2Proof.Machine

open Sys2Proof

/-- A set of sticky flags: the low eight bits of ctx.flags (R52). -/
abbrev Flags := BitVec 8

/-- Invalid operation, bit <0> of ctx.flags (R52). -/
def fInv : Flags := 0x01#8
/-- Division of a finite non-zero value by zero, bit <1> (R52). -/
def fDz : Flags := 0x02#8
/-- Overflow, bit <2> (R52). -/
def fOvf : Flags := 0x04#8
/-- Tiny and inexact lane result, bit <3> (R52). -/
def fUnf : Flags := 0x08#8
/-- Inexact rounded result, bit <4> (R52). -/
def fInx : Flags := 0x10#8
/-- Saturated integer or block value, bit <5> (R52). -/
def fSat : Flags := 0x20#8
/-- Press value flushed to signed zero, bit <6> (R52). -/
def fFlush : Flags := 0x40#8
/-- Parameter-window read beyond the bound size, win.oob, bit <7> (R52). -/
def fOob : Flags := 0x80#8
/-- No flag. -/
def fNone : Flags := 0#8

/-- A flag set when a condition holds. -/
def flagIf (b : Bool) (f : Flags) : Flags := if b then f else fNone

/-- A value with the flags its computation sets. -/
structure Res (α : Type) where
  val : α
  fl : Flags
  deriving DecidableEq, Repr, Inhabited

/-- A value that sets no flag. -/
def quiet {α : Type} (v : α) : Res α := { val := v, fl := fNone }

/-! ## Rounding decisions (R47, R48) -/

/-- The number of bits of a natural number: 0 for 0. -/
def bitLen (n : Nat) : Nat := if n = 0 then 0 else Nat.log2 n + 1

/-- A non-negative real number given by a numerator in units of `2 ^ x`, and whether a positive rest below one such unit
remains: the value lies in `[q, q + 1) * 2 ^ x`, and is `q * 2 ^ x` when `sticky` is false. -/
structure Mag where
  q : Nat
  x : Int
  sticky : Bool
  deriving DecidableEq, Repr, Inhabited

/-- The kept part of a magnitude at the unit `2 ^ lsb`, the part cut off in units of `2 ^ x` with its width, and the
sticky rest. -/
structure Cut where
  kept : Nat
  rem : Nat
  width : Nat
  sticky : Bool
  deriving DecidableEq, Repr, Inhabited

/-- Cuts a magnitude at the unit `2 ^ lsb`. -/
def Mag.cut (m : Mag) (lsb : Int) : Cut :=
  if m.x < lsb then
    let s := (lsb - m.x).toNat
    { kept := m.q / 2 ^ s, rem := m.q % 2 ^ s, width := s, sticky := m.sticky }
  else { kept := m.q * 2 ^ (m.x - lsb).toNat, rem := 0, width := 0, sticky := m.sticky }

/-- Whether the cut loses anything. -/
def Cut.inexact (c : Cut) : Bool := c.rem != 0 || c.sticky

/-- The 32-bit fraction t of R48: floor(2^32 * (|v| - |lo|) / (|hi| - |lo|)). -/
def Cut.frac (c : Cut) : Nat := if 32 ≤ c.width then c.rem / 2 ^ (c.width - 32) else c.rem * 2 ^ (32 - c.width)

/-- Whether rounding takes the neighbour away from zero (R47, R48).  `u` is the draw of R48. -/
def Cut.up (c : Cut) (r : Rnd) (neg : Bool) (u : Nat) : Bool :=
  match r with
  | .rne => decide (2 ^ c.width < 2 * c.rem) ||
      (decide (0 < c.width) && decide (2 * c.rem = 2 ^ c.width) && (c.sticky || c.kept % 2 == 1))
  | .rz => false
  | .ru => c.inexact && !neg
  | .rd => c.inexact && neg
  | .sr => c.inexact && decide (u < c.frac)

/-- The kept part after rounding. -/
def Cut.round (c : Cut) (r : Rnd) (neg : Bool) (u : Nat) : Nat := c.kept + (if c.up r neg u then 1 else 0)

/-! ## Rounding to an integer (R51, R141) -/

/-- A non-negative quotient `num / den` rounded to an integer in a mode, and whether that is inexact. -/
def roundQuot (r : Rnd) (neg : Bool) (u num den : Nat) : Nat × Bool :=
  let k := num / den
  let m := num % den
  let up := match r with
    | .rne => decide (den < 2 * m) || (decide (2 * m = den) && k % 2 == 1)
    | .rz => false
    | .ru => m != 0 && !neg
    | .rd => m != 0 && neg
    | .sr => decide (u < 2 ^ 32 * m / den)
  (k + (if up then 1 else 0), m != 0)

/-! ## Integer saturation (R39) -/

/-- The value of `[lo, hi]` congruent to `t` modulo `hi - lo + 1` (R130). -/
def wrapInt (lo hi t : Int) : Int := lo + (t - lo) % (hi - lo + 1)

/-- The range of an n-bit integer type (R39). -/
def intRange (signed : Bool) (n : Nat) : Int × Int :=
  if signed then (-(2 ^ (n - 1) : Nat), (2 ^ (n - 1) : Nat) - 1) else (0, (2 ^ n : Nat) - 1)

/-- An exact integer result narrowed to its type: clamped with sat set under .sat, wrapped without a flag otherwise
(R39, R130). -/
def narrowInt (signed : Bool) (n : Nat) (sat : Bool) (t : Int) : Res Int :=
  let lo := (intRange signed n).1
  let hi := (intRange signed n).2
  if sat && decide (t < lo) then { val := lo, fl := fSat }
  else if sat && decide (hi < t) then { val := hi, fl := fSat }
  else quiet (wrapInt lo hi t)

end Sys2Proof.Machine
end

