-- ==== Sys2Proof/Machine/Numbers.lean ====
section
/-! DEFINITION. The number formats and the exact arithmetic of R38 to R58: IEEE formats and BF16, block formats, one
rounding of an exact value with its flags, conversions, the correctly rounded functions of R136, the stochastic draw of
R48 and the press arithmetic of R54 and R55.  A value is carried as its bit pattern, a natural number below 2 to the
width of its format. -/

namespace Sys2Proof.Machine

open Sys2Proof

/-! ## Formats (R40) -/

/-- The fraction width of a float format (R40). -/
def FltTy.frac : FltTy → Nat
  | .f16 => 10 | .b16 => 7 | .f32 => 23 | .f64 => 52

/-- The exponent width of a float format (R40). -/
def FltTy.exp : FltTy → Nat
  | .f16 => 5 | .b16 => 8 | .f32 => 8 | .f64 => 11

/-- The exponent bias of a float format (R40). -/
def FltTy.bias : FltTy → Nat
  | .f16 => 15 | .b16 => 127 | .f32 => 127 | .f64 => 1023

/-- The width of a float format in bits. -/
def FltTy.width (t : FltTy) : Nat := 1 + FltTy.exp t + FltTy.frac t

/-- The exponent field of all ones. -/
def FltTy.expMax (t : FltTy) : Nat := 2 ^ FltTy.exp t - 1

/-- The pattern of an infinity (R40). -/
def fInf (t : FltTy) (neg : Bool) : Nat :=
  bitN neg * 2 ^ (FltTy.exp t + FltTy.frac t) + FltTy.expMax t * 2 ^ FltTy.frac t

/-- The pattern of the largest finite value (R40). -/
def fLargest (t : FltTy) (neg : Bool) : Nat := fInf t neg - 1

/-- The pattern of a signed zero. -/
def fZero (t : FltTy) (neg : Bool) : Nat := bitN neg * 2 ^ (FltTy.exp t + FltTy.frac t)

/-- The canonical quiet NaN (R41). -/
def fNaN (t : FltTy) : Nat := FltTy.expMax t * 2 ^ FltTy.frac t + 2 ^ (FltTy.frac t - 1)

/-- What a pattern denotes: a NaN, an infinity, or `(-1)^neg * m * 2^e`. -/
inductive FVal where
  | nan (signalling : Bool)
  | inf (neg : Bool)
  | fin (neg : Bool) (m : Nat) (e : Int)
  deriving DecidableEq, Repr, Inhabited

/-- The value of a bit pattern (R40). -/
def fVal (t : FltTy) (b : Nat) : FVal :=
  let f := FltTy.frac t
  let frac := b % 2 ^ f
  let ex := b / 2 ^ f % 2 ^ FltTy.exp t
  let neg := bit b (f + FltTy.exp t)
  if ex = FltTy.expMax t then
    if frac = 0 then .inf neg else .nan (frac < 2 ^ (f - 1))
  else if ex = 0 then .fin neg frac (1 - (FltTy.bias t : Int) - f)
  else .fin neg (2 ^ f + frac) ((ex : Int) - FltTy.bias t - f)

/-- Whether a value is a signalling NaN. -/
def FVal.isSnan : FVal → Bool
  | .nan s => s
  | .inf _ | .fin _ _ _ => false

/-- Whether a value is a NaN. -/
def FVal.isNan : FVal → Bool
  | .nan _ => true
  | .inf _ | .fin _ _ _ => false

/-- Whether a value is a zero. -/
def FVal.isZero : FVal → Bool
  | .fin _ m _ => m == 0
  | .nan _ | .inf _ => false

/-- The sign of a value that is no NaN. -/
def FVal.neg : FVal → Bool
  | .nan _ => false
  | .inf n => n
  | .fin n _ _ => n

/-! ## One rounding (R42, R47 to R50) -/

/-- The result of an overflow (R49). -/
def overflowed (t : FltTy) (r : Rnd) (sat neg : Bool) : Nat :=
  if sat then fLargest t neg
  else match r with
    | .rne | .sr => fInf t neg
    | .rz => fLargest t neg
    | .ru => if neg then fLargest t neg else fInf t neg
    | .rd => if neg then fInf t neg else fLargest t neg

/-- A non-zero magnitude rounded once to a format, with ovf, unf and inx (R42, R47 to R50).  The exponent of the
rounded result and of the tininess test is unbounded; both roundings use the same draw. -/
def roundFlt (t : FltTy) (r : Rnd) (sat : Bool) (u : Nat) (neg : Bool) (m : Mag) : Res Nat :=
  let f := FltTy.frac t
  let e0 : Int := (bitLen m.q : Int) - 1 + m.x
  let emin : Int := 1 - (FltTy.bias t : Int)
  let lsb : Int := max (e0 - f) (emin - f)
  let c := m.cut lsb
  let k := c.round r neg u
  let biased : Int := lsb + f + FltTy.bias t
  let enc : Nat := (biased - 1).toNat * 2 ^ f + k
  let tiny : Bool := decide (e0 < emin) &&
    !(decide (e0 = emin - 1) && decide (2 ^ (f + 1) ≤ (m.cut (e0 - f)).round r neg u))
  if FltTy.expMax t * 2 ^ f ≤ enc then { val := overflowed t r sat neg, fl := fOvf ||| fInx }
  else { val := fZero t neg + enc,
         fl := flagIf c.inexact fInx ||| flagIf (c.inexact && tiny) fUnf }

/-- An exact signed value `i * 2^e` rounded once; an exact zero takes the sign given. -/
def roundExact (t : FltTy) (r : Rnd) (sat : Bool) (u : Nat) (zeroNeg : Bool) (i e : Int) : Res Nat :=
  if i = 0 then quiet (fZero t zeroNeg)
  else roundFlt t r sat u (decide (i < 0)) { q := i.natAbs, x := e, sticky := false }

/-- A finite value as a signed integer and an exponent. -/
def signedOf (neg : Bool) (m : Nat) : Int := if neg then -(m : Int) else m

/-- The exact sum of two dyadic numbers: the sum in units of the lower exponent. -/
def sumDyadic (i e j g : Int) : Int × Int :=
  let l := min e g
  (i * (2 ^ (e - l).toNat : Nat) + j * (2 ^ (g - l).toNat : Nat), l)

/-- The canonical NaN, with inv when an operand was signalling (R41). -/
def nanRes (t : FltTy) (vs : List FVal) : Res Nat := { val := fNaN t, fl := flagIf (vs.any FVal.isSnan) fInv }

/-- The canonical NaN of an invalid operation (R133). -/
def invalidRes (t : FltTy) : Res Nat := { val := fNaN t, fl := fInv }

/-- Sum of two values (R133): the sign of an exact zero is that of two like zeros, else minus only under RD. -/
def addVals (t : FltTy) (r : Rnd) (sat : Bool) (u : Nat) (a b : FVal) : Res Nat :=
  match a, b with
  | .nan _, _ => nanRes t [a, b]
  | _, .nan _ => nanRes t [a, b]
  | .inf na, .inf nb => if na = nb then quiet (fInf t na) else invalidRes t
  | .inf na, .fin _ _ _ => quiet (fInf t na)
  | .fin _ _ _, .inf nb => quiet (fInf t nb)
  | .fin na ma ea, .fin nb mb eb =>
    let s := sumDyadic (signedOf na ma) ea (signedOf nb mb) eb
    let zn := if ma = 0 ∧ mb = 0 ∧ na = nb then na else decide (r = .rd)
    roundExact t r sat u zn s.1 s.2

/-- A value with its sign changed. -/
def FVal.negate : FVal → FVal
  | .nan s => .nan s
  | .inf n => .inf (!n)
  | .fin n m e => .fin (!n) m e

/-- Floating-point add (R133). -/
def fAdd (t : FltTy) (r : Rnd) (sat : Bool) (u a b : Nat) : Res Nat := addVals t r sat u (fVal t a) (fVal t b)

/-- Floating-point subtract (R133). -/
def fSub (t : FltTy) (r : Rnd) (sat : Bool) (u a b : Nat) : Res Nat :=
  addVals t r sat u (fVal t a) (fVal t b).negate

/-- Floating-point multiply (R133); an exact zero has the product of the signs in every rounding mode (log 113). -/
def fMul (t : FltTy) (r : Rnd) (sat : Bool) (u a b : Nat) : Res Nat :=
  match fVal t a, fVal t b with
  | .nan s, v => nanRes t [.nan s, v]
  | v, .nan s => nanRes t [v, .nan s]
  | .inf na, .inf nb => quiet (fInf t (na != nb))
  | .inf na, .fin nb mb _ => if mb = 0 then invalidRes t else quiet (fInf t (na != nb))
  | .fin na ma _, .inf nb => if ma = 0 then invalidRes t else quiet (fInf t (na != nb))
  | .fin na ma ea, .fin nb mb eb =>
    roundExact t r sat u (na != nb) (signedOf (na != nb) (ma * mb)) (ea + eb)

/-- Fused multiply-add with one rounding (R133): 0 times an infinity sets inv even when c is a quiet NaN. -/
def fFma (t : FltTy) (r : Rnd) (sat : Bool) (u a b c : Nat) : Res Nat :=
  let va := fVal t a
  let vb := fVal t b
  let vc := fVal t c
  let inv : Bool := match va, vb with
    | .inf _, .fin _ m _ => m == 0
    | .fin _ m _, .inf _ => m == 0
    | _, _ => false
  if inv then invalidRes t
  else if va.isNan || vb.isNan || vc.isNan then nanRes t [va, vb, vc]
  else
    let pn := va.neg != vb.neg
    match va, vb with
    | .fin _ ma ea, .fin _ mb eb => match vc with
      | .fin nc mc ec =>
        let s := sumDyadic (signedOf pn (ma * mb)) (ea + eb) (signedOf nc mc) ec
        let zn := if ma * mb = 0 ∧ mc = 0 ∧ pn = nc then nc else decide (r = .rd)
        roundExact t r sat u zn s.1 s.2
      | .inf nc => quiet (fInf t nc)
      | .nan _ => nanRes t [vc]
    | _, _ => match vc with
      | .inf nc => if nc = pn then quiet (fInf t nc) else invalidRes t
      | .fin _ _ _ | .nan _ => quiet (fInf t pn)

/-! ## Comparison, minimum and maximum (R134, R135) -/

/-- The order of two values neither of which is a NaN, with both zeros equal. -/
def cmpVals : FVal → FVal → Ordering
  | .inf na, .inf nb => if na = nb then .eq else if na then .lt else .gt
  | .inf na, _ => if na then .lt else .gt
  | _, .inf nb => if nb then .gt else .lt
  | .fin na ma ea, .fin nb mb eb =>
    let l := min ea eb
    compare (signedOf na ma * (2 ^ (ea - l).toNat : Nat)) (signedOf nb mb * (2 ^ (eb - l).toNat : Nat))
  | .nan _, _ => .eq
  | _, .nan _ => .eq

/-- Whether a counts as less than b for min and max: minus zero is below plus zero (R134). -/
def fLess (a b : FVal) : Bool :=
  match cmpVals a b with
  | .lt => true
  | .gt => false
  | .eq => a.isZero && b.isZero && a.neg && !b.neg

/-- Floating-point minimum and maximum (R134): one NaN operand gives the other operand, two give the canonical NaN; a
signalling NaN sets inv. -/
def fMinMax (wantMax : Bool) (t : FltTy) (a b : Nat) : Res Nat :=
  let va := fVal t a
  let vb := fVal t b
  let fl := flagIf (va.isSnan || vb.isSnan) fInv
  let v := if va.isNan && vb.isNan then fNaN t
    else if va.isNan then b
    else if vb.isNan then a
    else if wantMax then (if fLess va vb then b else a)
    else (if fLess vb va then b else a)
  { val := v, fl := fl }

/-- Floating-point absolute value and negation (R134): a NaN gives the canonical NaN. -/
def fSignOp (neg : Bool) (t : FltTy) (a : Nat) : Res Nat :=
  let v := fVal t a
  let s := 2 ^ (FltTy.exp t + FltTy.frac t)
  if v.isNan then nanRes t [v]
  else quiet (if neg && !v.neg then a % s + s else a % s)

/-- Floating-point compare (R135): ordered conditions set inv on any NaN, the others only on a signalling one. -/
def fCmp (t : FltTy) (c : FCond) (a b : Nat) : Res Bool :=
  let va := fVal t a
  let vb := fVal t b
  let un := va.isNan || vb.isNan
  let sn := va.isSnan || vb.isSnan
  let o := cmpVals va vb
  match c with
  | .eq => { val := !un && o == .eq, fl := flagIf sn fInv }
  | .ne => { val := un || o != .eq, fl := flagIf sn fInv }
  | .lt => { val := !un && o == .lt, fl := flagIf un fInv }
  | .le => { val := !un && o != .gt, fl := flagIf un fInv }
  | .gt => { val := !un && o == .gt, fl := flagIf un fInv }
  | .ge => { val := !un && o != .lt, fl := flagIf un fInv }
  | .un => { val := un, fl := flagIf sn fInv }

/-! ## Reciprocal and square roots (R136) -/

/-- Newton's iteration for the integer square root, from a value not below the root; the fuel bounds its steps. -/
def isqrtStep (n : Nat) : Nat → Nat → Nat
  | 0, x => x
  | fuel + 1, x => let y := (x + n / x) / 2; if y < x then isqrtStep n fuel y else x

/-- The integer square root: the largest natural number whose square is at most n.  The start lies within a factor of
two above the root, so the quadratic convergence of the iteration ends within the fuel. -/
def isqrt (n : Nat) : Nat := if n = 0 then 0 else isqrtStep n (bitLen n + 8) (2 ^ ((bitLen n + 1) / 2))

/-- Bits beyond the precision of the widest format that a quotient or root is computed to: enough for a rounding, for
the 32 bits of a stochastic draw, and a guard (R48). -/
def guardBits : Nat := 100

/-- An even exponent at or below e, and the mantissa scaled to it. -/
def evenExp (m : Nat) (e : Int) : Nat × Int := if e % 2 = 0 then (m, e) else (2 * m, e - 1)

/-- Correctly rounded reciprocal (R136). -/
def fRcp (t : FltTy) (r : Rnd) (sat : Bool) (u a : Nat) : Res Nat :=
  match fVal t a with
  | .nan s => nanRes t [.nan s]
  | .inf n => quiet (fZero t n)
  | .fin n m e =>
    if m = 0 then { val := fInf t n, fl := fDz }
    else
      let k := bitLen m + guardBits
      roundFlt t r sat u n { q := 2 ^ k / m, x := -e - k, sticky := 2 ^ k % m != 0 }

/-- Correctly rounded square root (R136). -/
def fSqrt (t : FltTy) (r : Rnd) (sat : Bool) (u a : Nat) : Res Nat :=
  match fVal t a with
  | .nan s => nanRes t [.nan s]
  | .inf n => if n then invalidRes t else quiet (fInf t false)
  | .fin n m e =>
    if m = 0 then quiet (fZero t n)
    else if n then invalidRes t
    else
      let p := evenExp m e
      let v := p.1 * 2 ^ (2 * guardBits)
      let q := isqrt v
      roundFlt t r sat u false { q := q, x := p.2 / 2 - guardBits, sticky := q * q != v }

/-- Correctly rounded reciprocal square root (R136). -/
def fRsqrt (t : FltTy) (r : Rnd) (sat : Bool) (u a : Nat) : Res Nat :=
  match fVal t a with
  | .nan s => nanRes t [.nan s]
  | .inf n => if n then invalidRes t else quiet (fZero t false)
  | .fin n m e =>
    if m = 0 then { val := fInf t n, fl := fDz }
    else if n then invalidRes t
    else
      let p := evenExp m e
      let k := bitLen p.1 + guardBits
      let q := isqrt (2 ^ (2 * k) / p.1)
      roundFlt t r sat u false { q := q, x := -(p.2 / 2) - k, sticky := q * q * p.1 != 2 ^ (2 * k) }

/-! ## 2^a and log2 a (R136) -/

/-- Fixed-point sum of `Σ_k z^(2k+1) / (2k+1)`, the series of artanh z, in units of `2 ^ -p`: `zk` is the current odd
power, `z2` is z squared. -/
def artanhSum (p z2 : Nat) : Nat → Nat → Nat → Nat
  | 0, _, _ => 0
  | fuel + 1, k, zk => zk / (2 * k + 1) + artanhSum p z2 fuel (k + 1) (zk * z2 / 2 ^ p)

/-- Fixed-point sum of `Σ_k y^k / k!` in units of `2 ^ -p`: `term` is the current term, `k` its index. -/
def expSum (p y : Nat) : Nat → Nat → Nat → Nat
  | 0, _, _ => 0
  | fuel + 1, k, term => term + expSum p y fuel (k + 1) (term * y / 2 ^ p / (k + 1))

/-- ln 2 in units of `2 ^ -p`, within p + 2 units: 2 artanh(1/3). -/
def ln2Fix (p : Nat) : Nat := 2 * artanhSum p (2 ^ p / 9) (p / 3 + 2) 0 (2 ^ p / 3)

/-- The widening in units of `2 ^ -p` that covers the truncations of the series at precision p. -/
def seriesSlack (p : Nat) : Nat := 16 * p + 64

/-- Bounds of `2 ^ r` for a fraction `r = num / 2 ^ w` strictly between 0 and 1, in units of `2 ^ -p`, clipped to the
open interval from 1 to 2 in which the value lies. -/
def exp2Bounds (num w p : Nat) : Nat × Nat :=
  let rf := if p ≤ w then num / 2 ^ (w - p) else num * 2 ^ (p - w)
  let v := expSum p (rf * ln2Fix p / 2 ^ p) p 0 (2 ^ p)
  (max (v - seriesSlack p) (2 ^ p), min (v + seriesSlack p) (2 ^ (p + 1) - 1))

/-- Bounds of the base-2 logarithm of `m / 2 ^ (bitLen m - 1)`, a value strictly between 1 and 2, in units of
`2 ^ -p`, clipped to the interval from 0 to 1. -/
def log2Bounds (m p : Nat) : Nat × Nat :=
  let b := 2 ^ (bitLen m - 1)
  let z := (m - b) * 2 ^ p / (m + b)
  let ln := 2 * artanhSum p (z * z / 2 ^ p) (p / 3 + 2) 0 z
  let v := ln * 2 ^ p / ln2Fix p
  (v - seriesSlack p, min (v + seriesSlack p) (2 ^ p))

/-- Precisions that are tried in turn until both bounds agree on every bit that rounding reads. -/
def precisions : List Nat := [192, 384, 768, 2400]

/-- The bits of a magnitude that rounding to any format, with a stochastic draw, reads. -/
def settleBits : Nat := 96

/-- A magnitude from bounds in units of `2 ^ -p`, when both agree on the bits that rounding reads; the rest is known to
be non-zero because the value is irrational. -/
def settled (lo hi p : Nat) : Option Mag :=
  let s := bitLen hi - settleBits
  if lo / 2 ^ s = hi / 2 ^ s ∧ 0 < lo / 2 ^ s then some { q := lo / 2 ^ s, x := (s : Int) - p, sticky := true }
  else none

/-- The first precision of the list at which the bounds settle; after the last one the lower bound stands. -/
def settle (bounds : Nat → Nat × Nat) : List Nat → Mag
  | [] => { q := 1, x := 0, sticky := true }
  | [p] => { q := max (bounds p).1 1, x := -(p : Int), sticky := true }
  | p :: t => match settled (bounds p).1 (bounds p).2 p with
      | some m => m
      | none => settle bounds t

/-- Correctly rounded 2^a (R136).  An integer operand gives an exact power of two, any other an irrational value.  A
magnitude beyond the exponent range of every format overflows or underflows whatever its fraction. -/
def fExp2 (t : FltTy) (r : Rnd) (sat : Bool) (u a : Nat) : Res Nat :=
  match fVal t a with
  | .nan s => nanRes t [.nan s]
  | .inf n => quiet (if n then fZero t false else fInf t false)
  | .fin n m e =>
    if m = 0 then roundFlt t r sat u false { q := 1, x := 0, sticky := false }
    else if 14 < (bitLen m : Int) + e then
      roundFlt t r sat u false { q := 2 ^ 64, x := if n then -16384 else 16384, sticky := true }
    else if 0 ≤ e then
      roundFlt t r sat u false { q := 1, x := signedOf n (m * 2 ^ e.toNat), sticky := false }
    else
      let w := (-e).toNat
      let i := signedOf n m
      let fl := i / (2 ^ w : Nat)
      let num := (i % (2 ^ w : Nat)).toNat
      if num = 0 then roundFlt t r sat u false { q := 1, x := fl, sticky := false }
      else
        let mg := settle (exp2Bounds num w) precisions
        roundFlt t r sat u false { mg with x := mg.x + fl }

/-- Correctly rounded log2 a (R136).  A power of two gives an exact integer, any other positive value an irrational one:
the floor of the logarithm plus a fraction. -/
def fLog2 (t : FltTy) (r : Rnd) (sat : Bool) (u a : Nat) : Res Nat :=
  match fVal t a with
  | .nan s => nanRes t [.nan s]
  | .inf n => if n then invalidRes t else quiet (fInf t false)
  | .fin n m e =>
    if m = 0 then { val := fInf t true, fl := fDz }
    else if n then invalidRes t
    else
      let k : Int := (bitLen m : Int) - 1 + e
      if m = 2 ^ (bitLen m - 1) then roundExact t r sat u false k 0
      else
        let bd : Nat → Nat × Nat := fun p =>
          let b := log2Bounds m p
          let lo := k * (2 ^ p : Nat) + b.1
          let hi := k * (2 ^ p : Nat) + b.2
          if 0 ≤ k then (lo.toNat, hi.toNat) else ((-hi).toNat, (-lo).toNat)
        roundFlt t r sat u (decide (k < 0)) (settle bd precisions)

/-! ## Conversions (R51, R137) -/

/-- A value that is no NaN rounded once to a float format (R51); infinities stay. -/
def toFlt (t : FltTy) (r : Rnd) (sat : Bool) (u : Nat) (v : FVal) : Res Nat :=
  match v with
  | .nan s => nanRes t [.nan s]
  | .inf n => quiet (fInf t n)
  | .fin n m e => roundExact t r sat u n (signedOf n m) e

/-- Float to float (R51, R137). -/
def cvtFF (s d : FltTy) (r : Rnd) (sat : Bool) (u a : Nat) : Res Nat := toFlt d r sat u (fVal s a)

/-- Float to an n-bit integer (R51): a NaN gives 0 and inv, a rounded value out of range the nearer bound and inv, in
both cases without inx. -/
def cvtFI (s : FltTy) (signed : Bool) (n : Nat) (r : Rnd) (u a : Nat) : Res Int :=
  let lo := (intRange signed n).1
  let hi := (intRange signed n).2
  match fVal s a with
  | .nan _ => { val := 0, fl := fInv }
  | .inf neg => { val := if neg then lo else hi, fl := fInv }
  | .fin neg m e =>
    let q := if 0 ≤ e then (m * 2 ^ e.toNat, false) else roundQuot r neg u m (2 ^ (-e).toNat)
    let v := signedOf neg q.1
    if v < lo then { val := lo, fl := fInv }
    else if hi < v then { val := hi, fl := fInv }
    else { val := v, fl := flagIf q.2 fInx }

/-- Integer to float (R51). -/
def cvtIF (d : FltTy) (r : Rnd) (sat : Bool) (u : Nat) (i : Int) : Res Nat := roundExact d r sat u false i 0

/-- Integer to integer (R51): clamped with sat set under .sat, low bits kept otherwise. -/
def cvtII (signed : Bool) (n : Nat) (sat : Bool) (i : Int) : Res Int := narrowInt signed n sat i

/-! ## Block formats (R43, R44, R51, R141 to R144) -/

/-- The mantissa width of a block format (R38). -/
def BlkTy.w : BlkTy → Nat
  | .bx2 => 2 | .bx3 => 3 | .bx4 => 4 | .bx5 => 5 | .bx6 => 6 | .bx7 => 7 | .bx8 => 8

/-- The biased exponent E of a scale (R43). -/
def scaleE (s : Nat) : Nat := s / 256 % 256

/-- The fine multiplier F of a scale (R43). -/
def scaleF (s : Nat) : Nat := s % 256

/-- A w-bit two's-complement mantissa read from the low bits of a number. -/
def mantOf (w n : Nat) : Int :=
  let v := n % 2 ^ w
  if 2 ^ (w - 1) ≤ v then (v : Int) - (2 ^ w : Nat) else v

/-- The value of a block element under its scale (R43, R44): a NaN block, a zero block, or an exact value. -/
def blkVal (t : BlkTy) (scale mant : Nat) : FVal :=
  if scaleE scale = 255 then .nan false
  else if scaleE scale = 0 then .fin false 0 0
  else
    let m := mantOf (BlkTy.w t) mant
    .fin (decide (m < 0)) (m.natAbs * (256 + scaleF scale))
      ((scaleE scale : Int) - 127 - 8 - ((BlkTy.w t : Int) - 1))

/-- Block element to float (R51, R142): a NaN block gives the canonical NaN and no flag, a zero is +0. -/
def dequantVal (t : BlkTy) (d : FltTy) (r : Rnd) (sat : Bool) (u scale mant : Nat) : Res Nat :=
  match blkVal t scale mant with
  | .nan _ => quiet (fNaN d)
  | .inf n => quiet (fInf d n)
  | .fin n m e => roundExact d r sat u false (signedOf n m) e

/-- What quant gives in one lane (R141): the mantissa, and whether its forwarded scale is the NaN or the zero scale. -/
structure QuantRes where
  m : Int
  fwd : Nat
  deriving DecidableEq, Repr, Inhabited

/-- Quantises a float value under a 16-bit scale (R141). -/
def quantVal (d : BlkTy) (s : FltTy) (r : Rnd) (u scale a : Nat) : Res QuantRes :=
  let w := BlkTy.w d
  let v := fVal s a
  let lo : Int := -(2 ^ (w - 1) : Nat)
  let hi : Int := (2 ^ (w - 1) : Nat) - 1
  if scaleE scale = 255 ∨ v.isNan then { val := { m := 0, fwd := 0xFF00 }, fl := flagIf v.isSnan fInv }
  else if scaleE scale = 0 then { val := { m := 0, fwd := 0 }, fl := flagIf (!v.isZero) fInx }
  else match v with
    | .nan _ => { val := { m := 0, fwd := 0xFF00 }, fl := fNone }
    | .inf n => { val := { m := if n then lo else hi, fwd := scale }, fl := fSat ||| fInx }
    | .fin n m e =>
      let x : Int := e + ((w : Int) - 1) - ((scaleE scale : Int) - 127) + 8
      let den := (256 + scaleF scale) * 2 ^ (-x).toNat
      let q := roundQuot r n u (m * 2 ^ x.toNat) den
      let t := signedOf n q.1
      if hi < t then { val := { m := hi, fwd := scale }, fl := fSat ||| fInx }
      else if t < lo then { val := { m := lo, fwd := scale }, fl := fSat ||| fInx }
      else { val := { m := t, fwd := scale }, fl := flagIf q.2 fInx }

/-- The exact product of two block elements (R143), or a NaN when either block is a NaN block, or zero when either is a
zero block. -/
def blkProd (ta tb : BlkTy) (sa ma sb mb : Nat) : FVal :=
  match blkVal ta sa ma, blkVal tb sb mb with
  | .nan _, _ => .nan false
  | _, .nan _ => .nan false
  | .fin na a ea, .fin nb b eb => .fin (na != nb) (a * b) (ea + eb)
  | .inf _, _ => .nan false
  | _, .inf _ => .nan false

/-- bmul in one lane (R143): rounded to binary32, +0 when the product is 0. -/
def bmulVal (ta tb : BlkTy) (r : Rnd) (sat : Bool) (u sa ma sb mb : Nat) : Res Nat :=
  match blkProd ta tb sa ma sb mb with
  | .nan _ => quiet (fNaN .f32)
  | .inf n => quiet (fInf .f32 n)
  | .fin n m e => roundExact .f32 r sat u false (signedOf n m) e

/-- The exact sum of finite values, in units of the lowest exponent; nothing when one is no finite value. -/
def sumVals : List FVal → Option (Int × Int)
  | [] => some (0, 0)
  | .fin n m e :: t => (sumVals t).map fun s =>
      if s.1 = 0 then (signedOf n m, e) else sumDyadic (signedOf n m) e s.1 s.2
  | .nan _ :: _ => none
  | .inf _ :: _ => none

/-- bdot (R144): the exact sum of the products, rounded once to binary32; a NaN block makes it the canonical NaN. -/
def bdotVal (r : Rnd) (sat : Bool) (u : Nat) (ps : List FVal) : Res Nat :=
  match sumVals ps with
  | none => quiet (fNaN .f32)
  | some s => roundExact .f32 r sat u false s.1 s.2

/-! ## The stochastic draw (R48) -/

/-- mix64 (R48). -/
def mix64 (z : Nat) : Nat :=
  let z1 := ((z ^^^ (z >>> 30)) * 0xBF58476D1CE4E5B9) % 2 ^ 64
  let z2 := ((z1 ^^^ (z1 >>> 27)) * 0x94D049BB133111EB) % 2 ^ 64
  z2 ^^^ (z2 >>> 31)

/-- What a draw of R48 is keyed by, but for the lane: the graph seed, the ordinal key of the firing's tag, the graph
node number and the stage (0 to 2). -/
structure DrawKey where
  seed : Nat
  space : Nat
  ring : Nat
  ordinal : Nat
  node : Nat
  stage : Nat
  deriving DecidableEq, Repr, Inhabited

/-- The 32-bit draw u of a lane (R48). -/
def DrawKey.draw (k : DrawKey) (lane : Nat) : Nat :=
  let z1 := mix64 (k.seed ^^^ k.ordinal)
  let w := (k.space <<< 56) ||| (k.ring <<< 44) ||| (k.node <<< 16) ||| (k.stage <<< 4) ||| lane
  mix64 ((z1 ^^^ w) % 2 ^ 64) % 2 ^ 32

/-! ## Press arithmetic (R54, R55) -/

/-- flush_if_subnormal of a rounded press value (R54): a non-zero magnitude below 2^-126 becomes a zero of its sign and
sets flush.  A press value never sets unf, which R52 keeps for lane results. -/
def flushSub (x : Res Nat) : Res Nat :=
  let fl := x.fl &&& ~~~fUnf
  match fVal .f32 x.val with
  | .fin n m e =>
    if m ≠ 0 ∧ (bitLen m : Int) - 1 + e < -126 then { val := fZero .f32 n, fl := fl ||| fFlush }
    else { val := x.val, fl := fl }
  | .nan _ => { val := x.val, fl := fl }
  | .inf _ => { val := x.val, fl := fl }

/-- One step of an accumulator (R54): the flushed sum of the accumulator and a block result. -/
def accStep (acc : Nat) (p : Res Nat) : Res Nat :=
  let s := flushSub (fAdd .f32 .rne false 0 acc p.val)
  { s with fl := s.fl ||| p.fl }

/-- The block result of one K-block in block mode (R54): S is the exact sum of the mantissa products. -/
def blockP (ta tb : BlkTy) (sa sb : Nat) (s : Int) : Res Nat :=
  if scaleE sa = 255 ∨ scaleE sb = 255 then quiet (fNaN .f32)
  else if scaleE sa = 0 ∨ scaleE sb = 0 then quiet (fZero .f32 false)
  else flushSub (roundExact .f32 .rne false 0 false
    (s * ((256 + scaleF sa) * (256 + scaleF sb) : Nat))
    ((scaleE sa : Int) + scaleE sb - 254 - 16 - ((BlkTy.w ta : Int) - 1) - ((BlkTy.w tb : Int) - 1)))

/-- Whether a BF16 product is infinite times zero. -/
def bfInvalid : FVal × FVal → Bool
  | (.inf _, .fin _ m _) => m == 0
  | (.fin _ m _, .inf _) => m == 0
  | _ => false

/-- The sign of an infinite BF16 product, if the product is infinite. -/
def bfInf : FVal × FVal → Option Bool
  | (.inf a, .inf b) => some (a != b)
  | (.inf a, .fin b m _) => if m = 0 then none else some (a != b)
  | (.fin a m _, .inf b) => if m = 0 then none else some (a != b)
  | _ => none

/-- The exact BF16 product of two finite values; zero for any other pair. -/
def bfProd : FVal × FVal → FVal
  | (.fin na ma ea, .fin nb mb eb) => .fin (na != nb) (ma * mb) (ea + eb)
  | _ => .fin false 0 0

/-- The block result of one K-block in element-exponent mode (R55). -/
def bfP (ps : List (Nat × Nat)) : Res Nat :=
  let vs := ps.map fun p => (fVal .b16 p.1, fVal .b16 p.2)
  let snan := vs.any fun p => p.1.isSnan || p.2.isSnan
  let infs := vs.filterMap bfInf
  let inv := vs.any bfInvalid || (infs.any id && infs.any (!·))
  if vs.any (fun p => p.1.isNan || p.2.isNan) || inv then
    { val := fNaN .f32, fl := flagIf (snan || inv) fInv }
  else match infs with
    | n :: _ => quiet (fInf .f32 n)
    | [] => match sumVals (vs.map bfProd) with
      | some s => flushSub (roundExact .f32 .rne false 0 false s.1 s.2)
      | none => quiet (fNaN .f32)

end Sys2Proof.Machine
end

