-- ==== Sys2Proof/Machine/Operands.lean ====
section
/-! DEFINITION. How a node operation reads its operands and forms its result: lanes and pairs (R17, R125, R126), the
operand selects (R72, R73, R376), block operands with their scales (R139), and the operations of R129 to R147 as
functions of an operand environment.  Nothing here reads or writes the machine's state. -/

namespace Sys2Proof.Machine

open Sys2Proof

/-! ## Lane vectors -/

/-- Sixteen lanes from a function. -/
def mkLanes (f : Nat → Lane) : List Lane := (List.range 16).map f

/-- Lane `i` of a vector; a missing lane reads 0. -/
def laneAt (v : List Lane) (i : Nat) : Lane := v.getD i 0

/-- The pair (2i, 2i+1) of a vector, low word in the even lane (R17). -/
def pairAt (v : List Lane) (i : Nat) : Nat := (laneAt v (2 * i)).toNat + (laneAt v (2 * i + 1)).toNat * 2 ^ 32

/-- The zero vector. -/
def zeroLanes : List Lane := mkLanes fun _ => 0

/-- Whether a lane is active under a mask. -/
def laneOn (m : BitVec 16) (i : Nat) : Bool := m.getLsbD i

/-- Whether a pair is active: bit 2i of the mask (R17). -/
def pairOn (m : BitVec 16) (i : Nat) : Bool := m.getLsbD (2 * i)

/-- A mask from a predicate on lanes. -/
def mkMask (f : Nat → Bool) : BitVec 16 :=
  BitVec.ofNat 16 ((List.range 16).foldl (fun a i => a + bitN (f i) * 2 ^ i) 0)

/-- The mask that a 64-bit operation emits: bit 2i copied into bit 2i+1 (R17). -/
def pairMask (m : BitVec 16) : BitVec 16 := mkMask fun i => m.getLsbD (i / 2 * 2)

/-- The lowest active lane, if any. -/
def lowestLane (m : BitVec 16) : Option Nat := (List.range 16).find? (laneOn m)

/-- The lowest active pair, if any. -/
def lowestPair (m : BitVec 16) : Option Nat := (List.range 8).find? (pairOn m)

/-- The active lanes, ascending. -/
def activeLanes (m : BitVec 16) : List Nat := (List.range 16).filter (laneOn m)

/-- The active pairs, ascending. -/
def activePairs (m : BitVec 16) : List Nat := (List.range 8).filter (pairOn m)

/-- A vector with zero in every inactive lane (R17, R126). -/
def maskLanes (m : BitVec 16) (v : List Lane) : List Lane := mkLanes fun i => if laneOn m i then laneAt v i else 0

/-! ## Element types -/

/-- The width of an integer type in bits (R38). -/
def IntTy.bits : IntTy → Nat
  | .i8 | .n8 => 8
  | .i16 | .n16 => 16
  | .i32 | .n32 => 32
  | .i64 | .n64 => 64

/-- Whether an integer type is signed. -/
def IntTy.signed : IntTy → Bool
  | .i8 | .i16 | .i32 | .i64 => true
  | .n8 | .n16 | .n32 | .n64 => false

/-- The integer type of a width type. -/
def WTy.int : WTy → IntTy
  | .i32 => .i32 | .i64 => .i64 | .n32 => .n32 | .n64 => .n64

/-- Whether elements of an integer type occupy lane pairs. -/
def IntTy.wide (t : IntTy) : Bool := decide (IntTy.bits t = 64)

/-- Whether elements of a float type occupy lane pairs. -/
def FltTy.wide : FltTy → Bool
  | .f64 => true
  | .f16 | .b16 | .f32 => false

/-- Whether elements of a conversion's destination occupy lane pairs. -/
def CvtTy.wide : CvtTy → Bool
  | .int d => IntTy.wide d
  | .flt d => FltTy.wide d

/-- The element size of an integer type in bytes (R165). -/
def IntTy.bytes (t : IntTy) : Nat := IntTy.bits t / 8

/-- The element size of a float type in bytes. -/
def FltTy.bytes : FltTy → Nat
  | .f16 => 2 | .b16 => 2 | .f32 => 4 | .f64 => 8

/-- The value of an n-bit pattern (R125). -/
def intVal (t : IntTy) (raw : Nat) : Int :=
  let n := IntTy.bits t
  let v := raw % 2 ^ n
  if IntTy.signed t && decide (2 ^ (n - 1) ≤ v) then (v : Int) - (2 ^ n : Nat) else v

/-- An integer result as its lane or pair pattern, extended by its type (R126). -/
def intRaw (t : IntTy) (v : Int) : Nat :=
  if IntTy.wide t then (v % (2 ^ 64 : Nat)).toNat else (v % (2 ^ 32 : Nat)).toNat

/-- An n-bit pattern extended by its type to a lane or pair (R131). -/
def extendRaw (t : IntTy) (raw : Nat) : Nat := intRaw t (intVal t raw)

/-- The pattern of a float element: its low bits (R38). -/
def fltRaw (t : FltTy) (raw : Nat) : Nat := raw % 2 ^ FltTy.width t

/-! ## The operand environment -/

/-- What one operation of a firing can read (R125): the data operands by port, the scale operand of each data port and
of a quant stage (R139), x with its mask and forwarded scales, the hold registers, the constants (an absent one 0), the
effective ordinal of the firing's tag, the window elements that it read, as lanes (R73), the firing's mask of R17, and the
key of its stochastic draws. -/
structure OpEnv where
  ports : List (List Lane)
  portScales : List (List Lane)
  quantScale : List Lane
  x : List Lane
  fwd : List Lane
  mask : BitVec 16
  hold : List (List Lane)
  consts : List Lane
  ordinal : Nat
  win : List Lane
  act : BitVec 16
  key : DrawKey
  deriving DecidableEq, Repr, Inhabited

/-- A node constant read by a 64-bit operation (R376): sign- or zero-extended for an integer, widened exactly for a
float. -/
inductive Widen where
  | sext | zext | flt
  deriving DecidableEq, Repr, Inhabited

/-- A 32-bit constant at 64 bits (R376). -/
def widenConst (w : Widen) (k : Lane) : Nat :=
  match w with
  | .sext => (k.signExtend 64).toNat
  | .zext => k.toNat
  | .flt => (cvtFF .f32 .f64 .rne false 0 k.toNat).val

/-- How an integer type widens a constant. -/
def IntTy.widen (t : IntTy) : Widen := if IntTy.signed t then .sext else .zext

/-- The raw value of an operand in lane `i`, or in pair `i` of a 64-bit operation (R72, R73, R125, R376); a hold register gives each
lane its own word, where its words differ too (log 122). -/
def selRaw (env : OpEnv) (wide : Bool) (w : Widen) (s : Sel) (i : Nat) : Nat :=
  match s with
  | .port p => if wide then pairAt (env.ports.getD p.val []) i else (laneAt (env.ports.getD p.val []) i).toNat
  | .x => if wide then pairAt env.x i else (laneAt env.x i).toNat
  | .hold h => if wide then pairAt (env.hold.getD h.val []) i else (laneAt (env.hold.getD h.val []) i).toNat
  | .const k => if wide then widenConst w (env.consts.getD k.val 0) else (env.consts.getD k.val 0).toNat
  | .lane => i
  | .ord => if wide then env.ordinal % 2 ^ 64 else env.ordinal % 2 ^ 32
  | .zero => 0
  | .win => if wide then pairAt env.win i else (laneAt env.win i).toNat

/-- An integer operand's raw value at a type. -/
def selInt (env : OpEnv) (t : IntTy) (s : Sel) (i : Nat) : Nat := selRaw env (IntTy.wide t) (IntTy.widen t) s i

/-- A float operand's pattern at a type. -/
def selFlt (env : OpEnv) (t : FltTy) (s : Sel) (i : Nat) : Nat := fltRaw t (selRaw env (FltTy.wide t) .flt s i)

/-- The result of an operation: its lanes, its mask, the scales it forwards, and its flags. -/
structure OpRes where
  lanes : List Lane
  mask : BitVec 16
  fwd : List Lane
  fl : Flags
  deriving DecidableEq, Repr, Inhabited

/-- The result of a lane-wise operation of 32-bit lanes: inactive lanes hold 0 (R126). -/
def byLane (m : BitVec 16) (f : Nat → Res Nat) : OpRes :=
  { lanes := mkLanes fun i => if laneOn m i then BitVec.ofNat 32 (f i).val else 0, mask := m, fwd := [],
    fl := (activeLanes m).foldl (fun a i => a ||| (f i).fl) fNone }

/-- The result of a pair-wise operation: pair i is active when bit 2i is 1, and the mask copies it (R17). -/
def byPair (m : BitVec 16) (f : Nat → Res Nat) : OpRes :=
  { lanes := mkLanes fun i => if pairOn m (i / 2) then
      BitVec.ofNat 32 (if i % 2 = 0 then (f (i / 2)).val else (f (i / 2)).val / 2 ^ 32) else 0,
    mask := pairMask m, fwd := [], fl := (activePairs m).foldl (fun a i => a ||| (f i).fl) fNone }

/-- A lane-wise or pair-wise operation by the width of its type. -/
def byElem (wide : Bool) (m : BitVec 16) (f : Nat → Res Nat) : OpRes := if wide then byPair m f else byLane m f

/-- The lane key of a stochastic draw: the lane, or the even lane of a pair (R48). -/
def laneKey (wide : Bool) (i : Nat) : Nat := if wide then 2 * i else i

/-- The draw of an operation's element (R48). -/
def drawAt (env : OpEnv) (wide : Bool) (i : Nat) : Nat := env.key.draw (laneKey wide i)

/-! ## Integer operations (R130 to R132) -/

/-- A two-operand integer operation whose exact result is narrowed (R130). -/
def intArith (env : OpEnv) (t : IntTy) (a b : Sel) (sat : Bool) (f : Int → Int → Int) : OpRes :=
  byElem (IntTy.wide t) env.mask fun i =>
    let r := narrowInt (IntTy.signed t) (IntTy.bits t) sat (f (intVal t (selInt env t a i)) (intVal t (selInt env t b i)))
    { val := intRaw t r.val, fl := r.fl }

/-- A one-operand integer operation whose exact result is narrowed (R130). -/
def intUnary (env : OpEnv) (t : IntTy) (a : Sel) (sat : Bool) (f : Int → Int) : OpRes :=
  byElem (IntTy.wide t) env.mask fun i =>
    let r := narrowInt (IntTy.signed t) (IntTy.bits t) sat (f (intVal t (selInt env t a i)))
    { val := intRaw t r.val, fl := r.fl }

/-- mad: a × b + c with one narrowing (R130). -/
def intMad (env : OpEnv) (t : IntTy) (a b c : Sel) (sat : Bool) : OpRes :=
  byElem (IntTy.wide t) env.mask fun i =>
    let r := narrowInt (IntTy.signed t) (IntTy.bits t) sat
      (intVal t (selInt env t a i) * intVal t (selInt env t b i) + intVal t (selInt env t c i))
    { val := intRaw t r.val, fl := r.fl }

/-- mulh: floor(a × b / 2^n) (R130). -/
def intMulh (t : IntTy) (a b : Int) : Int := a * b / (2 ^ IntTy.bits t : Nat)

/-- An operation on n-bit patterns, written back extended, without a flag (R131). -/
def bitOp (env : OpEnv) (t : IntTy) (a b : Sel) (f : Nat → Nat → Nat) : OpRes :=
  byElem (IntTy.wide t) env.mask fun i =>
    let n := IntTy.bits t
    quiet (extendRaw t (f (selInt env t a i % 2 ^ n) (selInt env t b i % 2 ^ n)))

/-- Shift left of an n-bit pattern (R131). -/
def shlBits (n a s : Nat) : Nat := if n ≤ s then 0 else a * 2 ^ s % 2 ^ n

/-- Shift right of an n-bit pattern: logical for an unsigned type, arithmetic for a signed one (R131). -/
def shrBits (t : IntTy) (a s : Nat) : Nat :=
  let n := IntTy.bits t
  if IntTy.signed t then (intVal t a / (2 ^ min s (n - 1) : Nat) % (2 ^ n : Nat)).toNat
  else if n ≤ s then 0 else a / 2 ^ s

/-- Rotate left of an n-bit pattern (R131). -/
def rotlBits (n a s : Nat) : Nat := (a * 2 ^ (s % n) % 2 ^ n) + a / 2 ^ (n - s % n)

/-- Rotate right of an n-bit pattern (R131). -/
def rotrBits (n a s : Nat) : Nat := a / 2 ^ (s % n) + a % 2 ^ (s % n) * 2 ^ (n - s % n) % 2 ^ n

/-- Leading zero bits of an n-bit pattern (R131). -/
def clzBits (n a : Nat) : Nat := n - bitLen a

/-- One bits of a pattern below 2^n (R131). -/
def popBits (n a : Nat) : Nat := ((List.range n).filter fun i => bit a i).length

/-- Whether an integer condition holds (R132). -/
def ICond.holds (c : ICond) (a b : Int) : Bool :=
  match c with
  | .eq => decide (a = b)
  | .ne => decide (a ≠ b)
  | .lt => decide (a < b)
  | .le => decide (a ≤ b)
  | .gt => decide (b < a)
  | .ge => decide (b ≤ a)

/-- Integer compare (R132). -/
def intCmp (env : OpEnv) (t : IntTy) (a b : Sel) (c : ICond) : OpRes :=
  byElem (IntTy.wide t) env.mask fun i =>
    quiet (bitN (ICond.holds c (intVal t (selInt env t a i)) (intVal t (selInt env t b i))))

/-- sel: b where a is not 0, c where it is (R132). -/
def intSel (env : OpEnv) (t : IntTy) (a b c : Sel) : OpRes :=
  byElem (IntTy.wide t) env.mask fun i =>
    quiet (intRaw t (if intVal t (selInt env t a i) ≠ 0 then intVal t (selInt env t b i) else intVal t (selInt env t c i)))

/-! ## Floating-point operations (R133 to R136) -/

/-- A rounding float operation of one operand. -/
def flt1 (env : OpEnv) (t : FltTy) (a : Sel) (f : Nat → Nat → Res Nat) : OpRes :=
  byElem (FltTy.wide t) env.mask fun i => f (drawAt env (FltTy.wide t) i) (selFlt env t a i)

/-- A rounding float operation of two operands. -/
def flt2 (env : OpEnv) (t : FltTy) (a b : Sel) (f : Nat → Nat → Nat → Res Nat) : OpRes :=
  byElem (FltTy.wide t) env.mask fun i => f (drawAt env (FltTy.wide t) i) (selFlt env t a i) (selFlt env t b i)

/-- fma (R133). -/
def flt3 (env : OpEnv) (t : FltTy) (a b c : Sel) (r : Rnd) (sat : Bool) : OpRes :=
  byElem (FltTy.wide t) env.mask fun i =>
    fFma t r sat (drawAt env (FltTy.wide t) i) (selFlt env t a i) (selFlt env t b i) (selFlt env t c i)

/-- Float compare: an .n32 value in the lane, or a 64-bit value on the pair (R135). -/
def fltCmp (env : OpEnv) (t : FltTy) (a b : Sel) (c : FCond) : OpRes :=
  byElem (FltTy.wide t) env.mask fun i =>
    let r := fCmp t c (selFlt env t a i) (selFlt env t b i)
    { val := bitN r.val, fl := r.fl }

/-! ## Conversions (R137, R138) -/

/-- The mask of a conversion from 64 bits to lanes: lane 2i active when pair i is (R138). -/
def narrowMask (m : BitVec 16) : BitVec 16 := mkMask fun i => i % 2 == 0 && m.getLsbD i

/-- The mapping of R138: the element is computed from the source index, a lane or a pair, and lands at the destination
index; an odd lane of a narrowing is inactive. -/
def cvtMap (srcWide dstWide : Bool) (m : BitVec 16) (f : Nat → Res Nat) : OpRes :=
  match srcWide, dstWide with
  | false, false => byLane m f
  | true, true => byPair m f
  | false, true => byPair m fun i => f (2 * i)
  | true, false =>
    let m' := narrowMask m
    byLane m' fun i => f (i / 2)

/-- The lane key of a converted element: its result's lane, or the even lane of its pair (R48, R138). -/
def cvtKey (srcWide : Bool) (i : Nat) : Nat := if srcWide then 2 * i else i

/-- cvt from an integer (R137). -/
def cvtInt (env : OpEnv) (t : IntTy) (a : Sel) (c : CvtTy) (r : Rnd) (sat : Bool) : OpRes :=
  match c with
  | .int d => cvtMap (IntTy.wide t) (IntTy.wide d) env.mask fun i =>
      let v := cvtII (IntTy.signed d) (IntTy.bits d) sat (intVal t (selInt env t a i))
      { val := intRaw d v.val, fl := v.fl }
  | .flt d => cvtMap (IntTy.wide t) (FltTy.wide d) env.mask fun i =>
      cvtIF d r sat (env.key.draw (cvtKey (IntTy.wide t) i)) (intVal t (selInt env t a i))

/-- cvt from a float (R137). -/
def cvtFlt (env : OpEnv) (t : FltTy) (a : Sel) (c : CvtTy) (r : Rnd) (sat : Bool) : OpRes :=
  match c with
  | .int d => cvtMap (FltTy.wide t) (IntTy.wide d) env.mask fun i =>
      let v := cvtFI t (IntTy.signed d) (IntTy.bits d) r (env.key.draw (cvtKey (FltTy.wide t) i)) (selFlt env t a i)
      { val := intRaw d v.val, fl := v.fl }
  | .flt d => cvtMap (FltTy.wide t) (FltTy.wide d) env.mask fun i =>
      cvtFF t d r sat (env.key.draw (cvtKey (FltTy.wide t) i)) (selFlt env t a i)

/-! ## Block operations (R139 to R144) -/

/-- The lanes of a block operand: a port or x (R127). -/
def blkLanes (env : OpEnv) (s : Sel) : List Lane :=
  match s with
  | .port p => env.ports.getD p.val []
  | .x => env.x
  | .hold _ | .const _ | .lane | .ord | .zero | .win => []

/-- The scale lanes of a block operand: its port's scale token, or the scales the previous stage forwarded (R139). -/
def blkScales (env : OpEnv) (s : Sel) : List Lane :=
  match s with
  | .port p => env.portScales.getD p.val []
  | .x => env.fwd
  | .hold _ | .const _ | .lane | .ord | .zero | .win => []

/-- The lanes of a block operand that an operation reads: the active ones, and for a dequant to pairs the even ones of
the active pairs (R138; log 20). -/
def blkRead (m : BitVec 16) (toPairs : Bool) : List Nat :=
  if toPairs then (activePairs m).map (2 * ·) else activeLanes m

/-- Whether the block index of every lane read equals that of its scale lane; a mismatch raises OP.SCALE (R46, R139). -/
def scalesMatch (env : OpEnv) (s : Sel) (lanes : List Nat) : Bool :=
  lanes.all fun i => (laneAt (blkLanes env s) i).toNat / 2 ^ 16 == (laneAt (blkScales env s) i).toNat / 2 ^ 16

/-- The 16-bit scale of a block operand's lane. -/
def scaleAt (env : OpEnv) (s : Sel) (i : Nat) : Nat := (laneAt (blkScales env s) i).toNat % 2 ^ 16

/-- The mantissa byte of a block operand's lane. -/
def mantAt (env : OpEnv) (s : Sel) (i : Nat) : Nat := (laneAt (blkLanes env s) i).toNat % 256

/-- quant (R141): the quantised elements, and the forwarded scale of each lane. -/
def blkQuant (env : OpEnv) (d : BlkTy) (a : Sel) (s : FltTy) (r : Rnd) : OpRes :=
  let q : Nat → Res QuantRes := fun i =>
    quantVal d s r (env.key.draw (cvtKey (FltTy.wide s) i)) ((laneAt env.quantScale (cvtKey (FltTy.wide s) i)).toNat % 2 ^ 16)
      (selFlt env s a i)
  let bi : Nat → Nat := fun i => (laneAt env.quantScale (cvtKey (FltTy.wide s) i)).toNat / 2 ^ 16 * 2 ^ 16
  let res := cvtMap (FltTy.wide s) false env.mask fun i =>
    { val := bi i + ((q i).val.m % 256).toNat, fl := (q i).fl }
  let fwd := cvtMap (FltTy.wide s) false env.mask fun i => quiet (bi i + (q i).val.fwd)
  { res with fwd := fwd.lanes }

/-- dequant (R142). -/
def blkDequant (env : OpEnv) (t : BlkTy) (a : Sel) (d : FltTy) (r : Rnd) (sat : Bool) : OpRes :=
  cvtMap false (FltTy.wide d) env.mask fun i =>
    dequantVal t d r sat (env.key.draw i) (scaleAt env a i) (mantAt env a i)

/-- bmul (R143). -/
def blkMul (env : OpEnv) (ta : BlkTy) (a b : Sel) (tb : BlkTy) (r : Rnd) (sat : Bool) : OpRes :=
  byLane env.mask fun i =>
    bmulVal ta tb r sat (env.key.draw i) (scaleAt env a i) (mantAt env a i) (scaleAt env b i) (mantAt env b i)

/-- A result that stands in lane 0 alone, with mask 0x0001 (R144, R146). -/
def inLane0 (v : Res Nat) : OpRes :=
  { lanes := mkLanes fun i => if i = 0 then BitVec.ofNat 32 v.val else 0, mask := 1, fwd := [], fl := v.fl }

/-- A result that stands in pair 0 alone, with mask 0x0003 (R146). -/
def inPair0 (v : Res Nat) : OpRes :=
  { lanes := mkLanes fun i => if i = 0 then BitVec.ofNat 32 v.val else if i = 1 then BitVec.ofNat 32 (v.val / 2 ^ 32) else 0,
    mask := 3, fwd := [], fl := v.fl }

/-- bdot (R144): one rounding of the exact sum, drawn with lane key 0. -/
def blkDot (env : OpEnv) (ta : BlkTy) (a b : Sel) (tb : BlkTy) (r : Rnd) (sat : Bool) : OpRes :=
  inLane0 (bdotVal r sat (env.key.draw 0) ((activeLanes env.mask).map fun i =>
    blkProd ta tb (scaleAt env a i) (mantAt env a i) (scaleAt env b i) (mantAt env b i)))

/-! ## Lane moves (R145) -/

/-- bcast (R145): the source lane is read from B in the lowest active lane; a source lane that is not active in the firing
reads 0. -/
def laneBcast (env : OpEnv) (t : WTy) (a b : Sel) : OpRes :=
  let it := WTy.int t
  if IntTy.wide it then
    let j := match lowestPair env.mask with | some i => selInt env it b i % 8 | none => 0
    byPair env.mask fun _ => quiet (if pairOn env.act j then selInt env it a j else 0)
  else
    let j := match lowestLane env.mask with | some i => selInt env it b i % 16 | none => 0
    byLane env.mask fun _ => quiet (if laneOn env.act j then selInt env it a j else 0)

/-- shuf (R145). -/
def laneShuf (env : OpEnv) (t : WTy) (a b : Sel) : OpRes :=
  let it := WTy.int t
  if IntTy.wide it then
    byPair env.mask fun i =>
      let j := selInt env it b i % 8
      quiet (if pairOn env.act j then selInt env it a j else 0)
  else
    byLane env.mask fun i =>
      let j := selInt env it b i % 16
      quiet (if laneOn env.act j then selInt env it a j else 0)

/-! ## Reductions (R57, R146, R147, R164) -/

/-- One step of an integer reduction on patterns (R146). -/
def redStepI (t : IntTy) (c : RedOp) (sat : Bool) (a b : Nat) : Res Nat :=
  let n := IntTy.bits t
  let va := intVal t a
  let vb := intVal t b
  match c with
  | .add => let r := narrowInt (IntTy.signed t) n sat (va + vb); { val := intRaw t r.val, fl := r.fl }
  | .min => quiet (intRaw t (if va ≤ vb then va else vb))
  | .max => quiet (intRaw t (if vb ≤ va then va else vb))
  | .and => quiet (extendRaw t ((a % 2 ^ n) &&& (b % 2 ^ n)))
  | .or => quiet (extendRaw t ((a % 2 ^ n) ||| (b % 2 ^ n)))
  | .xor => quiet (extendRaw t ((a % 2 ^ n) ^^^ (b % 2 ^ n)))

/-- One step of a float reduction on patterns (R146). -/
def redStepF (t : FltTy) (c : FRedOp) (r : Rnd) (sat : Bool) (u a b : Nat) : Res Nat :=
  match c with
  | .add => fAdd t r sat u a b
  | .min => fMinMax false t a b
  | .max => fMinMax true t a b

/-- The identity of an integer reduction (R57). -/
def redIdI (t : IntTy) (c : RedOp) : Nat :=
  match c with
  | .add | .or | .xor => 0
  | .and => extendRaw t (2 ^ IntTy.bits t - 1)
  | .min => intRaw t (intRange (IntTy.signed t) (IntTy.bits t)).2
  | .max => intRaw t (intRange (IntTy.signed t) (IntTy.bits t)).1

/-- The identity of a float reduction (R57). -/
def redIdF (t : FltTy) (c : FRedOp) : Nat :=
  match c with
  | .add => fZero t false
  | .min => fInf t false
  | .max => fInf t true

/-- One level of the fixed tree (R57): adjacent positions combine, an absent side passes the other through.  `h` is half
the distance of the level's positions, `p` the first position; the step is keyed by the right operand's position. -/
def treeLevel (step : Nat → Nat → Nat → Res Nat) (h : Nat) : Nat → List (Option Nat) → List (Option Nat) × Flags
  | p, a :: b :: t =>
    let rest := treeLevel step h (p + 2 * h) t
    match a, b with
    | some x, some y => let r := step (p + h) x y; (some r.val :: rest.1, r.fl ||| rest.2)
    | some x, none => (some x :: rest.1, rest.2)
    | none, some y => (some y :: rest.1, rest.2)
    | none, none => (none :: rest.1, rest.2)
  | _, l => (l, fNone)

/-- The fixed tree over a power-of-two list (R57), by levels. -/
def treeFold (step : Nat → Nat → Nat → Res Nat) : Nat → Nat → List (Option Nat) → Option Nat × Flags
  | 0, _, l => (l.headD none, fNone)
  | n + 1, h, l =>
    let s := treeLevel step h 0 l
    let r := treeFold step n (2 * h) s.1
    (r.1, s.2 ||| r.2)

/-- The elements under a mask as a list with absent positions. -/
def present (wide : Bool) (m : BitVec 16) (f : Nat → Nat) : List (Option Nat) :=
  if wide then (List.range 8).map fun i => if pairOn m i then some (f i) else none
  else (List.range 16).map fun i => if laneOn m i then some (f i) else none

/-- red (R146). -/
def reduce (wide : Bool) (m : BitVec 16) (f : Nat → Nat) (ident : Nat) (step : Nat → Nat → Nat → Res Nat) : OpRes :=
  let r := treeFold step (if wide then 3 else 4) 1 (present wide m f)
  let v : Res Nat := { val := r.1.getD ident, fl := r.2 }
  if wide then inPair0 v else inLane0 v

/-- Integer red (R146). -/
def redInt (env : OpEnv) (t : IntTy) (a : Sel) (c : RedOp) (sat : Bool) : OpRes :=
  reduce (IntTy.wide t) env.mask (fun i => extendRaw t (selInt env t a i)) (redIdI t c) fun _ => redStepI t c sat

/-- Float red (R146): the step at level l and position i draws with key i + 2^(l-1). -/
def redFlt (env : OpEnv) (t : FltTy) (a : Sel) (c : FRedOp) (r : Rnd) (sat : Bool) : OpRes :=
  reduce (FltTy.wide t) env.mask (fun i => selFlt env t a i) (redIdF t c) fun k => redStepF t c r sat (env.key.draw k)

/-- The left folds over the active elements in ascending order (R147): each index with its prefix and the flags. -/
def prefixes (step : Nat → Nat → Nat → Res Nat) : Option Nat → List (Nat × Nat) → List (Nat × Nat) × Flags
  | _, [] => ([], fNone)
  | none, (i, v) :: t =>
    let r := prefixes step (some v) t
    ((i, v) :: r.1, r.2)
  | some a, (i, v) :: t =>
    let s := step i a v
    let r := prefixes step (some s.val) t
    ((i, s.val) :: r.1, s.fl ||| r.2)

/-- scan (R147). -/
def scanElems (wide : Bool) (m : BitVec 16) (f : Nat → Nat) (step : Nat → Nat → Nat → Res Nat) : OpRes :=
  let idx := if wide then activePairs m else activeLanes m
  let p := prefixes step none (idx.map fun i => (i, f i))
  let r := byElem wide m fun i => quiet (((p.1.find? fun e => e.1 == i).map Prod.snd).getD 0)
  { r with fl := p.2 }

/-- Integer scan (R147). -/
def scanInt (env : OpEnv) (t : IntTy) (a : Sel) (c : RedOp) (sat : Bool) : OpRes :=
  scanElems (IntTy.wide t) env.mask (fun i => extendRaw t (selInt env t a i)) fun _ => redStepI t c sat

/-- Float scan (R147): the step that produces lane L draws with lane key L, a pair with its even lane's. -/
def scanFlt (env : OpEnv) (t : FltTy) (a : Sel) (c : FRedOp) (r : Rnd) (sat : Bool) : OpRes :=
  scanElems (FltTy.wide t) env.mask (fun i => selFlt env t a i) fun i =>
    redStepF t c r sat (drawAt env (FltTy.wide t) i)

end Sys2Proof.Machine
end

