-- ==== Sys2Proof/Machine/Sparse.lean ====
section
/-! DEFINITION. Sparse stores: lists of (key, value) pairs in one canonical form, keys strictly rising and no entry
equal to what an unlisted key reads as.  Every memory, register file and table of the machine is one of these, so equal
contents are equal data. -/

namespace Sys2Proof.Machine

/-- A sparse store from natural-number keys. -/
abbrev SMap (α : Type) := List (Nat × α)

/-- The value at a key; a key that is not listed reads as `d`. -/
def smGet {α : Type} (d : α) : SMap α → Nat → α
  | [], _ => d
  | (k, v) :: t, i => if i = k then v else if i < k then d else smGet d t i

/-- Removes a key. -/
def smDel {α : Type} : SMap α → Nat → SMap α
  | [], _ => []
  | (k, v) :: t, i => if i = k then t else if i < k then (k, v) :: t else (k, v) :: smDel t i

/-- Inserts or replaces a key. -/
def smIns {α : Type} : SMap α → Nat → α → SMap α
  | [], i, x => [(i, x)]
  | (k, v) :: t, i, x =>
    if i = k then (i, x) :: t else if i < k then (i, x) :: (k, v) :: t else (k, v) :: smIns t i x

/-- Writes a key, keeping the canonical form: a value equal to what an unlisted key reads as removes the entry. -/
def smSet {α : Type} [DecidableEq α] (d : α) (m : SMap α) (i : Nat) (x : α) : SMap α :=
  if x = d then smDel m i else smIns m i x

/-- Whether every key of a store is above a bound, the keys rise strictly, and no entry reads as an unlisted one. -/
def smWfFrom {α : Type} [DecidableEq α] (d : α) : Nat → SMap α → Bool
  | _, [] => true
  | lo, (k, v) :: t => decide (lo ≤ k) && decide (v ≠ d) && smWfFrom d (k + 1) t

/-- The canonical form of a sparse store. -/
def smWf {α : Type} [DecidableEq α] (d : α) (m : SMap α) : Bool := smWfFrom d 0 m

/-- The entries whose keys lie in `[lo, hi)`, with `lo` taken off each key. -/
def smSlice {α : Type} (m : SMap α) (lo hi : Nat) : SMap α :=
  (m.filter fun p => decide (lo ≤ p.1) && decide (p.1 < hi)).map fun p => (p.1 - lo, p.2)

/-- The store without the keys in `[lo, hi)`. -/
def smClear {α : Type} (m : SMap α) (lo hi : Nat) : SMap α :=
  m.filter fun p => !(decide (lo ≤ p.1) && decide (p.1 < hi))

/-- Changes every listed value of a store, keeping the canonical form. -/
def smMap {α : Type} [DecidableEq α] (d : α) (f : Nat → α → α) (m : SMap α) : SMap α :=
  m.filterMap fun p => if f p.1 p.2 = d then none else some (p.1, f p.1 p.2)

/-- Writes a slice back with `lo` added to each key. -/
def smPut {α : Type} [DecidableEq α] (d : α) (m : SMap α) (lo : Nat) : SMap α → SMap α
  | [] => m
  | (k, v) :: t => smPut d (smSet d m (lo + k) v) lo t

end Sys2Proof.Machine
end

