-- ==== Sys2Proof/Machine/State.lean ====
section
/-! DEFINITION. The state of the whole package as plain data: every register, store, table, queue and pending event that
the spec gives the part, with the state right after reset.  Clusters are numbered 0 to 63 across the package; a store
kept per cluster is one sparse store whose key has the cluster as its most significant part. -/

namespace Sys2Proof.Machine

open Sys2Proof

/-! ## Tokens, tags and firings -/

/-- A node of a context's fabric: its cluster relative to the region (R291), its plane, PE and node slot. -/
structure NodeRef where
  cl : Nat
  plane : Nat
  pe : Nat
  slot : Nat
  deriving DecidableEq, Repr, Inhabited

/-- A token kind (R19). -/
inductive TokKind where
  | data | scale | marker | order
  deriving DecidableEq, Repr, Inhabited

/-- A token in a channel (R19).  `port` is 0 to 2 for p0 to p2, 4 and 5 for q0 and q1.  `src` names the route it
travels, and `pred` the accesses that an ordering token stands for (R168). -/
structure Tok where
  tag : Tag
  kind : TokKind
  mask : BitVec 16
  payload : List Lane
  dest : NodeRef
  port : Nat
  src : NodeRef
  pred : List Nat
  deriving DecidableEq, Repr, Inhabited

/-- Where a waiting operand is kept (R27, R28). -/
inductive Place where
  | table | store | area
  deriving DecidableEq, Repr, Inhabited

/-- A waiting operand: a token stored in a frame slot (R25, R27), and the bits of its entry that upsets have flipped
(R344). -/
structure Waiting where
  tok : Tok
  place : Place
  err : Nat
  deriving DecidableEq, Repr, Inhabited

/-- What a dependence on an earlier access waits for (R243, R248): its acceptance, its performance, or its
acknowledgement over a route. -/
inductive Level where
  | accepted | performed | acked
  deriving DecidableEq, Repr, Inhabited

/-- Where an output of a firing goes: output 0 or 1 of the node's route, or a port named by a link word, a call's record or a reply. -/
inductive Outlet where
  | route (sel : Bool)
  | to (d : NodeRef) (port : Nat)
  deriving DecidableEq, Repr, Inhabited

/-- An output of a firing, as its E stage sends it (R16, R150, R152). -/
structure Emission where
  out : Outlet
  tag : Tag
  kind : TokKind
  mask : BitVec 16
  lanes : List Lane
  pred : List Nat
  deriving DecidableEq, Repr, Inhabited

/-- A dependence on an earlier access or update pair, and the level it must have reached. -/
structure Dep where
  id : Nat
  level : Level
  deriving DecidableEq, Repr, Inhabited

/-- Where a firing stands between its steps: in the pipeline, waiting for a grant, a free, its loads, its memory nodes,
its sorters, an inbox, a fence, an ordinal or a barrier phase, with its outputs formed, or held by a breakpoint, a trap
or a drain. -/
inductive Phase where
  | run
  | waitAlloc
  | granted (t : Tag)
  | waitFree
  | freed (parent : Tag)
  | waitMem
  | waitAccept
  | waitPairs
  | waitInbox
  | waitFence (deps : List Dep)
  | waitPhase (inst : Nat) (phase : Nat)
  | emit (outs : List Emission)
  | held (outs : Option (List Emission))
  deriving DecidableEq, Repr, Inhabited

/-- A firing in progress (R16, R26): its node, tag and consumed operands by port, its scale operands by scale port, its
stage (0 for X1), x with its mask and forwarded scales, and where it stands.  `act` is its mask of R17, `fl` the flags that
wait while a later stage may raise OP.SCALE (R128), and `wins` the elements of its window operand read so far (R73).  `got`
holds the elements its loads returned, by lane or pair. -/
structure Firing where
  id : Nat
  ref : NodeRef
  tag : Tag
  ports : List (Option Tok)
  scales : List (Option Tok)
  stage : Nat
  x : List Lane
  mask : BitVec 16
  act : BitVec 16
  fwd : List Lane
  fl : BitVec 8
  phase : Phase
  wins : List Nat
  got : SMap Nat
  deriving DecidableEq, Repr, Inhabited

/-- An agent that issues accesses (R247): a PE of the region by relative cluster, the sequencer, or an engine. -/
inductive Agent where
  | pe (cl pe : Nat)
  | seq
  | eng (e : EngRef)
  deriving DecidableEq, Repr, Inhabited

/-- The scratchpad atomics (R170). -/
inductive AtomOp where
  | iadd | imin | imax | and | or | xor | xchg | cas
  deriving DecidableEq, Repr, Inhabited

/-- What an access does at its point of coherence (R243, R245). -/
inductive AccOp where
  | load
  | store (v : Nat)
  | atomic (op : AtomOp) (signed : Bool) (b c : Nat)
  deriving DecidableEq, Repr, Inhabited

/-- A pending access of one naturally aligned element (R244).  `glob` tells a global virtual address from a nominal
scratchpad address, `mnode` is its memory node by nominal cluster and PE, `arrived` the turn at which it was accepted, `deps`
what must precede its performance (R168, R169, R174), `parked` marks one that has met a page fault, and `replay` one that a
page fault's save caught in its memory node (R255, R339). -/
structure Access where
  id : Nat
  agent : Agent
  mnode : Nat
  op : AccOp
  glob : Bool
  addr : Nat
  size : Nat
  lane : Nat
  firing : Nat
  accepted : Bool
  arrived : Nat
  deps : List Dep
  parked : Bool
  replay : Bool
  foot : List Nat
  deriving DecidableEq, Repr, Inhabited

/-- The key of an ordinal (R48): space, ring, 64-bit ordinal. -/
structure OrdKey where
  space : Nat
  ring : Nat
  ordinal : Nat
  deriving DecidableEq, Repr, Inhabited

/-- An update pair on its way to its sorter, or one that a sorter holds (R210, R211). -/
structure Pair where
  id : Nat
  handle : Nat
  offset : Nat
  value : Nat
  size : Nat
  key : OrdKey
  node : Nat
  lane : Nat
  firing : Nat
  agent : Agent
  deps : List Dep
  deriving DecidableEq, Repr, Inhabited

/-- A hold that an acquire or a fence puts on an agent's later accesses (R169, R174, R112): the accesses it waits for,
and whether it holds stores only. -/
structure Hold where
  agent : Agent
  deps : List Dep
  storesOnly : Bool
  deriving DecidableEq, Repr, Inhabited

/-- A request that waits at a space's allocator (R22): the firing or source that asked, its space, ring and parent. -/
structure AllocReq where
  firing : Nat
  space : Nat
  ring : Nat
  parent : Tag
  opened : Bool
  deriving DecidableEq, Repr, Inhabited

/-- A slot of a tag space (R22, R23, R162): whether it is live, its generation, its parent tag, the ordinal key of the
tag it grants, whether that tag opened an invocation, and the return continuation of a call. -/
structure Slot where
  live : Bool
  gen : Nat
  parent : Tag
  key : OrdKey
  opened : Bool
  ret : Option (Tag × NodeRef × Nat)
  deriving DecidableEq, Repr, Inhabited

/-- The kinds of a tag space (R21, R309). -/
inductive SpaceKind where
  | unused | plain | call | deep
  deriving DecidableEq, Repr, Inhabited

/-- A space descriptor (R309). -/
structure SpaceDesc where
  kind : SpaceKind
  parent : Option Nat
  home : Nat
  n : Nat
  deriving DecidableEq, Repr, Inhabited

/-- The state that an rdc node keeps for one ring (R164): the next ordinal, absent until an invocation opens, and the
accumulators by lane, absent until they receive a value. -/
structure RdcState where
  next : Option Nat
  acc : SMap Nat
  present : BitVec 16
  deriving DecidableEq, Repr, Inhabited

/-- A configuration period in progress (R15, R105): its first plane and extents. -/
structure Period where
  plane : Nat
  nx : Nat
  ny : Nat
  nz : Nat
  deriving DecidableEq, Repr, Inhabited

/-- A reply to a node port on its way (R377). -/
structure NodeReply where
  plane : Nat
  dest : LinkDest
  tag : Tag
  word : Word
  header : Nat
  pred : List Nat
  deriving DecidableEq, Repr, Inhabited

/-- An instance of a barrier (R256, R257, R379): its participants, the phase number, and who has arrived in it. -/
structure BarInst where
  parts : List Nat
  phase : Nat
  arrived : List Nat
  deriving DecidableEq, Repr, Inhabited

/-- An arrive message on its way to the barrier block of the home cluster (R257), behind the accesses its release waits
for (R258). -/
structure ArriveMsg where
  inst : Nat
  agent : Nat
  deps : List Dep
  deriving DecidableEq, Repr, Inhabited

/-- A phase-completion message on its way to a cluster (R257). -/
structure PhaseMsg where
  inst : Nat
  cl : Nat
  phase : Nat
  deriving DecidableEq, Repr, Inhabited

/-- A configuration load in progress (R104, R292): the image's address, identity, first plane and fold, the node words
by key, the hold records by key, and whether a later load of some of its planes has dropped it. -/
structure LoadJob where
  addr : Nat
  ident : Nat
  plane : Nat
  fold : Nat
  nodes : SMap (List Nat)
  holds : SMap (List Lane)
  dropped : Bool
  deriving DecidableEq, Repr, Inhabited

/-- The part of a context's state that its fabric holds: tokens, frames, firings, accesses, allocation, barriers, the
invocations in progress of each inner space's loop (R33), the fences that a save has caught, by firing or the sequencer's (R255,
R339), and the period in progress.  Cluster numbers in it are relative to the region's first cluster. -/
structure Fabric where
  chan : List Tok
  waiting : List Waiting
  firings : List Firing
  nextId : Nat
  accesses : List Access
  pairs : List Pair
  holds : List Hold
  allocs : List AllocReq
  period : Option Period
  cursors : SMap Nat
  rdc : SMap RdcState
  replies : List NodeReply
  markers : SMap Nat
  heldMarks : SMap Nat
  passed : SMap Nat
  draining : Bool
  stopped : SMap Nat
  bars : SMap BarInst
  arrives : List ArriveMsg
  phases : List PhaseMsg
  seen : SMap Nat
  joined : SMap Nat
  loads : List LoadJob
  loops : SMap Nat
  heldFences : List (Option Nat)
  idle : Nat
  deriving DecidableEq, Repr, Inhabited

/-! ## The sequencer -/

/-- A fault that an engine reported and no instruction has raised yet (R110): the register its reply went to, 0 for
none, and the trap's code, reason and report. -/
structure HeldFault where
  reg : Nat
  code : Nat
  reason : Nat
  report : Nat
  deriving DecidableEq, Repr, Inhabited

/-- The value that a producer will write (R61): a value, a sample of an engine's status word, or the bytes that the loads
named `id` return, by byte offset. -/
inductive LongSrc where
  | value (v : Word)
  | estat (e : EngRef)
  | loads (id : Nat) (got : SMap Nat)
  deriving DecidableEq, Repr, Inhabited

/-- A pending write of a long-latency producer (R61): its register and what it will write. -/
structure LongWrite where
  reg : Nat
  src : LongSrc
  deriving DecidableEq, Repr, Inhabited

/-- Where the sequencer stands within an instruction that takes several steps. -/
inductive SeqPhase where
  | ready
  | sendWait
  | applyWait
  | tbindWait
  | barWait (inst phase : Nat)
  | stopped
  | finishing (value : Word)
  deriving DecidableEq, Repr, Inhabited

/-- The sequencer of a region (R92, R94, R103).  `far` tells that the target of a transfer is one that pc cannot hold (R100;
log 9), `ir` holds the word of the instruction in progress as it was fetched (R93), and `busy` marks the registers whose ld
from the region's own clusters has not returned (R96). -/
structure Seq where
  pc : BitVec 32
  far : Bool
  ir : Option (BitVec 32)
  regs : SMap Word
  empty : BitVec 32
  busy : BitVec 32
  lc : SMap Word
  lb : SMap Nat
  le : SMap Nat
  lcw : SMap Word
  plb : SMap Nat
  ple : SMap Nat
  act : BitVec 4
  cpend : BitVec 4
  wpend : BitVec 4
  h : Bool
  tvec : Word
  epc : Word
  cause : Word
  tval : Word
  long : List LongWrite
  faults : List HeldFault
  phase : SeqPhase
  counted : Bool
  deriving DecidableEq, Repr, Inhabited

/-! ## Contexts -/

/-- The states of a context (R304, R310). -/
inductive CtxState where
  | free | idle | queued | running | draining | suspended | retiring
  deriving DecidableEq, Repr, Inhabited

/-- The cause of a drain, as the save frame codes it (R323). -/
inductive DrainCause where
  | priority | stop | trap | page | freeze
  deriving DecidableEq, Repr, Inhabited

/-- A task of a context (R307, R311, R316). -/
structure Task where
  prio : Nat
  lsize : Nat
  consume : Bool
  base : Nat
  record : Nat
  seed : Word
  wtab : Nat
  inmask : Word
  outmask : Word
  cookie : Word
  entry : Nat
  w : Nat
  held : Nat
  placed : Bool
  trigger : Bool
  seqno : Nat
  handler : Bool
  deriving DecidableEq, Repr, Inhabited

/-- A load record (R285, R309, R317): what the loader leaves for a launch.  Its byte layout is not in the spec, so it is
kept as data at its intermediate address; its space descriptors are the 16-byte words of R309. -/
structure LoadRecord where
  lsize : Nat
  program : List Byte
  images : List Nat
  spaces : List Nat
  cm : SMap Word
  pm : SMap Word
  sys : Word
  winDecl : List (Option Nat)
  winImage : List (Nat × Nat)
  ovStore : Nat
  ovBase : Nat
  ovSize : Nat
  requires : BitVec 14
  arrivers : List (Nat × Nat)
  deriving DecidableEq, Repr, Inhabited

/-- A load request (R285): clusters, the overflow-store size in bytes, the global overflow area by virtual base and size in
bytes, a pool size for each deep space, and the window image: virtual address, bytes and intermediate address of each of the
eight windows. -/
structure LoadReq where
  clusters : Nat
  ovStore : Nat
  ovBase : Nat
  ovSize : Nat
  pools : List (Nat × Nat)
  windows : List (Nat × Nat × Nat)
  deriving DecidableEq, Repr, Inhabited

/-- A refusal that the loader reports to the host (R11, R281): the code, the reason, and the graph node number where one
applies. -/
structure LdrReport where
  code : Nat
  reason : Nat
  node : Option Nat
  deriving DecidableEq, Repr, Inhabited

/-- A destination of an unplaced node (R293): the output, the port, whether every copy is meant, and the graph node. -/
structure SrcEdge where
  out : Bool
  port : Nat
  all : Bool
  dst : Nat
  deriving DecidableEq, Repr, Inhabited

/-- A node of a fabric load as a section gives it (R280, R293): its tile, its words, its route's destinations, the destination of
its link word, and for a native image the PE and slot of its tile in which it stands.  The words of an unplaced node have no
switch words; the destinations of a native one are those that its relocations name. -/
structure SrcNode where
  tile : Nat
  words : List Nat
  edges : List SrcEdge
  link : List SrcEdge
  place : Option (Nat × Nat)
  deriving DecidableEq, Repr, Inhabited

/-- A completion token (R327). -/
structure Completion where
  kind : Nat
  code : Nat
  reason : Nat
  value : Word
  flags : Word
  report : Word
  extra : Word
  cookie : Word
  seqno : Nat
  deriving DecidableEq, Repr, Inhabited

/-- An update binding (R117, R208, R211): the region and spill area in virtual addresses, the operator and type codes,
the range registers through which the sorters translated it, and the number of periods begun since it was made, one more
than the period in its records' keys. -/
structure Binding where
  base : Nat
  size : Nat
  op : Nat
  type : Nat
  spill : Nat
  spillsize : Nat
  rng : List (Word × Word)
  period : Nat
  deriving DecidableEq, Repr, Inhabited

/-- Why an apply was started, and what its completion lets happen (R216). -/
inductive ApplyWhy where
  | flush | unbind | done | wrap
  deriving DecidableEq, Repr, Inhabited

/-- An apply in progress (R216, R218): its handles, why it runs, and the sorters, as handle × 16 + stack, that still wait
for leave or hold it. -/
structure Apply where
  handles : List Nat
  why : ApplyWhy
  waits : List Nat
  leave : List Nat
  deriving DecidableEq, Repr, Inhabited

/-- A waiting or acknowledged tbind (R119, R315). -/
structure TbindReq where
  tile : Nat
  token : Option (List Word)
  deriving DecidableEq, Repr, Inhabited

/-! ## Engines -/

/-- Who sent a command (R186): the context, whether a sequencer send began its chain, the register its reply marks, the
sender's agent, the firing's tag, graph node number and id, and the follow-ons issued since the first send. -/
structure Sender where
  ctx : Nat
  bySeq : Bool
  reg : Nat
  agent : Agent
  tag : Tag
  node : Nat
  firing : Nat
  chain : Nat
  deps : List Dep
  deriving DecidableEq, Repr, Inhabited

/-- A command in an engine's inbox or waiting for room in it (R81, R181). -/
structure Cmd where
  raw : Nat
  hdr : Header
  from_ : Sender
  deriving DecidableEq, Repr, Inhabited

/-- How far a command in progress has come (R183, R206). -/
inductive CmdPhase where
  | leaveWait | leaveGranted | working | finished
  deriving DecidableEq, Repr, Inhabited

/-- A memory location of an engine's access: an address of scratchpad or a global virtual address (R190). -/
structure Plc where
  sp : Bool
  addr : Nat
  deriving DecidableEq, Repr, Inhabited

/-- What a command has still to do in memory, an access at a time (R191, R193, R196, R200, R207, R234, R244): copy `n` bytes, of which
the first `rd` come from a source and the others are 0; read `n` bytes of scratchpad; write `n` bytes of a value there, `unit`
bytes at a time. -/
inductive Work where
  | move (src : Option Plc) (dst : Plc) (rd n : Nat)
  | read (a n : Nat)
  | put (a unit n v : Nat)
  deriving DecidableEq, Repr, Inhabited

/-- A command in progress (R183, R184): its reply word's fields, the trap's report, the flags and class field it commits,
its reply tag, the counters of R237 it adds and what it writes back at its commit, and whether it holds leave.  `body` holds the body as the
command read it (R182), and above it what its checks read from memory; `stage` tells what follows the accesses `todo`, and
`got` the bytes that they have read, the last one first. -/
structure Run where
  cmd : Cmd
  body : Nat
  phase : CmdPhase
  code : Nat
  reason : Nat
  result : Nat
  report : Nat
  flags : BitVec 8
  rtag : Tag
  cls : Nat
  counts : List Nat
  leave : Bool
  stage : Nat
  todo : List Work
  got : List Byte
  back : List Work
  deriving DecidableEq, Repr, Inhabited

/-- An engine (R181, R187): its inbox, the senders waiting for room, the command in progress, a held follow-on, and its
status word's counters. -/
structure Eng where
  inbox : List Cmd
  waiting : List Cmd
  run : Option Run
  follow : Option Cmd
  commits : BitVec 16
  fcode : BitVec 16
  fault : Bool
  cls : BitVec 16
  deriving DecidableEq, Repr, Inhabited

/-- An operand latch (R194): M, KB, format and sparse flag, and by row its mantissas, its scales and its metadata, each as
one little-endian value. -/
structure Latch where
  m : Nat
  kb : Nat
  fmt : Nat
  sparse : Bool
  data : SMap Nat
  scales : SMap Nat
  metas : SMap Nat
  deriving DecidableEq, Repr, Inhabited

/-- The state of a region's clusters as a save frame holds it (R323), each key relative to the first cluster; `frame` is the
frame's virtual base and `spOff` the offset of its scratchpad section. -/
structure ClusterData where
  sp : List Host.Cell
  nodes : SMap (List Nat)
  planes : SMap (Nat × Nat × Nat × Nat)
  hold : SMap (List Lane)
  tagtab : SMap (BitVec 63)
  acc : SMap (BitVec 32)
  csrow : SMap (BitVec 32)
  cscol : SMap (BitVec 32)
  active : SMap Nat
  engs : SMap Eng
  latches : SMap (Option Latch)
  carve : Nat
  frame : Nat
  spOff : Nat
  deriving DecidableEq, Repr, Inhabited

/-- A hardware context (R35, R304): its registers, channels, queue, dependency share and triggers, and the graph it
runs.  `failed` is the header and the reply word of the failing command that a node's trap reports (R188; log 110). -/
structure Ctx where
  st : CtxState
  en : Bool
  taken : BitVec 48
  off : Bool
  late : Bool
  bad : Bool
  ovf : Bool
  channel : List (List Word)
  egress : Word
  ecount : Word
  ehead : Word
  save : Word
  hang : Word
  tiles : Word
  trigen : Word
  rngA : SMap Word
  rngB : SMap Word
  nbpA : SMap Word
  nbpB : SMap Word
  sbp : SMap Word
  faultPend : Bool
  faultWr : Bool
  faultIa : Nat
  faultGo : Bool
  queue : List Task
  task : Option Task
  launches : Nat
  triggers : List Nat
  binds : SMap (List Word)
  tbinds : List TbindReq
  flags : BitVec 8
  unmerged : BitVec 8
  ovfp : Word
  seed : Word
  base : Nat
  lsize : Nat
  first : Nat
  cm : SMap Word
  pm : SMap Word
  sys : Word
  windows : SMap (Option (Nat × Nat))
  maskCount : SMap Word
  updLines : SMap Word
  updSpill : SMap Word
  updMerge : SMap Word
  bindings : SMap (Option Binding)
  apply : Option Apply
  spaces : SMap SpaceDesc
  rings : SMap Nat
  slots : SMap Slot
  seq : Seq
  fab : Fabric
  cause : Option DrainCause
  causeCode : Nat
  causeReason : Nat
  causeReport : Word
  later : List (Nat × Nat × Word)
  failed : Option (Nat × Word)
  cookieStop : Option Word
  saved : Option ClusterData
  ending : Option Completion
  outbox : List Completion
  stats : SMap Nat
  deriving DecidableEq, Repr, Inhabited

/-! ## Memory side: sorters, translation, governors -/

/-- A sorter's record (R211): its binding, place, and the key of its pair with the period; `run` is 0 in bin SRAM and
the run's number in the spill area, `err` the bits of it that upsets have flipped (R344). -/
structure Rec where
  ctx : Nat
  handle : Nat
  stack : Nat
  offset : Nat
  value : Nat
  period : Nat
  key : OrdKey
  node : Nat
  lane : Nat
  run : Nat
  current : Bool
  err : Nat
  deriving DecidableEq, Repr, Inhabited

/-- A request for power leave (R206, R218, R368). -/
inductive LeaveReq where
  | press (e : EngRef)
  | sorter (ctx handle stack : Nat)
  deriving DecidableEq, Repr, Inhabited

/-- A die's power governor (R367 to R369): the pool of the installed policy, units held, waiting requests with their cycles of
arrival in the order in which they are granted, the cycle after its last grant, whether the pool is halved or grants are
stopped, and its telemetry counters. -/
structure Gov where
  pool : Nat
  held : Nat
  queue : List (Nat × LeaveReq)
  last : Nat
  halved : Bool
  stopped : Bool
  grants : Nat
  waited : Nat
  throttled : Nat
  temp : Nat
  deriving DecidableEq, Repr, Inhabited

/-- A TLB entry (R335): the level of its leaf, its page's intermediate address, physical address and write permission. -/
structure TlbEntry where
  level : Nat
  ia : Nat
  pa : Nat
  w : Bool
  deriving DecidableEq, Repr, Inhabited

/-- Who waits for a translation (R339): an access of a context, its sequencer, the scheduler on a context's behalf (for the
head of its queue, or for the token at the head of its channel), an engine, a sorter, or matching in the global overflow area
(R28). -/
inductive MissWho where
  | access (ctx id : Nat)
  | seq (ctx : Nat)
  | sched (ctx : Nat) (queued : Bool)
  | eng (e : EngRef)
  | sorter (ctx handle : Nat)
  | spill (ctx : Nat)
  deriving DecidableEq, Repr, Inhabited

/-- A memory-side miss, or a walk that it waits for (R335, R337). -/
structure Miss where
  who : MissWho
  ia : Nat
  wr : Bool
  walking : Bool
  deriving DecidableEq, Repr, Inhabited

/-- A fault token of the walker on its way to the unit that missed (R339). -/
structure FaultTok where
  who : MissWho
  ia : Nat
  wr : Bool
  deriving DecidableEq, Repr, Inhabited

/-- An entry of the ECC and fault log (R345, R365). -/
structure LogEntry where
  unit : Nat
  addr : Nat
  cycle : Nat
  deriving DecidableEq, Repr, Inhabited

/-! ## Host, links, boot and security -/

/-- A posted write that the I/O die holds or has forwarded (R271): its requester, its bytes, and once forwarded the
stacks that have still to acknowledge it. -/
structure HostWr where
  req : BitVec 16
  write : HostWrite
  forwarded : Bool
  acks : List Nat
  deriving DecidableEq, Repr, Inhabited

/-- The completion of a host or peer request (R259, R271, R341, R345). -/
inductive Reply where
  | data (bytes : List Byte)
  | unsupported
  | abort
  deriving DecidableEq, Repr, Inhabited

/-- A posted store to a peer or host window, issued on a die, that has not been acknowledged (R260); `acc` is its access,
`firing` the firing whose store it is, `done` tells whether it has been performed at the remote point of coherence, `foot`
is the footprint of the access, and `src` the memory node or the engine through which it went. -/
structure Posted where
  id : Nat
  ctx : Nat
  die : Nat
  ia : Nat
  bytes : List Byte
  acc : Nat
  firing : Option Nat
  done : Bool
  foot : List Nat
  src : Nat
  deriving DecidableEq, Repr, Inhabited

/-- A Cymas Link port (R351): lnk.ps, whose replays count is kept whole for
telemetry, the consecutive failures of the flit being replayed, and telemetry counts. -/
structure LinkPort where
  replays : Nat
  crc : BitVec 16
  down : Bool
  up : Bool
  lanes : Nat
  fails : Nat
  downs : Nat
  upCycles : Nat
  deriving DecidableEq, Repr, Inhabited

/-- A Token Transport route of an Ethernet port (R353): the retransmissions of its oldest frame, and whether it is
down. -/
structure EthPort where
  retrans : Nat
  down : Bool
  deriving DecidableEq, Repr, Inhabited

/-- A firmware image as it stands in flash (R355): its 256 header bytes and its body. -/
structure FwImage where
  header : List Byte
  body : List Byte
  deriving DecidableEq, Repr, Inhabited

/-- A key slot of the security core (R359). -/
structure KeySlot where
  key : List Byte
  enabled : Bool
  deriving DecidableEq, Repr, Inhabited

/-- Boot state: boot.status, and what non-volatile storage keeps (R356, R357, R369). -/
structure Boot where
  starts : BitVec 16
  fails : Nat
  minimal : Bool
  cause : Nat
  where_ : Nat
  stage : Nat
  tripped : Bool
  trips : Nat
  clearFails : Bool
  deriving DecidableEq, Repr, Inhabited

/-- The security core (R358 to R364): the mailbox, the command in progress with the buffer as it stood when it started, keys,
floors, flash by kind × 2 + copy and the copy written last by kind (1 + copy), installed images by kind, the images whose
installation waits, at bit (kind − 4) × 2 + copy, and the debug lock. -/
structure Sec where
  busy : Bool
  op : Nat
  arg : Nat
  err : Nat
  len : Nat
  ovr : Bool
  buffer : SMap Byte
  taken : SMap Byte
  slots : SMap KeySlot
  claimed : Bool
  counter : Word
  floors : SMap Nat
  flash : SMap (Option FwImage)
  newest : SMap Nat
  installed : SMap (Option FwImage)
  installing : BitVec 8
  nonce : Option (List Byte)
  unlocked : Bool
  serial : BitVec 32
  step : BitVec 8
  deriving DecidableEq, Repr, Inhabited

/-! ## What takes the next step -/

/-- What the next step of the package is: an instruction of a context's sequencer, the operation of a firing, an event,
the passing of cycles, the loader taking a load request for an object, the host or a peer (`place` as kind × 4,096 + peer
package) writing its own memory, a die's TLB dropping its k-th entry (R335, R336; log 24), or a physical upset flipping a
stored bit. -/
inductive Turn where
  | seq (c : Nat)
  | firing (c f : Nat)
  | event (i : Instr)
  | tick (n : Nat)
  | load (ia : Nat) (object : List Byte) (req : LoadReq)
  | outside (place : Nat) (addr : Nat) (bytes : List Byte)
  | tlbDrop (die k : Nat)
  | upset (store : Nat) (key : Nat) (mask : Word)
  deriving DecidableEq, Repr, Inhabited

/-- The context, and for a node operation the firing, that holds the turn. -/
inductive Cur where
  | none
  | seq (c : Nat)
  | firing (c f : Nat)
  deriving DecidableEq, Repr, Inhabited

/-! ## The state -/

/-- The state of the package. -/
structure State where
  cur : Cur
  agenda : List Turn
  turns : Nat
  frees : Nat
  cycles : Nat
  sp : List Host.Cell
  hbm : List Host.Cell
  hostMem : List Host.Cell
  peerMem : List Host.Cell
  arrivals : Nat
  ctxs : SMap Ctx
  records : SMap LoadRecord
  ldrLog : List LdrReport
  idents : Nat
  nodes : SMap (List Nat)
  planes : SMap (Nat × Nat × Nat × Nat)
  active : SMap Nat
  hold : SMap (List Lane)
  tagtab : SMap (BitVec 63)
  carve : SMap Nat
  lastCtx : SMap Nat
  engs : SMap Eng
  latches : SMap (Option Latch)
  acc : SMap (BitVec 32)
  csrow : SMap (BitVec 32)
  cscol : SMap (BitVec 32)
  recs : List Rec
  govs : SMap Gov
  tlb : SMap (List TlbEntry)
  misses : List Miss
  faultToks : List FaultTok
  ptRoot : Word
  ptInval : Word
  invalRange : Nat × Nat
  eccCount : Word
  eccLog : SMap LogEntry
  spErr : SMap Word
  hbmErr : SMap Word
  latchErr : SMap Nat
  tagErr : SMap Nat
  corrected : SMap Nat
  uncorrected : SMap Nat
  scrubs : SMap Nat
  hostWrs : List HostWr
  lastReply : Option Reply
  vectors : BitVec 128
  posted : List Posted
  ports : SMap LinkPort
  eths : SMap EthPort
  wa : SMap Word
  wb : SMap Word
  eaa : SMap Word
  eab : SMap Word
  etype : Word
  fiCtl : Word
  fiSel : Word
  preempt : Bool
  lastPlaced : Nat
  pwin : Bool
  fmask : BitVec 14
  boot : Boot
  sec : Sec
  telGen : Nat
  telCopy : Bool
  deriving DecidableEq, Repr, Inhabited

/-! ## Why a step has no next state -/

/-- The faults of the model. -/
inductive Fault where
  /-- Raised by every sequencer instruction when no running sequencer holds the turn: the term names an instruction of
  no region.  Safe: the machine runs no such step. -/
  | noSequencer
  /-- Raised by every node operation when no firing holds the turn: the term names an operation of no firing.  Safe: the
  machine runs no such step. -/
  | noFiring
  deriving DecidableEq, Repr, Inhabited

/-- The refusals of the model. -/
inductive Refusal where
  /-- An arm of `exec` whose instruction has no meaning yet, by its mnemonic.  Safe: nothing is claimed of it. -/
  | notModelled (mnemonic : String)
  deriving DecidableEq, Repr, Inhabited

/-- The three outcomes of an operation of this machine. -/
abbrev Out := Host.Outcome State Fault Refusal

/-! ## Reset -/

/-- An unused space descriptor (R309). -/
def SpaceDesc.none : SpaceDesc := { kind := .unused, parent := Option.none, home := 0, n := 0 }

/-- A slot that was never granted (R309): generation 0, not live. -/
def Slot.zero : Slot :=
  { live := false, gen := 0, parent := 0, key := { space := 0, ring := 0, ordinal := 0 }, opened := false, ret := .none }

/-- An empty fabric. -/
def Fabric.reset : Fabric :=
  { chan := [], waiting := [], firings := [], nextId := 0, accesses := [], pairs := [], holds := [], allocs := [],
    period := none, cursors := [], rdc := [], replies := [], markers := [], heldMarks := [], passed := [],
    draining := false, stopped := [], bars := [], arrives := [], phases := [], seen := [], joined := [], loads := [],
    loops := [], heldFences := [], idle := 0 }

/-- The sequencer at its launch values (R92), with pc 0. -/
def Seq.reset : Seq :=
  { pc := 0, far := false, ir := none, regs := [], empty := 0, busy := 0, lc := [], lb := [], le := [], lcw := [], plb := [], ple := [], act := 0, cpend := 0,
    wpend := 0, h := false, tvec := 0, epc := 0, cause := 0, tval := 0, long := [], faults := [], phase := .ready,
    counted := false }

/-- A context after reset: Free, disabled, every register 0 but scope.sys, whose bit 4 reads 1 (R246, R304). -/
def Ctx.reset : Ctx :=
  { st := .free, en := false, taken := 0, off := false, late := false, bad := false, ovf := false, channel := [],
    egress := 0, ecount := 0, ehead := 0, save := 0, hang := 0, tiles := 0, trigen := 0, rngA := [], rngB := [],
    nbpA := [], nbpB := [], sbp := [], faultPend := false, faultWr := false, faultIa := 0, faultGo := false,
    queue := [], task := none, launches := 0, triggers := [], binds := [], tbinds := [], flags := 0, unmerged := 0, ovfp := 0,
    seed := 0, base := 0, lsize := 0, first := 0, cm := [], pm := [], sys := 0x10, windows := [], maskCount := [],
    updLines := [], updSpill := [], updMerge := [], bindings := [], apply := none, spaces := [], rings := [],
    slots := [], seq := Seq.reset, fab := Fabric.reset, cause := none, causeCode := 0, causeReason := 0,
    causeReport := 0, later := [], failed := none, cookieStop := none, saved := none, ending := none, outbox := [], stats := [] }

/-- An entry of the log that no event has written. -/
def LogEntry.none : LogEntry := { unit := 0, addr := 0, cycle := 0 }

/-- An idle engine with its status word at reset (R187). -/
def Eng.reset : Eng :=
  { inbox := [], waiting := [], run := none, follow := none, commits := 0, fcode := 0, fault := false, cls := 0 }

/-- A governor after reset: the published pool of 136 units (R367), nothing held. -/
def Gov.reset : Gov :=
  { pool := 136, held := 0, queue := [], last := 0, halved := false, stopped := false, grants := 0, waited := 0, throttled := 0,
    temp := 0 }

/-- A link port after reset: not trained (R351). -/
def LinkPort.reset : LinkPort :=
  { replays := 0, crc := 0, down := false, up := false, lanes := 0, fails := 0, downs := 0, upCycles := 0 }

/-- An Ethernet port after reset (R353). -/
def EthPort.reset : EthPort := { retrans := 0, down := false }

/-- A key slot that holds no key and is not enabled. -/
def KeySlot.none : KeySlot := { key := [], enabled := false }

/-- Boot state after reset: stage 0 and nothing counted (R357). -/
def Boot.reset : Boot :=
  { starts := 0, fails := 0, minimal := false, cause := 0, where_ := 0, stage := 0, tripped := false, trips := 0,
    clearFails := false }

/-- The security core after reset: no command, locked, never claimed, slot 0 enabled with Wilgiant's key (R359). -/
def Sec.reset : Sec :=
  { busy := false, op := 0, arg := 0, err := 0, len := 0, ovr := false, buffer := [], taken := [],
    slots := [(0, { key := [], enabled := true })], claimed := false, counter := 0, floors := [], flash := [], newest := [],
    installed := [], installing := 0, nonce := none, unlocked := false, serial := 0, step := 0 }

/-- The default carve-out of a cluster's overflow store: 1 MiB (R27). -/
def carveDefault : Nat := 0x100000

/-- The package right after reset: boot stage 0, every context Free, every store unwritten, lnk.etype at 0x88B5 (R365),
sched.policy.preempt at 1 (R365). -/
def State.reset : State :=
  { cur := .none, agenda := [], turns := 0, frees := 0, cycles := 0, sp := [], hbm := [], hostMem := [], peerMem := [], arrivals := 0,
    ctxs := [],
    records := [], ldrLog := [], idents := 0, nodes := [], planes := [], active := [], hold := [], tagtab := [], carve := [], lastCtx := [],
    engs := [], latches := [], acc := [], csrow := [], cscol := [], recs := [], govs := [], tlb := [],
    misses := [], faultToks := [], ptRoot := 0, ptInval := 0, invalRange := (0, 0), eccCount := 0, eccLog := [], spErr := [],
    hbmErr := [], latchErr := [], tagErr := [], corrected := [], uncorrected := [], scrubs := [],
    hostWrs := [], lastReply := none, vectors := 0, posted := [], ports := [], eths := [], wa := [], wb := [], eaa := [],
    eab := [], etype := 0x88B5, fiCtl := 0, fiSel := 0, preempt := true, lastPlaced := 63,
    pwin := false, fmask := 0, boot := Boot.reset, sec := Sec.reset, telGen := 0, telCopy := false }

end Sys2Proof.Machine
end

