-- ==== Sys2Proof/Config.lean ====
section
/-! DEFINITION. What the spec leaves open: constants without a body, so that no proof can know their values.  Those of
type `Nat → …` are applied to a counter of State that the step advances, and give a fresh value each time. -/

namespace Sys2Proof.Config

open Sys2Proof Sys2Proof.Machine

/-- The next turn when the agenda is empty: which agent, event or outside input acts next is not fixed (R242, R250; log
1). -/
opaque turn : Nat → Turn

/-- The PE that a route reaches from a PE by its hops: the manual does not place the PEs on the chequerboard (R78; log
7). -/
opaque hopPe : Nat → List (Nat × Nat) → Nat

/-- Whether a deliver that names a port which is both a data port and a scale port of its node lies on a scale route: the words
of the emitting node and the deliver's number among its delivers; no bit of them says so (R78, R79, R140; log 12). -/
opaque scaleRoute : List Nat → Nat → Bool

/-- Which of the planes whose named slot holds a node is the plane of a destination's virtual tile: the image, the emitting
node, the destination's cluster, PE and slot and the number of the leaf give it; no word of an image says so (R19, R78, R287;
log 107). -/
opaque destPlane : List Nat → Nat

/-- One less than the tokens that the queue of a branch of a route holds: the spec gives queues a size and no figure of it
(R37, R325; log 106). -/
opaque queueExtra : Nat

/-- Whether a peer refuses a window read of an engine, a sequencer, the scheduler or a window operand (R352; log 70). -/
opaque peerFault : Nat → Bool

/-- A byte of SHAKE256 of a message (R355; log 8). -/
opaque shakeByte : List Byte → Nat → Byte

/-- SHAKE256 with a 64-byte output (R355, R362). -/
def shake256 (m : List Byte) : List Byte := (List.range 64).map (shakeByte m)

/-- Whether an Ed448 signature verifies: key, message, signature (R355; log 8). -/
opaque verifies : List Byte → List Byte → List Byte → Bool

/-- A byte of the Ed448 signature of a message under the device identity key (R364; log 8). -/
opaque signByte : List Byte → Nat → Byte

/-- The 114-byte Ed448 signature of a message under the device identity key (R355, R362, R364). -/
def identitySign (m : List Byte) : List Byte := (List.range 114).map (signByte m)

/-- The identity public key, followed by Wilgiant's certificate of it (R364; log 8). -/
opaque identityKey : List Byte

/-- A byte of Wilgiant's public key (R359; log 8). -/
opaque wilgiantKeyByte : Nat → Byte

/-- Wilgiant's 57-byte public key, which slot 0 holds (R359). -/
def wilgiantKey : List Byte := (List.range 57).map wilgiantKeyByte

/-- What an ECC trap of a unit other than an addressed word reports: the trap code and the numbers that name the unit give
the word, whose layout R342 does not state (log 22). -/
opaque eccReport : Nat → List Nat → Word

/-- A byte of a fresh nonce of the security core (R362; log 4). -/
opaque nonceByte : Nat → Nat → Byte

/-- A fresh 32-byte nonce of the security core (R358, R362). -/
def nonce (n : Nat) : List Byte := (List.range 32).map (nonceByte n)

/-- The cause of a failure that a start meets outside image validation (R357 causes 4 to 6), 0 for none, and the die
(log 4). -/
opaque startFault : Nat → Nat × Nat

/-- The leave pool of an installed scheduler-policy image (R367; log 4). -/
opaque policyPool : FwImage → Nat

/-- sched.policy.preempt as an installed scheduler-policy image writes it (R365; log 4). -/
opaque policyPreempt : FwImage → Bool

/-- The declarations of a pload or nload section, whose layout is not stated (R280, R293; log 102): the fold, the count of
each tile, none for auto, and the byte at which the nodes begin. -/
opaque fabricDecl : List Byte → Nat × List (Option Nat) × Nat

/-- The nodes of an nload section, whose layout is not stated (R280; log 102). -/
opaque nativeNodes : List Byte → List SrcNode

/-- The spaces of a spaces section, whose layout is not stated (R280; log 102). -/
opaque spaceTable : List Byte → List SpaceDesc

/-- The entries of a scopes section, whose layout is not stated: number, cluster mask, PE mask (R91, R280; log 102). -/
opaque scopeTable : List Byte → List (Nat × Word × Word)

/-- The declared sizes of the eight windows in a windows section, whose layout is not stated, and the byte at which its
relocations begin (R280, R302; log 102). -/
opaque windowTable : List Byte → List (Option Nat) × Nat

/-- Where the loader looks first for a place of a node: object, request, fabric load and node give a PE and a slot (R287, R293;
log 103). -/
opaque placement : List Byte → LoadReq → Nat → Nat → Nat × Nat

/-- The switch half words that the loader gives a placed node: object, request, fabric load and node (R289, R293; log 103). -/
opaque nodeRoute : List Byte → LoadReq → Nat → Nat → List Nat

/-- Whether a constant of a node stands for its copy number (false) or its number of copies (true): object, fabric load, graph
node and constant; how a section says so is not stated (R288; log 102). -/
opaque copyConst : List Byte → Nat → Nat → Nat → Option Bool

/-- The 64-byte line at whose virtual address the loader puts a configuration image (R285, R290, R302; log 103). -/
opaque imageAt : List Byte → LoadReq → Nat → Nat

/-- The line of the same image in the intermediate space (R285, R290; log 103). -/
opaque imageIa : List Byte → LoadReq → Nat → Nat

/-- The identity word from which the loader counts on, one for each image (R290; log 103). -/
opaque identBase : Nat

/-- The virtual address at which the loader puts a data section (R302; log 103). -/
opaque dataAt : List Byte → LoadReq → Nat → Nat

/-- The two words of an entry of the ECC and fault log as the host reads them: the layout is not stated (R365; log 22). -/
opaque logWord : LogEntry → Nat → Word

/-- Offsets and sizes of the sections of a save frame (R323; log 6). -/
opaque sectionWord : Nat → Word

/-- Die power in watts, as a telemetry record holds it (R371; log 4). -/
opaque watts : Nat → Nat

/-- A value that an operation leaves and the manual does not state (log 4). -/
opaque unstated : Nat → Word

end Sys2Proof.Config
end

