-- ==== Sys2Proof/Machine/Ops.lean ====
section
/-! DEFINITION. The named operations that the meanings share: access to the parts of the state, bytes of the stores with
their SECDED check (R344), scratchpad addresses (R93, R318), range registers (R332), sequencer registers (R61), taking a
trap and ending or draining a graph (R95, R310, R326), and the issue and retirement of a sequencer instruction (R61, R96,
R102, R110). -/

namespace Sys2Proof.Machine

open Sys2Proof

/-! ## Parts of the state -/

/-- A context. -/
def State.ctx (s : State) (c : Nat) : Ctx := smGet Ctx.reset s.ctxs c

/-- Replaces a context. -/
def State.setCtx (s : State) (c : Nat) (x : Ctx) : State := { s with ctxs := smSet Ctx.reset s.ctxs c x }

/-- Changes a context. -/
def State.modCtx (s : State) (c : Nat) (f : Ctx → Ctx) : State := s.setCtx c (f (s.ctx c))

/-- The sequencer of a context. -/
def State.seq (s : State) (c : Nat) : Seq := (s.ctx c).seq

/-- Changes the sequencer of a context. -/
def State.modSeq (s : State) (c : Nat) (f : Seq → Seq) : State := s.modCtx c fun x => { x with seq := f x.seq }

/-- The fabric of a context. -/
def State.fab (s : State) (c : Nat) : Fabric := (s.ctx c).fab

/-- Changes the fabric of a context. -/
def State.modFab (s : State) (c : Nat) (f : Fabric → Fabric) : State := s.modCtx c fun x => { x with fab := f x.fab }

/-- The key of an engine in the store of engines. -/
def engKey (e : EngRef) : Nat := (e.cluster.val * 4 + e.cls.code) * 16 + e.unit.val

/-- An engine. -/
def State.eng (s : State) (e : EngRef) : Eng := smGet Eng.reset s.engs (engKey e)

/-- Replaces an engine. -/
def State.setEng (s : State) (e : EngRef) (x : Eng) : State := { s with engs := smSet Eng.reset s.engs (engKey e) x }

/-- A die's power governor. -/
def State.gov (s : State) (d : Nat) : Gov := smGet Gov.reset s.govs d

/-- Replaces a die's power governor. -/
def State.setGov (s : State) (d : Nat) (g : Gov) : State := { s with govs := smSet Gov.reset s.govs d g }

/-- The number of clusters of a context's region. -/
def Ctx.size (x : Ctx) : Nat := 2 ^ x.lsize

/-- Whether a context holds a launched graph (R310). -/
def Ctx.launched (x : Ctx) : Bool :=
  match x.st with
  | .running | .draining | .suspended | .retiring => true
  | .queued => x.saved.isSome
  | .free | .idle => false

/-- Whether any context holds a launched graph (R335, R352, R361, R363). -/
def State.anyLaunched (s : State) : Bool := s.ctxs.any fun p => p.2.launched

/-- Whether the blocks other than the device and security blocks take writes: not in minimal mode, nor while a trip holds
the device in reset (R357, R369). -/
def State.blocksOn (s : State) : Bool := !s.boot.minimal && !s.boot.tripped

/-- The data bytes of a posted write. -/
def HostWr.size (w : HostWr) : Nat :=
  match w.write with
  | .memory _ b | .physical _ b => b.length
  | .ingress _ _ => 64

/-- The posted-write data that the I/O die holds at most, forwarded or waiting to be (R272). -/
def postedLimit : Nat := 524288

/-- The posted-write data that the I/O die holds: forwarded, or waiting to be. -/
def State.postedBytes (s : State) (fwd : Bool) : Nat :=
  ((s.hostWrs.filter fun w => decide (w.forwarded = fwd)).map HostWr.size).sum

/-- Whether the link has posted credits for `n` more bytes (R272). -/
def State.credit (s : State) (n : Nat) : Bool :=
  decide (s.postedBytes false + n ≤ postedLimit ∧ s.postedBytes true < postedLimit)

/-- Whether the link has posted credits for the write of a register, which is a posted write of 8 bytes (R269, R272). -/
def State.regCredit (s : State) : Bool := s.credit 8

/-- Whether a posted memory write of a requester is still unacknowledged (R271). -/
def State.hostBusy (s : State) (req : BitVec 16) : Bool := s.hostWrs.any fun w => decide (w.req = req) &&
  match w.write with
  | .memory _ _ | .physical _ _ => true
  | .ingress _ _ => false

/-- The tokens of a context's channel that the I/O die does not deliver yet (R259, R306): the last ones of the channel. -/
def State.heldTokens (s : State) (c : Nat) : Nat := (s.hostWrs.filter fun w =>
  match w.write with
  | .ingress d _ => decide (d.val = c)
  | .memory _ _ | .physical _ _ => false).length

/-- Whether a context's region executes: it runs or drains (R310). -/
def Ctx.live (x : Ctx) : Bool :=
  match x.st with
  | .running | .draining => true
  | .free | .idle | .queued | .suspended | .retiring => false

/-- Whether a restored region has still to replay the accesses that its memory nodes held: it resumes after them (R255,
R339). -/
def Ctx.replays (x : Ctx) : Bool := decide (x.st = .running) && x.fab.accesses.any (·.replay)

/-- Whether a firing waits at a fence or a release for earlier accesses; an arrive that waits for its previous phase has none to
wait for. -/
def Phase.fences (p : Phase) : Bool := match p with | .waitFence (_ :: _) => true | _ => false

/-- Whether fences that a save has caught still wait (R255, R339). -/
def Fabric.fencing (f : Fabric) : Bool := f.heldFences.any fun k => match k with
  | none => true
  | some id => f.firings.any fun g => decide (g.id = id) && g.phase.fences

/-- Whether a restored region has not resumed: accesses are to be replayed, or fences behind them to complete (R255, R339). -/
def Ctx.resuming (x : Ctx) : Bool := x.replays || (decide (x.st = .running) && x.fab.fencing)

/-- Whether a restored region lets the sequencer, or a firing, go on: it has resumed, or the fence is one that it caught. -/
def Ctx.goesOn (x : Ctx) (k : Option Nat) : Bool := !x.resuming || (!x.replays && x.fab.heldFences.contains k)

/-- Whether an access, a pair or a fence waits for an access or a pair. -/
def Fabric.awaited (f : Fabric) (id : Nat) : Bool :=
  f.accesses.any (fun a => a.deps.any fun d => decide (d.id = id)) || f.pairs.any (fun p => p.deps.any fun d => decide (d.id = id)) ||
    f.firings.any fun g => match g.phase with
      | .waitFence ds => ds.any fun d => decide (d.id = id)
      | _ => false

/-- A fresh free value (log 4). -/
def State.fresh (s : State) : Word × State := (Config.unstated s.frees, { s with frees := s.frees + 1 })

/-- Adds flags to a context's sticky flag word (R52, R53). -/
def State.mergeFlags (s : State) (c : Nat) (f : Flags) : State := s.modCtx c fun x => { x with flags := x.flags ||| f }

/-- Raises flags at a firing or a sequencer instruction (R53): within a configuration period they are merged at some
later instant of it, outside one at once. -/
def State.raiseFlags (s : State) (c : Nat) (f : Flags) : State := s.modCtx c fun x =>
  if x.fab.period.isSome then { x with unmerged := x.unmerged ||| f } else { x with flags := x.flags ||| f }

/-- The events that an access to the flag word finds merged (R53): a subset of those of the period, which is free. -/
def settleFlags (c : Nat) (s : State) : State :=
  if (s.ctx c).unmerged = 0 then s
  else
    let a := s.fresh
    let b := a.2.fresh
    b.2.modCtx c fun x =>
      { x with flags := x.flags ||| (x.unmerged &&& a.1.setWidth 8),
               unmerged := x.unmerged &&& ~~~(a.1.setWidth 8 &&& b.1.setWidth 8) }

/-- Every event of the period is merged (R53). -/
def Ctx.mergeAll (x : Ctx) : Ctx := { x with flags := x.flags ||| x.unmerged, unmerged := 0 }

/-- Adds `n` to a counter of a store of counters. -/
def bump (m : SMap Nat) (k n : Nat) : SMap Nat := smSet 0 m k (smGet 0 m k + n)

/-- The telemetry counters that a context keeps (R371): spill bytes, merge passes, lines applied; tiles full, partial and
empty, skipped bytes; press commands with cks; hang maps written, pre-emptions; operands spilled to overflow stores and to
the global area. -/
def statSpill : Nat := 0
@[inherit_doc statSpill] def statMerge : Nat := 1
@[inherit_doc statSpill] def statLines : Nat := 2
@[inherit_doc statSpill] def statTiles : Nat := 3
@[inherit_doc statSpill] def statCks : Nat := 7
@[inherit_doc statSpill] def statHang : Nat := 8
@[inherit_doc statSpill] def statPreempt : Nat := 9
@[inherit_doc statSpill] def statStore : Nat := 10
@[inherit_doc statSpill] def statArea : Nat := 11

/-- Adds `n` to a telemetry counter of a context (R371). -/
def Ctx.count (x : Ctx) (i n : Nat) : Ctx := { x with stats := bump x.stats i n }

/-! ## Bytes -/

/-- `n` bytes at an address, little-endian (R5). -/
def rdBytes (m : SMap Byte) (a : Nat) : Nat → Nat
  | 0 => 0
  | n + 1 => (smGet 0 m a).toNat + 256 * rdBytes m (a + 1) n

/-- Writes the low `n` bytes of a value at an address, little-endian (R5). -/
def wrBytes (m : SMap Byte) (a v : Nat) : Nat → SMap Byte
  | 0 => m
  | n + 1 => wrBytes (smSet 0 m a (BitVec.ofNat 8 v)) (a + 1) (v / 256) n

/-- The low `n` bytes of a value, lowest first. -/
def toBytes (v : Nat) : Nat → List Byte
  | 0 => []
  | n + 1 => BitVec.ofNat 8 v :: toBytes (v / 256) n

/-- A list of bytes, lowest first, as a value. -/
def ofBytes : List Byte → Nat
  | [] => 0
  | b :: t => b.toNat + 256 * ofBytes t

/-! ## SECDED (R344) -/

/-- A protected store under a check: its bytes, the bits of its words that differ from their check bits, and the byte
addresses of the words corrected and of those found uncorrectable, in the order of the check. -/
structure Ecc where
  m : SMap Byte
  errs : SMap Word
  fixed : List Nat
  bad : List Nat
  deriving DecidableEq, Repr, Inhabited

/-- The number of one bits of a word. -/
def popWord (w : Word) : Nat := ((List.range 64).filter fun i => w.getLsbD i).length

/-- The check of one 8-byte word: a single-bit error is corrected and written back, any other is uncorrectable (R344). -/
def Ecc.word (e : Ecc) (w : Nat) : Ecc :=
  let k := smGet 0 e.errs w
  if k = 0 then e
  else if popWord k = 1 then
    { e with
      m := wrBytes e.m (8 * w) (rdBytes e.m (8 * w) 8 ^^^ k.toNat) 8, errs := smSet 0 e.errs w 0,
      fixed := e.fixed ++ [8 * w] }
  else { e with bad := e.bad ++ [8 * w] }

/-- The words that `n` bytes at `a` touch. -/
def wordsOf (a n : Nat) : List Nat := if n = 0 then [] else (List.range ((a + n - 1) / 8 - a / 8 + 1)).map (· + a / 8)

/-- The check of a read of `n` bytes at `a`. -/
def eccRead (m : SMap Byte) (errs : SMap Word) (a n : Nat) : Ecc :=
  match errs with
  | [] => { m := m, errs := errs, fixed := [], bad := [] }
  | _ :: _ => (wordsOf a n).foldl Ecc.word { m := m, errs := errs, fixed := [], bad := [] }

/-- The check of a write of `n` bytes at `a`: a word it covers whole is replaced, any other is read first (R344). -/
def eccWrite (m : SMap Byte) (errs : SMap Word) (a n : Nat) : Ecc :=
  match errs with
  | [] => { m := m, errs := errs, fixed := [], bad := [] }
  | _ :: _ => (wordsOf a n).foldl
      (fun e w => if a ≤ 8 * w ∧ 8 * w + 8 ≤ a + n then { e with errs := smSet 0 e.errs w 0 } else e.word w)
      { m := m, errs := errs, fixed := [], bad := [] }

/-- The result of a store access: the state, the value read, and an uncorrectable word's address. -/
structure MemRes where
  s : State
  val : Nat
  bad : Option Nat
  deriving DecidableEq, Repr, Inhabited

/-- Counts words corrected and words found uncorrectable on a die (R345, R371). -/
def State.countEcc (s : State) (die fixed bad : Nat) : State :=
  if fixed = 0 ∧ bad = 0 then s
  else { s with corrected := bump s.corrected die fixed, uncorrected := bump s.uncorrected die bad }

/-- Counts words corrected and words found uncorrectable, each on its own die (R371). -/
def State.countWords (s : State) (die : Nat → Nat) (fixed bad : List Nat) : State :=
  bad.foldl (fun s w => s.countEcc (die w) 0 1) (fixed.foldl (fun s w => s.countEcc (die w) 1 0) s)

/-- Counts what a check of a store has found (R371). -/
def State.countCheck (s : State) (die : Nat → Nat) (e : Ecc) : State := s.countWords die e.fixed e.bad

/-- The die of a physical scratchpad byte. -/
def spDie (a : Nat) : Nat := a / 2 ^ 27

/-- Reads `n` scratchpad bytes at a physical address. -/
def spRead (a n : Nat) (s : State) : MemRes :=
  let e := eccRead s.sp s.spErr a n
  { s := { s with sp := e.m, spErr := e.errs }.countCheck spDie e, val := rdBytes e.m a n, bad := e.bad.head? }

/-- Writes `n` scratchpad bytes at a physical address; an uncorrectable word that the write does not cover stops it. -/
def spWrite (a n v : Nat) (s : State) : MemRes :=
  let e := eccWrite s.sp s.spErr a n
  { s := { s with sp := if e.bad ≠ [] then e.m else wrBytes e.m a v n, spErr := e.errs }.countCheck spDie e,
    val := 0, bad := e.bad.head? }

/-- The home stack of an intermediate or physical address (R241, R333). -/
def stackOf (a : Nat) : Nat := a / 2 ^ 11 % 16

/-- The die of an address's home stack (R241). -/
def dieOf (a : Nat) : Nat := stackOf a % 8

/-- Reads `n` HBM bytes at a physical address. -/
def hbmRead (a n : Nat) (s : State) : MemRes :=
  let e := eccRead s.hbm s.hbmErr a n
  { s := { s with hbm := e.m, hbmErr := e.errs }.countCheck dieOf e, val := rdBytes e.m a n, bad := e.bad.head? }

/-- Writes `n` HBM bytes at a physical address. -/
def hbmWrite (a n v : Nat) (s : State) : MemRes :=
  let e := eccWrite s.hbm s.hbmErr a n
  { s := { s with hbm := if e.bad ≠ [] then e.m else wrBytes e.m a v n, hbmErr := e.errs }.countCheck dieOf e,
    val := 0, bad := e.bad.head? }

/-! ## Scratchpad addresses (R93, R318) -/

/-- A nominal cluster relocated to the clusters that the region occupies (R318). -/
def Ctx.reloc (x : Ctx) (cl : Nat) : Nat :=
  if x.base ≤ cl ∧ cl < x.base + x.size then x.first + (cl - x.base) else cl

/-- Whether a nominal cluster lies in the nominal region. -/
def Ctx.inNominal (x : Ctx) (cl : Nat) : Bool := decide (x.base ≤ cl ∧ cl < x.base + x.size)

/-- Whether a physical cluster lies in the block that the region occupies. -/
def Ctx.inBlock (x : Ctx) (cl : Nat) : Bool := decide (x.first ≤ cl ∧ cl < x.first + x.size)

/-- A scratchpad address with its cluster field relocated (R318). -/
def Ctx.spAddr (x : Ctx) (a : Nat) : Nat := x.reloc (a / 2 ^ 24) * 2 ^ 24 + a % 2 ^ 24

/-- The size of a cluster's overflow-store carve-out in bytes (R27). -/
def State.carveOf (s : State) (cl : Nat) : Nat := smGet carveDefault s.carve cl

/-- Whether a physical scratchpad byte lies in its cluster's carve-out (R27). -/
def State.carved (s : State) (p : Nat) : Bool := decide (2 ^ 24 ≤ p % 2 ^ 24 + s.carveOf (p / 2 ^ 24))

/-- Why an access is refused: the trap's code and report. -/
structure Bad where
  code : Nat
  report : Nat
  deriving DecidableEq, Repr, Inhabited

/-! ## Trap codes (R9, R95, R180, R328, R342) -/

/-- Trap codes by name. -/
def trapTagNest : Nat := 0x0101
@[inherit_doc trapTagNest] def trapTagStale : Nat := 0x0102
@[inherit_doc trapTagNest] def trapTagDup : Nat := 0x0103
@[inherit_doc trapTagNest] def trapTagDeep : Nat := 0x0104
@[inherit_doc trapTagNest] def trapTagKind : Nat := 0x0105
@[inherit_doc trapTagNest] def trapMemAlign : Nat := 0x0201
@[inherit_doc trapTagNest] def trapMemRange : Nat := 0x0202
@[inherit_doc trapTagNest] def trapMemPerm : Nat := 0x0203
@[inherit_doc trapTagNest] def trapMemUpdst : Nat := 0x0204
@[inherit_doc trapTagNest] def trapMemUbind : Nat := 0x0205
@[inherit_doc trapTagNest] def trapMemBody : Nat := 0x0206
@[inherit_doc trapTagNest] def trapMemNomap : Nat := 0x0207
@[inherit_doc trapTagNest] def trapMemPage : Nat := 0x0208
@[inherit_doc trapTagNest] def trapMemWalk : Nat := 0x0209
@[inherit_doc trapTagNest] def trapSeqEmpty : Nat := 0x0301
@[inherit_doc trapTagNest] def trapSeqTrap : Nat := 0x0302
@[inherit_doc trapTagNest] def trapSeqLoop : Nat := 0x0303
@[inherit_doc trapTagNest] def trapSeqPc : Nat := 0x0304
@[inherit_doc trapTagNest] def trapSeqPlane : Nat := 0x0305
@[inherit_doc trapTagNest] def trapSeqTret : Nat := 0x0306
@[inherit_doc trapTagNest] def trapSeqDouble : Nat := 0x0307
@[inherit_doc trapTagNest] def trapSeqBrk : Nat := 0x0308
@[inherit_doc trapTagNest] def trapOpIll : Nat := 0x0401
@[inherit_doc trapTagNest] def trapOpScale : Nat := 0x0402
@[inherit_doc trapTagNest] def trapOpTrap : Nat := 0x0403
@[inherit_doc trapTagNest] def trapOpBrk : Nat := 0x0404
@[inherit_doc trapTagNest] def trapWinUnbound : Nat := 0x0501
@[inherit_doc trapTagNest] def trapSchedHang : Nat := 0x0801
@[inherit_doc trapTagNest] def trapSchedTrigovf : Nat := 0x0802
@[inherit_doc trapTagNest] def trapSchedBind : Nat := 0x0803
@[inherit_doc trapTagNest] def trapSchedToken : Nat := 0x0804
@[inherit_doc trapTagNest] def trapSchedKill : Nat := 0x0805
@[inherit_doc trapTagNest] def trapSchedSave : Nat := 0x0806
@[inherit_doc trapTagNest] def trapLinkPosted : Nat := 0x0901
@[inherit_doc trapTagNest] def trapLinkDown : Nat := 0x0902
@[inherit_doc trapTagNest] def trapLinkRemote : Nat := 0x0903
@[inherit_doc trapTagNest] def trapEccSp : Nat := 0x0B01
@[inherit_doc trapTagNest] def trapEccMt : Nat := 0x0B02
@[inherit_doc trapTagNest] def trapEccHbm : Nat := 0x0B03
@[inherit_doc trapTagNest] def trapEccSort : Nat := 0x0B04
@[inherit_doc trapTagNest] def trapEccLatch : Nat := 0x0B05

/-- How a trap that suspends drains the context (R10, R95, R180, R342): a debug freeze for the breakpoints, cause trap
for SEQ.EMPTY, SEQ.TRAP, TAG.DEEP and OP.TRAP; nothing for a trap that retires. -/
def suspendCause (code : Nat) : Option DrainCause :=
  if code = trapSeqBrk ∨ code = trapOpBrk then some .freeze
  else if code = trapSeqEmpty ∨ code = trapSeqTrap ∨ code = trapTagDeep ∨ code = trapOpTrap then some .trap
  else none

/-- The checks of R115 and R166 on a scratchpad address of `n` bytes: 2^30 or more is MEM.RANGE, a misaligned one
MEM.ALIGN, one in any cluster's carve-out MEM.PERM. -/
def spCheck (s : State) (x : Ctx) (a n align : Nat) : Except Bad Nat :=
  if 2 ^ 30 ≤ a then .error { code := trapMemRange, report := a }
  else if a % align ≠ 0 then .error { code := trapMemAlign, report := a }
  else if s.carved (x.spAddr a + n - 1) ∨ s.carved (x.spAddr a) then .error { code := trapMemPerm, report := a }
  else .ok (x.spAddr a)

/-! ## Range registers (R330 to R332) -/

/-- Whether range register `j` is in force and covers a 64 KiB unit. -/
def Ctx.rangeCovers (x : Ctx) (u j : Nat) : Bool :=
  let a := (smGet 0 x.rngA j).toNat
  let b := (smGet 0 x.rngB j).toNat
  bit b 34 && decide (a % 2 ^ 32 ≤ u) && decide (u ≤ a / 2 ^ 32)

/-- A virtual address translated through the range registers, for a read, a write or both (R330, R332). -/
def Ctx.toIa (x : Ctx) (rd wr : Bool) (va : Nat) : Except Bad Nat :=
  if 2 ^ 48 ≤ va then .error { code := trapMemRange, report := va }
  else
    let u := va / 2 ^ 16
    match (List.range 16).find? (x.rangeCovers u) with
    | none => .error { code := trapMemNomap, report := va }
    | some j =>
      let a := (smGet 0 x.rngA j).toNat
      let b := (smGet 0 x.rngB j).toNat
      if (rd && !bit b 32) || (wr && !bit b 33) then .error { code := trapMemPerm, report := va }
      else
        let ia := (u - a % 2 ^ 32 + b % 2 ^ 32) * 2 ^ 16 + va % 2 ^ 16
        if 2 ^ 47 ≤ ia then .error { code := trapMemRange, report := va } else .ok ia

/-- Whether a virtual byte lies in the context's global overflow area (R28, R239). -/
def Ctx.inOverflow (x : Ctx) (va : Nat) : Bool :=
  let w := x.ovfp.toNat
  decide (bits w 47 16 * 2 ^ 16 ≤ va) && decide (va < (bits w 47 16 + bits w 15 4) * 2 ^ 16)

/-! ## Sequencer registers (R61, R92) -/

/-- The value of a register; s0 reads 0. -/
def Seq.rd (q : Seq) (r : SReg) : Word := if r = 0 then 0 else smGet 0 q.regs r.val

/-- Whether a register is empty; s0 is always full. -/
def Seq.isEmpty (q : Seq) (r : SReg) : Bool := decide (r ≠ 0) && q.empty.getLsbD r.val

/-- Whether a register is readable and its earlier result is ready (R61, R96). -/
def Seq.ready (q : Seq) (r : SReg) : Bool := decide (r = 0) || !(q.empty.getLsbD r.val || q.busy.getLsbD r.val)

/-- Writes a register; a write to s0 is discarded. -/
def Seq.wr (q : Seq) (r : SReg) (v : Word) : Seq :=
  if r = 0 then q else { q with regs := smSet 0 q.regs r.val v }

/-- A bit of a 32-bit word set or cleared. -/
def setBit32 (w : BitVec 32) (i : Nat) (b : Bool) : BitVec 32 :=
  if b then w ||| BitVec.ofNat 32 (2 ^ i) else w &&& ~~~ BitVec.ofNat 32 (2 ^ i)

/-- A bit of a 4-bit word set or cleared. -/
def setBit4 (w : BitVec 4) (i : Nat) (b : Bool) : BitVec 4 :=
  if b then w ||| BitVec.ofNat 4 (2 ^ i) else w &&& ~~~ BitVec.ofNat 4 (2 ^ i)

/-- Marks a register empty, for a long-latency producer; s0 stays full (R61). -/
def Seq.markEmpty (q : Seq) (r : SReg) : Seq := if r = 0 then q else { q with empty := setBit32 q.empty r.val true }

/-- Marks a register busy until its ld from the region returns (R96). -/
def Seq.markBusy (q : Seq) (r : SReg) : Seq := if r = 0 then q else { q with busy := setBit32 q.busy r.val true }

/-- The pending write of a producer reaches its register and marks it full (R61). -/
def Seq.land (q : Seq) (r : Nat) (v : Word) : Seq :=
  if r = 0 then q
  else
    { q with
      regs := smSet 0 q.regs r v, empty := setBit32 q.empty r false, busy := setBit32 q.busy r false }

/-! ## Completion tokens (R326, R327) -/

/-- The eight doublewords of a completion token (R327). -/
def Completion.words (t : Completion) : List Word :=
  [BitVec.ofNat 64 (t.kind % 2 ^ 8 + t.code % 2 ^ 16 * 2 ^ 16 + t.reason % 2 ^ 16 * 2 ^ 32), t.value, t.flags, t.report, 0,
    t.extra, t.cookie, BitVec.ofNat 64 t.seqno]

/-- Writes a list of doublewords at an address. -/
def wrWords (m : SMap Byte) (a : Nat) : List Word → SMap Byte
  | [] => m
  | w :: t => wrWords (wrBytes m a w.toNat 8) (a + 8) t

/-- Whether the egress ring has room (R326). -/
def Ctx.egressRoom (x : Ctx) : Bool := decide ((x.ecount - x.ehead).toNat < 64)

/-- Writes a completion token into the egress ring at entry ecount mod 64 and signals the vector (R304, R326). -/
def egressWrite (c : Nat) (t : Completion) (s : State) : State :=
  let x := s.ctx c
  let base := x.egress.toNat / 2 ^ 12 * 2 ^ 12
  let s := { s with
    hostMem := wrWords s.hostMem (base + 64 * (x.ecount.toNat % 64)) t.words,
    vectors := if bit x.egress.toNat 0 then s.vectors ||| BitVec.ofNat 128 (2 ^ c) else s.vectors }
  s.modCtx c fun x => { x with ecount := x.ecount + 1 }

/-- Sends a completion token: written at once when the ring has room and no earlier token waits, else it waits behind
the earlier ones (R326; log 11). -/
def egressSend (c : Nat) (t : Completion) (s : State) : State :=
  if (s.ctx c).outbox = [] ∧ (s.ctx c).egressRoom then egressWrite c t s
  else s.modCtx c fun x => { x with outbox := x.outbox ++ [t] }

/-- A kind 2 token that names no task (R308, R328): it carries seqno 0 (log 11). -/
def refuse (c code reason : Nat) (report cookie : Word) (s : State) : State :=
  egressSend c { kind := 2, code := code, reason := reason, value := 0, flags := (s.ctx c).flags.setWidth 64,
                 report := report, extra := 0, cookie := cookie, seqno := 0 } s

/-! ## Ending, suspending and draining a graph (R10, R310, R320, R322, R326) -/

/-- What a region keeps when its graph ends (R124, R326): tokens, frames and firings are discarded; the accesses that their
memory nodes or points of coherence already hold are still performed, and the barriers stay until the next launch clears them
(R279, R317). -/
def Fabric.strip (f : Fabric) : Fabric :=
  { Fabric.reset with accesses := f.accesses.filter (·.accepted), nextId := f.nextId, bars := f.bars }

/-- The discard of a tag that is live when its graph ends: its slot is free, with its generation (R124; log 89). -/
def Slot.discard (v : Slot) : Slot := if v.live then { Slot.zero with gen := v.gen } else v

/-- The order of requests for leave that arrive in one cycle (R368): presses by cluster and unit, then sorters by stack. -/
def LeaveReq.rank : LeaveReq → Nat
  | .press e => e.cluster.val * 16 + e.unit.val
  | .sorter _ _ stack => 1024 + stack

/-- A request for leave joins a governor's queue behind those of earlier cycles, and among those of its own cycle in their
order (R368). -/
def Gov.ask (g : Gov) (cycle : Nat) (r : LeaveReq) : Gov :=
  let before := fun (e : Nat × LeaveReq) => decide (e.1 < cycle ∨ e.2.rank ≤ r.rank)
  { g with queue := g.queue.filter before ++ (cycle, r) :: g.queue.filter fun e => !before e }

/-- The leave that a sorter's apply holds (R367). -/
def sorterLeave : Nat := 8

/-- Sorters give back the leave that they hold, as handle × 16 + stack, to the governors of their dies (R367). -/
def returnLeave (l : List Nat) (s : State) : State :=
  l.foldl (fun s k => let d := k % 16 % 8; s.setGov d { s.gov d with held := (s.gov d).held - sorterLeave }) s

/-- The apply of a context is given up: its leave goes back, and its requests leave the governors' queues. -/
def dropApply (c : Nat) (s : State) : State :=
  match (s.ctx c).apply with
  | none => s
  | some a =>
    let s := a.waits.foldl (fun s k =>
      let d := k % 16 % 8
      s.setGov d { s.gov d with queue := (s.gov d).queue.filter fun r => decide (r.2 ≠ .sorter c (k / 16) (k % 16)) })
      (returnLeave a.leave s)
    s.modCtx c fun x => { x with apply := none }

/-- The graph ends: the context retires with a completion token of a kind, code, reason, value and report, and a drain
in progress is abandoned (R310, R326).  Its bindings go, with their records (R220), and the headers that no inbox has
accepted (R181). -/
def endGraph (c kind code reason : Nat) (value report extra : Word) (s : State) : State :=
  let s := dropApply c s
  let s : State := { s with
    recs := s.recs.filter fun r => decide (r.ctx ≠ c),
    engs := smMap Eng.reset (fun _ e => { e with waiting := e.waiting.filter fun k => decide (k.from_.ctx ≠ c) }) s.engs }
  s.modCtx c fun x =>
    { x with
      st := .retiring, fab := x.fab.strip, seq := { x.seq with phase := .stopped }, cause := none,
      cookieStop := none, later := [], saved := none, slots := smMap Slot.zero (fun _ v => v.discard) x.slots, bindings := [],
      ending := some { kind := kind, code := code, reason := reason, value := value, flags := 0, report := report,
                       extra := extra, cookie := (x.task.map (·.cookie)).getD 0, seqno := (x.task.map (·.seqno)).getD 0 } }

/-- The graph or task that a retire token ends, or a trap that meets a saved graph: the running one, or the head of a queue
that waits, whose saved state goes with it (R209, R310, R329). -/
def Ctx.takeHead (x : Ctx) : Ctx :=
  match x.st with
  | .queued | .suspended =>
    let y : Ctx := { x with fab := Fabric.reset }
    if x.task.isSome then y else { y with task := x.queue.head?, queue := x.queue.drop 1 }
  | .free | .idle | .running | .draining | .retiring => x

/-- A running graph starts to drain for a cause, with the trap's code, reason and report (R320).  In a context that
already drains the first cause stands and the later ones are recorded, in their order (R322, R349). -/
def beginDrain (c : Nat) (why : DrainCause) (code reason : Nat) (report : Word) (s : State) : State :=
  s.modCtx c fun x =>
    match x.st with
    | .running => { x with
        st := .draining, cause := some why, causeCode := code, causeReason := reason, causeReport := report,
        fab := { x.fab with draining := true } }
    | .draining => { x with later := x.later ++ (if code = 0 then [] else [(code, reason, report)]) }
    | .free | .idle | .queued | .suspended | .retiring => x

/-- A trap of a graph takes its outcome (R10): suspended, or retired. -/
def outcome (c code reason : Nat) (report : Word) (s : State) : State :=
  match suspendCause code with
  | some why => beginDrain c why code reason report s
  | none => endGraph c 2 code reason 0 report 0 s

/-- seq.cause as a trap writes it (R94). -/
def causeWord (code reason : Nat) : Word := BitVec.ofNat 64 (code % 2 ^ 16 + reason % 2 ^ 16 * 2 ^ 16)

/-- seq.epc and seq.tvec hold bits <29:2> of an address (R94). -/
def epcWord (a : Word) : Word := a &&& 0x3FFFFFFC

/-- The address in pc (R92). -/
def Seq.addr (q : Seq) : Word := q.pc.setWidth 64

/-- The word of the instruction in progress, or the one that pc names (R93). -/
def State.seqWord (s : State) (x : Ctx) : Nat :=
  match x.seq.ir with
  | some w => w.toNat
  | none => rdBytes s.sp (x.spAddr x.seq.addr.toNat) 4

/-- pc points at the target of a transfer, whose word has not been fetched (R92, R93, R100). -/
def Seq.point (q : Seq) (t : Word) : Seq := { q with pc := t.setWidth 32, far := decide (2 ^ 32 ≤ t.toNat), ir := none }

/-- The sequencer stops at a trap, with seq.epc as the trap leaves it (R95). -/
def Seq.halt (q : Seq) (epc : Word) : Seq := { q with epc := epcWord epc, phase := .stopped, counted := false }

/-- Writes the trap registers of the sequencer and stops it (R95). -/
def Seq.trapped (q : Seq) (code reason : Nat) (epc tval : Word) : Seq :=
  { q.halt epc with cause := causeWord code reason, tval := tval }

/-- Whether a trap only joins the causes recorded in a context that already drains: it suspends, and seq.cause and seq.tval
take it when it is raised, at resume (R322, R343). -/
def Ctx.records (x : Ctx) (code : Nat) : Bool := decide (x.st = .draining) && (suspendCause code).isSome

/-- A sequencer instruction raises a trap (R95, R122): seq.cause, seq.epc and seq.tval are written and the trap takes
its outcome; one that a drain records leaves seq.cause and seq.tval (R322).  A trap raised while seq.status.h = 1 raises
SEQ.DOUBLE in its place, with seq.epc naming the instruction. -/
def seqTrap (c code reason : Nat) (epc tval : Word) (s : State) : State :=
  if (s.seq c).h then
    let t := BitVec.ofNat 64 (code % 2 ^ 16 + reason % 2 ^ 16 * 2 ^ 16)
    outcome c trapSeqDouble 0 t (s.modSeq c fun q => q.trapped trapSeqDouble 0 q.addr t)
  else outcome c code reason tval (s.modSeq c fun q =>
    if (s.ctx c).records code then q.halt epc else q.trapped code reason epc tval)

/-- A node firing or an access raises a trap (R95, R180): seq.cause, seq.tval and seq.epc are written, seq.epc for a trap that
suspends where the sequencer stops (R113).  While seq.status.h = 1 it raises SEQ.DOUBLE in its place (R95, R122; log 10). -/
def nodeTrap (c code reason : Nat) (report : Word) (s : State) : State :=
  if (s.seq c).h then
    let t := BitVec.ofNat 64 (code % 2 ^ 16 + reason % 2 ^ 16 * 2 ^ 16)
    outcome c trapSeqDouble 0 t (s.modSeq c fun q =>
      { q with cause := causeWord trapSeqDouble 0, epc := epcWord q.addr, tval := t })
  else outcome c code reason report (s.modSeq c fun q =>
    if (s.ctx c).records code then q
    else { q with cause := causeWord code reason, tval := report,
                  epc := if (suspendCause code).isNone then epcWord q.addr else q.epc })

/-- A trap of the graph as a whole retires it with a value and an extra word (R95, R124, R315, R324): the sequencer's trap
registers are written, and while seq.status.h = 1 SEQ.DOUBLE stands in its place (log 10). -/
def graphTrap (c code reason : Nat) (value report extra : Word) (s : State) : State :=
  let pc := (s.seq c).addr
  if (s.seq c).h then
    let t := causeWord code reason
    endGraph c 2 trapSeqDouble 0 0 t 0 (s.modSeq c fun q => q.trapped trapSeqDouble 0 pc t)
  else endGraph c 2 code reason value report extra (s.modSeq c fun q => q.trapped code reason pc report)

/-- "Node, tag": the graph node number in <59:32> and the tag in <31:0> (R342). -/
def nodeTagReport (node : Nat) (tag : Tag) : Word := BitVec.ofNat 64 (node % 2 ^ 28 * 2 ^ 32 + tag.toNat)

/-! ## Loop boundaries and retirement (R102) -/

/-- How the levels of a boundary end: no wrap, a wrap to an address, or le below lb. -/
inductive Bound where
  | none
  | wrap (pc : Nat)
  | bad (le lb : Nat)
  deriving DecidableEq, Repr, Inhabited

/-- The boundary processing of the listed levels for an instruction at `a` (R102, R103). -/
def boundary (a : Nat) : List Nat → Seq → Seq × Bound
  | [], q => (q, .none)
  | v :: t, q =>
    if q.act.getLsbD v && decide (smGet 0 q.le v = a) then
      let lc := if q.cpend.getLsbD v then smGet 0 q.lcw v else smGet 0 q.lc v - 1
      let lb := if q.wpend.getLsbD v then smGet 0 q.plb v else smGet 0 q.lb v
      let le := if q.wpend.getLsbD v then smGet 0 q.ple v else smGet 0 q.le v
      let q' := { q with
        lc := smSet 0 q.lc v lc, lb := smSet 0 q.lb v lb, le := smSet 0 q.le v le,
        cpend := setBit4 q.cpend v false, wpend := setBit4 q.wpend v false }
      if lc = 0 then boundary a t { q' with act := setBit4 q'.act v false }
      else if le < lb then (q', .bad le lb)
      else (q', .wrap lb)
    else boundary a t q

/-- The loop levels in the order of R102. -/
def loopLevels : List Nat := [3, 2, 1, 0]

/-- The sequencer at its next instruction: nothing of the retired one is left, and the watchdog restarts (R37). -/
def moveTo (c : Nat) (pc : Word) (s : State) : State :=
  s.modCtx c fun x =>
    { x with
      seq := { x.seq.point pc with phase := .ready, counted := false },
      fab := { x.fab with idle := 0, heldFences := x.fab.heldFences.erase none } }

/-- An instruction retires without redirecting the pc: boundary processing, then the next instruction, the wrap, or
SEQ.LOOP (R95, R102). -/
def retire (c : Nat) (s : State) : State :=
  let a := (s.seq c).addr
  let r := boundary a.toNat loopLevels (s.seq c)
  let s := s.modSeq c fun _ => r.1
  match r.2 with
  | .none => moveTo c (a + 4) s
  | .wrap pc => moveTo c (BitVec.ofNat 64 pc) s
  | .bad le lb => seqTrap c trapSeqLoop 0 a (BitVec.ofNat 64 (le * 2 ^ 32 + lb)) s

/-! ## Issue of a sequencer instruction (R61, R96, R110) -/

/-- The meaning of a sequencer instruction, given the context whose sequencer holds the turn. -/
def asSeq (s : State) (k : Nat → Out) : Out :=
  match s.cur with
  | .seq c => k c
  | .none | .firing _ _ => .fault .noSequencer

/-- A source register with its empty rule (R61). -/
abbrev Src := SReg × Bool

/-- What issue finds (R61, R110): an empty register under rule 1, a register to wait for, a held engine fault, or a
clear way. -/
inductive Issue where
  | empty (r : SReg)
  | wait
  | fault (f : HeldFault)
  | go
  deriving DecidableEq, Repr, Inhabited

/-- Issue of an instruction with its sources in the order a, b and its destination (R61, R95, R110). -/
def Seq.issue (q : Seq) (srcs : List Src) (dst : SReg) : Issue :=
  if srcs.any fun p => p.2 && q.isEmpty p.1 then
    .empty (((srcs.find? fun p => q.isEmpty p.1).map Prod.fst).getD 0)
  else if srcs.any fun p => !q.ready p.1 then .wait
  else match q.faults.find? fun f => srcs.any fun p => decide (p.1 ≠ 0 ∧ f.reg = p.1.val) with
    | some f => .fault f
    | none => if q.ready dst then .go else .wait

/-- Raises a fault that R110 held, once, at an instruction. -/
def raiseHeld (c : Nat) (f : HeldFault) (s : State) : State :=
  let pc := (s.seq c).addr
  seqTrap c f.code f.reason pc (BitVec.ofNat 64 f.report) (s.modSeq c fun q => { q with faults := q.faults.erase f })

/-- The fields of a sequencer breakpoint register (R346): armed, passes, and the watched address. -/
def sbpHits (w : Word) (pc : Word) : Bool := bit w.toNat 63 && decide (bits w.toNat 29 2 * 4 = pc.toNat)

/-- The passes a sequencer breakpoint has left; 0 acts as 1 (R346). -/
def sbpPasses (w : Word) : Nat := bits w.toNat 47 32

/-- A breakpoint register after one pass at an address (R348): disarmed when it is the one that fires, one pass fewer
when it watches the address and has more than one left, else unchanged. -/
def sbpPass (w : Word) (pc : Word) (fires : Bool) : Word :=
  if fires then w &&& 0x7FFFFFFFFFFFFFFF
  else if sbpHits w pc && decide (1 < sbpPasses w) then w - 0x100000000
  else w

/-- An instruction begins execution (R348): each breakpoint that watches it counts one pass, once for each execution;
the lowest one that finds passes = 1 or 0 fires. -/
def beginPass (c : Nat) (s : State) : State × Option Nat :=
  let x := s.ctx c
  if x.seq.counted then (s, none)
  else
    let pc := x.seq.addr
    let hit := (List.range 4).find? fun k =>
      sbpHits (smGet 0 x.sbp k) pc && decide (sbpPasses (smGet 0 x.sbp k) ≤ 1)
    (s.setCtx c { x with
      seq := { x.seq with counted := true },
      sbp := (List.range 4).foldl
        (fun m k => smSet 0 m k (sbpPass (smGet 0 x.sbp k) pc (decide (hit = some k)))) x.sbp }, hit)

/-- A sequencer breakpoint freezes the context before the pass executes, with seq.epc naming the instruction (R348).
The pass has been counted, so a plain resume executes it. -/
def sbpFreeze (c k : Nat) (s : State) : State :=
  (seqTrap c trapSeqBrk 0 (s.seq c).addr (BitVec.ofNat 64 (0x200 + k)) s).modSeq c fun q => { q with counted := true }

/-- An instruction that issues with sources and a destination: SEQ.EMPTY, a wait, a held fault, a breakpoint, or its
effect (R61, R95, R110, R348). -/
def seqIssue (srcs : List Src) (dst : SReg) (s : State) (k : Nat → State → Out) : Out :=
  asSeq s fun c =>
    match (s.seq c).issue srcs dst with
    | .empty r => .next (seqTrap c trapSeqEmpty 0 (s.seq c).addr (BitVec.ofNat 64 r.val) s)
    | .wait => .next s
    | .fault f => .next (raiseHeld c f s)
    | .go => match beginPass c s with
      | (s', some b) => .next (sbpFreeze c b s')
      | (s', none) => k c s'

/-- An instruction raises a trap in place of its effect, with seq.epc naming it (R95). -/
def trapHere (c : Nat) (b : Bad) (s : State) : Out :=
  .next (seqTrap c b.code 0 (s.seq c).addr (BitVec.ofNat 64 b.report) s)

/-- An instruction whose whole effect is one register write (R97 to R99). -/
def seqAlu (srcs : List Src) (dst : SReg) (s : State) (f : Seq → Word) : Out :=
  seqIssue srcs dst s fun c s => .next (retire c (s.modSeq c fun q => q.wr dst (f q)))

end Sys2Proof.Machine
end

