-- ==== Sys2Proof/Machine/Memory.lean ====
section
/-! DEFINITION. Global memory: update bindings, the fold and the views of their records (R208 to R217), translation at the
home (R333 to R337), link windows (R352, R353), and the reading and writing of bytes of the intermediate space. -/

namespace Sys2Proof.Machine

open Sys2Proof

/-! ## Bindings (R117, R208) -/

/-- A virtual address through a binding's range registers (R208, R332); nothing where none covers it. -/
def Binding.toIa (b : Binding) (va : Nat) : Option Nat :=
  let u := va / 2 ^ 16
  match b.rng.find? fun r => bit r.2.toNat 34 && decide (r.1.toNat % 2 ^ 32 ≤ u ∧ u ≤ r.1.toNat / 2 ^ 32) with
  | none => none
  | some r => some ((u - r.1.toNat % 2 ^ 32 + r.2.toNat % 2 ^ 32) * 2 ^ 16 + va % 2 ^ 16)

/-- The offset of an intermediate byte in an extent of `units` 64 KiB units at virtual `base`, through a binding's
range registers. -/
def Binding.extentOff (b : Binding) (base units ia : Nat) : Option Nat :=
  (b.rng.filterMap fun r =>
    let va := (ia / 2 ^ 16 + r.1.toNat % 2 ^ 32 - r.2.toNat % 2 ^ 32) * 2 ^ 16 + ia % 2 ^ 16
    if decide (r.2.toNat % 2 ^ 32 ≤ ia / 2 ^ 16) && decide (base ≤ va ∧ va < base + units * 2 ^ 16) &&
      (b.toIa va == some ia) then some (va - base) else none).head?

/-- The element size of a binding's type in bytes (R117). -/
def Binding.width (b : Binding) : Nat := if b.type = 3 ∨ b.type = 7 then 8 else 4

/-- A binding of a context. -/
structure BoundRef where
  ctx : Nat
  handle : Nat
  b : Binding
  deriving DecidableEq, Repr, Inhabited

/-- The bindings of every context. -/
def State.bound (s : State) : List BoundRef :=
  s.ctxs.flatMap fun p => p.2.bindings.filterMap fun q => q.2.map fun b => { ctx := p.1, handle := q.1, b := b }

/-- The binding whose region holds an intermediate byte, with the byte's offset. -/
def State.regionOf (s : State) (ia : Nat) : Option (BoundRef × Nat) :=
  (s.bound.filterMap fun r => (r.b.extentOff r.b.base r.b.size ia).map fun o => (r, o)).head?

/-- The binding whose spill area holds an intermediate byte. -/
def State.spillOf (s : State) (ia : Nat) : Option BoundRef :=
  s.bound.find? fun r => (r.b.extentOff r.b.spill r.b.spillsize ia).isSome

/-! ## The order and the operators (R214, R215) -/

/-- Compares two lists of numbers field by field. -/
def lexLe : List Nat → List Nat → Bool
  | [], _ => true
  | _ :: _, [] => false
  | a :: s, b :: t => if a < b then true else if b < a then false else lexLe s t

/-- The fields that order an element's records: the key of R211 and, among equal keys, the value pattern (R214). -/
def Rec.order (r : Rec) : List Nat :=
  [r.period, r.key.space, r.key.ring, r.key.ordinal, r.node, r.lane, r.value]

/-- Whether one record is folded before another (R214). -/
def recLe (a b : Rec) : Bool := lexLe a.order b.order

/-- An integer update on patterns at a type (R215). -/
def updInt (op type v b : Nat) : Nat :=
  let t := IntTy.ofCode type
  let n := IntTy.bits t
  match op with
  | 0 => (v + b) % 2 ^ n
  | 1 => if intVal t v ≤ intVal t b then v else b
  | 2 => if intVal t b ≤ intVal t v then v else b
  | 3 => v &&& b
  | 4 => v ||| b
  | _ => v ^^^ b

/-- op(v, b) of a binding's operator and type (R215). -/
def updOp (op type v b : Nat) : Res Nat :=
  if op ≤ 5 then quiet (updInt op type v b)
  else if op = 6 then fAdd .f32 .rne false 0 v b
  else if op = 7 then fMinMax false .f32 v b
  else if op = 8 then fMinMax true .f32 v b
  else quiet b

/-- The fold of an element's records into its memory value (R214), with the flags of its steps. -/
def foldRecs (op type v : Nat) (rs : List Rec) : Res Nat :=
  (rs.mergeSort recLe).foldl (fun a r => let x := updOp op type a.val r.value; { val := x.val, fl := a.fl ||| x.fl })
    (quiet v)

/-! ## Translation at the home (R334 to R337) -/

/-- The address bits that a page of a level keeps (R334). -/
def levelBits : Nat → Nat
  | 0 => 29 | 1 => 25 | _ => 16

/-- Whether a TLB entry maps an intermediate byte for an access. -/
def TlbEntry.hits (e : TlbEntry) (ia : Nat) (wr : Bool) : Bool :=
  decide (ia / 2 ^ levelBits e.level = e.ia / 2 ^ levelBits e.level) && (!wr || e.w)

/-- The physical address that a leaf gives (R334). -/
def TlbEntry.paOf (e : TlbEntry) (ia : Nat) : Nat := e.pa + ia % 2 ^ levelBits e.level

/-- A lookup in the TLB of the byte's home die (R335). -/
def State.tlbLook (s : State) (ia : Nat) (wr : Bool) : Option Nat :=
  ((smGet [] s.tlb (dieOf ia)).find? fun e => e.hits ia wr).map fun e => e.paOf ia

/-- The first physical byte of the frames of the management firmware (R370). -/
def firmwareBase : Nat := 0xFFFF000000

/-- What a walk finds (R334): a leaf, a page fault, a malformed entry, or an uncorrectable entry, at its address. -/
inductive WalkRes where
  | leaf (e : TlbEntry)
  | fault
  | malformed (pa : Nat)
  | ecc (pa : Nat)
  deriving DecidableEq, Repr, Inhabited

/-- The index of an address in a table of a level (R334). -/
def walkIndex (level ia : Nat) : Nat :=
  match level with
  | 0 => bits ia 45 29
  | 1 => bits ia 28 25
  | _ => bits ia 24 16

/-- The alignment that a pointer of a level needs (R334). -/
def nextAlign : Nat → Nat
  | 0 => 128 | _ => 4096

/-- A walk from a table of a level down (R334, R370); the entries it reads are checked (R344). -/
def walkFrom (ia : Nat) (wr : Bool) : Nat → Nat → Nat → State → WalkRes × State
  | 0, _, table, s => (.malformed table, s)
  | fuel + 1, level, table, s =>
    let pa := table + 8 * walkIndex level ia
    let r := hbmRead pa 8 s
    match r.bad with
    | some a => (.ecc a, r.s)
    | none =>
      let e := r.val
      let addr := bits e 39 0
      if !bit e 63 then (.fault, r.s)
      else if bit e 62 && wr && !bit e 61 then (.fault, r.s)
      else if bits e 60 40 ≠ 0 then (.malformed pa, r.s)
      else if bit e 62 then
        if addr % 2 ^ levelBits level ≠ 0 ∨ firmwareBase < addr + 2 ^ levelBits level then (.malformed pa, r.s)
        else (.leaf { level := level, ia := ia / 2 ^ levelBits level * 2 ^ levelBits level, pa := addr, w := bit e 61 }, r.s)
      else if 2 ≤ level ∨ addr % nextAlign level ≠ 0 then (.malformed pa, r.s)
      else walkFrom ia wr fuel (level + 1) addr r.s

/-- The walk of a page (R334, R335). -/
def walk (ia : Nat) (wr : Bool) (s : State) : WalkRes × State := walkFrom ia wr 3 0 s.ptRoot.toNat s

/-- The entries of a TLB (R335). -/
def tlbEntries : Nat := 4096

/-- A leaf enters the TLB of a die; where it is full, which entry goes is not stated (R335; log 24). -/
def tlbFill (die : Nat) (e : TlbEntry) (s : State) : State :=
  let others := (smGet [] s.tlb die).filter fun o => !decide (o.level = e.level ∧ o.ia = e.ia)
  if others.length < tlbEntries then { s with tlb := smSet [] s.tlb die (e :: others) }
  else { s.fresh.2 with tlb := smSet [] s.tlb die (e :: (others.eraseIdx (s.fresh.1.toNat % others.length)).take (tlbEntries - 1)) }

/-- The answer that an access to a page has at its home (R335, R336): the leaf that the TLB holds, or what a walk finds, whose
leaf the TLB takes.  A write to a page whose held leaf forbids it may use that leaf or the table's (log 24). -/
def pageLook (ia : Nat) (wr : Bool) (s : State) : WalkRes × State :=
  let new := fun (s : State) =>
    let r := walk ia wr s
    match r.1 with
    | .leaf e => (r.1, tlbFill (dieOf ia) e r.2)
    | .fault | .malformed _ | .ecc _ => r
  match (smGet [] s.tlb (dieOf ia)).find? fun e => e.hits ia false with
  | none => new s
  | some e =>
    if !wr || e.w then (.leaf e, s)
    else if bit s.fresh.1.toNat 0 then (.fault, s.fresh.2) else new s.fresh.2

/-- The result of an access to the intermediate space: a value, a wait for a translation, or a trap's code and report. -/
inductive XRes where
  | ok (v : Nat) (s : State)
  | stall (s : State)
  | bad (b : Bad) (s : State)
  deriving DecidableEq, Repr, Inhabited

/-- Goes on with the value of an access. -/
def XRes.bind (r : XRes) (k : Nat → State → XRes) : XRes :=
  match r with
  | .ok v s => k v s
  | .stall s => .stall s
  | .bad b s => .bad b s

/-- Enters an event in the log; the code of its unit is not stated (R345, R365; log 22). -/
def logEvent (addr : Nat) (s : State) : State :=
  let u := s.fresh
  { u.2 with
    eccLog := smSet LogEntry.none u.2.eccLog (s.eccCount.toNat % 64)
      { unit := u.1.toNat % 2 ^ 32, addr := addr, cycle := s.cycles },
    eccCount := s.eccCount + 1 }

/-- Whether a context's graph can still take a trap in its region: it has not ended. -/
def Ctx.trappable (x : Ctx) : Bool := x.live || (decide (x.st = .retiring) && decide (x.ending = none))

/-- Whether a context holds a graph whose state is saved: it is Suspended, or Queued after a pre-emption (R310). -/
def Ctx.holdsSaved (x : Ctx) : Bool := x.saved.isSome && decide (x.st = .suspended ∨ x.st = .queued)

/-- A trap of a context's access, walk, engine command or binding: a saved graph is retired by it too, since its bindings
persist (R10, R209, R220); a graph that has ended takes none. -/
def ctxTrap (c : Nat) (b : Bad) (s : State) : State :=
  if (s.ctx c).trappable ∨ (s.ctx c).holdsSaved then
    nodeTrap c b.code 0 (BitVec.ofNat 64 b.report) (s.modCtx c Ctx.takeHead)
  else s

/-- The context on whose behalf a unit waits. -/
def State.whoCtx (s : State) (w : MissWho) : Option Nat :=
  match w with
  | .access c _ | .seq c | .sched c _ | .sorter c _ | .spill c => some c
  | .eng e => (s.eng e).run.map (·.cmd.from_.ctx)

/-- A miss of a unit, recorded once for each unit and page (R335). -/
def State.miss (s : State) (who : MissWho) (ia : Nat) (wr : Bool) : State :=
  if s.misses.any fun m => decide (m.who = who ∧ m.ia / 2 ^ 16 = ia / 2 ^ 16 ∧ m.wr = wr) then s
  else if s.faultToks.any fun m => decide (m.who = who ∧ m.ia / 2 ^ 16 = ia / 2 ^ 16 ∧ m.wr = wr) then s
  else { s with misses := s.misses ++ [{ who := who, ia := ia, wr := wr, walking := false }] }

/-- The physical address of a local intermediate byte, or a wait for its translation (R333, R335). -/
def translate (who : MissWho) (ia : Nat) (wr : Bool) (s : State) : XRes :=
  match s.tlbLook ia wr with
  | some pa => .ok pa s
  | none => .stall (s.miss who ia wr)

/-- Reads a little-endian word of HBM at a physical address; an uncorrectable word is ECC.HBM (R344). -/
def hbmLoad (pa n : Nat) (s : State) : XRes :=
  let r := hbmRead pa n s
  match r.bad with
  | some a => .bad { code := trapEccHbm, report := a } r.s
  | none => .ok r.val r.s

/-- Writes a little-endian word of HBM at a physical address. -/
def hbmStore (pa n v : Nat) (s : State) : XRes :=
  let r := hbmWrite pa n v s
  match r.bad with
  | some a => .bad { code := trapEccHbm, report := a } r.s
  | none => .ok 0 r.s

/-! ## Applies and views (R216, R217) -/

/-- The records of one element of a binding in a list. -/
def elemRecs (c h off : Nat) (current : Bool) (rs : List Rec) : List Rec :=
  rs.filter fun r => decide (r.ctx = c ∧ r.handle = h ∧ r.offset = off ∧ r.current = current)

/-- The number of upset bits of a record. -/
def Rec.upsets (r : Rec) : Nat := popWord (BitVec.ofNat 64 r.err)

/-- Sorters read the records that `p` selects: single-bit errors are corrected, an uncorrectable record is ECC.SORT, and both
are counted (R220, R344, R345).  The report names the stack and the record, in a layout that is not stated (R342; log 22). -/
def readRecs (p : Rec → Bool) (s : State) : XRes :=
  let one := s.recs.filter fun r => p r && decide (r.upsets = 1)
  let t := one.foldl (fun t r => t.countEcc (r.stack % 8) 1 0)
    { s with recs := s.recs.map fun r => if p r && decide (r.upsets = 1) then { r with err := 0 } else r }
  let bad := t.recs.filter fun r => p r && decide (2 ≤ r.upsets)
  match bad.head? with
  | some r => .bad { code := trapEccSort, report := (Config.eccReport trapEccSort [r.stack, t.recs.idxOf r]).toNat }
      (t.countWords (· % 8) [] (bad.map (·.stack)))
  | none => .ok 0 t

/-- Whether a record is one of an element's, of the current period or of completed ones. -/
def isElemRec (c h off : Nat) (current : Bool) (r : Rec) : Bool :=
  decide (r.ctx = c ∧ r.handle = h ∧ r.offset = off ∧ r.current = current)

/-- Applies the completed records of one element: the fold is written to memory, its flags are merged into the binding
context, and the records are freed (R214 to R216, R220). -/
def applyElem (r : BoundRef) (off : Nat) (s : State) : XRes :=
  (readRecs (isElemRec r.ctx r.handle off false) s).bind fun _ s =>
  let rs := elemRecs r.ctx r.handle off false s.recs
  if rs = [] then .ok 0 s
  else match r.b.toIa (r.b.base + off) with
    | none => .ok 0 s
    | some ia =>
      (translate (.sorter r.ctx r.handle) ia true s).bind fun pa s =>
      (hbmLoad pa r.b.width s).bind fun v s =>
        let f := foldRecs r.b.op r.b.type v rs
        (hbmStore pa r.b.width f.val s).bind fun _ s =>
          .ok 1 (({ s with recs := s.recs.filter fun x => !rs.contains x }).mergeFlags r.ctx f.fl)

/-- Applies listed elements one after another. -/
def applyElems (r : BoundRef) : List Nat → State → XRes
  | [], s => .ok 0 s
  | off :: t, s => (applyElem r off s).bind fun _ s => applyElems r t s

/-- The runs in which a binding's records stand on a stack. -/
def runsOf (c h stack : Nat) (rs : List Rec) : List Nat :=
  ((rs.filter fun r => decide (r.ctx = c ∧ r.handle = h ∧ r.stack = stack ∧ 0 < r.run)).map (·.run)).dedup

/-- One merge pass: the runs of a binding on a stack are joined 16 at a time (R216). -/
def mergePass (c h stack : Nat) (s : State) : State :=
  let runs := runsOf c h stack s.recs
  { s with recs := s.recs.map fun (r : Rec) =>
      if r.ctx = c ∧ r.handle = h ∧ r.stack = stack ∧ 0 < r.run then { r with run := 1 + runs.idxOf r.run / 16 } else r }.modCtx
    c fun x => { x with updMerge := smSet 0 x.updMerge h (smGet 0 x.updMerge h + 1) }.count statMerge 1

/-- Whether a record is one of a binding's on a stack, in its bin SRAM or in the runs of its spill share. -/
def isBindingRec (c h stack : Nat) (spilled : Bool) (r : Rec) : Bool :=
  decide (r.ctx = c ∧ r.handle = h ∧ r.stack = stack ∧ (0 < r.run) = spilled)

/-- Merge passes, each of which reads every run, until 16 or fewer hold the binding's records on a stack (R216). -/
def mergeRuns (c h stack : Nat) : Nat → State → XRes
  | 0, s => .ok 0 s
  | fuel + 1, s =>
    if 16 < (runsOf c h stack s.recs).length then
      (readRecs (isBindingRec c h stack true) s).bind fun _ s => mergeRuns c h stack fuel (mergePass c h stack s)
    else .ok 0 s

/-- The most merge passes that any number of runs needs. -/
def mergeFuel : Nat := 16

/-- The offsets of a line's elements that have completed records. -/
def lineOffs (c h line : Nat) (rs : List Rec) : List Nat :=
  ((rs.filter fun r => decide (r.ctx = c ∧ r.handle = h ∧ r.offset / 64 = line) && !r.current).map (·.offset)).dedup

/-- Applies every completed record of a line, counting the line when one is written (R216, R221). -/
def applyLine (r : BoundRef) (line : Nat) (s : State) : XRes :=
  let offs := lineOffs r.ctx r.handle line s.recs
  if offs = [] then .ok 0 s
  else
    let stack := ((s.recs.find? fun x => decide (x.ctx = r.ctx ∧ x.handle = r.handle ∧ x.offset / 64 = line)).map
      (·.stack)).getD 0
    (mergeRuns r.ctx r.handle stack mergeFuel s).bind fun _ s =>
    (applyElems r offs s).bind fun _ s =>
    .ok 0 (s.modCtx r.ctx fun x =>
      { x with updLines := smSet 0 x.updLines r.handle (smGet 0 x.updLines r.handle + 1) }.count statLines 1)

/-- The view of an element: its memory value folded with its current records; it writes nothing and merges no flag
(R217, R220). -/
def viewElem (r : BoundRef) (off pa : Nat) (s : State) : XRes :=
  (readRecs (isElemRec r.ctx r.handle off true) s).bind fun _ s =>
  (hbmLoad pa r.b.width s).bind fun v s =>
    .ok (foldRecs r.b.op r.b.type v (elemRecs r.ctx r.handle off true s.recs)).val s

/-! ## Link windows (R330, R352, R353) -/

/-- The window of an intermediate address, for addresses from 0x40 of <47:40> up. -/
def windowOf (ia : Nat) : Nat := ia / 2 ^ 40 - 0x40

/-- Whether an intermediate address lies in a link window. -/
def inWindow (ia : Nat) : Bool := decide (0x40 * 2 ^ 40 ≤ ia)

/-- Feature `f` is masked (R363). -/
def State.masked (s : State) (f : Nat) : Bool := s.fmask.getLsbD f

/-- The kind of a window in force (R352, R363): 0 Cymas Link, 1 Token Transport, 2 host memory; nothing where v = 0, the
kind is 3 or its feature is masked. -/
def State.windowKind (s : State) (j : Nat) : Option Nat :=
  let w := (smGet 0 s.wa j).toNat
  let k := bits w 62 61
  if !bit w 63 || decide (k = 3) || (decide (k = 0) && s.masked 10) || (decide (k = 1) && s.masked 11) then none
  else some k

/-- The set bits of a word below a bound, ascending. -/
def setBits (w n : Nat) : List Nat := (List.range n).filter fun i => bit w i

/-- The route that a line of a window takes (R353): the port or Ethernet route, or nothing where the window names no
port. -/
def State.windowRoute (s : State) (kind j die ia : Nat) : Option Nat :=
  let w := (smGet 0 s.wb j).toNat
  let ps := if kind = 0 then setBits w 16 else setBits w 8
  (ps[bits ia 39 6 % ps.length]?).map fun p => if kind = 0 then die * 16 + p else p

/-- Whether the route of a window's line can carry it: its port is not down (R353).  Host windows take no port. -/
def State.routeUp (s : State) (kind j die ia : Nat) : Bool :=
  if kind = 2 then true
  else match s.windowRoute kind j die ia with
    | none => false
    | some p => if kind = 0 then !(smGet LinkPort.reset s.ports p).down else !(smGet EthPort.reset s.eths p).down

/-- The remote address of a window byte (R352). -/
def State.remoteAddr (s : State) (ia : Nat) : Nat := (smGet 0 s.wa (windowOf ia)).toNat % 2 ^ 8 * 2 ^ 40 + ia % 2 ^ 40

/-- The memory that a window names: kind × 4,096 + peer package (R352). -/
def State.remotePlace (s : State) (ia : Nat) : Nat :=
  bits (smGet 0 s.wa (windowOf ia)).toNat 62 61 * 4096 + bits (smGet 0 s.wa (windowOf ia)).toNat 51 40

/-- The host's memory, as a remote place; a host window names no peer. -/
def isHostPlace (place : Nat) : Bool := decide (place / 4096 = 2)

/-- Writes bytes at an address of the host's or a peer's memory. -/
def remoteWrite (place a : Nat) (bytes : List Byte) (s : State) : State :=
  if isHostPlace place then { s with hostMem := wrBytes s.hostMem a (ofBytes bytes) bytes.length }
  else { s with peerMem := wrBytes s.peerMem (place * 2 ^ 48 + a) (ofBytes bytes) bytes.length }

/-- A byte of the host's or a peer's memory. -/
def State.remoteByte (s : State) (place a : Nat) : Byte :=
  if isHostPlace place then smGet 0 s.hostMem a else smGet 0 s.peerMem (place * 2 ^ 48 + a)

/-- The remote bytes of a posted store: its place, its first address and its length. -/
def State.postedAt (s : State) (p : Posted) : Nat × Nat × Nat := (s.remotePlace p.ia, s.remoteAddr p.ia, p.bytes.length)

/-- Whether two runs of remote bytes share one. -/
def remoteMeet (a b : Nat × Nat × Nat) : Bool := decide (a.1 = b.1 ∧ a.2.1 < b.2.1 + b.2.2 ∧ b.2.1 < a.2.1 + a.2.2)

/-- A posted store is performed at the remote point of coherence (R260). -/
def performPosted (p : Posted) (s : State) : State :=
  if p.done then s else
  { remoteWrite (s.remotePlace p.ia) (s.remoteAddr p.ia) p.bytes s with
    posted := s.posted.map fun q => if q.id = p.id then { q with done := true } else q }

/-- A posted store with the earlier ones that must be performed before it: those through the same memory node, or of the same
engine, to its location or to that of one of them (R167, R189, R250). -/
def State.postedUpTo (s : State) (p : Posted) : List Posted :=
  (s.posted.takeWhile fun q => q.id ≠ p.id).foldr (fun q l =>
    if !q.done && decide (q.src = p.src) && l.any (fun r => remoteMeet (s.postedAt q) (s.postedAt r)) then q :: l else l) [p]

/-- A posted store is performed, in its order of arrival at its memory node. -/
def performInOrder (p : Posted) (s : State) : State := (s.postedUpTo p).foldl (fun s q => performPosted q s) s

/-- A load of `n` bytes from a window is performed at the remote point of coherence: which of the posted stores to its bytes
that are on their way have been performed before it is free, in the order of their memory nodes; the value is taken at one
instant (R244, R245, R250, R260; log 4). -/
def remoteRead (ia n : Nat) (s : State) : Nat × State :=
  let at_ := (s.remotePlace ia, s.remoteAddr ia, n)
  let ps := s.posted.filter fun p => !p.done && remoteMeet (s.postedAt p) at_
  let t := ps.foldl (fun s p => if bit s.fresh.1.toNat 0 then performInOrder p s.fresh.2 else s.fresh.2) s
  (ofBytes ((List.range n).map fun i => t.remoteByte at_.1 (at_.2.1 + i)), t)

/-- Whether a unit reads a window at once, so that a peer's refusal is answered to the read itself (R352; log 70): any but a
memory node, whose loads the refusal meets on their way.  A firing's read of its window operand is no load of a node. -/
def State.readsAtOnce (s : State) : MissWho → Bool
  | .access c id => (s.fab c).accesses.all fun a => decide (a.id ≠ id)
  | .seq _ | .sched _ _ | .eng _ | .sorter _ _ | .spill _ => true

/-- The checks of an access to a window from a die: MEM.NOMAP, then LINK.DOWN (R352, R353). -/
def windowCheck (die ia : Nat) (s : State) : XRes :=
  let j := windowOf ia
  match s.windowKind j with
  | none => .bad { code := trapMemNomap, report := ia } s
  | some k => if s.routeUp k j die ia then .ok k s else .bad { code := trapLinkDown, report := ia } s

/-! ## Bytes of the intermediate space -/

/-- MEM.NOMAP of a window that is not in force reports the virtual address of the access (R342). -/
def XRes.atVa (va : Nat) (r : XRes) : XRes :=
  match r with
  | .bad b s => .bad (if b.code = trapMemNomap then { b with report := va } else b) s
  | .ok v s => .ok v s
  | .stall s => .stall s

/-- Reads `n` bytes of a link window for a unit on a die (R260, R352). -/
def readWindow (who : MissWho) (die ia n : Nat) (s : State) : XRes :=
  (windowCheck die ia s).bind fun _ s =>
    if s.readsAtOnce who && Config.peerFault s.frees then
      .bad { code := trapLinkRemote, report := ia } { s with frees := s.frees + 1 }
    else .ok (remoteRead ia n s).1 (remoteRead ia n s).2

/-- An uncorrectable record that another context's read meets retires the graph of the binding too (R220). -/
def bindingFault (who : MissWho) (r : BoundRef) (x : XRes) : XRes :=
  match x with
  | .bad b s => .bad b (if b.code = trapEccSort ∧ s.whoCtx who ≠ some r.ctx then ctxTrap r.ctx b s else s)
  | .ok _ _ | .stall _ => x

/-- Reads one byte of the intermediate space for a unit on a die (R217, R242, R245, R260): a window byte is the peer's, a
byte of a bound region is a view taken after its line's completed records are applied. -/
def readByte (who : MissWho) (die ia : Nat) (s : State) : XRes :=
  if inWindow ia then readWindow who die ia 1 s
  else
    (translate who ia false s).bind fun pa s =>
      match s.regionOf ia with
      | none => hbmLoad pa 1 s
      | some (r, off) => bindingFault who r <|
        (applyLine r (off / 64) s).bind fun _ s =>
          let e := off / r.b.width * r.b.width
          (viewElem r e (pa - off % r.b.width) s).bind fun v s => .ok (v / 256 ^ (off % r.b.width) % 256) s

/-- Reads `n` bytes of the device's intermediate space, little-endian. -/
def readBytes (who : MissWho) (die : Nat) : Nat → Nat → State → XRes
  | _, 0, s => .ok 0 s
  | ia, n + 1, s => (readByte who die ia s).bind fun b s =>
      (readBytes who die (ia + 1) n s).bind fun v s => .ok (b + 256 * v) s

/-- Reads an element of `n` bytes of the intermediate space (R244): one in a window at one instant. -/
def readIa (who : MissWho) (die ia n : Nat) (s : State) : XRes :=
  if inWindow ia && decide (0 < n) then readWindow who die ia n s else readBytes who die ia n s

/-- Writes `n` local bytes of the intermediate space that lie on one page. -/
def writeIa (who : MissWho) (ia n v : Nat) (s : State) : XRes :=
  (translate who ia true s).bind fun pa s => hbmStore pa n v s

/-- The checks that an issuing unit makes on `n` bytes of one element at a virtual address (R166, R209, R239, R332): the
range registers, the global overflow area, and bound regions and spill areas. -/
def globCheck (s : State) (x : Ctx) (rd wr : Bool) (va : Nat) : Except Bad Nat :=
  match x.toIa rd wr va with
  | .error e => .error e
  | .ok ia =>
    if x.inOverflow va then .error { code := trapMemPerm, report := va }
    else if (s.spillOf ia).isSome || (wr && (s.regionOf ia).isSome) then .error { code := trapMemUpdst, report := va }
    else .ok ia

/-- The checks of `n` bytes at a virtual address that are read: their intermediate addresses, or the first fault. -/
def globReads (s : State) (x : Ctx) : Nat → Nat → Except Bad (List Nat)
  | _, 0 => .ok []
  | va, n + 1 => match globCheck s x true false va with
    | .error b => .error b
    | .ok ia => match globReads s x (va + 1) n with
      | .error b => .error b
      | .ok l => .ok (ia :: l)

/-- Reads runs of consecutive intermediate addresses, each as one element. -/
def readRuns (who : MissWho) (die va : Nat) : List (Nat × Nat) → State → XRes
  | [], s => .ok 0 s
  | (ia, n) :: t, s => ((readIa who die ia n s).atVa va).bind fun v s =>
      (readRuns who die (va + n) t s).bind fun w s => .ok (v + 256 ^ n * w) s

/-- The runs of consecutive addresses in a list. -/
def runsIn : List Nat → List (Nat × Nat)
  | [] => []
  | a :: t => match runsIn t with
    | (b, n) :: r => if b = a + 1 then (a, n + 1) :: r else (a, 1) :: (b, n) :: r
    | [] => [(a, 1)]

/-- Reads `n` bytes at a virtual address of a context as one element, with the checks of its issuing unit. -/
def readVa (c : Nat) (who : MissWho) (die va n : Nat) (s : State) : XRes :=
  match globReads s (s.ctx c) va n with
  | .error b => .bad b s
  | .ok l => readRuns who die va (runsIn l) s

/-- The parameter window `w` of a context: its base and bound size, or WIN.UNBOUND (R73, R114). -/
def Ctx.window (x : Ctx) (w : Nat) : Except Bad (Nat × Nat) :=
  match smGet none x.windows w with
  | none => .error { code := trapWinUnbound, report := w }
  | some b => .ok b

/-- Reads `n` bytes of a window at an offset as one element; a byte at or beyond the bound reads 0 (R73, R114). -/
def readWin (c : Nat) (who : MissWho) (die base size off n : Nat) (s : State) : XRes :=
  readVa c who die (base + off) (min n (size - off)) s

end Sys2Proof.Machine
end

