-- ==== Sys2Proof/Machine/Fabric.lean ====
section
/-! DEFINITION. The fabric: node images (R68 to R80), tags and slots (R20 to R24, R151), firings and their operands (R16,
R72, R73, R139), and the emission of results over routes (R16, R79, R140, R150). -/

namespace Sys2Proof.Machine

open Sys2Proof

/-! ## Tags (R20 to R24, R151) -/

/-- The space of a tag. -/
def tagSpace (t : Tag) : Nat := bits t.toNat 27 20

/-- The slot index of a tag. -/
def tagIndex (t : Tag) : Nat := bits t.toNat 19 8

/-- The generation of a tag. -/
def tagGen (t : Tag) : Nat := bits t.toNat 7 0

/-- The home die of a tag. -/
def tagDie (t : Tag) : Nat := bits t.toNat 31 28

/-- A space's descriptor (R309). -/
def Ctx.space (x : Ctx) (sp : Nat) : SpaceDesc := smGet SpaceDesc.none x.spaces sp

/-- The slots of a space (R21): m × n under a parent of m slots.  `fuel` bounds the chain of parents. -/
def Ctx.slotsIn (x : Ctx) : Nat → Nat → Nat
  | 0, _ => 0
  | fuel + 1, sp =>
    match (x.space sp).parent with
    | none => (x.space sp).n
    | some p => x.slotsIn fuel p * (x.space sp).n

/-- The slots of a space. -/
def Ctx.slotCount (x : Ctx) (sp : Nat) : Nat := x.slotsIn 256 sp

/-- The die count of a region (R375). -/
def Ctx.dies (x : Ctx) : Nat := max 1 (x.size / 8)

/-- A slot of a space. -/
def Ctx.slot (x : Ctx) (sp i : Nat) : Slot := smGet Slot.zero x.slots (sp * 4096 + i)

/-- Writes a slot of a space. -/
def Ctx.setSlot (x : Ctx) (sp i : Nat) (v : Slot) : Ctx := { x with slots := smSet Slot.zero x.slots (sp * 4096 + i) v }

/-- The slot of a tag. -/
def Ctx.tagSlot (x : Ctx) (t : Tag) : Slot := x.slot (tagSpace t) (tagIndex t)

/-- Whether a tag names a slot of an admitted space (R151). -/
def Ctx.tagAdmitted (x : Ctx) (t : Tag) : Bool :=
  decide ((x.space (tagSpace t)).kind ≠ .unused) && decide (tagIndex t < x.slotCount (tagSpace t)) &&
    decide (tagDie t < x.dies)

/-- Whether a tag's generation is its slot's (R23). -/
def Ctx.tagCurrent (x : Ctx) (t : Tag) : Bool := decide (tagGen t = (x.tagSlot t).gen)

/-- Whether a tag is live: its slot is granted in its generation (R23). -/
def Ctx.tagLive (x : Ctx) (t : Tag) : Bool := x.tagCurrent t && (x.tagSlot t).live

/-- Whether a space is plain with a parent. -/
def Ctx.isInner (x : Ctx) (sp : Nat) : Bool := decide ((x.space sp).kind = .plain) && (x.space sp).parent.isSome

/-- Whether a space is plain without a parent. -/
def Ctx.isRoot (x : Ctx) (sp : Nat) : Bool := decide ((x.space sp).kind = .plain) && (x.space sp).parent.isNone

/-- A tag from its fields (R20). -/
def mkTag (die sp i gen : Nat) : Tag := BitVec.ofNat 32 (die * 2 ^ 28 + sp * 2 ^ 20 + i * 2 ^ 8 + gen)

/-- The ordinals granted in a ring. -/
def Ctx.ringNext (x : Ctx) (sp q : Nat) : Nat := smGet 0 x.rings (sp * 4096 + q)

/-- The slot that the next allocation of a ring takes (R22). -/
def Ctx.nextSlot (x : Ctx) (sp q : Nat) : Nat := q * (x.space sp).n + x.ringNext sp q % (x.space sp).n

/-- Allocation in a ring (R22): nothing while the slot is live.  `key` is the key the tag stands for when it is a call
tag, which takes its caller's (R24). -/
def Ctx.grant (x : Ctx) (sp q : Nat) (parent : Tag) (opened : Bool) (key : Option OrdKey)
    (ret : Option (Tag × NodeRef × Nat)) : Option (Tag × Ctx) :=
  let i := x.nextSlot sp q
  let v := x.slot sp i
  if v.live then none
  else
    let o := x.ringNext sp q
    let k := key.getD { space := sp, ring := q, ordinal := o }
    some (mkTag (x.space sp).home sp i v.gen,
      { x.setSlot sp i { live := true, gen := v.gen, parent := parent, key := k, opened := opened, ret := ret } with
        rings := smSet 0 x.rings (sp * 4096 + q) ((o + 1) % 2 ^ 64) })

/-- Allocation in a deep space: the lowest free slot of its pool (R28, R162). -/
def Ctx.grantDeep (x : Ctx) (sp : Nat) (key : OrdKey) (ret : Option (Tag × NodeRef × Nat)) : Option (Tag × Ctx) :=
  ((List.range (x.space sp).n).find? fun i => !(x.slot sp i).live).map fun i =>
    (mkTag (x.space sp).home sp i (x.slot sp i).gen,
      x.setSlot sp i { live := true, gen := (x.slot sp i).gen, parent := 0, key := key, opened := false, ret := ret })

/-- Whether a live tag of an inner space names a tag as its parent (R23). -/
def Ctx.namedAsParent (x : Ctx) (t : Tag) : Bool :=
  x.slots.any fun p => p.2.live && x.isInner (p.1 / 4096) && decide (p.2.parent = t)

/-- What freeing a tag gives: a trap's code, or the restored tag with the slot cleared (R23). -/
def Ctx.freeTag (x : Ctx) (t : Tag) : Except Nat (Tag × Ctx) :=
  if !x.tagLive t then .error trapTagStale
  else if x.namedAsParent t then .error trapTagNest
  else
    let v := x.tagSlot t
    .ok (v.parent, x.setSlot (tagSpace t) (tagIndex t)
      { v with live := false, gen := (v.gen + 1) % 256, opened := false, ret := none })

/-! ## Node images (R68 to R80) -/

/-- A node of a resident fabric load. -/
structure NodeImg where
  head : HeadWord
  ops : List Instr
  emit : EmitWord
  consts : List Lane
  leaves : List Leaf
  deriving DecidableEq, Repr, Inhabited

/-- The key of a node in the store of nodes. -/
def nodeKey (cl plane pe slot : Nat) : Nat := ((cl * 4 + plane) * 64 + pe) * 128 + slot

/-- The half words of a list of words, low half first. -/
def halves : List Nat → List Nat
  | [] => []
  | w :: t => w % 2 ^ 16 :: w / 2 ^ 16 % 2 ^ 16 :: halves t

/-- The constants k0 to k7 from the words present, an absent one 0 (R69). -/
def spreadConsts (mask : Nat) : List Nat → List Nat → List Lane
  | [], _ => []
  | j :: js, ws =>
    if bit mask j then
      match ws with
      | [] => 0 :: spreadConsts mask js []
      | w :: t => BitVec.ofNat 32 w :: spreadConsts mask js t
    else 0 :: spreadConsts mask js ws

/-- The operation of a node word, if it decodes. -/
def opOf (w : Nat) : Option Instr :=
  match decodeNode w with
  | .ok i => some i
  | .error _ => none

/-- The number of words that follow the head of a node (R68). -/
def headWords (h : HeadWord) : Nat := h.stages + 1 + popBits 8 h.kmask.toNat + (h.switches + 1) / 2

/-- A node's words read in the order of R68. -/
def parseNode (ws : List Nat) : Option NodeImg :=
  match ws with
  | [] => none
  | w :: t =>
    match decodeHead w with
    | none => none
    | some h =>
      let nk := popBits 8 h.kmask.toNat
      if t.length ≠ headWords h then none
      else match (t.take h.stages).mapM opOf, decodeEmit (t.getD h.stages 0),
          decodeRoute ((halves (t.drop (h.stages + 1 + nk))).take h.switches) with
        | some ops, some e, some l => some
            { head := h, ops := ops, emit := e, leaves := l,
              consts := spreadConsts h.kmask.toNat (List.range 8) ((t.drop (h.stages + 1)).take nk) }
        | _, _, _ => none

/-- The words of a context's node. -/
def State.nodeWords (s : State) (x : Ctx) (r : NodeRef) : List Nat :=
  smGet [] s.nodes (nodeKey (x.first + r.cl) r.plane r.pe r.slot)

/-- The image of a context's node. -/
def State.nodeImg (s : State) (x : Ctx) (r : NodeRef) : Option NodeImg := parseNode (s.nodeWords x r)

/-- The link word of a node, constant k6 (R149). -/
def NodeImg.link (m : NodeImg) : Nat := (m.consts.getD 6 0).toNat

/-- The destination that a node's link word names (R149, R291), in a plane: a link word carries none (log 107). -/
def NodeImg.linkDest (m : NodeImg) (plane : Nat) : Option (NodeRef × Nat) :=
  (decodeLink (m.link % 2 ^ 24)).map fun d =>
    ({ cl := d.die * 8 + d.cluster, plane := plane, pe := d.pe, slot := d.node }, d.port)

/-- The last operation of a chain. -/
def NodeImg.last (m : NodeImg) : Option Instr := m.ops.getLast?

/-- Whether an operation carries .ord (R168). -/
def Instr.ordered : Instr → Bool
  | .lds _ _ o | .ldg _ _ o | .sts _ _ _ o | .stg _ _ _ o | .gather _ _ _ o | .scatter _ _ _ o | .ldacq _ _ _ o
  | .strel _ _ _ _ o => o
  | _ => false

/-- The ordering port of a node, if its last operation is ordered (R168). -/
def NodeImg.ordPort (m : NodeImg) : Option Nat :=
  match m.last with
  | some i => if Instr.ordered i then some (m.head.inputs - 1) else none
  | none => none

/-- Whether the last operation is the gate. -/
def NodeImg.isGate (m : NodeImg) : Bool := decide (m.last = some .gate)

/-- The ports of a node that a token may wait on: data ports, and scale ports as 4 and 5 (R46, R69). -/
def NodeImg.portList (m : NodeImg) : List Nat :=
  List.range m.head.inputs ++ (List.range m.head.scales).map (· + 4)

/-- The PE that a branch without a far word delivers on: the emitting one where it has no hop (R79), else the one its hops
lead to (log 7). -/
def routePe (pe : Nat) (hops : List (Nat × Nat)) : Nat := if hops = [] then pe else Config.hopPe pe hops

/-- The node and port that a leaf of a node's route names (R78, R79, R291), in the plane of the node: switch words carry none
(log 107). -/
def leafDest (l : Leaf) (r : NodeRef) : NodeRef × Nat :=
  match l.far with
  | some (d, c, pe) => ({ cl := d * 8 + c, plane := r.plane, pe := pe, slot := l.node }, l.port)
  | none => ({ cl := r.cl, plane := r.plane, pe := routePe r.pe l.hops, slot := l.node }, l.port)

/-- Every node and port that a node's route names. -/
def NodeImg.dests (m : NodeImg) (r : NodeRef) : List (NodeRef × Nat) := m.leaves.map (leafDest · r)

/-- The destination of a node's link word, for the operations that name one (R149). -/
def NodeImg.linkDests (m : NodeImg) (r : NodeRef) : List (NodeRef × Nat) :=
  match m.last with
  | some .gate => (m.linkDest r.plane).toList
  | some (.call _) => (m.linkDest r.plane).toList
  | _ => []

/-- The output that a leaf carries (R77, R78): output 1 is a steer's. -/
def NodeImg.leafOut (m : NodeImg) (l : Leaf) : Bool :=
  match m.last with
  | some (.steer _ _) => l.sel
  | _ => false

/-- Whether the last operation is a quant, which sends its forwarded scales apart from its elements (R140). -/
def NodeImg.isQuant (m : NodeImg) : Bool :=
  match m.last with
  | some (.quant _ _ _ _ _) => true
  | _ => false

/-- A plane of a cluster that belongs to no fabric load: first plane 4 (R104). -/
def noPlane : Nat × Nat × Nat × Nat := (0, 0, 4, 0)

/-- The reference of a key of the store of nodes, relative to a context's region. -/
def keyRef (first key : Nat) : NodeRef :=
  { cl := key / (4 * 64 * 128) - first, plane := key / (64 * 128) % 4, pe := key / 128 % 64, slot := key % 128 }

/-- The nodes of the fabric load whose first plane is `p`, in ascending cluster, plane, PE and slot. -/
def State.loadRefs (s : State) (x : Ctx) (p : Nat) : List NodeRef :=
  s.nodes.filterMap fun e =>
    let r := keyRef x.first e.1
    if x.first ≤ e.1 / (4 * 64 * 128) ∧ e.1 / (4 * 64 * 128) < x.first + x.size ∧
        (smGet noPlane s.planes ((x.first + r.cl) * 4 + r.plane)).2.2.1 = p
    then some r else none

/-- The nodes of the period in progress. -/
def State.periodRefs (s : State) (x : Ctx) : List NodeRef :=
  match x.fab.period with
  | some p => s.loadRefs x p.plane
  | none => []

/-- The source nodes of the period in progress. -/
def State.sources (s : State) (x : Ctx) : List NodeRef :=
  (s.periodRefs x).filter fun r => match s.nodeImg x r with
    | some m => decide (m.head.kind = .source)
    | none => false

/-- The integer type of an operation of the integer families, or of a width code (R71, R75). -/
def Instr.intTy : Instr → Option IntTy
  | .addInteger t _ _ _ | .subInteger t _ _ _ | .mulInteger t _ _ _ | .mulhInteger t _ _ | .mad t _ _ _ _
  | .negInteger t _ _ | .absInteger t _ _ | .minInteger t _ _ | .maxInteger t _ _ | .andInteger t _ _
  | .orInteger t _ _ | .xorInteger t _ _ | .notInteger t _ | .andn t _ _ | .shl t _ _ | .shr t _ _ | .rotl t _ _
  | .rotr t _ _ | .clz t _ | .popc t _ | .sel t _ _ _ | .cmpInteger t _ _ _ | .cvtIntegerSource t _ _ _ _
  | .redInteger t _ _ _ | .scanInteger t _ _ _ | .rdcInteger t _ _ _ | .lds t _ _ | .sts t _ _ _ | .ldg t _ _
  | .stg t _ _ _ | .gather t _ _ _ | .scatter t _ _ _ | .ldacq t _ _ _ | .strel t _ _ _ _ => some t
  | .bcast t _ _ | .shuf t _ _ | .atomIadd t _ _ | .atomImin t _ _ | .atomImax t _ _ | .atomAnd t _ _ | .atomOr t _ _
  | .atomXor t _ _ | .atomXchg t _ _ | .atomCas t _ _ _ | .upd t _ _ => some (WTy.int t)
  | _ => none

/-- Whether an operation's result may travel a scale route: one of integer type code 2 or 6 (R140). -/
def Instr.scaleTy (i : Instr) : Bool := decide (Instr.intTy i = some .i32 ∨ Instr.intTy i = some .n32)

/-! ## Destinations in planes, and scale routes (R19, R79, R140, R287) -/

/-- The first plane of the fabric load that holds a node's plane. -/
def State.loadOf (s : State) (x : Ctx) (r : NodeRef) : Nat := (smGet noPlane s.planes ((x.first + r.cl) * 4 + r.plane)).2.2.1

/-- The planes of an emitter's fabric load in which the slot that a destination names holds a node. -/
def State.destPlanes (s : State) (x : Ctx) (r d : NodeRef) : List Nat :=
  (List.range 4).filter fun p =>
    let t : NodeRef := { d with plane := p }
    decide (s.nodeWords x t ≠ [] ∧ s.loadOf x t = s.loadOf x r)

/-- A destination in the plane of its virtual tile (R19): the one plane of the emitter's fabric load whose named slot holds a
node; where several do, no word says which (log 107).  `i` numbers the destinations of a node. -/
def State.settle (s : State) (x : Ctx) (r : NodeRef) (i : Nat) (d : NodeRef × Nat) : NodeRef × Nat :=
  match s.destPlanes x r d.1 with
  | [] => d
  | [p] => ({ d.1 with plane := p }, d.2)
  | ps =>
    let l := smGet noPlane s.planes ((x.first + r.cl) * 4 + r.plane)
    let k := Config.destPlane [l.1, l.2.1, r.cl, r.plane, r.pe, r.slot, d.1.cl, d.1.pe, d.1.slot, i]
    ({ d.1 with plane := ps.getD (k % ps.length) r.plane }, d.2)

/-- The number of a link word's destination among those of its node. -/
def linkIndex : Nat := 64

/-- Whether a leaf names a scale port of a block node as well as it names a data port of it (R78). -/
def State.leafBlock (s : State) (x : Ctx) (r : NodeRef) (j : Nat) (l : Leaf) : Bool :=
  match s.nodeImg x (s.settle x r j (leafDest l r)).1 with
  | some k => decide (k.head.kind = .block ∧ l.port < k.head.scales)
  | none => false

/-- Whether a node's j-th leaf lies on a scale route (R78, R79, R140): a quant's leaf to a block node may, and every leaf of a
node with a result of type code 2 or 6 if they all name block nodes.  No bit of a node's words says which (log 12). -/
def State.leafScale (s : State) (x : Ctx) (r : NodeRef) (m : NodeImg) (j : Nat) (l : Leaf) : Bool :=
  if m.isQuant then s.leafBlock x r j l && Config.scaleRoute (s.nodeWords x r) j
  else (m.last.map Instr.scaleTy).getD false && m.leaves.zipIdx.all (fun e => s.leafBlock x r e.2 e.1) && Config.scaleRoute (s.nodeWords x r) 0

/-- The node and port at which a leaf delivers: a scale route delivers to the scale ports, 4 and 5 (R46, R78). -/
def State.leafAt (s : State) (x : Ctx) (r : NodeRef) (m : NodeImg) (j : Nat) (l : Leaf) : NodeRef × Nat :=
  let d := s.settle x r j (leafDest l r)
  (d.1, if s.leafScale x r m j l then 4 + d.2 else d.2)

/-- Where every leaf of a node's route delivers. -/
def State.leavesAt (s : State) (x : Ctx) (r : NodeRef) (m : NodeImg) : List (NodeRef × Nat) :=
  m.leaves.zipIdx.map fun e => s.leafAt x r m e.2 e.1

/-- Where a node's tokens may go: the leaves of its route, and the destination of its link word. -/
def State.destsAt (s : State) (x : Ctx) (r : NodeRef) (m : NodeImg) : List (NodeRef × Nat) :=
  s.leavesAt x r m ++ (m.linkDests r).map (s.settle x r linkIndex)

/-- The key of a node of a context's region in the fabric's own stores. -/
def NodeRef.key (r : NodeRef) : Nat := nodeKey r.cl r.plane r.pe r.slot

/-! ## Frozen elements (R159, R320, R321) -/

/-- Every route of the nodes of a period: the feeding node and the port fed. -/
def State.feeds (s : State) (x : Ctx) : List (NodeRef × (NodeRef × Nat)) :=
  (s.periodRefs x).flatMap fun r => match s.nodeImg x r with
    | some m => (s.destsAt x r m).map fun d => (r, d)
    | none => []

/-- The nodes that a marker of some source reaches, from `rs` up, in at most `fuel` hops. -/
def reachFrom (fs : List (NodeRef × (NodeRef × Nat))) : Nat → List NodeRef → List NodeRef
  | 0, rs => rs
  | fuel + 1, rs =>
    let more := (fs.filter fun e => rs.contains e.1 && !rs.contains e.2.1).map (·.2.1)
    if more = [] then rs else reachFrom fs fuel (rs ++ more.dedup)

/-- The input ports of a node on which markers can arrive: those that a node reached by markers feeds (R320). -/
def State.fedPorts (s : State) (x : Ctx) (r : NodeRef) : List Nat :=
  let fs := s.feeds x
  let rs := reachFrom fs fs.length (s.sources x)
  ((fs.filter fun e => rs.contains e.1 && decide (e.2.1 = r)).map (·.2.2)).dedup

/-- Whether a marker has reached a node on every input port (R320). -/
def State.allMarked (s : State) (x : Ctx) (r : NodeRef) : Bool :=
  (s.fedPorts x r).all fun p => bit (smGet 0 x.fab.markers r.key) p

/-- Whether the gate of an inner space has released its markers (R321); a space without a gate in the period needs none. -/
def State.gatePassed (s : State) (x : Ctx) (sp : Nat) : Bool :=
  (s.periodRefs x).all fun r => match s.nodeImg x r with
    | some m => !(m.isGate && decide (m.head.space = sp)) || decide (smGet 0 x.fab.passed r.key ≠ 0)
    | none => true

/-- Whether an element of a draining region is frozen (R321): a source once it has stopped, any other once markers have
reached it on every port and, in an inner space, the space's gate has released them. -/
def State.frozen (s : State) (x : Ctx) (r : NodeRef) : Bool :=
  x.fab.draining && match s.nodeImg x r with
    | none => true
    | some m =>
      match m.head.kind with
      | .source => decide (smGet 0 x.fab.stopped r.key ≠ 0)
      | .data | .block => s.allMarked x r && (!x.isInner m.head.space || s.gatePassed x m.head.space)

/-! ## Tokens and emission (R16, R140, R150) -/

/-- The tokens that the queue of one branch of a route holds (R325; log 106). -/
def queueDepth : Nat := Config.queueExtra + 1

/-- Whether the queue of a token's branch has room in a channel list (R325). -/
def hasRoom (chan : List Tok) (t : Tok) : Bool :=
  decide ((chan.filter fun k => decide (k.src = t.src ∧ k.dest = t.dest ∧ k.port = t.port)).length < queueDepth)

/-- Each branch accepts its copies while it has room, and a branch to a frozen element every copy, which stays in its channel
(R321, R325; log 106): the channels, and the tokens not accepted. -/
def admitToks (frozen : NodeRef → Bool) : List Tok → List Tok → List Tok × List Tok
  | chan, [] => (chan, [])
  | chan, t :: ts =>
    if hasRoom chan t || frozen t.dest then admitToks frozen (chan ++ [t]) ts
    else
      let r := admitToks frozen chan ts
      (r.1, t :: r.2)

/-- Appends tokens to the channels of a context. -/
def sendToks (c : Nat) (ts : List Tok) (s : State) : State := s.modFab c fun f => { f with chan := f.chan ++ ts }

/-- A token of an emission for one destination; an inactive lane carries 0 (R17). -/
def Emission.tok (e : Emission) (r : NodeRef) (d : NodeRef × Nat) : Tok :=
  { tag := e.tag, kind := e.kind, mask := e.mask, payload := maskLanes e.mask e.lanes, dest := d.1, port := d.2, src := r,
    pred := e.pred }

/-- A token that its branch has not accepted, as an emission to that branch (R325). -/
def Tok.again (t : Tok) : Emission :=
  { out := .to t.dest t.port, tag := t.tag, kind := t.kind, mask := t.mask, lanes := t.payload, pred := t.pred }

/-- The token of an emission on a leaf of a node's route: a marker crosses every leaf, a result those of its output, a quant's
elements and forwarded scales each their own, and a result on a scale route is a scale token (R79, R140, R158, R320). -/
def State.leafTok (s : State) (x : Ctx) (r : NodeRef) (m : NodeImg) (e : Emission) (sel : Bool) (j : Nat) (l : Leaf) :
    Option Tok :=
  let scale := s.leafScale x r m j l
  if m.leafOut l ≠ sel ∨ (m.isQuant ∧ scale ≠ decide (e.kind = .scale)) then none
  else some (({ e with kind := if scale && decide (e.kind = .data) then .scale else e.kind } : Emission).tok r
    (s.leafAt x r m j l))

/-- The tokens of an emission of a node (R79, R158). -/
def State.toks (s : State) (x : Ctx) (r : NodeRef) (m : NodeImg) (e : Emission) : List Tok :=
  match e.out with
  | .route sel => m.leaves.zipIdx.filterMap fun l => s.leafTok x r m e sel l.2 l.1
  | .to d p => [e.tok r (d, p)]

/-- Removes a firing. -/
def dropFiring (c fid : Nat) (s : State) : State :=
  s.modFab c fun f => { f with firings := f.firings.filter fun g => g.id ≠ fid }

/-- Replaces a firing, by its name. -/
def setFiring (c : Nat) (g : Firing) (s : State) : State :=
  s.modFab c fun f => { f with firings := f.firings.map fun h => if h.id = g.id then g else h }

/-- Whether a firing stands in its E stage with outputs that a branch has not accepted. -/
def Firing.blocked (g : Firing) : Bool :=
  match g.phase with
  | .emit _ => true
  | _ => false

/-- Whether an emission that began earlier on a firing's route has a copy that its branch has not accepted (R325): one of the
same node, before it where it has begun itself. -/
def Fabric.routeBusy (f : Fabric) (g : Firing) : Bool :=
  (if g.blocked then f.firings.takeWhile fun h => h.id ≠ g.id else f.firings.filter fun h => h.id ≠ g.id).any fun h =>
    decide (h.ref = g.ref) && h.blocked

/-- A firing stays in its E stage with outputs still to send, behind those that came there before it. -/
def waitEmit (c : Nat) (g : Firing) (outs : List Emission) (s : State) : State :=
  let h := { g with phase := .emit outs }
  if g.blocked then setFiring c h s else (dropFiring c g.id s).modFab c fun f => { f with firings := f.firings ++ [h] }

/-- Whether the last operation is ret, which frees its tag after its output (R163). -/
def NodeImg.isRet (m : NodeImg) : Bool :=
  match m.last with
  | some (.ret _) => true
  | _ => false

/-- The last output of a firing has left: the firing is complete, but for a ret's, which has still to free its tag (R16,
R163). -/
def emitted (c : Nat) (g : Firing) (m : NodeImg) (s : State) : State :=
  if m.isRet then setFiring c { g with phase := .waitFree } s else dropFiring c g.id s

/-- The outputs of a firing leave its E stage, each copy when its branch has room (R16, R325). -/
def emitNow (c : Nat) (g : Firing) (m : NodeImg) (outs : List Emission) (s : State) : State :=
  if (s.fab c).routeBusy g then waitEmit c g outs s
  else
    let r := admitToks (s.frozen (s.ctx c)) (s.fab c).chan (outs.flatMap (s.toks (s.ctx c) g.ref m))
    let s := s.modFab c fun f => { f with chan := r.1 }
    if r.2 = [] then emitted c g m s else waitEmit c g (r.2.map Tok.again) s

/-- A data output with a tag on the node's route (R150, R152). -/
def dataOut (t : Tag) (mask : BitVec 16) (lanes : List Lane) : Emission :=
  { out := .route false, tag := t, kind := .data, mask := mask, lanes := lanes, pred := [] }

/-- The outputs of a chain that ends in a compute operation (R140, R141): the result, and after a quant its forwarded
scales, for the delivers that name scale ports. -/
def resultOuts (m : NodeImg) (g : Firing) : List Emission :=
  dataOut g.tag g.mask g.x :: if m.isQuant then [{ dataOut g.tag g.mask g.fwd with kind := .scale }] else []

/-! ## Round markers on routes (R320, R325) -/

/-- A round marker for one destination (R320). -/
def markerTok (src : NodeRef) (d : NodeRef × Nat) : Tok :=
  { tag := 0, kind := .marker, mask := 0, payload := maskLanes 0 [], dest := d.1, port := d.2, src := src, pred := [] }

/-- Round markers on every destination of a node: its routes and a gate's exit (R320). -/
def State.markersOut (s : State) (x : Ctx) (r : NodeRef) (m : NodeImg) : List Tok := (s.destsAt x r m).map (markerTok r)

/-- A node sends round markers on each of its routes: like any output each copy takes its place when its branch has room,
behind the outputs that came to the route before it, and what comes later waits behind it (R320, R325). -/
def sendMarkers (c : Nat) (r : NodeRef) (m : NodeImg) (s : State) : State :=
  let outs := (s.markersOut (s.ctx c) r m).map Tok.again
  let g : Firing := {
    id := (s.fab c).nextId, ref := r, tag := 0, ports := [], scales := [], stage := 0, x := [], mask := 0, act := 0, fwd := [],
    fl := 0, phase := .emit outs, wins := [], got := [] }
  if outs = [] then s
  else emitNow c g m outs (s.modFab c fun f => { f with nextId := f.nextId + 1, firings := f.firings ++ [g] })

/-! ## Node breakpoints (R346, R347) -/

/-- The armed node breakpoint that matches a firing after a stage: the lowest one (R347). -/
def Ctx.nodeBreak (x : Ctx) (m : NodeImg) (tag : Tag) (stage : Nat) : Option Nat :=
  (List.range 4).find? fun k =>
    let a := (smGet 0 x.nbpA k).toNat
    let b := (smGet 0 x.nbpB k).toNat
    bit a 63 && decide (bits a 29 28 = stage) && decide (bits a 27 0 = m.emit.node) &&
      decide (tag.toNat &&& bits b 63 32 = bits b 31 0 &&& bits b 63 32)

/-- A node breakpoint fires: it is disarmed, the firing is held with its outputs if it has formed them, and OP.BRK is
raised with identifier 0x400 + k in the reason field (R342, R347; log 13). -/
def nodeFreeze (c k : Nat) (g : Firing) (m : NodeImg) (outs : Option (List Emission)) (s : State) : State :=
  let s := s.modCtx c fun x => { x with nbpA := smSet 0 x.nbpA k (smGet 0 x.nbpA k &&& 0x7FFFFFFFFFFFFFFF) }
  nodeTrap c trapOpBrk (0x400 + k) (nodeTagReport m.emit.node g.tag) (setFiring c { g with phase := .held outs } s)

/-- The outputs of a firing's last stage are formed: they leave at once, unless a node breakpoint on that stage holds
them (R16, R347). -/
def finish (c : Nat) (g : Firing) (m : NodeImg) (outs : List Emission) (s : State) : State :=
  match (s.ctx c).nodeBreak m g.tag g.stage with
  | some k => nodeFreeze c k g m (some outs) s
  | none => emitNow c g m outs s

/-- The block operands of an operation that may name ports (R139). -/
def Instr.blockSels : Instr → List Sel
  | .dequant _ a _ _ _ => [a]
  | .bmul _ a b _ _ _ | .bdot _ a b _ _ _ => [a, b]
  | _ => []

/-- Whether a stage after `stage` reads a block operand, and so may raise OP.SCALE (R139). -/
def NodeImg.scaleLater (m : NodeImg) (stage : Nat) : Bool := (m.ops.drop (stage + 1)).any fun i => !(Instr.blockSels i).isEmpty

/-- A stage of a firing has executed with a result, and the firing goes to its next stage or to E (R16, R126).  Its flags are
raised, but for a firing that may still raise OP.SCALE, which merges none (R53, R128); a node breakpoint holds the firing
with the flags merged (R347). -/
def stageDone (c : Nat) (g : Firing) (m : NodeImg) (r : OpRes) (s : State) : State :=
  let fl := g.fl ||| r.fl
  let broken := ((s.ctx c).nodeBreak m g.tag g.stage).isSome
  let later := m.scaleLater g.stage && !broken
  let s := if broken then s.mergeFlags c fl else if later then s else s.raiseFlags c fl
  let g' := { g with x := r.lanes, mask := r.mask, fwd := r.fwd, fl := if later then fl else 0, wins := [] }
  if g.stage + 1 < m.ops.length then
    match (s.ctx c).nodeBreak m g.tag g.stage with
    | some k => nodeFreeze c k { g' with stage := g.stage + 1 } m none s
    | none => setFiring c { g' with stage := g.stage + 1 } s
  else finish c g' m (resultOuts m g') s

/-! ## The firing that holds the turn -/

/-- Whether the pipeline of a firing's PE is held before it (R16: firings on one PE complete in issue order): an earlier
firing is still in it, or one waits in E for a branch to accept its output. -/
def Fabric.behind (f : Fabric) (g : Firing) : Bool :=
  ((f.firings.takeWhile fun h => h.id ≠ g.id).any fun h =>
    decide (h.ref.cl = g.ref.cl ∧ h.ref.pe = g.ref.pe ∧ h.phase = .run)) ||
  f.firings.any fun h => decide (h.id ≠ g.id ∧ h.ref.cl = g.ref.cl ∧ h.ref.pe = g.ref.pe) && h.blocked

/-- The meaning of a node operation, for the firing that holds the turn: one with its outputs formed sends them, a held
one stays, one behind another of its PE waits; the operation acts for any other. -/
def asFiring (s : State) (k : Nat → Firing → NodeImg → Out) : Out :=
  match s.cur with
  | .firing c fid =>
    match (s.fab c).firings.find? fun g => g.id == fid with
    | none => .fault .noFiring
    | some g =>
      match s.nodeImg (s.ctx c) g.ref with
      | none => .fault .noFiring
      | some m =>
        match g.phase with
        | .emit outs => .next (emitNow c g m outs s)
        | .held _ => .next s
        | .run => if (s.fab c).behind g then .next s else k c g m
        | _ => k c g m
  | .none | .seq _ => .fault .noFiring

/-- A node operation raises a trap that reports its node and the firing's tag (R180, R342). -/
def trapNodeTag (c code reason : Nat) (g : Firing) (m : NodeImg) (s : State) : Out :=
  .next (nodeTrap c code reason (nodeTagReport m.emit.node g.tag) s)

/-! ## Dependences (R243, R248) -/

/-- The agent of a firing. -/
def Firing.agent (g : Firing) : Agent := .pe g.ref.cl g.ref.pe

/-- Whether a firing stands for what a dependence names: a tag-table operation or a wait that has yet to take effect (R171,
R173). -/
def Firing.pends (g : Firing) : Bool :=
  match g.phase with
  | .waitFence _ | .waitPhase _ _ => true
  | _ => false

/-- Whether a dependence of a context is met (R243, R248).  A name is an access's, a pair's or a firing's. -/
def State.depDone (s : State) (c : Nat) (d : Dep) : Bool :=
  let f := s.fab c
  let done := f.pairs.all (fun p => decide (p.id ≠ d.id)) && f.firings.all fun g => decide (g.id ≠ d.id) || !g.pends
  let gone := f.accesses.all (fun a => decide (a.id ≠ d.id)) && done
  match d.level with
  | .accepted => f.accesses.all (fun a => decide (a.id ≠ d.id) || a.accepted) && done
  | .performed => gone
  | .acked => gone && s.posted.all fun p => !decide (p.ctx = c ∧ p.acc = d.id)

/-- Whether every dependence of a list is met. -/
def State.depsDone (s : State) (c : Nat) (ds : List Dep) : Bool := ds.all (s.depDone c)

/-- The dependences that an agent's holds put on a new access (R112, R169, R174). -/
def Fabric.holdDeps (f : Fabric) (a : Agent) (writes : Bool) : List Dep :=
  f.holds.flatMap fun h => if h.agent = a ∧ (writes ∨ ¬ h.storesOnly) then h.deps else []

/-! ## Operands (R72, R73, R125, R139) -/

/-- Whether an operation quantises. -/
def Instr.isQuant : Instr → Bool
  | .quant _ _ _ _ _ => true
  | _ => false

/-- The scale ports assigned so far: the port of each data port, the quant stages, and the next free one (R139). -/
structure ScaleMap where
  ofPort : SMap Nat
  ofQuant : SMap Nat
  next : Nat
  deriving DecidableEq, Repr, Inhabited

/-- A port that a block operand names takes the next scale port, once. -/
def ScaleMap.addSel (a : ScaleMap) (s : Sel) : ScaleMap :=
  match s with
  | .port p => if smGet 0 a.ofPort p.val = 0 then { a with ofPort := smSet 0 a.ofPort p.val (a.next + 1), next := a.next + 1 }
      else a
  | .x | .hold _ | .const _ | .lane | .ord | .zero | .win => a

/-- The scale ports of the stages in chain order (R139). -/
def scaleMap (a : ScaleMap) (stage : Nat) : List Instr → ScaleMap
  | [] => a
  | i :: t =>
    let a := (Instr.blockSels i).foldl ScaleMap.addSel a
    scaleMap (if Instr.isQuant i then
      { a with ofQuant := smSet 0 a.ofQuant stage (a.next + 1), next := a.next + 1 } else a) (stage + 1) t

/-- The scale ports of a node (R139). -/
def NodeImg.scaleMap (m : NodeImg) : ScaleMap :=
  Sys2Proof.Machine.scaleMap { ofPort := [], ofQuant := [], next := 0 } 0 m.ops

/-- The payload of an operand that a firing consumed; an absent port reads 0 (R26). -/
def tokLanes (t : Option Tok) : List Lane :=
  match t with
  | some k => k.payload
  | none => []

/-- The scale operand that a scale-port number of a scale map names (0 for none). -/
def Firing.scaleLanes (g : Firing) (q : Nat) : List Lane := if q = 0 then [] else tokLanes (g.scales.getD (q - 1) none)

/-- The float type of an operation's operands. -/
def Instr.fltTy : Instr → Option FltTy
  | .addFloat t _ _ _ _ | .subFloat t _ _ _ _ | .mulFloat t _ _ _ _ | .fma t _ _ _ _ _ | .minFloat t _ _
  | .maxFloat t _ _ | .absFloat t _ | .negFloat t _ | .cmpFloat t _ _ _ | .rcp t _ _ _ | .rsqrt t _ _ _ | .sqrt t _ _ _
  | .exp2 t _ _ _ | .log2 t _ _ _ | .cvtFloatSource t _ _ _ _ | .redFloat t _ _ _ _ | .scanFloat t _ _ _ _
  | .rdcFloat t _ _ _ _ => some t
  | .quant _ _ c _ _ => some c
  | _ => none

/-- The integer type whose width and extension a window read of an operation uses (R73): that of its operands, and a 32-bit
lane for an operation without a type (log 109). -/
def Instr.winTy (i : Instr) : IntTy :=
  match Instr.intTy i, Instr.fltTy i with
  | some t, _ => t
  | none, some t => IntTy.ofCode (4 + Nat.log2 (FltTy.bytes t))
  | none, none => .n32

/-- The operand selects that a node operation reads (R72, R75, R77). -/
def Instr.sels : Instr → List Sel
  | .addInteger _ a b _ | .subInteger _ a b _ | .mulInteger _ a b _ => [a, b]
  | .mulhInteger _ a b | .minInteger _ a b | .maxInteger _ a b | .andInteger _ a b | .orInteger _ a b | .xorInteger _ a b
  | .andn _ a b | .shl _ a b | .shr _ a b | .rotl _ a b | .rotr _ a b | .cmpInteger _ a b _ => [a, b]
  | .mad _ a b c _ | .sel _ a b c => [a, b, c]
  | .negInteger _ a _ | .absInteger _ a _ | .notInteger _ a | .clz _ a | .popc _ a => [a]
  | .addFloat _ a b _ _ | .subFloat _ a b _ _ | .mulFloat _ a b _ _ | .minFloat _ a b | .maxFloat _ a b
  | .cmpFloat _ a b _ => [a, b]
  | .fma _ a b c _ _ => [a, b, c]
  | .absFloat _ a | .negFloat _ a | .rcp _ a _ _ | .rsqrt _ a _ _ | .sqrt _ a _ _ | .exp2 _ a _ _ | .log2 _ a _ _ => [a]
  | .cvtIntegerSource _ a _ _ _ | .cvtFloatSource _ a _ _ _ | .quant _ a _ _ _ | .dequant _ a _ _ _ => [a]
  | .bmul _ a b _ _ _ | .bdot _ a b _ _ _ | .bcast _ a b | .shuf _ a b => [a, b]
  | .redInteger _ a _ _ | .redFloat _ a _ _ _ | .scanInteger _ a _ _ | .scanFloat _ a _ _ _ | .rdcInteger _ a _ _
  | .rdcFloat _ a _ _ _ => [a]
  | .alloc a | .free a | .ctag a | .tagrd a | .dup a | .call a | .ret a | .lookup a | .evict a => [a]
  | .retag a b | .steer a b | .insert a b | .sendNode a b => [a, b]
  | .lds _ a _ | .ldg _ a _ | .ldacq _ a _ _ => [a]
  | .sts _ a b _ | .stg _ a b _ | .gather _ a b _ | .scatter _ a b _ | .strel _ a b _ _ => [a, b]
  | .atomIadd _ a b | .atomImin _ a b | .atomImax _ a b | .atomAnd _ a b | .atomOr _ a b | .atomXor _ a b
  | .atomXchg _ a b | .upd _ a b => [a, b]
  | .atomCas _ a b c => [a, b, c]
  | _ => []

/-- The result of reading several words: the values, a wait, or a trap. -/
inductive WinRes where
  | ok (vals : List Nat) (s : State)
  | stall (s : State)
  | bad (b : Bad) (s : State)
  deriving DecidableEq, Repr, Inhabited

/-- The die of a firing's PE. -/
def Ctx.dieAt (x : Ctx) (cl : Nat) : Nat := (x.first + cl) / 8

/-- The lanes of an operation of narrow elements that form the pair holding the lowest active lane (R165). -/
def basePair (m : BitVec 16) : List Nat :=
  match lowestLane m with
  | none => []
  | some l => [l / 2 * 2, l / 2 * 2 + 1]

/-- The elements, lanes or pairs, of the window that an operation of a firing reads under a mask (R73): the active ones, for
a conversion from lanes to pairs the even lanes of the active pairs (R138), for a 64-bit address beside narrow data the
lanes of its pair (R165), for a send's half the lanes of pair 0 (R177), and none for tagrd (R157).  A broadcast's lane number
is read in the lowest active one (R145), and a source lane of a broadcast or shuffle that the stage's mask leaves out is not read and gives 0
(log 116). -/
def Instr.winIdx (i : Instr) (m : BitVec 16) : List Nat :=
  let act := if IntTy.wide (Instr.winTy i) then activePairs m else activeLanes m
  let addr := fun (a : Sel) (b : Bool) => if IntTy.wide (Instr.winTy i) then act else
    (List.range 16).filter fun l => (decide (a = .win) && (basePair m).contains l) || (b && act.contains l)
  if !(Instr.sels i).contains .win then []
  else match i with
    | .tagrd _ => []
    | .sendNode _ _ => [0, 1]
    | .ldg _ a _ | .ldacq _ a _ _ => addr a false
    | .stg _ a b _ | .strel _ a b _ _ => addr a (decide (b = .win))
    | .gather _ a b _ => addr b (decide (a = .win))
    | .bcast _ a _ => if a = .win then act else act.take 1
    | .cvtIntegerSource t _ c _ _ => if !IntTy.wide t && CvtTy.wide c then (activePairs m).map (2 * ·) else act
    | .cvtFloatSource t _ c _ _ => if !FltTy.wide t && CvtTy.wide c then (activePairs m).map (2 * ·) else act
    | _ => act

/-- The lanes of the window elements that a firing has read, extended by the operation's type (R73, R125): a pair's element
fills its two lanes. -/
def winLanes (i : Instr) (g : Firing) : List Lane :=
  let t := Instr.winTy i
  mkLanes fun l =>
    match ((Instr.winIdx i g.mask).zip g.wins).find? fun e => e.1 == (if IntTy.wide t then l / 2 else l) with
    | none => 0
    | some e => BitVec.ofNat 32 (if IntTy.wide t && l % 2 == 1 then extendRaw t e.2 / 2 ^ 32 else extendRaw t e.2)

/-- Whether a firing has still to read an element of its window operand. -/
def winMore (i : Instr) (g : Firing) : Bool := decide (g.wins.length < (Instr.winIdx i g.mask).length)

/-- The read of the next window element of a firing (R73): its value and whether it sets win.oob, a wait, or a trap. -/
def winRead (c : Nat) (g : Firing) (m : NodeImg) (i : Instr) (s : State) : XRes :=
  let k7 := (m.consts.getD 7 0).toNat
  match (s.ctx c).window (bits k7 2 0) with
  | .error b => .bad b s
  | .ok (base, size) =>
    let n := IntTy.bytes (Instr.winTy i)
    let e := (Instr.winIdx i g.mask).getD g.wins.length 0
    readWin c (.access c g.id) ((s.ctx c).dieAt g.ref.cl) base size ((bits k7 31 8 + e) * n) n s

/-- The flags of that read: win.oob for an element at or beyond the bound whose lane or pair is active (R73). -/
def winFlags (c : Nat) (g : Firing) (m : NodeImg) (i : Instr) (s : State) : Flags :=
  let k7 := (m.consts.getD 7 0).toNat
  match (s.ctx c).window (bits k7 2 0) with
  | .error _ => fNone
  | .ok (_, size) =>
    let t := Instr.winTy i
    let e := (Instr.winIdx i g.mask).getD g.wins.length 0
    flagIf ((if IntTy.wide t then pairOn g.mask e else laneOn g.mask e) &&
      decide (size < (bits k7 31 8 + e + 1) * IntTy.bytes t)) fOob

/-- The ordinal key of a tag (R24, R48). -/
def Ctx.keyOf (x : Ctx) (t : Tag) : OrdKey := (x.tagSlot t).key

/-- The operand environment of a firing's current stage, given the window elements it reads (R125). -/
def mkEnv (s : State) (c : Nat) (g : Firing) (m : NodeImg) (win : List Lane) : OpEnv :=
  let x := s.ctx c
  let k := x.keyOf g.tag
  let sm := m.scaleMap
  { ports := (List.range 3).map fun p => tokLanes (g.ports.getD p none),
    portScales := (List.range 3).map fun p => g.scaleLanes (smGet 0 sm.ofPort p),
    quantScale := g.scaleLanes (smGet 0 sm.ofQuant g.stage), x := g.x, fwd := g.fwd, mask := g.mask,
    hold := (List.range 16).map fun h => smGet [] s.hold (((x.first + g.ref.cl) * 64 + g.ref.pe) * 16 + h),
    consts := m.consts, ordinal := k.ordinal, win := win, act := g.act,
    key := { seed := x.seed.toNat, space := k.space, ring := k.ring, ordinal := k.ordinal, node := m.emit.node,
             stage := g.stage } }

/-- A firing reads the next element of its window operand, each one an access of its own (R73, R244), behind what an acquire
or a fence holds it for (R251); a read may wait for its translation or raise a trap (R166). -/
def winStep (c : Nat) (g : Firing) (m : NodeImg) (i : Instr) (s : State) : State :=
  if !s.depsDone c ((s.fab c).holdDeps g.agent false) then s
  else match winRead c g m i s with
    | .stall s => s
    | .bad b s => nodeTrap c b.code 0 (BitVec.ofNat 64 b.report) (s.raiseFlags c g.fl)
    | .ok v s =>
      let fl := g.fl ||| winFlags c g m i s
      let later := m.scaleLater g.stage
      setFiring c { g with wins := g.wins ++ [v], fl := if later then fl else 0 } (if later then s else s.raiseFlags c fl)

/-- Reads the operands of an operation of a firing and goes on with them, once its window operand has been read (R73). -/
def withEnv (i : Instr) (s : State) (k : Nat → Firing → NodeImg → OpEnv → State → Out) : Out :=
  asFiring s fun c g m =>
    if g.phase = .run && winMore i g then .next (winStep c g m i s)
    else k c g m (mkEnv s c g m (winLanes i g)) s

/-- A compute operation of a firing (R125 to R128): it acts in the pipeline, on the operands its stage reads. -/
def compute (i : Instr) (s : State) (f : OpEnv → OpRes) : Out :=
  withEnv i s fun c g m env s =>
    if g.phase = .run then .next (stageDone c g m (f env) s) else .next s

/-- A block operation of a firing (R128, R139): a block index that differs from its scale lane's raises OP.SCALE, with no
result and no flag. -/
def computeBlock (i : Instr) (s : State) (okScale : OpEnv → Bool) (f : OpEnv → OpRes) : Out :=
  withEnv i s fun c g m env s =>
    if g.phase ≠ .run then .next s
    else if okScale env then .next (stageDone c g m (f env) s)
    else trapNodeTag c trapOpScale 0 g m s

end Sys2Proof.Machine
end

