-- ==== Sys2Proof/Machine/Check.lean ====
section
/-! DEFINITION. The legality of a configuration image: what a node's words must satisfy beyond the decoding of each word
(R72, R76, R77, R80, R127, R139, R140, R148, R149, R152, R168, R363), and the reading of an image (R290 to R292). -/

namespace Sys2Proof.Machine

open Sys2Proof

/-- Whether an operation may stand before the last stage: opcodes 0x00 to 0x55 (R76). -/
def Instr.computes (i : Instr) : Bool :=
  match encodeNode i with
  | some w => decide (w / 2 ^ 24 ≤ 0x55)
  | none => false

/-- Whether an operation needs a block node (R76). -/
def Instr.blockOp : Instr → Bool
  | .quant _ _ _ _ _ | .dequant _ _ _ _ _ | .bmul _ _ _ _ _ _ | .bdot _ _ _ _ _ _ => true
  | _ => false

/-- Whether an operation produces a tag, so that tagsel 1 is legal, and whether tagsel 2 is (R74, R152): retag, alloc and
call take 1, free and ctag 1 and 2. -/
def Instr.tagsels : Instr → List Nat
  | .alloc _ | .retag _ _ | .call _ => [0, 1]
  | .free _ => [1, 2]
  | .ctag _ => [0, 1, 2]
  | _ => [0]

/-- Whether an operation reads the link word (R149). -/
def Instr.links : Instr → Bool
  | .alloc _ | .call _ | .gate | .upd _ _ _ => true
  | _ => false

/-- Whether a link word's fields are those its operation uses, the others zero (R149). -/
def linkLegal (i : Instr) (w : Nat) : Bool :=
  match i with
  | .alloc _ => decide (w % 2 ^ 24 = 0)
  | .call _ => (decodeLink (w % 2 ^ 24)).isSome
  | .gate => decide (w / 2 ^ 24 = 0) && (decodeLink w).isSome
  | .upd _ _ _ => decide (w / 16 = 0)
  | _ => true

/-- Whether an operation uses a feature that cfg refuses when it is masked (R283, R363): fp64, tagtab, scan, bx23. -/
def Instr.uses (i : Instr) (f : Nat) : Bool :=
  match f with
  | 0 => IntTy.wide (Instr.winTy i) || (match i with
      | .cvtIntegerSource _ _ (.flt .f64) _ _ | .cvtFloatSource _ _ (.flt .f64) _ _ | .dequant _ _ .f64 _ _
      | .cvtIntegerSource _ _ (.int .i64) _ _ | .cvtFloatSource _ _ (.int .i64) _ _
      | .cvtIntegerSource _ _ (.int .n64) _ _ | .cvtFloatSource _ _ (.int .n64) _ _ => true
      | _ => false)
  | 6 => match i with
      | .lookup _ | .insert _ _ | .evict _ => true
      | _ => false
  | 7 => match i with
      | .scanInteger _ _ _ _ | .scanFloat _ _ _ _ _ => true
      | _ => false
  | 9 => match i with
      | .quant t _ _ _ _ | .dequant t _ _ _ _ => decide (t = .bx2 ∨ t = .bx3)
      | .bmul t _ _ c _ _ | .bdot t _ _ c _ _ => decide (t = .bx2 ∨ t = .bx3 ∨ c = .bx2 ∨ c = .bx3)
      | _ => false
  | _ => false

/-- Whether an operand select is legal at a stage (R72, R168): a port below the inputs and not the ordering port, x only
in X2 and X3. -/
def selLegal (h : HeadWord) (ordPort : Option Nat) (stage : Nat) (s : Sel) : Bool :=
  match s with
  | .port p => decide (p.val < h.inputs) && decide (some p.val ≠ ordPort)
  | .x => decide (0 < stage)
  | .hold _ | .const _ | .lane | .ord | .zero | .win => true

/-- Whether the block operands of an operation are legal: one read from x needs a quant in the stage before (R139). -/
def blockLegal (prev : Option Instr) (i : Instr) : Bool :=
  (Instr.blockSels i).all fun s => match s with
    | .x => (prev.map Instr.isQuant).getD false
    | _ => true

/-- Whether an operation of a chain stands where R72, R76, R77, R139 and R363 allow it. -/
def opLegal (s : State) (m : NodeImg) (stage : Nat) (prev : Option Instr) (i : Instr) : Bool :=
  let last := decide (stage + 1 = m.ops.length)
  (Instr.sels i).all (selLegal m.head m.ordPort stage) && (Instr.computes i || last) && blockLegal prev i &&
    (!Instr.blockOp i || decide (m.head.kind = .block)) &&
    (match m.head.rule, i with
      | .merge, .merge => decide (m.ops.length = 1)
      | .merge, _ => false
      | .gate, .gate => decide (m.ops.length = 1) && decide (2 ≤ m.head.inputs)
      | .gate, _ => false
      | .strict, .merge | .strict, .gate => false
      | .strict, _ => true) &&
    (!Instr.links i || m.head.kmask.getLsbD 6) &&
    [0, 6, 7, 9].all (fun f => !(s.masked f && Instr.uses i f))

/-- The stage of the first operation that is not legal. -/
def badOp (s : State) (m : NodeImg) (stage : Nat) (prev : Option Instr) : List Instr → Option Nat
  | [] => none
  | i :: t => if opLegal s m stage prev i then badOp s m (stage + 1) (some i) t else some stage

/-- Whether a head fits its chain (R69, R139): a block node holds a block operation and as many scale ports as its chain
assigns. -/
def headLegal (m : NodeImg) : Bool :=
  match m.head.kind with
  | .block => m.ops.any Instr.blockOp && decide (m.scaleMap.next = m.head.scales)
  | .data | .source => true

/-- Whether the tag select and the switch words fit the last operation (R74, R152, R163). -/
def emitLegal (m : NodeImg) : Bool :=
  match m.last with
  | none => false
  | some i =>
    if m.head.switches = 0 then decide (m.emit.tagsel = 0)
    else (Instr.tagsels i).contains m.emit.tagsel && (match i with | .ret _ => false | _ => true)

/-- The constant that is not legal: the link word k6 of an operation that reads it, or the window word k7 (R73, R149). -/
def badConst (m : NodeImg) : Option Nat :=
  if m.ops.any fun i => !linkLegal i m.link then some 6
  else if m.ops.any fun i => (Instr.sels i).contains .win && decide (bits (m.consts.getD 7 0).toNat 7 3 ≠ 0) then some 7
  else none

/-- The first leaf of a route that carries an output its node does not have (R77, R78): output 1 is a steer's. -/
def badLeaf (m : NodeImg) : Option Nat := m.leaves.findIdx? fun l => l.sel && !m.leafOut l

/-- The first of a node's half words at which its route is refused (R78, R79): an illegal word, one that may not stand there,
or the last one of a route that runs out. -/
def routeFault (i : Nat) : List Nat → RouteWork → Option Nat
  | [], [] => none
  | [], _ :: _ => some (i - 1)
  | _ :: _, [] => some i
  | w :: t, (hs, f) :: r =>
    match decodeSwitch w, f with
    | none, _ | some (.hop _ _), some _ | some (.far _ _ _), some _ | some (.fan _), some _ => some i
    | some (.hop d c), none => routeFault (i + 1) t ((hs ++ [(d, c)], none) :: r)
    | some (.far d c p), none => routeFault (i + 1) t ((hs, some (d, c, p)) :: r)
    | some (.fan n), none => routeFault (i + 1) t (List.replicate n (hs, none) ++ r)
    | some (.deliver _ _ _), _ => routeFault (i + 1) t r

/-- The half word at which the k-th deliver of a route stands. -/
def deliverAt (k : Nat) (hs : List Nat) : Nat :=
  ((hs.zipIdx.filter fun w => decide (bits w.1 15 14 = 1)).map Prod.snd).getD k 0

/-- The index of constant j's word in a node's words, from its head (R68). -/
def constWord (h : HeadWord) (j : Nat) : Nat := 2 + h.stages + popBits 8 (h.kmask.toNat % 2 ^ j)

/-- The index of the word that holds a half word of a node's route, from its head (R68). -/
def routeWord (h : HeadWord) (k : Nat) : Nat := 2 + h.stages + popBits 8 h.kmask.toNat + k / 2

/-- The switch half words of a node's words. -/
def nodeHalves (h : HeadWord) (ws : List Nat) : List Nat := (halves (ws.drop (routeWord h 0))).take h.switches

/-- The index of the first word of a node that is not legal, from its head (R80). -/
def nodeBad (s : State) (ws : List Nat) : Option Nat :=
  match ws with
  | [] => some 0
  | w :: t =>
    match decodeHead w with
    | none => some 0
    | some h =>
      if t.length ≠ headWords h then some 0
      else match (List.range h.stages).find? fun i => (opOf (t.getD i 0)).isNone with
        | some i => some (1 + i)
        | none =>
          if (decodeEmit (t.getD h.stages 0)).isNone then some (1 + h.stages)
          else match parseNode ws with
            | none => some (routeWord h ((routeFault 0 (nodeHalves h ws) [([], none)]).getD 0))
            | some m =>
              if !headLegal m then some 0
              else match badOp s m 0 none m.ops with
                | some i => some (1 + i)
                | none =>
                  if !emitLegal m then some (1 + h.stages)
                  else match badConst m, badLeaf m with
                    | some j, _ => some (constWord h j)
                    | none, some l => some (routeWord h (deliverAt l (nodeHalves h ws)))
                    | none, none =>
                      if h.switches % 2 = 1 ∧ (ws.getLastD 0) / 2 ^ 16 ≠ 0 then some (routeWord h h.switches) else none

/-! ## Configuration images (R290 to R292) -/

/-- The records of an image read so far: node words by node key with relative clusters, hold lanes by register, and the
word offset in the image at which each node's words begin. -/
structure ImgData where
  nodes : SMap (List Nat)
  holds : SMap (List Lane)
  offs : SMap Nat
  deriving DecidableEq, Repr, Inhabited

/-- Reads the records of one part (R291, R292), for relative cluster `cl`, plane `plane` and the part's word offset `base`: the data so far, or the
offset in the part of the faulty word. -/
def parseRecs (s : State) (cl plane base : Nat) : Nat → Nat → List Nat → ImgData → Except Nat ImgData
  | 0, off, _, _ => .error off
  | _ + 1, off, [], _ => .error off
  | fuel + 1, off, w :: t, d =>
    let pe := bits w 21 16
    let n := bits w 7 0
    if bits w 29 22 ≠ 0 ∨ bit w 15 then .error off
    else match bits w 31 30 with
      | 0 =>
        let key := nodeKey cl plane pe (bits w 14 8)
        if t.length < n ∨ n = 0 ∨ (smGet [] d.nodes key) ≠ [] then .error off
        else match nodeBad s (t.take n) with
          | some i => .error (off + 1 + i)
          | none => parseRecs s cl plane base fuel (off + 1 + n) (t.drop n)
              { d with nodes := smSet [] d.nodes key (t.take n), offs := smSet 0 d.offs key (base + off + 1) }
      | 1 =>
        let key := (cl * 64 + pe) * 16 + bits w 11 8
        if bits w 14 12 ≠ 0 ∨ n ≠ 16 ∨ t.length < 16 ∨ (smGet [] d.holds key) ≠ [] then .error off
        else parseRecs s cl plane base fuel (off + 17) (t.drop 16)
          { d with holds := smSet [] d.holds key ((t.take 16).map (BitVec.ofNat 32)) }
      | 2 => if w ≠ 0x80000000 then .error off else if t = [] then .ok d else .error (off + 1)
      | _ => .error off

/-- Reads `n` 32-bit words at a virtual address of a context, for its sequencer or the scheduler (R104, R317). -/
def readWords (c : Nat) (who : MissWho) (die : Nat) : Nat → Nat → State → WinRes
  | _, 0, s => .ok [] s
  | va, n + 1, s =>
    match readVa c who die va 4 s with
    | .stall s => .stall s
    | .bad b s => .bad b s
    | .ok v s =>
      match readWords c who die (va + 4) n s with
      | .ok vs s => .ok (v :: vs) s
      | .stall s => .stall s
      | .bad b s => .bad b s

/-- The result of reading the parts of an image: its data, a wait, a trap of a read, or the offset in the image of the
faulty word. -/
inductive PartRes where
  | ok (d : ImgData) (s : State)
  | stall (s : State)
  | bad (b : Bad) (s : State)
  | ill (word : Nat) (s : State)
  deriving DecidableEq, Repr, Inhabited

/-- Reads the parts of an image in the order of its descriptors (R290, R291): `descs` gives each part's index, byte
offset, word count and its descriptor's own legality. -/
def readParts (c : Nat) (who : MissWho) (die va f plane : Nat) : List (Nat × Nat × Nat × Bool) → ImgData → State → PartRes
  | [], d, s => .ok d s
  | (i, off, w, legal) :: t, d, s =>
    if !legal then .ill (16 + 4 * i) s
    else if w = 0 then readParts c who die va f plane t d s
    else match readWords c who die (va + off) w s with
      | .stall s => .stall s
      | .bad b s => .bad b s
      | .ok ws s =>
        match parseRecs s (i / f) (plane + i % f) (off / 4) (w + 1) 0 ws d with
        | .error o => .ill (off / 4 + o) s
        | .ok d => readParts c who die va f plane t d s

/-- The descriptors of an image from its words (R290): index, offset, word count, legality. -/
def descsOf (i : Nat) : List Nat → List (Nat × Nat × Nat × Bool)
  | o :: w :: a :: b :: t => (i, o, w, decide (o % 4 = 0 ∧ a = 0 ∧ b = 0)) :: descsOf (i + 1) t
  | _ => []

/-- Whether a destination names a node of the image in some plane, in a cluster below its cluster count (R19, R292). -/
def destLegal (d : ImgData) (c : Nat) (r : NodeRef) : Bool :=
  decide (r.cl < c) && (List.range 4).any fun p => decide (smGet [] d.nodes (nodeKey r.cl p r.pe r.slot) ≠ [])

/-- The word of a node, from its head, whose destination is no node of the image (R292): its link word, or the word of its
first such deliver. -/
def destFault (d : ImgData) (c key : Nat) (ws : List Nat) : Option Nat :=
  match parseNode ws with
  | none => some 0
  | some m =>
    if (m.linkDests (keyRef 0 key)).any fun e => !destLegal d c e.1 then some (constWord m.head 6)
    else ((m.dests (keyRef 0 key)).findIdx? fun e => !destLegal d c e.1).map fun l =>
      routeWord m.head (deliverAt l (nodeHalves m.head ws))

end Sys2Proof.Machine
end

