-- ==== Sys2Proof/Machine/Order.lean ====
section
/-! DEFINITION. Ordering between agents: scopes (R246 to R248), dependences on earlier accesses (R168, R169, R251), and
barriers (R256 to R258, R379). -/

namespace Sys2Proof.Machine

open Sys2Proof

/-! ## Scopes (R246, R248) -/

/-- Whether an entry g5 to g31 has no PE of the region as a member (R246). -/
def Ctx.scopeEmpty (x : Ctx) (g : Nat) : Bool :=
  decide (5 ≤ g) && (decide (smGet 0 x.pm g = 0) ||
    (List.range 64).all fun c => !(bit (smGet 0 x.cm g).toNat c && x.inNominal c))

/-- What an access must have reached to be performed at a scope (R248). -/
def Ctx.scopeLevel (x : Ctx) (g : Nat) : Level :=
  if g = 0 ∨ x.scopeEmpty g then .accepted else if bit x.sys.toNat g then .acked else .performed

/-- Whether PE `pe` of relative cluster `cl` is a member of an entry g5 to g31 (R246). -/
def Ctx.scopePe (x : Ctx) (g cl pe : Nat) : Bool :=
  bit (smGet 0 x.cm g).toNat (x.base + cl) && bit (smGet 0 x.pm g).toNat pe

/-- Whether the sequencer is a member of an entry g5 to g31: it holds a PE of the sequencer's cluster (R247). -/
def Ctx.scopeSeq (x : Ctx) (g : Nat) : Bool :=
  bit (smGet 0 x.cm g).toNat x.base && decide (smGet 0 x.pm g ≠ 0)

/-! ## Dependences -/

/-- Whether an operation acts on a tag table (R171). -/
def Instr.tagTable : Instr → Bool
  | .lookup _ | .insert _ _ | .evict _ => true
  | _ => false

/-- The tag-table operations of an agent that have not yet acted: for ordering they count as scratchpad atomics (R171). -/
def State.tagWaits (s : State) (c : Nat) (a : Agent) : List Firing :=
  (s.fab c).firings.filter fun g => decide (g.agent = a) && g.pends && match s.nodeImg (s.ctx c) g.ref with
    | some m => m.ops.any Instr.tagTable
    | none => false

/-- Dependences on every pending access, pair and tag-table operation of an agent that `p` selects, at a level; with
acknowledgements, on every posted store of the context too (R171, R248). -/
def State.agentDeps (s : State) (c : Nat) (a : Agent) (l : Level) (p : AccOp → Bool) : List Dep :=
  let f := s.fab c
  (f.accesses.filter fun x => decide (x.agent = a) && p x.op).map (fun x => { id := x.id, level := l }) ++
    (f.pairs.filter fun x => decide (x.agent = a)).map (fun x => { id := x.id, level := l }) ++
    (s.tagWaits c a).map (fun x => { id := x.id, level := l }) ++
    (if l = .acked then (s.posted.filter fun x => decide (x.ctx = c)).map (fun x => { id := x.acc, level := .acked })
     else [])

/-- Whether an access is a load (R174). -/
def AccOp.isLoad : AccOp → Bool
  | .load => true
  | .store _ | .atomic _ _ _ _ => false

/-- Whether an access writes. -/
def AccOp.writes : AccOp → Bool
  | .load => false
  | .store _ | .atomic _ _ _ _ => true

/-- Whether an access returns a value: a load or an atomic. -/
def AccOp.returns : AccOp → Bool
  | .store _ => false
  | .load | .atomic _ _ _ _ => true

/-- The holds that still wait for something. -/
def pruneHolds (c : Nat) (s : State) : State :=
  s.modFab c fun f => { f with holds := f.holds.filter fun h => !s.depsDone c h.deps }

/-! ## Barriers (R256, R257, R379) -/

/-- An instance of a barrier that has no participant. -/
def BarInst.none : BarInst := { parts := [], phase := 0, arrived := [] }

/-- The number of an agent among a region's agents: PE `pe` of relative cluster `cl`, and 4,096 for the sequencer. -/
def Agent.index : Agent → Nat
  | .pe cl p => cl * 64 + p
  | .seq => 4096
  | .eng _ => 4097

/-- The relative cluster of an agent's number; the sequencer stands in the first (R14). -/
def agentCl (a : Nat) : Nat := if 4096 ≤ a then 0 else a / 64

/-- The instance of barrier `n` that an agent belongs to (R379). -/
def barInst (n a : Nat) : Nat :=
  n * 8192 + (match n % 32 with
    | 0 => a
    | 1 => agentCl a
    | 2 => agentCl a / 8
    | _ => 0)

/-- Whether an arrive-holder is a participant of its instance (R256, R379). -/
def Ctx.barMember (x : Ctx) (n a : Nat) : Bool :=
  let g := n % 32
  decide (g < 5) || (if 4096 ≤ a then x.scopeSeq g else x.scopePe g (a / 64) (a % 64))

/-- The instances of a launch, from the arrive-holders of the graph by barrier and agent (R256). -/
def Ctx.barsOf (x : Ctx) (holders : List (Nat × Nat)) : SMap BarInst :=
  holders.foldl (fun m h =>
    if x.barMember h.1 h.2 then
      let i := barInst h.1 h.2
      let b := smGet BarInst.none m i
      if b.parts.contains h.2 then m else smSet BarInst.none m i { b with parts := b.parts ++ [h.2] }
    else m) []

/-- An instance of a context. -/
def Fabric.bar (f : Fabric) (i : Nat) : BarInst := smGet BarInst.none f.bars i

/-- The phases of an instance that an agent has joined. -/
def Fabric.joinedOf (f : Fabric) (a i : Nat) : Nat := smGet 0 f.joined (a * 2 ^ 21 + i)

/-- The phases of an instance whose completion a cluster has seen (R257); a cluster without a participant reads the
instance itself (R379). -/
def Fabric.seenOf (f : Fabric) (cl i : Nat) : Nat :=
  if (f.bar i).parts.any fun a => decide (agentCl a = cl) then smGet 0 f.seen (cl * 2 ^ 21 + i) else (f.bar i).phase

/-- What an arrive finds (R111, R173, R379): it waits for its previous phase, it is recorded in none, or it joins. -/
inductive ArriveRes where
  | wait
  | outside (deps : List Dep)
  | joins (s : State)
  deriving DecidableEq, Repr, Inhabited

/-- An arrive of an agent on barrier `n`: its release waits for every earlier access of the agent at the barrier's scope,
before its message is recorded (R257, R258). -/
def arriveAt (c n : Nat) (a : Agent) (s : State) : ArriveRes :=
  let f := s.fab c
  let i := barInst n a.index
  let deps := s.agentDeps c a ((s.ctx c).scopeLevel (n % 32)) fun _ => true
  if !(f.bar i).parts.contains a.index then .outside deps
  else if f.seenOf (agentCl a.index) i < f.joinedOf a.index i then .wait
  else .joins (s.modFab c fun f => { f with
    joined := smSet 0 f.joined (a.index * 2 ^ 21 + i) (f.joinedOf a.index i + 1),
    arrives := f.arrives ++ [{ inst := i, agent := a.index, deps := deps }] })

/-- The instance and the number of phases that a wait needs (R111, R173, R379): the agent's latest arrive's, or the phase
in progress.  An arrive that is still held for its previous phase is not yet recorded, and so not the latest (log 123). -/
def waitTarget (c n : Nat) (a : Agent) (s : State) : Nat × Nat :=
  let f := s.fab c
  let i := barInst n a.index
  let j := f.joinedOf a.index i
  (i, if (f.bar i).parts.contains a.index ∧ j ≠ 0 then j else (f.bar i).phase + 1)

/-- Whether a wait is released (R257). -/
def released (c : Nat) (a : Agent) (i target : Nat) (s : State) : Bool :=
  decide (target ≤ (s.fab c).seenOf (agentCl a.index) i)

/-- An arrive message is recorded (R257): the last one completes the phase, and a message goes to each cluster that holds
a participant. -/
def recordArrival (m : ArriveMsg) (f : Fabric) : Fabric :=
  let b := f.bar m.inst
  let arrived := if b.arrived.contains m.agent then b.arrived else b.arrived ++ [m.agent]
  if b.parts.all fun a => arrived.contains a then
    { f with
      bars := smSet BarInst.none f.bars m.inst { b with phase := b.phase + 1, arrived := [] },
      phases := f.phases ++ ((b.parts.map agentCl).dedup.map fun cl => { inst := m.inst, cl := cl, phase := b.phase + 1 }) }
  else { f with bars := smSet BarInst.none f.bars m.inst { b with arrived := arrived } }

/-- BARRIER_ARRIVAL_RECORD: the k-th arrive message of a context reaches its home block, once its release is complete
(R257, R258). -/
def execBarrierArrivalRecord (c : CtxId) (k : Nat) (s : State) : Out :=
  let f := s.fab c.val
  match f.arrives[k]? with
  | none => .next s
  | some m =>
    if (s.ctx c.val).live && s.depsDone c.val m.deps then
      .next (s.modFab c.val fun f => recordArrival m { f with arrives := f.arrives.eraseIdx k })
    else .next s

/-- PHASE_COMPLETION: the k-th phase message of a context reaches its cluster, whose held waits it releases (R257). -/
def execPhaseCompletion (c : CtxId) (k : Nat) (s : State) : Out :=
  match (s.fab c.val).phases[k]? with
  | none => .next s
  | some m =>
    if (s.ctx c.val).live then
      .next (s.modFab c.val fun f =>
        let key := m.cl * 2 ^ 21 + m.inst
        { f with phases := f.phases.eraseIdx k, seen := smSet 0 f.seen key (max (smGet 0 f.seen key) m.phase) })
    else .next s

end Sys2Proof.Machine
end

