-- ==== Sys2Proof/Machine/Sorter.lean ====
section
/-! DEFINITION. The sorters: the acceptance of update pairs, spill and compaction (R210 to R213), and applies (R209, R215 to
R218). -/

namespace Sys2Proof.Machine

open Sys2Proof

/-! ## Applies of whole bindings (R118, R124, R211, R218) -/

/-- The lines of a binding on a stack that hold completed records. -/
def doneLines (c h stack : Nat) (rs : List Rec) : List Nat :=
  ((rs.filter fun r => decide (r.ctx = c ∧ r.handle = h ∧ r.stack = stack) && !r.current).map (·.offset / 64)).dedup

/-- The most lines that an apply on one sorter writes without leave (R218). -/
def leaveLines : Nat := 4096

/-- Starts the apply of bindings, which asks for leave where one sorter will write more than 4,096 lines (R218). -/
def startApply (c : Nat) (hs : List Nat) (why : ApplyWhy) (s : State) : State :=
  let waits := hs.flatMap fun h => ((List.range 16).filter fun st =>
    decide (leaveLines < (doneLines c h st s.recs).length)).map fun st => h * 16 + st
  let s := waits.foldl (fun s k =>
    let d := k % 16 % 8
    s.setGov d ((s.gov d).ask s.cycles (.sorter c (k / 16) (k % 16)))) s
  s.modCtx c fun x => { x with apply := some { handles := hs, why := why, waits := waits, leave := [] } }

/-- The binding of a handle of a context. -/
def Ctx.binding (x : Ctx) (h : Nat) : Option Binding := smGet none x.bindings h

/-- The bound handles of a context, ascending. -/
def Ctx.boundHandles (x : Ctx) : List Nat := (List.range 16).filter fun h => (x.binding h).isSome

/-- Applies listed lines of a binding. -/
def applyLines (r : BoundRef) : List Nat → State → XRes
  | [], s => .ok 0 s
  | l :: t, s => (applyLine r l s).bind fun _ s => applyLines r t s

/-- Applies every completed record of a binding, stack by stack. -/
def applyStacks (r : BoundRef) : List Nat → State → XRes
  | [], s => .ok 0 s
  | st :: t, s =>
    (mergeRuns r.ctx r.handle st mergeFuel s).bind fun _ s =>
      (applyLines r (doneLines r.ctx r.handle st s.recs) s).bind fun _ s => applyStacks r t s

/-- Applies every completed record of listed bindings of a context. -/
def applyBindings (c : Nat) : List Nat → State → XRes
  | [], s => .ok 0 s
  | h :: t, s =>
    match (s.ctx c).binding h with
    | none => applyBindings c t s
    | some b => (applyStacks { ctx := c, handle := h, b := b } (List.range 16) s).bind fun _ s => applyBindings c t s

/-- Releases bindings: their records are gone and their handles are free (R209). -/
def releaseBindings (c : Nat) (hs : List Nat) (s : State) : State :=
  { s with recs := s.recs.filter fun r => !(decide (r.ctx = c) && hs.contains r.handle) }.modCtx c fun x =>
    { x with bindings := hs.foldl (fun m h => smSet none m h none) x.bindings }

/-- What the apply of a context does next: the first sorter that holds leave applies its binding's records, as handle × 16 +
stack; where none holds or awaits leave, every other sorter does. -/
def applyNext (c : Nat) (a : Apply) (s : State) : XRes :=
  match a.leave with
  | k :: _ => match (s.ctx c).binding (k / 16) with
    | some b => applyStacks { ctx := c, handle := k / 16, b := b } [k % 16] s
    | none => .ok 0 s
  | [] => applyBindings c a.handles s

/-- APPLY_COMPLETION: sorters finish their part of the apply that uflush, unbind, done or a period-count wrap started: one that
holds leave gives it back as its own apply completes, and when all have finished the waiting instruction may retire (R215,
R216, R218, R367). -/
def execApplyCompletion (c : CtxId) (s : State) : Out :=
  match (s.ctx c.val).apply with
  | none => .next s
  | some a =>
    if (a.leave = [] ∧ a.waits ≠ []) ∨ (s.ctx c.val).st = .suspended ∨ (s.ctx c.val).st = .queued then .next s
    else match applyNext c.val a s with
      | .stall s => .next s
      | .bad b s => .next (seqTrap c.val b.code 0 (s.seq c.val).addr (BitVec.ofNat 64 b.report) s)
      | .ok _ s => match a.leave with
      | k :: rest => .next ((returnLeave [k] s).modCtx c.val fun x => { x with apply := some { a with leave := rest } })
      | [] =>
        let s := s.modCtx c.val fun x => { x with apply := none }
        .next (match a.why with
          | .unbind | .done => releaseBindings c.val a.handles s
          | .flush | .wrap => s)

/-- SORTER_APPLY: a sorter applies completed records of a binding to free bin SRAM, at most the lines that need no leave
(R212, R216, R218). -/
def execSorterApply (c : CtxId) (h : Fin 16) (stack : Fin 16) (s : State) : Out :=
  match (s.ctx c.val).binding h.val with
  | none => .next s
  | some b =>
    match applyLines { ctx := c.val, handle := h.val, b := b } ((doneLines c.val h.val stack.val s.recs).take leaveLines)
        s with
    | .ok _ s => .next s
    | .stall s => .next s
    | .bad e s => .next (ctxTrap c.val e s)

/-! ## Acceptance of a pair (R210 to R213) -/

/-- The records of a stack's bin SRAM (R212). -/
def sramRecords : Nat := 262144

/-- A binding's records on a stack: those in bin SRAM, or those in runs of its spill share. -/
def bindingRecs (c h stack : Nat) (spilled : Bool) (rs : List Rec) : List Rec :=
  rs.filter (isBindingRec c h stack spilled)

/-- The records that a sorter's share of a spill area holds (R212). -/
def Binding.shareRecords (b : Binding) : Nat := b.spillsize * 128

/-- The virtual address of a record's place in a stack's share of a spill area: the 2 KiB granules homed on it, in
order (R212). -/
def Binding.spillAddr (b : Binding) (stack slot : Nat) : Nat :=
  b.spill + slot / 128 * 2 ^ 16 + slot / 64 % 2 * 2 ^ 15 + stack * 2 ^ 11 + slot % 64 * 32

/-- Writes `n` records of a run into the share, from place `slot` up (R212); the bytes read as the zeros that the release
of the binding leaves there. -/
def writeRun (c h : Nat) (b : Binding) (stack : Nat) : Nat → Nat → State → XRes
  | _, 0, s => .ok 0 s
  | slot, n + 1, s =>
    match b.toIa (b.spillAddr stack slot) with
    | none => .ok 0 s
    | some ia => (writeIa (.sorter c h) ia 8 0 s).bind fun _ s =>
        (writeIa (.sorter c h) (ia + 8) 8 0 s).bind fun _ s => (writeIa (.sorter c h) (ia + 16) 8 0 s).bind fun _ s =>
          (writeIa (.sorter c h) (ia + 24) 8 0 s).bind fun _ s => writeRun c h b stack (slot + 1) n s

/-- Counts records written to the spill area, at 32 bytes each (R221). -/
def countSpill (c h n : Nat) (s : State) : State :=
  s.modCtx c fun x => { x with updSpill := smSet 0 x.updSpill h (smGet 0 x.updSpill h + BitVec.ofNat 64 (32 * n)) }.count
    statSpill (32 * n)

/-- The next run's number on a stack. -/
def nextRun (c h stack : Nat) (rs : List Rec) : Nat := (runsOf c h stack rs).foldl max 0 + 1

/-- Combines an element's records into one, with the fold of their values and the highest key (R213). -/
def combine (b : Binding) (rs : List Rec) : Option (Rec × Flags) :=
  match rs.mergeSort recLe with
  | [] => none
  | r :: t =>
    let v := t.foldl (fun a x => let y := updOp b.op b.type a.val x.value; { val := y.val, fl := a.fl ||| y.fl })
      (quiet r.value)
    let top := (r :: t).getLastD r
    some ({ top with value := v.val, current := (r :: t).any (·.current), run := 1, err := 0 }, v.fl)

/-- Compaction of a binding's share on a stack (R213, R220): the pair waits for fadd, or where every element has one
record. -/
def compact (c h stack : Nat) (b : Binding) (s : State) : XRes :=
  (readRecs (isBindingRec c h stack true) s).bind fun _ s =>
  let rs := bindingRecs c h stack true s.recs
  let offs := (rs.map (·.offset)).dedup
  if b.op = 6 ∨ offs.length = rs.length then .stall s
  else
    let cs := offs.filterMap fun o => combine b (rs.filter fun r => decide (r.offset = o))
    let s := { s with recs := (s.recs.filter fun r => !rs.contains r) ++ cs.map Prod.fst }
    .ok 0 ((s.modCtx c fun x =>
      { x with updMerge := smSet 0 x.updMerge h (smGet 0 x.updMerge h + 1) }.count statMerge 1).mergeFlags c
      (cs.foldl (fun f x => f ||| x.2) fNone))

/-- A record of an arriving pair. -/
def Pair.record (p : Pair) (c stack period run : Nat) : Rec :=
  { ctx := c, handle := p.handle, stack := stack, offset := p.offset, value := p.value, period := period, key := p.key,
    node := p.node, lane := p.lane, run := run, current := true, err := 0 }

/-- Whether one record's key is below another's (R212). -/
def keyLe (a b : Rec) : Bool :=
  lexLe [a.period, a.key.space, a.key.ring, a.key.ordinal, a.node, a.lane] [b.period, b.key.space, b.key.ring, b.key.ordinal,
    b.node, b.lane]

/-- The places, among all records, of the `n` records of a binding in a stack's bin SRAM with the lowest keys (R212). -/
def lowestRecs (c h stack n : Nat) (rs : List Rec) : List Nat :=
  (((rs.zipIdx.filter fun r => isBindingRec c h stack false r.1).mergeSort fun a b => keyLe a.1 b.1).take n).map Prod.snd

/-- A sorter with a full bin SRAM finds room for a pair in its binding's own share (R212, R220), or waits. -/
def spillPair (c : Nat) (b : Binding) (p : Pair) (stack period : Nat) (s : State) : XRes :=
  let h := p.handle
  let used := (bindingRecs c h stack true s.recs).length
  let room := b.shareRecords - used
  if room = 0 then .stall s
  else (readRecs (isBindingRec c h stack false) s).bind fun _ s =>
    let out := lowestRecs c h stack room s.recs
    let n := if out = [] then 1 else out.length
    let run := nextRun c h stack s.recs
    (writeRun c h b stack used n s).bind fun _ s =>
      let s := countSpill c h n s
      .ok 1 { s with recs := (s.recs.zipIdx.map fun r => if out.contains r.2 then { r.1 with run := run } else r.1) ++
        [p.record c stack period (if out = [] then run else 0)] }

/-- A sorter accepts a pair, spilling or compacting where its bin SRAM is full (R210 to R213). -/
def acceptPair (c : Nat) (b : Binding) (p : Pair) (stack : Nat) (s : State) : XRes :=
  let period := b.period - 1
  if (s.recs.filter fun r => decide (r.stack = stack ∧ r.run = 0)).length < sramRecords then
    .ok 1 { s with recs := s.recs ++ [p.record c stack period 0] }
  else if (bindingRecs c p.handle stack true s.recs).length < b.shareRecords then spillPair c b p stack period s
  else (compact c p.handle stack b s).bind fun _ s => spillPair c b p stack period s

/-- PAIR_ACCEPT: the sorter of a pair's line stores it as a record, once what must precede it is done (R210); a pair with
no room waits at its firing (R213). -/
def execPairAccept (c : CtxId) (k : Nat) (s : State) : Out :=
  match (s.fab c.val).pairs[k]? with
  | none => .next s
  | some p =>
    match (s.ctx c.val).binding p.handle with
    | none => .next s
    | some b =>
      match b.toIa (b.base + p.offset) with
      | none => .next s
      | some ia =>
        if !(s.ctx c.val).live || ((s.ctx c.val).resuming && !(s.fab c.val).awaited p.id) || !s.depsDone c.val p.deps then .next s
        else match acceptPair c.val b p (stackOf ia) s with
          | .stall s => .next s
          | .bad e s => .next (nodeTrap c.val e.code 0 (BitVec.ofNat 64 e.report) s)
          | .ok _ s => .next (s.modFab c.val fun f => { f with pairs := f.pairs.filter fun q => decide (q.id ≠ p.id) })

end Sys2Proof.Machine
end

