-- ==== Sys2Proof/Machine/SeqFabric.lean ====
section
/-! DEFINITION. Sequencer instructions that drive the fabric, and the CSRs: cfg, run, qwait, yield (R104 to R107, R113) and
csrr, csrw, csrs, csrc (R66, R94, R103, R107, R120, R221, R237, R246, R287, R366), with the end of a configuration load
(R104, R292). -/

namespace Sys2Proof.Machine

open Sys2Proof

/-! ## Engine commands of a context (R15, R106, R186) -/

/-- The commands that an engine holds: waiting for room, in its inbox, in progress, or held as a follow-on (R181, R185). -/
def Eng.cmds (e : Eng) : List Cmd := e.waiting ++ e.inbox ++ (e.run.map (·.cmd)).toList ++ e.follow.toList

/-- Whether an engine command of a context is in progress; `bySeq` asks for those whose chain its sequencer began. -/
def State.hasCmd (s : State) (c : Nat) (bySeq : Bool) : Bool :=
  s.engs.any fun e => e.2.cmds.any fun k => decide (k.from_.ctx = c) && (k.from_.bySeq || !bySeq)

/-- Whether the sequencer has a pending access that `p` selects. -/
def State.seqPending (s : State) (c : Nat) (p : AccOp → Bool) : Bool :=
  (s.fab c).accesses.any fun a => decide (a.agent = .seq) && p a.op

/-! ## Planes (R104, R105) -/

/-- The die of a region's sequencer. -/
def Ctx.seqDie (x : Ctx) : Nat := x.first / 8

/-- What a plane of a relative cluster holds: image address, identity word, first plane and fold; first plane 4 where it
belongs to no fabric load. -/
def State.planeOf (s : State) (x : Ctx) (cl p : Nat) : Nat × Nat × Nat × Nat := smGet noPlane s.planes ((x.first + cl) * 4 + p)

/-- Whether a key of the store of planes lies in a region. -/
def Ctx.planeKey (x : Ctx) (k : Nat) : Bool := decide (x.first * 4 ≤ k ∧ k < (x.first + x.size) * 4)

/-- Drops whole every loaded fabric load of a region that overlaps planes `p` to `p + f − 1` (R104). -/
def State.dropLoads (s : State) (x : Ctx) (p f : Nat) : State :=
  { s with planes := s.planes.filter fun e =>
      !(x.planeKey e.1 && decide (e.2.2.2.1 < p + f ∧ p < e.2.2.2.1 + e.2.2.2.2)) }

/-- A load in progress when a load of planes `p` to `p + f − 1` starts: it is dropped if it overlaps them (R104). -/
def LoadJob.overlaid (p f : Nat) (j : LoadJob) : LoadJob :=
  { j with dropped := j.dropped || decide (j.plane < p + f ∧ p < j.plane + j.fold) }

/-- Whether a load in progress will make plane `p` the first plane of a fabric load (R104, R105). -/
def LoadJob.begins (p : Nat) (j : LoadJob) : Bool := !j.dropped && decide (j.plane = p)

/-- Whether planes `p` up hold the image with an address, identity word and fold (R104). -/
def State.resident (s : State) (x : Ctx) (p f addr ident : Nat) : Bool :=
  (List.range x.size).all fun cl => (List.range f).all fun q => decide (s.planeOf x cl (p + q) = (addr, ident, p, f))

/-- Whether the period in progress uses a plane of `p` to `p + f − 1` (R104). -/
def State.periodUses (s : State) (x : Ctx) (p f : Nat) : Bool :=
  match x.fab.period with
  | none => false
  | some d => let f0 := (s.planeOf x 0 d.plane).2.2.2
      decide (d.plane < p + f ∧ p < d.plane + f0)

/-- The word offset of the first faulty word of an image header (R290). -/
def imgHeadBad (ws : List Nat) : Option Nat :=
  let w := ws.getD 2 0
  if w % 256 = 0 ∨ 4 < w % 256 ∨ bits w 15 8 ≠ 0 then some 2
  else ((List.range 13).map (· + 3)).find? fun i => decide (ws.getD i 0 ≠ 0)

/-- The word offset in an image of the first word whose destination is no node of the image (R292). -/
def destsBad (d : ImgData) (c : Nat) : Option Nat :=
  d.nodes.findSome? fun n => (destFault d c n.1 n.2).map fun i => smGet 0 d.offs n.1 + i

/-- OP.ILL at a word of an image: the report is the word's virtual address (R104, R292; log 15). -/
def imgIll (c va word : Nat) (s : State) : Out := trapHere c { code := trapOpIll, report := va + 4 * word } s

/-- Reads and checks the parts of an image, then starts its load (R104, R292). -/
def cfgParts (c va p f ident : Nat) (s : State) : Out :=
  let x := s.ctx c
  match readWords c (.seq c) x.seqDie (va + 64) (4 * (x.size * f)) s with
  | .stall s => .next s
  | .bad b s => trapHere c b s
  | .ok ds s =>
    match readParts c (.seq c) x.seqDie va f p (descsOf 0 ds) { nodes := [], holds := [], offs := [] } s with
    | .stall s => .next s
    | .bad b s => trapHere c b s
    | .ill w s => imgIll c va w s
    | .ok d s =>
      match destsBad d x.size with
      | some w => imgIll c va w s
      | none =>
        if d.holds ≠ [] ∧ x.fab.period.isSome then .next s
        else .next (retire c ((s.dropLoads x p f).modFab c fun b => { b with
          loads := b.loads.map (·.overlaid p f) ++
            [{ addr := va, ident := ident, plane := p, fold := f, nodes := d.nodes, holds := d.holds, dropped := false }] }))

/-- cfg: MEM.ALIGN, an illegal header, SEQ.PLANE, the resident image, the wait for the planes, then the load (R104). -/
def execCfg (a : SReg) (e : Bool) (p : Fin 4) (s : State) : Out :=
  seqIssue [(a, e)] 0 s fun c s =>
    let va := ((s.seq c).rd a).toNat
    let x := s.ctx c
    if va % 64 ≠ 0 then trapHere c { code := trapMemAlign, report := va } s
    else match readWords c (.seq c) x.seqDie va 16 s with
      | .stall s => .next s
      | .bad b s => trapHere c b s
      | .ok ws s =>
        let f := ws.getD 2 0 % 256
        let ident := ws.getD 0 0 + ws.getD 1 0 * 2 ^ 32
        match imgHeadBad ws with
        | some w => imgIll c va w s
        | none =>
          if 4 < p.val + f ∨ bits (ws.getD 2 0) 31 16 ≠ x.size then trapHere c { code := trapSeqPlane, report := va } s
          else if s.resident x p.val f va ident then .next (retire c s)
          else if s.periodUses x p.val f then .next s
          else cfgParts c va p.val f ident s

/-- A list of lanes in the store of hold registers: all zeros is what an unwritten register reads. -/
def holdLanes (v : List Lane) : List Lane := if v.all (· == 0) then [] else v

/-- The end of a configuration load: its planes and hold records are written; the planes of a load dropped meanwhile keep
their words and belong to no fabric load (R104, R291, R292). -/
def finishLoad (x : Ctx) (j : LoadJob) (s : State) : State :=
  let s := s.dropLoads x j.plane j.fold
  let held := if j.dropped then noPlane else (j.addr, j.ident, j.plane, j.fold)
  let inLoad := fun k =>
    decide (x.first * 4 ≤ k / (64 * 128) ∧ k / (64 * 128) < (x.first + x.size) * 4) &&
      decide (j.plane ≤ k / (64 * 128) % 4 ∧ k / (64 * 128) % 4 < j.plane + j.fold)
  { s with
    nodes := j.nodes.foldl (fun m n => smSet [] m (n.1 + x.first * (4 * 64 * 128)) n.2)
      (s.nodes.filter fun e => !inLoad e.1),
    planes := (List.range x.size).foldl (fun m cl => (List.range j.fold).foldl (fun m q =>
      smSet noPlane m ((x.first + cl) * 4 + j.plane + q) held) m) s.planes,
    hold := j.holds.foldl (fun m h => smSet [] m (h.1 + x.first * (64 * 16)) (holdLanes h.2)) s.hold }

/-- CONFIGURATION_LOAD_COMPLETE: the oldest load of a context finishes (R104). -/
def execConfigurationLoadComplete (c : CtxId) (s : State) : Out :=
  match (s.fab c.val).loads with
  | [] => .next s
  | j :: t =>
    if (s.ctx c.val).live then
      .next ((finishLoad (s.ctx c.val) j s).modFab c.val fun f => { f with loads := t })
    else .next s

/-! ## run and qwait (R105, R106, R211) -/

/-- The number of a binding's periods that the 32-bit count holds (R211). -/
def periodCount : Nat := 2 ^ 32

/-- The bindings whose period count a run would advance past 2^32 − 1 (R211). -/
def Ctx.wraps (x : Ctx) : List Nat :=
  (List.range 16).filter fun h => match x.binding h with
    | some b => decide (periodCount ≤ b.period)
    | none => false

/-- A configuration period starts (R105, R211): the root spaces' rdc invocations open anew (R164). -/
def startPeriod (p : Nat) (v : Word) (x : Ctx) : Ctx :=
  { x with
    bindings := x.bindings.map fun h => (h.1, h.2.map fun b => { b with period := b.period + 1 }),
    fab := { x.fab with
      period := some { plane := p, nx := bits v.toNat 20 0, ny := bits v.toNat 41 21, nz := bits v.toNat 62 42 },
      cursors := [], markers := [], heldMarks := [], passed := [], stopped := [],
      rdc := x.fab.rdc.filter fun e => !x.isRoot (e.1 / 4096 % 256) } }

/-- The bindings that a wrap applied count from 0 again (R211). -/
def Ctx.restart (x : Ctx) : Ctx :=
  { x with bindings := x.bindings.map fun h =>
      (h.1, h.2.map fun b => if periodCount ≤ b.period then { b with period := 0 } else b) }

/-- Whether run still waits (R105): for a period, the load that begins at plane `p`, hold records, or the sequencer's
stores. -/
def State.runWaits (s : State) (c p : Nat) : Bool :=
  let x := s.ctx c
  x.fab.period.isSome || s.seqPending c AccOp.writes ||
    x.fab.loads.any fun j => j.begins p || decide (j.holds ≠ [])

/-- run: SEQ.PLANE, the waits of R105, the applies of a wrapping period count (R211), then the period. -/
def execRun (a : SReg) (e : Bool) (p : Fin 4) (s : State) : Out :=
  seqIssue [(a, e)] 0 s fun c s =>
    let x := s.ctx c
    let v := (s.seq c).rd a
    if !(x.fab.loads.any (·.begins p.val)) && decide ((s.planeOf x 0 p.val).2.2.1 ≠ p.val) then
      trapHere c { code := trapSeqPlane, report := p.val } s
    else if s.runWaits c p.val then .next s
    else if x.apply.isSome then .next s
    else if x.seq.phase = .applyWait then
      .next (retire c (s.modCtx c fun x => startPeriod p.val v x.restart))
    else if x.wraps ≠ [] then
      .next (startApply c x.wraps .wrap (s.modSeq c fun q => { q with phase := .applyWait }))
    else .next (retire c (s.modCtx c (startPeriod p.val v)))

/-- The sequencer stops where its region drains, with seq.epc naming an instruction (R113, R321). -/
def stopAt (c : Nat) (pc : Word) (s : State) : State :=
  s.modSeq c fun q => { q with phase := .stopped, epc := epcWord pc, counted := false }

/-- Whether the region of a context drains. -/
def Ctx.drains (x : Ctx) : Bool := decide (x.st = .draining)

/-- qwait: it waits for the quiescence report and the sequencer's engine commands, takes a pre-emption while it waits,
and raises a held fault before it retires (R106, R110, R113). -/
def execQwait (s : State) : Out :=
  seqIssue [] 0 s fun c s =>
    let x := s.ctx c
    if x.fab.period.isSome || s.hasCmd c true then .next (if x.drains then stopAt c x.seq.addr s else s)
    else match x.seq.faults with
      | f :: _ => .next (raiseHeld c f s)
      | [] => .next (retire c s)

/-- yield: it takes one cycle and has no effect, unless a pre-emption is requested; then the sequencer stops with seq.epc
naming the next instruction (R113). -/
def execYield (s : State) : Out :=
  seqIssue [] 0 s fun c s =>
    let d := (s.ctx c).drains
    let s := retire c s
    .next (if d ∧ (s.seq c).phase = .ready then stopAt c (s.seq c).addr s else s)

/-! ## CSRs -/

/-- The value that a csrr reads: reserved and WO fields read 0 (R7, R66, R120, R366); a context that holds no region has
size 0 (R287). -/
def Ctx.csr (x : Ctx) (id n : Nat) : Word :=
  let q := x.seq
  match n with
  | 0x000 => BitVec.ofNat 64 id
  | 0x001 => x.flags.setWidth 64
  | 0x002 => x.ovfp
  | 0x003 => x.seed
  | 0x004 => BitVec.ofNat 64 (x.base * 2 ^ 8 + (if x.st = .free ∨ x.st = .idle then 0 else x.size))
  | 0x020 => q.tvec
  | 0x021 => q.epc
  | 0x022 => q.cause
  | 0x023 => q.tval
  | 0x024 => BitVec.ofNat 64 (bitN q.h * 2 ^ 12 + q.wpend.toNat * 2 ^ 8 + q.cpend.toNat * 2 ^ 4 + q.act.toNat)
  | 0x090 => BitVec.ofNat 64 (x.boundHandles.foldl (fun w h => w + 2 ^ h) 0)
  | 0x100 => x.sys
  | _ =>
    let v := n % 4
    if 0x010 ≤ n ∧ n < 0x014 then smGet 0 (if q.cpend.getLsbD v then q.lcw else q.lc) v
    else if 0x014 ≤ n ∧ n < 0x018 then BitVec.ofNat 64 (smGet 0 (if q.wpend.getLsbD v then q.plb else q.lb) v)
    else if 0x018 ≤ n ∧ n < 0x01C then BitVec.ofNat 64 (smGet 0 (if q.wpend.getLsbD v then q.ple else q.le) v)
    else if 0x060 ≤ n ∧ n < 0x070 then smGet 0 x.updLines (n - 0x060)
    else if 0x070 ≤ n ∧ n < 0x080 then smGet 0 x.updSpill (n - 0x070)
    else if 0x080 ≤ n ∧ n < 0x090 then smGet 0 x.updMerge (n - 0x080)
    else if 0x0A0 ≤ n ∧ n < 0x0A4 then smGet 0 x.maskCount (n - 0x0A0)
    else if 0x0C5 ≤ n ∧ n < 0x0E0 then smGet 0 x.cm (n - 0x0C0)
    else if 0x0E5 ≤ n ∧ n < 0x100 then smGet 0 x.pm (n - 0x0E0)
    else 0

/-- A write to lc of a level: held until the next boundary while the level is active (R103). -/
def Seq.setLc (q : Seq) (v : Nat) (w : Word) : Seq :=
  if q.act.getLsbD v then { q with lcw := smSet 0 q.lcw v w, cpend := setBit4 q.cpend v true }
  else { q with lc := smSet 0 q.lc v w }

/-- A loop address as lb and le hold it: bits <63:32> are ignored and <1:0> are 0 (R103). -/
def loopAddr (w : Word) : Nat := w.toNat % 2 ^ 32 / 4 * 4

/-- A write to lb or le of a level: held with the other one until the next boundary while the level is active (R103). -/
def Seq.setBound (q : Seq) (v : Nat) (le : Bool) (w : Word) : Seq :=
  let a := loopAddr w
  if q.act.getLsbD v then
    let lb := smGet 0 (if q.wpend.getLsbD v then q.plb else q.lb) v
    let le0 := smGet 0 (if q.wpend.getLsbD v then q.ple else q.le) v
    { q with plb := smSet 0 q.plb v (if le then lb else a), ple := smSet 0 q.ple v (if le then a else le0),
             wpend := setBit4 q.wpend v true }
  else if le then { q with le := smSet 0 q.le v a }
  else { q with lb := smSet 0 q.lb v a }

/-- A word written into the RW fields of a CSR, the other fields unchanged (R7, R28, R94, R103, R246). -/
def Ctx.setCsr (x : Ctx) (n : Nat) (w : Word) : Ctx :=
  let q := x.seq
  let v := n % 4
  if n = 0x002 then { x with ovfp := w &&& 0x0000FFFFFFFFFFF0 }
  else if 0x010 ≤ n ∧ n < 0x014 then { x with seq := q.setLc v w }
  else if 0x014 ≤ n ∧ n < 0x018 then { x with seq := q.setBound v false w }
  else if 0x018 ≤ n ∧ n < 0x01C then { x with seq := q.setBound v true w }
  else if n = 0x020 then { x with seq := { q with tvec := epcWord w } }
  else if n = 0x021 then { x with seq := { q with epc := epcWord w } }
  else if 0x0C5 ≤ n ∧ n < 0x0E0 then { x with cm := smSet 0 x.cm (n - 0x0C0) w }
  else if 0x0E5 ≤ n ∧ n < 0x100 then { x with pm := smSet 0 x.pm (n - 0x0E0) w }
  else if n = 0x100 then { x with sys := (w &&& 0xFFFFFFE0) ||| 0x10 }
  else x

/-- The sixteen lanes that a write to hold32 or hold64 gives a hold register (R107). -/
def holdValue (wide : Bool) (w : Word) : List Lane :=
  mkLanes fun i => BitVec.ofNat 32 (if wide ∧ i % 2 = 1 then w.toNat / 2 ^ 32 else w.toNat)

/-- Writes lanes into hold register `j` of every PE of a region (R107). -/
def setHolds (x : Ctx) (j : Nat) (v : List Lane) (s : State) : State :=
  let put := fun m k => smSet [] m ((x.first * 64 + k) * 16 + j) (holdLanes v)
  { s with hold := (List.range (x.size * 64)).foldl put s.hold }

/-- Whether a CSR's write waits until no configuration period is in progress (R107, R246). -/
def csrWaits (n : Nat) (hold : Bool) : Bool :=
  decide (0x0C0 ≤ n ∧ n ≤ 0x100) || (hold && decide (0x040 ≤ n ∧ n < 0x060))

/-- csrr (R53, R120). -/
def execCsrr (d : SReg) (n : BitVec 12) (s : State) : Out :=
  seqIssue [] d s fun c s =>
    let s := if n = 0x001 then settleFlags c s else s
    .next (retire c (s.modSeq c fun q => q.wr d ((s.ctx c).csr c n.toNat)))

/-- csrw: a W1C write to ctx.flags, a hold register of every PE, or the RW fields (R52, R53, R107, R120). -/
def execCsrw (a : SReg) (e : Bool) (n : BitVec 12) (s : State) : Out :=
  seqIssue [(a, e)] 0 s fun c s =>
    let w := (s.seq c).rd a
    let k := n.toNat
    if csrWaits k true && (s.fab c).period.isSome then .next s
    else if k = 0x001 then
      .next (retire c ((settleFlags c s).modCtx c fun x => { x with flags := x.flags &&& ~~~w.setWidth 8 }))
    else if 0x040 ≤ k ∧ k < 0x060 then .next (retire c (setHolds (s.ctx c) (k % 16) (holdValue (decide (0x050 ≤ k)) w) s))
    else .next (retire c (s.modCtx c fun x => x.setCsr k w))

/-- csrs and csrc: the bits of s[a] in RW fields are set or cleared; every other field is unchanged (R66, R120). -/
def csrBits (a : SReg) (e : Bool) (n : BitVec 12) (s : State) (f : Word → Word → Word) : Out :=
  seqIssue [(a, e)] 0 s fun c s =>
    let w := (s.seq c).rd a
    if csrWaits n.toNat false && (s.fab c).period.isSome then .next s
    else .next (retire c (s.modCtx c fun x => x.setCsr n.toNat (f (x.csr c n.toNat) w)))

/-- csrs (R66, R120). -/
def execCsrs (a : SReg) (e : Bool) (n : BitVec 12) (s : State) : Out := csrBits a e n s fun old w => old ||| w
/-- csrc (R66, R120). -/
def execCsrc (a : SReg) (e : Bool) (n : BitVec 12) (s : State) : Out := csrBits a e n s fun old w => old &&& ~~~w

end Sys2Proof.Machine
end

