-- ==== Sys2Proof/Machine/Token.lean ====
section
/-! DEFINITION. Launch tokens and load records: what a launch token must satisfy (R298, R302, R307 to R309, R363), shared by
the scheduler and by tbind (R315). -/

namespace Sys2Proof.Machine

open Sys2Proof

/-- Byte `i` of a 64-byte token (R306). -/
def tokByte (ws : List Word) (i : Nat) : Nat := (ws.getD (i / 8) 0).toNat / 256 ^ (i % 8) % 256

/-- Whether every byte of a token that is not listed is zero. -/
def tokZero (ws : List Word) (named : List Nat) : Bool :=
  (List.range 64).all fun i => named.contains i || decide (tokByte ws i = 0)

/-- Whether a launch token's zero fields are zero (R307). -/
def launchZero (ws : List Word) : Bool :=
  decide (tokByte ws 1 < 16 ∧ tokByte ws 3 < 2 ∧ bits (ws.getD 0 0).toNat 63 40 = 0 ∧ bits (ws.getD 7 0).toNat 63 32 = 0)

/-- The task that a launch token describes (R307). -/
def taskOf (ws : List Word) (trigger : Bool) : Task :=
  { prio := tokByte ws 1, lsize := tokByte ws 2, consume := bit (tokByte ws 3) 0, base := tokByte ws 4,
    record := (ws.getD 1 0).toNat, seed := ws.getD 2 0, wtab := (ws.getD 3 0).toNat, inmask := ws.getD 4 0,
    outmask := ws.getD 5 0, cookie := ws.getD 6 0, entry := (ws.getD 7 0).toNat % 2 ^ 32, w := 0, held := 0,
    placed := false, trigger := trigger, seqno := 0, handler := false }

/-- Whether the task at the head of a context's queue is ready: every tile of its inmask is resident, or it has been placed
before (R311). -/
def Ctx.ready (x : Ctx) (t : Task) : Bool := t.placed || decide (t.inmask &&& ~~~x.tiles = 0)

/-- What the check of a launch finds (R308): a legal launch, a refusal's code, reason and report, or a wait for a
translation. -/
inductive LaunchRes where
  | ok (r : LoadRecord) (s : State)
  | refuse (code reason : Nat) (report : Word) (s : State)
  | stall (s : State)
  deriving DecidableEq, Repr, Inhabited

/-- The code of a space's kind (R309). -/
def SpaceKind.code : SpaceKind → Nat
  | .unused => 0 | .plain => 1 | .call => 2 | .deep => 3

/-- A space descriptor as its 16 bytes (R309). -/
def SpaceDesc.word (d : SpaceDesc) : Nat :=
  d.kind.code + d.parent.getD 0 % 2 ^ 8 * 2 ^ 8 + bitN d.parent.isSome * 2 ^ 16 + d.home % 2 ^ 8 * 2 ^ 24 + d.n % 2 ^ 16 * 2 ^ 32

/-- A space descriptor from its 16 bytes (R309): nothing for an unknown kind or a non-zero zero field. -/
def SpaceDesc.ofWord (w : Nat) : Option SpaceDesc :=
  if 3 < bits w 7 0 ∨ 1 < bits w 23 16 ∨ bits w 31 27 ≠ 0 ∨ bits w 127 48 ≠ 0 then none
  else some {
    kind := match bits w 7 0 with
      | 0 => .unused
      | 1 => .plain
      | 2 => .call
      | _ => .deep,
    parent := if bit w 16 then some (bits w 15 8) else Option.none, home := bits w 31 24, n := bits w 47 32 }

/-- The descriptors of a load record; one that cannot be read is an unused space (R309). -/
def LoadRecord.descs (r : LoadRecord) : List SpaceDesc := r.spaces.map fun w => (SpaceDesc.ofWord w).getD SpaceDesc.none

/-- The slots of a space of a list of descriptors: m × n under a parent of m slots; `fuel` bounds the chain of parents, and
0 tells a cycle or an undeclared parent (R21, R298). -/
def descSlots (sp : List SpaceDesc) : Nat → Nat → Nat
  | 0, _ => 0
  | fuel + 1, i =>
    let d := sp.getD i SpaceDesc.none
    if d.kind = .unused then 0
    else match d.parent with
      | none => d.n
      | some p => descSlots sp fuel p * d.n

/-- The reason for which a descriptor breaks R21 (R298, R309): 1 for a size, a home or a masked deep space, 2 for its
parent. -/
def descBad (s : State) (sp : List SpaceDesc) (lsize i : Nat) : Option Nat :=
  let d := sp.getD i SpaceDesc.none
  if d.kind = .unused then none
  else if d.n = 0 ∨ 4096 < d.n ∨ max 1 (2 ^ lsize / 8) ≤ d.home ∨ 4096 < descSlots sp 257 i ∨
      (d.kind = .deep ∧ s.masked 8) then some 1
  else if d.parent.isSome ∧ (d.kind ≠ .plain ∨ descSlots sp 257 i = 0) then some 2
  else none

/-- Reads the window table of a launch: the base and bound size of each of the eight windows (R307). -/
def readWtab (c : Nat) (who : MissWho) (die va : Nat) : List Nat → State → WinRes
  | [], s => .ok [] s
  | j :: t, s =>
    match readVa c who die (va + 16 * j) 16 s with
    | .stall s => .stall s
    | .bad b s => .bad b s
    | .ok v s => match readWtab c who die va t s with
      | .ok vs s => .ok (v :: vs) s
      | r => r

/-- Whether a launch gives some window less than its declared size, by the bound sizes of the eight windows (R302, R308). -/
def windowShort (r : LoadRecord) (size : Nat → Nat) : Bool :=
  (List.range 8).any fun j => match r.winDecl.getD j none with
    | some n => decide (size j < n)
    | none => false

/-- The code and reason with which a launch is refused whose check meets a fault in its reads: reason 7 for an address that
cannot be read, and any other fault by its own code, an uncorrectable word among them (R12, R308; log 23). -/
def readRefusal (b : Bad) : Nat × Nat :=
  if b.code = trapMemNomap ∨ b.code = trapMemPerm ∨ b.code = trapMemRange then (trapSchedToken, 7) else (b.code, 0)

/-- A launch is refused by a fault of a read that its check makes (R308). -/
def LaunchRes.unread (b : Bad) (s : State) : LaunchRes :=
  .refuse (readRefusal b).1 (readRefusal b).2 (BitVec.ofNat 64 b.report) s

/-- The checks that follow the reading of a load record (R284, R302, R308, R309, R363): a descriptor that cannot be read breaks
R21 (log 111), and the record's own window image is refused with LDR.WINDOW where it is short. -/
def recordCheck (c : Nat) (who : MissWho) (t : Task) (r : LoadRecord) (s : State) : LaunchRes :=
  if t.lsize < r.lsize then .refuse trapSchedToken 2 0 s
  else if r.lsize < t.lsize then .refuse trapSchedToken 3 0 s
  else if r.requires &&& s.fmask ≠ 0 then .refuse 0x0A05 0 0 s
  else if r.spaces.any fun w => (SpaceDesc.ofWord w).isNone then .refuse 0x0A02 1 0 s
  else match (List.range 256).findSome? (descBad s r.descs r.lsize) with
    | some reason => .refuse 0x0A02 reason 0 s
    | none =>
      if r.program.length ≤ 4 * t.entry then .refuse trapSchedToken 5 0 s
      else if t.wtab = 0 then
        if windowShort r fun j => (r.winImage.getD j (0, 0)).2 then .refuse 0x0A04 0 0 s else .ok r s
      else match readWtab c who 0 t.wtab (List.range 8) s with
        | .stall s => .stall s
        | .bad b s => .unread b s
        | .ok es s => if windowShort r fun j => es.getD j 0 / 2 ^ 64 then .refuse trapSchedToken 4 0 s else .ok r s

/-- The checks of a launch that read memory (R308): the load record stands at its intermediate address. -/
def taskCheck (c : Nat) (who : MissWho) (t : Task) (s : State) : LaunchRes :=
  match (s.ctx c).toIa true false t.record with
  | .error b => .unread b s
  | .ok ia =>
    match (if inWindow ia then XRes.ok 0 s else translate who ia false s) with
    | .stall s => .stall s
    | .bad b s => .unread b s
    | .ok _ s =>
      match smGet none (s.records.map fun e => (e.1, some e.2)) ia with
      | none => .refuse trapSchedToken 3 0 s
      | some r => recordCheck c who t r s

/-- The reason for which a launch token is refused before any memory is read (R308). -/
def tokenBad (ws : List Word) : Option Nat :=
  if tokByte ws 0 ≠ 1 ∨ !launchZero ws then some 1
  else if 6 < tokByte ws 2 ∨ 63 < tokByte ws 4 ∨ tokByte ws 4 % 2 ^ tokByte ws 2 ≠ 0 then some 2
  else if (ws.getD 1 0).toNat % 64 ≠ 0 then some 3
  else none

/-- The whole check of a launch token, by the scheduler or a tbind (R308, R315). -/
def launchCheck (c : Nat) (who : MissWho) (ws : List Word) (s : State) : LaunchRes :=
  match tokenBad ws with
  | some r => .refuse trapSchedToken r 0 s
  | none => taskCheck c who (taskOf ws false) s

end Sys2Proof.Machine
end

