-- ==== Sys2Proof/Machine/SeqSys.lean ====
section
/-! DEFINITION. Sequencer instructions that meet engines, barriers, update regions and the scheduler: send, estat, arrive,
wait, fence, ubind, uflush, unbind, tbind and done (R108 to R112, R117 to R119, R124, R208, R315). -/

namespace Sys2Proof.Machine

open Sys2Proof

/-! ## Headers and send (R82, R108, R363) -/

/-- The nominal cluster of a reply to a node port. -/
def LinkDest.clusterOf (d : LinkDest) : Nat := d.die * 8 + d.cluster

/-- A header that a context may send, or nothing where R82 or a masked feature refuses it (R82, R363). -/
def headerOf (s : State) (x : Ctx) (raw : Nat) : Option Header :=
  match decodeHeader raw with
  | none => none
  | some h =>
    let reply := match h.reply with
      | .node _ d => x.inNominal (LinkDest.clusterOf d)
      | .reg _ | .none => true
    let masked := decide (h.cls = .press ∧ h.op = 2) && s.masked 1 || decide (h.cls = .jig) && s.masked 4
    if x.inNominal h.cluster && reply && !masked then some h else none

/-- The engine that a header names, relocated to the region's clusters (R318). -/
def engOf (x : Ctx) (h : Header) : EngRef :=
  { cls := h.cls, cluster := Fin.ofNat 64 (x.reloc h.cluster), unit := Fin.ofNat 16 h.unit }

/-- A header waits at an engine for room in its inbox (R181). -/
def postCmd (x : Ctx) (k : Cmd) (s : State) : State :=
  let e := engOf x k.hdr
  s.setEng e { s.eng e with waiting := (s.eng e).waiting ++ [k] }

/-- Whether a send of the sequencer still waits for its engine's inbox (R108). -/
def State.sendWaits (s : State) (c : Nat) : Bool :=
  s.engs.any fun e => e.2.waiting.any fun k => decide (k.from_.ctx = c ∧ k.from_.chain = 0) && k.from_.bySeq

/-- The header of a send with its register number written into the reply field of an rkind 0 header (R108). -/
def sendRaw (d : SReg) (lo hi : Word) : Nat :=
  let h := lo.toNat + hi.toNat * 2 ^ 64
  if bit h 96 then h else h / 2 ^ 69 * 2 ^ 69 + d.val * 2 ^ 64 + lo.toNat

/-- send: the sequencer issues a header after its earlier stores, and retires when the inbox accepts it; an rkind 1 header
with d ≠ s0 and a header fault raise OP.ILL, reporting the header (R82, R108). -/
def execSend (d a b : SReg) (ea eb : Bool) (s : State) : Out :=
  asSeq s fun c =>
    if (s.seq c).phase = .sendWait then .next (if s.sendWaits c then s else retire c s)
    else seqIssue [(a, ea), (b, eb)] d s fun c s =>
      let x := s.ctx c
      let lo := x.seq.rd a
      let raw := sendRaw d lo (x.seq.rd b)
      match headerOf s x raw with
      | none => trapHere c { code := trapOpIll, report := lo.toNat } s
      | some h =>
        if bit raw 96 && decide (d ≠ 0) then trapHere c { code := trapOpIll, report := lo.toNat } s
        else if s.seqPending c AccOp.writes then .next s
        else
          let cmd : Cmd := { raw := raw, hdr := h, from_ := {
            ctx := c, bySeq := true, reg := d.val, agent := .seq, tag := 0, node := 0, firing := 0, chain := 0,
            deps := if h.acq then s.agentDeps c .seq (x.scopeLevel h.scope) (fun _ => true) else [] } }
          .next ((postCmd x cmd s).modSeq c fun q => { q.markEmpty d with phase := .sendWait })

/-! ## estat (R109, R187, R198) -/

/-- The operand latch of a press: its cluster and unit. -/
def State.latch (s : State) (cluster unit : Nat) : Option Latch := smGet none s.latches (cluster * 16 + unit)

/-- The class-specific field that an engine's status word takes at a commit (R183, R187): for a gather unit the state of its
latch (R198), for any other the command's. -/
def clsField (s : State) (e : EngRef) (cls : Nat) : Nat :=
  match e.cls with
  | .gather => match s.latch e.cluster.val e.unit.val with
    | some l => 1 + (l.m - 1) * 2 + l.kb * 2 ^ 8
    | none => 0
  | .copy | .press | .jig => cls

/-- The status word of an engine (R187). -/
def statusWord (s : State) (e : EngRef) : Word :=
  let g := s.eng e
  let leave := match g.run with
    | some r => decide (e.cls = .press ∧ r.phase = .leaveWait)
    | none => false
  let busy := g.run.isSome || decide (g.inbox ≠ []) || g.follow.isSome
  BitVec.ofNat 64 (g.commits.toNat * 2 ^ 48 + g.cls.toNat * 2 ^ 32 + g.fcode.toNat * 2 ^ 16 + g.inbox.length % 16 * 2 ^ 12 +
    bitN leave * 4 + bitN g.fault * 2 + bitN busy)

/-- The engine that the operand of estat names, or nothing where R109 refuses it. -/
def estatRef (x : Ctx) (w : Word) : Option EngRef :=
  match EngClass.ofCode? (bits w.toNat 13 10) with
  | none => none
  | some k =>
    if bits w.toNat 63 14 ≠ 0 ∨ k.units ≤ bits w.toNat 3 0 ∨ !x.inNominal (bits w.toNat 9 4) then none
    else some { cls := k, cluster := Fin.ofNat 64 (x.reloc (bits w.toNat 9 4)), unit := Fin.ofNat 16 (bits w.toNat 3 0) }

/-- estat: d is empty until the sample arrives; a refused operand raises OP.ILL and reports s[a], which the
rules do not state (R61, R109; log 112). -/
def execEstat (d a : SReg) (e : Bool) (s : State) : Out :=
  seqIssue [(a, e)] d s fun c s =>
    let w := (s.seq c).rd a
    match estatRef (s.ctx c) w with
    | none => trapHere c { code := trapOpIll, report := w.toNat } s
    | some g => .next (retire c (s.modSeq c fun q =>
        { q.markEmpty d with long := q.long ++ [{ reg := d.val, src := .estat g }] }))

/-! ## Barriers and fences (R111, R112) -/

/-- arrive: one arrival of the sequencer (R111, R379). -/
def execArrive (n : Fin 128) (s : State) : Out :=
  seqIssue [] 0 s fun c s =>
    match arriveAt c n.val .seq s with
    | .wait => .next s
    | .outside deps => .next (if s.depsDone c deps then retire c s else s)
    | .joins s => .next (retire c s)

/-- wait: held until the phase of the sequencer's latest arrive completes (R111, R379). -/
def execWait (n : Fin 128) (s : State) : Out :=
  seqIssue [] 0 s fun c s =>
    let t := match (s.seq c).phase with
      | .barWait i p => (i, p)
      | _ => waitTarget c n.val .seq s
    .next (if released c .seq t.1 t.2 s then retire c s
      else s.modSeq c fun q => { q with phase := .barWait t.1 t.2 })

/-- A fence of the sequencer waits until its earlier accesses have reached the scope (R112, R248). -/
def seqFence (s : State) (deps : Nat → State → List Dep) : Out :=
  seqIssue [] 0 s fun c s => .next (if s.depsDone c (deps c s) then retire c s else s)

/-- fence: every earlier ld, st and wld has been performed at scope (R112). -/
def execFence (g : Fin 32) (s : State) : Out :=
  seqFence s fun c s => s.agentDeps c .seq ((s.ctx c).scopeLevel g.val) fun _ => true

/-- fence.acq: every earlier ld and wld has been performed (R112). -/
def execFenceAcq (_g : Fin 32) (s : State) : Out :=
  seqFence s fun c s => s.agentDeps c .seq .performed AccOp.isLoad

/-- fence.rel: every earlier ld, st and wld has been performed at scope (R112). -/
def execFenceRel (g : Fin 32) (s : State) : Out :=
  seqFence s fun c s => s.agentDeps c .seq ((s.ctx c).scopeLevel g.val) fun _ => true

/-! ## Update regions (R117, R118, R208) -/

/-- Reads `n` bytes of scratchpad for the sequencer; an uncorrectable word is ECC.SP. -/
def seqSpRead (a n : Nat) (s : State) : XRes :=
  let r := spRead a n s
  match r.bad with
  | some w => .bad { code := trapEccSp, report := w } r.s
  | none => .ok r.val r.s

/-- MEM.UBIND with a reason (R117). -/
def ubindFault (c reason : Nat) (report : Word) (s : State) : Out :=
  .next (seqTrap c trapMemUbind reason (s.seq c).addr report s)

/-- The binding that the 32 bytes of a descriptor describe (R117). -/
def bindingOf (x : Ctx) (v : Nat) : Binding :=
  { base := bits v 63 0, size := bits v 95 64, op := bits v 103 96, type := bits v 111 104, spill := bits v 191 128,
    spillsize := bits v 223 192,
    rng := (List.range 16).map fun j => (smGet 0 x.rngA j, smGet 0 x.rngB j), period := 0 }

/-- Whether an operator admits an element type (R117). -/
def opTypeLegal (op type : Nat) : Bool :=
  let int := decide (type = 2 ∨ type = 3 ∨ type = 6 ∨ type = 7)
  if op ≤ 5 then int else if op ≤ 8 then decide (type = 10) else decide (op = 9) && (int || decide (type = 10))

/-- Whether two extents of 64 KiB units overlap. -/
def overlaps (a n b m : Nat) : Bool := decide (a < b + m * 2 ^ 16) && decide (b < a + n * 2 ^ 16)

/-- The reason that a descriptor alone decides: 3, 5, 4 or 7, in that order (R117, R363). -/
def descReason (s : State) (v : Nat) (b : Binding) : Option Nat :=
  if b.size = 0 ∨ b.base % 2 ^ 16 ≠ 0 ∨ 2 ^ 48 ≤ b.base ∨ bits v 127 112 ≠ 0 ∨ b.spill % 2 ^ 16 ≠ 0 ∨ 2 ^ 48 ≤ b.spill ∨
      bits v 255 224 ≠ 0 then some 3
  else if !opTypeLegal b.op b.type || s.masked 5 then some 5
  else if b.spillsize < (b.size + 7) / 8 then some 4
  else if overlaps b.base b.size b.spill b.spillsize then some 7
  else none

/-- The reason that the context's bindings decide: 1 or 2 (R117). -/
def boundReason (x : Ctx) (b : Binding) : Option Nat :=
  if x.boundHandles.length = 16 then some 1
  else if x.boundHandles.any fun h => match x.binding h with
      | some o => overlaps b.base b.size o.base o.size || overlaps b.base b.size o.spill o.spillsize
      | none => false
    then some 2
  else none

/-- The first range fault of an extent of 64 KiB units, both permissions needed; a unit in a window raises MEM.RANGE
(R208, R332, R352). -/
def extentBad (x : Ctx) (va n : Nat) : Option Bad :=
  (List.range n).findSome? fun u =>
    match x.toIa true true (va + u * 2 ^ 16) with
    | .error e => some e
    | .ok ia => if inWindow ia then some { code := trapMemRange, report := va + u * 2 ^ 16 } else none

/-- Whether an extent overlaps, in intermediate addresses, a region or spill area that another context holds bound
(R208). -/
def otherBound (s : State) (c : Nat) (x : Ctx) (va n : Nat) : Bool :=
  (List.range n).any fun u =>
    match x.toIa true true (va + u * 2 ^ 16) with
    | .error _ => false
    | .ok ia => s.bound.any fun r => decide (r.ctx ≠ c) &&
        ((r.b.extentOff r.b.base r.b.size ia).isSome || (r.b.extentOff r.b.spill r.b.spillsize ia).isSome)

/-- Binds a region under the lowest free handle, with its counters at 0 (R208, R221). -/
def bindRegion (h : Nat) (b : Binding) (x : Ctx) : Ctx :=
  { x with
    bindings := smSet none x.bindings h (some b), updLines := smSet 0 x.updLines h 0, updSpill := smSet 0 x.updSpill h 0,
    updMerge := smSet 0 x.updMerge h 0 }

/-- The lowest handle that is not bound (R208). -/
def Ctx.freeHandle (x : Ctx) : Nat := ((List.range 16).find? fun h => (x.binding h).isNone).getD 0

/-- ubind after its descriptor has been read: the faults in the order of R117, then the binding (R117, R208). -/
def ubindWith (c : Nat) (d : SReg) (addr v : Nat) (s : State) : Out :=
  let x := s.ctx c
  let b := bindingOf x v
  let report := BitVec.ofNat 64 addr
  match descReason s v b, boundReason x b with
  | some r, _ => ubindFault c r report s
  | none, some r => ubindFault c r report s
  | none, none =>
    match (extentBad x b.base b.size).or (extentBad x b.spill b.spillsize) with
    | some e => trapHere c e s
    | none =>
      if otherBound s c x b.base b.size ∨ otherBound s c x b.spill b.spillsize then ubindFault c 10 report s
      else
        let h := x.freeHandle
        .next (retire c ((s.modCtx c (bindRegion h b)).modSeq c fun q => q.wr d (BitVec.ofNat 64 h)))

/-- ubind: it waits until no period is in progress and its earlier stores are performed, then reads its descriptor (R117;
log 16). -/
def execUbind (d a : SReg) (e : Bool) (s : State) : Out :=
  seqIssue [(a, e)] d s fun c s =>
    let x := s.ctx c
    let addr := (x.seq.rd a).toNat
    if x.fab.period.isSome || s.seqPending c AccOp.writes then .next s
    else match spCheck s x addr 32 1 with
      | .error b => trapHere c b s
      | .ok p =>
        if addr % 32 ≠ 0 then ubindFault c 3 (BitVec.ofNat 64 addr) s
        else match seqSpRead p 32 s with
          | .ok v s => ubindWith c d addr v s
          | .bad b s => trapHere c b s
          | .stall s => .next s

/-- uflush and unbind: every pending update of a bound handle is applied; a handle that is not bound is MEM.UBIND reason 6
(R117, R118). -/
def seqApply (a : SReg) (e : Bool) (why : ApplyWhy) (s : State) : Out :=
  seqIssue [(a, e)] 0 s fun c s =>
    let x := s.ctx c
    let h := (x.seq.rd a).toNat
    if x.fab.period.isSome then .next s
    else if x.apply.isSome then .next (s.modSeq c fun q => { q with phase := .applyWait })
    else if x.seq.phase = .applyWait then .next (retire c s)
    else if (x.binding h).isNone then ubindFault c 6 s.fresh.1 s.fresh.2
    else .next (startApply c [h] why (s.modSeq c fun q => { q with phase := .applyWait }))

/-- uflush (R118). -/
def execUflush (a : SReg) (e : Bool) (s : State) : Out := seqApply a e .flush s
/-- unbind (R118). -/
def execUnbind (a : SReg) (e : Bool) (s : State) : Out := seqApply a e .unbind s

/-! ## tbind (R119, R315) -/

/-- SCHED.BIND with a reason; its report is not stated (R315, R328; log 32). -/
def bindFault (c reason : Nat) (s : State) : Out := .next (seqTrap c trapSchedBind reason (s.seq c).addr s.fresh.1 s.fresh.2)

/-- Reads `n` words of 8 bytes of scratchpad at a physical address. -/
def readSpWords (p : Nat) : Nat → State → WinRes
  | 0, s => .ok [] s
  | n + 1, s =>
    match seqSpRead p 8 s with
    | .stall s => .stall s
    | .bad b s => .bad b s
    | .ok v s => match readSpWords (p + 8) n s with
      | .ok vs s => .ok (v :: vs) s
      | r => r

/-- A tbind is sent to the scheduler, with its token copied (R315). -/
def tbindPost (c tile : Nat) (tok : Option (List Word)) (s : State) : State :=
  (s.modCtx c fun x => { x with tbinds := x.tbinds ++ [{ tile := tile, token := tok }] }).modSeq c fun q =>
    { q with phase := .tbindWait }

/-- The token half of tbind, for a descriptor that names a tile (R315). -/
def tbindToken (c tile : Nat) (pb : Nat) (s : State) : Out :=
  match readSpWords pb 8 s with
  | .stall s => .next s
  | .bad b s => trapHere c b s
  | .ok ws s =>
    let tok := ws.map (BitVec.ofNat 64)
    match launchCheck c (.seq c) tok s with
    | .stall s => .next s
    | .refuse _ r _ s => bindFault c r s
    | .ok _ s => .next (tbindPost c tile (some tok) s)

/-- tbind: alignment and addressing faults, SCHED.BIND, and the request; it retires at the scheduler's acknowledgement
(R119, R315; log 16). -/
def execTbind (a b : SReg) (ea eb : Bool) (s : State) : Out :=
  seqIssue [(a, ea), (b, eb)] 0 s fun c s =>
    let x := s.ctx c
    let va := (x.seq.rd a).toNat
    let vb := (x.seq.rd b).toNat
    if x.seq.phase = .tbindWait then .next (if x.tbinds = [] then retire c s else s)
    else if s.seqPending c AccOp.writes then .next s
    else match spCheck s x va 8 8, (if vb = 0 then .ok 0 else spCheck s x vb 64 64) with
      | .error e, _ => trapHere c e s
      | .ok _, .error e => trapHere c e s
      | .ok pa, .ok pb => match seqSpRead pa 8 s with
        | .stall s => .next s
        | .bad e s => trapHere c e s
        | .ok v s =>
          if 63 < v then bindFault c 7 s
          else if vb = 0 then .next (tbindPost c v none s)
          else tbindToken c v pb s

/-! ## done (R110, R124, R310) -/

/-- done passes its first step: the context is Retiring, and a drain in progress is abandoned (R310). -/
def passDone (v : Word) (x : Ctx) : Ctx :=
  { x with
    st := .retiring, cause := none, causeCode := 0, causeReason := 0, causeReport := 0, later := [], cookieStop := none,
    seq := { x.seq with phase := .finishing v }, fab := { x.fab with draining := false } }

/-- Whether the route of a posted store has failed (R353). -/
def State.postedFailed (s : State) (p : Posted) : Bool :=
  match s.windowKind (windowOf p.ia) with
  | none => false
  | some k => !s.routeUp k (windowOf p.ia) p.die p.ia

/-- The steps of done after the first: the sequencer's engine commands and held faults, the applies and releases, and the
posted stores; then the graph retires with its value (R124). -/
def finishDone (c : Nat) (v : Word) (s : State) : State :=
  let x := s.ctx c
  let mine := s.posted.filter fun p => decide (p.ctx = c)
  if s.hasCmd c true then s
  else match x.seq.faults with
    | f :: _ => raiseHeld c f s
    | [] =>
      if x.apply.isSome then s
      else if x.boundHandles ≠ [] then startApply c x.boundHandles .done s
      else match mine.find? s.postedFailed with
        | some p => graphTrap c trapLinkPosted 0 0 (BitVec.ofNat 64 (windowOf p.ia)) (BitVec.ofNat 64 mine.length) s
        | none => if mine = [] then endGraph c 1 0 0 v 0 0 s else s

/-- done: it waits for the period in progress, where a pre-emption may stop it, and then retires the graph (R124, R310,
R321). -/
def execDone (a : SReg) (e : Bool) (s : State) : Out :=
  asSeq s fun c =>
    match (s.seq c).phase with
    | .finishing v => .next (finishDone c v s)
    | _ => seqIssue [(a, e)] 0 s fun c s =>
      let x := s.ctx c
      if x.fab.period.isSome then .next (if x.drains then stopAt c x.seq.addr s else s)
      else .next (s.modCtx c (passDone (x.seq.rd a)))

end Sys2Proof.Machine
end

