-- ==== Sys2Proof/Machine/SeqMem.lean ====
section
/-! DEFINITION. The sequencer's memory instructions wld, ld and st, and the writes of its long-latency producers (R61, R96,
R114, R115, R184). -/

namespace Sys2Proof.Machine

open Sys2Proof

/-- The number of the memory node that stands for the sequencer's own accesses (R115: they are performed in program order at
one address). -/
def seqNode : Nat := 2 ^ 20

/-- An access of the sequencer, accepted as it issues (R243). -/
def seqAccess (f : Fabric) (id load : Nat) (op : AccOp) (glob : Bool) (addr size lane : Nat) : Access :=
  { id := id, agent := .seq, mnode := seqNode, op := op, glob := glob, addr := addr, size := size, lane := lane,
    firing := load, accepted := true, arrived := 0, deps := f.holdDeps .seq op.writes, parked := false, replay := false, foot := [] }

/-- The address of a ld or st: the sum taken at 64 bits (R62, R115; log 17). -/
def spOffset {w : Nat} (a : Word) (i : BitVec w) : Nat := (a + i.signExtend 64 * 8).toNat

/-- ld: the value lands later; from a cluster outside the region d is empty until then (R61, R96, R115). -/
def execLd (d a : SReg) (e : Bool) (i : BitVec 15) (s : State) : Out :=
  seqIssue [(a, e)] d s fun c s =>
    let x := s.ctx c
    let t := spOffset (x.seq.rd a) i
    match spCheck s x t 8 8 with
    | .error b => trapHere c b s
    | .ok p =>
      let id := x.fab.nextId
      let s := s.modFab c fun f => { f with
        nextId := id + 1, accesses := f.accesses ++ [seqAccess f id id .load false t 8 0] }
      .next (retire c (s.modSeq c fun q =>
        let q := if x.inBlock (p / 2 ^ 24) then q.markBusy d else q.markEmpty d
        { q with long := q.long ++ [{ reg := d.val, src := .loads id [] }] }))

/-- st: 8 bytes stored at a scratchpad address (R115). -/
def execSt (v a : SReg) (ea ev : Bool) (i : BitVec 14) (s : State) : Out :=
  seqIssue [(a, ea), (v, ev)] 0 s fun c s =>
    let x := s.ctx c
    let t := spOffset (x.seq.rd a) i
    match spCheck s x t 8 8 with
    | .error b => trapHere c b s
    | .ok _ =>
      let id := x.fab.nextId
      .next (retire c (s.modFab c fun f => { f with
        nextId := id + 1, accesses := f.accesses ++ [seqAccess f id 0 (.store (x.seq.rd v).toNat) false t 8 0] }))

/-- The bytes of a window read that lie below its bound: their places in the doubleword and virtual addresses (R114). -/
def wldBytes (base size off : Nat) : List (Nat × Nat) :=
  ((List.range 8).filter fun j => decide (off + j < size)).map fun j => (j, base + off + j)

/-- The first fault of the bytes that a wld reads. -/
def wldBad (s : State) (x : Ctx) (bs : List (Nat × Nat)) : Option Bad :=
  bs.findSome? fun b => match globCheck s x true false b.2 with
    | .error e => some e
    | .ok _ => none

/-- Bytes `b` of a window read become the sequencer's accesses of a load named `id`, from access name `n` up. -/
def wldAccesses (f : Fabric) (id : Nat) : Nat → List (Nat × Nat) → List Access
  | _, [] => []
  | n, b :: t => seqAccess f n id .load true b.2 1 b.1 :: wldAccesses f id (n + 1) t

/-- wld: 8 bytes of a parameter window, with bytes at or beyond the bound 0 and win.oob set (R114). -/
def execWld (d a : SReg) (e : Bool) (w : Fin 8) (o : BitVec 12) (s : State) : Out :=
  seqIssue [(a, e)] d s fun c s =>
    let x := s.ctx c
    match x.window w.val with
    | .error b => trapHere c b s
    | .ok (base, size) =>
      let off := (x.seq.rd a).toNat + 8 * o.toNat
      let bs := wldBytes base size off
      match wldBad s x bs with
      | some b => trapHere c b s
      | none =>
        let id := x.fab.nextId
        let s := if size < off + 8 then s.raiseFlags c fOob else s
        let s := s.modFab c fun f => { f with
          nextId := id + 1 + bs.length, accesses := f.accesses ++ wldAccesses f id (id + 1) bs }
        .next (retire c (s.modSeq c fun q =>
          { q.markEmpty d with long := q.long ++ [{ reg := d.val, src := .loads id [] }] }))

/-- The value that loaded elements form, each at its byte offset. -/
def gotValue (got : SMap Nat) : Nat := got.foldl (fun v e => v + e.2 * 256 ^ e.1) 0

/-- The value of a producer that is ready to write: an engine's reply, the sample of a status word as it stands, or loads
that have all been performed (R61, R109). -/
def longReady (s : State) (c : Nat) (l : LongWrite) : Option Word :=
  match l.src with
  | .value v => some v
  | .estat e => some (statusWord s e)
  | .loads id got =>
    if (s.fab c).accesses.any fun a => decide (a.agent = .seq ∧ a.op = .load ∧ a.firing = id) then none
    else some (BitVec.ofNat 64 (gotValue got))

/-- LONG_LATENCY_WRITE: the k-th pending producer of a context's sequencer writes its register and marks it full (R61). -/
def execLongLatencyWrite (c : CtxId) (k : Nat) (s : State) : Out :=
  let x := s.ctx c.val
  match x.seq.long[k]? with
  | none => .next s
  | some l =>
    if !(x.live || decide (x.st = .retiring)) then .next s
    else match longReady s c.val l with
      | none => .next s
      | some v => .next (s.modSeq c.val fun q => { q.land l.reg v with long := q.long.eraseIdx k })

end Sys2Proof.Machine
end

