-- ==== Sys2Proof/Machine/NodeFlow.lean ====
section
/-! DEFINITION. The node operations on tags, steering, calls and reduction (R150 to R164), on barriers, fences and engines, and
trap and brk (R173 to R179), with the grants and frees that they wait for (R22, R23, R154). -/

namespace Sys2Proof.Machine

open Sys2Proof

/-! ## Outputs -/

/-- An operand's 32-bit lanes. -/
def operandLanes (env : OpEnv) (a : Sel) : List Lane := mkLanes fun i => BitVec.ofNat 32 (selRaw env false .zext a i)

/-- An operand in the lowest active lane, or nothing where no lane is active (R155, R158). -/
def lowestValue (env : OpEnv) (a : Sel) : Option Nat := (lowestLane env.mask).map fun i => selRaw env false .zext a i

/-- The token that an operand names, if it is a port. -/
def Firing.tokOf (g : Firing) (a : Sel) : Option Tok :=
  match a with
  | .port p => g.ports.getD p.val none
  | .x | .hold _ | .const _ | .lane | .ord | .zero | .win => none

/-- The output of an operation that produces a tag: the tag in every active lane under tagsel 0, else A with the tag
(R152). -/
def tagOut (m : NodeImg) (g : Firing) (a : List Lane) (t : Tag) : List Emission :=
  if m.emit.tagsel = 0 then [dataOut g.tag g.mask (mkLanes fun _ => t)] else [dataOut t g.mask a]

/-- The output of an operation that may replace the firing's tag: A with the firing's tag under tagsel 0, else with the
other (R152). -/
def retagOut (m : NodeImg) (g : Firing) (a : List Lane) (t : Tag) : List Emission :=
  [dataOut (if m.emit.tagsel = 0 then g.tag else t) g.mask a]

/-- The result of arrive, wait, fence, yield and brk: x after another stage, zeros as the only stage (R176). -/
def passOut (g : Firing) : List Emission := [dataOut g.tag g.mask (if g.stage = 0 then [] else g.x)]

/-- An operand re-emitted with its kind unchanged (R150): an ordering token keeps what it stands for. -/
def moved (g : Firing) (a : Sel) (lanes : List Lane) : Emission :=
  match g.tokOf a with
  | some k => { dataOut g.tag g.mask lanes with kind := k.kind, pred := k.pred }
  | none => dataOut g.tag g.mask lanes

/-- A firing waits, keeping an operand's lanes in x. -/
def holdFiring (c : Nat) (g : Firing) (p : Phase) (a : List Lane) (s : State) : State :=
  setFiring c { g with phase := p, x := a } s

/-! ## Allocation (R22, R153, R159, R162) -/

/-- The destination of a firing's link word, in the plane of its virtual tile (R19, R149). -/
def State.linkAt (s : State) (x : Ctx) (m : NodeImg) (g : Firing) : Option (NodeRef × Nat) :=
  (m.linkDest g.ref.plane).map (s.settle x g.ref linkIndex)

/-- The destination that a call records: the one of its link word (R149, R162). -/
def State.callDest (s : State) (x : Ctx) (m : NodeImg) (g : Firing) : NodeRef × Nat := (s.linkAt x m g).getD (g.ref, 0)

/-- Grants a request of a firing, if its slot is free (R22): a call tag takes its caller's key and records the return
continuation (R24, R162), and a tag that opens an invocation starts its loop (R33). -/
def grantReq (s : State) (x : Ctx) (g : Firing) (m : NodeImg) (r : AllocReq) : Option (Tag × Ctx) :=
  if (x.space r.space).kind = .call then
    let d := s.callDest x m g
    x.grant r.space r.ring r.parent r.opened (some (x.keyOf g.tag)) (some (g.tag, d.1, d.2))
  else (x.grant r.space r.ring r.parent r.opened none none).map fun p =>
    if r.opened then (p.1, { p.2 with fab := { p.2.fab with loops := bump p.2.fab.loops r.space 1 } }) else p

/-- A firing asks an allocator: it is granted at once when no earlier request waits for the ring and the slot is free,
else it waits with its operand kept (R22). -/
def askAlloc (c : Nat) (g : Firing) (m : NodeImg) (r : AllocReq) (a : List Lane) (s : State) (k : Tag → State → State) :
    State :=
  let x := s.ctx c
  let queued := x.fab.allocs.any fun q => decide (q.space = r.space ∧ q.ring = r.ring)
  match (if queued then none else grantReq s x g m r) with
  | some (t, x) => k t (s.setCtx c x)
  | none => (holdFiring c g .waitAlloc a s).modFab c fun f => { f with allocs := f.allocs ++ [r] }

/-- alloc: a tag in the inner space that the link word names, in the ring of the firing's tag (R153). -/
def execAlloc (a : Sel) (s : State) : Out :=
  withEnv (.alloc a) s fun c g m env s =>
    let x := s.ctx c
    let sp := m.link / 2 ^ 24
    match g.phase with
    | .granted t => .next (finish c g m (tagOut m g g.x t) s)
    | .run =>
      if !x.isInner sp || decide ((x.space sp).parent ≠ some (tagSpace g.tag)) then trapNodeTag c trapTagKind 0 g m s
      else
        let l := operandLanes env a
        .next (askAlloc c g m { firing := g.id, space := sp, ring := tagIndex g.tag, parent := g.tag, opened := true } l s
          fun t s => finish c g m (tagOut m g l t) s)
    | _ => .next s

/-- TAG_ALLOC_GRANT: the k-th request of a context is granted once its slot is free; requests for one ring are granted in
their order (R22). -/
def execTagAllocGrant (c : CtxId) (k : Nat) (s : State) : Out :=
  let x := s.ctx c.val
  match x.fab.allocs[k]? with
  | none => .next s
  | some r =>
    if !x.live || x.resuming || (x.fab.allocs.take k).any fun q => decide (q.space = r.space ∧ q.ring = r.ring) then .next s
    else match x.fab.firings.find? fun g => g.id == r.firing with
      | none => .next s
      | some g =>
        match s.nodeImg x g.ref with
        | none => .next s
        | some m =>
          match grantReq s x g m r with
          | none => .next s
          | some (t, x) => .next ((setFiring c.val { g with phase := .granted t } (s.setCtx c.val x)).modFab c.val fun f =>
              { f with allocs := f.allocs.eraseIdx k })

/-! ## Freeing (R23, R154) -/

/-- Whether an output of a firing bears a tag. -/
def Phase.bears (p : Phase) (t : Tag) : Bool :=
  match p with
  | .emit outs | .held (some outs) => outs.any fun e => decide (e.tag = t ∧ e.kind ≠ .marker)
  | .granted u => decide (u = t)
  | _ => false

/-- Whether what stands in E is the round markers of a node, which bear no tag (R320). -/
def Firing.marks (g : Firing) : Bool :=
  match g.phase with
  | .emit outs => outs.any fun e => decide (e.kind = .marker)
  | _ => false

/-- Whether a firing's own tag no longer bears on its being freed: it is a gate that waits for its next tag, under which the
tokens that it consumed go on (R22, R159), or a firing but a gate that waits to free the tag itself (R23). -/
def State.freeWaits (s : State) (x : Ctx) (g : Firing) : Bool :=
  let gate := match s.nodeImg x g.ref with
    | some m => m.isGate
    | none => false
  (decide (g.phase = .waitAlloc) && gate) || (decide (g.phase = .waitFree) && !gate)

/-- Whether a token that bears a tag exists besides firing `fid`: in a channel, a frame, a firing, or as a pending reply of
an engine command of a firing of the tag (R154).  A firing that itself waits to free the tag bears it no longer, and the free
that comes second finds another generation (R23); a gate frees before any other (R159). -/
def State.tagInUse (s : State) (c fid : Nat) (t : Tag) : Bool :=
  let f := s.fab c
  f.chan.any (fun k => decide (k.tag = t ∧ k.kind ≠ .marker)) || f.waiting.any (fun w => decide (w.tok.tag = t)) ||
    f.firings.any (fun g => decide (g.id ≠ fid) &&
      ((decide (g.tag = t) && !g.marks && !s.freeWaits (s.ctx c) g) || g.phase.bears t)) ||
    f.replies.any (fun r => decide (r.tag = t)) ||
    s.engs.any fun e => e.2.cmds.any fun k => decide (k.from_.ctx = c ∧ k.from_.tag = t) && !k.from_.bySeq

/-- FREE_COMPLETE: a waiting free takes effect once no other token bears the tag (R23, R154); a gate's ends its invocation
(R33). -/
def execFreeComplete (c : CtxId) (f : Nat) (s : State) : Out :=
  let x := s.ctx c.val
  match x.fab.firings.find? fun g => g.id == f with
  | none => .next s
  | some g =>
    if !x.live || x.resuming || decide (g.phase ≠ .waitFree) || s.tagInUse c.val f g.tag then .next s
    else match s.nodeImg x g.ref, x.freeTag g.tag with
      | none, _ => .next s
      | some m, .error code => trapNodeTag c.val code 0 g m s
      | some m, .ok (p, x) =>
        let y : Ctx := if m.isGate then { x with fab := { x.fab with
          loops := smSet 0 x.fab.loops (tagSpace g.tag) (smGet 0 x.fab.loops (tagSpace g.tag) - 1) } } else x
        .next (setFiring c.val { g with phase := .freed p } (s.setCtx c.val y))

/-- free: it waits for the tag's other tokens, then emits A with the restored parent tag; a root tag emits nothing, and a
call or deep tag raises TAG.KIND (R152, R154). -/
def execFree (a : Sel) (s : State) : Out :=
  withEnv (.free a) s fun c g m env s =>
    match g.phase with
    | .freed p => .next (finish c g m (if (s.ctx c).isRoot (tagSpace g.tag) then [] else [dataOut p g.mask g.x]) s)
    | .run =>
      if ((s.ctx c).space (tagSpace g.tag)).kind = .plain then .next (holdFiring c g .waitFree (operandLanes env a) s)
      else trapNodeTag c trapTagKind 0 g m s
    | _ => .next s

/-! ## retag, ctag, tagrd (R155 to R157) -/

/-- retag: A with the live tag that B holds in the lowest active lane (R155). -/
def execRetag (a b : Sel) (s : State) : Out :=
  withEnv (.retag a b) s fun c g m env s =>
    if g.phase ≠ .run then .next s
    else match lowestValue env b with
      | none => trapNodeTag c trapTagKind 0 g m s
      | some v =>
        let u : Tag := BitVec.ofNat 32 v
        if !(s.ctx c).tagAdmitted u then trapNodeTag c trapTagKind 0 g m s
        else if !(s.ctx c).tagLive u then trapNodeTag c trapTagStale 0 g m s
        else .next (finish c g m (retagOut m g (operandLanes env a) u) s)

/-- ctag: A with the parent of the firing's inner tag (R156). -/
def execCtag (a : Sel) (s : State) : Out :=
  withEnv (.ctag a) s fun c g m env s =>
    if g.phase ≠ .run then .next s
    else if (s.ctx c).isInner (tagSpace g.tag) then
      .next (finish c g m (retagOut m g (operandLanes env a) ((s.ctx c).tagSlot g.tag).parent) s)
    else trapNodeTag c trapTagKind 0 g m s

/-- tagrd: the firing's tag in every lane that is active under A's mask (R157). -/
def execTagrd (a : Sel) (s : State) : Out :=
  withEnv (.tagrd a) s fun c g m _ s =>
    if g.phase ≠ .run then .next s
    else
      let am := match g.tokOf a with
        | some k => k.mask
        | none => g.mask
      .next (finish c g m [dataOut g.tag g.mask (mkLanes fun i => if laneOn am i then g.tag else 0)] s)

/-! ## steer, merge, dup and gate (R158 to R161) -/

/-- steer: B to output 0 where A's lowest active lane is not zero, else to output 1 (R158). -/
def execSteer (a b : Sel) (s : State) : Out :=
  withEnv (.steer a b) s fun c g m env s =>
    if g.phase ≠ .run then .next s
    else
      let one := decide ((lowestValue env a).getD 0 = 0)
      .next (finish c g m [{ moved g b (operandLanes env b) with out := .route one }] s)

/-- A consumed token re-emitted unchanged: tag, kind, mask and payload (R160, R161). -/
def sameTok (k : Tok) : Emission :=
  { out := .route false, tag := k.tag, kind := k.kind, mask := k.mask, lanes := k.payload, pred := k.pred }

/-- merge: the arriving token unchanged (R160). -/
def execMerge (s : State) : Out :=
  asFiring s fun c g m =>
    if g.phase ≠ .run then .next s
    else match g.ports.findSome? id with
      | none => .next s
      | some k => .next (finish c g m [sameTok k] s)

/-- dup: the p0 token unchanged (R161), whatever its operand names (log 108). -/
def execDup (a : Sel) (s : State) : Out :=
  withEnv (.dup a) s fun c g m _ s =>
    if g.phase ≠ .run then .next s
    else match g.ports.getD 0 none with
      | none => .next s
      | some k => .next (finish c g m [sameTok k] s)

/-- A gate firing that consumes p2 releases the markers that the gate holds, ahead of its output (R159, R320). -/
def releaseMarkers (c : Nat) (g : Firing) (m : NodeImg) (s : State) : State :=
  if m.head.inputs = 3 ∧ smGet 0 (s.fab c).heldMarks g.ref.key ≠ 0 ∧ smGet 0 (s.fab c).passed g.ref.key = 0 then
    (sendMarkers c g.ref m s).modFab c fun f => { f with
      heldMarks := smSet 0 f.heldMarks g.ref.key 0, passed := smSet 0 f.passed g.ref.key 1 }
  else s

/-- gate: on a control that is not zero it allocates the next iteration's tag and emits p1 with it; else it frees the
firing's tag and emits p1 with the restored parent tag to the exit (R159). -/
def execGate (s : State) : Out :=
  withEnv .gate s fun c g m env s =>
    let x := s.ctx c
    let data := moved g (.port 1) (operandLanes env (.port 1))
    match g.phase with
    | .granted u => .next (finish c g m [{ data with tag := u }] s)
    | .freed p => .next (finish c g m ((s.linkAt x m g).toList.map fun d =>
        { data with tag := p, out := .to d.1 d.2 }) s)
    | .run =>
      let sp := tagSpace g.tag
      if !x.isInner sp then trapNodeTag c trapTagKind 0 g m s
      else
        let s := releaseMarkers c g m s
        if (lowestValue env (.port 0)).getD 0 ≠ 0 then
          let p := (x.tagSlot g.tag).parent
          .next (askAlloc c g m { firing := g.id, space := sp, ring := tagIndex p, parent := p, opened := false } g.x s
            fun u s => finish c g m [{ data with tag := u }] s)
        else .next (setFiring c { g with phase := .waitFree } s)
    | _ => .next s

/-! ## call and ret (R162, R163) -/

/-- call: a tag of a call or deep space, whose slot records the return continuation (R162). -/
def execCall (a : Sel) (s : State) : Out :=
  withEnv (.call a) s fun c g m env s =>
    let x := s.ctx c
    let sp := m.link / 2 ^ 24
    let l := operandLanes env a
    match g.phase with
    | .granted t => .next (finish c g m (tagOut m g g.x t) s)
    | .run =>
      match (x.space sp).kind with
      | .call => .next (askAlloc c g m { firing := g.id, space := sp, ring := 0, parent := 0, opened := false } l s
          fun t s => finish c g m (tagOut m g l t) s)
      | .deep =>
        let d := s.callDest x m g
        match x.grantDeep sp (x.keyOf g.tag) (some (g.tag, d.1, d.2)) with
        | some (t, x) => .next (finish c g m (tagOut m g l t) (s.setCtx c x))
        | none => trapNodeTag c trapTagDeep 0 g m (setFiring c { g with phase := .held none } s)
      | .plain | .unused => trapNodeTag c trapTagKind 0 g m s
    | _ => .next s

/-- ret: A with the recorded caller tag to the recorded destination; once that has left, the firing waits to free the call or
deep tag (R163). -/
def execRet (a : Sel) (s : State) : Out :=
  withEnv (.ret a) s fun c g m env s =>
    let x := s.ctx c
    match g.phase with
    | .freed _ => .next (dropFiring c g.id s)
    | .run =>
      match (x.space (tagSpace g.tag)).kind, (x.tagSlot g.tag).ret with
      | .plain, _ | .unused, _ => trapNodeTag c trapTagKind 0 g m s
      | _, none => trapNodeTag c trapTagStale 0 g m s
      | _, some (t, d, p) => .next (finish c g m [{ dataOut t g.mask (operandLanes env a) with out := .to d p }] s)
    | _ => .next s

/-! ## rdc (R164) -/

/-- The key of an rdc node's state for one ring: the node, the space and the ring. -/
def rdcKey (r : NodeRef) (sp q : Nat) : Nat := (r.key * 256 + sp) * 4096 + q

/-- The state of a ring at which no invocation is open. -/
def RdcState.none : RdcState := { next := .none, acc := [], present := 0 }

/-- The first ordinal of the configuration period in a root space: its ring's count less the points issued since (R105,
R164). -/
def State.rootStart (s : State) (x : Ctx) (sp : Nat) : Nat :=
  let issued := ((s.sources x).filterMap fun r => match s.nodeImg x r with
    | some m => if m.head.space = sp then some (smGet 0 x.fab.cursors r.key) else none
    | none => none).headD 0
  (x.ringNext sp 0 + 2 ^ 64 - issued) % 2 ^ 64

/-- The state of a ring as a firing finds it, an invocation opened where R164 opens one. -/
def rdcFind (s : State) (x : Ctx) (g : Firing) : RdcState :=
  let sp := tagSpace g.tag
  let slot := x.tagSlot g.tag
  let r := smGet RdcState.none x.fab.rdc (rdcKey g.ref sp slot.key.ring)
  if x.isRoot sp then
    match r.next with
    | .none => { next := some (s.rootStart x sp), acc := [], present := 0 }
    | some _ => r
  else if slot.opened then { next := some slot.key.ordinal, acc := [], present := 0 }
  else r

/-- Applies a firing's elements to the accumulators (R164): the new state, and the flags. -/
def rdcApply (wide : Bool) (mask : BitVec 16) (r : RdcState) (ordinal : Nat) (val : Nat → Nat)
    (step : Nat → Nat → Nat → Res Nat) : RdcState × Flags :=
  let idx := if wide then activePairs mask else activeLanes mask
  let on := fun i => r.present.getLsbD (laneKey wide i)
  let vals := idx.map fun i => (i, if on i then step (laneKey wide i) (smGet 0 r.acc i) (val i) else quiet (val i))
  ({ next := some ((ordinal + 1) % 2 ^ 64), acc := vals.foldl (fun a e => smSet 0 a e.1 e.2.val) r.acc,
     present := r.present ||| (if wide then pairMask mask else mask) },
    vals.foldl (fun f e => f ||| e.2.fl) fNone)

/-- A rdc firing: applied when its ordinal is the next of its ring, else it waits; the output's mask is the lanes whose
accumulator is present (R164). -/
def rdcFire (i : Instr) (wide : Bool) (s : State) (val : OpEnv → Nat → Nat)
    (step : OpEnv → Nat → Nat → Nat → Res Nat) : Out :=
  withEnv i s fun c g m env s =>
    let x := s.ctx c
    let sp := tagSpace g.tag
    if (x.space sp).kind ≠ .plain then trapNodeTag c trapTagKind 0 g m s
    else
      let slot := x.tagSlot g.tag
      let r := rdcFind s x g
      if r.next ≠ some slot.key.ordinal then
        .next (setFiring c { g with phase := .waitFence [] } s)
      else
        let a := rdcApply wide env.mask r slot.key.ordinal (val env) (step env)
        let out := byElem wide a.1.present fun j => quiet (smGet 0 a.1.acc j)
        let s := s.modFab c fun f => { f with rdc := smSet RdcState.none f.rdc (rdcKey g.ref sp slot.key.ring) a.1 }
        .next (stageDone c g m { out with fl := a.2 } s)

/-- Integer rdc (R164). -/
def execRdcInteger (t : IntTy) (a : Sel) (c : RedOp) (sat : Bool) (s : State) : Out :=
  rdcFire (.rdcInteger t a c sat) (IntTy.wide t) s (fun env i => extendRaw t (selInt env t a i))
    fun _ _ => redStepI t c sat

/-- Float rdc (R164): under SR each step draws with the key of the firing applied, its stage and the lane. -/
def execRdcFloat (t : FltTy) (a : Sel) (c : FRedOp) (r : Rnd) (sat : Bool) (s : State) : Out :=
  rdcFire (.rdcFloat t a c r sat) (FltTy.wide t) s (fun env i => selFlt env t a i)
    fun env k => redStepF t c r sat (env.key.draw k)

/-! ## Barriers, fences and yield (R173 to R176) -/

/-- arrive: one arrival of the PE as a release; it emits at once, waits for its previous phase, or, outside the
participants, waits for its release alone (R173, R379). -/
def execArriveNode (n : Fin 128) (s : State) : Out :=
  asFiring s fun c g m =>
    match g.phase with
    | .waitFence (d :: ds) => .next (if s.depsDone c (d :: ds) then finish c g m (passOut g) s else s)
    | _ =>
      match arriveAt c n.val g.agent s with
      | .wait => .next (setFiring c { g with phase := .waitFence [] } s)
      | .outside deps =>
        .next (if s.depsDone c deps then finish c g m (passOut g) s
          else setFiring c { g with phase := .waitFence deps } s)
      | .joins s => .next (finish c g m (passOut g) s)

/-- wait: held until the phase of the PE's latest arrive completes; as an acquire it holds back the accesses that the PE
issues after it (R173, R258, R379). -/
def execWaitNode (n : Fin 128) (s : State) : Out :=
  asFiring s fun c g m =>
    match g.phase with
    | .waitPhase i p => .next (if released c g.agent i p s then finish c g m (passOut g) s else s)
    | _ =>
      let t := waitTarget c n.val g.agent s
      .next (if released c g.agent t.1 t.2 s then finish c g m (passOut g) s
        else (setFiring c { g with phase := .waitPhase t.1 t.2 } (pruneHolds c s)).modFab c fun f => { f with
          holds := f.holds ++ [{ agent := g.agent, deps := [{ id := g.id, level := .performed }], storesOnly := false }] })

/-- What a fence of a PE waits for (R174): every earlier access at the scope, or for acq the loads, atomics and table
operations alone. -/
def fenceDeps (c : Nat) (g : Firing) (scope : Nat) (k : FenceKind) (s : State) : List Dep :=
  match k with
  | .full | .rel => s.agentDeps c g.agent ((s.ctx c).scopeLevel scope) fun _ => true
  | .acq => (((s.fab c).accesses.filter fun a => decide (a.agent = g.agent) && a.op.returns).map fun a =>
      { id := a.id, level := .performed }) ++ (s.tagWaits c g.agent).map fun h => { id := h.id, level := .performed }

/-- fence: later accesses of the PE, or its stores, wait for the earlier ones; it emits once its condition holds (R174). -/
def execFenceNode (scope : Fin 32) (k : FenceKind) (s : State) : Out :=
  asFiring s fun c g m =>
    match g.phase with
    | .waitFence deps => .next (if s.depsDone c deps then finish c g m (passOut g) s else s)
    | .run =>
      let deps := fenceDeps c g scope.val k s
      if s.depsDone c deps then .next (finish c g m (passOut g) s)
      else
        .next ((setFiring c { g with phase := .waitFence deps } (pruneHolds c s)).modFab c fun f => { f with
          holds := f.holds ++ [{ agent := g.agent, deps := deps, storesOnly := decide (k = .rel) }] })
    | _ => .next s

/-- yield: its result (R175, R176). -/
def execYieldNode (s : State) : Out :=
  asFiring s fun c g m => if g.phase = .run then .next (finish c g m (passOut g) s) else .next s

/-! ## send, trap and brk (R177 to R179) -/

/-- Whether a send of a firing still waits for its engine's inbox. -/
def State.nodeSendWaits (s : State) (c fid : Nat) : Bool :=
  s.engs.any fun e => e.2.waiting.any fun k =>
    decide (k.from_.ctx = c ∧ k.from_.firing = fid ∧ k.from_.chain = 0) && !k.from_.bySeq

/-- send: the header of lane pair 0 of A and B, a constant zero-extended, lane as pair number 0 and ord as 64 bits (log 109);
it emits zeros when the inbox accepts, and a faulty header or rkind 0 raises OP.ILL, reporting the header's low word (R82,
R177, R342). -/
def execSendNode (a b : Sel) (s : State) : Out :=
  withEnv (.sendNode a b) s fun c g m env s =>
    let x := s.ctx c
    match g.phase with
    | .waitInbox => .next (if s.nodeSendWaits c g.id then s else finish c g m [dataOut g.tag g.mask []] s)
    | .run =>
      let lo := selRaw env true .zext a 0
      let raw := lo + selRaw env true .zext b 0 * 2 ^ 64
      match headerOf s x raw with
      | none => .next (nodeTrap c trapOpIll 0 (BitVec.ofNat 64 lo) s)
      | some h =>
        if !bit raw 96 then .next (nodeTrap c trapOpIll 0 (BitVec.ofNat 64 lo) s)
        else
          let cmd : Cmd := { raw := raw, hdr := h, from_ := {
            ctx := c, bySeq := false, reg := 0, agent := g.agent, tag := g.tag, node := m.emit.node, firing := g.id,
            chain := 0,
            deps := if h.acq then s.agentDeps c g.agent (x.scopeLevel h.scope) (fun _ => true) else [] } }
          .next (postCmd x cmd (setFiring c { g with phase := .waitInbox } s))
    | _ => .next s

/-- A trap that a firing raised by its own operation is followed by the breakpoint that its stage meets, which R322 keeps for
the resume (R347, R349). -/
def thenBreak (c : Nat) (g : Firing) (m : NodeImg) (outs : Option (List Emission)) (s : State) : State :=
  if !(s.ctx c).live then s
  else match (s.ctx c).nodeBreak m g.tag g.stage with
    | some k => nodeFreeze c k g m outs s
    | none => s

/-- trap: OP.TRAP with bits <9:4> of the code in the reason and <3:0> in the report; the firing counts as complete (R178,
R342). -/
def execTrapNode (i : BitVec 10) (s : State) : Out :=
  asFiring s fun c g m =>
    .next (thenBreak c g m none (nodeTrap c trapOpTrap (i.toNat / 16)
      (nodeTagReport m.emit.node g.tag + BitVec.ofNat 64 (i.toNat % 16 * 2 ^ 60)) (dropFiring c g.id s)))

/-- brk: OP.BRK with the identifier in the reason, before the firing emits; on resume it emits under R176 (R179, R342). -/
def execBrkNode (i : BitVec 10) (s : State) : Out :=
  asFiring s fun c g m =>
    .next (thenBreak c g m (some (passOut g)) (nodeTrap c trapOpBrk i.toNat (nodeTagReport m.emit.node g.tag)
      (setFiring c { g with phase := .held (some (passOut g)) } s)))

end Sys2Proof.Machine
end

