-- ==== Sys2Proof/Machine/NodeMem.lean ====
section
/-! DEFINITION. The node operations that reach memory: loads and stores (R165 to R169), scratchpad atomics (R170), the tag
tables (R171) and upd (R172), with the events that accept their accesses and return their results. -/

namespace Sys2Proof.Machine

open Sys2Proof

/-! ## Addresses (R165, R376) -/

/-- The active lanes, or pairs of a 64-bit type, ascending. -/
def elemIdx (wide : Bool) (m : BitVec 16) : List Nat := if wide then activePairs m else activeLanes m

/-- How an operation's address operands read a node constant: a 64-bit operation by its type (R376), and one of narrower
elements zero-extended (log 109). -/
def addrWiden (t : IntTy) : Widen := if IntTy.wide t then IntTy.widen t else .zext

/-- An address operand read in a lane, or in a pair of a 64-bit type. -/
def addrAt (env : OpEnv) (t : IntTy) (a : Sel) (i : Nat) : Nat := selRaw env (IntTy.wide t) (addrWiden t) a i

/-- An address operand read as 64 bits in the pair that holds an element; beside narrow data a lane select reads its pair's
number and ord all 64 bits (log 109). -/
def addr64 (env : OpEnv) (t : IntTy) (a : Sel) (i : Nat) : Nat :=
  selRaw env true (addrWiden t) a (if IntTy.wide t then i else i / 2)

/-- The elements of a contiguous access from a base that its lowest active element gives, with their addresses.  The sums are
taken unbounded, so that one past the address space is MEM.RANGE (log 17). -/
def runAddrs (env : OpEnv) (t : IntTy) (base : Nat → Nat) : List (Nat × Nat) :=
  let idx := elemIdx (IntTy.wide t) env.mask
  match idx with
  | [] => []
  | i0 :: _ => idx.map fun i => (i, base i0 + IntTy.bytes t * (i - i0))

/-- The addresses of lds and sts. -/
def spRun (env : OpEnv) (t : IntTy) (a : Sel) : List (Nat × Nat) := runAddrs env t (addrAt env t a)

/-- The addresses of ldg, stg, ldacq and strel. -/
def globRun (env : OpEnv) (t : IntTy) (a : Sel) : List (Nat × Nat) := runAddrs env t (addr64 env t a)

/-- The addresses of scatter and the atomics. -/
def eachAddr (env : OpEnv) (t : IntTy) (a : Sel) : List (Nat × Nat) :=
  (elemIdx (IntTy.wide t) env.mask).map fun i => (i, addrAt env t a i)

/-- The addresses of gather: base + s × index. -/
def gatherAddrs (env : OpEnv) (t : IntTy) (a b : Sel) : List (Nat × Nat) :=
  let idx := elemIdx (IntTy.wide t) env.mask
  match idx with
  | [] => []
  | i0 :: _ => idx.map fun i => (i, addr64 env t b i0 + IntTy.bytes t * addrAt env t a i)

/-! ## Faults before an access (R166) -/

/-- MEM.ALIGN of the lowest misaligned element. -/
def alignBad (n : Nat) (es : List (Nat × Nat)) : Option Bad :=
  (es.find? fun e => decide (e.2 % n ≠ 0)).map fun e => { code := trapMemAlign, report := e.2 }

/-- MEM.RANGE of scratchpad elements: an address of 2^30 or more, or a run that leaves its SP unit, which reports the run's
first address (R166; log 18). -/
def spRangeBad (run : Bool) (n : Nat) (es : List (Nat × Nat)) : Option Bad :=
  match es.find? fun e => decide (2 ^ 30 ≤ e.2) with
  | some e => some { code := trapMemRange, report := e.2 }
  | none => match es with
    | [] => none
    | e :: _ => if run && es.any fun d => decide ((d.2 + n - 1) / 2 ^ 18 ≠ e.2 / 2 ^ 18) then
        some { code := trapMemRange, report := e.2 } else none

/-- MEM.PERM of the lowest scratchpad element in a carve-out. -/
def spPermBad (s : State) (x : Ctx) (n : Nat) (es : List (Nat × Nat)) : Option Bad :=
  (es.find? fun e => s.carved (x.spAddr e.2) || s.carved (x.spAddr e.2 + n - 1)).map fun e =>
    { code := trapMemPerm, report := e.2 }

/-- The fault of scratchpad elements, in the order of R166 (log 18). -/
def spElemsBad (s : State) (x : Ctx) (run : Bool) (n : Nat) (es : List (Nat × Nat)) : Option Bad :=
  ((alignBad n es).or (spRangeBad run n es)).or (spPermBad s x n es)

/-- The fault of global elements, in the order of R166 (log 18). -/
def globElemsBad (s : State) (x : Ctx) (rd wr : Bool) (n : Nat) (es : List (Nat × Nat)) : Option Bad :=
  (alignBad n es).or (es.findSome? fun e => match globCheck s x rd wr e.2 with
    | .error b => some b
    | .ok _ => none)

/-! ## Issue (R165 to R170, R243) -/

/-- The memory node of an element by nominal cluster (R167): the SP unit of a scratchpad address, or the one whose number is the PE's. -/
def memNode (x : Ctx) (g : Firing) (glob : Bool) (a : Nat) : Nat :=
  if glob then (x.base + g.ref.cl) * 64 + g.ref.pe else a / 2 ^ 18

/-- The SP unit that serves an access: its memory node, relocated (R167, R318); the sequencer's accesses pass through none. -/
def Ctx.unitOf (x : Ctx) (c : Nat) (a : Access) : Nat :=
  if a.agent = .seq then 2 ^ 20 + c else x.reloc (a.mnode / 64) * 64 + a.mnode % 64

/-- Whether a context's accesses may be performed: it runs or drains, or retires with accesses still to perform (R124,
R326). -/
def Ctx.performs (x : Ctx) : Bool := x.live || decide (x.st = .retiring)

/-- The 64-byte line of an address of a context: a virtual address stands for its intermediate one. -/
def Ctx.lineOf (x : Ctx) (glob : Bool) (a : Nat) : Nat :=
  if glob then match x.toIa false false a with
    | .ok ia => ia / 64
    | .error _ => a / 64
  else a / 64

/-- What the predecessor that an ordering token names puts on a new access: where its footprint, pending or already performed
in part, shares a 64-byte line with the new one's, what is pending of it is performed first (R168), and what is posted through
a window acknowledged (R260). -/
def ordDeps (x : Ctx) (posted : List Posted) (g : Firing) (m : NodeImg) (glob : Bool) (es : List (Nat × Nat)) : List Dep :=
  match m.ordPort with
  | none => []
  | some p => match g.ports.getD p none with
    | none => []
    | some k =>
      let ps := x.fab.accesses.filter fun a => k.pred.contains a.id
      let qs := posted.filter fun p => k.pred.contains p.acc
      if (ps.any fun a => decide (a.glob = glob) && es.any fun e => a.foot.contains (x.lineOf glob e.2)) ||
          (qs.any fun p => glob && es.any fun e => p.foot.contains (x.lineOf glob e.2)) then
        ps.map (fun a => { id := a.id, level := .acked }) ++ qs.map fun p => { id := p.acc, level := .acked }
      else []

/-- The footprint of a firing's elements: the 64-byte lines that they touch (R168). -/
def Ctx.footOf (x : Ctx) (glob : Bool) (es : List (Nat × Nat)) : List Nat := (es.map fun e => x.lineOf glob e.2).dedup

/-- The accesses of a firing's elements, from access name `id` up, with the footprint of them all. -/
def elemAccesses (x : Ctx) (g : Firing) (glob : Bool) (n : Nat) (deps : List Dep) (foot : List Nat) (op : Nat → AccOp) :
    Nat → List (Nat × Nat) → List Access
  | _, [] => []
  | id, e :: t =>
    { id := id, agent := g.agent, mnode := memNode x g glob e.2, op := op e.1, glob := glob, addr := e.2, size := n,
      lane := e.1, firing := g.id, accepted := false, arrived := 0, deps := deps, parked := false, replay := false,
      foot := foot } :: elemAccesses x g glob n deps foot op (id + 1) t

/-- A firing issues the accesses of its elements and waits in phase `p`; `extra` must precede them beside the holds and the
ordering token of the firing (R168, R169, R174). -/
def issueAccesses (c : Nat) (g : Firing) (m : NodeImg) (p : Phase) (glob : Bool) (n : Nat) (extra : List Dep)
    (op : Nat → AccOp) (writes : Bool) (es : List (Nat × Nat)) (s : State) : State :=
  let s := pruneHolds c s
  let x := s.ctx c
  let deps := extra ++ x.fab.holdDeps g.agent writes ++ ordDeps x (s.posted.filter fun p => decide (p.ctx = c)) g m glob es
  (setFiring c { g with phase := p, got := [] } s).modFab c fun f => { f with
    nextId := f.nextId + es.length, accesses := f.accesses ++ elemAccesses x g glob n deps (x.footOf glob es) op f.nextId es }

/-- The mask of an ordering token: after a 64-bit operation each pair's bit stands in both its lanes (R17). -/
def orderMask (m : NodeImg) (g : Firing) : BitVec 16 :=
  if ((m.last.bind Instr.intTy).map IntTy.wide).getD false then pairMask g.mask else g.mask

/-- The ordering token of a store: zero lanes, naming the firing's accesses that are still pending or posted (R17, R150, R165,
R168, R260). -/
def orderOut (c : Nat) (g : Firing) (m : NodeImg) (s : State) : List Emission :=
  [{ dataOut g.tag (orderMask m g) [] with
     kind := .order,
     pred := (((s.fab c).accesses.filter fun a => decide (a.agent = g.agent ∧ a.firing = g.id)).map (·.id)) ++
       (s.posted.filter fun p => decide (p.ctx = c ∧ p.firing = some g.id)).map (·.acc) }]

/-- A load issues its accesses, or traps (R165, R166); LOAD_RESULT emits its result. -/
def issueLoad (c : Nat) (g : Firing) (m : NodeImg) (t : IntTy) (glob : Bool) (bad : Option Bad) (es : List (Nat × Nat))
    (s : State) : Out :=
  if g.phase ≠ .run then .next s
  else match bad with
    | some b => .next (nodeTrap c b.code 0 (BitVec.ofNat 64 b.report) s)
    | none => .next (issueAccesses c g m .waitMem glob (IntTy.bytes t) [] (fun _ => .load) false es s)

/-- A store issues its accesses, or traps (R165, R166); its ordering token leaves when they have been accepted. -/
def issueStore (c : Nat) (g : Firing) (m : NodeImg) (t : IntTy) (glob : Bool) (extra : List Dep) (v : Nat → Nat)
    (bad : Option Bad) (es : List (Nat × Nat)) (s : State) : Out :=
  if g.phase ≠ .run then .next s
  else match bad with
    | some b => .next (nodeTrap c b.code 0 (BitVec.ofNat 64 b.report) s)
    | none =>
      if es = [] then .next (finish c g m (orderOut c g m s) s)
      else .next (issueAccesses c g m .waitAccept glob (IntTy.bytes t) extra
        (fun i => .store (v i % 256 ^ IntTy.bytes t)) true es s)

/-! ## Loads and stores (R165, R169) -/

/-- lds. -/
def execLds (t : IntTy) (a : Sel) (o : Bool) (s : State) : Out :=
  withEnv (.lds t a o) s fun c g m env s =>
    let es := spRun env t a
    issueLoad c g m t false (spElemsBad s (s.ctx c) true (IntTy.bytes t) es) es s

/-- sts. -/
def execSts (t : IntTy) (a b : Sel) (o : Bool) (s : State) : Out :=
  withEnv (.sts t a b o) s fun c g m env s =>
    let es := spRun env t a
    issueStore c g m t false [] (selInt env t b) (spElemsBad s (s.ctx c) true (IntTy.bytes t) es) es s

/-- ldg. -/
def execLdg (t : IntTy) (a : Sel) (o : Bool) (s : State) : Out :=
  withEnv (.ldg t a o) s fun c g m env s =>
    let es := globRun env t a
    issueLoad c g m t true (globElemsBad s (s.ctx c) true false (IntTy.bytes t) es) es s

/-- stg. -/
def execStg (t : IntTy) (a b : Sel) (o : Bool) (s : State) : Out :=
  withEnv (.stg t a b o) s fun c g m env s =>
    let es := globRun env t a
    issueStore c g m t true [] (selInt env t b) (globElemsBad s (s.ctx c) false true (IntTy.bytes t) es) es s

/-- gather. -/
def execGather (t : IntTy) (a b : Sel) (o : Bool) (s : State) : Out :=
  withEnv (.gather t a b o) s fun c g m env s =>
    let es := gatherAddrs env t a b
    issueLoad c g m t true (globElemsBad s (s.ctx c) true false (IntTy.bytes t) es) es s

/-- scatter. -/
def execScatter (t : IntTy) (a b : Sel) (o : Bool) (s : State) : Out :=
  withEnv (.scatter t a b o) s fun c g m env s =>
    let es := eachAddr env t a
    issueStore c g m t false [] (selInt env t b) (spElemsBad s (s.ctx c) false (IntTy.bytes t) es) es s

/-- The hold of an acquire load: the PE's later accesses wait for its value (R169). -/
def acquireHold (g : Firing) (f : Fabric) : Fabric :=
  let ds := (f.accesses.filter fun a => decide (a.agent = g.agent ∧ a.firing = g.id)).map fun a =>
    ({ id := a.id, level := .performed } : Dep)
  if ds = [] then f else { f with holds := f.holds ++ [{ agent := g.agent, deps := ds, storesOnly := false }] }

/-- ldacq: a load after which the PE's accesses wait for its value (R169), whatever its scope's members are (log 114). -/
def execLdacq (t : IntTy) (a : Sel) (gn : Fin 32) (o : Bool) (s : State) : Out :=
  withEnv (.ldacq t a gn o) s fun c g m env s =>
    let es := globRun env t a
    if g.phase ≠ .run then .next s
    else match globElemsBad s (s.ctx c) true false (IntTy.bytes t) es with
      | some b => .next (nodeTrap c b.code 0 (BitVec.ofNat 64 b.report) s)
      | none => .next ((issueAccesses c g m .waitMem true (IntTy.bytes t) [] (fun _ => .load) false es s).modFab c
          (acquireHold g))

/-- strel: a store that waits until the PE's earlier accesses have been performed at the scope, whatever its
members are (R169; log 114). -/
def execStrel (t : IntTy) (a b : Sel) (gn : Fin 32) (o : Bool) (s : State) : Out :=
  withEnv (.strel t a b gn o) s fun c g m env s =>
    let es := globRun env t a
    issueStore c g m t true (s.agentDeps c g.agent ((s.ctx c).scopeLevel gn.val) fun _ => true) (selInt env t b)
      (globElemsBad s (s.ctx c) false true (IntTy.bytes t) es) es s

/-! ## Atomics (R170) -/

/-- An atomic's new value from the old one and its operands, at n bits (R170). -/
def atomNew (op : AtomOp) (t : IntTy) (old b c : Nat) : Nat :=
  match op with
  | .iadd => (old + b) % 2 ^ IntTy.bits t
  | .imin => if intVal t b < intVal t old then b else old
  | .imax => if intVal t old < intVal t b then b else old
  | .and => old &&& b
  | .or => old ||| b
  | .xor => old ^^^ b
  | .xchg => b
  | .cas => if old = c then b else old

/-- An atomic issues one access for each active lane or pair, or traps (R166, R170). -/
def execAtom (i : Instr) (op : AtomOp) (t : WTy) (a b cc : Sel) (s : State) : Out :=
  withEnv i s fun c g m env s =>
    let t := WTy.int t
    let es := eachAddr env t a
    if g.phase ≠ .run then .next s
    else match spElemsBad s (s.ctx c) false (IntTy.bytes t) es with
      | some b => .next (nodeTrap c b.code 0 (BitVec.ofNat 64 b.report) s)
      | none => .next (issueAccesses c g m .waitMem false (IntTy.bytes t) []
          (fun j => .atomic op (IntTy.signed t) (selInt env t b j) (selInt env t cc j)) true es s)

/-- atom.iadd. -/
def execAtomIadd (t : WTy) (a b : Sel) (s : State) : Out := execAtom (.atomIadd t a b) .iadd t a b .zero s
/-- atom.imin. -/
def execAtomImin (t : WTy) (a b : Sel) (s : State) : Out := execAtom (.atomImin t a b) .imin t a b .zero s
/-- atom.imax. -/
def execAtomImax (t : WTy) (a b : Sel) (s : State) : Out := execAtom (.atomImax t a b) .imax t a b .zero s
/-- atom.and. -/
def execAtomAnd (t : WTy) (a b : Sel) (s : State) : Out := execAtom (.atomAnd t a b) .and t a b .zero s
/-- atom.or. -/
def execAtomOr (t : WTy) (a b : Sel) (s : State) : Out := execAtom (.atomOr t a b) .or t a b .zero s
/-- atom.xor. -/
def execAtomXor (t : WTy) (a b : Sel) (s : State) : Out := execAtom (.atomXor t a b) .xor t a b .zero s
/-- atom.xchg. -/
def execAtomXchg (t : WTy) (a b : Sel) (s : State) : Out := execAtom (.atomXchg t a b) .xchg t a b .zero s
/-- atom.cas. -/
def execAtomCas (t : WTy) (a b c : Sel) (s : State) : Out := execAtom (.atomCas t a b c) .cas t a b c s

/-! ## Tag tables (R171) -/

/-- The entries of a tag table. -/
def tagEntries : Nat := 64

/-- The first key of the tag table of a firing's SP unit. -/
def tagBase (x : Ctx) (g : Firing) : Nat := ((x.first + g.ref.cl) * 64 + g.ref.pe) * tagEntries

/-- A valid entry of a tag table: valid <62>, key <61:30>, value <29:0>. -/
def tagEntry (key value : Nat) : BitVec 63 := BitVec.ofNat 63 (2 ^ 62 + key % 2 ^ 32 * 2 ^ 30 + value % 2 ^ 30)

/-- The entry that holds a key, if any. -/
def tagFind (m : SMap (BitVec 63)) (base key : Nat) : Option Nat :=
  (List.range tagEntries).find? fun e => decide ((smGet 0 m (base + e)).toNat / 2 ^ 30 = 2 ^ 32 + key % 2 ^ 32)

/-- The value of an entry. -/
def tagVal (m : SMap (BitVec 63)) (k : Nat) : Nat := (smGet 0 m k).toNat % 2 ^ 30

/-- A lookup of a key: the lane result and the table (R171). -/
def tagLookup (base key : Nat) (m : SMap (BitVec 63)) : Nat × SMap (BitVec 63) :=
  match tagFind m base key with
  | some e => (2 ^ 31 + tagVal m (base + e), m)
  | none => (0, m)

/-- An insert of a key and value (R171). -/
def tagInsert (base key value : Nat) (m : SMap (BitVec 63)) : Nat × SMap (BitVec 63) :=
  match tagFind m base key with
  | some e => (2 ^ 31 + 2 ^ 30 + tagVal m (base + e), smSet 0 m (base + e) (tagEntry key value))
  | none => match (List.range tagEntries).find? fun e => !(smGet 0 m (base + e)).getLsbD 62 with
    | some e => (2 ^ 31, smSet 0 m (base + e) (tagEntry key value))
    | none => (0, m)

/-- An eviction of a key: only its valid bit is cleared (R171). -/
def tagEvict (base key : Nat) (m : SMap (BitVec 63)) : Nat × SMap (BitVec 63) :=
  match tagFind m base key with
  | some e => (2 ^ 31 + tagVal m (base + e), smSet 0 m (base + e) (smGet 0 m (base + e) &&& BitVec.ofNat 63 (2 ^ 62 - 1)))
  | none => (0, m)

/-- The operations of a firing's lanes on a table, one after another; the results by lane. -/
def tagLanes (f : Nat → SMap (BitVec 63) → Nat × SMap (BitVec 63)) (m : SMap (BitVec 63)) : List Nat →
    SMap Nat × SMap (BitVec 63)
  | [] => ([], m)
  | l :: t =>
    let r := f l m
    let q := tagLanes f r.2 t
    (smSet 0 q.1 l r.1, q.2)

/-- The check of a tag table that an operation reads: single-bit errors of its entries are corrected, and the first entry with
more is ECC.SP (R342, R344; log 21). -/
def tagEcc (die base : Nat) (s : State) : State × Option Nat :=
  let bad := (List.range tagEntries).filter fun e => decide (2 ≤ popWord (BitVec.ofNat 64 (smGet 0 s.tagErr (base + e))))
  let hit := (List.range tagEntries).filter fun e => decide (popWord (BitVec.ofNat 64 (smGet 0 s.tagErr (base + e))) = 1)
  let s := { s with
    tagtab := hit.foldl (fun m e => smSet 0 m (base + e) (smGet 0 m (base + e) ^^^
      BitVec.ofNat 63 (smGet 0 s.tagErr (base + e)))) s.tagtab,
    tagErr := hit.foldl (fun m e => smSet 0 m (base + e) 0) s.tagErr }
  (s.countEcc die hit.length bad.length, bad.head?)

/-- The report of an uncorrectable tag-table entry, by physical cluster, PE and entry; its scratchpad address is not stated
(R342; log 22). -/
def tagReport (cluster pe entry : Nat) : Word := Config.eccReport trapEccSp [cluster, pe, entry]

/-- A tag-table operation of a firing, once what an acquire or a fence holds it behind is done (R169, R171, R174). -/
def tagOp (i : Instr) (s : State) (f : OpEnv → Nat → Nat → SMap (BitVec 63) → Nat × SMap (BitVec 63)) : Out :=
  withEnv i s fun c g m env s =>
    let x := s.ctx c
    let deps := match g.phase with
      | .waitFence ds => ds
      | _ => x.fab.holdDeps g.agent true
    if !s.depsDone c deps then .next (setFiring c { g with phase := .waitFence deps } s)
    else
      let base := tagBase x g
      let e := tagEcc (x.dieAt g.ref.cl) base s
      match e.2 with
      | some n => .next (nodeTrap c trapEccSp 0 (tagReport (x.first + g.ref.cl) g.ref.pe n) e.1)
      | none =>
        let r := tagLanes (f env base) e.1.tagtab (activeLanes env.mask)
        .next (finish c g m [dataOut g.tag g.mask (mkLanes fun l => BitVec.ofNat 32 (smGet 0 r.1 l))]
          { e.1 with tagtab := r.2 })

/-- lookup (R171). -/
def execLookup (a : Sel) (s : State) : Out :=
  tagOp (.lookup a) s fun env base l m => tagLookup base (selRaw env false .zext a l) m

/-- insert (R171). -/
def execInsert (a b : Sel) (s : State) : Out :=
  tagOp (.insert a b) s fun env base l m => tagInsert base (selRaw env false .zext a l) (selRaw env false .zext b l) m

/-- evict (R171). -/
def execEvict (a : Sel) (s : State) : Out :=
  tagOp (.evict a) s fun env base l m => tagEvict base (selRaw env false .zext a l) m

/-! ## upd (R172) -/

/-- MEM.UBIND of an upd, reporting node and tag (R172, R342). -/
def updBind (c reason : Nat) (g : Firing) (m : NodeImg) (s : State) : Out := trapNodeTag c trapMemUbind reason g m s

/-- The pairs of an upd, from name `id` up (R172, R210). -/
def updPairs (x : Ctx) (g : Firing) (m : NodeImg) (env : OpEnv) (t : IntTy) (a b : Sel) (h : Nat) (deps : List Dep) :
    Nat → List Nat → List Pair
  | _, [] => []
  | id, i :: r =>
    { id := id, handle := h, offset := addrAt env t a i * IntTy.bytes t, value := selInt env t b i % 256 ^ IntTy.bytes t,
      size := IntTy.bytes t, key := x.keyOf g.tag, node := m.emit.node, lane := laneKey (IntTy.wide t) i, firing := g.id,
      agent := g.agent, deps := deps } :: updPairs x g m env t a b h deps (id + 1) r

/-- upd: pairs into the update region of a handle; its ordering token leaves when every pair has been accepted (R172). -/
def execUpd (t : WTy) (a b : Sel) (s : State) : Out :=
  withEnv (.upd t a b) s fun c g m env s =>
    let ty := WTy.int t
    match g.phase with
    | .waitPairs =>
      .next (if (s.fab c).pairs.any fun p => decide (p.firing = g.id ∧ p.agent = g.agent) then s
        else finish c g m (orderOut c g m s) s)
    | .run =>
      let x := s.ctx c
      let h := m.link % 16
      match x.binding h with
      | none => updBind c 8 g m s
      | some d =>
        if d.width ≠ IntTy.bytes ty then updBind c 9 g m s
        else
          let idx := elemIdx (IntTy.wide ty) env.mask
          match idx.find? fun i => decide (d.size * 2 ^ 16 < (addrAt env ty a i + 1) * IntTy.bytes ty) with
          | some i => .next (nodeTrap c trapMemRange 0 (BitVec.ofNat 64 (d.base + addrAt env ty a i * IntTy.bytes ty)) s)
          | none =>
            if idx = [] then .next (finish c g m (orderOut c g m s) s)
            else
              let s := pruneHolds c s
              .next ((setFiring c { g with phase := .waitPairs, got := [] } s).modFab c fun f => { f with
                nextId := f.nextId + idx.length,
                pairs := f.pairs ++ updPairs x g m env ty a b h (f.holdDeps g.agent true) f.nextId idx })
    | _ => .next s

/-! ## Acceptance, and the result of a load (R165, R167, R170) -/

/-- The entries of an address-compare queue (R167). -/
def queueEntries : Nat := 16

/-- Whether the accesses and pairs that an access waits for have reached their memory nodes and sorters: it waits for them
outside the queues, which would otherwise fill with accesses that none of them can pass (R167, R169, R174). -/
def State.depsEntered (s : State) (c : Nat) (a : Access) : Bool :=
  a.deps.all fun d => s.depDone c { d with level := .accepted }

/-- The accesses that an SP unit's queue holds, of any context, with their contexts (R167). -/
def State.unitQueue (s : State) (u : Nat) : List (Nat × Access) :=
  s.ctxs.flatMap fun p => if p.2.performs then
    (p.2.fab.accesses.filter fun b => b.accepted && decide (p.2.unitOf p.1 b = u)).map fun b => (p.1, b) else []

/-- Whether an access of a firing may enter its memory node's queue: a free entry, what it waits for entered before it, and
for an atomic every earlier lane (R167, R170). -/
def State.mayAccept (s : State) (c k : Nat) (a : Access) : Bool :=
  let f := s.fab c
  decide ((s.unitQueue ((s.ctx c).unitOf c a)).length < queueEntries) &&
    s.depsEntered c a &&
    (match a.op with
      | .atomic _ _ _ _ => (f.accesses.take k).all fun b => b.accepted || decide (b.firing ≠ a.firing ∨ b.agent ≠ a.agent)
      | .load | .store _ => true)

/-- A store of a firing has had its last access accepted: its ordering token leaves (R165). -/
def storeAccepted (c fid : Nat) (s : State) : State :=
  match (s.fab c).firings.find? fun g => g.id == fid with
  | none => s
  | some g =>
    if g.phase ≠ .waitAccept ∨ ((s.fab c).accesses.any fun a => decide (a.agent = g.agent ∧ a.firing = fid) && !a.accepted)
    then s
    else match s.nodeImg (s.ctx c) g.ref with
      | none => s
      | some m => finish c g m (orderOut c g m s) s

/-- MEMORY_ACCESS_ACCEPT: the k-th access of a context enters its memory node's queue, behind those that arrived there
before it (R167, R243). -/
def execMemoryAccessAccept (c : CtxId) (k : Nat) (s : State) : Out :=
  let f := s.fab c.val
  match f.accesses[k]? with
  | none => .next s
  | some a =>
    if !(s.ctx c.val).live || a.accepted || !s.mayAccept c.val k a then .next s
    else
      let t : State := { s with arrivals := s.arrivals + 1 }
      .next (storeAccepted c.val a.firing (t.modFab c.val fun f => { f with
        accesses := f.accesses.eraseIdx k ++ [{ a with accepted := true, arrived := s.arrivals }] }))

/-- The type whose elements a load or atomic returns. -/
def NodeImg.loadTy (m : NodeImg) : IntTy := (m.last.map Instr.winTy).getD .n32

/-- LOAD_RESULT: the result token of a load or atomic, once every active lane has returned (R165, R170). -/
def execLoadResult (c : CtxId) (f : Nat) (s : State) : Out :=
  match (s.fab c.val).firings.find? fun g => g.id == f with
  | none => .next s
  | some g =>
    if !(s.ctx c.val).live || decide (g.phase ≠ .waitMem) ||
        (s.fab c.val).accesses.any (fun a => decide (a.agent = g.agent ∧ a.firing = f)) then .next s
    else match s.nodeImg (s.ctx c.val) g.ref with
      | none => .next s
      | some m =>
        let t := m.loadTy
        let r := byElem (IntTy.wide t) g.mask fun i => quiet (extendRaw t (smGet 0 g.got i))
        .next (finish c.val g m [dataOut g.tag r.mask r.lanes] s)

end Sys2Proof.Machine
end

