-- ==== Sys2Proof/Machine/MemEvents.lean ====
section
/-! DEFINITION. Memory-side events: the performance of an access (R243 to R245, R250, R255), translation misses, walks and page
faults (R333 to R341), invalidation (R335), and scrubbing (R345). -/

namespace Sys2Proof.Machine

open Sys2Proof

/-! ## Performance of an access (R243 to R245) -/

/-- The intermediate or scratchpad bytes of an access of a context: its first address and whether it is global. -/
def accPlace (x : Ctx) (a : Access) : Nat × Bool :=
  if a.glob then match x.toIa false false a.addr with
    | .ok ia => (ia, true)
    | .error _ => (a.addr, true)
  else (x.spAddr a.addr, false)

/-- Whether an access of one context and an access of another, or the same, touch one byte. -/
def accOverlap (x : Ctx) (a : Access) (y : Ctx) (b : Access) : Bool :=
  let p := accPlace x a
  let q := accPlace y b
  decide (p.2 = q.2 ∧ p.1 < q.1 + b.size ∧ q.1 < p.1 + a.size)

/-- Whether an access is parked on a translation (R255): it waits for one, or has met a page fault. -/
def State.parked (s : State) (c : Nat) (a : Access) : Bool :=
  a.parked || s.misses.any (fun m => decide (m.who = .access c a.id)) ||
    s.faultToks.any fun m => decide (m.who = .access c a.id)

/-- Whether an access that arrived earlier at the same memory node holds an access back: one to the same location, a parked
one to the same line, or one that is replayed after a restore (R167, R250, R255). -/
def accHeld (s : State) (c k : Nat) (a : Access) : Bool :=
  let x := s.ctx c
  ((x.fab.accesses.take k).any fun b => b.accepted && decide (x.unitOf c b = x.unitOf c a) &&
    (accOverlap x b x a || b.replay || (s.parked c b && decide (b.glob = a.glob) &&
      decide (x.lineOf b.glob b.addr = x.lineOf a.glob a.addr)))) ||
  (s.unitQueue (x.unitOf c a)).any fun e => decide (e.1 ≠ c ∧ e.2.arrived < a.arrived) &&
    (accOverlap (s.ctx e.1) e.2 x a || (s.parked e.1 e.2 && decide (e.2.glob = a.glob) &&
      decide ((s.ctx e.1).lineOf e.2.glob e.2.addr = x.lineOf a.glob a.addr)))

/-- The die from which an access is issued. -/
def accDie (x : Ctx) (a : Access) : Nat :=
  match a.agent with
  | .pe cl _ => x.dieAt cl
  | .seq => x.seqDie
  | .eng e => e.cluster.val / 8

/-- The new value that an access writes over an old one, if it writes (R165, R170). -/
def accNew (a : Access) (old : Nat) : Option Nat :=
  match a.op with
  | .load => none
  | .store v => some v
  | .atomic op signed b c =>
    some (atomNew op (if signed then (if a.size = 8 then .i64 else .i32) else (if a.size = 8 then .n64 else .n32)) old b c)

/-- An access to scratchpad takes effect in the bank that owns its bytes (R240, R245). -/
def performSp (x : Ctx) (a : Access) (s : State) : XRes :=
  let p := x.spAddr a.addr
  let r := if a.op.returns then spRead p a.size s else { s := s, val := 0, bad := none }
  match r.bad with
  | some w => .bad { code := trapEccSp, report := w } r.s
  | none => match accNew a r.val with
    | none => .ok r.val r.s
    | some v =>
      let w := spWrite p a.size v r.s
      match w.bad with
      | some e => .bad { code := trapEccSp, report := e } w.s
      | none => .ok r.val w.s

/-- A store to a window is posted over the route that carries it, under its access's name (R260, R353). -/
def postStore (c die ia : Nat) (bytes : List Byte) (acc : Nat) (firing : Option Nat) (foot : List Nat) (src : Nat)
    (s : State) : State :=
  { s with posted := s.posted ++
      [{ id := (s.posted.foldl (fun n p => max n p.id) 0) + 1, ctx := c, die := die, ia := ia, bytes := bytes, acc := acc,
         firing := firing, done := false, foot := foot, src := src }] }

/-- The sources of posted stores but the memory nodes: the engines, the device for a context, and the edge adders' ports. -/
def srcEng (e : EngRef) : Nat := 2 ^ 21 + engKey e
@[inherit_doc srcEng] def srcDevice (c : Nat) : Nat := 2 ^ 22 + c
@[inherit_doc srcEng] def srcPort (p : Nat) : Nat := 2 ^ 23 + p

/-- A posted store of an engine, or of the device for a context, under a name of its own. -/
def postNew (c die ia : Nat) (bytes : List Byte) (src : Nat) (s : State) : State :=
  (postStore c die ia bytes (s.fab c).nextId none [] src s).modFab c fun f => { f with nextId := f.nextId + 1 }

/-- A global access takes effect at its home, or leaves through a window (R242, R245, R260). -/
def performGlob (c : Nat) (a : Access) (s : State) : XRes :=
  match (s.ctx c).toIa a.op.returns a.op.writes a.addr with
  | .error b => .bad b s
  | .ok ia => XRes.atVa a.addr <|
    match accNew a 0 with
    | none => readIa (.access c a.id) (accDie (s.ctx c) a) ia a.size s
    | some v =>
      if inWindow ia then (windowCheck (accDie (s.ctx c) a) ia s).bind fun _ s => 
        .ok 0 (postStore c (accDie (s.ctx c) a) ia (toBytes v a.size) a.id
          (if a.agent = .seq then none else some a.firing) a.foot ((s.ctx c).unitOf c a) s)
      else writeIa (.access c a.id) ia a.size v s

/-- The value of a load or atomic reaches the firing or the pending write that waits for it (R61, R165). -/
def deliver (c : Nat) (a : Access) (v : Nat) (s : State) : State :=
  if !a.op.returns then s
  else match a.agent with
    | .pe _ _ => s.modFab c fun f => { f with
        firings := f.firings.map fun g => if g.id = a.firing then { g with got := smSet 0 g.got a.lane v } else g }
    | .seq => s.modSeq c fun q => { q with
        long := q.long.map fun l => match l.src with
          | .loads id got => if id = a.firing then { l with src := .loads id (smSet 0 got a.lane v) } else l
          | .value _ | .estat _ => l }
    | .eng _ => s

/-- Removes an access that has been performed or that has trapped. -/
def dropAccess (c id : Nat) (s : State) : State :=
  s.modFab c fun f => { f with accesses := f.accesses.filter fun a => a.id ≠ id }

/-- ACCESS_PERFORM: the k-th access of a context takes effect at its point of coherence, once what must precede it has been
done (R243, R245, R250). -/
def execAccessPerform (c : CtxId) (k : Nat) (s : State) : Out :=
  match (s.fab c.val).accesses[k]? with
  | none => .next s
  | some a =>
    if !(s.ctx c.val).performs || !a.accepted || !s.depsDone c.val a.deps || accHeld s c.val k a then .next s
    else match (if a.glob then performGlob c.val a s else performSp (s.ctx c.val) a s) with
      | .stall s => .next s
      | .bad b s => .next (ctxTrap c.val b (dropAccess c.val a.id s))
      | .ok v s => .next (deliver c.val a v (dropAccess c.val a.id s))

/-! ## Misses and walks (R334, R335, R337) -/

/-- The misses that a die's walker holds (R337). -/
def walkerMisses : Nat := 1024

/-- TLB_MISS: the k-th miss goes to the walker of its die, or joins a walk of its page (R335, R337). -/
def execTlbMiss (k : Nat) (s : State) : Out :=
  match s.misses[k]? with
  | none => .next s
  | some m =>
    let walking := s.misses.filter fun n => n.walking && decide (dieOf n.ia = dieOf m.ia)
    let joins := walking.any fun n => decide (n.ia / 2 ^ 16 = m.ia / 2 ^ 16)
    if joins ∨ (walking.map fun n => n.ia / 2 ^ 16).dedup.length < walkerMisses then
      .next { s with misses := s.misses.set k { m with walking := true } }
    else .next s

/-- The task at the head of a queue leaves it before its launch. -/
def Ctx.dropHead (x : Ctx) : Ctx :=
  { x with queue := x.queue.drop 1, st := if x.queue.drop 1 = [] then .idle else .queued }

/-- The scheduler cannot read what a launch names because a page-table entry is malformed or uncorrectable: the launch, of the
queue's head or of the channel's token, is refused with the trap's code (R10, R308; log 23). -/
def refuseLaunch (c : Nat) (queued : Bool) (b : Bad) (s : State) : State :=
  let x := s.ctx c
  let report := BitVec.ofNat 64 b.report
  if queued then match x.queue with
    | t :: _ => if x.st = .queued then refuse c b.code 0 report t.cookie (s.modCtx c Ctx.dropHead) else s
    | [] => s
  else match x.channel with
    | t :: rest => refuse c b.code 0 report (t.getD 6 0) (s.modCtx c fun x => { x with channel := rest })
    | [] => s

/-- The command in progress of an engine fails at a translation that its access needs: it stops there, until its commit
(R183, R188). -/
def failRun (e : EngRef) (b : Bad) (s : State) : State :=
  let g := s.eng e
  match g.run with
  | some r => s.setEng e { g with run := some { r with
      phase := .finished, code := b.code, reason := 0, result := 0, report := b.report, todo := [], got := [] } }
  | none => s

/-- A walk ends in a trap of the context that waits for it, for an engine in the failure of its command (R188, R334, R337,
R342). -/
def walkTrap (w : MissWho) (b : Bad) (s : State) : State :=
  match s.whoCtx w with
  | none => s
  | some c => match w with
    | .sched _ q => refuseLaunch c q b s
    | .access _ id => ctxTrap c b (dropAccess c id s)
    | .eng e => failRun e b s
    | .seq _ | .sorter _ _ | .spill _ => ctxTrap c b s

/-- Whether a miss waits for the walk that ended in `r` for another one, and has the same answer (R335). -/
def Miss.answered (m n : Miss) (r : WalkRes) (s : State) : Bool :=
  n.walking && decide (dieOf n.ia = dieOf m.ia ∧ n.ia / 2 ^ 16 = m.ia / 2 ^ 16 ∧
    (n.wr = m.wr ∨ (walk n.ia n.wr s).1 = r))

/-- WALK_RESULT: the walker answers the k-th miss, with every miss that has joined its walk (R334, R335, R337, R339). -/
def execWalkResult (k : Nat) (s : State) : Out :=
  match s.misses[k]? with
  | none => .next s
  | some m =>
    if !m.walking then .next s
    else
      let r := pageLook m.ia m.wr s
      let joined := s.misses.filter fun n => m.answered n r.1 s
      let rest : State := { r.2 with misses := s.misses.filter fun n => !m.answered n r.1 s }
      let trap := fun (b : Bad) (t : State) => joined.foldl (fun t n => walkTrap n.who b t) t
      match r.1 with
      | .leaf e => .next { r.2 with misses := s.misses.filter fun n => !(decide (dieOf n.ia = dieOf m.ia) && e.hits n.ia n.wr) }
      | .fault => .next { rest with
          faultToks := s.faultToks ++ joined.map fun n => { who := n.who, ia := n.ia, wr := n.wr } }
      | .malformed pa => .next (trap { code := trapMemWalk, report := pa } rest)
      | .ecc pa => .next (trap { code := trapEccHbm, report := pa } (logEvent pa rest))

/-! ## Page faults (R310, R339, R340) -/

/-- ctx.fault names the first page fault since pend was last clear (R340). -/
def Ctx.noteFault (x : Ctx) (ia : Nat) (wr : Bool) : Ctx :=
  if x.faultPend then x else { x with faultPend := true, faultWr := wr, faultIa := ia }

/-- A page fault of a context whose region runs: ctx.fault, the vector, and the drain; done that has passed its first step
waits for the restore and runs again (R124, R339). -/
def faultDrain (c ia : Nat) (wr : Bool) (s : State) : State :=
  let x := s.ctx c
  let s : State := { s with vectors := s.vectors ||| BitVec.ofNat 128 (2 ^ (64 + c)) }
  let s := s.modCtx c fun x => x.noteFault ia wr
  if x.st = .retiring ∧ x.ending = none then
    (dropApply c s).modCtx c fun x => { x with
      st := .draining, cause := some .page, causeCode := 0, causeReason := 0, causeReport := 0,
      fab := { x.fab with draining := true },
      seq := { x.seq with phase := .stopped, epc := epcWord x.seq.addr } }
  else beginDrain c .page 0 0 0 s

/-- A kind 3 token for a context that a page fault suspends: MEM.PAGE with the intermediate address, and wr in <63> (R339,
R342). -/
def pageToken (x : Ctx) (seqno : Nat) (cookie : Word) : Completion :=
  { kind := 3, code := trapMemPage, reason := 0, value := 0, flags := x.flags.setWidth 64,
    report := BitVec.ofNat 64 (x.faultIa + bitN x.faultWr * 2 ^ 63), extra := 0, cookie := cookie, seqno := seqno }

/-- The launch token at the head of a channel becomes a task at the head of the queue, behind a graph that was pre-empted
(R308, R310; log 26). -/
def Ctx.takeLaunch (x : Ctx) : Ctx :=
  match x.channel with
  | [] => x
  | t :: rest =>
    let k : Task := { taskOf t false with seqno := x.launches }
    { x with channel := rest, launches := x.launches + 1,
             queue := if x.saved.isSome ∧ x.st = .queued then x.queue.take 1 ++ k :: x.queue.drop 1 else k :: x.queue }

/-- A page fault in the reads of a launch, of the queue's head or of the channel's token: a graph of the context that runs
drains; where none runs, the task goes to the head of the queue and the context is Suspended with a kind 3 token for that
task (R308, R339).  A context that is Suspended keeps the cause of its own graph, and a retiring one checks the token again. -/
def faultLaunch (c ia : Nat) (queued wr : Bool) (s : State) : State :=
  let x := s.ctx c
  if x.live then (if queued then s else faultDrain c ia wr s)
  else if x.st = .free ∨ x.st = .retiring ∨ (queued ∧ x.st ≠ .queued) then s
  else
    let s : State := { s with vectors := s.vectors ||| BitVec.ofNat 128 (2 ^ (64 + c)) }
    let y := (if queued then x else x.takeLaunch).noteFault ia wr
    let cookie := if queued then ((y.queue.head?).map (·.cookie)).getD 0 else (x.channel.headD []).getD 6 0
    let seqno := if queued then ((y.queue.head?).map (·.seqno)).getD 0 else x.launches
    egressSend c (pageToken y seqno cookie) (s.setCtx c (if x.st = .suspended then y else { y with st := .suspended, cause := some .page }))

/-- A sequencer that waits for its own faulting access or apply counts as stopped at it (R321, R339; log 25): the
instruction runs again after the restore. -/
def parkSeq (c : Nat) (s : State) : State :=
  if (s.ctx c).st ≠ .draining ∨ (s.seq c).phase = .stopped then s
  else (dropApply c s).modSeq c fun q => { q with phase := .stopped, epc := epcWord q.addr }

/-- PAGE_FAULT: the k-th fault token reaches the unit that missed, whose access stays parked (R339); one of a graph that has
ended is dropped. -/
def execPageFault (k : Nat) (s : State) : Out :=
  match s.faultToks[k]? with
  | none => .next s
  | some t =>
    let s' : State := { s with faultToks := s.faultToks.eraseIdx k }
    match s.whoCtx t.who with
    | none => .next s'
    | some c => match t.who with
      | .sched _ q => .next (faultLaunch c t.ia q t.wr s')
      | .access _ id =>
        let p := s'.modFab c fun f => { f with accesses := f.accesses.map fun a => if a.id = id then { a with parked := true } else a }
        .next (if (s.ctx c).trappable then faultDrain c t.ia t.wr p else dropAccess c id s')
      | .eng e => .next (if (s.ctx c).trappable then faultDrain c t.ia t.wr s'
          else s'.setEng e { s'.eng e with run := none })
      | .seq _ => .next (parkSeq c (faultDrain c t.ia t.wr s'))
      | .spill _ => .next (if (s.ctx c).trappable then faultDrain c t.ia t.wr s' else s')
      | .sorter _ _ =>
        let r := faultDrain c t.ia t.wr s'
        .next (if (r.ctx c).apply.isSome then parkSeq c r else r)

/-! ## Page-table registers (R335, R336) -/

/-- PT_ROOT_WRITE: discarded unless no context holds a launched graph (R335). -/
def execPtRootWrite (v : Word) (s : State) : Out :=
  .next (if s.anyLaunched ∨ !s.blocksOn ∨ !s.regCredit then s else { s with ptRoot := v &&& 0xFFFFF00000 })

/-- Whether an invalidation of a size and page names a byte that an entry maps (R335). -/
def TlbEntry.named (e : TlbEntry) (size page : Nat) : Bool :=
  let n := match size with
    | 0 => 16
    | 1 => 25
    | _ => 29
  let b := max n (levelBits e.level)
  decide (size = 3) || decide (page / 2 ^ b = e.ia / 2 ^ b)

/-- PT_INVAL: go sets busy and starts the invalidation of the named range; go while busy is discarded (R335). -/
def execPtInval (v : Word) (s : State) : Out :=
  let w := v.toNat
  let keep := v &&& 0xFFFFFFFF0000
  if !s.blocksOn || !s.regCredit then .next s
  else if !bit w 0 then .next { s with ptInval := (s.ptInval &&& 0x8000000000000000) ||| keep }
  else if bit s.ptInval.toNat 63 then .next s
  else .next { s with
    ptInval := 0x8000000000000000 ||| keep, invalRange := (bits w 47 46, bits w 45 16 * 2 ^ 16) }

/-- Keeps the entries of every TLB that `p` selects. -/
def State.keepTlb (s : State) (p : TlbEntry → Bool) : State :=
  { s with tlb := s.tlb.filterMap fun d => let es := d.2.filter p
                                           if es = [] then none else some (d.1, es) }

/-- INVALIDATION_COMPLETE: the entries of the named range are gone from every TLB; an access uses a translation only in the
step that performs it, so busy clears (R335, R336). -/
def execInvalidationComplete (s : State) : Out :=
  .next (if bit s.ptInval.toNat 63 then
      { s.keepTlb (fun e => !e.named s.invalRange.1 s.invalRange.2) with ptInval := s.ptInval &&& 0x7FFFFFFFFFFFFFFF }
    else s)

/-- A die's TLB drops its k-th entry: the accesses that follow use the translation that the table now holds (R335, R336; log
24). -/
def dropTlb (die k : Nat) (s : State) : State :=
  { s with tlb := smSet [] s.tlb die ((smGet [] s.tlb die).eraseIdx k) }

/-! ## Scrubbing (R344, R345) -/

/-- SCRUB_PASS: the scrubber of a die reads the HBM word that holds a physical byte of its stacks: a single-bit error is
corrected, an uncorrectable one is logged and counted (R344, R345). -/
def execScrubPass (d : Die) (w : BitVec 40) (s : State) : Out :=
  let a := w.toNat / 8 * 8
  if dieOf a ≠ d.val then .next s
  else
    let r := hbmRead a 8 s
    let s : State := { r.s with scrubs := bump r.s.scrubs d.val 1 }
    .next (match r.bad with
      | some e => logEvent e s
      | none => s)

end Sys2Proof.Machine
end

