-- ==== Sys2Proof/Machine/FabricEvents.lean ====
section
/-! DEFINITION. The events of a region's fabric: matching at M with overflow and round markers (R25 to R28, R320, R321), index
tokens (R105), plane switches (R32), quiescence (R15), replies to node ports (R377) and the watchdog with its hang map (R37,
R324). -/

namespace Sys2Proof.Machine

open Sys2Proof

/-! ## Round markers (R159, R320) -/

/-- A marker reaches a port of a node (R320): a merge forwards the first one at once, a gate holds it, and any other node
forwards one on each output when the last of its ports is marked. -/
def takeMarker (c : Nat) (r : NodeRef) (m : NodeImg) (port : Nat) (s : State) : State :=
  let old := smGet 0 (s.fab c).markers r.key
  let s := s.modFab c fun f => { f with markers := smSet 0 f.markers r.key (old ||| 2 ^ port) }
  match m.head.rule with
  | .gate =>
    if smGet 0 (s.fab c).passed r.key ≠ 0 then s
    else s.modFab c fun f => { f with heldMarks := smSet 0 f.heldMarks r.key 1 }
  | .merge => if old = 0 then sendMarkers c r m s else s
  | .strict => if s.allMarked (s.ctx c) r && !bit old port then sendMarkers c r m s else s

/-! ## Matching (R17, R25 to R28) -/

/-- The entries of a PE's matching table (R27). -/
def tableEntries : Nat := 512

/-- The bytes of an overflow record (R27). -/
def spillRecord : Nat := 128

/-- Where an operand that must wait is stored (R27, R28): the table, the cluster's overflow store, the global area; a deep
tag's in the global area; nothing where there is no room.  Its record is data: the layout of a record's 128 bytes is not
stated, and none of them is written (log 40). -/
def State.waitPlace (s : State) (x : Ctx) (t : Tok) : Option Place :=
  let inTable := (x.fab.waiting.filter fun w =>
    decide (w.place = .table ∧ w.tok.dest.cl = t.dest.cl ∧ w.tok.dest.pe = t.dest.pe)).length
  let inStore := (x.fab.waiting.filter fun w => decide (w.place = .store ∧ w.tok.dest.cl = t.dest.cl)).length
  let inArea := (x.fab.waiting.filter fun w => decide (w.place = .area)).length
  let areaRoom := decide (inArea < bits x.ovfp.toNat 15 4 * 2 ^ 16 / spillRecord)
  if (x.space (tagSpace t.tag)).kind = .deep then (if areaRoom then some .area else none)
  else if inTable < tableEntries then some .table
  else if inStore < s.carveOf (x.first + t.dest.cl) / spillRecord then some .store
  else if areaRoom then some .area
  else none

/-- The waiting operands of a frame: those of a node and tag (R25). -/
def Fabric.frame (f : Fabric) (r : NodeRef) (t : Tag) : List Waiting :=
  f.waiting.filter fun w => decide (w.tok.dest = r ∧ w.tok.tag = t)

/-- The trap of an uncorrectable operand, by the store that holds it (R342, R344). -/
def Place.trap : Place → Nat
  | .table => trapEccMt
  | .store => trapEccSp
  | .area => trapEccHbm

/-- The mask of a strict firing: the AND of the masks on its data ports but for an ordering port (R17).  R17 does not name a gate
firing; the model takes its mask in the same way, over all the gate's ports (log 115).  The program that R267 and R268 print
wants a wider mask of one of its strict nodes (log 125). -/
def fireMask (m : NodeImg) (ts : List Tok) : BitVec 16 :=
  ts.foldl (fun k t => if t.port < m.head.inputs ∧ some t.port ≠ m.ordPort then k &&& t.mask else k) 0xFFFF

/-- A node fires on tokens: the firing enters the pipeline of its PE (R16, R26). -/
def fire (c : Nat) (r : NodeRef) (tag : Tag) (mask : BitVec 16) (ts : List Tok) (s : State) : State :=
  let at_ := fun p => ts.find? fun t => t.port == p
  s.modFab c fun f => { f with
    nextId := f.nextId + 1, idle := 0,
    firings := f.firings ++ [{
      id := f.nextId, ref := r, tag := tag, ports := [at_ 0, at_ 1, at_ 2], scales := [at_ 4, at_ 5], stage := 0, x := [],
      mask := mask, act := mask, fwd := [], fl := 0, phase := .run, wins := [], got := [] }] }

/-- The token at M is consumed from its channel. -/
def dropTok (c k : Nat) (s : State) : State := s.modFab c fun f => { f with chan := f.chan.eraseIdx k }

/-- The places of waiting operands in the global overflow area, by record (R28; log 40). -/
def Fabric.inArea (f : Fabric) : List Waiting := f.waiting.filter fun w => decide (w.place = .area)

/-- Reaches record `i` of the global overflow area, to read or to write it (R28, R332): the area needs both permissions over
its whole extent, and the record's page a translation. -/
def reachArea (c : Nat) (wr : Bool) (i : Nat) (s : State) : XRes :=
  let x := s.ctx c
  let base := bits x.ovfp.toNat 47 16 * 2 ^ 16
  match extentBad x base (bits x.ovfp.toNat 15 4) with
  | some b => .bad b s
  | none => match x.toIa true wr (base + spillRecord * i) with
    | .error b => .bad b s
    | .ok ia => translate (.spill c) ia wr s

/-- Reaches several records of the area, one after another. -/
def reachAreas (c : Nat) : List Nat → State → XRes
  | [], s => .ok 0 s
  | i :: t, s => (reachArea c false i s).bind fun _ s => reachAreas c t s

/-- The die that counts an operand's upsets: the home of its record in the global overflow area, else its PE's (R27, R28,
R371). -/
def State.operandDie (s : State) (x : Ctx) (w : Waiting) : Nat :=
  match w.place with
  | .table | .store => x.dieAt w.tok.dest.cl
  | .area => match x.toIa true false (bits x.ovfp.toNat 47 16 * 2 ^ 16 + spillRecord * x.fab.inArea.idxOf w) with
    | .ok ia => dieOf ((s.tlbLook ia false).getD ia)
    | .error _ => x.dieAt w.tok.dest.cl

/-- Counts the upsets found in waiting operands, each on its die (R344, R371). -/
def State.countOperands (s : State) (x : Ctx) (ws : List Waiting) : State :=
  let n := fun (w : Waiting) => popWord (BitVec.ofNat 64 w.err)
  s.countWords id ((ws.filter fun w => n w == 1).map (s.operandDie x)) ((ws.filter fun w => 1 < n w).map (s.operandDie x))

/-- A node fires on a token and the waiting operands of its frame (R16, R25, R26). -/
def fireFrame (c k : Nat) (t : Tok) (m : NodeImg) (fr : List Waiting) (s : State) : State :=
  let ts := t :: fr.map (·.tok)
  let s := s.countOperands (s.ctx c) fr
  let s := (dropTok c k s).modFab c fun f => { f with
    waiting := f.waiting.filter fun w => !decide (w.tok.dest = t.dest ∧ w.tok.tag = t.tag) }
  fire c t.dest t.tag (fireMask m ts) ts s

/-- A token is stored as a waiting operand (R25, R27, R28). -/
def storeTok (c k : Nat) (t : Tok) (p : Place) (s : State) : State :=
  (dropTok c k s).modCtx c fun x =>
    let y : Ctx := { x with fab := { x.fab with waiting := x.fab.waiting ++ [{ tok := t, place := p, err := 0 }] } }
    match p with
    | .table => y
    | .store => y.count statStore 1
    | .area => y.count statArea 1

/-- A token meets its frame (R25, R26): TAG.DUP, a firing, or a stored operand.  An uncorrectable operand is an ECC trap, whose
report names the store's unit and the operand's place in it (R342; log 22); an operand in the global overflow area is reached through
its translation (R28). -/
def matchFrame (c k : Nat) (t : Tok) (m : NodeImg) (s : State) : Out :=
  let x := s.ctx c
  let fr := x.fab.frame t.dest t.tag
  let node := nodeTagReport m.emit.node t.tag
  if m.head.rule = .merge then .next (fire c t.dest t.tag t.mask [t] (dropTok c k s))
  else if fr.any fun w => decide (w.tok.port = t.port) then .next (nodeTrap c trapTagDup 0 node s)
  else if m.portList.all fun p => decide (p = t.port) || fr.any fun w => decide (w.tok.port = p) then
    match reachAreas c ((fr.filter fun w => decide (w.place = .area)).map x.fab.inArea.idxOf) s with
    | .stall s => .next s
    | .bad b s => .next (nodeTrap c b.code 0 (BitVec.ofNat 64 b.report) s)
    | .ok _ s => match fr.find? fun w => decide (2 ≤ popWord (BitVec.ofNat 64 w.err)) with
      | some w => .next (nodeTrap c w.place.trap 0
          (Config.eccReport w.place.trap [x.first + t.dest.cl, t.dest.pe, x.fab.waiting.idxOf w])
          (s.countOperands x fr))
      | none => .next (fireFrame c k t m fr s)
  else match s.waitPlace x t with
    | none => .next s
    | some .area => match reachArea c true x.fab.inArea.length s with
      | .stall s => .next s
      | .bad b s => .next (nodeTrap c b.code 0 (BitVec.ofNat 64 b.report) s)
      | .ok _ s => .next (storeTok c k t .area s)
    | some p => .next (storeTok c k t p s)

/-- Whether a token is the first of its route to a port: tokens on one route keep their order (R24). -/
def Fabric.firstOfRoute (f : Fabric) (k : Nat) (t : Tok) : Bool :=
  (f.chan.take k).all fun u => !decide (u.src = t.src ∧ u.dest = t.dest ∧ u.port = t.port)

/-- TOKEN_MATCH: the k-th token of a context's channels reaches stage M of its PE, whose active plane is the token's: a
marker is taken, a tag of no admitted kind or a stale one traps, and any other token meets its frame (R23, R25, R26, R151,
R320). -/
def execTokenMatch (c : CtxId) (k : Nat) (s : State) : Out :=
  let x := s.ctx c.val
  match x.fab.chan[k]? with
  | none => .next s
  | some t =>
    match s.nodeImg x t.dest with
    | none => .next s
    | some m =>
      if !x.live || x.resuming || !x.fab.firstOfRoute k t || decide (smGet 0 s.active (x.first + t.dest.cl) ≠ t.dest.plane) then .next s
      else if t.kind = .marker then .next (takeMarker c.val t.dest m t.port (dropTok c.val k s))
      else if s.frozen x t.dest && !decide (m.head.kind = .source) then .next s
      else
        let node := nodeTagReport m.emit.node t.tag
        if !x.tagAdmitted t.tag then .next (nodeTrap c.val trapTagKind 0 node s)
        else if !x.tagCurrent t.tag then .next (nodeTrap c.val trapTagStale 0 node s)
        else matchFrame c.val k t m s

/-! ## Index tokens (R105) -/

/-- The points of a period. -/
def Period.points (p : Period) : Nat := p.nx * p.ny * p.nz

/-- The lanes of the index token of point `i`: x, y and z in lanes 0 to 2 (R105). -/
def Period.point (p : Period) (i : Nat) : List Lane :=
  mkLanes fun l => BitVec.ofNat 32 (match l with
    | 0 => i % p.nx
    | 1 => i / p.nx % p.ny
    | 2 => i / (p.nx * p.ny)
    | _ => 0)

/-- Whether a page fault holds a window read of a firing (R73, R339). -/
def State.winParked (s : State) (c : Nat) (g : Firing) : Bool :=
  match s.nodeImg (s.ctx c) g.ref with
  | none => false
  | some m => match m.ops[g.stage]? with
    | none => false
    | some i => decide (g.phase = .run) && winMore i g && match winRead c g m i s with
      | .stall _ => true
      | .ok _ _ | .bad _ _ => false

/-- Whether a firing waits outside its pipeline: a breakpoint holds it, or it waits for something that a page fault may hold
(R321, R339, R347). -/
def State.parks (s : State) (c : Nat) (g : Firing) : Bool :=
  let x := s.ctx c
  let fault := decide (x.cause = some .page) || x.faultPend
  match g.phase with
  | .held _ => true
  | .waitAlloc | .waitFree | .waitMem | .waitAccept | .waitPairs | .waitInbox | .waitFence _ | .waitPhase _ _ => fault
  | .run => fault && s.winParked c g
  | .granted _ | .freed _ | .emit _ => false

/-- Whether a source still has a point of its own before or in its pipeline. -/
def State.pointBusy (s : State) (c : Nat) (r : NodeRef) : Bool :=
  let f := s.fab c
  f.chan.any (fun t => decide (t.src = r ∧ t.dest = r)) || f.firings.any fun g => decide (g.ref = r) && !s.parks c g

/-- INDEX_TOKEN_ISSUE: the k-th source of the period in progress emits its next point with a fresh root tag, while its queue
has room; in a draining region it stops and sends a round marker on each of its routes once its point in progress is done (R22, R105, R320). -/
def execIndexTokenIssue (c : CtxId) (k : Nat) (s : State) : Out :=
  let x := s.ctx c.val
  match x.fab.period, (s.sources x)[k]? with
  | some p, some r =>
    match s.nodeImg x r with
    | none => .next s
    | some m =>
      let i := smGet 0 x.fab.cursors r.key
      if !x.live || x.resuming then .next s
      else if x.fab.draining then
        if smGet 0 x.fab.stopped r.key ≠ 0 ∨ s.pointBusy c.val r then .next s
        else .next ((sendMarkers c.val r m s).modFab c.val fun f => { f with
          stopped := smSet 0 f.stopped r.key 1 })
      else if p.points ≤ i then .next s
      else match x.grant m.head.space 0 0 false none none with
        | none => .next s
        | some (t, y) =>
          let tok : Tok := { tag := t, kind := .data, mask := 0xFFFF, payload := p.point i, dest := r, port := 0, src := r,
                             pred := [] }
          if !hasRoom x.fab.chan tok then .next s
          else .next (sendToks c.val [tok]
            ((s.setCtx c.val y).modFab c.val fun f => { f with cursors := smSet 0 f.cursors r.key (i + 1) }))
  | _, _ => .next s

/-! ## Plane switches (R32) -/

/-- Whether a token waits for a plane of a relative cluster: one to a frozen element waits for no plane. -/
def State.waitsFor (s : State) (x : Ctx) (cl plane : Nat) : Bool :=
  x.fab.chan.any fun t => decide (t.dest.cl = cl ∧ t.dest.plane = plane) && (decide (t.kind = .marker) || !s.frozen x t.dest)

/-- Whether a firing in a phase is in the pipeline of its PE: it executes, or its outputs have still to leave (R16, R32). -/
def Phase.inPipe : Phase → Bool
  | .run | .emit _ | .granted _ | .freed _ => true
  | .waitAlloc | .waitFree | .waitMem | .waitAccept | .waitPairs | .waitInbox | .waitFence _ | .waitPhase _ _ | .held _ => false

/-- PLANE_SWITCH: a physical tile goes to its next plane with a waiting token, once the active one's queues are empty and its
pipelines have drained (R32). -/
def execPlaneSwitch (n : Cluster) (s : State) : Out :=
  match s.ctxs.find? fun e => e.2.live && e.2.inBlock n.val with
  | none => .next s
  | some (_, x) =>
    let cl := n.val - x.first
    let a := smGet 0 s.active n.val
    let busy := s.waitsFor x cl a ||
      x.fab.firings.any fun g => decide (g.ref.cl = cl ∧ g.ref.plane = a) && g.phase.inPipe
    if busy then .next s
    else match ([1, 2, 3].map fun d => (a + d) % 4).find? (s.waitsFor x cl) with
      | none => .next s
      | some p => .next { s with active := smSet 0 s.active n.val p }

/-! ## Quiescence (R15, R106, R214) -/

/-- Whether every source of the period has issued every point. -/
def State.exhausted (s : State) (x : Ctx) (p : Period) : Bool :=
  (s.sources x).all fun r => decide (p.points ≤ smGet 0 x.fab.cursors r.key)

/-- Whether a region is quiescent (R15, R243). -/
def State.quiescent (s : State) (c : Nat) : Bool :=
  let f := s.fab c
  decide (f.chan = [] ∧ f.waiting = [] ∧ f.firings = [] ∧ f.allocs = [] ∧ f.pairs = [] ∧ f.replies = []) &&
    f.accesses.all (fun a => decide (a.agent = .seq)) && !s.hasCmd c false

/-- The end of a configuration period: its flags are merged, its records are complete, and nothing of it holds a later
access (R53, R214, R249). -/
def endPeriod (c : Nat) (s : State) : State :=
  let s : State := { s with recs := s.recs.map fun r => if r.ctx = c then { r with current := false } else r }
  s.modCtx c fun x => { x.mergeAll with fab := { x.fab with period := none, holds := [], loops := [] } }

/-- QUIESCENCE_REPORT: the quiescence tree reports the region empty and the period ends (R15). -/
def execQuiescenceReport (c : CtxId) (s : State) : Out :=
  let x := s.ctx c.val
  match x.fab.period with
  | none => .next s
  | some p =>
    if x.live && s.exhausted x p && s.quiescent c.val then .next (endPeriod c.val s) else .next s

/-! ## Replies to node ports (R377) -/

/-- REPLY_TOKEN_DELIVERY: the k-th reply of a context is delivered into the fabric load of the period in progress; one that
names no plane, node or port of it raises OP.ILL, reporting its header's low word (R377). -/
def execReplyTokenDelivery (c : CtxId) (k : Nat) (s : State) : Out :=
  let x := s.ctx c.val
  match x.fab.replies[k]?, x.fab.period with
  | some r, some p =>
    if !x.live || x.resuming then .next s
    else
      let cl := LinkDest.clusterOf r.dest - x.base
      let ref : NodeRef := { cl := cl, plane := p.plane + r.plane, pe := r.dest.pe, slot := r.dest.node }
      let s' := s.modFab c.val fun f => { f with replies := f.replies.eraseIdx k }
      let fold := (s.planeOf x cl p.plane).2.2.2
      let ill := nodeTrap c.val trapOpIll 0 (BitVec.ofNat 64 (r.header % 2 ^ 64)) s'
      match s.nodeImg x ref with
      | none => .next ill
      | some m =>
        if fold ≤ r.plane ∨ m.head.inputs ≤ r.dest.port then .next ill
        else
          let tok : Tok := {
            tag := r.tag, kind := .data, mask := 0x0003, dest := ref, port := r.dest.port, pred := r.pred,
            payload := mkLanes fun l => BitVec.ofNat 32 (match l with
              | 0 => r.word.toNat
              | 1 => r.word.toNat / 2 ^ 32
              | _ => 0),
            src := { ref with plane := 4 } }
          .next (if hasRoom x.fab.chan tok then sendToks c.val [tok] s' else s)
  | _, _ => .next s

/-! ## The watchdog and the hang map (R37, R324) -/

/-- Writes doublewords at virtual addresses of a context outside its graph, for a save frame or a hang map; it stops at the
first that cannot be written, and tells whether all were (R332, R341). -/
def writeVaWords (c : Nat) : Nat → List Word → State → State × Bool
  | _, [], s => (s, true)
  | va, w :: t, s =>
    match (s.ctx c).toIa false true va with
    | .error _ => (s, false)
    | .ok ia =>
      if inWindow ia then
        match windowCheck 0 ia s with
        | .ok _ s => writeVaWords c (va + 8) t (postNew c 0 ia (toBytes w.toNat 8) (srcDevice c) s)
        | .stall s | .bad _ s => (s, false)
      else
        match pageLook ia true s with
        | (.leaf e, s) =>
          let r := hbmWrite (e.paOf ia) 8 w.toNat s
          if r.bad.isSome then (r.s, false) else writeVaWords c (va + 8) t r.s
        | (_, s) => (s, false)

/-- An entry of a hang map (R324). -/
structure HangEntry where
  kind : Nat
  port : Nat
  node : Nat
  plane : Nat
  cl : Nat
  pe : Nat
  tag : Tag
  source : Nat
  deriving DecidableEq, Repr, Inhabited

/-- The two doublewords of an entry. -/
def HangEntry.words (e : HangEntry) : List Word :=
  [BitVec.ofNat 64 (e.kind + e.port * 2 ^ 8 + e.node * 2 ^ 16 + e.plane * 2 ^ 24 + (e.cl * 64 + e.pe) * 2 ^ 32),
    BitVec.ofNat 64 (e.tag.toNat + e.source % 2 ^ 32 * 2 ^ 32)]

/-- The order of the entries (R324). -/
def HangEntry.le (a b : HangEntry) : Bool :=
  lexLe [a.cl, a.pe, a.plane, a.node, a.port] [b.cl, b.pe, b.plane, b.node, b.port]

/-- An entry of a node. -/
def hangAt (kind port : Nat) (r : NodeRef) (tag : Tag) (source : Nat) : HangEntry :=
  { kind := kind, port := port, node := r.slot, plane := r.plane, cl := r.cl, pe := r.pe, tag := tag, source := source }

/-- Where a peer stands, as a hang map names it: its cluster, PE and node. -/
def NodeRef.peer (r : NodeRef) : Nat := r.cl * 64 + r.pe + r.slot * 2 ^ 12

/-- The ports that await a token in the frames of a region, each with the peer that feeds it. -/
def hangPorts (s : State) (x : Ctx) : List HangEntry :=
  let fs := s.feeds x
  (x.fab.waiting.map fun w => (w.tok.dest, w.tok.tag)).dedup.flatMap fun d =>
    match s.nodeImg x d.1 with
    | none => []
    | some m => (m.portList.filter fun p => (x.fab.frame d.1 d.2).all fun w => decide (w.tok.port ≠ p)).map fun p =>
        hangAt 1 p d.1 d.2 (((fs.find? fun e => decide (e.2 = (d.1, p))).map fun e => e.1.peer).getD 0)

/-- What a firing awaits (R324): a live slot, a tag's last token, a phase, for an arrive its barrier's previous one, an ordinal at
the port that rdc reads, its sorters, or room in the queue of a branch, whose port is the entry's (log 106).  An upd that waits
for its sorters names no port, 0xFF (log 42). -/
def hangFiring (s : State) (x : Ctx) (g : Firing) : List HangEntry :=
  match g.phase with
  | .waitAlloc => match x.fab.allocs.find? fun q => q.firing == g.id with
    | some q =>
      let i := x.nextSlot q.space q.ring
      [hangAt 2 0xFF g.ref (mkTag (x.space q.space).home q.space i (x.slot q.space i).gen) 0]
    | none => []
  | .waitFree => [hangAt 3 0xFF g.ref g.tag 0]
  | .waitPhase i _ => [hangAt 4 0xFF g.ref g.tag (i / 8192)]
  | .waitPairs => [hangAt 7 0xFF g.ref g.tag 0]
  | .waitFence [] => match (s.nodeImg x g.ref).bind (·.last) with
    | some (.rdcInteger _ a _ _) | some (.rdcFloat _ a _ _ _) =>
      [hangAt 5 (match a with
        | .port p => p.val
        | _ => 0xFF) g.ref g.tag ((rdcFind s x g).next.getD 0)]
    | some (.arriveNode b) => [hangAt 4 0xFF g.ref g.tag b.val]
    | _ => []
  | .emit outs => match s.nodeImg x g.ref with
    | some m => ((outs.flatMap (s.toks x g.ref m)).filter fun t => !hasRoom x.fab.chan t).map fun t =>
        hangAt 6 t.port g.ref t.tag t.dest.peer
    | none => []
  | _ => []

/-- What the sources of the period await that have points left (R105, R324): the slot of the next root tag, or room in the queue
of their own index tokens (log 42). -/
def hangSources (s : State) (x : Ctx) : List HangEntry :=
  match x.fab.period with
  | none => []
  | some p => (s.sources x).flatMap fun r => match s.nodeImg x r with
    | none => []
    | some m =>
      let sp := m.head.space
      let i := x.nextSlot sp 0
      if x.fab.draining ∨ p.points ≤ smGet 0 x.fab.cursors r.key then []
      else match x.grant sp 0 0 false none none with
        | none => [hangAt 2 0xFF r (mkTag (x.space sp).home sp i (x.slot sp i).gen) 0]
        | some (t, _) =>
          let tok : Tok := { tag := t, kind := .data, mask := 0xFFFF, payload := [], dest := r, port := 0, src := r, pred := [] }
          if hasRoom x.fab.chan tok then [] else [hangAt 6 0 r t r.peer]

/-- Tokens that find no room to wait (R324). -/
def hangSpills (s : State) (x : Ctx) : List HangEntry :=
  x.fab.chan.filterMap fun t =>
    if t.kind ≠ .marker && (s.waitPlace x t).isNone then some (hangAt 8 t.port t.dest t.tag 0) else none

/-- The registers that a sequencer instruction reads, then the one it writes (R61). -/
def Instr.regs : Instr → List SReg
  | .add d a b _ _ | .sub d a b _ _ | .mul d a b _ _ | .mulh d a b _ _ | .mulhn d a b _ _ | .and d a b _ _ | .or d a b _ _
  | .xor d a b _ _ | .sll d a b _ _ | .srl d a b _ _ | .sra d a b _ _ | .slt d a b _ _ | .sltn d a b _ _ | .seq d a b _ _
  | .min d a b _ _ | .max d a b _ _ | .minn d a b _ _ | .maxn d a b _ _ | .send d a b _ _ => [a, b, d]
  | .addi d a _ _ | .andi d a _ _ | .ori d a _ _ | .xori d a _ _ | .slli d a _ _ | .srli d a _ _ | .srai d a _ _
  | .slti d a _ _ | .sltni d a _ _ | .seqi d a _ _ | .jalr d a _ _ | .estat d a _ | .wld d a _ _ _ | .ld d a _ _
  | .ubind d a _ => [a, d]
  | .movz d _ _ | .jal d _ | .csrr d _ => [d]
  | .movk d _ _ => [d]
  | .beqz a _ _ | .bnez a _ _ | .bltz a _ _ | .bgez a _ _ | .bgtz a _ _ | .blez a _ _ | .bbs _ a _ _ | .bbc _ a _ _
  | .loop _ a _ _ | .cfg a _ _ | .run a _ _ | .uflush a _ | .unbind a _ | .csrw a _ _ | .csrs a _ _ | .csrc a _ _
  | .done a _ => [a]
  | .st v a _ _ _ => [a, v]
  | .tbind a b _ _ => [a, b]
  | _ => []

/-- The register that a sequencer waits for: the first register of its instruction that is not ready, else 0. -/
def waitReg (s : State) (x : Ctx) : Nat :=
  match decodeSeq (s.seqWord x) with
  | .error _ => 0
  | .ok i => (((Instr.regs i).find? fun r => !x.seq.ready r).map (·.val)).getD 0

/-- The sequencer's entry (R324). -/
def hangSeq (s : State) (x : Ctx) : List HangEntry :=
  if x.seq.phase = .stopped then []
  else [{ kind := 9, port := 0xFF, node := waitReg s x, plane := 0, cl := 0, pe := 0, tag := 0, source := 0 }]

/-- Every entry of a hang map, in its order (R324). -/
def hangEntries (s : State) (x : Ctx) : List HangEntry :=
  (hangPorts s x ++ x.fab.firings.flatMap (hangFiring s x) ++ hangSources s x ++ hangSpills s x ++ hangSeq s x).mergeSort HangEntry.le

/-- The words of a hang map: the header, and the entries that the area holds (R324). -/
def hangWords (x : Ctx) (es : List HangEntry) : List Word :=
  let n := min es.length ((bits x.hang.toNat 63 52 * 4096 - 64) / 16)
  [BitVec.ofNat 64 (es.length + n * 2 ^ 32), BitVec.ofNat 64 (x.first + x.lsize * 2 ^ 8), 0, 0, 0, 0, 0, 0] ++
    (es.take n).flatMap (·.words)

/-- The count of idle cycles at which the watchdog trips (R37). -/
def watchdogCycles : Nat := 2 ^ 24

/-- WATCHDOG_TRIP: after 2^24 idle cycles the region writes its hang map, and the graph is retired with SCHED.HANG; entries
that cannot be written are lost (R37, R324, R341). -/
def execWatchdogTrip (c : CtxId) (s : State) : Out :=
  let x := s.ctx c.val
  if !x.live || decide (x.fab.idle < watchdogCycles) then .next s
  else
    let base := bits x.hang.toNat 47 12 * 2 ^ 12
    let s := if bits x.hang.toNat 63 52 = 0 then s
      else (writeVaWords c.val base (hangWords x (hangEntries s x)) s).1.modCtx c.val fun x => x.count statHang 1
    .next (graphTrap c.val trapSchedHang 0 0 0 (BitVec.ofNat 64 base) s)

end Sys2Proof.Machine
end

