-- ==== Sys2Proof/Machine/Bodies.lean ====
section
/-! DEFINITION. What every engine command shares: its start, its body, its operands in scratchpad and global memory, and its
result (R181 to R184, R190, R205). -/

namespace Sys2Proof.Machine

open Sys2Proof

/-- An engine by its class, cluster and unit. -/
def engAt (k : EngClass) (c : Cluster) (u : Fin 16) : EngRef := { cls := k, cluster := c, unit := u }

/-- `n` bytes at an offset of a body (R182). -/
def fld (b off n : Nat) : Nat := b / 256 ^ off % 256 ^ n

/-- What a command ends with (R184): its reply word's fields, its trap's report, its flags, its class field, and the counters
that it adds and the bytes that it writes back at its commit. -/
structure CmdOut where
  code : Nat
  reason : Nat
  result : Nat
  report : Nat
  flags : Flags
  cls : Nat
  counts : List Nat
  back : List Work
  deriving DecidableEq, Repr, Inhabited

/-- A command that succeeds with a result. -/
def CmdOut.ok (result : Nat) : CmdOut :=
  { code := 0, reason := 0, result := result, report := 0, flags := fNone, cls := 0, counts := [], back := [] }

/-- A command that fails (R188). -/
def CmdOut.bad (code reason result report : Nat) : CmdOut :=
  { code := code, reason := reason, result := result, report := report, flags := fNone, cls := 0, counts := [], back := [] }

/-- What a stage of a command gives: an end, or a wait for leave or accesses, with the stage that follows and the body that it
will read. -/
inductive CmdRes where
  | fin (o : CmdOut) (s : State)
  | leave (stage body : Nat) (s : State)
  | work (stage body : Nat) (todo : List Work) (s : State)
  deriving DecidableEq, Repr, Inhabited

/-- A trap of an access ends the command. -/
def CmdRes.trap (b : Bad) (s : State) : CmdRes := .fin (.bad b.code 0 0 b.report) s

/-! ## Scratchpad spans (R190, R205, R344) -/

/-- The fault of `n` scratchpad bytes at a nominal address: MEM.RANGE before MEM.PERM, at the first such byte (R190, R205). -/
def spSpanBad (s : State) (x : Ctx) (a n : Nat) : Option Bad :=
  if n = 0 then none
  else if 2 ^ 30 < a + n then some { code := trapMemRange, report := max a (2 ^ 30) }
  else ((List.range n).find? fun i => s.carved (x.spAddr (a + i))).map fun i => { code := trapMemPerm, report := a + i }

/-- Reads `n` scratchpad bytes at a nominal address; an uncorrectable word is ECC.SP. -/
def readSpan (x : Ctx) : Nat → Nat → State → XRes
  | _, 0, s => .ok 0 s
  | a, n + 1, s =>
    let r := spRead (x.spAddr a) 1 s
    match r.bad with
    | some w => .bad { code := trapEccSp, report := w } r.s
    | none => (readSpan x (a + 1) n r.s).bind fun v s => .ok (r.val + 256 * v) s

/-- Writes scratchpad bytes at a nominal address, by words where they are covered whole; `fuel` is their number. -/
def writeSpan (x : Ctx) : Nat → Nat → Nat → Nat → State → XRes
  | 0, _, _, _, s => .ok 0 s
  | fuel + 1, a, n, v, s =>
    if n = 0 then .ok 0 s
    else
      let k := if a % 8 = 0 ∧ 8 ≤ n then 8 else 1
      let r := spWrite (x.spAddr a) k v s
      match r.bad with
      | some w => .bad { code := trapEccSp, report := w } r.s
      | none => writeSpan x fuel (a + k) (n - k) (v / 256 ^ k) r.s

/-- Writes `n` scratchpad bytes. -/
def putSpan (x : Ctx) (a n v : Nat) (s : State) : XRes := writeSpan x n a n v s

/-! ## Places (R190) -/

/-- The place of a byte behind a place. -/
def Plc.at (p : Plc) (off : Nat) : Plc := { p with addr := p.addr + off }

/-- The fault of a global byte that an engine reads or writes (R190): its address, then its window's. -/
def globByteBad (s : State) (x : Ctx) (e : EngRef) (wr : Bool) (va : Nat) : Option Bad :=
  match globCheck s x (!wr) wr va with
  | .error b => some b
  | .ok ia =>
    if inWindow ia then match (windowCheck (e.cluster.val / 8) ia s).atVa va with
      | .bad b _ => some b
      | .ok _ _ | .stall _ => none
    else none

/-- The fault of `n` bytes at a place, read or written (R190, R192). -/
def Plc.bad (s : State) (x : Ctx) (e : EngRef) (p : Plc) (wr : Bool) (n : Nat) : Option Bad :=
  if p.sp then spSpanBad s x p.addr n else (List.range n).findSome? fun i => globByteBad s x e wr (p.addr + i)

/-- Reads the byte at a place. -/
def Plc.read (c : Nat) (e : EngRef) (p : Plc) (s : State) : XRes :=
  if p.sp then readSpan (s.ctx c) p.addr 1 s else readVa c (.eng e) (e.cluster.val / 8) p.addr 1 s

/-- Writes the byte at a place: one in a window is posted, and the command goes on (R260; log 124). -/
def Plc.write (c : Nat) (e : EngRef) (p : Plc) (v : Byte) (s : State) : XRes :=
  if p.sp then putSpan (s.ctx c) p.addr 1 v.toNat s
  else match (s.ctx c).toIa false true p.addr with
    | .error b => .bad b s
    | .ok ia => XRes.atVa p.addr <|
      if inWindow ia then (windowCheck (e.cluster.val / 8) ia s).bind fun _ s =>
        .ok 0 (postNew c (e.cluster.val / 8) ia [v] (srcEng e) s)
      else writeIa (.eng e) ia 1 v.toNat s

/-! ## The accesses of a command (R189, R244, R250) -/

/-- Whether a piece of work holds no access. -/
def Work.done : Work → Bool
  | .move _ _ _ n | .read _ n | .put _ _ n _ => decide (n = 0)

/-- Work ahead of other work, where it holds an access. -/
def Work.cons (w : Work) (t : List Work) : List Work := if w.done then t else w :: t

/-- What an access of a command gives: the work left and the bytes read, a wait for a translation, or a trap. -/
inductive UnitRes where
  | ok (todo : List Work) (got : List Byte) (s : State)
  | stall (s : State)
  | bad (b : Bad) (s : State)
  deriving DecidableEq, Repr, Inhabited

/-- An access of a command, and what is left with its value. -/
def XRes.unit (r : XRes) (k : Nat → List Work × List Byte) : UnitRes :=
  match r with
  | .ok v s => .ok (k v).1 (k v).2 s
  | .stall s => .stall s
  | .bad b s => .bad b s

/-- A command's next access, from the work left and the bytes read (R191, R244; log 19): a copied byte is read, then written. -/
def unitStep (c : Nat) (e : EngRef) (got : List Byte) (s : State) : List Work → UnitRes
  | [] => .ok [] got s
  | .move src dst rd n :: t =>
    match got, (if rd = 0 then none else src) with
    | [], some p => (p.read c e s).unit fun v => (.move src dst rd n :: t, [BitVec.ofNat 8 v])
    | g, _ => (dst.write c e (g.headD 0) s).unit fun _ =>
        (Work.cons (.move (src.map (·.at 1)) (dst.at 1) (rd - 1) (n - 1)) t, [])
  | .read a n :: t =>
    (readSpan (s.ctx c) a 1 s).unit fun v => (Work.cons (.read (a + 1) (n - 1)) t, BitVec.ofNat 8 v :: got)
  | .put a k n v :: t =>
    (putSpan (s.ctx c) a (min k n) v s).unit fun _ => (Work.cons (.put (a + k) k (n - k) (v / 256 ^ k)) t, got)

/-- The values of consecutive spans of bytes, by their lengths. -/
def splitBytes : List Nat → List Byte → List Nat
  | [], _ => []
  | n :: t, b => ofBytes (b.take n) :: splitBytes t (b.drop n)

/-- The 32-bit words of bytes that a command has read. -/
def wordsGot (n : Nat) (b : List Byte) : List Nat := splitBytes (List.replicate n 4) b

/-! ## Start of a command and its stages (R181, R182, R252) -/

/-- A command's body as its fields, with its work: what a stage does, given the bytes that its accesses read, and what an
access that fails in it does. -/
structure CmdOp where
  op : Nat
  bytes : Nat
  stage : Cmd → Nat → Nat → List Byte → State → CmdRes
  fail : Cmd → Nat → Nat → Bad → State → CmdRes

/-- The progress of a command. -/
def runOf (k : Cmd) (body : Nat) (rtag : Tag) (p : CmdPhase) (o : CmdOut) : Run :=
  { cmd := k, body := body, phase := p, code := o.code, reason := o.reason, result := o.result, report := o.report,
    flags := o.flags, cls := o.cls, counts := o.counts, leave := false, rtag := rtag, stage := 0, todo := [], got := [],
    back := o.back }

/-- The tag of a command's reply (R184): the body's rtag for one that its sequencer sent, else its sender's. -/
def Cmd.rtag (k : Cmd) (body : Tag) : Tag := if k.from_.bySeq && decide (k.from_.chain = 0) then body else k.from_.tag

/-- An engine's command in progress. -/
def State.setRun (s : State) (e : EngRef) (r : Run) : State := s.setEng e { s.eng e with run := some r }

/-- A command in progress goes on with what a stage of it gives. -/
def afterStage (e : EngRef) (r : Run) : CmdRes → State
  | .fin o t => t.setRun e { runOf r.cmd r.body r.rtag .finished o with leave := r.leave }
  | .leave stage b t =>
    let t := t.setRun e { r with phase := .leaveWait, stage := stage, body := b, todo := [], got := [] }
    t.setGov (e.cluster.val / 8) ((t.gov (e.cluster.val / 8)).ask t.cycles (.press e))
  | .work stage b todo t =>
    t.setRun e { r with phase := .working, stage := stage, body := b, todo := todo.foldr Work.cons [], got := [] }

/-- The command at the head of an idle engine's inbox, if it may start: its opcode, its context's region, which has no access
left to replay, and its acquire (R181, R252, R339). -/
def nextCmd (e : EngRef) (op : Nat) (s : State) : Option Cmd :=
  match (s.eng e).run, (s.eng e).inbox with
  | none, k :: _ =>
    let x := s.ctx k.from_.ctx
    if k.hdr.op = op && x.performs && !x.resuming && s.depsDone k.from_.ctx k.from_.deps then some k else none
  | _, _ => none

/-- A command starts: it leaves the inbox, its body is read, and its first stage does its checks (R182).  A body that cannot be
read ends it: the engine's class field keeps its value, and the tag of its reply, which the body holds, is not stated (R184; log
117). -/
def startCmd (e : EngRef) (o : CmdOp) (s : State) : Out :=
  match nextCmd e o.op s with
  | none => .next s
  | some k =>
    let x := s.ctx k.from_.ctx
    let t := s.setEng e { s.eng e with inbox := (s.eng e).inbox.drop 1 }
    let unread := fun (b : Bad) (t : State) =>
      let r := runOf k 0 (k.rtag (t.fresh.1.setWidth 32)) .finished { CmdOut.bad b.code 0 0 b.report with cls := (s.eng e).cls.toNat }
      Host.Outcome.next (t.fresh.2.setRun e r)
    match spSpanBad s x k.hdr.body o.bytes with
    | some b => unread b t
    | none => match readSpan x k.hdr.body o.bytes t with
      | .ok b t => .next (afterStage e (runOf k b (k.rtag (BitVec.ofNat 32 b)) .working (.ok 0)) (o.stage k b 0 [] t))
      | .bad b t => unread b t
      | .stall t => .next t

/-- A command in progress goes on: after its leave and after its last access its next stage, else its next access (R182, R189,
R206); a page fault leaves the access unperformed (R188). -/
def goOn (e : EngRef) (o : CmdOp) (r : Run) (s : State) : State :=
  let next := fun (s : State) => afterStage e r (o.stage r.cmd r.body r.stage r.got.reverse s)
  match r.phase with
  | .leaveWait | .finished => s
  | .leaveGranted => next s
  | .working =>
    if r.todo = [] then next s
    else match unitStep r.cmd.from_.ctx e r.got s r.todo with
      | .ok todo got t => t.setRun e { r with todo := todo, got := got }
      | .stall t => { s with misses := t.misses }
      | .bad b t => afterStage e r (o.fail r.cmd r.body r.stage b t)

/-- An engine's turn for an operation: its command in progress goes on, or the one at the head of its inbox starts. -/
def engineTurn (e : EngRef) (o : CmdOp) (s : State) : Out :=
  match (s.eng e).run with
  | some r =>
    let x := s.ctx r.cmd.from_.ctx
    .next (if r.cmd.hdr.op = o.op && x.performs && !x.resuming then goOn e o r s else s)
  | none => startCmd e o s

/-- MEM.BODY with a reason, reporting the header's low word (R192, R342). -/
def badBody (k : Cmd) (reason result : Nat) (s : State) : CmdRes :=
  .fin (.bad trapMemBody reason result (k.raw % 2 ^ 64)) s

/-- Whether bytes of a body are all zero. -/
def bodyZero (b off n : Nat) : Bool := decide (fld b off n = 0)

end Sys2Proof.Machine
end

