-- ==== Sys2Proof/Machine/Copy.lean ====
section
/-! DEFINITION. The copy engines: copy.lin, copy.2d, copy.rows and copy.seg (R190 to R193). -/

namespace Sys2Proof.Machine

open Sys2Proof

/-! ## Places (R190) -/

/-- A place from its 8 bytes, or nothing where a zero field is not zero. -/
def placeOf (v : Nat) : Option Plc :=
  let sp := bit v 63
  if bits v 62 48 ≠ 0 ∨ (sp ∧ bits v 47 30 ≠ 0) then none else some { sp := sp, addr := bits v 47 0 }

/-! ## Rows (R191, R192) -/

/-- A row of a copy: where it is read, if anywhere, and where it is written, as offsets, and how many of its bytes are read
and written; bytes beyond those read are 0. -/
structure CopyRow where
  src : Option Nat
  dst : Nat
  rd : Nat
  wr : Nat
  deriving DecidableEq, Repr, Inhabited

/-- The lowest offset and the offset past the highest byte of some extents. -/
def extent (l : List (Nat × Nat)) : Option (Nat × Nat) :=
  match l.filter fun e => decide (0 < e.2) with
  | [] => none
  | e :: t => some (t.foldl (fun a x => (min a.1 x.1, max a.2 (x.1 + x.2))) (e.1, e.1 + e.2))

/-- Whether a copy's source and destination ranges intersect in one space (R192 reason 3). -/
def rangesMeet (src dst : Plc) (rows : List CopyRow) : Bool :=
  match extent (rows.filterMap fun r => r.src.map fun o => (src.addr + o, r.rd)),
      extent (rows.map fun r => (dst.addr + r.dst, r.wr)) with
  | some a, some b => decide (src.sp = dst.sp ∧ a.1 < b.2 ∧ b.1 < a.2)
  | _, _ => false

/-- The first fault of the bytes of a copy's rows, each row's source before its destination. -/
def rowsBad (s : State) (x : Ctx) (e : EngRef) (src dst : Plc) (rows : List CopyRow) : Option Bad :=
  rows.findSome? fun r =>
    (r.src.bind fun o => (src.at o).bad s x e false r.rd).or ((dst.at r.dst).bad s x e true r.wr)

/-- The work that copies a row. -/
def CopyRow.work (src dst : Plc) (r : CopyRow) : Work := .move (r.src.map src.at) (dst.at r.dst) r.rd r.wr

/-- The stage of a copy that follows its accesses: it succeeds with a result. -/
def copyDone (result : Nat) (s : State) : CmdRes := .fin (.ok result) s

/-- A copy of rows after its own checks: reason 3, then the addresses, then the bytes, ascending (R190 to R192). -/
def copyMove (e : EngRef) (k : Cmd) (stage b : Nat) (src dst : Plc) (rows : List CopyRow) (s : State) : CmdRes :=
  if rangesMeet src dst rows then badBody k 3 0 s
  else match rowsBad s (s.ctx k.from_.ctx) e src dst rows with
    | some f => .trap f s
    | none => .work stage b (rows.map (CopyRow.work src dst)) s

/-- The two places of a copy body, or MEM.BODY reason 6. -/
def withPlaces (k : Cmd) (b : Nat) (zero : Bool) (s : State) (f : Plc → Plc → CmdRes) : CmdRes :=
  match placeOf (fld b 8 8), placeOf (fld b 16 8) with
  | some src, some dst => if zero then f src dst else badBody k 6 0 s
  | _, _ => badBody k 6 0 s

/-- copy.lin (R191). -/
def linStage (e : EngRef) (k : Cmd) (b stage : Nat) (_got : List Byte) (s : State) : CmdRes :=
  let n := fld b 4 4
  if 0 < stage then copyDone 0 s
  else if n = 0 then badBody k 1 0 s
  else withPlaces k b (bodyZero b 24 8) s fun src dst =>
    copyMove e k 1 b src dst [{ src := some 0, dst := 0, rd := n, wr := n }] s

/-- The rows of copy.2d. -/
def rows2d (b : Nat) : List CopyRow :=
  (List.range (fld b 24 4)).map fun r =>
    { src := some (r * fld b 32 8), dst := r * fld b 40 8, rd := fld b 4 4, wr := fld b 4 4 }

/-- copy.2d (R191). -/
def twoDStage (e : EngRef) (k : Cmd) (b stage : Nat) (_got : List Byte) (s : State) : CmdRes :=
  if 0 < stage then copyDone 0 s
  else if fld b 4 4 = 0 ∨ fld b 24 4 = 0 then badBody k 1 0 s
  else withPlaces k b (bodyZero b 28 4) s fun src dst => copyMove e k 1 b src dst (rows2d b) s

/-- The index that names no source row (R191, R196). -/
def noIndex : Nat := 0xFFFFFFFF

/-- The rows of copy.rows, by their indices. -/
def rowsOf (b : Nat) (is : List Nat) : List CopyRow :=
  is.zipIdx.map fun p =>
    { src := if p.1 = noIndex then none else some (p.1 * fld b 32 8), dst := p.2 * fld b 40 8, rd := fld b 4 4, wr := fld b 4 4 }

/-- copy.rows (R191): its indices are read, then its rows are checked and copied. -/
def rowsStage (e : EngRef) (k : Cmd) (b stage : Nat) (got : List Byte) (s : State) : CmdRes :=
  let nr := fld b 24 4
  let idx := fld b 28 4
  if 1 < stage then copyDone 0 s
  else if fld b 4 4 = 0 ∨ nr = 0 then badBody k 1 0 s
  else withPlaces k b true s fun src dst =>
    if idx % 4 ≠ 0 then badBody k 7 0 s
    else if stage = 0 then match spSpanBad s (s.ctx k.from_.ctx) idx (4 * nr) with
      | some f => .trap f s
      | none => .work 1 b [.read idx (4 * nr)] s
    else copyMove e k 2 b src dst (rowsOf b (wordsGot nr got)) s

/-- A copy operation, an access of which that fails ends it with the trap. -/
def copyOp (op bytes : Nat) (stage : Cmd → Nat → Nat → List Byte → State → CmdRes) : CmdOp :=
  { op := op, bytes := bytes, stage := stage, fail := fun _ _ _ b s => .trap b s }

/-- COPY_LIN (R191). -/
def execCopyLin (c : Cluster) (u : Fin 16) (s : State) : Out :=
  let e := engAt .copy c u
  engineTurn e (copyOp 1 32 (linStage e)) s

/-- COPY_2D (R191). -/
def execCopy2d (c : Cluster) (u : Fin 16) (s : State) : Out :=
  let e := engAt .copy c u
  engineTurn e (copyOp 2 48 (twoDStage e)) s

/-- COPY_ROWS (R191). -/
def execCopyRows (c : Cluster) (u : Fin 16) (s : State) : Out :=
  let e := engAt .copy c u
  engineTurn e (copyOp 3 48 (rowsStage e)) s

/-! ## copy.seg (R193) -/

/-- A virtual row of copy.seg: its row, piece, first element, length, and whether it is the row's last piece. -/
structure SegPiece where
  row : Nat
  piece : Nat
  elem : Nat
  len : Nat
  last : Bool
  deriving DecidableEq, Repr, Inhabited

/-- What the pass of copy.seg over the rows gives: its pieces with the row and piece where it stops, a row whose pointers
descend, or a trap. -/
inductive SegRes where
  | ok (ps : List SegPiece) (r j : Nat) (s : State)
  | descends (r : Nat) (s : State)
  | bad (b : Bad) (s : State)
  deriving DecidableEq, Repr, Inhabited

/-- Reads a row pointer. -/
def rowPtr (x : Ctx) (base r : Nat) (s : State) : Except (Bad × State) (Nat × State) :=
  match spSpanBad s x (base + 4 * r) 4 with
  | some b => .error (b, s)
  | none => match readSpan x (base + 4 * r) 4 s with
    | .ok v s => .ok (v, s)
    | .bad b s => .error (b, s)
    | .stall s => .ok (0, s)

/-- The pass of R193 from row `r` and piece `j`, with `v` virtual rows still free. -/
def segPass (x : Ctx) (p base stop : Nat) : Nat → Nat → Nat → Nat → State → SegRes
  | 0, r, j, _, s => .ok [] r j s
  | fuel + 1, r, j, v, s =>
    if stop ≤ r ∨ v = 0 then .ok [] r j s
    else match rowPtr x base r s with
      | .error (b, s) => .bad b s
      | .ok (a, s) => match rowPtr x base (r + 1) s with
        | .error (b, s) => .bad b s
        | .ok (b, s) =>
          if b < a then .descends r s
          else
            let pieces := (b - a + p - 1) / p
            if pieces ≤ j then segPass x p base stop fuel (r + 1) 0 v s
            else
              let q : SegPiece :=
                { row := r, piece := j, elem := a + j * p, len := min p (b - a - j * p), last := decide (j + 1 = pieces) }
              match segPass x p base stop fuel r (j + 1) (v - 1) s with
              | .ok ps r j s => .ok (q :: ps) r j s
              | o => o

/-- The rows that one stream copies: its pieces as virtual rows of `p` elements of `es` bytes, padded with zeros. -/
def segRows (p es : Nat) (ps : List SegPiece) : List CopyRow :=
  ps.zipIdx.map fun q => { src := some (q.1.elem * es), dst := q.2 * p * es, rd := q.1.len * es, wr := p * es }

/-- The 16-bit field that holds a piece number (R193); what it holds for one above 65,535 is not stated (log 4). -/
def pieceField (n : Nat) (s : State) : Nat × State := if n < 2 ^ 16 then (n, s) else (s.fresh.1.toNat % 2 ^ 16, s.fresh.2)

/-- The carry entry of a piece, with its number as the entry holds it (R193). -/
def SegPiece.carry (q : SegPiece) (n : Nat) : Nat := bitN q.last * 2 ^ 63 + q.len * 2 ^ 48 + n * 2 ^ 32 + q.row % 2 ^ 32

/-- The carry entries of pieces. -/
def carries : List SegPiece → State → List Nat × State
  | [], s => ([], s)
  | q :: t, s =>
    let n := pieceField q.piece s
    let r := carries t n.2
    (q.carry n.1 :: r.1, r.2)

/-- A stream of copy.seg: its element size, its source and its destination. -/
abbrev SegStream := Nat × Plc × Plc

/-- The writes of copy.seg, a virtual row at a time: its elements in each stream, then its carry entry (R193). -/
def segWork (p ct : Nat) (streams : List SegStream) (ps : List SegPiece) (cs : List Nat) : List Work :=
  (List.range ps.length).flatMap fun v =>
    (streams.map fun t => ((segRows p t.1 ps).getD v default).work t.2.1 t.2.2) ++ [.put (ct + 8 * v) 1 8 (cs.getD v 0)]

/-- What copy.seg writes back into its body at its commit (R193; log 118): row0 and nrows, then piece0. -/
def segBack (body r j stop : Nat) : List Work :=
  [.put (body + 12) 1 8 (r % 2 ^ 32 + (stop - r) % 2 ^ 32 * 2 ^ 32), .put (body + 60) 1 2 j]

/-- The pieces are written after every check (R192, R193).  Reason 3 compares each stream's own source and destination over the
pieces produced (log 118).  The body carries what its end will need above its 64 bytes: the pieces' number, and the row and
piece where the pass stops. -/
def segWrite (e : EngRef) (k : Cmd) (b p : Nat) (streams : List SegStream) (ps : List SegPiece) (r j : Nat) (s : State) :
    CmdRes :=
  let x := s.ctx k.from_.ctx
  let ct := fld b 56 4
  if streams.any fun t => rangesMeet t.2.1 t.2.2 (segRows p t.1 ps) then badBody k 3 0 s
  else match (streams.findSome? fun t => rowsBad s x e t.2.1 t.2.2 (segRows p t.1 ps)).or (spSpanBad s x ct (8 * ps.length)) with
    | some f => .trap f s
    | none =>
      let cs := carries ps s
      .work 1 (b % 256 ^ 64 + (ps.length + r * 2 ^ 64 + j * 2 ^ 128) * 256 ^ 64) (segWork p ct streams ps cs.1) cs.2

/-- copy.seg (R192, R193). -/
def segStage (e : EngRef) (k : Cmd) (b stage : Nat) (_got : List Byte) (s : State) : CmdRes :=
  let x := s.ctx k.from_.ctx
  let p := fld b 4 2
  let sa := fld b 6 1
  let sb := fld b 7 1
  let vmax := fld b 20 4
  let stop := fld b 12 4 + fld b 16 4
  if 0 < stage then
    let n := pieceField (fld b 80 8) s
    .fin { CmdOut.ok (fld b 64 8) with back := segBack k.hdr.body (fld b 72 8) n.1 stop } n.2
  else if vmax = 0 then badBody k 1 0 s
  else if 3 < sa ∨ (3 < sb ∧ sb ≠ 0xFF) then badBody k 2 0 s
  else if p = 0 ∨ 4096 < p then badBody k 5 0 s
  else match placeOf (fld b 24 8), placeOf (fld b 32 8), placeOf (fld b 40 8), placeOf (fld b 48 8) with
    | some asrc, some adst, some bsrc, some bdst =>
      if !bodyZero b 62 2 ∨ (sb = 0xFF ∧ !(bodyZero b 40 8 && bodyZero b 48 8)) then badBody k 6 0 s
      else if fld b 8 4 % 4 ≠ 0 ∨ fld b 56 4 % 8 ≠ 0 then badBody k 7 0 s
      else match segPass x p (fld b 8 4) stop (fld b 16 4 + vmax + 1) (fld b 12 4) (fld b 60 2) vmax s with
        | .descends r s => badBody k 4 r s
        | .bad f s => .trap f s
        | .ok ps r j s =>
          segWrite e k b p ((2 ^ sa, asrc, adst) :: (if sb = 0xFF then [] else [(2 ^ sb, bsrc, bdst)])) ps r j s
    | _, _, _, _ => badBody k 6 0 s

/-- COPY_SEG (R192, R193). -/
def execCopySeg (c : Cluster) (u : Fin 16) (s : State) : Out :=
  let e := engAt .copy c u
  engineTurn e (copyOp 4 64 (segStage e)) s

end Sys2Proof.Machine
end

