-- ==== Sys2Proof/Machine/Gather.lean ====
section
/-! DEFINITION. The gather units: the layout of operand A (R195), the operand latch and its check bits (R194, R344), and gath
(R196, R197). -/

namespace Sys2Proof.Machine

open Sys2Proof

/-! ## Operand layout (R195) -/

/-- The format of an operand: a block format, or nothing for BF16. -/
abbrev OpFmt := Option BlkTy

/-- The bits of a stored element. -/
def elemBits (t : OpFmt) : Nat :=
  match t with
  | some b => BlkTy.w b
  | none => 16

/-- The bytes of a row of K-blocks: `kb` blocks of 32 elements, or of 16 stored ones under 4-of-8 (R195). -/
def rowBytes (t : OpFmt) (sparse : Bool) (kb : Nat) : Nat := kb * (if sparse then 2 else 4) * elemBits t

/-- The spans of a row in scratchpad: mantissas, scales, metadata (R195). -/
def rowSpans (t : OpFmt) (sparse : Bool) (kb src stride scales metas i : Nat) : List (Nat × Nat) :=
  [(src + i * stride, rowBytes t sparse kb)] ++ (if t.isSome then [(scales + i * kb * 2, kb * 2)] else []) ++
    (if sparse then [(metas + i * 4 * kb * 2, 4 * kb * 2)] else [])

/-- The metadata entry of a row that no index names (R196). -/
def noMeta : Nat := 0x0F50

/-- An entry repeated `n` times as 16-bit fields. -/
def repeat16 (v : Nat) : Nat → Nat
  | 0 => 0
  | n + 1 => v + 65536 * repeat16 v n

/-! ## The operand latch (R194, R344) -/

/-- The key of a gather unit's latch, or of a press's. -/
def unitKey (c : Cluster) (u : Fin 16) : Nat := c.val * 16 + u.val

/-- The 64-bit words that check bits protect in a latch row: 64 of mantissas, then 4 of scales, then 16 of metadata. -/
def latchWords : Nat := 128

/-- The words of a latch that hold its elements and scales, by row. -/
def Latch.operandWords (l : Latch) : List Nat :=
  let t : OpFmt := if l.fmt = 9 then none else BlkTy.ofCode? l.fmt
  (List.range l.m).flatMap fun i =>
    ((List.range ((rowBytes t l.sparse l.kb + 7) / 8)) ++ (if t.isSome then List.range' 64 ((2 * l.kb + 7) / 8) else [])).map
      fun j => i * latchWords + j

/-- The words of a latch that hold its metadata, by row. -/
def Latch.metaWords (l : Latch) : List Nat :=
  (List.range l.m).flatMap fun i => (if l.sparse then List.range' 68 l.kb else []).map fun j => i * latchWords + j

/-- The key of the error bits of a latch word. -/
def latchErrKey (k w : Nat) : Nat := k * (128 * latchWords) + w

/-- The report of an uncorrectable latch word, by its unit's key: a cluster and a press, in a layout that is not stated
(R342; log 22). -/
def latchReport (k : Nat) : Word := Config.eccReport trapEccLatch [k / 16, k % 16]

/-- Words of a latch are read: single-bit errors are corrected; whether a word is uncorrectable (R344). -/
def latchCheck (k : Nat) (ws : List Nat) (s : State) : Bool × State :=
  match s.latchErr with
  | [] => (false, s)
  | _ :: _ =>
    let errs := ws.map fun w => (latchErrKey k w, smGet 0 s.latchErr (latchErrKey k w))
    let one := (errs.filter fun e => decide (popWord (BitVec.ofNat 64 e.2) = 1)).map Prod.fst
    let bad := errs.filter fun e => decide (1 < popWord (BitVec.ofNat 64 e.2))
    (!bad.isEmpty, { s with latchErr := one.foldl (fun m i => smSet 0 m i 0) s.latchErr }.countEcc (k / 128) one.length bad.length)

/-- A latch is written or cleared: its words and their check bits are replaced. -/
def setLatch (k : Nat) (l : Option Latch) (s : State) : State :=
  { s with
    latches := smSet none s.latches k l,
    latchErr := smClear s.latchErr (latchErrKey k 0) (latchErrKey (k + 1) 0) }

/-- Whether a press command that reads the latch of a unit is in progress (R197). -/
def latchInUse (c : Cluster) (u : Fin 16) (s : State) : Bool :=
  match (s.eng (engAt .press c u)).run with
  | some r => decide (r.cmd.hdr.op ≠ 3) && bit (fld r.body 4 1) 4
  | none => false

/-! ## gath (R196) -/

/-- The fields of a gath body. -/
structure GathBody where
  m : Nat
  kb : Nat
  fmt : Nat
  sparse : Bool
  idx : Nat
  src : Nat
  stride : Nat
  scales : Nat
  metas : Nat
  deriving DecidableEq, Repr, Inhabited

/-- A gath body's fields. -/
def gathBody (b : Nat) : GathBody :=
  { m := fld b 4 1, kb := fld b 5 1, fmt := fld b 6 1, sparse := bit (fld b 7 1) 0, idx := fld b 8 4, src := fld b 12 4,
    stride := fld b 16 4, scales := fld b 20 4, metas := fld b 24 4 }

/-- The format of a gath body. -/
def GathBody.ty (g : GathBody) : OpFmt := if g.fmt = 9 then none else BlkTy.ofCode? g.fmt

/-- Whether every field of a gath body is in range (R192 reason 8, R196); a zero field that is not zero is out of range as well
(log 47). -/
def gathOk (b : Nat) : Bool :=
  let g := gathBody b
  decide (1 ≤ g.m ∧ g.m ≤ 128 ∧ 1 ≤ g.kb ∧ g.kb ≤ (if g.fmt = 9 then 8 else 16) ∧ (g.fmt ≤ 6 ∨ g.fmt = 9) ∧
    fld b 7 1 < 2 ∧ (g.fmt = 9 → g.scales = 0) ∧ (g.sparse = false → g.metas = 0) ∧ fld b 28 4 = 0)

/-- The first address of a gath body that must be even and is odd (R195, R196). -/
def GathBody.odd (g : GathBody) : Option Nat :=
  ((if g.fmt = 9 then [g.src, g.stride] else []) ++ [g.scales, g.metas]).find? fun a => decide (a % 2 = 1)

/-- The spans of a source row of a gath. -/
def GathBody.spansOf (g : GathBody) (r : Nat) : List (Nat × Nat) := rowSpans g.ty g.sparse g.kb g.src g.stride g.scales g.metas r

/-- The rows of a latch, from row `i`: those that an index names take their mantissas, scales and metadata from the values
read. -/
def latchRows (g : GathBody) : Nat → List Nat → List Nat → Latch → Latch
  | _, [], _, l => l
  | i, r :: rest, vs, l =>
    if r = noIndex then
      latchRows g (i + 1) rest vs { l with metas := smSet 0 l.metas i (if g.sparse then repeat16 noMeta (4 * g.kb) else 0) }
    else
      let sk := if g.ty.isSome then 1 else 3
      let mk := if g.sparse then (if g.ty.isSome then 2 else 1) else 3
      let v := vs.take (g.spansOf r).length
      latchRows g (i + 1) rest (vs.drop (g.spansOf r).length)
        { l with data := smSet 0 l.data i (v.getD 0 0), scales := smSet 0 l.scales i (v.getD sk 0),
                 metas := smSet 0 l.metas i (v.getD mk 0) }

/-- The spans that the rows of a gath read, by their indices. -/
def GathBody.reads (g : GathBody) (is : List Nat) : List (Nat × Nat) :=
  (is.filter fun r => decide (r ≠ noIndex)).flatMap g.spansOf

/-- gath (R196): its fields are checked and its indices read, then every row's span is checked and read, then the latch takes
the rows.  The body carries the indices above its 32 bytes. -/
def gathStage (k : Nat) (cmd : Cmd) (b stage : Nat) (got : List Byte) (s : State) : CmdRes :=
  let x := s.ctx cmd.from_.ctx
  let g := gathBody b
  match stage with
  | 0 =>
    if !gathOk b then badBody cmd 8 0 s
    else if g.idx % 4 ≠ 0 then badBody cmd 7 0 s
    else match g.odd with
      | some a => .trap { code := trapMemAlign, report := a } s
      | none => match spSpanBad s x g.idx (4 * g.m) with
        | some f => .trap f s
        | none => .work 1 b [.read g.idx (4 * g.m)] s
  | 1 =>
    let spans := g.reads (wordsGot g.m got)
    match spans.findSome? fun p => spSpanBad s x p.1 p.2 with
    | some f => .trap f s
    | none => .work 2 (b % 256 ^ 32 + ofBytes got * 256 ^ 32) (spans.map fun p => .read p.1 p.2) s
  | _ =>
    let is := wordsGot g.m (toBytes (b / 256 ^ 32) (4 * g.m))
    let l : Latch := { m := g.m, kb := g.kb, fmt := g.fmt, sparse := g.sparse, data := [], scales := [], metas := [] }
    .fin (.ok g.m) (setLatch k (some (latchRows g 0 is (splitBytes ((g.reads is).map Prod.snd) got) l)) s)

/-- The operation gath: an uncorrectable word of what it reads, its indices among it, clears the latch (R196; log 119). -/
def gathOp (k : Nat) : CmdOp :=
  { op := 1, bytes := 32, stage := gathStage k, fail := fun _ _ _ b s => .trap b (setLatch k none s) }

/-- GATH (R196, R197): it waits while its press reads the latch. -/
def execGath (c : Cluster) (u : Fin 16) (s : State) : Out :=
  if latchInUse c u s then .next s else engineTurn (engAt .gather c u) (gathOp (unitKey c u)) s

end Sys2Proof.Machine
end

