-- ==== Sys2Proof/Machine/Press.lean ====
section
/-! DEFINITION. The presses: press.mm, press.bf and press.rd (R54, R55, R199 to R207). -/

namespace Sys2Proof.Machine

open Sys2Proof

/-! ## Trap codes of the presses (R205) -/

/-- Trap codes by name. -/
def trapPressSpmeta : Nat := 0x0601
@[inherit_doc trapPressSpmeta] def trapPressShape : Nat := 0x0602
@[inherit_doc trapPressSpmeta] def trapPressFmt : Nat := 0x0603
@[inherit_doc trapPressSpmeta] def trapPressLatch : Nat := 0x0604

/-! ## Bodies (R199, R207) -/

/-- The fields of a press.mm or press.bf body, with its formats. -/
structure PressBody where
  bf : Bool
  tile : Nat
  ovw : Bool
  cks : Bool
  sparse : Bool
  latch : Bool
  fa : Nat
  fb : Nat
  m : Nat
  n : Nat
  k : Nat
  a : Nat
  astride : Nat
  ascales : Nat
  b : Nat
  bstride : Nat
  bscales : Nat
  metas : Nat
  emask : Nat
  fill : Nat
  deriving DecidableEq, Repr, Inhabited

/-- The fields of a body. -/
def pressBody (bf : Bool) (b : Nat) : PressBody :=
  let ctl := fld b 4 1
  { bf := bf, tile := ctl % 2, ovw := bit ctl 1, cks := bit ctl 2, sparse := bit ctl 3, latch := bit ctl 4, fa := fld b 5 1,
    fb := fld b 6 1, m := fld b 8 2, n := fld b 10 2, k := fld b 12 4, a := fld b 16 4, astride := fld b 20 4,
    ascales := fld b 24 4, b := fld b 28 4, bstride := fld b 32 4, bscales := fld b 36 4, metas := fld b 40 4,
    emask := fld b 48 4, fill := fld b 52 4 }

/-- The K-blocks of a command (R195). -/
def PressBody.kb (p : PressBody) : Nat := (p.k + 31) / 32

/-- The format of operand A. -/
def PressBody.ta (p : PressBody) : OpFmt := if p.bf then none else BlkTy.ofCode? p.fa

/-- The format of operand B. -/
def PressBody.tb (p : PressBody) : OpFmt := if p.bf then none else BlkTy.ofCode? p.fb

/-- Whether the shape of a command is in range, with the shape of the latch that it reads (R196, R205). -/
def PressBody.shapeOk (p : PressBody) : Bool :=
  decide (1 ≤ p.m ∧ p.m ≤ 128 ∧ 1 ≤ p.n ∧ p.n ≤ 128 ∧ 1 ≤ p.k ∧ p.k ≤ 65536) &&
    (!p.latch || decide (p.kb ≤ if p.bf then 8 else 16))

/-- Whether formats and zero fields are as they must be, no mask meets a checksum, and no masked feature is used (R199,
R205, R363). -/
def PressBody.fmtOk (s : State) (b : Nat) (p : PressBody) : Bool :=
  decide (fld b 4 1 < 32 ∧ fld b 7 1 = 0 ∧ fld b 44 4 = 0 ∧ fld b 56 8 = 0) &&
  (if p.bf then decide (p.fa = 0 ∧ p.fb = 0 ∧ p.ascales = 0 ∧ p.bscales = 0) else decide (p.fa ≤ 6 ∧ p.fb ≤ 6)) &&
  (!p.latch || decide (p.a = 0 ∧ p.astride = 0 ∧ p.ascales = 0)) && ((p.sparse && !p.latch) || decide (p.metas = 0)) &&
  !(p.cks && decide (p.emask ≠ 0)) && !(p.sparse && s.masked 2) && !(p.cks && s.masked 3)

/-- Whether a latch holds what a command takes from it (R204). -/
def PressBody.latchOk (p : PressBody) (l : Option Latch) : Bool :=
  match l with
  | none => false
  | some l => decide (l.m = p.m ∧ l.kb = p.kb ∧ l.fmt = (if p.bf then 9 else p.fa) ∧ l.sparse = p.sparse)

/-- The first misaligned field of a body, in body order (R205). -/
def PressBody.misaligned (p : PressBody) : Option Nat :=
  let even := (if p.bf then [p.a, p.astride] else []) ++ [p.ascales] ++ (if p.bf then [p.b, p.bstride] else []) ++
    [p.bscales, p.metas]
  (even.find? fun v => decide (v % 2 = 1)).or (if p.emask % 16 = 0 then none else some p.emask)

/-- The spans of `n` rows of an operand: its elements, then its scales (R195). -/
def operandSpans (t : OpFmt) (sparse : Bool) (kb base stride scales n : Nat) : List (List (Nat × Nat)) :=
  [(List.range n).map fun i => (base + i * stride, rowBytes t sparse kb), if t.isSome then [(scales, n * kb * 2)] else []]

/-- The footprints of a command in body order (R205); a row's counts whole K-blocks, with the positions at and beyond K that
pad the last one (log 120). -/
def PressBody.footprints (p : PressBody) : List (List (Nat × Nat)) :=
  (if p.latch then [] else operandSpans p.ta p.sparse p.kb p.a p.astride p.ascales p.m) ++
    operandSpans p.tb false p.kb p.b p.bstride p.bscales p.n ++
    [if p.sparse && !p.latch then [(p.metas, p.m * p.kb * 8)] else [], if p.emask = 0 then [] else [(p.emask, 16 * p.m)]]

/-- The fault of a footprint: MEM.RANGE before MEM.PERM (R205). -/
def footBad (s : State) (x : Ctx) (spans : List (Nat × Nat)) : Option Bad :=
  ((spans.find? fun p => decide (0 < p.2 ∧ 2 ^ 30 < p.1 + p.2)).map fun p =>
    { code := trapMemRange, report := max p.1 (2 ^ 30) }).or (spans.findSome? fun p => spSpanBad s x p.1 p.2)

/-! ## Operands (R45, R195, R201, R202) -/

/-- A metadata entry is legal: ascending positions and zero above them (R202). -/
def metaLegal (e : Nat) : Bool :=
  decide (e < 4096 ∧ bits e 2 0 < bits e 5 3 ∧ bits e 5 3 < bits e 8 6 ∧ bits e 8 6 < bits e 11 9)

/-- The first illegal entry among `n` packed entries. -/
def metaBad (n v : Nat) : Option Nat := (List.range n).find? fun g => !metaLegal (v / 65536 ^ g % 65536)

/-- The stored value at a position of a group, by its metadata entry (R202). -/
def storedAt (e pos : Nat) : Option Nat := (List.range 4).find? fun j => e / 8 ^ j % 8 = pos

/-- The elements of a row of K-blocks as patterns; positions at and beyond K, and pruned positions, hold none (R201, R202). -/
def rowElems (t : OpFmt) (sparse : Bool) (kb k data metas : Nat) : List (Option Nat) :=
  let w := elemBits t
  (List.range (kb * 32)).map fun p =>
    if k ≤ p then none
    else if sparse then (storedAt (metas / 65536 ^ (p / 8) % 65536) (p % 8)).map fun j =>
      data / 2 ^ ((p / 8 * 4 + j) * w) % 2 ^ w
    else some (data / 2 ^ (p * w) % 2 ^ w)

/-- A row of operand A or a column of operand B. -/
structure Vec where
  elems : List (Option Nat)
  scales : Nat
  deriving DecidableEq, Repr, Inhabited

/-- The scale of a K-block. -/
def Vec.scale (v : Vec) (kb : Nat) : Nat := v.scales / 65536 ^ kb % 65536

/-- The 32 elements of a K-block. -/
def Vec.block (v : Vec) (kb : Nat) : List (Option Nat) := (v.elems.drop (32 * kb)).take 32

/-- The result of one K-block (R54, R55): a padded or pruned position is a 0 element. -/
def blockRes (ta tb : OpFmt) (a b : Vec) (kb : Nat) : Res Nat :=
  let ps := (a.block kb).zip (b.block kb)
  match ta, tb with
  | some ta, some tb =>
    blockP ta tb (a.scale kb) (b.scale kb)
      ((ps.map fun p => mantOf (BlkTy.w ta) (p.1.getD 0) * mantOf (BlkTy.w tb) (p.2.getD 0)).foldl (· + ·) 0)
  | _, _ => bfP (ps.map fun p => (p.1.getD 0, p.2.getD 0))

/-- An accumulator over the K-blocks, ascending (R54, R56). -/
def accum (ta tb : OpFmt) (a b : Vec) (acc : Nat) (kb : Nat) : Res Nat :=
  (List.range kb).foldl (fun r i =>
    let x := accStep r.val (blockRes ta tb a b i)
    { x with fl := r.fl ||| x.fl }) (quiet acc)

/-- The binary32 pattern of an element's exact value (R43, R55): 0 where it is padded or pruned. -/
def Vec.val (t : OpFmt) (v : Vec) (k : Nat) : Nat :=
  match (v.elems[k]?).join with
  | none => 0
  | some e => match t with
    | none => e * 65536
    | some b => (toFlt .f32 .rne false 0 (blkVal b (v.scale (k / 32)) e)).val

/-! ## Checksums (R203) -/

/-- One binary32 step that sets no unf (R52, R203). -/
def cksStep (x : Res Nat) : Res Nat := { x with fl := x.fl &&& ~~~fUnf }

/-- Folds values into +0 by rounded addition, ascending. -/
def cksSum (vs : List Nat) : Res Nat :=
  vs.foldl (fun r v => let x := cksStep (fAdd .f32 .rne false 0 r.val v); { x with fl := r.fl ||| x.fl }) (quiet 0)

/-- A checksum entry from its old value: per K-block, the rounded sum of rounded products, added with flush (R203). -/
def cksEntry (kb c : Nat) (xs ys : List Nat) : Res Nat :=
  (List.range kb).foldl (fun r i =>
    let ps := (((xs.zip ys).drop (32 * i)).take 32).map fun p => cksStep (fMul .f32 .rne false 0 p.1 p.2)
    let t := cksSum (ps.map (·.val))
    let x := flushSub (fAdd .f32 .rne false 0 r.val t.val)
    { x with fl := ps.foldl (fun f p => f ||| p.fl) (r.fl ||| t.fl ||| x.fl) }) (quiet c)

/-! ## Accumulators -/

/-- The key of a tile's first accumulator element. -/
def tileKey (k tile : Nat) : Nat := (k * 2 + tile) * 16384

/-- The key of a tile's first checksum entry. -/
def cksKey (k tile : Nat) : Nat := (k * 2 + tile) * 128

/-- Writes listed entries of a store of binary32 values. -/
def putVals (m : SMap (BitVec 32)) (base : Nat) (l : List (Nat × Nat)) : SMap (BitVec 32) :=
  l.foldl (fun m p => smSet 0 m (base + p.1) (BitVec.ofNat 32 p.2)) m

/-- The places of the elements that a command covers, as offsets in the tile. -/
def tilePlaces (m n : Nat) : List (Nat × Nat) := (List.range m).flatMap fun i => (List.range n).map fun j => (i, j)

/-- Writes elements of a tile, and entries of its checksum row and column. -/
def writeTile (k tile : Nat) (es row col : List (Nat × Nat)) (s : State) : State :=
  { s with acc := putVals s.acc (tileKey k tile) es, csrow := putVals s.csrow (cksKey k tile) row,
           cscol := putVals s.cscol (cksKey k tile) col }

/-- An uncorrectable operand: every element and checksum that the command would write is the canonical NaN (R205). -/
def poison (k : Nat) (p : PressBody) (b : Bad) (s : State) : CmdRes :=
  let nan := fNaN .f32
  .fin { CmdOut.bad b.code 0 0 b.report with cls := p.tile } (writeTile k p.tile
    ((tilePlaces p.m p.n).map fun i => (i.1 * 128 + i.2, nan))
    (if p.cks then (List.range p.n).map fun j => (j, nan) else [])
    (if p.cks then (List.range p.m).map fun j => (j, nan) else []) s)

/-! ## press.mm and press.bf (R199 to R206) -/

/-- The failure of a press command before its leave (R205): its report is its result word. -/
def pressBad (p : PressBody) (code result : Nat) (s : State) : CmdRes :=
  .fin { CmdOut.bad code 0 result result with cls := p.tile } s

/-- The fault of a press command that changes nothing (R205). -/
def pressTrap (p : PressBody) (f : Bad) (s : State) : CmdRes := .fin { CmdOut.bad f.code 0 0 f.report with cls := p.tile } s

/-- The bytes of a command's metadata. -/
def PressBody.metaBytes (p : PressBody) : Nat := p.m * p.kb * 8

/-- The metadata of a latch, a row's after another's. -/
def Latch.metaVal (l : Latch) (n : Nat) : Nat := (List.range l.m).foldl (fun v i => v + smGet 0 l.metas i * 65536 ^ (i * n)) 0

/-- The test of a command's metadata (R202, R205): the body then carries it above its 64 bytes. -/
def metaStage (p : PressBody) (b v : Nat) (s : State) : CmdRes :=
  match metaBad (p.metaBytes / 2) v with
  | some g => pressBad p trapPressSpmeta g s
  | none => .leave 2 (b % 256 ^ 64 + v * 256 ^ 64) s

/-- The checks of a command in the order of R205; an uncorrectable word of a latch's metadata is ECC.LATCH, before any
accumulation. -/
def pressCheck (bf : Bool) (u : Nat) (k : Cmd) (b : Nat) (s : State) : CmdRes :=
  let x := s.ctx k.from_.ctx
  let p := pressBody bf b
  if !p.shapeOk then pressBad p trapPressShape 0 s
  else if !p.fmtOk s b then pressBad p trapPressFmt 0 s
  else if p.latch && !p.latchOk (s.latch (u / 16) (u % 16)) then pressBad p trapPressLatch 0 s
  else match p.misaligned with
    | some v => pressTrap p { code := trapMemAlign, report := v } s
    | none => match p.footprints.findSome? (footBad s x) with
      | some f => pressTrap p f s
      | none =>
        if !p.sparse then .leave 2 b s
        else if !p.latch then .work 1 b [.read p.metas p.metaBytes] s
        else match s.latch (u / 16) (u % 16) with
          | none => .leave 2 b s
          | some l =>
            let c := latchCheck u l.metaWords s
            if c.1 then pressTrap p { code := trapEccLatch, report := (latchReport u).toNat } c.2
            else metaStage p b (l.metaVal (4 * p.kb)) c.2

/-- The spans of scratchpad that a command's operands and mask fill, in the order in which they are read (R195). -/
def PressBody.reads (p : PressBody) : List (Nat × Nat) :=
  (if p.latch then [] else (operandSpans p.ta p.sparse p.kb p.a p.astride p.ascales p.m).flatten) ++
    (operandSpans p.tb false p.kb p.b p.bstride p.bscales p.n).flatten ++ if p.emask = 0 then [] else [(p.emask, 16 * p.m)]

/-- The rows of an operand from the values of its spans: the elements and the scales of each. -/
def spanRows (t : OpFmt) (kb n : Nat) (vs : List Nat) : List (Nat × Nat) :=
  (List.range n).map fun i =>
    (vs.getD i 0, if t.isSome then vs.getD n 0 / 65536 ^ (i * kb) % 65536 ^ kb else 0)

/-- The spans that hold an operand of `n` rows. -/
def spanCount (t : OpFmt) (n : Nat) : Nat := if t.isSome then n + 1 else n

/-- The result of a command over its operands (R200, R201, R203). -/
def pressResult (u : Nat) (p : PressBody) (as bs : List Vec) (mask : Nat) (s : State) : CmdRes :=
  let old := fun m n => if p.ovw then 0 else (smGet 0 s.acc (tileKey u p.tile + m * 128 + n)).toNat
  let kept := fun m n => decide (p.emask = 0) || bit mask (128 * m + n)
  let es := as.zipIdx.flatMap fun a => bs.zipIdx.filterMap fun b =>
    if kept a.2 b.2 then some (a.2 * 128 + b.2, accum p.ta p.tb a.1 b.1 (old a.2 b.2) p.kb)
    else if p.ovw then some (a.2 * 128 + b.2, quiet p.fill) else none
  let ks := if p.cks then List.range (p.kb * 32) else []
  let va := if p.cks then as.map fun a => ks.map (Vec.val p.ta a) else []
  let vb := if p.cks then bs.map fun b => ks.map (Vec.val p.tb b) else []
  let sa := ks.map fun k => cksSum (va.map fun a => a.getD k 0)
  let sb := ks.map fun k => cksSum (vb.map fun b => b.getD k 0)
  let c0 := fun (m : SMap (BitVec 32)) i => if p.ovw then 0 else (smGet 0 m (cksKey u p.tile + i)).toNat
  let row := vb.zipIdx.map fun b => (b.2, cksEntry p.kb (c0 s.csrow b.2) (sa.map (·.val)) b.1)
  let col := va.zipIdx.map fun a => (a.2, cksEntry p.kb (c0 s.cscol a.2) a.1 (sb.map (·.val)))
  let fl := ((es ++ row ++ col).map (·.2.fl) ++ (sa ++ sb).map (·.fl)).foldl (· ||| ·) fNone
  .fin { CmdOut.ok (bitN p.cks * 2 ^ 21 + p.k % 32 * 2 ^ 16 + p.n * 2 ^ 8 + p.m) with flags := fl, cls := p.tile }
    (writeTile u p.tile (es.map fun e => (e.1, e.2.val)) (row.map fun e => (e.1, e.2.val)) (col.map fun e => (e.1, e.2.val)) s)

/-- The product of a command over the values that it has read (R200). -/
def pressProduct (u : Nat) (p : PressBody) (metas : Nat) (vs : List Nat) (s : State) : CmdRes :=
  let na := if p.latch then 0 else spanCount p.ta p.m
  let ra := if p.latch then match s.latch (u / 16) (u % 16) with
      | some l => (List.range p.m).map fun i => (smGet 0 l.data i, smGet 0 l.scales i)
      | none => []
    else spanRows p.ta p.kb p.m vs
  let rb := spanRows p.tb p.kb p.n (vs.drop na)
  pressResult u p
    (ra.zipIdx.map fun r =>
      { elems := rowElems p.ta p.sparse p.kb p.k r.1.1 (metas / 65536 ^ (r.2 * 4 * p.kb)), scales := r.1.2 })
    (rb.map fun r => { elems := rowElems p.tb false p.kb p.k r.1 0, scales := r.2 })
    (vs.getD (na + spanCount p.tb p.n) 0) s

/-- press.mm and press.bf (R200, R204, R205): the checks, the metadata's read and test, then, with leave, the operands' reads,
and the tile takes the product; an uncorrectable word of a latched operand poisons it. -/
def pressStage (bf : Bool) (u : Nat) (k : Cmd) (b stage : Nat) (got : List Byte) (s : State) : CmdRes :=
  let p := pressBody bf b
  match stage with
  | 0 => pressCheck bf u k b s
  | 1 => metaStage p b (ofBytes got) s
  | 2 => .work 3 b (p.reads.map fun r => .read r.1 r.2) s
  | _ =>
    let ws := if p.latch then ((s.latch (u / 16) (u % 16)).map Latch.operandWords).getD [] else []
    let c := latchCheck u ws s
    if c.1 then poison u p { code := trapEccLatch, report := (latchReport u).toNat } c.2
    else pressProduct u p (b / 256 ^ 64) (splitBytes (p.reads.map Prod.snd) got) c.2

/-- The operations press.mm and press.bf: an uncorrectable word of the metadata ends the command with no change, one of its
operands poisons the tile (R205). -/
def pressOp (bf : Bool) (u : Nat) : CmdOp :=
  { op := if bf then 2 else 1, bytes := 64, stage := pressStage bf u,
    fail := fun _ b stage f s => if stage = 1 then pressTrap (pressBody bf b) f s else poison u (pressBody bf b) f s }

/-- PRESS_MM (R200). -/
def execPressMm (c : Cluster) (u : Fin 16) (s : State) : Out := engineTurn (engAt .press c u) (pressOp false (unitKey c u)) s

/-- PRESS_BF (R200). -/
def execPressBf (c : Cluster) (u : Fin 16) (s : State) : Out := engineTurn (engAt .press c u) (pressOp true (unitKey c u)) s

/-! ## press.rd (R207) -/

/-- The fields of a press.rd body. -/
structure ReadBody where
  tile : Nat
  cks : Bool
  clr : Bool
  m : Nat
  n : Nat
  dst : Nat
  dstride : Nat
  cdst : Nat
  deriving DecidableEq, Repr, Inhabited

/-- The fields of a body. -/
def readBody (b : Nat) : ReadBody :=
  let ctl := fld b 4 1
  { tile := ctl % 2, cks := bit ctl 1, clr := bit ctl 2, m := fld b 8 2, n := fld b 10 2, dst := fld b 12 4,
    dstride := fld b 16 4, cdst := fld b 20 4 }

/-- The checks of press.rd in the order of R205. -/
def readCheck (k : Cmd) (b : Nat) (s : State) : CmdRes :=
  let x := s.ctx k.from_.ctx
  let p := readBody b
  let trap := fun (code report : Nat) => CmdRes.fin { CmdOut.bad code 0 0 report with cls := p.tile } s
  if ¬ (1 ≤ p.m ∧ p.m ≤ 128 ∧ 1 ≤ p.n ∧ p.n ≤ 128) then trap trapPressShape 0
  else if 8 ≤ fld b 4 1 ∨ fld b 5 3 ≠ 0 ∨ fld b 24 8 ≠ 0 ∨ (!p.cks && decide (p.cdst ≠ 0)) ∨ (p.cks && s.masked 3) then
    trap trapPressFmt 0
  else match [p.dst, p.dstride, p.cdst].find? fun v => decide (v % 4 ≠ 0) with
    | some v => trap trapMemAlign v
    | none =>
      match [(List.range p.m).map fun i => (p.dst + i * p.dstride, 4 * p.n),
          if p.cks then [(p.cdst, 4 * (p.n + p.m))] else []].findSome? (footBad s x) with
      | some f => trap f.code f.report
      | none => .leave 2 b s

/-- `n` entries of a store of binary32 values as one little-endian value. -/
def packVals (m : SMap (BitVec 32)) (base : Nat) : Nat → Nat
  | 0 => 0
  | n + 1 => (smGet 0 m base).toNat + 2 ^ 32 * packVals m (base + 1) n

/-- The writes of press.rd, a binary32 value at a time (R207, R244): the tile's rows, and with cks the checksums. -/
def readPuts (u : Nat) (p : ReadBody) (s : State) : List Work :=
  ((List.range p.m).map fun i =>
    .put (p.dst + i * p.dstride) 4 (4 * p.n) (packVals s.acc (tileKey u p.tile + i * 128) p.n)) ++
  if p.cks then [.put p.cdst 4 (4 * (p.n + p.m))
    (packVals s.csrow (cksKey u p.tile) p.n + 2 ^ (32 * p.n) * packVals s.cscol (cksKey u p.tile) p.m)] else []

/-- press.rd (R207): the checks, then, with leave, the writes, and with clr what was read is cleared. -/
def readStage (u : Nat) (k : Cmd) (b stage : Nat) (_got : List Byte) (s : State) : CmdRes :=
  let p := readBody b
  match stage with
  | 0 => readCheck k b s
  | 2 => .work 3 b (readPuts u p s) s
  | _ => .fin { CmdOut.ok 0 with cls := p.tile }
      (if p.clr then writeTile u p.tile ((tilePlaces p.m p.n).map fun i => (i.1 * 128 + i.2, 0))
        (if p.cks then (List.range p.n).map fun j => (j, 0) else [])
        (if p.cks then (List.range p.m).map fun j => (j, 0) else []) s else s)

/-- The operation press.rd. -/
def readOp (u : Nat) : CmdOp :=
  { op := 3, bytes := 32, stage := readStage u,
    fail := fun _ b _ f s => .fin { CmdOut.bad f.code 0 0 f.report with cls := (readBody b).tile } s }

/-- PRESS_RD (R207). -/
def execPressRd (c : Cluster) (u : Fin 16) (s : State) : Out := engineTurn (engAt .press c u) (readOp (unitKey c u)) s

end Sys2Proof.Machine
end

