-- ==== Sys2Proof/Machine/Jig.lean ====
section
/-! DEFINITION. The jig: mask programs, exact and over intervals, and mask.cls (R83, R84, R222 to R238). -/

namespace Sys2Proof.Machine

open Sys2Proof

/-! ## The body (R223) -/

/-- The fields of a mask.cls body; an address is bits <29:0> of its field, and a base position bits <23:0>. -/
structure MaskBody where
  tsz : Nat
  plen : Nat
  nb : Nat
  qbase : Nat
  kbase : Nat
  lq : Nat
  lk : Nat
  btab : Nat
  cmap : Nat
  list : Nat
  mbase : Nat
  mcap : Nat
  sbytes : Nat
  words : List Nat
  consts : List Nat
  deriving DecidableEq, Repr, Inhabited

/-- The fields of a body. -/
def maskBody (b : Nat) : MaskBody :=
  { tsz := fld b 4 1, plen := fld b 5 1, nb := fld b 6 2, qbase := fld b 8 3, kbase := fld b 12 3, lq := fld b 16 4,
    lk := fld b 20 4, btab := fld b 24 4 % 2 ^ 30, cmap := fld b 28 4 % 2 ^ 30, list := fld b 32 4 % 2 ^ 30,
    mbase := fld b 36 4 % 2 ^ 30, mcap := fld b 40 4, sbytes := fld b 48 8,
    words := (List.range (fld b 5 1)).map fun j => fld b (64 + 2 * j) 2,
    consts := (List.range 8).map fun j => fld b (96 + 4 * j) 4 }

/-- The tile size T. -/
def MaskBody.t (p : MaskBody) : Nat := 32 * 2 ^ p.tsz

/-- The rows of the grid (R224). -/
def MaskBody.ni (p : MaskBody) : Nat := (p.lq + p.t - 1) / p.t

/-- The columns of the grid (R224). -/
def MaskBody.nj (p : MaskBody) : Nat := (p.lk + p.t - 1) / p.t

/-- The value of a constant: 24 bits, signed. -/
def maskConst (v : Nat) : Int := if bit v 23 then (v % 2 ^ 24 : Nat) - (2 ^ 24 : Nat) else (v % 2 ^ 24 : Nat)

/-! ## The checks of R228 -/

/-- The first fault of a mask program from word `j` at a stack depth: its reason and index (R228). -/
def progBad (plen : Nat) : Nat → Nat → List Nat → Option (Nat × Nat)
  | _, _, [] => some (4, plen - 1)
  | j, depth, w :: t =>
    match decodeMask w with
    | none => some (1, j)
    | some .stop =>
      if depth = 0 then some (2, j) else if j + 1 < plen then some (6, j) else if depth = 1 then none else some (7, j)
    | some .and | some .or => if depth < 2 then some (2, j) else progBad plen (j + 1) (depth - 1) t
    | some .not => if depth = 0 then some (2, j) else progBad plen (j + 1) depth t
    | some (.kltq _) | some (.kleq _) | some (.kgtq _) | some (.kgeq _) | some (.keqq _) | some (.qlt _) | some (.qge _)
    | some (.klt _) | some (.kge _) | some .same | some .diff | some (.pushc _) =>
      if 8 ≤ depth then some (3, j) else progBad plen (j + 1) (depth + 1) t

/-- The first constant that is not sign-extended (R228 reason 8). -/
def constBad (l : List Nat) : Option Nat :=
  ((l.zipIdx.find? fun p => decide (p.1 / 2 ^ 24 ≠ if bit p.1 23 then 0xFF else 0)).map Prod.snd)

/-- The first faulty start of a boundary table (R228 reason 9). -/
def startBad (l : List Nat) : Option Nat :=
  (List.range l.length).find? fun j => decide (2 ^ 24 ≤ l.getD j 0) || decide (0 < j ∧ l.getD j 0 ≤ l.getD (j - 1) 0)

/-- Whether the geometry is in range (R224). -/
def MaskBody.geomOk (p : MaskBody) : Bool :=
  decide (p.tsz ≤ 2 ∧ 0 < p.lq ∧ 0 < p.lk ∧ p.qbase + p.lq ≤ 2 ^ 24 ∧ p.kbase + p.lk ≤ 2 ^ 24 ∧ p.ni * p.nj ≤ 65536)

/-- The masks of the bits of a body's zero fields, by byte, ascending. -/
def zeroMasks (nb : Nat) : List (Nat × Nat) :=
  [(11, 0xFF), (15, 0xFF)] ++ (if nb = 0 then [(24, 0xFF), (25, 0xFF), (26, 0xFF), (27, 0xFF)] else [(27, 0xC0)]) ++
    [(31, 0xC0), (35, 0xC0), (39, 0xC0)] ++ (List.range' 44 4).map (·, 0xFF) ++ (List.range' 56 8).map (·, 0xFF)

/-- The lowest byte that holds a non-zero bit of a zero field (R228 reason 11). -/
def zeroBad (b nb : Nat) : Option Nat := ((zeroMasks nb).find? fun z => decide (fld b z.1 1 &&& z.2 ≠ 0)).map Prod.fst

/-- The fault of a footprint: misaligned, then its bytes (R228). -/
def areaBad (s : State) (x : Ctx) (a n align : Nat) : Option Bad :=
  if a % align ≠ 0 then some { code := trapMemAlign, report := a } else spSpanBad s x a n

/-! ## Mask programs (R227, R229, R230) -/

/-- A truth value over a tile. -/
inductive Tri where
  | f | u | t
  deriving DecidableEq, Repr, Inhabited

/-- The class code of a truth value: 0 empty, 1 partial, 2 full (R231). -/
def Tri.code : Tri → Nat
  | .f => 0 | .u => 1 | .t => 2

/-- and over truth values (R230). -/
def Tri.and : Tri → Tri → Tri
  | .f, _ => .f
  | _, .f => .f
  | .t, .t => .t
  | _, _ => .u

/-- not over a truth value (R230). -/
def Tri.not : Tri → Tri
  | .f => .t | .u => .u | .t => .f

/-- or over truth values (R230). -/
def Tri.or (a b : Tri) : Tri := Tri.not (Tri.and (Tri.not a) (Tri.not b))

/-- A truth value from the two tests of R229. -/
def triOf (t f : Bool) : Tri := if t then .t else if f then .f else .u

/-- A tile's valid intervals with their documents (R229). -/
structure Span where
  qlo : Int
  qhi : Int
  klo : Int
  khi : Int
  dqlo : Nat
  dqhi : Nat
  dklo : Nat
  dkhi : Nat
  deriving DecidableEq, Repr, Inhabited

/-- What a word that pushes yields over a tile; nothing for the other words (R229). -/
def Span.leaf (v : Span) (c : Fin 8 → Int) (w : MaskWord) : Option Tri :=
  let lo := v.klo - v.qhi
  let hi := v.khi - v.qlo
  let same := decide (v.dqlo = v.dqhi ∧ v.dqhi = v.dklo ∧ v.dklo = v.dkhi)
  let apart := decide (v.dqhi < v.dklo ∨ v.dkhi < v.dqlo)
  match w with
  | .kltq i => some (triOf (decide (hi < c i)) (decide (c i ≤ lo)))
  | .kleq i => some (triOf (decide (hi ≤ c i)) (decide (c i < lo)))
  | .kgtq i => some (triOf (decide (c i < lo)) (decide (hi ≤ c i)))
  | .kgeq i => some (triOf (decide (c i ≤ lo)) (decide (hi < c i)))
  | .keqq i => some (triOf (decide (lo = c i ∧ hi = c i)) (decide (c i < lo ∨ hi < c i)))
  | .qlt i => some (triOf (decide (v.qhi < c i)) (decide (c i ≤ v.qlo)))
  | .qge i => some (triOf (decide (c i ≤ v.qlo)) (decide (v.qhi < c i)))
  | .klt i => some (triOf (decide (v.khi < c i)) (decide (c i ≤ v.klo)))
  | .kge i => some (triOf (decide (c i ≤ v.klo)) (decide (v.khi < c i)))
  | .same => some (triOf same apart)
  | .diff => some (triOf apart same)
  | .pushc b => some (if b then .t else .f)
  | .stop | .and | .or | .not => none

/-- A word applied to the stack of truth values (R230). -/
def triWord (v : Span) (c : Fin 8 → Int) (st : List Tri) (w : MaskWord) : List Tri :=
  match v.leaf c w with
  | some x => x :: st
  | none => match w, st with
    | .and, b :: a :: r => Tri.and a b :: r
    | .or, b :: a :: r => Tri.or a b :: r
    | .not, a :: r => Tri.not a :: r
    | _, _ => st

/-- The value that a program leaves over a tile (R229, R230). -/
def triRun (v : Span) (c : Fin 8 → Int) (ws : List MaskWord) : Tri := ((ws.foldl (triWord v c) []).head?).getD .u

/-- One element: its positions and their documents. -/
structure Elem where
  q : Int
  k : Int
  dq : Nat
  dk : Nat
  deriving DecidableEq, Repr, Inhabited

/-- What a word that pushes yields at an element; nothing for the other words (R227). -/
def Elem.leaf (v : Elem) (c : Fin 8 → Int) (w : MaskWord) : Option Bool :=
  match w with
  | .kltq i => some (decide (v.k < v.q + c i))
  | .kleq i => some (decide (v.k ≤ v.q + c i))
  | .kgtq i => some (decide (v.q + c i < v.k))
  | .kgeq i => some (decide (v.q + c i ≤ v.k))
  | .keqq i => some (decide (v.k = v.q + c i))
  | .qlt i => some (decide (v.q < c i))
  | .qge i => some (decide (c i ≤ v.q))
  | .klt i => some (decide (v.k < c i))
  | .kge i => some (decide (c i ≤ v.k))
  | .same => some (decide (v.dq = v.dk))
  | .diff => some (decide (v.dq ≠ v.dk))
  | .pushc b => some b
  | .stop | .and | .or | .not => none

/-- A word applied to the stack at an element (R227). -/
def elemWord (v : Elem) (c : Fin 8 → Int) (st : List Bool) (w : MaskWord) : List Bool :=
  match v.leaf c w with
  | some x => x :: st
  | none => match w, st with
    | .and, b :: a :: r => (a && b) :: r
    | .or, b :: a :: r => (a || b) :: r
    | .not, a :: r => (!a) :: r
    | _, _ => st

/-- The exact bit of an element (R227). -/
def elemRun (v : Elem) (c : Fin 8 → Int) (ws : List MaskWord) : Bool := ((ws.foldl (elemWord v c) []).head?).getD false

/-- The document of a position: the starts at or below it (R225). -/
def docOf (starts : List Nat) (p : Nat) : Nat := (starts.filter fun s => decide (s ≤ p)).length

/-! ## Tiles (R224, R231 to R233) -/

/-- A mask.cls command that has passed its checks: its body, boundary table and program. -/
structure MaskJob where
  p : MaskBody
  starts : List Nat
  ws : List MaskWord
  deriving DecidableEq, Repr, Inhabited

/-- The constants of a command. -/
def MaskJob.const (j : MaskJob) (i : Fin 8) : Int := maskConst (j.p.consts.getD i.val 0)

/-- The valid rows or columns of a tile: the first and the number past the last, of `n` in all. -/
def tileRange (t n i : Nat) : Nat × Nat := (i * t, min n ((i + 1) * t))

/-- The intervals of tile (i, k). -/
def MaskJob.span (j : MaskJob) (i k : Nat) : Span :=
  let r := tileRange j.p.t j.p.lq i
  let c := tileRange j.p.t j.p.lk k
  let qlo := j.p.qbase + r.1
  let qhi := j.p.qbase + r.2 - 1
  let klo := j.p.kbase + c.1
  let khi := j.p.kbase + c.2 - 1
  { qlo := qlo, qhi := qhi, klo := klo, khi := khi, dqlo := docOf j.starts qlo, dqhi := docOf j.starts qhi,
    dklo := docOf j.starts klo, dkhi := docOf j.starts khi }

/-- The classes of the tiles, in ascending t (R230). -/
def MaskJob.classes (j : MaskJob) : List (Nat × Nat × Tri) :=
  (List.range (j.p.ni * j.p.nj)).map fun t => (t / j.p.nj, t % j.p.nj, triRun (j.span (t / j.p.nj) (t % j.p.nj)) j.const j.ws)

/-- The exact mask of a tile, as T rows of 16 bytes (R233). -/
def MaskJob.mask (j : MaskJob) (i k : Nat) : Nat :=
  let r := tileRange j.p.t j.p.lq i
  let c := tileRange j.p.t j.p.lk k
  ((List.range (r.2 - r.1)).flatMap fun m => (List.range (c.2 - c.1)).map fun n => (m, n)).foldl (fun v e =>
    let q := j.p.qbase + r.1 + e.1
    let kk := j.p.kbase + c.1 + e.2
    v + bitN (elemRun { q := q, k := kk, dq := docOf j.starts q, dk := docOf j.starts kk } j.const j.ws) *
      2 ^ (128 * e.1 + e.2)) 0

/-- The class map as a little-endian value (R231). -/
def classMap (cs : List (Nat × Nat × Tri)) : Nat := cs.foldr (fun c v => Tri.code c.2.2 + 4 * v) 0

/-- The tile list from the next partial tile's mask address: its entries as a value, and their number (R232, R233). -/
def tileList (step : Nat) : Nat → List (Nat × Nat × Tri) → Nat
  | _, [] => 0
  | m, (i, j, c) :: t => match c with
    | .f => tileList step m t
    | .u => (i * 2 ^ 48 + j * 2 ^ 32 + 2 ^ 30 + m % 2 ^ 30) + 2 ^ 64 * tileList step (m + step) t
    | .t => (i * 2 ^ 48 + j * 2 ^ 32 + 2 ^ 31) + 2 ^ 64 * tileList step m t

/-- The number of tiles of a class. -/
def classCount (c : Tri) (cs : List (Nat × Nat × Tri)) : Nat := (cs.filter fun e => e.2.2 == c).length

/-- The writes of the element masks of the partial tiles, from the next one's address. -/
def maskPuts (j : MaskJob) : Nat → List (Nat × Nat × Tri) → List Work
  | _, [] => []
  | a, (i, k, c) :: t => if c = .u then .put a 1 (j.p.t * 16) (j.mask i k) :: maskPuts j (a + j.p.t * 16) t else maskPuts j a t

/-- The counters that a command adds at its commit: tiles full, partial and empty, bytes skipped (R237). -/
def MaskJob.counts (j : MaskJob) (cs : List (Nat × Nat × Tri)) : List Nat :=
  [classCount .t cs, classCount .u cs, classCount .f cs, classCount .f cs * j.p.sbytes]

/-- The tiles of a command that are not empty: the entries of its list. -/
def listed (cs : List (Nat × Nat × Tri)) : Nat := classCount .u cs + classCount .t cs

/-- The writes of a command that has passed its checks (R234): the class map, the tile list and the element masks. -/
def MaskJob.puts (j : MaskJob) : List Work :=
  let cs := j.classes
  .put j.p.cmap 1 ((j.p.ni * j.p.nj + 3) / 4) (classMap cs) ::
    .put j.p.list 1 (8 * listed cs) (tileList (j.p.t * 16) j.p.mbase cs) :: maskPuts j j.p.mbase cs

/-- A command that has passed its checks: MASK.FULL where the partial tiles are more than its capacity, else its writes
(R234).  The body carries the boundary table above its 128 bytes. -/
def maskWrite (b : Nat) (j : MaskJob) (s : State) : CmdRes :=
  let parts := classCount .u j.classes
  if j.p.mcap < parts then .fin (.bad 0x0702 0 parts parts) s
  else .work 2 (b % 256 ^ 128 + ofBytes (j.starts.flatMap fun v => toBytes v 4) * 256 ^ 128) j.puts s

/-- MASK.BAD with its reason and index (R228). -/
def maskBad (reason index : Nat) (s : State) : CmdRes := .fin (.bad 0x0701 reason index index) s

/-- The checks of R228 after the boundary table: reasons 10 and 11, then the addresses of the outputs. -/
def maskChecks (k : Cmd) (b : Nat) (j : MaskJob) (s : State) : CmdRes :=
  let x := s.ctx k.from_.ctx
  let n := j.p.ni * j.p.nj
  if !j.p.geomOk then maskBad 10 0 s
  else match zeroBad b j.p.nb with
    | some i => maskBad 11 i s
    | none => match ((areaBad s x j.p.cmap ((n + 3) / 4) 4).or (areaBad s x j.p.list (8 * n) 8)).or
          (areaBad s x j.p.mbase (j.p.mcap * (j.p.t * 16)) 16) with
      | some f => .trap f s
      | none => maskWrite b j s

/-- The command of a body and its boundary table. -/
def maskJob (b : Nat) (starts : List Nat) : MaskJob :=
  { p := maskBody b, starts := starts, ws := (maskBody b).words.filterMap decodeMask }

/-- The checks of R228 on a boundary table that has been read, and what follows them. -/
def maskStarts (k : Cmd) (b : Nat) (starts : List Nat) (s : State) : CmdRes :=
  match startBad starts with
  | some i => maskBad 9 i s
  | none => maskChecks k b (maskJob b starts) s

/-- mask.cls (R222, R228, R234): the checks of the program, the boundary table's read and the other checks, then the writes. -/
def maskStage (k : Cmd) (b stage : Nat) (got : List Byte) (s : State) : CmdRes :=
  let x := s.ctx k.from_.ctx
  let p := maskBody b
  match stage with
  | 0 =>
    if p.plen = 0 ∨ 16 < p.plen then maskBad 5 p.plen s
    else match progBad p.plen 0 0 p.words with
      | some f => maskBad f.1 f.2 s
      | none => match constBad p.consts with
        | some i => maskBad 8 i s
        | none =>
          if 4096 < p.nb then maskBad 9 p.nb s
          else if p.nb = 0 then maskStarts k b [] s
          else match areaBad s x p.btab (4 * p.nb) 4 with
            | some f => .trap f s
            | none => .work 1 b [.read p.btab (4 * p.nb)] s
  | 1 => maskStarts k b (wordsGot p.nb got) s
  | _ =>
    let j := maskJob b (wordsGot p.nb (toBytes (b / 256 ^ 128) (4 * p.nb)))
    .fin { CmdOut.ok (listed j.classes) with counts := j.counts j.classes } s

/-- The operation mask.cls. -/
def maskOp : CmdOp := { op := 1, bytes := 128, stage := maskStage, fail := fun _ _ _ b s => .trap b s }

/-- MASK_CLS (R222, R228, R234). -/
def execMaskCls (c : Cluster) (s : State) : Out := engineTurn (engAt .jig c 0) maskOp s

end Sys2Proof.Machine
end

