-- ==== Sys2Proof/Machine/Engines.lean ====
section
/-! DEFINITION. Inboxes, leave, commit points and follow-ons of the engines (R181, R183 to R188, R206, R350, R367, R368). -/

namespace Sys2Proof.Machine

open Sys2Proof

/-! ## Inboxes (R181) -/

/-- The headers that an inbox holds (R181). -/
def inboxRoom : Nat := 8

/-- INBOX_ACCEPT: an inbox with room accepts the header that waited first (R181). -/
def execInboxAccept (e : EngRef) (s : State) : Out :=
  let g := s.eng e
  match g.waiting with
  | [] => .next s
  | k :: rest =>
    if g.inbox.length < inboxRoom ∧ (s.ctx k.from_.ctx).live ∧ (s.ctx k.from_.ctx).resuming = false then
      .next (s.setEng e { g with waiting := rest, inbox := g.inbox ++ [k] })
    else .next s

/-! ## Leave (R206, R218, R367 to R369) -/

/-- The pool that new grants see (R367, R369). -/
def Gov.room (g : Gov) : Nat := if g.halved then g.pool / 2 else g.pool

/-- The leave that a press command holds (R367). -/
def pressLeave : Nat := 1

/-- The units that a request needs (R367). -/
def LeaveReq.units : LeaveReq → Nat
  | .press _ => pressLeave
  | .sorter _ _ _ => sorterLeave

/-- A request has its leave (R206, R218). -/
def granted (r : LeaveReq) (s : State) : State :=
  match r with
  | .press e => s.setEng e { s.eng e with run := (s.eng e).run.map fun r => { r with phase := .leaveGranted, leave := true } }
  | .sorter c h st => s.modCtx c fun x => { x with
      apply := x.apply.map fun a => { a with waits := a.waits.erase (h * 16 + st), leave := a.leave ++ [h * 16 + st] } }

/-- LEAVE_GRANT: a die's governor grants its earliest request when its pool holds the units, at most one in a cycle; the
requests of one cycle are in their order once that cycle is over (R368, R369). -/
def execLeaveGrant (d : Die) (s : State) : Out :=
  let g := s.gov d.val
  match g.queue with
  | [] => .next s
  | (cycle, r) :: rest =>
    if s.cycles ≤ cycle ∨ g.stopped ∨ g.room < g.held + r.units ∨ s.cycles < g.last then .next s
    else .next (granted r (s.setGov d.val
      { g with queue := rest, last := s.cycles + 1, held := g.held + r.units, grants := g.grants + 1 }))

/-! ## Faults of commands (R110, R186, R188) -/

/-- The reply word (R184). -/
def Run.word (r : Run) : Word :=
  BitVec.ofNat 64 (r.code % 2 ^ 16 + r.reason % 2 ^ 16 * 2 ^ 16 + r.result % 2 ^ 32 * 2 ^ 32)

/-- A fault of a command's chain: a chain that a sequencer began holds it, any other raises it now, with the header and the
reply word of the command `f` that failed (R110, R186, R188; log 110). -/
def chainFault (k : Sender) (reg code reason report : Nat) (f : Option (Nat × Word)) (s : State) : State :=
  if !(s.ctx k.ctx).trappable then s
  else if k.bySeq then s.modSeq k.ctx fun q =>
    { q with faults := q.faults ++ [{ reg := reg, code := code, reason := reason, report := report }] }
  else nodeTrap k.ctx code reason (BitVec.ofNat 64 report) (s.modCtx k.ctx fun x => { x with failed := f })

/-! ## Replies (R184, R377) -/

/-- The reply of a command (R108, R184, R188): to the register that its send names, or to a node port.  A failing command of
a chain that a node began sends none, since its outcome is retirement. -/
def sendReply (r : Run) (s : State) : State :=
  let k := r.cmd
  if !(s.ctx k.from_.ctx).trappable ∨ (r.code ≠ 0 ∧ k.from_.bySeq = false) then s
  else match k.hdr.reply with
    | .none => s
    | .reg _ => s.modSeq k.from_.ctx fun q => { q with long := q.long ++ [{ reg := k.from_.reg, src := .value r.word }] }
    | .node q d => s.modFab k.from_.ctx fun f => { f with
        replies := f.replies ++ [{ plane := q, dest := d, tag := r.rtag, word := r.word, header := k.raw, pred := [] }] }

/-! ## Follow-ons (R185, R186) -/

/-- The follow-ons of one chain (R185). -/
def chainLimit : Nat := 64

/-- Whether the reply of a follow-on is one that R186 allows: a node port or no register. -/
def followReply (h : Header) : Bool :=
  match h.reply with
  | .reg _ => false
  | .none | .node _ _ => true

/-- A successful command's engine reads the follow-on that it names and holds it, with the issuing command as its sender for
an acquire (R252); one past the chain's limit, unreadable or refused raises OP.ILL, reporting its pointer (R82, R185, R186). -/
def issueFollow (e : EngRef) (r : Run) (s : State) : State :=
  let k := r.cmd
  let p := k.hdr.next
  let x := s.ctx k.from_.ctx
  let ill := fun s => chainFault k.from_ 0 trapOpIll 0 p none s
  if p = 0 ∨ r.code ≠ 0 ∨ !x.trappable then s
  else if chainLimit ≤ k.from_.chain then ill s
  else if (spSpanBad s x p 16).isSome then ill s
  else match readSpan x p 16 s with
    | .stall s => s
    | .bad b s => chainFault k.from_ 0 b.code 0 b.report none s
    | .ok raw s => match headerOf s x raw with
      | none => ill s
      | some h =>
        if !followReply h then ill s
        else s.setEng e { s.eng e with follow := some { raw := raw, hdr := h, from_ := { k.from_ with
          reg := 0, tag := r.rtag, chain := k.from_.chain + 1,
          deps := if h.acq then s.agentDeps k.from_.ctx (.eng e) (x.scopeLevel h.scope) (fun _ => true) else [] } } }

/-- FOLLOW_ON_DELIVERY: the inbox that a held follow-on names accepts it (R185). -/
def execFollowOnDelivery (e : EngRef) (s : State) : Out :=
  match (s.eng e).follow with
  | none => .next s
  | some k =>
    let x := s.ctx k.from_.ctx
    let t := engOf x k.hdr
    if inboxRoom ≤ (s.eng t).inbox.length ∨ !x.performs then .next s
    else
      let s := s.setEng e { s.eng e with follow := none }
      .next (s.setEng t { s.eng t with inbox := (s.eng t).inbox ++ [k] })

/-! ## Fault injection (R350) -/

/-- A bit of a binary32 value flips. -/
def flip32 (m : SMap (BitVec 32)) (key i : Nat) : SMap (BitVec 32) :=
  smSet 0 m key (smGet 0 m key ^^^ BitVec.ofNat 32 (2 ^ (i % 32)))

/-- The armed injection fires at the commit of the press that it names (R350). -/
def fiFire (e : EngRef) (s : State) : State :=
  let loc := s.fiSel.toNat
  let i := bits loc 63 58
  let k := bits loc 29 24 * 16 + bits loc 23 20
  let tile := bits loc 19 19
  let kind := bits s.fiCtl.toNat 2 0
  if e.cls ≠ .press ∨ !bit s.fiCtl.toNat 63 ∨ 2 < kind ∨ 32 ≤ i ∨ k ≠ unitKey e.cluster e.unit then s
  else
    let s : State := { s with fiCtl := (s.fiCtl &&& 0x7FFFFFFFFFFFFFFF) ||| 0x4000000000000000 }
    match kind with
    | 0 => { s with acc := flip32 s.acc (tileKey k tile + bits loc 18 12 * 128 + bits loc 11 5) i }
    | 1 => { s with csrow := flip32 s.csrow (cksKey k tile + bits loc 11 5) i }
    | _ => { s with cscol := flip32 s.cscol (cksKey k tile + bits loc 18 12) i }

/-! ## Commit (R183, R184) -/

/-- Whether a command forms checksums: a press.mm or press.bf with cks = 1 (R203). -/
def Run.forms (r : Run) : Bool := decide (r.cmd.hdr.cls = .press ∧ r.cmd.hdr.op ≠ 3 ∧ r.code = 0) && bit (fld r.body 4 1) 2

/-- The counters of a command are added to its context: mask classes and skipped bytes (R237), press commands with
checksums (R371). -/
def addCounts (r : Run) (x : Ctx) : Ctx :=
  let x := if r.forms then x.count statCks 1 else x
  { x with
    maskCount := r.counts.zipIdx.foldl (fun m n => smSet 0 m n.2 (smGet 0 m n.2 + BitVec.ofNat 64 n.1)) x.maskCount,
    stats := r.counts.zipIdx.foldl (fun m n => bump m (statTiles + n.2) n.1) x.stats }

/-- Whether a command's release has been performed at its scope (R183, R189); a failing command commits when it stops. -/
def State.relDone (s : State) (r : Run) : Bool :=
  let c := r.cmd.from_.ctx
  !r.cmd.hdr.rel || decide (r.code ≠ 0) || decide ((s.ctx c).scopeLevel r.cmd.hdr.scope ≠ .acked) ||
    s.posted.all fun p => p.ctx != c

/-- The bytes that a command writes back at its commit are written, or the trap of one that cannot be (R193). -/
def writeBack (c : Nat) : List Work → State → XRes
  | .put a _ n v :: t, s => (putSpan (s.ctx c) a n v s).bind fun _ s => writeBack c t s
  | _, s => .ok 0 s

/-- COMMIT_POINT: a finished command commits: it writes back what it writes into its body (log 118), which may still fail it; the
status word changes, flags and counters are added, leave is returned, the fault is held or raised, the reply is sent and the
follow-on is read (R183 to R188, R237, R350, R367).  Its stores to windows may still be on their way, but for a release at a scope
that reaches beyond the package (log 124).  A command that names a follow-on waits while its engine still holds an earlier one. -/
def execCommitPoint (e : EngRef) (s : State) : Out :=
  let g := s.eng e
  match g.run with
  | none => .next s
  | some r =>
    if r.phase ≠ .finished ∨ !s.relDone r ∨ (g.follow.isSome ∧ r.cmd.hdr.next ≠ 0) then .next s
    else
      let c := r.cmd.from_.ctx
      match writeBack c r.back s with
      | .stall s => .next s
      | .bad b s => .next (s.setRun e { r with code := b.code, reason := 0, result := 0, report := b.report, back := [] })
      | .ok _ s =>
      let bad := decide (r.code ≠ 0)
      let d := e.cluster.val / 8
      let s := s.setEng e { g with
        run := none, commits := g.commits + 1, fault := bad, cls := BitVec.ofNat 16 (clsField s e r.cls),
        fcode := if bad then BitVec.ofNat 16 r.code else g.fcode }
      let s := if r.leave then s.setGov d { s.gov d with held := (s.gov d).held - pressLeave } else s
      let s := fiFire e ((s.mergeFlags c r.flags).modCtx c (addCounts r))
      let s := if bad then chainFault r.cmd.from_ r.cmd.from_.reg r.code r.reason r.report (some (r.cmd.raw, r.word)) s else s
      .next (issueFollow e r (sendReply r s))

end Sys2Proof.Machine
end

