-- ==== Sys2Proof/Machine/Contexts.lean ====
section
/-! DEFINITION. Ingress tokens, the dependency table and the states of a context: launch, resume, retire, mark, stop (R306 to
R314, R329), tbind's commit (R119, R315), ctx.ctl.en (R310) and ctx.fault.go (R340). -/

namespace Sys2Proof.Machine

open Sys2Proof

/-! ## Channels (R306 to R308) -/

/-- The token at the head of a context's channel, which a context that is not Free receives once every earlier posted write
of its requester has been performed (R259, R306, R310). -/
def State.nextToken (s : State) (c : Nat) : Option (List Word) :=
  if (s.ctx c).st = .free ∨ (s.ctx c).channel.length ≤ s.heldTokens c then none else (s.ctx c).channel.head?

/-- The token at the head of the channel is consumed. -/
def Ctx.popToken (x : Ctx) : Ctx := { x with channel := x.channel.drop 1 }

/-- A refused token's cookie: launch and stop tokens carry one (R327). -/
def tokCookie (t : List Word) : Word := if tokByte t 0 = 1 ∨ tokByte t 0 = 5 then t.getD 6 0 else 0

/-- A refused ingress token is discarded with a kind 2 token, and nothing else changes (R308, R328). -/
def refuseTok (c code reason : Nat) (report : Word) (t : List Word) (s : State) : State :=
  refuse c code reason report (tokCookie t) (s.modCtx c Ctx.popToken)

/-- The token at the head of a channel, of a kind, with every byte but those named zero; a state that `fits` rules out
refuses it with reason 6 (R307, R308). -/
def withToken (c kind : Nat) (named : List Nat) (s : State) (fits : Ctx → Bool) (k : List Word → State → State) : Out :=
  match s.nextToken c with
  | none => .next s
  | some t =>
    if tokByte t 0 ≠ kind then .next s
    else if !tokZero t (0 :: named) then .next (refuseTok c trapSchedToken 1 0 t s)
    else if !fits (s.ctx c) then .next (refuseTok c trapSchedToken 6 0 t s)
    else .next (k t (s.modCtx c Ctx.popToken))

/-! ## The queue (R310, R314) -/

/-- A task enters the queue of its context, which becomes Queued if it was Idle (R310). -/
def enqueue (c : Nat) (t : Task) (s : State) : State :=
  s.modCtx c fun x => { x with
    queue := x.queue ++ [{ t with seqno := x.launches }], launches := x.launches + 1,
    st := if x.st = .idle then .queued else x.st }

/-- The task of a context returns to the head of its queue, with w at 0 (R310, R316). -/
def Ctx.requeue (x : Ctx) (handler : Bool) : Ctx :=
  { x with
    st := .queued, cause := none, task := none,
    queue := (x.task.map fun t => { t with w := 0, placed := true, handler := handler }).toList ++ x.queue }

/-! ## Tiles and triggers (R311 to R314) -/

/-- The pending triggers that a context holds at most (R314). -/
def triggerLimit : Nat := 256

/-- The pending triggers of a context: those that wait, and those whose tasks have not been placed (R314). -/
def Ctx.pending (x : Ctx) : Nat := x.triggers.length + (x.queue.filter fun t => t.trigger && !t.placed).length

/-- A trigger's task issues from a launch token, which is checked again (R314); one whose check waits for a translation
enters the queue, and its check is made before its placement (log 26). -/
def issueTask (c : Nat) (tok : List Word) (s : State) : State :=
  match launchCheck c (.sched c false) tok s with
  | .ok _ t => enqueue c (taskOf tok true) t
  | .stall _ => enqueue c (taskOf tok true) s
  | .refuse code reason report t => refuse c code reason report (tokCookie tok) t

/-- A tile rises: a trigger is accepted, issues the tile's bound task or waits; the 257th pending one is SCHED.TRIGOVF
(R314). -/
def tileRise (c : Nat) (s : State) (t : Nat) : State :=
  let x := s.ctx c
  if !bit x.trigen.toNat t then s
  else if triggerLimit ≤ x.pending then
    if x.live then graphTrap c trapSchedTrigovf 0 0 0 0 s else refuse c trapSchedTrigovf 0 0 0 s
  else match smGet [] x.binds t with
    | [] => s.modCtx c fun x => { x with triggers := x.triggers ++ [t] }
    | tok => issueTask c tok s

/-- Resident bits are cleared, then set, as one step; the tiles that rise create their triggers, in ascending order (R312 to
R314; log 27). -/
def markTiles (c : Nat) (set clear : Word) (s : State) : State :=
  let low := (s.ctx c).tiles &&& ~~~clear
  let rise := set &&& ~~~low
  ((List.range 64).filter fun t => rise.getLsbD t).foldl (tileRise c) (s.modCtx c fun x => { x with tiles := low ||| set })

/-! ## Ingress tokens (R307 to R310, R329) -/

/-- LAUNCH: a launch token is consumed and its task enters the queue, or it is refused; a token of an unknown kind is refused
with reason 1 (R307 to R309). -/
def execLaunch (c : CtxId) (s : State) : Out :=
  match s.nextToken c.val with
  | none => .next s
  | some t =>
    if 2 ≤ tokByte t 0 ∧ tokByte t 0 ≤ 5 then .next s
    else match launchCheck c.val (.sched c.val false) t s with
      | .stall s => .next s
      | .refuse code reason report s => .next (refuseTok c.val code reason report t s)
      | .ok _ s => .next (enqueue c.val (taskOf t false) (s.modCtx c.val Ctx.popToken))

/-- RESUME: a Suspended context that no page fault suspended becomes Queued, its task at the head of the queue, in plain or
handler mode (R122, R307, R310, R329). -/
def execResume (c : CtxId) (s : State) : Out :=
  match s.nextToken c.val with
  | none => .next s
  | some t =>
    if tokByte t 0 = 2 ∧ 1 < tokByte t 1 then .next (refuseTok c.val trapSchedToken 1 0 t s)
    else withToken c.val 2 [1] s (fun x => decide (x.st = .suspended ∧ x.cause ≠ some .page)) fun t s =>
      s.modCtx c.val (Ctx.requeue · (decide (tokByte t 1 = 1)))

/-- RETIRE: the graph of a Queued, Running, Draining or Suspended context retires with SCHED.KILL (R310, R329). -/
def execRetire (c : CtxId) (s : State) : Out :=
  withToken c.val 3 [] s
    (fun x => decide (x.st = .queued ∨ x.st = .running ∨ x.st = .draining ∨ x.st = .suspended))
    fun _ s => endGraph c.val 2 trapSchedKill 0 0 0 0 (s.modCtx c.val Ctx.takeHead)

/-- MARK: resident bits are cleared and set at once (R307, R312, R313). -/
def execMark (c : CtxId) (s : State) : Out :=
  withToken c.val 4 (List.range' 32 16) s (fun _ => true) fun t s => markTiles c.val (t.getD 4 0) (t.getD 5 0) s

/-- STOP: a running graph drains and its context ends Suspended; a drain in progress absorbs the token (R307, R310, R320,
R329). -/
def execStop (c : CtxId) (s : State) : Out :=
  withToken c.val 5 (List.range' 48 8) s (fun x => x.live) fun t s =>
    (beginDrain c.val .stop 0 0 0 s).modCtx c.val fun x => { x with cookieStop := some (t.getD 6 0) }

/-! ## Bindings of tiles (R119, R314, R315) -/

/-- Triggers of a tile that wait issue in their order from its new binding. -/
def issueWaiting (c tile : Nat) (tok : List Word) (s : State) : State :=
  let n := ((s.ctx c).triggers.filter (· == tile)).length
  let s := s.modCtx c fun x => { x with triggers := x.triggers.filter (· != tile) }
  (List.range n).foldl (fun s _ => issueTask c tok s) s

/-- TBIND_COMMIT: the scheduler acknowledges the oldest tbind: the tile's binding changes, and its waiting triggers issue
from the new one (R119, R314, R315). -/
def execTbindCommit (c : CtxId) (s : State) : Out :=
  match (s.ctx c.val).tbinds with
  | [] => .next s
  | b :: rest =>
    let tok := b.token.getD []
    let s := s.modCtx c.val fun x => { x with tbinds := rest, binds := smSet [] x.binds b.tile tok }
    .next (if tok = [] then s else issueWaiting c.val b.tile tok s)

/-! ## Enable and page-fault release (R304, R310, R340) -/

/-- CTX_CTL_EN: a Free context becomes Idle, with no tile resident and its telemetry counters at 0, once the device runs with
its host traffic; a Free or Idle one becomes Free (R304, R310, R311, R356, R357, R371). -/
def execCtxCtlEn (c : CtxId) (v : Bool) (s : State) : Out :=
  let x := s.ctx c.val
  if !s.regCredit then .next s
  else if v then
    if x.st = .free ∧ s.boot.stage = 5 ∧ s.boot.minimal = false then
      .next (s.setCtx c.val { x with st := .idle, en := true, tiles := 0, stats := [] })
    else .next s
  else if x.st = .free ∨ x.st = .idle then .next (s.setCtx c.val { x with st := .free, en := false })
  else .next s

/-- FAULT_GO: a write of go, after every earlier posted write of its requester: pend clears, a context that the fault
suspended becomes Queued, and a drain for it will end Queued; with pend = 0 it is discarded (R310, R339, R340). -/
def execFaultGo (c : CtxId) (req : BitVec 16) (s : State) : Out :=
  let x := s.ctx c.val
  if s.hostBusy req ∨ !s.blocksOn ∨ !s.regCredit ∨ !x.faultPend then .next s
  else
    let y : Ctx := { x with faultPend := false }
    .next (s.setCtx c.val (
      if x.st = .suspended ∧ x.cause = some .page then y.requeue false
      else if x.st = .draining ∧ x.cause = some .page then { y with faultGo := true }
      else y))

end Sys2Proof.Machine
end

