-- ==== Sys2Proof/Machine/RegRead.lean ====
section
/-! DEFINITION. The registers of BAR0 as the host reads them (R304, R331, R335, R340, R346, R350 to R354, R357, R358, R363 to R365):
64-bit words of the state's fields; offsets not listed, write-only fields and reserved fields read 0 (R7, R365). -/

namespace Sys2Proof.Machine

open Sys2Proof

/-! ## Places in BAR0 (R365) -/

/-- The first bytes of the blocks of BAR0 (R365). -/
def secBlock : Nat := 0x10000
@[inherit_doc secBlock] def secBuffer : Nat := 0x20000
@[inherit_doc secBlock] def schedBlock : Nat := 0x30000
@[inherit_doc secBlock] def ptBlock : Nat := 0x40000
@[inherit_doc secBlock] def fiBlock : Nat := 0x50000
@[inherit_doc secBlock] def logBlock : Nat := 0x60000
@[inherit_doc secBlock] def linkBlock : Nat := 0x100000
@[inherit_doc secBlock] def ctxBlock : Nat := 0x200000

/-- The size of the security buffer (R358). -/
def secBufferSize : Nat := 0x10000

/-- Whether a byte offset lies in the device or the security block, which minimal mode leaves running (R357). -/
def bootBlocks (off : Nat) : Bool := decide (off < schedBlock)

/-! ## Words -/

/-- The code of a context's state in ctx.ctl (R304). -/
def CtxState.code : CtxState → Nat
  | .free => 0 | .idle => 1 | .queued => 2 | .running => 3 | .draining => 4 | .suspended => 5 | .retiring => 6

/-- boot.status (R357). -/
def Boot.status (b : Boot) : Word :=
  BitVec.ofNat 64 (b.starts.toNat * 2 ^ 48 + b.fails % 2 ^ 8 * 2 ^ 40 + bitN b.minimal * 2 ^ 32 + b.cause % 2 ^ 8 * 2 ^ 24 +
    b.where_ % 2 ^ 8 * 2 ^ 16 + b.stage % 8)

/-- dev.id (R364). -/
def Sec.id (c : Sec) : Word := BitVec.ofNat 64 (c.serial.toNat * 2 ^ 32 + 0x1000 * 2 ^ 16 + 2 * 2 ^ 8 + c.step.toNat)

/-- sec.stat (R358). -/
def Sec.stat (c : Sec) : Word :=
  BitVec.ofNat 64 (c.len % 2 ^ 32 * 2 ^ 32 + c.err % 2 ^ 8 * 2 ^ 8 + bitN c.ovr * 2 + bitN c.busy)

/-- lnk.ps (R351). -/
def LinkPort.ps (p : LinkPort) : Word :=
  BitVec.ofNat 64 (p.replays % 2 ^ 32 * 2 ^ 32 + p.crc.toNat * 2 ^ 16 + bitN p.down * 8 + bitN p.up * 4 + p.lanes % 4)

/-- ctx.ctl (R304). -/
def Ctx.ctl (x : Ctx) : Word := BitVec.ofNat 64 (bitN x.en * 2 ^ 8 + x.st.code)

/-- ctx.istat (R304). -/
def Ctx.istat (x : Ctx) : Word :=
  BitVec.ofNat 64 (x.taken.toNat * 2 ^ 16 + bitN x.off * 2 ^ 10 + bitN x.late * 2 ^ 9 + bitN x.bad * 2 ^ 8 +
    bitN x.ovf * 2 ^ 7 + x.channel.length % 2 ^ 7)

/-- ctx.fault (R340). -/
def Ctx.faultWord (x : Ctx) : Word :=
  BitVec.ofNat 64 (bitN x.faultPend * 2 ^ 63 + bitN x.faultWr * 2 ^ 62 + x.faultIa % 2 ^ 48)

/-- A register of a context block (R304, R331, R340, R346). -/
def Ctx.reg (x : Ctx) (o : Nat) : Word :=
  if o = 0x040 then x.ctl
  else if o = 0x048 then x.istat
  else if o = 0x050 then x.egress
  else if o = 0x058 then x.ecount
  else if o = 0x060 then x.ehead
  else if o = 0x068 then x.save
  else if o = 0x070 then x.hang
  else if o = 0x078 then x.tiles
  else if o = 0x080 then x.trigen
  else if o = 0x088 then x.faultWord
  else if 0x100 ≤ o ∧ o < 0x200 then
    if o % 16 = 0 then smGet 0 x.rngA ((o - 0x100) / 16) else smGet 0 x.rngB ((o - 0x100) / 16)
  else if 0x200 ≤ o ∧ o < 0x240 then
    if o % 16 = 0 then smGet 0 x.nbpA ((o - 0x200) / 16) else smGet 0 x.nbpB ((o - 0x200) / 16)
  else if 0x240 ≤ o ∧ o < 0x260 then smGet 0 x.sbp ((o - 0x240) / 8)
  else 0

/-- A register of the link block (R351 to R354, R365). -/
def State.linkReg (s : State) (o : Nat) : Word :=
  if o < 0x400 then (smGet LinkPort.reset s.ports (o / 8)).ps
  else if o < 0x800 then if o % 16 = 0 then smGet 0 s.wa ((o - 0x400) / 16) else smGet 0 s.wb ((o - 0x400) / 16)
  else if o < 0x1000 then if o % 16 = 0 then smGet 0 s.eaa ((o - 0x800) / 16) else smGet 0 s.eab ((o - 0x800) / 16)
  else if o = 0x1000 then s.etype
  else 0

/-- A register of the device block (R357, R363 to R365). -/
def State.deviceReg (s : State) (o : Nat) : Word :=
  if o = 0x000 then s.sec.id
  else if o = 0x008 then s.fmask.setWidth 64
  else if o = 0x010 then s.boot.status
  else if o = 0x020 then BitVec.ofNat 64 (bitN s.pwin)
  else 0

/-- The 8 bytes of the security buffer at an offset (R358). -/
def Sec.bufWord (c : Sec) (o : Nat) : Word := BitVec.ofNat 64 (rdBytes c.buffer o 8)

/-- A word of the ECC and fault log (R365). -/
def State.logReg (s : State) (o : Nat) : Word :=
  if o = 0 then s.eccCount
  else if 0x100 ≤ o ∧ o < 0x500 then Config.logWord (smGet LogEntry.none s.eccLog ((o - 0x100) / 16)) (o / 8 % 2)
  else 0

/-- The register word at an 8-byte aligned offset of BAR0 (R365); in minimal mode every block but the device and security
blocks reads 0 (R357). -/
def State.regRead (s : State) (off : Nat) : Word :=
  if !bootBlocks off && !s.blocksOn then 0
  else if off < secBlock then s.deviceReg off
  else if off = secBlock + 8 then s.sec.stat
  else if off < secBuffer then 0
  else if off < secBuffer + secBufferSize then s.sec.bufWord (off - secBuffer)
  else if off < ptBlock then if off = schedBlock then BitVec.ofNat 64 (bitN s.preempt) else 0
  else if off < fiBlock then if off = ptBlock then s.ptRoot else if off = ptBlock + 8 then s.ptInval else 0
  else if off < logBlock then if off = fiBlock then s.fiCtl else if off = fiBlock + 8 then s.fiSel else 0
  else if off < linkBlock then s.logReg (off - logBlock)
  else if off < ctxBlock then s.linkReg (off - linkBlock)
  else if off < ctxBlock + 64 * 0x1000 then (s.ctx ((off - ctxBlock) / 0x1000)).reg (off % 0x1000)
  else 0

/-- `n` bytes of BAR0 from an offset. -/
def State.regBytes (s : State) (off n : Nat) : List Byte :=
  (List.range n).map fun i => BitVec.ofNat 8 ((s.regRead ((off + i) / 8 * 8)).toNat / 256 ^ ((off + i) % 8))

end Sys2Proof.Machine
end

