-- ==== Sys2Proof/Machine/Host.lean ====
section
/-! DEFINITION. The host and peers at the I/O die: posted writes and their order (R259, R269 to R272, R306), reads (R259, R217,
R341, R345), peer accesses (R209, R352), and the acknowledgement or refusal of window stores (R260, R352). -/

namespace Sys2Proof.Machine

open Sys2Proof

/-! ## Accesses at a home for the host or a peer (R217, R242, R341, R345) -/

/-- Whether device memory serves the host and peers: HBM is trained and no trip or minimal mode holds it (R356, R357, R369). -/
def State.memOn (s : State) : Bool := s.blocksOn && decide (2 ≤ s.boot.stage)

/-- Answers a host or peer request. -/
def reply (r : Reply) (s : State) : State := { s with lastReply := some r }

/-- The physical address of a local byte for the host or a peer, whose walk is made at the home; a page that cannot be
translated is logged (R341). -/
def homePa (ia : Nat) (wr : Bool) (s : State) : Option Nat × State :=
  let r := pageLook ia wr s
  match r.1 with
  | .leaf e => (some (e.paOf ia), r.2)
  | .fault => (none, logEvent ia r.2)
  | .malformed pa | .ecc pa => (none, logEvent pa r.2)

/-- What a read for the host or a peer finds: its bytes, a wait, or the completion that refuses it. -/
inductive HomeRes where
  | data (bytes : List Byte) (s : State)
  | wait (s : State)
  | no (r : Reply) (s : State)
  deriving DecidableEq, Repr, Inhabited

/-- Goes on with the bytes of a read. -/
def HomeRes.bind (r : HomeRes) (k : List Byte → State → HomeRes) : HomeRes :=
  match r with
  | .data b s => k b s
  | .wait s => .wait s
  | .no r s => .no r s

/-- Bytes of HBM at a physical address; an uncorrectable word is logged and answered with Completer Abort (R345). -/
def homeHbm (pa n : Nat) (s : State) : HomeRes :=
  let r := hbmRead pa n s
  match r.bad with
  | some a => .no .abort (logEvent a r.s)
  | none => .data (toBytes r.val n) r.s

/-- One byte of the intermediate space read for the host or a peer: a byte of a bound region is a view, taken after its
line's completed records are applied (R209, R217). -/
def homeByte (ia : Nat) (s : State) : HomeRes :=
  if 2 ^ 46 ≤ ia then .no .unsupported s
  else match homePa ia false s with
    | (none, s) => .no .unsupported s
    | (some pa, s) => match s.regionOf ia with
      | none => homeHbm pa 1 s
      | some (r, off) => match applyLine r (off / 64) s with
        | .stall s => .wait s
        | .bad b s => .no .abort (ctxTrap r.ctx b s)
        | .ok _ s =>
          let i := off % r.b.width
          match viewElem r (off - i) (pa - i) s with
          | .stall s => .wait s
          | .bad b s => .no .abort (logEvent b.report s)
          | .ok v s => .data [BitVec.ofNat 8 (v / 256 ^ i)] s

/-- Bytes of the intermediate space read for the host or a peer. -/
def homeRead : Nat → Nat → State → HomeRes
  | _, 0, s => .data [] s
  | ia, n + 1, s => (homeByte ia s).bind fun b s => (homeRead (ia + 1) n s).bind fun t s => .data (b ++ t) s

/-- A byte to write, with its address. -/
abbrev Cell := Nat × Byte

/-- The writes of one 8-byte word at a physical address: whole where every byte is enabled, else byte by byte (R271); a
partly covered uncorrectable word is logged (R344, R345). -/
def homeWord (pa : Nat) (cs : List Cell) (s : State) : State :=
  if cs.length = 8 then (hbmWrite pa 8 (ofBytes (cs.map Prod.snd)) s).s
  else
    let r := cs.foldl (fun (r : MemRes) c => if r.bad.isSome then r else hbmWrite (pa + c.1 % 8) 1 c.2.toNat r.s)
      { s := s, val := 0, bad := none }
    match r.bad with
    | some a => logEvent a r.s
    | none => r.s

/-- The 8-byte words that cells touch. -/
def cellWords (cs : List Cell) : List Nat := (cs.map (·.1 / 8)).dedup

/-- Writes cells at their physical addresses. -/
def writePhys (cs : List Cell) (s : State) : State :=
  (cellWords cs).foldl (fun s w => homeWord (8 * w) (cs.filter fun c => decide (c.1 / 8 = w)) s) s

/-- The part of the intermediate space whose translation one home makes: a byte's page and home stack (R333). -/
def homePart (ia : Nat) : Nat × Nat := (ia / 2 ^ 16, stackOf ia)

/-- The first address of a page that a stack homes. -/
def partAddr (p : Nat × Nat) : Nat := p.1 * 2 ^ 16 + p.2 * 2 ^ 11

/-- The cells of one page and home moved to physical memory and written; nothing is written on a page that cannot be
translated, which is answered with Unsupported Request (R333, R341). -/
def writePart (cs : List Cell) (s : State) (p : Nat × Nat) : State :=
  match homePa (partAddr p) true s with
  | (none, s) => reply .unsupported s
  | (some pa, s) =>
    let base := pa / 2 ^ 16 * 2 ^ 16
    writePhys ((cs.filter fun c => decide (homePart c.1 = p)).map fun c => (base + c.1 % 2 ^ 16, c.2)) s

/-- Writes cells at their intermediate addresses. -/
def writeHome (cs : List Cell) (s : State) : State := ((cs.map fun c => homePart c.1).dedup).foldl (writePart cs) s

/-- The first byte of some cells that lies in a bound region or a spill area, with its binding (R209). -/
def State.boundCell (s : State) (cs : List Cell) : Option (BoundRef × Nat) :=
  cs.findSome? fun c => (((s.regionOf c.1).map Prod.fst).or (s.spillOf c.1)).map fun r => (r, c.1)

/-! ## Posted writes of the host (R259, R271, R272, R306) -/

/-- The cells that a posted write names: the bytes that the request enables. -/
def enabled (a : Nat) (bytes : List (Option Byte)) : List Cell :=
  bytes.zipIdx.filterMap fun b => b.1.map fun v => (a + b.2, v)

/-- Whether forwarding a write would pass the limit on forwarded data; a token waits for no acknowledgement (R272). -/
def State.forwardsFull (s : State) (w : HostWr) : Bool :=
  match w.write with
  | .memory _ _ | .physical _ _ => decide (postedLimit < s.postedBytes true + w.size)
  | .ingress _ _ => false

/-- The largest payload and read request (R269). -/
def maxPayload : Nat := 4096

/-- A posted write waits at the I/O die. -/
def holdWrite (req : BitVec 16) (w : HostWrite) (s : State) : State :=
  { s with hostWrs := s.hostWrs ++ [{ req := req, write := w, forwarded := false, acks := [] }] }

/-- The tokens of a channel (R306). -/
def channelRoom : Nat := 64

/-- A token reaches a context's ingress channel (R259, R306): it is accepted, and its delivery waits for the earlier posted
writes of its requester and for the tokens before it. -/
def ingress (req : BitVec 16) (c : CtxId) (token : List Word) (s : State) : State :=
  let x := s.ctx c.val
  if token.length ≠ 8 then s.setCtx c.val { x with bad := true }
  else if !x.en then s.setCtx c.val { x with off := true }
  else if channelRoom ≤ x.channel.length then s.setCtx c.val { x with ovf := true }
  else
    let t := s.setCtx c.val { x with channel := x.channel ++ [token], taken := x.taken + 1 }
    if s.hostBusy req ∨ 0 < s.heldTokens c.val then holdWrite req (.ingress c []) t else t

/-- HOST_POSTED_WRITE: a posted write arrives at the I/O die (R269 to R272, R306, R365). -/
def execHostPostedWrite (req : BitVec 16) (w : HostWrite) (s : State) : Out :=
  match w with
  | .ingress c token => .next (if s.blocksOn ∧ s.credit (8 * token.length) then ingress req c token s else s)
  | .memory ia b =>
    if b.length = 0 ∨ maxPayload < b.length ∨ 2 ^ 46 < ia.toNat + b.length ∨ !s.memOn ∨ !s.credit b.length then .next s
    else .next (holdWrite req w s)
  | .physical pa b =>
    if b.length = 0 ∨ maxPayload < b.length ∨ 2 ^ 40 < pa.toNat + b.length ∨ !s.memOn ∨ !s.pwin ∨ !s.credit b.length then
      .next s
    else .next (holdWrite req w s)

/-- The held write leaves the I/O die. -/
def dropWrite (k : Nat) (s : State) : State := { s with hostWrs := s.hostWrs.eraseIdx k }

/-- A write is forwarded on the routes of its cells; one with no enabled byte is done (R271). -/
def forwardTo (k : Nat) (w : HostWr) (cs : List Cell) (s : State) : State :=
  if cs = [] then dropWrite k s
  else { s with hostWrs := s.hostWrs.set k { w with forwarded := true, acks := (cs.map fun c => stackOf c.1).dedup } }

/-- Whether an earlier write of the same requester, or for a token an earlier token of its channel, holds the k-th back
(R259, R271). -/
def State.heldBack (s : State) (k : Nat) (w : HostWr) : Bool :=
  (s.hostWrs.take k).any fun v => match v.write with
    | .memory _ _ | .physical _ _ => decide (v.req = w.req)
    | .ingress c _ => match w.write with
      | .ingress d _ => decide (c = d)
      | .memory _ _ | .physical _ _ => false

/-- HOST_WRITE_FORWARD: the k-th held write is forwarded once every earlier one of its requester has been acknowledged; one
to a bound region or spill area is discarded with MEM.UPDST in the binding context, and a token becomes deliverable (R209,
R259, R271, R272). -/
def execHostWriteForward (k : Nat) (s : State) : Out :=
  match s.hostWrs[k]? with
  | none => .next s
  | some w =>
    if w.forwarded ∨ s.heldBack k w then .next s
    else if (s.forwardsFull w) then .next s
    else match w.write with
      | .ingress _ _ => .next (dropWrite k s)
      | .physical pa b => .next (forwardTo k w (enabled pa.toNat b) s)
      | .memory ia b =>
        match s.boundCell (enabled ia.toNat b) with
        | some (r, a) => .next (ctxTrap r.ctx { code := trapMemUpdst, report := a } (dropWrite k s))
        | none => .next (forwardTo k w (enabled ia.toNat b) s)

/-- Whether a physical byte belongs to the telemetry index word, whose fields are RO (R7, R370). -/
def inIndexWord (pa : Nat) : Bool := decide (firmwareBase ≤ pa ∧ pa < firmwareBase + 8)

/-- The bytes of a forwarded write that are homed on a stack, performed there (R241, R271, R370). -/
def performWrite (w : HostWr) (stack : Nat) (s : State) : State :=
  match w.write with
  | .memory ia b => writeHome ((enabled ia.toNat b).filter fun c => decide (stackOf c.1 = stack)) s
  | .physical pa b => writePhys ((enabled pa.toNat b).filter fun c => decide (stackOf c.1 = stack) && !inIndexWord c.1) s
  | .ingress _ _ => s

/-- HOME_ACKNOWLEDGEMENT: the line writes of the k-th write bound for a home are performed there, and the home acknowledges
it on its route (R271). -/
def execHomeAcknowledgement (k : Nat) (stack : Fin 16) (s : State) : Out :=
  match s.hostWrs[k]? with
  | none => .next s
  | some w =>
    if !w.forwarded ∨ !w.acks.contains stack.val then .next s
    else
      let acks := w.acks.erase stack.val
      let t := performWrite w stack.val s
      .next { t with hostWrs := if acks = [] then t.hostWrs.eraseIdx k else t.hostWrs.set k { w with acks := acks } }

/-! ## Reads and atomic requests of the host (R259, R269, R271, R365) -/

/-- HOST_READ: a read of `n` bytes, held behind its requester's posted writes, is answered from registers, the homes, or
physical memory (R217, R259, R269, R271, R341, R345, R365). -/
def execHostRead (req : BitVec 16) (space : HostSpace) (a : BitVec 46) (n : Nat) (s : State) : Out :=
  if n = 0 ∨ maxPayload < n ∨ s.hostBusy req then .next s
  else
    let r := match space with
      | .registers => if 2 ^ 26 < a.toNat + n then HomeRes.no .unsupported s else .data (s.regBytes a.toNat n) s
      | .memory => if !s.memOn then .no .unsupported s else homeRead a.toNat n s
      | .physical => if 2 ^ 40 < a.toNat + n ∨ !s.memOn then .no .unsupported s else homeHbm a.toNat n s
    match r with
    | .wait s => .next s
    | .no e s => .next (reply e s)
    | .data b s => .next (reply (.data b) s)

/-- HOST_ATOMIC_REQUEST: answered with Unsupported Request; no byte changes (R269). -/
def execHostAtomicRequest (_req : BitVec 16) (_ia : BitVec 46) (s : State) : Out := .next (reply .unsupported s)

/-! ## Peers (R209, R341, R352) -/

/-- A peer's store of bytes at a local intermediate address: into a bound region or spill area it is discarded, with
MEM.UPDST in the binding context; a fault refuses it whole (R209, R341, R352). -/
def peerWrite (ia : Nat) (bytes : List Byte) (s : State) : State :=
  let cs := bytes.zipIdx.map fun b => (ia + b.2, b.1)
  if !s.memOn ∨ 2 ^ 46 < ia + bytes.length then reply .unsupported s
  else match s.boundCell cs with
    | some (r, a) => reply .unsupported (ctxTrap r.ctx { code := trapMemUpdst, report := a } s)
    | none =>
      let parts := (cs.map fun c => homePart c.1).dedup
      let t := parts.foldl (fun (r : Bool × State) p =>
        let h := homePa (partAddr p) true r.2
        (r.1 && h.1.isSome, h.2)) (true, s)
      if t.1 then reply (.data []) (writeHome cs t.2) else reply .unsupported t.2

/-- PEER_ACCESS: a peer reads `n` bytes of local memory, or stores bytes there; what faults is refused (R209, R217, R352). -/
def execPeerAccess (ia : BitVec 48) (w : Option (List Byte)) (n : Nat) (s : State) : Out :=
  match w with
  | some bytes => .next (peerWrite ia.toNat bytes s)
  | none =>
    if !s.memOn then .next (reply .unsupported s)
    else match homeRead ia.toNat n s with
      | .wait s => .next s
      | .no e s => .next (reply e s)
      | .data b s => .next (reply (.data b) s)

/-! ## Acknowledgement and refusal of window stores (R124, R260, R352, R353) -/

/-- A posted store that no context issued: one that an edge adder forwards (R354). -/
def noCtx : Nat := 64

/-- What an acknowledged store leaves: it has been performed, after the earlier ones of its memory node to its location, and the oldest frame of a Token Transport route, or the flit of
a Cymas Link port, has passed (R260, R351, R353). -/
def settleStore (p : Posted) (s : State) : State :=
  let s := performInOrder p s
  match s.windowKind (windowOf p.ia) with
  | some 2 | none => s
  | some k =>
    match s.windowRoute k (windowOf p.ia) p.die p.ia with
    | none => s
    | some r =>
      if k = 0 then { s with ports := smSet LinkPort.reset s.ports r { smGet LinkPort.reset s.ports r with fails := 0 } }
      else { s with eths := smSet EthPort.reset s.eths r { smGet EthPort.reset s.eths r with retrans := 0 } }

/-- Whether the route of a posted store can carry its acknowledgement (R353). -/
def State.canAck (s : State) (p : Posted) : Bool :=
  match s.windowKind (windowOf p.ia) with
  | none => true
  | some k => s.routeUp k (windowOf p.ia) p.die p.ia

/-- PEER_STORE_ACKNOWLEDGEMENT: the k-th posted store has been performed at its target and is acknowledged over its route; an
edge adder then acknowledges the store that it forwarded (R260, R353, R354). -/
def execPeerStoreAcknowledgement (k : Nat) (s : State) : Out :=
  match s.posted[k]? with
  | none => .next s
  | some p =>
    if !s.canAck p then .next s
    else
      let t := settleStore p s
      let t : State := { t with posted := t.posted.eraseIdx k }
      .next (if p.ctx = noCtx then reply (.data []) t else t)

/-- The accepted loads of windows, in their order in each context, with the intermediate address of each. -/
def State.windowLoads (s : State) : List (Nat × Nat × Nat) :=
  s.ctxs.flatMap fun p => p.2.fab.accesses.filterMap fun a =>
    if a.accepted ∧ a.glob ∧ p.2.performs then
      match p.2.toIa a.op.returns a.op.writes a.addr with
      | .ok ia => if a.op.isLoad && inWindow ia then some (p.1, a.id, ia) else none
      | .error _ => none
    else none

/-- LINK_REMOTE_REFUSAL: a peer refuses a window access, and its issuer raises LINK.REMOTE: the k-th of the posted stores,
followed by the loads of windows (R342, R352). -/
def execLinkRemoteRefusal (k : Nat) (s : State) : Out :=
  match s.posted[k]? with
  | some p =>
    let t : State := { s with posted := s.posted.eraseIdx k }
    .next (if p.done then s else if p.ctx = noCtx then reply .unsupported t else ctxTrap p.ctx { code := trapLinkRemote, report := p.ia } t)
  | none => match s.windowLoads[k - s.posted.length]? with
    | none => .next s
    | some (c, id, ia) => .next (ctxTrap c { code := trapLinkRemote, report := ia } (dropAccess c id s))

end Sys2Proof.Machine
end

