-- ==== Sys2Proof/Machine/Links.lean ====
section
/-! DEFINITION. Cymas Link ports, Token Transport routes and edge adders (R351, R353, R354). -/

namespace Sys2Proof.Machine

open Sys2Proof

/-! ## Ports (R351, R353) -/

/-- A Cymas Link port. -/
def State.port (s : State) (p : Nat) : LinkPort := smGet LinkPort.reset s.ports p

/-- Replaces a Cymas Link port. -/
def State.setPort (s : State) (p : Nat) (x : LinkPort) : State := { s with ports := smSet LinkPort.reset s.ports p x }

/-- A port is declared down (R351). -/
def LinkPort.goDown (x : LinkPort) : LinkPort :=
  { x with down := true, up := false, fails := 0, downs := if x.down then x.downs else x.downs + 1 }

/-- The consecutive failures of one flit that declare its port down: its first transmission's, and those of 16 replays
(R351). -/
def flitFailures : Nat := 17

/-- A count of consecutive failures after one more: it starts again where the failure is another flit's, or another frame's,
which is a free choice (R351, R353; log 72). -/
def failCount (n : Nat) (another : Word) : Nat := if another.getLsbD 0 then 1 else n + 1

/-- A CRC count, which saturates (R351). -/
def crcNext (n : BitVec 16) : BitVec 16 := if n = 0xFFFF then n else n + 1

/-- FLIT_CRC_FAILURE: on a port that carries traffic, a flit fails its CRC and is replayed; the failure of its sixteenth
replay declares the port down (R351). -/
def execFlitCrcFailure (p : Port) (s : State) : Out :=
  let x := s.port p.val
  if !x.up then .next s
  else
    let a := s.fresh
    let y : LinkPort := { x with crc := crcNext x.crc, replays := x.replays + 1, fails := failCount x.fails a.1 }
    .next (a.2.setPort p.val (if flitFailures ≤ y.fails then y.goDown else y))

/-- LANE_LOCK_LOSS: loss of lane lock that lasts 2^20 cycles declares the port down (R351). -/
def execLaneLockLoss (p : Port) (s : State) : Out := .next (s.setPort p.val (s.port p.val).goDown)

/-- The retransmissions of one frame that declare a Token Transport route down (R353). -/
def frameRetries : Nat := 64

/-- CTT_RETRANSMISSION: a frame is retransmitted; its 64th retransmission declares the route down (R353). -/
def execCttRetransmission (p : Fin 8) (s : State) : Out :=
  let x := smGet EthPort.reset s.eths p.val
  if x.down then .next s
  else
    let a := s.fresh
    let n := failCount x.retrans a.1
    .next { a.2 with eths := smSet EthPort.reset s.eths p.val { retrans := n, down := decide (frameRetries ≤ n) } }

/-- PORT_RETRAIN: a write of 1 to lnk.ps.down clears it, and the port trains again (R7, R351). -/
def execPortRetrain (p : Port) (s : State) : Out :=
  let x := s.port p.val
  if !s.blocksOn ∨ !s.regCredit ∨ !x.down then .next s
  else .next (s.setPort p.val { x with down := false, up := false, lanes := 0, fails := 0 })

/-- PORT_TRAINED: a port that is not down finishes training with its lanes and carries traffic (R351). -/
def execPortTrained (p : Port) (lanes : Fin 3) (s : State) : Out :=
  let x := s.port p.val
  if x.down ∨ lanes = 0 then .next s
  else .next (s.setPort p.val { x with up := true, lanes := lanes.val, fails := 0 })

/-! ## Edge adders (R354) -/

/-- The sticky bits of lnk.eaa.st that flags set (R354). -/
def stBits (f : Flags) : Word :=
  BitVec.ofNat 64 (bitN (f.getLsbD 0) * 2 ^ 50 + bitN (f.getLsbD 2) * 2 ^ 49 + bitN (f.getLsbD 4) * 2 ^ 48)

/-- An edge adder's range: its base and size in bytes (R354). -/
def eaRange (a b : Word) : Nat × Nat := (bits a.toNat 47 6 * 64, bits b.toNat 63 48 * 64)

/-- The elements of a store of `n` bytes at `ia` that its bytes cover fully within a range: the offset of each in the store
(R354). -/
def eaElems (ia n base size : Nat) : List Nat :=
  (List.range n).filter fun i => decide ((ia + i) % 4 = 0 ∧ i + 4 ≤ n ∧ base ≤ ia + i ∧ ia + i + 4 ≤ base + size)

/-- Replaces four bytes of a list, from a place on. -/
def setWord4 (l : List Byte) (i v : Nat) : List Byte := l.take i ++ toBytes v 4 ++ l.drop (i + 4)

/-- Adds the partial sums to the elements of a store, one after another (R133, R354). -/
def eaSums (ia base part : Nat) : List Nat → List Byte → Flags → State → HomeRes × Flags
  | [], l, f, s => (.data l s, f)
  | i :: t, l, f, s =>
    match homeRead (part + (ia + i - base)) 4 s with
    | .wait s => (.wait s, f)
    | .no r s => (.no r s, f)
    | .data p s =>
      let x := fAdd .f32 .rne false 0 (ofBytes ((l.drop i).take 4)) (ofBytes p)
      eaSums ia base part t (setWord4 l i x.val) (f ||| x.fl) s

/-- Whether a store begins in an edge adder's range and the adder is in the path (R354). -/
def eaTakes (a b : Word) (ia : Nat) : Bool :=
  bit a.toNat 63 && decide ((eaRange a b).1 ≤ ia ∧ ia < (eaRange a b).1 + (eaRange a b).2)

/-- EDGE_ADDER_STORE: a posted store arrives at a port: the elements in an enabled adder's range become the sums with the local
partial sums, and the store is written locally or forwarded through the output window at the same offset; a store outside the
range is an ordinary peer store (R133, R353, R354). -/
def execEdgeAdderStore (p : Port) (ia : BitVec 48) (bytes : List Byte) (s : State) : Out :=
  let a := smGet 0 s.eaa p.val
  let b := smGet 0 s.eab p.val
  if !eaTakes a b ia.toNat ∨ !s.memOn then .next (peerWrite ia.toNat bytes s)
  else
    let base := (eaRange a b).1
    match eaSums ia.toNat base (bits b.toNat 47 6 * 64) (eaElems ia.toNat bytes.length base (eaRange a b).2) bytes 0 s with
    | (.wait s, _) => .next s
    | (.no _ s, _) => .next (reply .unsupported s)
    | (.data sums s, f) =>
      let t : State := { s with eaa := smSet 0 s.eaa p.val (a ||| stBits f) }
      if bit a.toNat 62 then .next (peerWrite ia.toNat sums t)
      else
        let out := (0x40 + bits a.toNat 61 56) * 2 ^ 40 + (ia.toNat - base)
        match windowCheck (p.val / 16) out t with
        | .ok _ t => .next (postStore noCtx (p.val / 16) out sums 0 none [] (srcPort p.val) t)
        | .stall t => .next t
        | .bad _ t => .next (reply .unsupported t)

end Sys2Proof.Machine
end

