-- ==== Sys2Proof/Machine/Security.lean ====
section
/-! DEFINITION. The security core: firmware images, the mailbox's commands, keys, rollback floors, attestation, the debug lock and
the feature mask (R355, R358 to R364).  A command runs while sec.stat.busy shows its op in progress. -/

namespace Sys2Proof.Machine

open Sys2Proof

/-! ## The mailbox (R358) -/

/-- Bytes of the security buffer as the command in progress reads them, when it starts (R358). -/
def Sec.bytes (c : Sec) (o n : Nat) : List Byte := (List.range n).map fun i => smGet 0 c.taken (o + i)

/-- Bytes written into the security buffer. -/
def Sec.putBytes (c : Sec) (o : Nat) (l : List Byte) : Sec :=
  { c with buffer := l.zipIdx.foldl (fun m b => smSet 0 m (o + b.2) b.1) c.buffer }

/-- The results of a command in sec.stat.err (R358). -/
def secDone : Nat := 0
@[inherit_doc secDone] def secUnknown : Nat := 1
@[inherit_doc secDone] def secInvalid : Nat := 2
@[inherit_doc secDone] def secFloor : Nat := 3
@[inherit_doc secDone] def secSlot : Nat := 4
@[inherit_doc secDone] def secRefused : Nat := 5
@[inherit_doc secDone] def secBuffer7 : Nat := 7

/-- A command ends with a result and the bytes that it wrote (R358). -/
def Sec.finish (c : Sec) (err len : Nat) : Sec := { c with busy := false, err := err, len := len }

/-- Changes the security core. -/
def State.modSec (s : State) (f : Sec → Sec) : State := { s with sec := f s.sec }

/-- The command in progress is the named one, and no trip holds the device in reset. -/
def asCommand (op : Nat) (s : State) (k : Sec → State) : Out :=
  if s.sec.busy ∧ s.sec.op = op ∧ s.boot.tripped = false then .next (k s.sec) else .next s

/-! ## Keys and authorisations (R359) -/

/-- A key slot. -/
def Sec.slot (c : Sec) (i : Nat) : KeySlot := smGet KeySlot.none c.slots i

/-- The key that a slot holds; slot 0 holds Wilgiant's. -/
def Sec.keyOf (c : Sec) (i : Nat) : List Byte := if i = 0 then Config.wilgiantKey else (c.slot i).key

/-- A 32-bit value as four little-endian bytes. -/
def le4 (v : Nat) : List Byte := toBytes v 4

/-- The message that an authorisation signs (R359). -/
def Sec.authMessage (c : Sec) (rest : List Byte) : List Byte :=
  Config.shake256 (BitVec.ofNat 8 c.op :: (le4 c.arg ++ rest ++ le4 c.serial.toNat ++ toBytes c.counter.toNat 8))

/-- Whether an enabled owner slot signed a message (R359, R362). -/
def Sec.ownerSigned (c : Sec) (msg sig : List Byte) : Bool :=
  [1, 2, 3].any fun i => (c.slot i).enabled && Config.verifies (c.keyOf i) msg sig

/-- The size of a signature, and of a public key (R355, R359). -/
def sigSize : Nat := 114
@[inherit_doc sigSize] def keySize : Nat := 57

/-- A command that needs an authorisation, which stands in the buffer after `n` other bytes: an accepted one advances the
counter, any other ends the command (R359). -/
def authorised (c : Sec) (n : Nat) (s : State) (k : Sec → State) : State :=
  if c.ownerSigned (c.authMessage (c.bytes 0 n)) (c.bytes n sigSize) then k { c with counter := c.counter + 1 }
  else { s with sec := c.finish secInvalid 0 }

/-! ## Firmware images (R355) -/

/-- A field of an image's header, little-endian. -/
def FwImage.field (i : FwImage) (o n : Nat) : Nat := ofBytes ((i.header.drop o).take n)

/-- The kind and version of an image (R355). -/
def FwImage.kind (i : FwImage) : Nat := i.field 4 1
@[inherit_doc FwImage.kind] def FwImage.version (i : FwImage) : Nat := i.field 8 4

/-- Whether every field of a header is legal, and the body has the size it gives (R355). -/
def FwImage.legal (i : FwImage) : Bool :=
  decide (i.field 0 4 = 0x57464D49 ∧ 1 ≤ i.kind ∧ i.kind ≤ 7 ∧ i.field 5 1 ≤ 3 ∧ i.field 6 2 = 1 ∧ i.field 12 4 = 0 ∧
    1 ≤ i.field 16 8 ∧ i.field 16 8 ≤ 2 ^ 24 ∧ i.field 202 54 = 0 ∧ i.body.length = i.field 16 8)

/-- What keeps an image from being valid: the error code of the mailbox (R355, R358). -/
def Sec.imageBad (c : Sec) (i : FwImage) : Option Nat :=
  let slot := i.field 5 1
  if !i.legal then some secInvalid
  else if !(c.slot slot).enabled then some secSlot
  else if (i.header.drop 24).take 64 ≠ Config.shake256 i.body ∨
      !Config.verifies (c.keyOf slot) (i.header.take 88) ((i.header.drop 88).take sigSize) then some secInvalid
  else if i.version < smGet 0 c.floors i.kind then some secFloor
  else none

/-- The place of a flash copy of a kind (R356). -/
def flashKey (kind copy : Nat) : Nat := kind * 2 + copy

/-- A flash copy. -/
def Sec.copy (c : Sec) (kind copy : Nat) : Option FwImage := smGet none c.flash (flashKey kind copy)

/-- The copy of a kind that a load replaces: an absent one first, then the one with the lower version; of two equal versions
the one that the last load did not write, so that two loads leave two copies (R361, R372). -/
def Sec.olderCopy (c : Sec) (kind : Nat) : Nat :=
  match c.copy kind 0, c.copy kind 1 with
  | none, _ => 0
  | some _, none => 1
  | some a, some b =>
    if b.version < a.version ∨ (a.version = b.version ∧ smGet 0 c.newest kind = 1) then 1 else 0

/-- The bit of a waiting installation. -/
def installBit (kind copy : Nat) : Nat := (kind - 4) * 2 + copy

/-- The image in the buffer: a header and the body whose size it gives; a body that does not fit the buffer is none. -/
def Sec.bufImage (c : Sec) : Option FwImage :=
  let h := c.bytes 0 256
  let n := ofBytes ((h.drop 16).take 8)
  if secBufferSize < 256 + n then none else some { header := h, body := c.bytes 256 n }

/-- LOAD_FIRMWARE: a valid image is written over the flash copy of its kind with the lower version; one of kinds 4 to 7 then
waits for its installation, but for minimal mode, where the failed-start count is cleared at the next reset (R357, R361). -/
def execLoadFirmware (s : State) : Out :=
  asCommand 1 s fun c =>
    if c.installing ≠ 0 then s
    else match c.bufImage with
      | none => { s with sec := c.finish secBuffer7 0 }
      | some i => match c.imageBad i with
        | some e => { s with sec := c.finish e 0 }
        | none =>
          let copy := c.olderCopy i.kind
          let c : Sec := { c with
            flash := smSet none c.flash (flashKey i.kind copy) (some i), newest := smSet 0 c.newest i.kind (1 + copy) }
          if s.boot.minimal then { s with sec := c.finish secDone 0, boot := { s.boot with clearFails := true } }
          else if i.kind < 4 then { s with sec := c.finish secDone 0 }
          else { s with sec := { c with installing := c.installing ||| BitVec.ofNat 8 (2 ^ installBit i.kind copy) } }

/-- An image is installed; the scheduler policy sets the leave pools and sched.policy.preempt (R361, R365, R367). -/
def installImage (i : FwImage) (s : State) : State :=
  let s : State := { s with sec := { s.sec with installed := smSet none s.sec.installed i.kind (some i) } }
  if i.kind ≠ 7 then s
  else
    { (List.range 8).foldl (fun s d => s.setGov d { s.gov d with pool := Config.policyPool i }) s with
      preempt := Config.policyPreempt i }

/-- FIRMWARE_INSTALLATION: the loaded image of a kind is installed once no context holds a launched graph, and its load ends
(R295, R361). -/
def execFirmwareInstallation (kind : Fin 8) (s : State) : Out :=
  match [0, 1].find? fun p => decide (4 ≤ kind.val) && s.sec.installing.getLsbD (installBit kind.val p) with
  | none => .next s
  | some p =>
    if s.anyLaunched then .next s
    else
      let t := match s.sec.copy kind.val p with
        | some i => installImage i s
        | none => s
      let c : Sec := { t.sec with installing := t.sec.installing &&& ~~~ BitVec.ofNat 8 (2 ^ installBit kind.val p) }
      .next { t with sec := c.finish secDone 0 }

/-! ## Key slots (R359) -/

/-- A key enters a slot, and the device is claimed. -/
def Sec.enrol (c : Sec) (slot : Nat) : Sec :=
  ({ c with slots := smSet KeySlot.none c.slots slot { key := c.bytes 0 keySize, enabled := true },
            claimed := true } : Sec).finish secDone 0

/-- ENROL_KEY: a public key enters an owner slot under an authorisation, or slot 1 of an unclaimed device when the
authorisation verifies under the key itself; a disabled slot stays disabled (R359). -/
def execEnrolKey (s : State) : Out :=
  asCommand 2 s fun c =>
    let old := c.slot c.arg
    if c.arg = 0 ∨ 3 < c.arg ∨ (old.key ≠ [] ∧ old.enabled = false) then { s with sec := c.finish secSlot 0 }
    else if c.claimed = false ∧ c.arg = 1 then
      if Config.verifies (c.bytes 0 keySize) (c.authMessage (c.bytes 0 keySize)) (c.bytes keySize sigSize) then
        { s with sec := ({ c with counter := c.counter + 1 } : Sec).enrol 1 }
      else { s with sec := c.finish secInvalid 0 }
    else authorised c keySize s fun d => { s with sec := d.enrol c.arg }

/-- DISABLE_SLOT: a slot is disabled under an authorisation (R359). -/
def execDisableSlot (s : State) : Out :=
  asCommand 3 s fun c =>
    if 3 < c.arg ∨ !(c.slot c.arg).enabled then { s with sec := c.finish secSlot 0 }
    else authorised c 0 s fun d =>
      let e : Sec := { d with slots := smSet KeySlot.none d.slots c.arg { d.slot c.arg with enabled := false } }
      { s with sec := e.finish secDone 0 }

/-- RAISE_FLOOR: a kind's rollback floor rises under an authorisation, never falls; in minimal mode, or with a flash copy
below it, the command ends with err 5 (R360). -/
def execRaiseFloor (s : State) : Out :=
  asCommand 4 s fun c =>
    let kind := c.arg % 2 ^ 8
    let v := c.arg / 2 ^ 8 % 2 ^ 24
    if kind = 0 ∨ 7 < kind then { s with sec := c.finish secBuffer7 0 }
    else if s.boot.minimal ∨ [0, 1].any (fun p => match c.copy kind p with
        | some i => decide (i.version < v)
        | none => false) then { s with sec := c.finish secRefused 0 }
    else authorised c 0 s fun d =>
      { s with sec := ({ d with floors := smSet 0 d.floors kind (max v (smGet 0 d.floors kind)) } : Sec).finish secDone 0 }

/-! ## Attestation (R362, R364) -/

/-- Bytes 64 to 71 of a report: enabled slots, claimed, unlocked (R362). -/
def Sec.attestBits (c : Sec) : Nat :=
  ((List.range 4).map fun i => bitN (c.slot i).enabled * 2 ^ i).sum + bitN c.claimed * 2 ^ 4 + bitN c.unlocked * 2 ^ 5

/-- The headers of the installed images in kind order, then the slot keys (R362). -/
def Sec.measured (c : Sec) : List Byte :=
  ((List.range' 1 7).flatMap fun k => ((smGet none c.installed k).map fun i => i.header.take 88).getD []) ++
    (List.range 4).flatMap c.keyOf

/-- The signed part of a report (R362). -/
def report (c : Sec) (s : State) : List Byte :=
  le4 0x54415441 ++ le4 1 ++ toBytes c.serial.toNat 8 ++ c.bytes 0 32 ++ toBytes s.boot.status.toNat 8 ++
    toBytes s.fmask.toNat 8 ++ toBytes c.attestBits 8 ++ Config.shake256 c.measured

/-- ATTEST: a report signed by the identity key, or with arg = 1 the identity public key and its certificate (R362, R364). -/
def execAttest (s : State) : Out :=
  asCommand 5 s fun c =>
    let l := if c.arg = 1 then Config.identityKey
      else report c s ++ Config.identitySign (report c s) ++ List.replicate 6 0
    { s with sec := (c.putBytes 0 l).finish secDone l.length }

/-! ## The debug lock and the feature mask (R362, R363) -/

/-- DEBUG_CHALLENGE: a fresh nonce, which replaces any earlier one (R362). -/
def execDebugChallenge (s : State) : Out :=
  asCommand 6 s fun c =>
    let n := Config.nonce s.frees
    { s with sec := ({ c.putBytes 0 n with nonce := some n } : Sec).finish secDone n.length, frees := s.frees + 1 }

/-- DEBUG_UNLOCK: a signature of the nonce by an enabled owner slot unlocks the debug block and spends the nonce (R362). -/
def execDebugUnlock (s : State) : Out :=
  asCommand 7 s fun c =>
    match c.nonce with
    | none => { s with sec := c.finish secRefused 0 }
    | some n =>
      if c.ownerSigned n (c.bytes 0 sigSize) then
        { s with sec := ({ c with nonce := none, unlocked := true } : Sec).finish secDone 0 }
      else { s with sec := c.finish secInvalid 0 }

/-- DEBUG_LOCK: the debug block is locked (R362). -/
def execDebugLock (s : State) : Out :=
  asCommand 8 s fun c => { s with sec := ({ c with unlocked := false } : Sec).finish secDone 0 }

/-- WRITE_FMASK: dev.fmask is written under an authorisation once no context holds a launched graph (R363). -/
def execWriteFmask (s : State) : Out :=
  asCommand 9 s fun c =>
    if s.anyLaunched then s
    else authorised c 0 s fun d => { s with sec := d.finish secDone 0, fmask := BitVec.ofNat 14 c.arg }

end Sys2Proof.Machine
end

