-- ==== Sys2Proof/Machine/Boot.lean ====
section
/-! DEFINITION. Reset and boot (R356, R357), thermal limits (R369) and the telemetry page (R370, R371). -/

namespace Sys2Proof.Machine

open Sys2Proof

/-! ## Reset (R356, R357) -/

/-- What the security core keeps over a reset: keys, floors, flash, identity and the authorisation counter (R355 to R364). -/
def Sec.kept (c : Sec) : Sec :=
  { Sec.reset with
    slots := c.slots, claimed := c.claimed, counter := c.counter, floors := c.floors, flash := c.flash, newest := c.newest,
    serial := c.serial, step := c.step }

/-- What boot.status keeps over a reset: the non-volatile counts and the cause of the last failure (R357, R369). -/
def Boot.kept (b : Boot) : Boot :=
  { Boot.reset with
    starts := b.starts, fails := b.fails, cause := b.cause, where_ := b.where_, trips := b.trips, clearFails := b.clearFails }

/-- The device right after a reset: every field at its reset value but what non-volatile storage, the host's memory and the
dies' sensors keep, and the turns that are due (R356, R363; log 3). -/
def cold (s : State) : State :=
  { State.reset with
    cur := s.cur, agenda := s.agenda, turns := s.turns, frees := s.frees, hostMem := s.hostMem, peerMem := s.peerMem, ldrLog := s.ldrLog, fmask := s.fmask,
    govs := smMap Gov.reset (fun _ g => { Gov.reset with temp := g.temp }) s.govs, boot := s.boot.kept, sec := s.sec.kept }

/-! ## The stages of a start (R356) -/

/-- The copy of a kind that a start takes: the valid one with the higher version (R356). -/
def Sec.bootCopy (c : Sec) (kind : Nat) : Option FwImage :=
  let ok := fun (p : Nat) => (c.copy kind p).filter fun i => (c.imageBad i).isNone && decide (i.kind = kind)
  match ok 0, ok 1 with
  | none, b => b
  | some a, none => some a
  | some a, some b => if a.version < b.version then some b else some a

/-- The cause of a start that finds no valid copy of a kind (R357): none present, one below the floor, or none that
verifies. -/
def Sec.copyCause (c : Sec) (kind : Nat) : Nat :=
  let cs := [0, 1].filterMap (c.copy kind)
  if cs = [] then 2 else if cs.any fun i => decide (c.imageBad i = some secFloor) then 3 else 1

/-- How far a start comes: the images that it installs, its last completed stage, and the cause and place of its failure,
0 for none. -/
structure Start where
  images : List FwImage
  stage : Nat
  cause : Nat
  place : Nat
  deriving DecidableEq, Repr, Inhabited

/-- The parts of a start in their order (R356): its place, the image kind that it validates and installs, 0 for none, and the
last completed stage after it. -/
def bootWork : List (Nat × Nat × Nat) :=
  [(0, 3, 0), (1, 1, 1), (2, 0, 2), (3, 2, 3), (4, 4, 3), (5, 5, 3), (6, 6, 3), (7, 7, 4), (8, 0, 5)]

/-- One part of a start.  Where the time limit strikes, and how the training and self-tests of stage 2 end, is not fixed (R356,
R357; log 4). -/
def Start.part (c : Sec) (f : Nat × Nat) (st : Start) (w : Nat × Nat × Nat) : Start :=
  if st.cause ≠ 0 then st
  else if f.1 = 7 ∧ f.2 % 9 = w.1 then { st with cause := 7 }
  else if w.1 = 2 ∧ 4 ≤ f.1 ∧ f.1 ≤ 6 then { st with cause := f.1, place := f.2 % 8 }
  else if w.2.1 = 0 then { st with stage := w.2.2 }
  else match c.bootCopy w.2.1 with
    | none => { st with cause := c.copyCause w.2.1, place := w.2.1 }
    | some i => { st with stage := w.2.2, images := st.images ++ [i] }

/-- The stages of a start, in their order (R356). -/
def runStages (c : Sec) (f : Nat × Nat) : Start :=
  bootWork.foldl (Start.part c f) { images := [], stage := 0, cause := 0, place := 0 }

/-- The count of consecutive failed starts at which a start enters minimal mode (R357). -/
def failLimit : Nat := 3

/-- boot.status after a start (R357): one that reaches stage 5 clears the count, any other counts unless it follows a trip. -/
def Boot.after (b : Boot) (st : Start) (trip : Bool) : Boot :=
  { b with
    stage := st.stage, cause := st.cause, where_ := st.place,
    fails := if st.cause = 0 then 0 else if trip then b.fails else min failLimit (b.fails + 1) }

/-- A start, from the device right after a reset (R356, R357). -/
def start (trip : Bool) (s : State) : State :=
  let b : Boot := { s.boot with
    starts := s.boot.starts + 1, fails := if s.boot.clearFails then 0 else s.boot.fails, clearFails := false }
  if failLimit ≤ b.fails then { s with boot := { b with minimal := true } }
  else
    let st := runStages s.sec (Config.startFault s.frees)
    let t : State := { s with frees := s.frees + 1, boot := b.after st trip }
    st.images.foldl (fun s i => installImage i s) t

/-- RESET: a device reset runs the boot stages, or enters minimal mode after three failed starts; a trip holds the device in
reset (R356, R357, R369). -/
def execReset (s : State) : Out := .next (if s.boot.tripped then s else start false (cold s))

/-- BOOT_TIMEOUT: a start that is under way and has not reached stage 5 fails with cause 7 (R356, R357). -/
def execBootTimeout (s : State) : Out :=
  let b := s.boot
  if b.stage = 5 ∨ b.minimal ∨ b.tripped ∨ b.cause ≠ 0 then .next s
  else .next { s with boot := { b with cause := 7, where_ := 0, fails := min failLimit (b.fails + 1) } }

/-- BOOT_RETRY: a write of boot.ctl.retry clears the failed-start count and resets the device (R357). -/
def execBootRetry (s : State) : Out :=
  .next (if s.boot.tripped ∨ !s.regCredit then s else start false (cold { s with boot := { s.boot with fails := 0 } }))

/-! ## Thermal limits (R369) -/

/-- A temperature in the units of 1/16 °C that a sample gives (R371). -/
def celsius (t : Nat) : Nat := 16 * t

/-- A trip: the fabric loses power, no graph gets a token, and the device is held in reset (R369). -/
def trip (s : State) : State :=
  let c := cold s
  { c with boot := { c.boot with tripped := true, trips := c.boot.trips + 1 } }

/-- A governor after a sample (R369). -/
def Gov.sampled (g : Gov) (t : Nat) : Gov :=
  { g with
    temp := t,
    halved := decide (celsius 95 ≤ t) || (g.halved && decide (celsius 90 ≤ t)),
    stopped := decide (celsius 105 ≤ t) || (g.stopped && decide (celsius 100 ≤ t)) }

/-- THERMAL_SAMPLE: a die's governor reads its hottest junction, in units of 1/16 °C: it halves its pool, stops grants or
trips; a tripped device starts again once every die is below 80 °C (R369). -/
def execThermalSample (d : Die) (t : Nat) (s : State) : Out :=
  let u := s.setGov d.val ((s.gov d.val).sampled t)
  if s.boot.tripped then
    .next (if (List.range 8).all fun i => decide ((u.gov i).temp < celsius 80) then
        start true (cold { u with boot := { u.boot with tripped := false } }) else u)
  else .next (if celsius 115 ≤ t then trip u else u)

/-! ## Telemetry (R370, R371) -/

/-- A copy's header (R371). -/
def telHeader (s : State) : List Nat := [0x4D4C4554 + 2 ^ 32, s.cycles, s.boot.trips, 0, 0, 0, 0, 0]

/-- The words of an HBM die that one complete scrub pass reads (R345, R371). -/
def scrubWords : Nat := 2 ^ 34

/-- A die record (R371). -/
def telDie (s : State) (d : Nat) : List Nat :=
  let g := s.gov d
  [g.temp % 2 ^ 16 + Config.watts (s.frees + d) % 2 ^ 16 * 2 ^ 16, g.grants, g.waited, g.throttled, smGet 0 s.corrected d,
    smGet 0 s.uncorrected d, smGet 0 s.scrubs d / scrubWords] ++ List.replicate 25 0

/-- A port record (R371). -/
def telPort (s : State) (n : Nat) : List Nat :=
  let p := s.port n
  [p.downs, p.upCycles, p.replays, 0]

/-- A context record (R371). -/
def telCtx (s : State) (x : Nat) : List Nat :=
  (List.range 12).map (fun i => smGet 0 (s.ctx x).stats i) ++ List.replicate 4 0

/-- The words of a copy (R371). -/
def telCopyWords (s : State) : List Nat :=
  telHeader s ++ (List.range 8).flatMap (telDie s) ++ (List.range 128).flatMap (telPort s) ++ (List.range 64).flatMap (telCtx s)

/-- Writes words into HBM from a physical address up. -/
def hbmWords (pa : Nat) : List Nat → State → State
  | [], s => s
  | w :: t, s => hbmWords (pa + 8) t (hbmWrite pa 8 w s).s

/-- TELEMETRY_SNAPSHOT: the other copy is written whole, then the index word with gen + 1 and the copy flipped (R370,
R371). -/
def execTelemetrySnapshot (s : State) : Out :=
  if !s.memOn then .next s
  else
    let copy := !s.telCopy
    let t := hbmWords (firmwareBase + 0x100000 * (1 + bitN copy)) (telCopyWords s) s
    let t := hbmWords firmwareBase [(s.telGen + 1) * 2 + bitN copy] t
    .next { t with telGen := s.telGen + 1, telCopy := copy, frees := s.frees + 8 }

end Sys2Proof.Machine
end

