-- ==== Sys2Proof/Machine/NodeCompute.lean ====
section
/-! DEFINITION. The node operations that compute, opcodes 0x00 to 0x55 (R125 to R147): each acts in its stage on the operands
that the firing reads, and hands its result to the next stage or to E. -/

namespace Sys2Proof.Machine

open Sys2Proof

/-- An operation on one n-bit pattern, written back extended, without a flag (R131). -/
def bitUnary (env : OpEnv) (t : IntTy) (a : Sel) (f : Nat → Nat) : OpRes :=
  byElem (IntTy.wide t) env.mask fun i => quiet (extendRaw t (f (selInt env t a i % 2 ^ IntTy.bits t)))

/-- Whether the block indices of two operands' active lanes match their scales (R46, R139). -/
def scalesMatch2 (a b : Sel) (env : OpEnv) : Bool :=
  scalesMatch env a (activeLanes env.mask) && scalesMatch env b (activeLanes env.mask)

/-- nop (R129): p0 under the firing's mask in X1, x with its mask after it. -/
def execNop (s : State) : Out :=
  compute .nop s fun env =>
    { lanes := maskLanes env.mask (if env.key.stage = 0 then env.ports.getD 0 [] else env.x), mask := env.mask, fwd := [],
      fl := fNone }

/-- Integer add (R130). -/
def execAddInteger (t : IntTy) (a b : Sel) (sat : Bool) (s : State) : Out :=
  compute (.addInteger t a b sat) s fun env => intArith env t a b sat (fun x y => x + y)

/-- Integer sub (R130). -/
def execSubInteger (t : IntTy) (a b : Sel) (sat : Bool) (s : State) : Out :=
  compute (.subInteger t a b sat) s fun env => intArith env t a b sat (fun x y => x - y)

/-- Integer mul (R130). -/
def execMulInteger (t : IntTy) (a b : Sel) (sat : Bool) (s : State) : Out :=
  compute (.mulInteger t a b sat) s fun env => intArith env t a b sat (fun x y => x * y)

/-- mulh (R130). -/
def execMulhInteger (t : IntTy) (a b : Sel) (s : State) : Out :=
  compute (.mulhInteger t a b) s fun env => intArith env t a b false (intMulh t)

/-- mad (R130). -/
def execMad (t : IntTy) (a b c : Sel) (sat : Bool) (s : State) : Out :=
  compute (.mad t a b c sat) s fun env => intMad env t a b c sat

/-- Integer neg (R130). -/
def execNegInteger (t : IntTy) (a : Sel) (sat : Bool) (s : State) : Out :=
  compute (.negInteger t a sat) s fun env => intUnary env t a sat fun x => -x

/-- Integer abs (R130). -/
def execAbsInteger (t : IntTy) (a : Sel) (sat : Bool) (s : State) : Out :=
  compute (.absInteger t a sat) s fun env => intUnary env t a sat fun x => if x < 0 then -x else x

/-- Integer min (R130). -/
def execMinInteger (t : IntTy) (a b : Sel) (s : State) : Out :=
  compute (.minInteger t a b) s fun env => intArith env t a b false fun x y => if x ≤ y then x else y

/-- Integer max (R130). -/
def execMaxInteger (t : IntTy) (a b : Sel) (s : State) : Out :=
  compute (.maxInteger t a b) s fun env => intArith env t a b false fun x y => if y ≤ x then x else y

/-- Bitwise and (R131). -/
def execAndInteger (t : IntTy) (a b : Sel) (s : State) : Out :=
  compute (.andInteger t a b) s fun env => bitOp env t a b (fun x y => x &&& y)

/-- Bitwise or (R131). -/
def execOrInteger (t : IntTy) (a b : Sel) (s : State) : Out :=
  compute (.orInteger t a b) s fun env => bitOp env t a b (fun x y => x ||| y)

/-- Bitwise xor (R131). -/
def execXorInteger (t : IntTy) (a b : Sel) (s : State) : Out :=
  compute (.xorInteger t a b) s fun env => bitOp env t a b (fun x y => x ^^^ y)

/-- not: the complement of the n bits (R131). -/
def execNotInteger (t : IntTy) (a : Sel) (s : State) : Out :=
  compute (.notInteger t a) s fun env => bitUnary env t a fun x => 2 ^ IntTy.bits t - 1 - x

/-- andn: A AND NOT B (R131). -/
def execAndn (t : IntTy) (a b : Sel) (s : State) : Out :=
  compute (.andn t a b) s fun env => bitOp env t a b fun x y => x &&& (2 ^ IntTy.bits t - 1 - y)

/-- shl (R131). -/
def execShl (t : IntTy) (a b : Sel) (s : State) : Out :=
  compute (.shl t a b) s fun env => bitOp env t a b (shlBits (IntTy.bits t))

/-- shr (R131). -/
def execShr (t : IntTy) (a b : Sel) (s : State) : Out :=
  compute (.shr t a b) s fun env => bitOp env t a b (shrBits t)

/-- rotl (R131). -/
def execRotl (t : IntTy) (a b : Sel) (s : State) : Out :=
  compute (.rotl t a b) s fun env => bitOp env t a b (rotlBits (IntTy.bits t))

/-- rotr (R131). -/
def execRotr (t : IntTy) (a b : Sel) (s : State) : Out :=
  compute (.rotr t a b) s fun env => bitOp env t a b (rotrBits (IntTy.bits t))

/-- clz (R131). -/
def execClz (t : IntTy) (a : Sel) (s : State) : Out :=
  compute (.clz t a) s fun env => bitUnary env t a (clzBits (IntTy.bits t))

/-- popc (R131). -/
def execPopc (t : IntTy) (a : Sel) (s : State) : Out :=
  compute (.popc t a) s fun env => bitUnary env t a (popBits (IntTy.bits t))

/-- sel (R132). -/
def execSel (t : IntTy) (a b c : Sel) (s : State) : Out :=
  compute (.sel t a b c) s fun env => intSel env t a b c

/-- Integer cmp (R132). -/
def execCmpInteger (t : IntTy) (a b : Sel) (m : ICond) (s : State) : Out :=
  compute (.cmpInteger t a b m) s fun env => intCmp env t a b m

/-- Float add (R133). -/
def execAddFloat (t : FltTy) (a b : Sel) (r : Rnd) (sat : Bool) (s : State) : Out :=
  compute (.addFloat t a b r sat) s fun env => flt2 env t a b (fAdd t r sat)

/-- Float sub (R133). -/
def execSubFloat (t : FltTy) (a b : Sel) (r : Rnd) (sat : Bool) (s : State) : Out :=
  compute (.subFloat t a b r sat) s fun env => flt2 env t a b (fSub t r sat)

/-- Float mul (R133). -/
def execMulFloat (t : FltTy) (a b : Sel) (r : Rnd) (sat : Bool) (s : State) : Out :=
  compute (.mulFloat t a b r sat) s fun env => flt2 env t a b (fMul t r sat)

/-- fma (R133). -/
def execFma (t : FltTy) (a b c : Sel) (r : Rnd) (sat : Bool) (s : State) : Out :=
  compute (.fma t a b c r sat) s fun env => flt3 env t a b c r sat

/-- Float min (R134). -/
def execMinFloat (t : FltTy) (a b : Sel) (s : State) : Out :=
  compute (.minFloat t a b) s fun env => flt2 env t a b fun _ => fMinMax false t

/-- Float max (R134). -/
def execMaxFloat (t : FltTy) (a b : Sel) (s : State) : Out :=
  compute (.maxFloat t a b) s fun env => flt2 env t a b fun _ => fMinMax true t

/-- Float abs (R134). -/
def execAbsFloat (t : FltTy) (a : Sel) (s : State) : Out :=
  compute (.absFloat t a) s fun env => flt1 env t a fun _ => fSignOp false t

/-- Float neg (R134). -/
def execNegFloat (t : FltTy) (a : Sel) (s : State) : Out :=
  compute (.negFloat t a) s fun env => flt1 env t a fun _ => fSignOp true t

/-- Float cmp (R135). -/
def execCmpFloat (t : FltTy) (a b : Sel) (m : FCond) (s : State) : Out :=
  compute (.cmpFloat t a b m) s fun env => fltCmp env t a b m

/-- rcp (R136). -/
def execRcp (t : FltTy) (a : Sel) (r : Rnd) (sat : Bool) (s : State) : Out :=
  compute (.rcp t a r sat) s fun env => flt1 env t a (fRcp t r sat)

/-- rsqrt (R136). -/
def execRsqrt (t : FltTy) (a : Sel) (r : Rnd) (sat : Bool) (s : State) : Out :=
  compute (.rsqrt t a r sat) s fun env => flt1 env t a (fRsqrt t r sat)

/-- sqrt (R136). -/
def execSqrt (t : FltTy) (a : Sel) (r : Rnd) (sat : Bool) (s : State) : Out :=
  compute (.sqrt t a r sat) s fun env => flt1 env t a (fSqrt t r sat)

/-- exp2 (R136). -/
def execExp2 (t : FltTy) (a : Sel) (r : Rnd) (sat : Bool) (s : State) : Out :=
  compute (.exp2 t a r sat) s fun env => flt1 env t a (fExp2 t r sat)

/-- log2 (R136). -/
def execLog2 (t : FltTy) (a : Sel) (r : Rnd) (sat : Bool) (s : State) : Out :=
  compute (.log2 t a r sat) s fun env => flt1 env t a (fLog2 t r sat)

/-- cvt from an integer type (R137, R138). -/
def execCvtIntegerSource (t : IntTy) (a : Sel) (c : CvtTy) (r : Rnd) (sat : Bool) (s : State) : Out :=
  compute (.cvtIntegerSource t a c r sat) s fun env => cvtInt env t a c r sat

/-- cvt from a float type (R137, R138). -/
def execCvtFloatSource (t : FltTy) (a : Sel) (c : CvtTy) (r : Rnd) (sat : Bool) (s : State) : Out :=
  compute (.cvtFloatSource t a c r sat) s fun env => cvtFlt env t a c r sat

/-- quant (R141). -/
def execQuant (t : BlkTy) (a : Sel) (c : FltTy) (r : Rnd) (sat : Bool) (s : State) : Out :=
  compute (.quant t a c r sat) s fun env => blkQuant env t a c r

/-- dequant (R142). -/
def execDequant (t : BlkTy) (a : Sel) (c : FltTy) (r : Rnd) (sat : Bool) (s : State) : Out :=
  computeBlock (.dequant t a c r sat) s (fun env => scalesMatch env a (blkRead env.mask (FltTy.wide c)))
    fun env => blkDequant env t a c r sat

/-- bmul (R143). -/
def execBmul (t : BlkTy) (a b : Sel) (c : BlkTy) (r : Rnd) (sat : Bool) (s : State) : Out :=
  computeBlock (.bmul t a b c r sat) s (scalesMatch2 a b) fun env => blkMul env t a b c r sat

/-- bdot (R144). -/
def execBdot (t : BlkTy) (a b : Sel) (c : BlkTy) (r : Rnd) (sat : Bool) (s : State) : Out :=
  computeBlock (.bdot t a b c r sat) s (scalesMatch2 a b) fun env => blkDot env t a b c r sat

/-- bcast (R145). -/
def execBcast (t : WTy) (a b : Sel) (s : State) : Out :=
  compute (.bcast t a b) s fun env => laneBcast env t a b

/-- shuf (R145). -/
def execShuf (t : WTy) (a b : Sel) (s : State) : Out :=
  compute (.shuf t a b) s fun env => laneShuf env t a b

/-- Integer red (R146). -/
def execRedInteger (t : IntTy) (a : Sel) (c : RedOp) (sat : Bool) (s : State) : Out :=
  compute (.redInteger t a c sat) s fun env => redInt env t a c sat

/-- Float red (R146). -/
def execRedFloat (t : FltTy) (a : Sel) (c : FRedOp) (r : Rnd) (sat : Bool) (s : State) : Out :=
  compute (.redFloat t a c r sat) s fun env => redFlt env t a c r sat

/-- Integer scan (R147). -/
def execScanInteger (t : IntTy) (a : Sel) (c : RedOp) (sat : Bool) (s : State) : Out :=
  compute (.scanInteger t a c sat) s fun env => scanInt env t a c sat

/-- Float scan (R147). -/
def execScanFloat (t : FltTy) (a : Sel) (c : FRedOp) (r : Rnd) (sat : Bool) (s : State) : Out :=
  compute (.scanFloat t a c r sat) s fun env => scanFlt env t a c r sat

end Sys2Proof.Machine
end

