-- ==== Sys2Proof/Machine/Registers.lean ====
section
/-! DEFINITION. Writes of the registers of BAR0 under their access codes (R7, R304, R331, R346, R350, R352, R354, R358, R365).  A
register whose write has a step of its own takes it there: boot.ctl, pt.root, pt.inval, fi.ctl, lnk.ps, ctx.ctl and ctx.fault. -/

namespace Sys2Proof.Machine

open Sys2Proof

/-! ## The context block (R304, R331, R346) -/

/-- A set-up register: written only while the context is Free or Idle; any other write sets istat.late (R304). -/
def Ctx.setUp (x y : Ctx) : Ctx := if x.st = .free ∨ x.st = .idle then y else { x with late := true }

/-- istat's sticky bits under a write of ones (R304). -/
def Ctx.clearStat (x : Ctx) (v : Word) : Ctx :=
  { x with off := x.off && !v.getLsbD 10, late := x.late && !v.getLsbD 9, bad := x.bad && !v.getLsbD 8,
           ovf := x.ovf && !v.getLsbD 7 }

/-- A write of a register of a context block (R304, R306, R331, R346). -/
def Ctx.regWrite (x : Ctx) (o : Nat) (v : Word) : Ctx :=
  if o < 0x040 then { x with bad := true }
  else if o = 0x048 then x.clearStat v
  else if o = 0x050 then x.setUp { x with egress := v &&& 0xFFFFFFFFFFFFF001 }
  else if o = 0x060 then { x with ehead := v }
  else if o = 0x068 then x.setUp { x with save := v &&& 0xFFFFFFFFFFF0 }
  else if o = 0x070 then x.setUp { x with hang := v &&& 0xFFF0FFFFFFFFF000 }
  else if o = 0x080 then { x with trigen := v }
  else if 0x100 ≤ o ∧ o < 0x200 then
    if o % 16 = 0 then x.setUp { x with rngA := smSet 0 x.rngA ((o - 0x100) / 16) v }
    else x.setUp { x with rngB := smSet 0 x.rngB ((o - 0x100) / 16) (v &&& 0x7FFFFFFFF) }
  else if 0x200 ≤ o ∧ o < 0x240 then
    if o % 16 = 0 then { x with nbpA := smSet 0 x.nbpA ((o - 0x200) / 16) (v &&& 0x800000003FFFFFFF) }
    else { x with nbpB := smSet 0 x.nbpB ((o - 0x200) / 16) v }
  else if 0x240 ≤ o ∧ o < 0x260 then { x with sbp := smSet 0 x.sbp ((o - 0x240) / 8) (v &&& 0x8000FFFF3FFFFFFC) }
  else x

/-! ## The link block (R352, R354, R365) -/

/-- lnk.eaa under a write: RW fields, and the sticky bits that ones clear (R354). -/
def eaaWrite (old v : Word) : Word := (v &&& 0xFF00FFFFFFFFFFC0) ||| (old &&& ~~~v &&& 0x7000000000000)

/-- A write of a register of the link block (R352, R354, R363, R365). -/
def linkWrite (o : Nat) (v : Word) (s : State) : State :=
  if o < 0x400 then s
  else if o < 0x800 then
    if s.anyLaunched then s
    else if o % 16 = 0 then { s with wa := smSet 0 s.wa ((o - 0x400) / 16) (v &&& 0xE00FFF00000000FF) }
    else { s with wb := smSet 0 s.wb ((o - 0x400) / 16) v }
  else if o < 0x1000 then
    if o % 16 = 0 then
      if v.getLsbD 63 && s.masked 13 then s
      else { s with eaa := smSet 0 s.eaa ((o - 0x800) / 16) (eaaWrite (smGet 0 s.eaa ((o - 0x800) / 16)) v) }
    else { s with eab := smSet 0 s.eab ((o - 0x800) / 16) (v &&& 0xFFFFFFFFFFFFFFC0) }
  else if o = 0x1000 then { s with etype := v &&& 0xFFFF }
  else s

/-! ## The security block (R358) -/

/-- A write of sec.cmd: discarded with ovr while busy; a command takes the buffer as it stands, and an unknown op ends at once
with err 1 (R358). -/
def Sec.command (c : Sec) (v : Word) : Sec :=
  let op := bits v.toNat 7 0
  if c.busy then { c with ovr := true }
  else
    let d : Sec := { c with busy := true, op := op, arg := bits v.toNat 63 32, err := 0, len := 0, taken := c.buffer }
    if op = 0 ∨ 9 < op then d.finish secUnknown 0 else d

/-- A write into the security block (R358). -/
def Sec.regWrite (c : Sec) (o : Nat) (v : Word) : Sec :=
  if o = 0 then c.command v
  else if o = 8 then { c with ovr := c.ovr && !v.getLsbD 1 }
  else if secBuffer - secBlock ≤ o ∧ o < secBuffer - secBlock + secBufferSize then
    { c with buffer := wrBytes c.buffer (o - (secBuffer - secBlock)) v.toNat 8 }
  else c

/-! ## The debug block (R350) -/

/-- Whether the debug block takes writes (R350, R363). -/
def State.fiOpen (s : State) : Bool := s.blocksOn && !s.masked 12 && s.sec.unlocked

/-- The bits that a scratchpad injection flips: the selected one, and with dbl the next. -/
def fiMask (ctl sel : Word) : Word :=
  let i := bits sel.toNat 63 58
  BitVec.ofNat 64 (2 ^ i) ||| (if bit ctl.toNat 3 then BitVec.ofNat 64 (2 ^ ((i + 1) % 64)) else 0)

/-- FAULT_INJECTION_ARM: a write of fi.ctl; arm with kind 3 flips scratchpad bits at once, without their check bits (R350). -/
def execFaultInjectionArm (v : Word) (s : State) : Out :=
  if !s.fiOpen || !s.regCredit then .next s
  else
    let ctl := (v &&& 0x800000000000000F) ||| (s.fiCtl &&& ~~~v &&& 0x4000000000000000)
    if bit v.toNat 63 && decide (bits v.toNat 2 0 = 3) then
      let w := bits s.fiSel.toNat 29 3
      let m := fiMask v s.fiSel
      .next { s with
        fiCtl := (ctl &&& 0x7FFFFFFFFFFFFFFF) ||| 0x4000000000000000,
        sp := wrBytes s.sp (8 * w) (rdBytes s.sp (8 * w) 8 ^^^ m.toNat) 8,
        spErr := smSet 0 s.spErr w (smGet 0 s.spErr w ^^^ m) }
    else .next { s with fiCtl := ctl }

/-! ## A register write (R7, R365) -/

/-- REGISTER_WRITE: an 8-byte write of the register at an offset of BAR0; offsets not listed ignore it, and in minimal mode
every block but the device and security blocks does (R7, R357, R365); without a posted credit it waits on the link (R272). -/
def execRegisterWrite (off : BitVec 26) (v : Word) (s : State) : Out :=
  let o := off.toNat
  if s.boot.tripped ∨ (!bootBlocks o ∧ !s.blocksOn) ∨ !s.regCredit then .next s
  else if ctxBlock ≤ o then
    if ctxBlock + 64 * 0x1000 ≤ o ∨ (o % 8 ≠ 0 ∧ 0x040 ≤ o % 0x1000) then .next s
    else .next (s.modCtx ((o - ctxBlock) / 0x1000) fun x => x.regWrite (o % 0x1000) v)
  else if o % 8 ≠ 0 then .next s
  else if linkBlock ≤ o then .next (linkWrite (o - linkBlock) v s)
  else if o = fiBlock + 8 then .next (if s.fiOpen then { s with fiSel := v &&& 0xFC0000003FFFFFFF } else s)
  else if secBlock ≤ o ∧ o < schedBlock then .next { s with sec := s.sec.regWrite (o - secBlock) v }
  else if o = 0x020 then .next { s with pwin := v.getLsbD 0 }
  else .next s

end Sys2Proof.Machine
end

