-- ==== Sys2Proof/Machine/Scheduler.lean ====
section
/-! DEFINITION. The scheduler: placement, fresh launch and restore (R316 to R318, R323), pre-emption (R316, R320), the end of a
drain (R321 to R323), and retirement (R326, R327). -/

namespace Sys2Proof.Machine

open Sys2Proof

/-! ## Regions and priorities (R316) -/

/-- Whether a context still uses the clusters of its region: its graph runs or drains, or ends with work left (R326). -/
def State.holdsRegion (s : State) (c : Nat) (x : Ctx) : Bool :=
  x.live || (decide (x.st = .retiring) && (x.ending.isNone || decide (x.fab.accesses ≠ []) || s.hasCmd c false))

/-- Whether no context uses the block of `n` clusters from `k`. -/
def State.blockFree (s : State) (n k : Nat) : Bool :=
  s.ctxs.all fun e => !(s.holdsRegion e.1 e.2) || decide (e.2.first + e.2.size ≤ k ∨ k + n ≤ e.2.first)

/-- The aligned blocks of 2^lsize clusters. -/
def blocksOf (lsize : Nat) : List Nat := (List.range (64 / 2 ^ lsize)).map (· * 2 ^ lsize)

/-- The effective priority of a task (R316). -/
def Task.eff (t : Task) : Nat := min 15 (t.prio + t.w / 2 ^ 16)

/-- The ready tasks at the heads of Queued contexts, from the context after the one last placed, with wrap (R311, R316). -/
def State.readyTasks (s : State) : List (Nat × Task) :=
  ((List.range 64).map fun i => (s.lastPlaced + 1 + i) % 64).filterMap fun c =>
    let x := s.ctx c
    match x.queue with
    | t :: _ => if x.st = .queued ∧ x.ready t then some (c, t) else none
    | [] => none

/-- The ready task that the scheduler takes: the highest effective priority, and the first context among equals (R316). -/
def State.topTask (s : State) : Option (Nat × Task) :=
  s.readyTasks.foldl (fun b e => match b with
    | none => some e
    | some t => if t.2.eff < e.2.eff then some e else b) none

/-! ## The data of a region's clusters (R317, R323) -/

/-- Takes the state of a region's clusters, relative to its first (R323). -/
def saveClusters (x : Ctx) (s : State) : ClusterData :=
  let a := x.first
  let b := x.first + x.size
  { sp := smSlice s.sp (a * 2 ^ 24) (b * 2 ^ 24), nodes := smSlice s.nodes (a * 2 ^ 15) (b * 2 ^ 15),
    planes := smSlice s.planes (a * 4) (b * 4), hold := smSlice s.hold (a * 2 ^ 10) (b * 2 ^ 10),
    tagtab := smSlice s.tagtab (a * 2 ^ 12) (b * 2 ^ 12), acc := smSlice s.acc (a * 2 ^ 19) (b * 2 ^ 19),
    csrow := smSlice s.csrow (a * 2 ^ 12) (b * 2 ^ 12), cscol := smSlice s.cscol (a * 2 ^ 12) (b * 2 ^ 12),
    active := smSlice s.active a b, engs := smSlice s.engs (a * 64) (b * 64), latches := smSlice s.latches (a * 16) (b * 16),
    carve := s.carveOf a, frame := bits x.save.toNat 47 16 * 2 ^ 16, spOff := 0 }

/-- Clears the error bits of a region's words (R344). -/
def clearErrs (a b : Nat) (s : State) : State :=
  { s with spErr := smClear s.spErr (a * 2 ^ 21) (b * 2 ^ 21), tagErr := smClear s.tagErr (a * 2 ^ 12) (b * 2 ^ 12),
           latchErr := smClear s.latchErr (latchErrKey (a * 16) 0) (latchErrKey (b * 16) 0) }

/-- Records the context whose graph a block holds, and its carve-outs (R317). -/
def takeBlock (c a b carve : Nat) (s : State) : State :=
  { s with
    carve := (List.range' a (b - a)).foldl (fun m i => smSet carveDefault m i carve) s.carve,
    lastCtx := (List.range' a (b - a)).foldl (fun m i => smSet 0 m i (c + 1)) s.lastCtx }

/-- Puts saved clusters into the block of a context (R323). -/
def restoreClusters (c : Nat) (x : Ctx) (d : ClusterData) (s : State) : State :=
  let a := x.first
  let b := x.first + x.size
  let s := takeBlock c a b d.carve (clearErrs a b s)
  { s with
    sp := smPut 0 (smClear s.sp (a * 2 ^ 24) (b * 2 ^ 24)) (a * 2 ^ 24) d.sp,
    nodes := smPut [] (smClear s.nodes (a * 2 ^ 15) (b * 2 ^ 15)) (a * 2 ^ 15) d.nodes,
    planes := smPut noPlane (smClear s.planes (a * 4) (b * 4)) (a * 4) d.planes,
    hold := smPut [] (smClear s.hold (a * 2 ^ 10) (b * 2 ^ 10)) (a * 2 ^ 10) d.hold,
    tagtab := smPut 0 (smClear s.tagtab (a * 2 ^ 12) (b * 2 ^ 12)) (a * 2 ^ 12) d.tagtab,
    acc := smPut 0 (smClear s.acc (a * 2 ^ 19) (b * 2 ^ 19)) (a * 2 ^ 19) d.acc,
    csrow := smPut 0 (smClear s.csrow (a * 2 ^ 12) (b * 2 ^ 12)) (a * 2 ^ 12) d.csrow,
    cscol := smPut 0 (smClear s.cscol (a * 2 ^ 12) (b * 2 ^ 12)) (a * 2 ^ 12) d.cscol,
    active := smPut 0 (smClear s.active a b) a d.active,
    engs := smPut Eng.reset (smClear s.engs (a * 64) (b * 64)) (a * 64) d.engs,
    latches := smPut none (smClear s.latches (a * 16) (b * 16)) (a * 16) d.latches }

/-- Writes zeros over the scratchpad of the clusters of a block that last held another context's graph (R317). -/
def zeroOthers (c : Nat) : List Nat → State → State
  | [], s => s
  | i :: t, s =>
    if smGet 0 s.lastCtx i = c + 1 ∨ smGet 0 s.lastCtx i = 0 then zeroOthers c t s
    else zeroOthers c t { s with sp := smClear s.sp (i * 2 ^ 24) ((i + 1) * 2 ^ 24),
                                 spErr := smClear s.spErr (i * 2 ^ 21) ((i + 1) * 2 ^ 21) }

/-! ## The scratchpad section of a save frame (R323) -/

/-- The bytes of a save frame area that a region of `n` clusters needs, in MiB (R305). -/
def frameMib (n : Nat) : Nat := 1 + 24 * n

/-- The bytes of a save frame area that a region of `n` clusters needs. -/
def frameBytes (n : Nat) : Nat := frameMib n * 2 ^ 20

/-- The scratchpad section of a frame: its offset, the bytes of each cluster that it holds, and the clusters (R323). -/
structure SpSection where
  off : Nat
  per : Nat
  clusters : Nat
  deriving DecidableEq, Repr, Inhabited

/-- The bytes of the section. -/
def SpSection.size (z : SpSection) : Nat := z.per * z.clusters

/-- The place in a frame of a scratchpad byte of the region, by its relative key; nothing in a carve-out (R323). -/
def SpSection.place (z : SpSection) (key : Nat) : Option Nat :=
  if key % 2 ^ 24 < z.per then some (z.off + key / 2 ^ 24 * z.per + key % 2 ^ 24) else none

/-- The relative key of the scratchpad byte at a place of the section. -/
def SpSection.key (z : SpSection) (place : Nat) : Nat := (place - z.off) / z.per * 2 ^ 24 + (place - z.off) % z.per

/-- The section of a region's frame; its offset is not stated, but that the section lies in the area behind the header (R323;
log 6). -/
def spSection (n carve : Nat) (free : Word) : SpSection :=
  let per := 2 ^ 24 - carve
  { off := 256 + free.toNat % (frameBytes n - 256 - per * n + 1), per := per, clusters := n }

/-- The part of 64 KiB unit `i` of a frame that the section takes, from its first place to the one behind its last. -/
def SpSection.span (z : SpSection) (i : Nat) : Nat × Nat := (max z.off (i * 2 ^ 16), min (z.off + z.size) ((i + 1) * 2 ^ 16))

/-- What reaching a 64 KiB unit of a frame finds: its physical address, a window, the trap of a page-table entry, or that it
cannot be reached. -/
inductive FrameUnit where
  | at_ (pa : Nat)
  | window
  | bad (b : Bad)
  | closed
  deriving DecidableEq, Repr, Inhabited

/-- Reaches 64 KiB unit `i` of a frame, which is translated at its home (R332, R334, R336); an uncorrectable entry is logged
(R345). -/
def frameUnit (c base i : Nat) (wr : Bool) (s : State) : FrameUnit × State :=
  match (s.ctx c).toIa (!wr) wr (base + i * 2 ^ 16) with
  | .error _ => (.closed, s)
  | .ok ia => if inWindow ia then (.window, s) else
    let r := pageLook ia wr s
    match r.1 with
    | .leaf e => (.at_ (e.paOf ia), r.2)
    | .fault => (.closed, r.2)
    | .malformed pa => (.bad { code := trapMemWalk, report := pa }, r.2)
    | .ecc pa => (.bad { code := trapEccHbm, report := pa }, logEvent pa r.2)

/-- Reaches listed units of a frame. -/
def frameUnits (c base : Nat) (wr : Bool) : List Nat → State → List (Nat × FrameUnit) × State
  | [], s => ([], s)
  | i :: t, s =>
    let u := frameUnit c base i wr s
    let r := frameUnits c base wr t u.2
    ((i, u.1) :: r.1, r.2)

/-- The units of the frame of a region of `n` clusters. -/
def frameRange (n : Nat) : List Nat := List.range (frameMib n * 16)

/-- Whether a save or a restore reaches a unit for certain: it holds the header or bytes of the scratchpad section (R323). -/
def SpSection.needs (z : SpSection) (i : Nat) : Bool := decide (i = 0 ∨ (z.span i).1 < (z.span i).2)

/-- Writes the scratchpad bytes of one unit of a frame. -/
def saveUnit (z : SpSection) (sp : SMap Byte) (s : State) (u : Nat × FrameUnit) : State :=
  let p := z.span u.1
  match u.2 with
  | .window | .bad _ | .closed => s
  | .at_ pa =>
  if p.2 ≤ p.1 then s
  else
    let at_ := fun q => pa + (q - u.1 * 2 ^ 16)
    let cells := sp.filterMap fun b => match z.place b.1 with
      | some q => if p.1 ≤ q ∧ q < p.2 then some (at_ q, b.2) else none
      | none => none
    { s with
      hbm := smPut 0 (smClear s.hbm (at_ p.1) (at_ p.2)) 0 cells,
      hbmErr := smClear s.hbmErr ((at_ p.1 + 7) / 8) (at_ p.2 / 8) }

/-- What the reading of a frame has found: scratchpad bytes by relative key, the state, and the first trap. -/
structure FrameRead where
  sp : SMap Byte
  s : State
  bad : Option Bad
  deriving DecidableEq, Repr, Inhabited

/-- Reads the scratchpad bytes of one unit of a frame (R323, R344); a unit that cannot be reached keeps what was saved (log
6), and an entry of the page table that is malformed or uncorrectable is the trap of the restore (R334). -/
def loadUnit (z : SpSection) (r : FrameRead) (u : Nat × FrameUnit) : FrameRead :=
  let p := z.span u.1
  match u.2 with
  | .window | .closed => r
  | .bad b => { r with bad := r.bad.or (some b) }
  | .at_ pa =>
  if p.2 ≤ p.1 then r
  else
    let first := pa + (p.1 - u.1 * 2 ^ 16)
    let es := (r.s.hbmErr.filter fun e => decide (first / 8 ≤ e.1 ∧ e.1 * 8 < first + (p.2 - p.1))).map Prod.fst
    let e := es.foldl Ecc.word { m := r.s.hbm, errs := r.s.hbmErr, fixed := [], bad := [] }
    let inUnit := fun (k : Nat) => match z.place k with
      | some q => decide (p.1 ≤ q ∧ q < p.2)
      | none => false
    { sp := (smSlice e.m first (first + (p.2 - p.1))).foldl (fun m b => smSet 0 m (z.key (p.1 + b.1)) b.2)
        (r.sp.filter fun b => !inUnit b.1),
      s := { r.s with hbm := e.m, hbmErr := e.errs }.countCheck dieOf e,
      bad := r.bad.or (e.bad.head?.map fun w => { code := trapEccHbm, report := w }) }

/-- Reads the scratchpad section of a saved region back (R323). -/
def loadSp (c : Nat) (d : ClusterData) (n : Nat) (s : State) : FrameRead :=
  let z : SpSection := { off := d.spOff, per := 2 ^ 24 - d.carve, clusters := n }
  let us := frameUnits c d.frame false ((frameRange n).filter z.needs) s
  us.1.foldl (loadUnit z) { sp := d.sp, s := us.2, bad := none }

/-! ## Fresh launch (R317) -/

/-- The clusters of a block as a fresh launch leaves them before the program and image are written (R317). -/
def freshClusters (c a b carve : Nat) (s : State) : State :=
  let s := zeroOthers c (List.range' a (b - a)) s
  let s := takeBlock c a b carve s
  { s with
    hold := smClear s.hold (a * 2 ^ 10) (b * 2 ^ 10), tagtab := smClear s.tagtab (a * 2 ^ 12) (b * 2 ^ 12),
    tagErr := smClear s.tagErr (a * 2 ^ 12) (b * 2 ^ 12), engs := smClear s.engs (a * 64) (b * 64),
    latches := smClear s.latches (a * 16) (b * 16), active := smClear s.active a b,
    latchErr := smClear s.latchErr (latchErrKey (a * 16) 0) (latchErrKey (b * 16) 0) }

/-- Writes a list of bytes, lowest first. -/
def putBytes (m : SMap Byte) (a : Nat) : List Byte → SMap Byte
  | [] => m
  | b :: t => putBytes (smSet 0 m a b) (a + 1) t

/-- The context as a fresh launch leaves it on a block (R92, R302, R317, R318): `wins` gives the base and bound size of the
eight windows. -/
def freshCtx (t : Task) (r : LoadRecord) (first : Nat) (wins : List (Nat × Nat)) (x : Ctx) : Ctx :=
  let y : Ctx := { x with
    st := .running, task := some { t with placed := true, held := t.eff }, queue := x.queue.drop 1, cause := none,
    causeCode := 0, causeReason := 0, causeReport := 0, later := [], failed := none, cookieStop := none, faultGo := false,
    saved := none, ending := none, flags := 0, unmerged := 0, seed := t.seed, base := t.base, lsize := t.lsize, first := first,
    cm := r.cm.filter (5 ≤ ·.1), pm := r.pm.filter (5 ≤ ·.1), sys := (r.sys &&& 0xFFFFFFE0) ||| 0x10,
    ovfp := BitVec.ofNat 64 (r.ovBase / 2 ^ 16 % 2 ^ 32 * 2 ^ 16 + r.ovSize / 2 ^ 16 % 2 ^ 12 * 2 ^ 4),
    windows := wins.zipIdx.foldl (fun m w => smSet none m w.2 (if w.1.2 = 0 then none else some w.1)) [],
    maskCount := [], bindings := [], apply := none, tbinds := [],
    spaces := r.descs.zipIdx.foldl (fun m d => smSet SpaceDesc.none m d.2 d.1) [], rings := [], slots := [],
    seq := Seq.reset.point (BitVec.ofNat 64 (t.base * 2 ^ 24 + 4 * t.entry)), fab := Fabric.reset }
  { y with
    tiles := if t.consume then x.tiles &&& ~~~t.inmask else x.tiles
    fab := { Fabric.reset with bars := y.barsOf r.arrivers } }

/-- The first configuration image of a load record as the scheduler reads its header: its fold and identity, or that it is
none (R290, R317). -/
def imgIdent (ws : List Nat) : Nat × Nat := (ws.getD 2 0 % 256, ws.getD 0 0 + ws.getD 1 0 * 2 ^ 32)

/-- A launched graph traps before its first instruction: its first image is not legal or cannot be read (R10, R104, R317). -/
def launchTrap (c code report : Nat) (s : State) : State :=
  seqTrap c code 0 (s.seq c).addr (BitVec.ofNat 64 report) s

/-- The first image enters planes 0 up of a launched region, unless they hold it (R104, R317). -/
def loadFirst (c va : Nat) (ws : List Nat) (s : State) : Out :=
  let x := s.ctx c
  let f := (imgIdent ws).1
  match imgHeadBad ws with
  | some w => .next (launchTrap c trapOpIll (va + 4 * w) s)
  | none =>
    if bits (ws.getD 2 0) 31 16 ≠ x.size then .next (launchTrap c trapSeqPlane va s)
    else if s.resident x 0 f va (imgIdent ws).2 then .next s
    else match readWords c (.sched c true) 0 (va + 64) (4 * (x.size * f)) s with
      | .stall s => .next s
      | .bad b s => .next (launchTrap c b.code b.report s)
      | .ok ds s =>
        match readParts c (.sched c true) 0 va f 0 (descsOf 0 ds) { nodes := [], holds := [], offs := [] } s with
        | .stall s => .next s
        | .bad b s => .next (launchTrap c b.code b.report s)
        | .ill w s => .next (launchTrap c trapOpIll (va + 4 * w) s)
        | .ok d s => match destsBad d x.size with
          | some w => .next (launchTrap c trapOpIll (va + 4 * w) s)
          | none => .next (finishLoad x
              { addr := va, ident := (imgIdent ws).2, plane := 0, fold := f, nodes := d.nodes, holds := d.holds, dropped := false } s)

/-- Whether a launch would still wait for a translation of its first image: the pages of an image that no wait holds back
are all in the TLB (R317, R335). -/
def imageWait (c va : Nat) (s : State) : Option State :=
  match readWords c (.sched c true) 0 va 16 s with
  | .stall t => some { s with misses := t.misses }
  | .bad _ _ => none
  | .ok ws _ =>
    let f := (imgIdent ws).1
    if (imgHeadBad ws).isSome then none
    else match readWords c (.sched c true) 0 (va + 64) (4 * (bits (ws.getD 2 0) 31 16 * f)) s with
      | .stall t => some { s with misses := t.misses }
      | .bad _ _ => none
      | .ok ds _ =>
        match readParts c (.sched c true) 0 va f 0 (descsOf 0 ds) { nodes := [], holds := [], offs := [] } s with
        | .stall t => some { s with misses := t.misses }
        | .bad _ _ | .ill _ _ | .ok _ _ => none

/-- The images of the load record that a task names, where the record stands (R285). -/
def State.imagesOf (s : State) (c : Nat) (t : Task) : List Nat :=
  match (s.ctx c).toIa true false t.record with
  | .ok ia => match smGet none (s.records.map fun e => (e.1, some e.2)) ia with
    | some r => r.images
    | none => []
  | .error _ => []

/-- The free block that a placement takes: one whose planes hold the record's first image, else the lowest (R316). -/
def State.pickBlock (s : State) (c : Nat) (t : Task) (images : List Nat) : Option Nat :=
  let free := (blocksOf t.lsize).filter (s.blockFree (2 ^ t.lsize))
  let holds := fun (k : Nat) => match images with
    | [] => false
    | va :: _ => match readWords c (.sched c true) 0 va 16 s with
      | .ok ws _ => s.resident { s.ctx c with first := k, lsize := t.lsize } 0 (imgIdent ws).1 va (imgIdent ws).2
      | .stall _ | .bad _ _ => false
  (free.find? holds).or free.head?

/-- The windows of a launch: the window table's entries, or the load record's image (R302, R307). -/
def winsOf (t : Task) (r : LoadRecord) (es : List Nat) : List (Nat × Nat) :=
  if t.wtab = 0 then r.winImage else es.map fun e => (e % 2 ^ 64, e / 2 ^ 64)

/-- A fresh launch on a block (R317). -/
def freshLaunch (c first : Nat) (t : Task) (r : LoadRecord) (wins : List (Nat × Nat)) (s : State) : Out :=
  let s := freshClusters c first (first + 2 ^ t.lsize) r.ovStore s
  let s : State := { s with
    sp := putBytes s.sp (first * 2 ^ 24) r.program,
    spErr := smClear s.spErr (first * 2 ^ 21) (first * 2 ^ 21 + r.program.length / 8), lastPlaced := c }
  let s := s.modCtx c (freshCtx t r first wins)
  match r.images with
  | [] => .next s
  | va :: _ => match readWords c (.sched c true) 0 va 16 s with
    | .ok ws s => loadFirst c va ws s
    | .bad b s => .next (launchTrap c b.code b.report s)
    | .stall s => .next s

/-- The check of a task before its fresh launch: one that no longer passes leaves the queue with a kind 2 token (R308; log
26). -/
def dropTask (c code reason : Nat) (report : Word) (t : Task) (s : State) : State :=
  refuse c code reason report t.cookie (s.modCtx c Ctx.dropHead)

/-- The placement of a task that has not run (R316, R317); it is held while an installation waits (R295, R361). -/
def placeFresh (c : Nat) (t : Task) (s : State) : Out :=
  if s.sec.installing ≠ 0 then .next s
  else match taskCheck c (.sched c true) t s with
  | .stall s => .next s
  | .refuse code reason report s => .next (dropTask c code reason report t s)
  | .ok r s =>
    match (if t.wtab = 0 then WinRes.ok [] s else readWtab c (.sched c true) 0 t.wtab (List.range 8) s) with
    | .stall s => .next s
    | .bad b s => .next (dropTask c (readRefusal b).1 (readRefusal b).2 (BitVec.ofNat 64 b.report) t s)
    | .ok es s =>
      match (r.images.head?.bind fun va => imageWait c va s), s.pickBlock c t r.images with
      | some s, _ => .next s
      | none, none => .next s
      | none, some first => freshLaunch c first t r (winsOf t r es) s

/-! ## Restore (R122, R323, R339) -/

/-- Where a restored sequencer goes on (R122, R339): the plain continuation at seq.epc, or the handler's entry, which is
checked before h is set. -/
def resumeSeq (c : Nat) (handler : Bool) (s : State) : State :=
  let x := s.ctx c
  if !handler then s.modSeq c fun q => { q.point q.epc with phase := .ready }
  else if x.seq.tvec.toNat < 2 ^ 30 && x.inBlock (x.spAddr x.seq.tvec.toNat / 2 ^ 24) &&
      !s.carved (x.spAddr x.seq.tvec.toNat + 3) then
    (s.modSeq c fun q => { q.point q.tvec with phase := .ready, h := true, counted := false }).modFab c fun f =>
      { f with heldFences := f.heldFences.erase none }
  else endGraph c 2 trapSeqPc 0 0 x.seq.tvec 0 (s.modSeq c fun q => q.trapped trapSeqPc 0 q.tvec q.tvec)

/-- A restored sequencer goes on, unless a trap had met the drain: the first one is raised now, with its seq.cause and
seq.tval, the sequencer stays where it stopped, and the others wait for the next resume (R95, R322, R343, R349; log 121). -/
def resumeRaised (c : Nat) (handler : Bool) (s : State) : State :=
  match (s.ctx c).later with
  | [] => resumeSeq c handler s
  | (code, reason, report) :: rest =>
    outcome c code reason report (s.modCtx c fun x => { x with
      later := rest, seq := { x.seq with cause := causeWord code reason, tval := report } })

/-- Whether the choice of a block still waits for a translation of the first image's header (R316, R335). -/
def headerWait (c : Nat) (images : List Nat) (s : State) : Option State :=
  match images with
  | [] => none
  | va :: _ => match readWords c (.sched c true) 0 va 16 s with
    | .stall t => some { s with misses := t.misses }
    | .bad _ _ | .ok _ _ => none

/-- The placement of a task that was pre-empted: its saved clusters come back on a free block, the scratchpad from its frame,
where an uncorrectable word is ECC.HBM (R316, R323, R344). -/
def placeSaved (c : Nat) (t : Task) (d : ClusterData) (s : State) : Out :=
  match headerWait c (s.imagesOf c t) s, s.pickBlock c t (s.imagesOf c t) with
  | some s, _ => .next s
  | none, none => .next s
  | none, some first =>
    let s := s.modCtx c fun x => { x with
      st := .running, task := some { t with held := t.eff }, queue := x.queue.drop 1, first := first, saved := none,
      cause := none, causeCode := 0, causeReason := 0, causeReport := 0, cookieStop := none, faultGo := false }
    let r := loadSp c d (2 ^ t.lsize) s
    let s : State := { restoreClusters c (s.ctx c) { d with sp := r.sp } r.s with lastPlaced := c }
    match r.bad with
    | some b => .next (nodeTrap c b.code 0 (BitVec.ofNat 64 b.report) s)
    | none => .next (resumeRaised c t.handler s)

/-- TASK_PLACE: the scheduler places the first ready task of R316 on a free block, by a fresh launch or a restore. -/
def execTaskPlace (s : State) : Out :=
  match s.topTask with
  | none => .next s
  | some (c, t) => match (s.ctx c).saved with
    | some d => placeSaved c t d s
    | none => placeFresh c t s

/-! ## Pre-emption requests (R316, R320) -/

/-- The contexts that run or drain in a block. -/
def State.runsIn (s : State) (n k : Nat) : List (Nat × Ctx) :=
  s.ctxs.filter fun e => e.2.live && decide (k < e.2.first + e.2.size ∧ e.2.first < k + n)

/-- Whether every running task of a block has a held priority below `p`. -/
def State.yields (s : State) (n p k : Nat) : Bool :=
  (s.runsIn n k).all fun e => decide ((e.2.task.map (·.held)).getD 0 < p)

/-- PREEMPT_REQUEST: the first ready task, when no block is free for it, requests the pre-emption of the running tasks of
the lowest block in which each has a lower held priority (R316, R320). -/
def execPreemptRequest (s : State) : Out :=
  match s.topTask with
  | none => .next s
  | some (_, t) =>
    let n := 2 ^ t.lsize
    if !s.preempt || (blocksOf t.lsize).any (s.blockFree n) then .next s
    else match (blocksOf t.lsize).find? (s.yields n t.eff) with
      | none => .next s
      | some k => .next ((s.runsIn n k).foldl (fun s e => beginDrain e.1 .priority 0 0 0 s) s)

/-! ## The end of a drain (R320 to R323) -/

/-- Whether a firing is at rest for a save frame: held, or waiting for something other than its pipeline (R321). -/
def Phase.atRest : Phase → Bool
  | .run | .granted _ | .freed _ | .emit _ => false
  | .waitAlloc | .waitFree | .waitMem | .waitAccept | .waitPairs | .waitInbox | .waitFence _ | .waitPhase _ _ | .held _ => true

/-- Whether the sequencer stands at a fence (R112). -/
def State.atFence (s : State) (x : Ctx) : Bool :=
  match decodeSeq (s.seqWord x) with
  | .ok (.fence _) | .ok (.fenceAcq _) | .ok (.fenceRel _) => true
  | _ => false

/-- Whether a page fault holds accesses of a draining region: it is the cause, or one met while the region drains for another
(R322, R339). -/
def Ctx.pageHeld (x : Ctx) : Bool := decide (x.cause = some .page) || x.faultPend

/-- Whether the sequencer of a draining region has stopped (R113, R321), or waits at issue, or at a fence, for its own access
or engine command that a page fault holds (R112; log 25). -/
def State.seqAtRest (s : State) (c : Nat) : Bool :=
  let x := s.ctx c
  decide (x.seq.phase = .stopped) ||
    (x.pageHeld && decide (x.seq.phase = .ready) && (decide (waitReg s x ≠ 0) || s.atFence x) &&
      (s.seqPending c (fun _ => true) || s.hasCmd c true))

/-- Whether an engine's command in progress waits at an access that a page fault holds (R188, R339). -/
def Run.parked (e : EngRef) (r : Run) (s : State) : Bool :=
  decide (r.phase = .working ∧ r.todo ≠ []) && match unitStep r.cmd.from_.ctx e r.got s r.todo with
    | .stall _ => true
    | .ok _ _ _ | .bad _ _ => false

/-- Whether the follow-on that an engine holds waits for room in an inbox (R185). -/
def State.followStuck (s : State) (k : Cmd) : Bool :=
  decide (inboxRoom ≤ (s.eng (engOf (s.ctx k.from_.ctx) k.hdr)).inbox.length)

/-- Whether an engine's commands of a context may stand unperformed in its save frame, after a page fault: the one in progress
waits at its access, or at its commit behind a held follow-on, or the next waits for accesses before its start; what follows
waits behind it (R188, R252, R321, R339). -/
def State.engParked (s : State) (e : EngRef) (g : Eng) : Bool :=
  (match g.run with
    | some r => r.parked e s || (decide (r.phase = .finished ∧ r.cmd.hdr.next ≠ 0) && g.follow.isSome)
    | none => match g.inbox with
      | k :: _ => !s.depsDone k.from_.ctx k.from_.deps
      | [] => decide (g.waiting = [])) &&
    g.follow.all s.followStuck

/-- The engine with a key. -/
def engOfKey (k : Nat) : EngRef :=
  { cluster := Fin.ofNat 64 (k / 64), cls := (EngClass.ofCode? (k / 16 % 4)).getD .copy, unit := Fin.ofNat 16 (k % 16) }

/-- Whether the engines of a draining region allow the save (R188, R321, R339): they hold no command of it, or only such as a
page fault holds. -/
def State.engsAtRest (s : State) (c : Nat) : Bool :=
  s.engs.all fun e =>
    !e.2.cmds.any (fun k => decide (k.from_.ctx = c)) || ((s.ctx c).pageHeld && s.engParked (engOfKey e.1) e.2)

/-- Whether a pending producer waits for loads, which a page fault may hold. -/
def LongWrite.isLoads (l : LongWrite) : Bool := match l.src with | .loads _ _ => true | .value _ | .estat _ => false

/-- Whether the sequencer's accesses and pending writes allow the save (R321, R323): a save frame keeps accesses of memory
nodes only, so they are performed and have landed, but for those that a page fault holds; a pending sample of estat has
landed from the engine it was sent to (R109, R318). -/
def State.seqLanded (s : State) (c : Nat) : Bool :=
  let x := s.ctx c
  let page := x.pageHeld
  x.seq.long.all (fun l => page && l.isLoads) && (page || !s.seqPending c fun _ => true)

/-- Whether the accesses of a draining region's firings allow the save (R321, R339): each is in a memory node, waits outside
it for earlier accesses, or waits behind accesses that a page fault holds. -/
def State.accsAtRest (s : State) (c : Nat) : Bool :=
  let x := s.ctx c
  x.pageHeld || x.fab.accesses.all fun a => a.accepted || !s.depsEntered c a

/-- Whether everything of a draining region but its elements is at rest (R321). -/
def State.restAtRest (s : State) (c : Nat) : Bool :=
  let f := s.fab c
  f.firings.all (fun g => g.phase.atRest || s.parks c g) && s.accsAtRest c && decide (f.loads = []) && s.seqAtRest c &&
    s.seqLanded c && s.engsAtRest c

/-- Whether the loop of an inner space has exited and can be entered no more: none of its invocations is in progress, and
every node that opens one is frozen with no firing (R36, R153). -/
def State.loopOver (s : State) (x : Ctx) (sp : Nat) : Bool :=
  decide (smGet 0 x.fab.loops sp = 0) && (s.periodRefs x).all fun r => match s.nodeImg x r with
    | some m => match m.last with
      | some (.alloc _) => decide (m.link / 2 ^ 24 ≠ sp) ||
          (s.frozen x r && x.fab.firings.all fun g => decide (g.ref ≠ r))
      | _ => true
    | none => true

/-- The lowest gate that holds markers and whose loop has exited: the markers pass it (R36; log 28). -/
def State.exitedGate (s : State) (c : Nat) : Option (NodeRef × NodeImg) :=
  let x := s.ctx c
  (s.periodRefs x).findSome? fun r => match s.nodeImg x r with
    | some m =>
      if m.isGate ∧ smGet 0 x.fab.heldMarks r.key ≠ 0 ∧ smGet 0 x.fab.passed r.key = 0 ∧ s.loopOver x m.head.space then
        some (r, m) else none
    | none => none

/-- The elements of a region are all frozen (R321). -/
def State.allFrozen (s : State) (x : Ctx) : Bool := (s.periodRefs x).all (s.frozen x)

/-- The word with the magic number, version, region size and cause of a save frame (R323). -/
def DrainCause.code : DrainCause → Nat
  | .priority => 1 | .stop => 2 | .trap => 3 | .page => 4 | .freeze => 5

/-- The header of a save frame; where its sections lie, and the sizes of all but the scratchpad's, are not stated (R323; log
6). -/
def frameHeader (x : Ctx) (z : SpSection) (u : Nat) : List Word :=
  let cause := (x.cause.map DrainCause.code).getD 0
  let code := if cause = 1 ∨ cause = 2 then 0 else if cause = 4 then trapMemPage else x.causeCode + x.causeReason * 2 ^ 16
  [BitVec.ofNat 64 (0x4D524653 + 2 ^ 32 + x.lsize * 2 ^ 48 + cause * 2 ^ 56), BitVec.ofNat 64 code, BitVec.ofNat 64 x.base, 0] ++
    (List.range 18).map (fun i => Config.sectionWord (u + i)) ++ [BitVec.ofNat 64 z.off, BitVec.ofNat 64 z.size] ++
    List.replicate 8 0

/-- The section that a context's next save writes. -/
def State.spSectionOf (s : State) (x : Ctx) : SpSection :=
  spSection x.size (s.carveOf x.first) (Config.sectionWord (s.frees + 18))

/-- The trap of a unit that a save frame needs and cannot write: the one of an uncorrectable page-table entry, else SCHED.SAVE
(R341, R344). -/
def FrameUnit.saveBad (u : FrameUnit) : Option Bad :=
  match u with
  | .at_ _ | .window => none
  | .bad b => some (if b.code = trapEccHbm then b else { code := trapSchedSave, report := 0 })
  | .closed => some { code := trapSchedSave, report := 0 }

/-- The write of a save frame (R323, R341): its header and its scratchpad section, and the trap of a part that could not be
written.  Whether the frame reaches the units of the area that hold neither is not stated (log 6). -/
def writeFrame (c : Nat) (s : State) : State × Option Bad :=
  let x := s.ctx c
  let base := bits x.save.toNat 47 16 * 2 ^ 16
  let u := s.frees
  let z := s.spSectionOf x
  let sp := smSlice s.sp (x.first * 2 ^ 24) ((x.first + x.size) * 2 ^ 24)
  let us := frameUnits c base true
    ((frameRange x.size).filter fun i => z.needs i || (Config.unstated (u + 20)).getLsbD 0) { s with frees := u + 21 }
  match us.1.findSome? fun e => e.2.saveBad with
  | some b => (us.2, some b)
  | none =>
    let r := writeVaWords c base (frameHeader x z u) us.2
    (us.1.foldl (saveUnit z sp) r.1, if r.2 then none else some { code := trapSchedSave, report := 0 })

/-- The uncorrectable word that the save of a region reads, by the trap it raises (R344); single-bit errors are corrected. -/
def saveEcc (x : Ctx) (s : State) : Option Bad × State :=
  let a := x.first
  let b := x.first + x.size
  let es := s.spErr.filter fun e => decide (a * 2 ^ 21 ≤ e.1 ∧ e.1 < b * 2 ^ 21) && !s.carved (8 * e.1)
  let e := (es.map Prod.fst).foldl Ecc.word { m := s.sp, errs := s.spErr, fixed := [], bad := [] }
  let ts := s.tagErr.filter fun t => decide (a * 2 ^ 12 ≤ t.1 ∧ t.1 < b * 2 ^ 12)
  let one := ts.filter fun t => decide (popWord (BitVec.ofNat 64 t.2) = 1)
  let tbad := ts.filter fun t => decide (1 < popWord (BitVec.ofNat 64 t.2))
  let ls := s.latchErr.filter fun l => decide (latchErrKey (a * 16) 0 ≤ l.1 ∧ l.1 < latchErrKey (b * 16) 0)
  let lbad := ls.filter fun l => decide (1 < popWord (BitVec.ofNat 64 l.2))
  let ws := x.fab.waiting.filter fun w => decide (w.err ≠ 0 ∧ w.place ≠ .area)
  let wbad := ws.filter fun w => decide (1 < popWord (BitVec.ofNat 64 w.err))
  let ldie := fun (l : Nat × Nat) => l.1 / latchErrKey 128 0
  let t : State := { s with
    sp := e.m, spErr := e.errs,
    tagtab := one.foldl (fun m t => smSet 0 m t.1 (smGet 0 m t.1 ^^^ BitVec.ofNat 63 t.2)) s.tagtab,
    tagErr := one.foldl (fun m t => smSet 0 m t.1 0) s.tagErr }
  let t := (t.countCheck spDie e).countWords id
    (one.map (·.1 / 2 ^ 15) ++ (ls.filter fun l => !lbad.contains l).map ldie)
    (tbad.map (·.1 / 2 ^ 15) ++ lbad.map ldie)
  let t := t.countOperands x ws
  match e.bad.head?, tbad.head? with
  | some w, _ => (some { code := trapEccSp, report := w }, t)
  | none, some k => (some { code := trapEccSp, report := (tagReport (k.1 / 4096) (k.1 / 64 % 64) (k.1 % 64)).toNat }, t)
  | none, none => match lbad.head? with
    | some k => (some { code := trapEccLatch, report := (latchReport (k.1 / latchErrKey 1 0)).toNat }, t)
    | none => match wbad.head? with
      | some w => (some { code := w.place.trap, report :=
          (Config.eccReport w.place.trap [a + w.tok.dest.cl, w.tok.dest.pe, x.fab.waiting.idxOf w]).toNat }, t)
      | none => (none, t)

/-- The fabric that a save frame holds: markers are spent, held firings go on at the resume, the accesses that stand in
memory nodes are replayed first, then the fences that wait, the sequencer's among them where it stands at one, and the
operands read into the frame are corrected (R255, R320, R339, R344, R347). -/
def Fabric.frozenAs (f : Fabric) (seqFence : Bool) : Fabric :=
  { f with
    heldFences := (if seqFence then [none] else []) ++ (f.firings.filter (·.phase.fences)).map fun g => some g.id,
    accesses := f.accesses.map fun a => { a with replay := a.accepted && decide (a.agent ≠ .seq) },
    waiting := f.waiting.map fun w => if w.place = .area then w else { w with err := 0 },
    draining := false, markers := [], heldMarks := [], passed := [], stopped := [],
    chan := f.chan.filter fun t => decide (t.kind ≠ .marker),
    firings := f.firings.map fun g => match g.phase with
      | .held (some outs) => { g with phase := .emit outs }
      | .held none => { g with phase := .run }
      | .run | .granted _ | .freed _ | .emit _ | .waitAlloc | .waitFree | .waitMem | .waitAccept | .waitPairs | .waitInbox
      | .waitFence _ | .waitPhase _ _ => g }

/-- The state of a context whose drain is complete (R310, R323, R329, R339): Queued after a pre-emption request or a page
fault that go has released, unless a stop token was absorbed; else Suspended with a kind 3 token. -/
def drainEnd (c : Nat) (s : State) : State :=
  let x := s.ctx c
  let cookie := (x.task.map (·.cookie)).getD 0
  let seqno := (x.task.map (·.seqno)).getD 0
  let released := decide (x.cause = some .priority ∨ (x.cause = some .page ∧ x.faultGo = true))
  if released ∧ x.cookieStop = none then s.setCtx c { x.requeue false with faultGo := false }
  else
    let page := decide (x.cause = some .page ∧ x.faultGo = false)
    let t : Completion :=
      if page then pageToken x seqno (x.cookieStop.getD cookie)
      else { kind := 3, code := x.causeCode, reason := x.causeReason, value := 0, flags := x.flags.setWidth 64,
             report := x.causeReport, extra := 0, cookie := x.cookieStop.getD cookie, seqno := seqno }
    egressSend c t (s.setCtx c { x with
      st := .suspended, cause := if released then some .stop else x.cause, cookieStop := none, faultGo := false })

/-- The save of a region whose drain is complete (R305, R323): SCHED.SAVE where the area is too small or cannot be written,
an ECC trap where a word cannot be read, else the frame and the next state. -/
def saveRegion (c : Nat) (s : State) : State :=
  let x := s.ctx c
  if bits x.save.toNat 15 4 < frameMib x.size then graphTrap c trapSchedSave 0 0 0 0 s
  else
    let e := saveEcc x s
    match e.1 with
    | some b => nodeTrap c b.code 0 (BitVec.ofNat 64 b.report) e.2
    | none =>
      let w := writeFrame c e.2
      match w.2 with
      | some b =>
        if b.code = trapSchedSave then graphTrap c trapSchedSave 0 0 0 0 w.1
        else nodeTrap c b.code 0 (BitVec.ofNat 64 b.report) w.1
      | none =>
        let s := settleFlags c w.1
        let d : ClusterData := { saveClusters (s.ctx c) s with spOff := (e.2.spSectionOf x).off }
        let s : State := { s with
          engs := smClear s.engs (x.first * 64) ((x.first + x.size) * 64),
          misses := s.misses.filter fun m => decide (s.whoCtx m.who ≠ some c),
          faultToks := s.faultToks.filter fun m => decide (s.whoCtx m.who ≠ some c) }
        drainEnd c (s.modCtx c fun x => { x with
          saved := some d, fab := x.fab.frozenAs (s.atFence x),
          seq := if x.seq.phase = SeqPhase.stopped then x.seq else { x.seq with phase := .stopped, epc := epcWord x.seq.addr } }.count
            statPreempt 1)

/-- DRAIN_COMPLETE: once every element is frozen and all else is at rest, the region's state is saved (R321, R323); markers
that a gate holds pass it once its loop has exited (R36; log 28). -/
def execDrainComplete (c : CtxId) (s : State) : Out :=
  let x := s.ctx c.val
  if x.st ≠ .draining then .next s
  else if s.allFrozen x && s.restAtRest c.val then .next (saveRegion c.val s)
  else match s.exitedGate c.val with
    | none => .next s
    | some (r, m) => .next ((sendMarkers c.val r m s).modFab c.val fun f => { f with
        heldMarks := smSet 0 f.heldMarks r.key 0, passed := smSet 0 f.passed r.key 1 })

/-! ## Retirement (R326, R327) -/

/-- Whether a retiring context has completed what precedes its token: its engine commands have committed and its accepted
accesses are performed (R124, R326). -/
def State.ended (s : State) (c : Nat) : Bool := decide ((s.fab c).accesses = []) && !s.hasCmd c false

/-- The output tiles of a graph that retires successfully become resident, once (R312, R326). -/
def setOutputs (c : Nat) (t : Completion) (s : State) : State :=
  match (s.ctx c).task with
  | none => s
  | some k =>
    if t.kind ≠ 1 ∨ k.outmask = 0 then s
    else markTiles c k.outmask 0 (s.modCtx c fun x => { x with task := some { k with outmask := 0 } })

/-- A context whose completion token is written (R310). -/
def Ctx.idleAgain (x : Ctx) : Ctx :=
  { x with
    st := if x.queue = [] then .idle else .queued, task := none, ending := none, saved := none, unmerged := 0,
    fab := { Fabric.reset with bars := x.fab.bars }, seq := { x.seq with phase := .stopped } }

/-- COMPLETION_TOKEN_WRITE: earlier tokens of the context are written first; then a retiring context sets its output tiles
and, once the ring has room, writes its token and leaves Retiring (R310, R312, R326, R327). -/
def execCompletionTokenWrite (c : CtxId) (s : State) : Out :=
  let x := s.ctx c.val
  match x.outbox with
  | t :: rest =>
    if x.egressRoom then .next (egressWrite c.val t (s.setCtx c.val { x with outbox := rest })) else .next s
  | [] =>
    match x.ending with
    | none => .next s
    | some t =>
      if x.st ≠ .retiring ∨ !s.ended c.val then .next s
      else
        let s := setOutputs c.val t s
        if !(s.ctx c.val).egressRoom ∨ (s.ctx c.val).outbox ≠ [] then .next s
        else
          let s := settleFlags c.val s
          let t := { t with flags := (s.ctx c.val).flags.setWidth 64 }
          .next ((egressWrite c.val t s).modCtx c.val Ctx.idleAgain)

end Sys2Proof.Machine
end

