-- ==== Sys2Proof/Machine/SeqAlu.lean ====
section
/-! DEFINITION. The meanings of the sequencer's arithmetic: the ALU group (R97), the immediate forms (R98) and the moves
(R99).  None sets a flag or raises a trap of its own; each retires with its boundary processing (R102). -/

namespace Sys2Proof.Machine

open Sys2Proof

/-- 1 or 0 (R97). -/
def boolWord (b : Bool) : Word := if b then 1 else 0

/-- The shift amount of a register: its low six bits (R97). -/
def shiftOf (b : Word) : Nat := b.toNat % 64

/-- The high 64 bits of the signed product (R97). -/
def mulHigh (a b : Word) : Word := BitVec.ofInt 64 (a.toInt * b.toInt / 2 ^ 64)

/-- The high 64 bits of the unsigned product (R97). -/
def mulHighN (a b : Word) : Word := BitVec.ofNat 64 (a.toNat * b.toNat / 2 ^ 64)

/-- An ALU operation of two registers (R97). -/
def alu2 (d a b : SReg) (ea eb : Bool) (s : State) (f : Word → Word → Word) : Out :=
  seqAlu [(a, ea), (b, eb)] d s fun q => f (q.rd a) (q.rd b)

/-- An ALU operation of a register and an immediate (R98). -/
def aluImm (d a : SReg) (e : Bool) (s : State) (f : Word → Word) : Out :=
  seqAlu [(a, e)] d s fun q => f (q.rd a)

/-- add (R97). -/
def execAdd (d a b : SReg) (ea eb : Bool) (s : State) : Out := alu2 d a b ea eb s fun x y => x + y
/-- sub (R97). -/
def execSub (d a b : SReg) (ea eb : Bool) (s : State) : Out := alu2 d a b ea eb s fun x y => x - y
/-- mul (R97). -/
def execMul (d a b : SReg) (ea eb : Bool) (s : State) : Out := alu2 d a b ea eb s fun x y => x * y
/-- mulh (R97). -/
def execMulh (d a b : SReg) (ea eb : Bool) (s : State) : Out := alu2 d a b ea eb s mulHigh
/-- mulhn (R97). -/
def execMulhn (d a b : SReg) (ea eb : Bool) (s : State) : Out := alu2 d a b ea eb s mulHighN
/-- and (R97). -/
def execAnd (d a b : SReg) (ea eb : Bool) (s : State) : Out := alu2 d a b ea eb s fun x y => x &&& y
/-- or (R97). -/
def execOr (d a b : SReg) (ea eb : Bool) (s : State) : Out := alu2 d a b ea eb s fun x y => x ||| y
/-- xor (R97). -/
def execXor (d a b : SReg) (ea eb : Bool) (s : State) : Out := alu2 d a b ea eb s fun x y => x ^^^ y
/-- sll (R97). -/
def execSll (d a b : SReg) (ea eb : Bool) (s : State) : Out := alu2 d a b ea eb s fun x y => x <<< shiftOf y
/-- srl (R97). -/
def execSrl (d a b : SReg) (ea eb : Bool) (s : State) : Out := alu2 d a b ea eb s fun x y => x >>> shiftOf y
/-- sra (R97). -/
def execSra (d a b : SReg) (ea eb : Bool) (s : State) : Out := alu2 d a b ea eb s fun x y => x.sshiftRight (shiftOf y)
/-- slt (R97). -/
def execSlt (d a b : SReg) (ea eb : Bool) (s : State) : Out := alu2 d a b ea eb s fun x y => boolWord (x.slt y)
/-- sltn (R97). -/
def execSltn (d a b : SReg) (ea eb : Bool) (s : State) : Out := alu2 d a b ea eb s fun x y => boolWord (x.ult y)
/-- seq (R97). -/
def execSeq (d a b : SReg) (ea eb : Bool) (s : State) : Out := alu2 d a b ea eb s fun x y => boolWord (x == y)
/-- min (R97). -/
def execMin (d a b : SReg) (ea eb : Bool) (s : State) : Out := alu2 d a b ea eb s fun x y => if x.sle y then x else y
/-- max (R97). -/
def execMax (d a b : SReg) (ea eb : Bool) (s : State) : Out := alu2 d a b ea eb s fun x y => if y.sle x then x else y
/-- minn (R97). -/
def execMinn (d a b : SReg) (ea eb : Bool) (s : State) : Out := alu2 d a b ea eb s fun x y => if x.ule y then x else y
/-- maxn (R97). -/
def execMaxn (d a b : SReg) (ea eb : Bool) (s : State) : Out := alu2 d a b ea eb s fun x y => if y.ule x then x else y

/-- addi: a sign-extended immediate (R62, R98). -/
def execAddi (d a : SReg) (e : Bool) (i : BitVec 15) (s : State) : Out := aluImm d a e s fun x => x + i.signExtend 64
/-- andi: a zero-extended immediate (R62, R98). -/
def execAndi (d a : SReg) (e : Bool) (i : BitVec 15) (s : State) : Out := aluImm d a e s fun x => x &&& i.zeroExtend 64
/-- ori: a zero-extended immediate (R62, R98). -/
def execOri (d a : SReg) (e : Bool) (i : BitVec 15) (s : State) : Out := aluImm d a e s fun x => x ||| i.zeroExtend 64
/-- xori: a zero-extended immediate (R62, R98). -/
def execXori (d a : SReg) (e : Bool) (i : BitVec 15) (s : State) : Out := aluImm d a e s fun x => x ^^^ i.zeroExtend 64
/-- slli (R62, R98). -/
def execSlli (d a : SReg) (e : Bool) (n : Fin 64) (s : State) : Out := aluImm d a e s fun x => x <<< n.val
/-- srli (R62, R98). -/
def execSrli (d a : SReg) (e : Bool) (n : Fin 64) (s : State) : Out := aluImm d a e s fun x => x >>> n.val
/-- srai (R62, R98). -/
def execSrai (d a : SReg) (e : Bool) (n : Fin 64) (s : State) : Out := aluImm d a e s fun x => x.sshiftRight n.val
/-- slti: a sign-extended immediate (R98). -/
def execSlti (d a : SReg) (e : Bool) (i : BitVec 15) (s : State) : Out :=
  aluImm d a e s fun x => boolWord (x.slt (i.signExtend 64))
/-- sltni: unsigned against the sign-extended immediate (R98). -/
def execSltni (d a : SReg) (e : Bool) (i : BitVec 15) (s : State) : Out :=
  aluImm d a e s fun x => boolWord (x.ult (i.signExtend 64))
/-- seqi: a sign-extended immediate (R98). -/
def execSeqi (d a : SReg) (e : Bool) (i : BitVec 15) (s : State) : Out :=
  aluImm d a e s fun x => boolWord (x == i.signExtend 64)

/-- movz: the immediate at quarter q, the other bits 0 (R99). -/
def execMovz (d : SReg) (q : Fin 4) (i : BitVec 16) (s : State) : Out :=
  seqAlu [] d s fun _ => i.zeroExtend 64 <<< (16 * q.val)

/-- movk: quarter q of d replaced, the other 48 bits kept; it waits while d is empty (R61, R99). -/
def execMovk (d : SReg) (q : Fin 4) (i : BitVec 16) (s : State) : Out :=
  seqAlu [(d, false)] d s fun r =>
    (r.rd d &&& ~~~((0xFFFF : Word) <<< (16 * q.val))) ||| (i.zeroExtend 64 <<< (16 * q.val))

end Sys2Proof.Machine
end

