-- ==== Sys2Proof/Machine/SeqFlow.lean ====
section
/-! DEFINITION. The meanings of the sequencer's control transfer (R100), hardware loops (R101), traps, handler return and
breakpoints (R121 to R123), and the illegal word (R67). -/

namespace Sys2Proof.Machine

open Sys2Proof

/-- The target of an offset in words from the instruction's own address (R62, R100). -/
def wordTarget {w : Nat} (pc : Word) (i : BitVec w) : Word := pc + i.signExtend 64 * 4

/-- A branch: taken, it redirects the pc and causes no boundary; untaken, it retires like any other instruction (R100,
R102). -/
def branch (a : SReg) (e : Bool) (i : BitVec 15) (s : State) (taken : Word → Bool) : Out :=
  seqIssue [(a, e)] 0 s fun c s =>
    let q := s.seq c
    .next (if taken (q.rd a) then moveTo c (wordTarget q.addr i) s else retire c s)

/-- beqz (R100). -/
def execBeqz (a : SReg) (e : Bool) (i : BitVec 15) (s : State) : Out := branch a e i s fun x => x == 0
/-- bnez (R100). -/
def execBnez (a : SReg) (e : Bool) (i : BitVec 15) (s : State) : Out := branch a e i s fun x => x != 0
/-- bltz (R100). -/
def execBltz (a : SReg) (e : Bool) (i : BitVec 15) (s : State) : Out := branch a e i s fun x => x.slt 0
/-- bgez (R100). -/
def execBgez (a : SReg) (e : Bool) (i : BitVec 15) (s : State) : Out := branch a e i s fun x => !x.slt 0
/-- bgtz (R100). -/
def execBgtz (a : SReg) (e : Bool) (i : BitVec 15) (s : State) : Out := branch a e i s fun x => BitVec.slt 0 x
/-- blez (R100). -/
def execBlez (a : SReg) (e : Bool) (i : BitVec 15) (s : State) : Out := branch a e i s fun x => !BitVec.slt 0 x
/-- bbs: bit c is 1 (R100). -/
def execBbs (c : Fin 32) (a : SReg) (e : Bool) (i : BitVec 15) (s : State) : Out := branch a e i s fun x => x.getLsbD c.val
/-- bbc: bit c is 0 (R100). -/
def execBbc (c : Fin 32) (a : SReg) (e : Bool) (i : BitVec 15) (s : State) : Out :=
  branch a e i s fun x => !x.getLsbD c.val

/-- jal (R100). -/
def execJal (d : SReg) (i : BitVec 21) (s : State) : Out :=
  seqIssue [] d s fun c s =>
    let pc := (s.seq c).addr
    .next (moveTo c (wordTarget pc i) (s.modSeq c fun q => q.wr d (pc + 4)))

/-- jalr: s[a] is read before d is written (R100). -/
def execJalr (d a : SReg) (e : Bool) (i : BitVec 15) (s : State) : Out :=
  seqIssue [(a, e)] d s fun c s =>
    let q := s.seq c
    .next (moveTo c ((q.rd a + i.signExtend 64 * 4) &&& ~~~(3 : Word)) (s.modSeq c fun r => r.wr d (q.addr + 4)))

/-- A loop level started at an instruction's address over `n` body words with a count (R101). -/
def Seq.startLoop (q : Seq) (v n : Nat) (count : Word) : Seq :=
  let p := q.addr.toNat
  { q with
    lc := smSet 0 q.lc v count, lb := smSet 0 q.lb v ((p + 4) % 2 ^ 32), le := smSet 0 q.le v ((p + 4 * n) % 2 ^ 32),
    act := setBit4 q.act v true, cpend := setBit4 q.cpend v false, wpend := setBit4 q.wpend v false }

/-- loop (R101): a count of 0 skips the body and leaves the level unchanged. -/
def execLoop (v : Fin 4) (a : SReg) (e : Bool) (n : BitVec 15) (s : State) : Out :=
  seqIssue [(a, e)] 0 s fun c s =>
    let q := s.seq c
    .next (if q.rd a = 0 then moveTo c (q.addr + 4 + BitVec.ofNat 64 (4 * n.toNat)) s
      else moveTo c (q.addr + 4) (s.modSeq c fun q => q.startLoop v.val n.toNat (q.rd a)))

/-- An instruction that traps after its boundary processing: seq.epc names the instruction that would have run next; a
SEQ.LOOP of the boundary stands in its place (R102, R121, R123). -/
def trapAfter (c code : Nat) (tval : Word) (s : State) : State :=
  let h := (s.seq c).h
  let a := (s.seq c).addr
  let s' := retire c s
  if (s'.seq c).phase = .stopped then s'
  else if h then seqTrap c code 0 a tval (s'.modSeq c fun q => q.point a)
  else seqTrap c code 0 (s'.seq c).addr tval s'

/-- trap: SEQ.TRAP with seq.tval the sign-extended immediate (R121). -/
def execTrap (i : BitVec 15) (s : State) : Out :=
  seqIssue [] 0 s fun c s => .next (trapAfter c trapSeqTrap (i.signExtend 64) s)

/-- brk: SEQ.BRK with seq.tval the identifier (R123). -/
def execBrk (i : BitVec 9) (s : State) : Out :=
  seqIssue [] 0 s fun c s => .next (trapAfter c trapSeqBrk (i.zeroExtend 64) s)

/-- tret: the return from a trap handler, h := 0 and pc := seq.epc; with h = 0 it raises SEQ.TRET (R95, R122). -/
def execTret (s : State) : Out :=
  seqIssue [] 0 s fun c s =>
    let q := s.seq c
    .next (if q.h then moveTo c q.epc (s.modSeq c fun r => { r with h := false })
      else seqTrap c trapSeqTret 0 q.addr q.addr s)

/-- A sequencer word that R67 refuses and that is reached at run time: OP.ILL at its address, with no other change (R11,
R67, R342). -/
def execIllegalSequencerWord (_w : BitVec 32) (s : State) : Out :=
  asSeq s fun c => .next (seqTrap c trapOpIll 0 (s.seq c).addr (s.seq c).addr s)

end Sys2Proof.Machine
end

