-- ==== Sys2Proof/Machine/Dispatch.lean ====
section
/-! DEFINITION. The meaning of every instruction: one arm per constructor of Instr. -/

namespace Sys2Proof.Machine

open Sys2Proof

/-- The effect of one instruction, operation or event on the state. -/
def exec (i : Instr) (s : State) : Host.Outcome State Fault Refusal :=
  match i with
  | .add d a b ea eb => Sys2Proof.Machine.execAdd d a b ea eb s
  | .sub d a b ea eb => Sys2Proof.Machine.execSub d a b ea eb s
  | .mul d a b ea eb => Sys2Proof.Machine.execMul d a b ea eb s
  | .mulh d a b ea eb => Sys2Proof.Machine.execMulh d a b ea eb s
  | .mulhn d a b ea eb => Sys2Proof.Machine.execMulhn d a b ea eb s
  | .and d a b ea eb => Sys2Proof.Machine.execAnd d a b ea eb s
  | .or d a b ea eb => Sys2Proof.Machine.execOr d a b ea eb s
  | .xor d a b ea eb => Sys2Proof.Machine.execXor d a b ea eb s
  | .sll d a b ea eb => Sys2Proof.Machine.execSll d a b ea eb s
  | .srl d a b ea eb => Sys2Proof.Machine.execSrl d a b ea eb s
  | .sra d a b ea eb => Sys2Proof.Machine.execSra d a b ea eb s
  | .slt d a b ea eb => Sys2Proof.Machine.execSlt d a b ea eb s
  | .sltn d a b ea eb => Sys2Proof.Machine.execSltn d a b ea eb s
  | .seq d a b ea eb => Sys2Proof.Machine.execSeq d a b ea eb s
  | .min d a b ea eb => Sys2Proof.Machine.execMin d a b ea eb s
  | .max d a b ea eb => Sys2Proof.Machine.execMax d a b ea eb s
  | .minn d a b ea eb => Sys2Proof.Machine.execMinn d a b ea eb s
  | .maxn d a b ea eb => Sys2Proof.Machine.execMaxn d a b ea eb s
  | .addi d a e imm => Sys2Proof.Machine.execAddi d a e imm s
  | .andi d a e imm => Sys2Proof.Machine.execAndi d a e imm s
  | .ori d a e imm => Sys2Proof.Machine.execOri d a e imm s
  | .xori d a e imm => Sys2Proof.Machine.execXori d a e imm s
  | .slli d a e n => Sys2Proof.Machine.execSlli d a e n s
  | .srli d a e n => Sys2Proof.Machine.execSrli d a e n s
  | .srai d a e n => Sys2Proof.Machine.execSrai d a e n s
  | .movz d q imm => Sys2Proof.Machine.execMovz d q imm s
  | .movk d q imm => Sys2Proof.Machine.execMovk d q imm s
  | .slti d a e imm => Sys2Proof.Machine.execSlti d a e imm s
  | .sltni d a e imm => Sys2Proof.Machine.execSltni d a e imm s
  | .seqi d a e imm => Sys2Proof.Machine.execSeqi d a e imm s
  | .beqz a e imm => Sys2Proof.Machine.execBeqz a e imm s
  | .bnez a e imm => Sys2Proof.Machine.execBnez a e imm s
  | .bltz a e imm => Sys2Proof.Machine.execBltz a e imm s
  | .bgez a e imm => Sys2Proof.Machine.execBgez a e imm s
  | .bgtz a e imm => Sys2Proof.Machine.execBgtz a e imm s
  | .blez a e imm => Sys2Proof.Machine.execBlez a e imm s
  | .bbs c a e imm => Sys2Proof.Machine.execBbs c a e imm s
  | .bbc c a e imm => Sys2Proof.Machine.execBbc c a e imm s
  | .jal d imm => Sys2Proof.Machine.execJal d imm s
  | .jalr d a e imm => Sys2Proof.Machine.execJalr d a e imm s
  | .loop v a e n => Sys2Proof.Machine.execLoop v a e n s
  | .cfg a e p => Sys2Proof.Machine.execCfg a e p s
  | .run a e p => Sys2Proof.Machine.execRun a e p s
  | .qwait => Sys2Proof.Machine.execQwait s
  | .send d a b ea eb => Sys2Proof.Machine.execSend d a b ea eb s
  | .estat d a e => Sys2Proof.Machine.execEstat d a e s
  | .arrive b => Sys2Proof.Machine.execArrive b s
  | .wait b => Sys2Proof.Machine.execWait b s
  | .fence g => Sys2Proof.Machine.execFence g s
  | .fenceAcq g => Sys2Proof.Machine.execFenceAcq g s
  | .fenceRel g => Sys2Proof.Machine.execFenceRel g s
  | .yield => Sys2Proof.Machine.execYield s
  | .wld d a e w o => Sys2Proof.Machine.execWld d a e w o s
  | .ld d a e imm => Sys2Proof.Machine.execLd d a e imm s
  | .st v a ea ev imm => Sys2Proof.Machine.execSt v a ea ev imm s
  | .ubind d a e => Sys2Proof.Machine.execUbind d a e s
  | .uflush a e => Sys2Proof.Machine.execUflush a e s
  | .unbind a e => Sys2Proof.Machine.execUnbind a e s
  | .tbind a b ea eb => Sys2Proof.Machine.execTbind a b ea eb s
  | .csrr d c => Sys2Proof.Machine.execCsrr d c s
  | .csrw a e c => Sys2Proof.Machine.execCsrw a e c s
  | .csrs a e c => Sys2Proof.Machine.execCsrs a e c s
  | .csrc a e c => Sys2Proof.Machine.execCsrc a e c s
  | .trap imm => Sys2Proof.Machine.execTrap imm s
  | .tret => Sys2Proof.Machine.execTret s
  | .brk imm => Sys2Proof.Machine.execBrk imm s
  | .done a e => Sys2Proof.Machine.execDone a e s
  | .longLatencyWrite c k => Sys2Proof.Machine.execLongLatencyWrite c k s
  | .nop => Sys2Proof.Machine.execNop s
  | .addInteger t a b sat => Sys2Proof.Machine.execAddInteger t a b sat s
  | .subInteger t a b sat => Sys2Proof.Machine.execSubInteger t a b sat s
  | .mulInteger t a b sat => Sys2Proof.Machine.execMulInteger t a b sat s
  | .mulhInteger t a b => Sys2Proof.Machine.execMulhInteger t a b s
  | .mad t a b c sat => Sys2Proof.Machine.execMad t a b c sat s
  | .negInteger t a sat => Sys2Proof.Machine.execNegInteger t a sat s
  | .absInteger t a sat => Sys2Proof.Machine.execAbsInteger t a sat s
  | .minInteger t a b => Sys2Proof.Machine.execMinInteger t a b s
  | .maxInteger t a b => Sys2Proof.Machine.execMaxInteger t a b s
  | .andInteger t a b => Sys2Proof.Machine.execAndInteger t a b s
  | .orInteger t a b => Sys2Proof.Machine.execOrInteger t a b s
  | .xorInteger t a b => Sys2Proof.Machine.execXorInteger t a b s
  | .notInteger t a => Sys2Proof.Machine.execNotInteger t a s
  | .andn t a b => Sys2Proof.Machine.execAndn t a b s
  | .shl t a b => Sys2Proof.Machine.execShl t a b s
  | .shr t a b => Sys2Proof.Machine.execShr t a b s
  | .rotl t a b => Sys2Proof.Machine.execRotl t a b s
  | .rotr t a b => Sys2Proof.Machine.execRotr t a b s
  | .clz t a => Sys2Proof.Machine.execClz t a s
  | .popc t a => Sys2Proof.Machine.execPopc t a s
  | .sel t a b c => Sys2Proof.Machine.execSel t a b c s
  | .cmpInteger t a b m => Sys2Proof.Machine.execCmpInteger t a b m s
  | .addFloat t a b r sat => Sys2Proof.Machine.execAddFloat t a b r sat s
  | .subFloat t a b r sat => Sys2Proof.Machine.execSubFloat t a b r sat s
  | .mulFloat t a b r sat => Sys2Proof.Machine.execMulFloat t a b r sat s
  | .fma t a b c r sat => Sys2Proof.Machine.execFma t a b c r sat s
  | .minFloat t a b => Sys2Proof.Machine.execMinFloat t a b s
  | .maxFloat t a b => Sys2Proof.Machine.execMaxFloat t a b s
  | .absFloat t a => Sys2Proof.Machine.execAbsFloat t a s
  | .negFloat t a => Sys2Proof.Machine.execNegFloat t a s
  | .cmpFloat t a b m => Sys2Proof.Machine.execCmpFloat t a b m s
  | .rcp t a r sat => Sys2Proof.Machine.execRcp t a r sat s
  | .rsqrt t a r sat => Sys2Proof.Machine.execRsqrt t a r sat s
  | .sqrt t a r sat => Sys2Proof.Machine.execSqrt t a r sat s
  | .exp2 t a r sat => Sys2Proof.Machine.execExp2 t a r sat s
  | .log2 t a r sat => Sys2Proof.Machine.execLog2 t a r sat s
  | .cvtIntegerSource t a c r sat => Sys2Proof.Machine.execCvtIntegerSource t a c r sat s
  | .cvtFloatSource t a c r sat => Sys2Proof.Machine.execCvtFloatSource t a c r sat s
  | .quant t a c r sat => Sys2Proof.Machine.execQuant t a c r sat s
  | .dequant t a c r sat => Sys2Proof.Machine.execDequant t a c r sat s
  | .bmul t a b c r sat => Sys2Proof.Machine.execBmul t a b c r sat s
  | .bdot t a b c r sat => Sys2Proof.Machine.execBdot t a b c r sat s
  | .bcast t a b => Sys2Proof.Machine.execBcast t a b s
  | .shuf t a b => Sys2Proof.Machine.execShuf t a b s
  | .redInteger t a c sat => Sys2Proof.Machine.execRedInteger t a c sat s
  | .redFloat t a c r sat => Sys2Proof.Machine.execRedFloat t a c r sat s
  | .scanInteger t a c sat => Sys2Proof.Machine.execScanInteger t a c sat s
  | .scanFloat t a c r sat => Sys2Proof.Machine.execScanFloat t a c r sat s
  | .alloc a => Sys2Proof.Machine.execAlloc a s
  | .free a => Sys2Proof.Machine.execFree a s
  | .retag a b => Sys2Proof.Machine.execRetag a b s
  | .ctag a => Sys2Proof.Machine.execCtag a s
  | .tagrd a => Sys2Proof.Machine.execTagrd a s
  | .steer a b => Sys2Proof.Machine.execSteer a b s
  | .merge => Sys2Proof.Machine.execMerge s
  | .gate => Sys2Proof.Machine.execGate s
  | .dup a => Sys2Proof.Machine.execDup a s
  | .call a => Sys2Proof.Machine.execCall a s
  | .ret a => Sys2Proof.Machine.execRet a s
  | .rdcInteger t a c sat => Sys2Proof.Machine.execRdcInteger t a c sat s
  | .rdcFloat t a c r sat => Sys2Proof.Machine.execRdcFloat t a c r sat s
  | .lds t a o => Sys2Proof.Machine.execLds t a o s
  | .sts t a b o => Sys2Proof.Machine.execSts t a b o s
  | .ldg t a o => Sys2Proof.Machine.execLdg t a o s
  | .stg t a b o => Sys2Proof.Machine.execStg t a b o s
  | .gather t a b o => Sys2Proof.Machine.execGather t a b o s
  | .scatter t a b o => Sys2Proof.Machine.execScatter t a b o s
  | .ldacq t a g o => Sys2Proof.Machine.execLdacq t a g o s
  | .strel t a b g o => Sys2Proof.Machine.execStrel t a b g o s
  | .atomIadd t a b => Sys2Proof.Machine.execAtomIadd t a b s
  | .atomImin t a b => Sys2Proof.Machine.execAtomImin t a b s
  | .atomImax t a b => Sys2Proof.Machine.execAtomImax t a b s
  | .atomAnd t a b => Sys2Proof.Machine.execAtomAnd t a b s
  | .atomOr t a b => Sys2Proof.Machine.execAtomOr t a b s
  | .atomXor t a b => Sys2Proof.Machine.execAtomXor t a b s
  | .atomXchg t a b => Sys2Proof.Machine.execAtomXchg t a b s
  | .atomCas t a b c => Sys2Proof.Machine.execAtomCas t a b c s
  | .lookup a => Sys2Proof.Machine.execLookup a s
  | .insert a b => Sys2Proof.Machine.execInsert a b s
  | .evict a => Sys2Proof.Machine.execEvict a s
  | .upd t a b => Sys2Proof.Machine.execUpd t a b s
  | .arriveNode b => Sys2Proof.Machine.execArriveNode b s
  | .waitNode b => Sys2Proof.Machine.execWaitNode b s
  | .fenceNode g k => Sys2Proof.Machine.execFenceNode g k s
  | .yieldNode => Sys2Proof.Machine.execYieldNode s
  | .sendNode a b => Sys2Proof.Machine.execSendNode a b s
  | .trapNode imm => Sys2Proof.Machine.execTrapNode imm s
  | .brkNode imm => Sys2Proof.Machine.execBrkNode imm s
  | .copyLin c u => Sys2Proof.Machine.execCopyLin c u s
  | .copy2d c u => Sys2Proof.Machine.execCopy2d c u s
  | .copyRows c u => Sys2Proof.Machine.execCopyRows c u s
  | .copySeg c u => Sys2Proof.Machine.execCopySeg c u s
  | .gath c u => Sys2Proof.Machine.execGath c u s
  | .pressMm c u => Sys2Proof.Machine.execPressMm c u s
  | .pressBf c u => Sys2Proof.Machine.execPressBf c u s
  | .pressRd c u => Sys2Proof.Machine.execPressRd c u s
  | .maskCls c => Sys2Proof.Machine.execMaskCls c s
  | .inboxAccept e => Sys2Proof.Machine.execInboxAccept e s
  | .leaveGrant d => Sys2Proof.Machine.execLeaveGrant d s
  | .commitPoint e => Sys2Proof.Machine.execCommitPoint e s
  | .followOnDelivery e => Sys2Proof.Machine.execFollowOnDelivery e s
  | .replyTokenDelivery c k => Sys2Proof.Machine.execReplyTokenDelivery c k s
  | .tokenMatch c k => Sys2Proof.Machine.execTokenMatch c k s
  | .indexTokenIssue c k => Sys2Proof.Machine.execIndexTokenIssue c k s
  | .tagAllocGrant c k => Sys2Proof.Machine.execTagAllocGrant c k s
  | .freeComplete c f => Sys2Proof.Machine.execFreeComplete c f s
  | .planeSwitch c => Sys2Proof.Machine.execPlaneSwitch c s
  | .configurationLoadComplete c => Sys2Proof.Machine.execConfigurationLoadComplete c s
  | .quiescenceReport c => Sys2Proof.Machine.execQuiescenceReport c s
  | .watchdogTrip c => Sys2Proof.Machine.execWatchdogTrip c s
  | .memoryAccessAccept c k => Sys2Proof.Machine.execMemoryAccessAccept c k s
  | .accessPerform c k => Sys2Proof.Machine.execAccessPerform c k s
  | .loadResult c f => Sys2Proof.Machine.execLoadResult c f s
  | .tlbMiss k => Sys2Proof.Machine.execTlbMiss k s
  | .walkResult k => Sys2Proof.Machine.execWalkResult k s
  | .pageFault k => Sys2Proof.Machine.execPageFault k s
  | .barrierArrivalRecord c k => Sys2Proof.Machine.execBarrierArrivalRecord c k s
  | .phaseCompletion c k => Sys2Proof.Machine.execPhaseCompletion c k s
  | .pairAccept c k => Sys2Proof.Machine.execPairAccept c k s
  | .sorterApply c h stack => Sys2Proof.Machine.execSorterApply c h stack s
  | .hostPostedWrite req w => Sys2Proof.Machine.execHostPostedWrite req w s
  | .hostWriteForward k => Sys2Proof.Machine.execHostWriteForward k s
  | .homeAcknowledgement k stack => Sys2Proof.Machine.execHomeAcknowledgement k stack s
  | .hostRead req space a n => Sys2Proof.Machine.execHostRead req space a n s
  | .hostAtomicRequest req ia => Sys2Proof.Machine.execHostAtomicRequest req ia s
  | .peerAccess ia w n => Sys2Proof.Machine.execPeerAccess ia w n s
  | .peerStoreAcknowledgement k => Sys2Proof.Machine.execPeerStoreAcknowledgement k s
  | .linkRemoteRefusal k => Sys2Proof.Machine.execLinkRemoteRefusal k s
  | .flitCrcFailure p => Sys2Proof.Machine.execFlitCrcFailure p s
  | .laneLockLoss p => Sys2Proof.Machine.execLaneLockLoss p s
  | .cttRetransmission p => Sys2Proof.Machine.execCttRetransmission p s
  | .portRetrain p => Sys2Proof.Machine.execPortRetrain p s
  | .edgeAdderStore p ia bytes => Sys2Proof.Machine.execEdgeAdderStore p ia bytes s
  | .launch c => Sys2Proof.Machine.execLaunch c s
  | .resume c => Sys2Proof.Machine.execResume c s
  | .retire c => Sys2Proof.Machine.execRetire c s
  | .mark c => Sys2Proof.Machine.execMark c s
  | .stop c => Sys2Proof.Machine.execStop c s
  | .taskPlace => Sys2Proof.Machine.execTaskPlace s
  | .preemptRequest => Sys2Proof.Machine.execPreemptRequest s
  | .drainComplete c => Sys2Proof.Machine.execDrainComplete c s
  | .completionTokenWrite c => Sys2Proof.Machine.execCompletionTokenWrite c s
  | .ctxCtlEn c v => Sys2Proof.Machine.execCtxCtlEn c v s
  | .faultGo c req => Sys2Proof.Machine.execFaultGo c req s
  | .ptRootWrite v => Sys2Proof.Machine.execPtRootWrite v s
  | .ptInval v => Sys2Proof.Machine.execPtInval v s
  | .invalidationComplete => Sys2Proof.Machine.execInvalidationComplete s
  | .faultInjectionArm v => Sys2Proof.Machine.execFaultInjectionArm v s
  | .registerWrite off v => Sys2Proof.Machine.execRegisterWrite off v s
  | .loadFirmware => Sys2Proof.Machine.execLoadFirmware s
  | .firmwareInstallation kind => Sys2Proof.Machine.execFirmwareInstallation kind s
  | .enrolKey => Sys2Proof.Machine.execEnrolKey s
  | .disableSlot => Sys2Proof.Machine.execDisableSlot s
  | .raiseFloor => Sys2Proof.Machine.execRaiseFloor s
  | .attest => Sys2Proof.Machine.execAttest s
  | .debugChallenge => Sys2Proof.Machine.execDebugChallenge s
  | .debugUnlock => Sys2Proof.Machine.execDebugUnlock s
  | .debugLock => Sys2Proof.Machine.execDebugLock s
  | .writeFmask => Sys2Proof.Machine.execWriteFmask s
  | .reset => Sys2Proof.Machine.execReset s
  | .bootTimeout => Sys2Proof.Machine.execBootTimeout s
  | .bootRetry => Sys2Proof.Machine.execBootRetry s
  | .thermalSample d t => Sys2Proof.Machine.execThermalSample d t s
  | .telemetrySnapshot => Sys2Proof.Machine.execTelemetrySnapshot s
  | .scrubPass d w => Sys2Proof.Machine.execScrubPass d w s
  | .illegalSequencerWord w => Sys2Proof.Machine.execIllegalSequencerWord w s
  | .applyCompletion c => Sys2Proof.Machine.execApplyCompletion c s
  | .tbindCommit c => Sys2Proof.Machine.execTbindCommit c s
  | .portTrained p lanes => Sys2Proof.Machine.execPortTrained p lanes s

end Sys2Proof.Machine
end

