-- ==== Sys2Proof/Machine/Graph.lean ====
section
/-! DEFINITION. The tag check that the loader runs on a fabric load after replication (R297 to R300). -/

namespace Sys2Proof.Machine

open Sys2Proof

/-! ## The graph of a fabric load -/

/-- A node of a fabric load after replication (R286 to R289): its graph node number, tile, copy of how many and virtual tile,
its words and what they read as, its space and the space that its link word names, its destinations as output, node and port,
the destination of its link word, and the place that a native image gives it. -/
structure GNode where
  num : Nat
  tile : Nat
  copy : Nat
  copies : Nat
  vtile : Nat
  words : List Nat
  img : NodeImg
  space : Nat
  target : Nat
  outs : List (Bool × Nat × Nat)
  link : Option (Nat × Nat)
  place : Option (Nat × Nat)
  deriving DecidableEq, Repr, Inhabited

/-- A fabric load after replication, with the descriptors of its spaces. -/
structure Graph where
  nodes : List GNode
  spaces : List SpaceDesc
  deriving DecidableEq, Repr, Inhabited

/-- A node of a graph. -/
def Graph.node (g : Graph) (k : Nat) : GNode := g.nodes.getD k default

/-- A space of a graph. -/
def Graph.space (g : Graph) (s : Nat) : SpaceDesc := g.spaces.getD s SpaceDesc.none

/-- Whether a space is plain with a parent. -/
def Graph.isInner (g : Graph) (s : Nat) : Bool := decide ((g.space s).kind = .plain) && (g.space s).parent.isSome

/-- Whether a space is a call or a deep space. -/
def Graph.isCallee (g : Graph) (s : Nat) : Bool := decide ((g.space s).kind = .call ∨ (g.space s).kind = .deep)

/-- A space and the spaces above it; `fuel` bounds the chain. -/
def Graph.lineage (g : Graph) : Nat → Nat → List Nat
  | 0, s => [s]
  | fuel + 1, s => s :: match (g.space s).parent with
    | some p => g.lineage fuel p
    | none => []

/-- The indexes of the nodes for which a test holds. -/
def Graph.those (g : Graph) (p : Nat → GNode → Bool) : List Nat :=
  (List.range g.nodes.length).filter fun k => p k (g.node k)

/-- The graph node numbers of some nodes. -/
def Graph.nums (g : Graph) (ks : List Nat) : List Nat := ks.map fun k => (g.node k).num

/-- The last operation of a node. -/
def GNode.last (n : GNode) : Instr := n.img.last.getD .nop

/-- Whether a node's last operation is alloc. -/
def GNode.isAlloc (n : GNode) : Bool := match n.last with
  | .alloc _ => true
  | _ => false

/-- Whether a node's last operation is free. -/
def GNode.isFree (n : GNode) : Bool := match n.last with
  | .free _ => true
  | _ => false

/-- Whether a node's last operation is call. -/
def GNode.isCall (n : GNode) : Bool := match n.last with
  | .call _ => true
  | _ => false

/-- Whether a node's last operation is ret. -/
def GNode.isRet (n : GNode) : Bool := match n.last with
  | .ret _ => true
  | _ => false

/-- Whether a node's last operation is steer. -/
def GNode.isSteer (n : GNode) : Bool := match n.last with
  | .steer _ _ => true
  | _ => false

/-- Whether a node's last operation is retag. -/
def GNode.isRetag (n : GNode) : Bool := match n.last with
  | .retag _ _ => true
  | _ => false

/-- Whether a node is a gate. -/
def GNode.isGate (n : GNode) : Bool := decide (n.last = .gate)

/-- Whether a node is a merge. -/
def GNode.isMerge (n : GNode) : Bool := decide (n.last = .merge)

/-- Whether a node is a source. -/
def GNode.isSource (n : GNode) : Bool := decide (n.img.head.kind = .source)

/-- Whether a node's tokens leave with the tag of a call: a call or a retag under tagsel 1 (R152). -/
def GNode.callEdge (n : GNode) : Bool := (n.isCall || n.isRetag) && decide (n.img.emit.tagsel = 1)

/-- The outputs whose deliveries name port `p` of node `k`. -/
def Graph.feeds (g : Graph) (k p : Nat) : List (Nat × Bool) :=
  (List.range g.nodes.length).flatMap fun j =>
    ((g.node j).outs.filter fun e => decide (e.2 = (k, p))).map fun e => (j, e.1)

/-- The gates and calls whose link words name port `p` of node `k`. -/
def Graph.linked (g : Graph) (k p : Nat) : List Nat := g.those fun _ n => decide (n.link = some (k, p))

/-- The outputs that feed any data port of a node. -/
def Graph.allFeeds (g : Graph) (k : Nat) : List (Nat × Bool) := (List.range 3).flatMap (g.feeds k)

/-- Grows a set of nodes by its successors, `fuel` times at most. -/
def grow (succ : Nat → List Nat) : Nat → List Nat → List Nat
  | 0, l => l
  | fuel + 1, l =>
    let m := (l ++ l.flatMap succ).dedup
    if m.length = l.length then l else grow succ fuel m

/-- The nodes reached from some nodes, those included. -/
def Graph.reach (g : Graph) (succ : Nat → List Nat) (from_ : List Nat) : List Nat := grow succ (g.nodes.length + 1) from_.dedup

/-! ## The spaces of tokens (R297) -/

/-- An operand of a stage of a node, whose tag is followed back. -/
abbrev Carrier := Nat × Nat × Sel

/-- The operand whose value a stage hands on unchanged, for the stages that do: an operand, and the tag that the stage itself
produces in the lanes. -/
def GNode.hands (n : GNode) (stage : Nat) : Option (List Sel) × Option Nat :=
  let fresh := decide (n.img.emit.tagsel = 0)
  match n.img.ops[stage]? with
  | some .nop => (some [if stage = 0 then .port 0 else .x], none)
  | some (.dup a) | some (.free a) | some (.ctag a) | some (.ret a) | some (.retag a _) => (some [a], none)
  | some (.alloc a) | some (.call a) => if fresh then (none, some n.target) else (some [a], none)
  | some (.tagrd _) => (none, some n.space)
  | some (.steer _ b) => (some [b], none)
  | some .gate => (some [.port 1], none)
  | some .merge => (some ((List.range n.img.head.inputs).map fun p => .port (Fin.ofNat 3 p)), none)
  | _ => (none, none)

/-- One step back: the tags' spaces found, none for a value that is no such tag, and the operands to follow. -/
def Graph.back (g : Graph) (q : Carrier) : List (Option Nat) × List Carrier :=
  let from_ := fun (k stage : Nat) => match (g.node k).hands stage with
    | (some l, _) => (([] : List (Option Nat)), l.map fun s => ((k, stage, s) : Carrier))
    | (none, some s) => ([some s], [])
    | (none, none) => ([none], [])
  let all := fun (ks : List (Nat × Nat)) =>
    let rs := ks.map fun k => from_ k.1 k.2
    (rs.flatMap (·.1), rs.flatMap (·.2))
  match q.2.2 with
  | .port p =>
    let js := (g.feeds q.1 p.val).map (·.1) ++ (g.linked q.1 p.val).flatMap fun j =>
      if (g.node j).isCall then g.those fun _ n => n.isRet && decide (n.space = (g.node j).target) else [j]
    all (js.map fun j => (j, (g.node j).img.ops.length - 1))
  | .x => if q.2.1 = 0 then ([none], []) else all [(q.1, q.2.1 - 1)]
  | _ => ([none], [])

/-- The spaces of the tags that operands carry, followed back to their producers; none where one is not found. -/
def Graph.carried (g : Graph) : Nat → List Carrier → List Carrier → List (Option Nat)
  | 0, _, _ => [none]
  | _ + 1, [], _ => []
  | fuel + 1, q :: qs, seen =>
    if seen.contains q then g.carried fuel qs seen
    else
      let r := g.back q
      r.1 ++ g.carried fuel (qs ++ r.2) (q :: seen)

/-- The one space of the tags that a retag's B carries, if it is one (R297). -/
def Graph.retagSpace (g : Graph) (k : Nat) : Option Nat :=
  match (g.node k).last with
  | .retag _ b =>
    let l := (g.carried (64 * g.nodes.length + 64) [(k, (g.node k).img.ops.length - 1, b)] []).dedup
    if l.length = 1 then l.headD none else none
  | _ => none

/-- The space of the tokens that leave on a node's edges (R297). -/
def Graph.outSpace (g : Graph) (k : Nat) : Option Nat :=
  let n := g.node k
  if n.img.emit.tagsel = 0 then some n.space
  else match n.last with
    | .alloc _ | .call _ => some n.target
    | .free _ | .ctag _ => some ((g.space n.space).parent.getD n.space)
    | .retag _ _ => g.retagSpace k
    | _ => some n.space

/-! ## The reasons (R298) -/

/-- What shows a failing condition: graph node numbers, and whether it fails although no node shows it. -/
structure Shown where
  nums : List Nat
  bare : Bool
  deriving DecidableEq, Repr, Inhabited

/-- Some nodes show a condition. -/
def Graph.shown (g : Graph) (ks : List Nat) : Shown := { nums := g.nums ks, bare := false }

/-- The spaces show a condition, by the nodes in them. -/
def Graph.shownSpaces (g : Graph) (ss : List Nat) : Shown :=
  { nums := g.nums (g.those fun _ n => ss.contains n.space), bare := ss ≠ [] }

/-- The spaces that the graph uses: those of its nodes and of their link words. -/
def Graph.used (g : Graph) : List Nat :=
  (g.nodes.flatMap fun n => if n.isAlloc || n.isCall then [n.space, n.target] else [n.space]).dedup

/-- The alloc nodes that name a space. -/
def Graph.allocsOf (g : Graph) (s : Nat) : List Nat := g.those fun _ n => n.isAlloc && decide (n.target = s)

/-- The gates of a space. -/
def Graph.gatesOf (g : Graph) (s : Nat) : List Nat := g.those fun _ n => n.isGate && decide (n.space = s)

/-- Reasons 1 and 2: a descriptor that breaks R21 (R298, R309, R375). -/
def Graph.badSpaces (g : Graph) (s : State) (lsize reason : Nat) : Shown :=
  g.shownSpaces ((List.range 256).filter fun i => decide (descBad s g.spaces lsize i = some reason))

/-- Reason 3: a root space without exactly one source node, an inner plain space without exactly one alloc node and one gate
(R21). -/
def Graph.unallocated (g : Graph) : Shown :=
  g.shownSpaces (g.used.filter fun s => decide ((g.space s).kind = .plain) &&
    (if (g.space s).parent.isSome then decide ((g.allocsOf s).length ≠ 1 ∨ (g.gatesOf s).length ≠ 1)
     else decide ((g.those fun _ n => n.isSource && decide (n.space = s)).length ≠ 1)))

/-- Reason 4: an edge whose token's space is not its destination node's, a call whose return leaves its space, or a retag
whose B cannot be followed to one space (R297; log 104). -/
def Graph.misrouted (g : Graph) : Shown :=
  g.shown (g.those fun k n =>
    (n.isRetag && (g.retagSpace k).isNone) ||
    (match g.outSpace k with
      | some s => n.outs.any fun e => decide ((g.node e.2.1).space ≠ s)
      | none => false) ||
    (n.isCall && match n.link with
      | some d => decide ((g.node d.1).space ≠ n.space)
      | none => false))

/-- The edges within one space: those of tokens that keep the firing's tag (R297; log 104). -/
def Graph.within (g : Graph) (k : Nat) : List Nat :=
  let n := g.node k
  if n.isGate || n.callEdge then [] else (n.outs.map (·.2.1)).filter fun j => decide ((g.node j).space = n.space)

/-- Reason 5: a cycle of edges within one space that passes through no gate of that space. -/
def Graph.ungated (g : Graph) : Shown :=
  g.shown (g.those fun k _ => (g.reach g.within (g.within k)).contains k)

/-- Reason 6: a gate whose p2 something other than a yield feeds, or whose exit is not in the parent space. -/
def Graph.badGates (g : Graph) : Shown :=
  g.shown (g.those fun k n => n.isGate &&
    (((g.feeds k 2).any fun f => decide ((g.node f.1).last ≠ .yieldNode)) || (g.linked k 2 ≠ []) ||
     (match n.link with
       | some d => decide (some (g.node d.1).space ≠ (g.space n.space).parent)
       | none => true)))

/-- Reason 7: a merge whose ports are not exclusive: it is fed by one output at most, by the alloc and the gate of its space,
or by the two outputs of one steer (R26; log 104). -/
def Graph.badMerges (g : Graph) : Shown :=
  g.shown (g.those fun k n => n.isMerge &&
    (let fs := g.allFeeds k
     let ls := (List.range 3).flatMap (g.linked k)
     let one := decide (fs.length + ls.length ≤ 1)
     let entry := (g.allocsOf n.space) ++ (g.gatesOf n.space)
     let loop := decide (ls = []) && decide (fs.map (·.1)).Nodup && fs.all fun f => entry.contains f.1
     let pair := decide (ls = [] ∧ fs.length = 2) && (match fs with
       | a :: b :: _ => decide (a.1 = b.1) && (a.2 != b.2) && (g.node a.1).isSteer
       | _ => false)
     !(one || loop || pair)))

/-! ## Reason 8: the count of frees (R299) -/

/-- The way that a steer's tokens take, for the steers whose output is chosen. -/
abbrev Choice := Nat → Option Bool

/-- Where a firing in space `s` sends its tokens and, through inner loops and calls, what they come back as: not past the
gate of the space, not into a callee, and not out of the space (R299). -/
def Graph.onward (g : Graph) (s : Nat) (ch : Choice) (k : Nat) : List Nat :=
  let n := g.node k
  if n.isGate ∧ n.space = s then []
  else
    let outs := n.outs.filter fun e => match ch k with
      | some o => e.1 == o
      | none => true
    ((if n.callEdge then [] else outs.map (·.2.1)) ++ n.link.toList.map (·.1)).filter fun j =>
      (g.lineage 256 (g.node j).space).contains s

/-- The numbers of ends reached under every choice at the further steers of a space: each must be one. -/
def Graph.countOne (g : Graph) (s : Nat) (ch : Choice) (starts ends : List Nat) : Bool :=
  let free := (g.reach (g.onward s ch) starts).filter fun k =>
    (g.node k).isSteer && decide ((g.node k).space = s) && (ch k).isNone
  free.sublists.all fun ones =>
    let ch' : Choice := fun k => if free.contains k then some (ones.contains k) else ch k
    decide (((g.reach (g.onward s ch') starts).filter ends.contains).length = 1)

/-- The steers of a space whose condition the gate's control feeds (R299). -/
def Graph.controlled (g : Graph) (s gate : Nat) : List Nat :=
  let x := g.feeds gate 0
  g.those fun k n => decide (n.space = s) && match n.last with
    | .steer (.port p) _ =>
      let c := g.feeds k p.val
      decide (x ≠ []) && (c.all x.contains) && (x.all c.contains)
    | _ => false

/-- The destinations of one output of some nodes. -/
def Graph.outsOf (g : Graph) (ks : List Nat) (o : Bool) : List Nat :=
  ks.flatMap fun k => ((g.node k).outs.filter fun e => e.1 == o).map (·.2.1)

/-- The nodes that show a failure of the count of an inner plain space (R299). -/
def Graph.badFrees (g : Graph) (s : Nat) : List Nat :=
  match g.gatesOf s with
  | [] => []
  | gate :: _ =>
    let frees := g.those fun _ n => n.isFree && decide (n.space = s)
    let cond := g.controlled s gate
    let zero : Choice := fun k => if cond.contains k then some false else none
    let one : Choice := fun k => if cond.contains k then some true else none
    let heads := ((g.node gate).outs.map (·.2.1)) ++ (g.allocsOf s).flatMap fun k => (g.node k).outs.map (·.2.1)
    let stray := ((g.reach (g.onward s one) (heads ++ g.outsOf cond true)).filter frees.contains)
    if stray ≠ [] then stray
    else if g.countOne s zero (g.outsOf cond false) frees then []
    else if frees = [] then [gate] else frees

/-- The entry nodes of a call or deep space: those that no node of the space or of a space under it feeds (R301). -/
def Graph.entries (g : Graph) (s : Nat) : List Nat :=
  let own := fun j => (g.lineage 256 (g.node j).space).contains s
  g.those fun k n => decide (n.space = s) &&
    !((g.allFeeds k).any fun f => own f.1 && !(g.node f.1).callEdge) && !(((List.range 3).flatMap (g.linked k)).any own)

/-- The nodes that show a failure of the count of a call or deep space (R299). -/
def Graph.badRets (g : Graph) (s : Nat) : List Nat :=
  let rets := g.those fun _ n => n.isRet && decide (n.space = s)
  if g.countOne s (fun _ => none) (g.entries s) rets then []
  else if rets = [] then g.those fun _ n => decide (n.space = s) else rets

/-- Reason 8: a free-count failure. -/
def Graph.freeCounts (g : Graph) : Shown :=
  g.shown (((g.nodes.map (·.space)).dedup).flatMap fun s =>
    if g.isInner s then g.badFrees s else if g.isCallee s then g.badRets s else [])

/-! ## Reason 9: frees after the exits of inner loops (R300) -/

/-- Whether every firing of a node depends, through strict inputs, on the exit of gate `i`, as far as `d` tells of the nodes
that feed it: a strict node by some port all of whose feeders do, a merge by all its feeders but the gate of its space, whose
tokens follow those of the alloc. -/
def Graph.depends (g : Graph) (i : Nat) (d : List Nat) (k : Nat) : Bool :=
  let n := g.node k
  let port := fun (p : Nat) =>
    let fs := (g.feeds k p).filter fun f => !(n.isMerge && (g.node f.1).isGate && decide ((g.node f.1).space = n.space))
    let ls := g.linked k p
    decide (fs ≠ [] ∨ ls ≠ []) && (fs.all fun f => d.contains f.1) && ls.all fun j => decide (j = i) || d.contains j
  let fed := (List.range n.img.head.inputs).filter fun p =>
    (g.feeds k p).any (fun f => !(n.isMerge && (g.node f.1).isGate && decide ((g.node f.1).space = n.space))) ||
      decide (g.linked k p ≠ [])
  if n.isMerge then decide (fed ≠ []) && fed.all port else fed.any port

/-- The nodes that depend on the exit of gate `i`. -/
def Graph.dependents (g : Graph) (i : Nat) : Nat → List Nat → List Nat
  | 0, d => d
  | fuel + 1, d =>
    let e := g.those fun k _ => g.depends i d k
    if e.length = d.length then d else g.dependents i fuel e

/-- Whether a gate's free waits for the exit of an inner loop: some node of its space joins a token of the tag that it frees
with what depends on the exit, and the free waits for that token (R154; log 104). -/
def Graph.heldBy (g : Graph) (d : List Nat) (s : Nat) : Bool :=
  d.any fun k => decide ((g.node k).space = s) && !(g.node k).isMerge &&
    (List.range (g.node k).img.head.inputs).any fun p => (g.feeds k p).any fun f => !d.contains f.1

/-- Reason 9: a node that frees a tag of a space and does not depend on the exit of a loop that the space's tags enter. -/
def Graph.earlyFrees (g : Graph) : Shown :=
  g.shown ((g.those fun _ n => n.isGate).flatMap fun i =>
    match (g.space (g.node i).space).parent with
    | none => []
    | some p =>
      let d := g.dependents i (g.nodes.length + 1) []
      g.those fun k n => decide (n.space = p) && (n.isFree || n.isRet || n.isGate) && !d.contains k &&
        !(n.isGate && g.heldBy d p))

/-! ## Reasons 10 and 11 -/

/-- The space at the top of a space's chain of parents. -/
def Graph.topOf (g : Graph) (s : Nat) : Nat := (g.lineage 256 s).getLastD s

/-- The spaces that the calls made in a space, or in a space under it, name. -/
def Graph.callees (g : Graph) (s : Nat) : List Nat :=
  (g.nodes.filter fun n => n.isCall && decide (g.topOf n.space = s)).map (·.target)

/-- Reason 10: a cycle of call edges through a space that is not deep. -/
def Graph.recursions (g : Graph) : Shown :=
  g.shown (g.those fun _ n => n.isCall && decide ((g.space n.target).kind ≠ .deep) &&
    (grow g.callees 257 (g.callees n.target).dedup).contains n.target)

/-- Reason 11: an operation on a kind of tag that it does not take (R151, R153, R154, R156, R159, R162 to R164). -/
def Graph.badKinds (g : Graph) : Shown :=
  g.shown (g.those fun _ n =>
    let kind := (g.space n.space).kind
    decide (kind = .unused) || match n.last with
      | .alloc _ => !g.isInner n.target || decide ((g.space n.target).parent ≠ some n.space)
      | .free _ | .rdcInteger _ _ _ _ | .rdcFloat _ _ _ _ _ => decide (kind ≠ .plain)
      | .ctag _ | .gate => !g.isInner n.space
      | .call _ => !g.isCallee n.target
      | .ret _ => !g.isCallee n.space
      | _ => false)

/-! ## The check (R298) -/

/-- What shows each reason, in the order of the table; `shared` is what shows reason 12. -/
def Graph.reasons (g : Graph) (s : State) (lsize : Nat) (shared : Shown) : List Shown :=
  [g.badSpaces s lsize 1, g.badSpaces s lsize 2, g.unallocated, g.misrouted, g.ungated, g.badGates, g.badMerges,
    g.freeCounts, g.earlyFrees, g.recursions, g.badKinds, shared]

/-- The first failing reason, with the lowest graph node number that shows it. -/
def firstReason : Nat → List Shown → Option (Nat × Option Nat)
  | _, [] => none
  | r, h :: t => if h.nums = [] ∧ !h.bare then firstReason (r + 1) t else some (r, h.nums.min?)

/-- The tag check of a fabric load. -/
def Graph.check (g : Graph) (s : State) (lsize : Nat) (shared : Shown) : Option (Nat × Option Nat) :=
  firstReason 1 (g.reasons s lsize shared)

end Sys2Proof.Machine
end

