-- ==== Sys2Proof/Machine/Image.lean ====
section
/-! DEFINITION. The configuration images that the loader writes: a node's words as placed, with its link word's destination, its
route and its copy constants (R68, R69, R78, R79, R149, R288, R289), and the bytes of an image (R290, R291). -/

namespace Sys2Proof.Machine

open Sys2Proof

/-! ## Routes (R78, R79, R289) -/

/-- A destination of a node as placed: the output, the node and the port. -/
structure PlacedDest where
  sel : Bool
  ref : NodeRef
  port : Nat
  deriving DecidableEq, Repr, Inhabited

/-- The half words of a branch that delivers to a destination from a node's place (R78). -/
def PlacedDest.branch (at_ : NodeRef) (d : PlacedDest) : List Nat :=
  (if d.ref.cl = at_.cl ∧ d.ref.pe = at_.pe then [] else [0xC000 + d.ref.cl * 2 ^ 7 + d.ref.pe * 2]) ++
    [0x4000 + bitN d.sel * 2 ^ 13 + d.ref.slot * 2 ^ 6 + d.port * 2 ^ 4]

/-- Branches joined by fan words of 2 to 8 branches (R78, R79); `fuel` bounds their depth. -/
def fanOut : Nat → List (List Nat) → List Nat
  | 0, bs => bs.flatten
  | _ + 1, [] => []
  | _ + 1, [b] => b
  | fuel + 1, b :: c :: t =>
    let bs := b :: c :: t
    if bs.length ≤ 8 then (0x8000 + (bs.length - 1) * 2 ^ 11) :: bs.flatten
    else fanOut fuel ((bs.toChunks 8).map fun g => match g with
      | [a] => a
      | g => (0x8000 + (g.length - 1) * 2 ^ 11) :: g.flatten)

/-- A route to destinations: far words that fan words join. -/
def plainRoute (at_ : NodeRef) (ds : List PlacedDest) : List Nat := fanOut 8 (ds.map (PlacedDest.branch at_))

/-- Whether half words are a route to exactly the destinations given; a route carries no plane (log 107). -/
def routeTo (at_ : NodeRef) (ds : List PlacedDest) (hs : List Nat) : Bool :=
  match decodeRoute hs with
  | none => false
  | some ls => (ls.map fun l => (l.sel, leafDest l at_)).isPerm
      (ds.map fun d => (d.sel, { d.ref with plane := at_.plane }, d.port))

/-! ## A node's words as placed (R68, R69, R149, R288) -/

/-- The destination fields of a link word (R149). -/
def linkFields (d : PlacedDest) : Nat := d.port * 2 ^ 22 + d.ref.cl * 2 ^ 15 + d.ref.pe * 2 ^ 9 + d.ref.slot * 2 ^ 2

/-- The link word of a node as placed: its space's identifier after replication, and its destination (R149, R288). -/
def GNode.linkWord (n : GNode) (link : Option PlacedDest) (w : Nat) : Nat :=
  match n.img.last with
  | some (.alloc _) => n.target * 2 ^ 24
  | some (.call _) => n.target * 2 ^ 24 + (link.map linkFields).getD 0
  | some .gate => (link.map linkFields).getD 0
  | _ => w

/-- The head word of a node as placed: its space's identifier after replication, and its switch words (R69, R288). -/
def placedHeadWord (w space switches : Nat) : Nat :=
  w / 2 ^ 26 * 2 ^ 26 + space % 2 ^ 8 * 2 ^ 18 + bits w 17 16 * 2 ^ 16 + switches * 2 ^ 10 + w % 2 ^ 10

/-- Half words two to a word, the earlier one low (R68). -/
def pairHalves : List Nat → List Nat
  | [] => []
  | [a] => [a]
  | a :: b :: t => (a + b * 2 ^ 16) :: pairHalves t

/-- A node's words as placed, with a route; `const` gives the constants that are a copy number or a number of copies (R288). -/
def GNode.placedWords (n : GNode) (const : Nat → Option Nat) (link : Option PlacedDest) (route : List Nat) : List Nat :=
  let h := n.img.head
  let ks := (List.range 8).filter fun j => h.kmask.getLsbD j
  let cs := (ks.zip (n.words.drop (2 + h.stages))).map fun k =>
    if k.1 = 6 then n.linkWord link k.2 else (const k.1).getD k.2
  placedHeadWord (n.words.getD 0 0) n.space route.length :: ((n.words.drop 1).take (h.stages + 1) ++ cs ++ pairHalves route)

/-! ## Images (R290, R291) -/

/-- A node of an image: its relative cluster, plane offset, PE and slot, and its words. -/
structure ImageNode where
  ref : NodeRef
  words : List Nat
  deriving DecidableEq, Repr, Inhabited

/-- The end record of a part (R291). -/
def endRecord : Nat := 0x80000000

/-- The part of a relative cluster and plane offset: a record for each node, and the end record; no word where it is empty
(R290, R291). -/
def partWords (ns : List ImageNode) (cl plane : Nat) : List Nat :=
  match ns.filter fun n => decide (n.ref.cl = cl ∧ n.ref.plane = plane) with
  | [] => []
  | l => (l.flatMap fun n => (n.ref.pe * 2 ^ 16 + n.ref.slot * 2 ^ 8 + n.words.length) :: n.words) ++ [endRecord]

/-- The descriptors of parts from a byte offset up: 16 bytes each (R290). -/
def partDescs : Nat → List (List Nat) → List Nat
  | _, [] => []
  | o, p :: t => o :: p.length :: 0 :: 0 :: partDescs (o + 4 * p.length) t

/-- The words of a configuration image: its header with an identity word, its descriptors and its parts (R290). -/
def imageWords (ident c f : Nat) (ns : List ImageNode) : List Nat :=
  let parts := (List.range (c * f)).map fun i => partWords ns (i / f) (i % f)
  [ident % 2 ^ 32, ident / 2 ^ 32 % 2 ^ 32, f + c * 2 ^ 16] ++ List.replicate 13 0 ++ partDescs (64 + 16 * (c * f)) parts ++
    parts.flatten

/-- 32-bit words as cells from an address up. -/
def wordCells (a : Nat) (ws : List Nat) : List Cell :=
  (ws.flatMap fun w => toBytes w 4).zipIdx.map fun b => (a + b.2, b.1)

end Sys2Proof.Machine
end

