-- ==== Sys2Proof/Machine/Loader.lean ====
section
/-! DEFINITION. The loader (R29, R31, R67, R73, R80, R114, R280 to R303, R317, R375): what it refuses of an object and a load
request, and the load record and the configuration images that it leaves. -/

namespace Sys2Proof.Machine

open Sys2Proof

/-! ## What the manual does not state -/

/-- The readings of the sections whose layout is not stated, the loader's placement and routes, where its images go and their
identity, the decode-table version, and the reason of a wrong magic number (logs 102, 103). -/
structure LoadEnv where
  fabric : List Byte → Nat × List (Option Nat) × Nat
  native : List Byte → List SrcNode
  spaces : List Byte → List SpaceDesc
  scopes : List Byte → List (Nat × Word × Word)
  windows : List Byte → List (Option Nat) × Nat
  place : Nat → Nat → Nat × Nat
  route : Nat → Nat → List Nat
  copyConst : Nat → Nat → Nat → Option Bool
  imageAt : Nat → Nat
  imageIa : Nat → Nat
  ident : Nat → Nat
  dataAt : Nat → Nat
  version : Nat
  magic : Nat

/-- The environment of a load: what it leaves open is a free value (logs 102, 103). -/
def State.loadEnv (s : State) (object : List Byte) (q : LoadReq) : LoadEnv :=
  { fabric := Config.fabricDecl, native := Config.nativeNodes, spaces := Config.spaceTable, scopes := Config.scopeTable,
    windows := Config.windowTable, place := Config.placement object q, route := Config.nodeRoute object q,
    copyConst := Config.copyConst object, imageAt := fun l => 64 * Config.imageAt object q l,
    imageIa := fun l => 64 * Config.imageIa object q l,
    ident := fun l => Config.identBase + s.idents + l, dataAt := Config.dataAt object q,
    version := match smGet none s.sec.installed 4 with
      | some i => i.version
      | none => 0,
    magic := (Config.unstated s.frees).toNat % 2 ^ 16 }

/-- The result of a stage of a load. -/
abbrev LoadRes (α : Type) := Except LdrReport α

/-- A refusal of a load (R281). -/
def ldrRefuse {α : Type} (code reason : Nat) (node : Option Nat) : LoadRes α := .error { code := code, reason := reason, node := node }

/-- LDR.OPCODE. -/
def ldrOpcode : Nat := 0x0A01
/-- LDR.TAGCHECK. -/
def ldrTagcheck : Nat := 0x0A02
/-- LDR.FRAMES. -/
def ldrFrames : Nat := 0x0A03
/-- LDR.WINDOW. -/
def ldrWindow : Nat := 0x0A04
/-- LDR.NOIMAGE. -/
def ldrNoimage : Nat := 0x0A05
/-- LDR.FORMAT. -/
def ldrFormat : Nat := 0x0A06
/-- LDR.PLACE. -/
def ldrPlace : Nat := 0x0A07

/-- Goes on where a condition holds, else refuses. -/
def need (b : Bool) (code reason : Nat) (node : Option Nat) : LoadRes Unit := if b then .ok () else ldrRefuse code reason node

/-! ## The object (R280) -/

/-- `n` little-endian bytes of an object at an offset. -/
def leAt (b : List Byte) (o n : Nat) : Nat := ofBytes ((b.drop o).take n)

/-- The 32-bit words of some bytes. -/
def wordsOfBytes : Nat → List Byte → List Nat
  | 0, _ => []
  | n + 1, b => ofBytes (b.take 4) :: wordsOfBytes n (b.drop 4)

/-- An entry of the section table with the section's bytes. -/
structure Sect where
  kind : Nat
  target : Nat
  pref : Nat
  image : Nat
  offset : Nat
  bytes : Nat
  zero : Bool
  data : List Byte
  deriving DecidableEq, Repr, Inhabited

/-- The common requirement list's image number. -/
def commonImage : Nat := 0xFFFFFFFF

/-- An entry of the section table. -/
def sectAt (b : List Byte) (o : Nat) : Sect :=
  { kind := leAt b o 1, target := leAt b (o + 1) 1, pref := leAt b (o + 2) 1, image := leAt b (o + 4) 4,
    offset := leAt b (o + 8) 8, bytes := leAt b (o + 16) 8, zero := decide (leAt b (o + 3) 1 = 0 ∧ leAt b (o + 24) 8 = 0),
    data := (b.drop (leAt b (o + 8) 8)).take (leAt b (o + 16) 8) }

/-- The sections of an object, in table order. -/
def sectsOf (b : List Byte) : List Sect := (List.range (leAt b 6 2)).map fun i => sectAt b (64 + 32 * i)

/-- The sections of a kind in an image. -/
def sectsIn (ss : List Sect) (image kind : Nat) : List Sect := ss.filter fun x => decide (x.image = image ∧ x.kind = kind)

/-- The image numbers of an object. -/
def imagesOf (ss : List Sect) : List Nat := ((ss.map (·.image)).filter (· ≠ commonImage)).dedup

/-- Whether a section's kind is one of R280, in an image that may hold it. -/
def Sect.kindOk (x : Sect) : Bool :=
  decide (1 ≤ x.kind ∧ x.kind ≤ 9) && (decide (x.kind ≠ 2 ∨ x.image = 0)) && decide (x.kind ≠ 3 ∨ x.image ≠ 0) &&
    decide (x.image ≠ commonImage ∨ x.kind = 1)

/-- The target of an image: that of its seq section. -/
def targetOf (ss : List Sect) (image : Nat) : Nat := ((sectsIn ss image 4).map (·.target)).headD 0

/-- The header and the section table (R280, R281; log 105). -/
def checkObject (env : LoadEnv) (b : List Byte) : LoadRes (List Sect) := do
  need (decide (64 ≤ b.length)) ldrFormat 3 none
  need (decide (leAt b 0 4 = 0x4F434249)) ldrFormat env.magic none
  need (decide (leAt b 4 2 = 1)) ldrFormat 1 none
  let n := leAt b 6 2
  need (decide (1 ≤ n ∧ n ≤ 1024 ∧ leAt b 8 8 = b.length ∧ 64 + 32 * n ≤ b.length)) ldrFormat 3 none
  let ss := sectsOf b
  need (ss.all Sect.kindOk) ldrFormat 2 none
  need (ss.all fun x => decide (x.offset % 64 = 0 ∧ 64 + 32 * n ≤ x.offset ∧ x.offset + x.bytes ≤ b.length)) ldrFormat 3 none
  need ((b.drop 16).take 48 == List.replicate 48 0 && ss.all (·.zero)) ldrFormat 4 none
  let images := imagesOf ss
  need (decide (0 ∈ images) && images.all fun i => decide ((sectsIn ss i 4).length = 1) &&
    [1, 5, 6, 7].all fun k => decide ((sectsIn ss i k).length ≤ 1)) ldrFormat 5 none
  need (decide ((sectsIn ss commonImage 1).length ≤ 1)) ldrFormat 5 none
  need (decide (targetOf ss 0 = 1) && ss.all fun x => decide (x.image = commonImage) ||
    decide (x.target = targetOf ss x.image ∧ 1 ≤ x.target)) ldrFormat 1 none
  .ok ss

/-! ## The load request (R281, R285) -/

/-- Whether a number is a size that a region may have. -/
def regionSize (c : Nat) : Bool := [1, 2, 4, 8, 16, 32, 64].contains c

/-- Whether every field of a load request is in its range (R281 reason 6). -/
def LoadReq.inRange (q : LoadReq) : Bool :=
  regionSize q.clusters && decide (q.ovStore % 2 ^ 16 = 0 ∧ q.ovStore ≤ 2 ^ 22) &&
    decide (q.ovBase % 2 ^ 16 = 0 ∧ q.ovSize % 2 ^ 16 = 0 ∧ q.ovSize ≤ 4095 * 2 ^ 16) &&
    q.pools.all fun p => decide (1 ≤ p.2 ∧ p.2 ≤ 4096)

/-! ## Requirements and the choice of the image (R282 to R284) -/

/-- The entries of a requirement list: kind and value. -/
def reqEntries (b : List Byte) : List (Nat × Nat) :=
  (List.range (b.length / 16)).map fun i => (leAt b (16 * i) 2, leAt b (16 * i + 8) 8)

/-- The format of a requirement list (R282). -/
def checkReqs (x : Sect) : LoadRes Unit := do
  need ((reqEntries x.data).all fun e => decide (1 ≤ e.1 ∧ e.1 ≤ 6)) ldrFormat 2 none
  need (decide (x.data.length % 16 = 0)) ldrFormat 3 none
  need ((List.range (x.data.length / 16)).all fun i => decide (leAt x.data (16 * i + 2) 6 = 0)) ldrFormat 4 none

/-- The pool size that a request gives a deep space, if it gives one. -/
def LoadReq.pool (q : LoadReq) (s : Nat) : Option Nat := (q.pools.find? fun p => decide (p.1 = s)).map (·.2)

/-- Whether an entry is met by what the device and the request offer (R282 to R284); with `sizes` false, the overflow sizes
are not compared. -/
def reqMet (s : State) (version : Nat) (q : LoadReq) (sizes : Bool) (e : Nat × Nat) : Bool :=
  match e.1 with
  | 1 => decide (e.2 < 14) && !s.masked e.2
  | 2 => decide (e.2 ≤ q.clusters)
  | 3 => !sizes || decide (e.2 ≤ q.ovStore)
  | 4 => !sizes || decide (e.2 ≤ q.ovSize)
  | 5 => match q.pool (bits e.2 7 0) with
    | some n => decide (bits e.2 27 16 ≤ n)
    | none => false
  | _ => decide (e.2 ≤ version)

/-- The requirements of an image, the common ones among them. -/
def reqsOf (ss : List Sect) (image : Nat) : List (Nat × Nat) :=
  (sectsIn ss commonImage 1 ++ sectsIn ss image 1).flatMap fun x => reqEntries x.data

/-- Whether an image matches (R284). -/
def imageMatch (s : State) (version : Nat) (q : LoadReq) (ss : List Sect) (sizes : Bool) (i : Nat) : Bool :=
  decide (targetOf ss i ≤ 2) && (reqsOf ss i).all (reqMet s version q sizes)

/-- Whether an image comes before another in the choice: by preference, then by target, then by lower index (R284). -/
def imageBefore (ss : List Sect) (i j : Nat) : Bool :=
  let p := fun i => ((sectsIn ss i 4).map (·.pref)).headD 0
  decide (p j < p i) || (decide (p i = p j) && (decide (targetOf ss j < targetOf ss i) ||
    (decide (targetOf ss i = targetOf ss j) && decide (i < j))))

/-- The image that the loader takes, if one matches (R284). -/
def chooseImage (s : State) (version : Nat) (q : LoadReq) (ss : List Sect) (sizes : Bool) : Option Nat :=
  let cand := (imagesOf ss).filter fun i => decide (1 ≤ i) && imageMatch s version q ss sizes i
  match cand with
  | [] => if imageMatch s version q ss sizes 0 then some 0 else none
  | a :: t => some (t.foldl (fun i j => if imageBefore ss j i then j else i) a)

/-- The choice, or its refusal: LDR.FRAMES where only an overflow size fails (R303), else LDR.NOIMAGE (log 105). -/
def pickImage (s : State) (env : LoadEnv) (q : LoadReq) (ss : List Sect) : LoadRes Nat :=
  match chooseImage s env.version q ss true with
  | some i => .ok i
  | none =>
    if (chooseImage s env.version q ss false).isSome then ldrRefuse ldrFrames 0 none else ldrRefuse ldrNoimage 0 none

/-! ## The sequencer program (R67, R114, R293, R317) -/

/-- The sequencer program of an image: its instructions. -/
def checkSeq (image : Nat) (wins : List (Option Nat)) (b : List Byte) : LoadRes (List Instr) := do
  need (decide (b.length % 4 = 0 ∧ b.length ≤ 2 ^ 18)) ldrFormat 3 none
  let is ← (wordsOfBytes (b.length / 4) b).mapM fun w => match decodeSeq w with
    | .ok i => .ok i
    | .error _ => ldrRefuse ldrOpcode 0 none
  need (decide (image ≠ 0) || is.all fun i => match i with
    | .tbind _ _ _ _ => false
    | _ => true) ldrOpcode 0 none
  need (is.all fun i => match i with
    | .wld _ a _ w o => decide (a ≠ 0) || (match wins.getD w.val none with
      | some n => decide (8 * o.toNat < n)
      | none => true)
    | _ => true) ldrWindow 0 none
  .ok is

/-! ## Unplaced nodes (R80, R140, R152 to R163, R293) -/

/-- An edge word (R293). -/
def edgeOf (w : Nat) : SrcEdge := { out := bit w 31, port := bits w 30 29, all := bit w 28, dst := bits w 27 0 }

/-- The nodes of a pload section from its words (R293). -/
def parsePload : Nat → List Nat → Option (List SrcNode)
  | _, [] => some []
  | 0, _ :: _ => none
  | fuel + 1, w :: t =>
    let e := bits w 31 24
    let n := bits w 23 16
    if 63 < e ∨ t.length < n + e then none
    else
      let ws := t.take n
      let es := ((t.drop n).take e).map edgeOf
      let gate := match parseNode ws with
        | some m => (match m.last with
          | some .gate | some (.call _) => true
          | _ => false)
        | none => false
      (parsePload fuel (t.drop (n + e))).map fun l =>
        { tile := bits w 15 0, words := ws, edges := if gate then es.filter (!·.out) else es,
          link := if gate then es.filter (·.out) else [], place := none } :: l

/-- The graph node number that a node's words give. -/
def SrcNode.num (n : SrcNode) : Nat :=
  bits (n.words.getD (1 + (match decodeHead (n.words.getD 0 0) with
    | some h => h.stages
    | none => 0)) 0) 27 0

/-- Whether an operation lies outside Ibtis-1 (R293). -/
def Instr.later (i : Instr) : Bool := Instr.uses i 6 || Instr.uses i 7 || Instr.uses i 9

/-- Whether a node's words and edges are legal (R80, R140, R152, R154, R163, R293, R363); output 1 is a steer's. -/
def srcLegal (s : State) (spaces : List SpaceDesc) (image : Nat) (n : SrcNode) (m : NodeImg) : Bool :=
  headLegal m && (badOp s m 0 none m.ops).isNone && (badConst m).isNone &&
    (decide (image ≠ 0) || (decide (m.head.switches = 0) && !m.ops.any Instr.later)) &&
    (n.edges ++ n.link).all (fun e => decide (e.port ≤ 2)) &&
    (match m.last with
      | none => false
      | some i =>
        (if n.edges = [] then decide (m.emit.tagsel = 0) else (Instr.tagsels i).contains m.emit.tagsel) &&
        (match i with
          | .ret _ => decide (n.edges = [])
          | .free _ =>
            let d := spaces.getD m.head.space SpaceDesc.none
            decide ((n.edges = [] ∧ m.head.switches = 0) ∨ d.parent.isSome ∨ d.kind ≠ .plain)
          | .upd _ _ _ => !s.masked 5
          | _ => true) &&
        (match i with
          | .steer _ _ => true
          | _ => !(n.edges.any (·.out))))

/-- Whether an operation's link word names a destination (R149). -/
def Instr.linksNode (i : Instr) : Bool := match i with
  | .gate | .call _ => true
  | _ => false

/-- The graph node number of the node of a native node's tile that stands in a PE and slot. -/
def SrcNode.beside (n : SrcNode) (ns : List SrcNode) (pe slot : Nat) : LoadRes Nat :=
  match ns.find? fun k => decide (k.tile = n.tile ∧ k.place = some (pe, slot)) with
  | some k => .ok k.num
  | none => ldrRefuse ldrOpcode 0 (some n.num)

/-- The destinations of a native node (R293): its relocations name those in other tiles, which far words reach; the other leaves of
its route, and a link word without a relocation, name nodes of its own tile (log 102). -/
def SrcNode.recover (n : SrcNode) (ns : List SrcNode) (m : NodeImg) : LoadRes SrcNode := do
  let near ← (m.leaves.filter fun l => decide (l.far = none)).mapM fun l =>
    (n.beside ns (routePe (n.place.getD (0, 0)).1 l.hops) l.node).map fun d =>
      ({ out := l.sel, port := l.port, all := false, dst := d } : SrcEdge)
  let link ← match decodeLink (m.link % 2 ^ 24) with
    | some d =>
      if (m.last.map Instr.linksNode).getD false ∧ n.link = [] then
        (n.beside ns d.pe d.node).map fun k => [({ out := true, port := d.port, all := false, dst := k } : SrcEdge)]
      else .ok n.link
    | none => .ok n.link
  .ok { n with edges := near ++ n.edges, link := link }

/-- Reads and checks a node of image 0, whose link word's destination and whose outputs are checked first (R293). -/
def checkUnplaced (s : State) (spaces : List SpaceDesc) (n : SrcNode) : LoadRes (SrcNode × NodeImg) := do
  match parseNode n.words with
  | none => ldrRefuse ldrOpcode 0 (some n.num)
  | some m =>
    let links := (m.last.map Instr.linksNode).getD false
    let steer := match m.last with
      | some (.steer _ _) => true
      | _ => false
    need (!links || decide (m.link % 2 ^ 24 = 0)) ldrFormat 4 (some n.num)
    need (if links then decide (n.link.length = 1) else decide (n.link = [])) ldrFormat 5 (some n.num)
    need (steer || !n.edges.any (·.out)) ldrFormat 5 (some n.num)
    need (srcLegal s spaces 0 n m && (!links || m.head.kmask.getLsbD 6)) ldrOpcode 0 (some n.num)
    .ok (n, m)

/-- Reads and checks a node of a native image, with its switch words (R80, R293). -/
def checkNative (s : State) (spaces : List SpaceDesc) (image : Nat) (ns : List SrcNode) (n : SrcNode) :
    LoadRes (SrcNode × NodeImg) := do
  match parseNode n.words with
  | none => ldrRefuse ldrOpcode 0 (some n.num)
  | some m =>
    need (nodeBad s n.words).isNone ldrOpcode 0 (some n.num)
    let k ← n.recover ns m
    let links := (m.last.map Instr.linksNode).getD false
    need (srcLegal s spaces image k m && decide (k.link.length = bitN links) && (!links || m.head.kmask.getLsbD 6)) ldrOpcode 0
      (some n.num)
    .ok (k, m)

/-! ## Replication (R31, R286 to R289) -/

/-- The copies of each tile: F and A of R286. -/
def copiesOf (f c : Nat) (tiles : List (Option Nat)) : LoadRes (List Nat) := do
  let fixed := (tiles.map fun t => t.getD 0).sum
  let autos := (tiles.filter (·.isNone)).length
  need (decide (1 ≤ f ∧ f ≤ 4 ∧ fixed ≤ f * c)) ldrFrames 0 none
  let r := (f * c - fixed) / autos
  need (decide (autos = 0 ∨ 1 ≤ r)) ldrPlace 0 none
  .ok (tiles.map fun t => t.getD r)

/-- A fabric load as declared: its tiles' declared counts and copies, and its nodes with their words read. -/
structure Decl where
  tiles : List (Option Nat)
  copies : List Nat
  nodes : List (SrcNode × NodeImg)
  deriving DecidableEq, Repr, Inhabited

/-- The tiles that hold nodes of a space. -/
def Decl.tilesOf (d : Decl) (s : Nat) : List Nat :=
  ((d.nodes.filter fun n => decide (n.2.head.space = s)).map (·.1.tile)).dedup

/-- Whether a tile is replicated: its count is auto or more than 1 (R288; log 105). -/
def Decl.replicated (d : Decl) (t : Nat) : Bool := decide (d.tiles.getD t (some 1) ≠ some 1)

/-- Whether a space is replicated with its tile (R288). -/
def Decl.moves (d : Decl) (s : Nat) : Bool :=
  match d.tilesOf s with
  | [t] => d.replicated t
  | _ => false

/-- The identifier of copy `i` of a space of `n` declared ones (R288). -/
def Decl.spaceOf (d : Decl) (n i s : Nat) : Nat := if d.moves s then s + i * n else s

/-- The copies that a space has. -/
def Decl.spaceCopies (d : Decl) (s : Nat) : Nat :=
  match d.tilesOf s with
  | [t] => if d.replicated t then d.copies.getD t 1 else 1
  | _ => 1

/-- The spaces that break R288: shared with another tile, or with identifiers above 255. -/
def Decl.badSpaces (d : Decl) (n : Nat) : List Nat :=
  (List.range n).filter fun s =>
    (decide (2 ≤ (d.tilesOf s).length) && (d.tilesOf s).any d.replicated) || decide (256 < s + 1 + (d.spaceCopies s - 1) * n)

/-- The descriptors of a fabric load's spaces after replication. -/
def Decl.spaces (d : Decl) (base : List SpaceDesc) : List SpaceDesc :=
  (List.range 256).map fun id =>
    let n := base.length
    let s := id % n
    let i := id / n
    if i = 0 ∨ (d.moves s ∧ i < d.spaceCopies s) then
      let b := base.getD s SpaceDesc.none
      { b with parent := b.parent.map (d.spaceOf n i) }
    else SpaceDesc.none

/-- The first virtual tile of a tile's copies (R287). -/
def Decl.firstOf (d : Decl) (t : Nat) : Nat := (d.copies.take t).sum

/-- The nodes after replication, in the order of tiles, copies and nodes: each with its copy. -/
def Decl.placed (d : Decl) : List ((SrcNode × NodeImg) × Nat) :=
  (List.range d.tiles.length).flatMap fun t => (List.range (d.copies.getD t 0)).flatMap fun i =>
    (d.nodes.filter fun n => decide (n.1.tile = t)).map fun n => (n, i)

/-- The nodes that an edge of copy `i` names (R289): none where there is no such graph node. -/
def Decl.resolve (d : Decl) (i : Nat) (e : SrcEdge) : Option (List Nat) :=
  match d.nodes.find? fun n => decide (n.1.num = e.dst) with
  | none => none
  | some n =>
    let r := d.copies.getD n.1.tile 1
    ((if e.all then List.range r else [i % r]).mapM fun j =>
      d.placed.findIdx? fun x => decide (x.1.1.num = e.dst ∧ x.2 = j))

/-- A node of the graph after replication, or its node number where an edge names no node. -/
def Decl.gnode (d : Decl) (n : Nat) (x : (SrcNode × NodeImg) × Nat) : LoadRes GNode := do
  let outs ← x.1.1.edges.mapM fun e => match d.resolve x.2 e with
    | none => ldrRefuse ldrOpcode 0 (some x.1.1.num)
    | some ks => .ok (ks.map fun k => (e.out, k, e.port))
  let link ← x.1.1.link.mapM fun e => match d.resolve x.2 { e with all := false } with
    | none => ldrRefuse ldrOpcode 0 (some x.1.1.num)
    | some ks => .ok (ks.map fun k => (k, e.port))
  .ok { num := x.1.1.num, tile := x.1.1.tile, copy := x.2, copies := d.copies.getD x.1.1.tile 1, words := x.1.1.words, vtile := d.firstOf x.1.1.tile + x.2, img := x.1.2,
        space := d.spaceOf n x.2 x.1.2.head.space, target := d.spaceOf n x.2 (x.1.2.link / 2 ^ 24), outs := outs.flatten,
        link := link.flatten.head?, place := x.1.1.place }

/-! ## Frames (R29, R303) and windows (R73) -/

/-- The positions of a plane of a tile: 64 PEs of 128 slots (R293). -/
def tileRoom : Nat := 64 * 128

/-- The first free position of a plane from `p` up, with wrap. -/
def freeSpot (taken : List Nat) : Nat → Nat → Option Nat
  | 0, _ => none
  | n + 1, p => if taken.contains p then freeSpot taken n ((p + 1) % tileRoom) else some p

/-- A place of its own for each node, from node `k` on, within the groups that share positions: the first free one from where the
loader looks first. -/
def spread (start : Nat → Nat) (group : GNode → Nat) : Nat → List (Nat × Nat) → List GNode → Option (List (Nat × Nat))
  | _, _, [] => some []
  | k, taken, n :: t =>
    (freeSpot ((taken.filter fun e => decide (e.1 = group n)).map (·.2)) tileRoom (start k)).bind fun p =>
      (spread start group (k + 1) ((group n, p) :: taken) t).map ((p / 128, p % 128) :: ·)

/-- Where nodes look first for a place. -/
def LoadEnv.start (env : LoadEnv) (l k : Nat) : Nat := (env.place l k).1 % 64 * 128 + (env.place l k).2 % 128

/-- The PE and slot of each node (R286, R287, R293; log 103): an image of target 2 stands as placed; any other is placed anew, each
cluster's nodes apart whatever their plane where there is room, so that no destination is in doubt, and else each plane's. -/
def Graph.places (g : Graph) (env : LoadEnv) (anew : Bool) (l c : Nat) : Option (List (Nat × Nat)) :=
  if anew then (spread (env.start l) (fun n => n.vtile % c) 0 [] g.nodes).or (spread (env.start l) (·.vtile) 0 [] g.nodes)
  else some (g.nodes.zipIdx.map fun n => n.1.place.getD (env.start l n.2 / 128, env.start l n.2 % 128))

/-- The places of the nodes on their clusters and planes (R287, R291). -/
def Graph.refs (g : Graph) (c : Nat) (ps : List (Nat × Nat)) : List NodeRef :=
  (g.nodes.zip ps).map fun e => { cl := e.1.vtile % c, plane := e.1.vtile / c, pe := e.2.1, slot := e.2.2 }

/-- The frame demand of a PE of a cluster (R29). -/
def Graph.demand (g : Graph) (refs : List NodeRef) (cl pe : Nat) : Nat :=
  (((g.nodes.zip refs).filter fun e => decide (e.2.cl = cl ∧ e.2.pe = pe)).map fun e =>
    descSlots g.spaces 257 e.1.space * (e.1.img.head.inputs + e.1.img.head.scales)).sum

/-- The bytes of excess records over the clusters of a region (R29). -/
def Graph.excess (g : Graph) (refs : List NodeRef) (c ovStore : Nat) : Nat :=
  128 * ((List.range c).map fun cl =>
    ((List.range 64).map fun pe => g.demand refs cl pe - 512).sum - ovStore / 128).sum

/-- The nodes with a window read that lies at or beyond the declared size in every lane (R73). -/
def Graph.beyond (g : Graph) (wins : List (Option Nat)) : List Nat :=
  g.those fun _ n =>
    let k := (n.img.consts.getD 7 0).toNat
    n.img.ops.any fun i => (Instr.sels i).contains .win && match wins.getD (k % 8) none with
      | some b => decide (b ≤ k / 256 * IntTy.bytes (Instr.winTy i))
      | none => false

/-! ## A fabric load -/

/-- The nodes of a section of a fabric load. -/
def sectNodes (env : LoadEnv) (x : Sect) : LoadRes (List SrcNode) :=
  if x.kind = 3 then .ok (env.native x.data)
  else
    let b := x.data.drop (env.fabric x.data).2.2
    match (if b.length % 4 = 0 then parsePload (b.length / 4) (wordsOfBytes (b.length / 4) b) else none) with
    | some l => .ok l
    | none => ldrRefuse ldrFormat 3 none

/-- A fabric load as the loader places it: its graph, its fold, the places of its nodes, and its nodes with their words. -/
structure Placed where
  graph : Graph
  fold : Nat
  refs : List NodeRef
  nodes : List ImageNode
  deriving DecidableEq, Repr, Inhabited

/-- The destinations of a node as placed. -/
def Graph.dests (g : Graph) (refs : List NodeRef) (k : Nat) : List PlacedDest :=
  (g.node k).outs.map fun o => { sel := o.1, ref := refs.getD o.2.1 default, port := o.2.2 }

/-- The switch half words of a node: where they route to its destinations, its own in an image that stands as placed, or else those
that the loader chose; else a plain route (R289, R293; log 103). -/
def Graph.route (g : Graph) (env : LoadEnv) (anew : Bool) (l : Nat) (refs : List NodeRef) (k : Nat) : List Nat :=
  let at_ := refs.getD k default
  let ds := g.dests refs k
  let own := if anew then env.route l k else nodeHalves (g.node k).img.head (g.node k).words
  if ds = [] then [] else if routeTo at_ ds own then own else plainRoute at_ ds

/-- The words of node `k` as placed (R68, R149, R288, R289). -/
def Graph.imageNode (g : Graph) (env : LoadEnv) (anew : Bool) (l : Nat) (refs : List NodeRef) (k : Nat) : ImageNode :=
  let n := g.node k
  { ref := refs.getD k default,
    words := n.placedWords (fun j => (env.copyConst l n.num j).map fun all => if all then n.copies else n.copy)
      (n.link.map fun d => { sel := false, ref := refs.getD d.1 default, port := d.2 }) (g.route env anew l refs k) }

/-- The nodes of a section, read and checked. -/
def checkNodes (s : State) (env : LoadEnv) (image : Nat) (base : List SpaceDesc) (tiles : Nat) (x : Sect) :
    LoadRes (List (SrcNode × NodeImg)) := do
  let src ← sectNodes env x
  need (src.all fun n => decide (n.tile < tiles)) ldrFormat 3 none
  src.mapM fun n => if x.kind = 3 then checkNative s base image src n else checkUnplaced s base n

/-- Section `x` as fabric load `l` of an image: what the loader places, with what it needs of the request (R286 to R293, R297,
R303); `anew` tells whether it is translated. -/
def checkFabric (s : State) (env : LoadEnv) (q : LoadReq) (image : Nat) (anew : Bool) (base : List SpaceDesc)
    (wins : List (Option Nat)) (l : Nat) (x : Sect) : LoadRes Placed := do
  let c := q.clusters
  let (f, tiles, _) := env.fabric x.data
  let nodes ← checkNodes s env image base tiles.length x
  let copies ← copiesOf f c tiles
  let d : Decl := { tiles := tiles, copies := copies, nodes := nodes }
  let bad := d.badSpaces base.length
  let gs ← d.placed.mapM (d.gnode base.length)
  let g : Graph := { nodes := gs, spaces := d.spaces base }
  match g.check s (Nat.log2 c) { nums := (nodes.filter fun n => bad.contains n.2.head.space).map (·.1.num), bare := bad ≠ [] } with
  | some r => ldrRefuse ldrTagcheck r.1 r.2
  | none => match g.places env anew l c with
    | none => ldrRefuse ldrPlace 0 none
    | some ps =>
      let refs := g.refs c ps
      match g.those fun k _ => decide (63 < (g.route env anew l refs k).length) with
      | k :: _ => ldrRefuse ldrPlace 0 (some (g.node k).num)
      | [] =>
        need (decide refs.Nodup && refs.all fun r => decide (r.pe < 64 ∧ r.slot < 128)) ldrPlace 0 none
        need (decide (g.excess refs c q.ovStore ≤ q.ovSize)) ldrFrames 0 none
        match g.nums (g.beyond wins) with
        | [] => .ok { graph := g, fold := f, refs := refs,
                      nodes := (List.range gs.length).map (g.imageNode env anew l refs) }
        | ns => ldrRefuse ldrWindow 0 ns.min?

/-! ## Relocations (R302) -/

/-- A relocation: its window, kind, number and offset, and whether its zero bytes are zero. -/
structure Reloc where
  win : Nat
  kind : Nat
  num : Nat
  off : Nat
  zero : Bool
  deriving DecidableEq, Repr, Inhabited

/-- The relocations of a windows section. -/
def relocsOf (b : List Byte) : List Reloc :=
  (List.range (b.length / 16)).map fun i =>
    let o := 16 * i
    { win := leAt b o 1, kind := leAt b (o + 1) 1, num := leAt b (o + 4) 4, off := leAt b (o + 8) 8,
      zero := decide (leAt b (o + 2) 2 = 0 ∧ (leAt b (o + 1) 1 ≠ 3 ∨ leAt b (o + 4) 4 = 0)) }

/-- The relocations of an image with `loads` fabric loads and `datas` data sections. -/
def checkRelocs (wins : List (Option Nat)) (loads datas : Nat) (b : List Byte) : LoadRes (List Reloc) := do
  let rs := relocsOf b
  need (rs.all fun r => decide (1 ≤ r.kind ∧ r.kind ≤ 3)) ldrFormat 2 none
  need (decide (b.length % 16 = 0) && rs.all fun r => decide (r.win < 8 ∧ r.off % 8 = 0 ∧
    r.off < (wins.getD r.win none).getD 0 ∧ (r.kind ≠ 1 ∨ r.num < loads) ∧ (r.kind ≠ 2 ∨ r.num < datas))) ldrFormat 3 none
  need (rs.all (·.zero)) ldrFormat 4 none
  .ok rs

/-- The doubleword that a relocation writes. -/
def Reloc.value (env : LoadEnv) (c : Nat) (r : Reloc) : Nat :=
  match r.kind with
  | 1 => env.imageAt r.num
  | 2 => env.dataAt r.num
  | _ => c

/-- The bytes that the relocations write into the window images of a request. -/
def relocCells (env : LoadEnv) (q : LoadReq) (rs : List Reloc) : List Cell :=
  rs.flatMap fun r =>
    let w := q.windows.getD r.win (0, 0, 0)
    ((toBytes (r.value env q.clusters) 8).zipIdx.map fun b => (w.2.2 + r.off + b.2, b.1)).filter fun e =>
      decide (e.1 < w.2.2 + w.2.1)

/-! ## The load record (R285, R375) -/

/-- The relative die of a node's cluster. -/
def homeDie (c : Nat) (n : GNode) : Nat := n.vtile % c / 8

/-- The home of a space (R375): the relative die of its allocating node with the lowest number, over every fabric load. -/
def homeOf (c : Nat) (gs : List Graph) (s : Nat) : Nat :=
  let ns := gs.flatMap fun g => g.nodes.filter fun n =>
    (n.isSource && decide (n.space = s)) || ((n.isAlloc || n.isCall) && decide (n.target = s))
  match ns with
  | [] => 0
  | a :: t => homeDie c (t.foldl (fun m n => if n.num < m.num then n else m) a)

/-- The descriptors of a record: those of the fabric load that uses a space, with the space's home. -/
def recordSpaces (c : Nat) (base : List SpaceDesc) (gs : List Graph) : List SpaceDesc :=
  (List.range 256).map fun s =>
    let d := ((gs.map fun g => g.space s).find? fun d => decide (d.kind ≠ .unused)).getD (base.getD s SpaceDesc.none)
    if d.kind = .unused then d else { d with home := homeOf c gs s }

/-- The barriers that the nodes of a fabric load and the sequencer hold arrives on, with the agents that hold them (R256). -/
def holdersOf (is : List Instr) (ps : List Placed) : List (Nat × Nat) :=
  (ps.flatMap fun p => (p.graph.nodes.zip p.refs).flatMap fun e =>
    e.1.img.ops.filterMap fun i => match i with
      | .arriveNode b => some (b.val, e.2.cl * 64 + e.2.pe)
      | _ => none) ++
  is.filterMap fun i => match i with
    | .arrive b => some (b.val, 4096)
    | _ => none

/-- The features that an image requires. -/
def featuresOf (es : List (Nat × Nat)) : BitVec 14 :=
  es.foldl (fun m e => if e.1 = 1 ∧ e.2 < 14 then m ||| BitVec.ofNat 14 (2 ^ e.2) else m) 0

/-! ## A load -/

/-- What a load gives: the record, the bytes that it writes, those of its configuration images and of its relocations, and the
number of its images. -/
structure Loaded where
  rec_ : LoadRecord
  cells : List Cell
  images : Nat
  deriving DecidableEq, Repr, Inhabited

/-- The fabric loads of an image, each with its number. -/
def checkFabrics (s : State) (env : LoadEnv) (q : LoadReq) (image : Nat) (anew : Bool) (base : List SpaceDesc)
    (wins : List (Option Nat)) : Nat → List Sect → LoadRes (List Placed)
  | _, [] => .ok []
  | l, x :: t => do
    let g ← checkFabric s env q image anew base wins l x
    let gs ← checkFabrics s env q image anew base wins (l + 1) t
    .ok (g :: gs)

/-- The bytes of the configuration images of placed fabric loads, from number `l` up (R285, R290). -/
def imageCells (env : LoadEnv) (c : Nat) : Nat → List Placed → List Cell
  | _, [] => []
  | l, p :: t => wordCells (env.imageIa l) (imageWords (env.ident l) c p.fold p.nodes) ++ imageCells env c (l + 1) t

/-- The loader's work on an object and a request (R280 to R303). -/
def loadObject (s : State) (env : LoadEnv) (object : List Byte) (q : LoadReq) : LoadRes Loaded := do
  let ss ← checkObject env object
  let _ ← (ss.filter fun x => decide (x.kind = 1)).mapM checkReqs
  need q.inRange ldrFormat 6 none
  let i ← pickImage s env q ss
  let sect := fun k => ((sectsIn ss i k).map (·.data)).headD []
  let (wins, skip) := if sectsIn ss i 7 = [] then ([], 0) else env.windows (sect 7)
  let is ← checkSeq i wins (sect 4)
  let base := (if sectsIn ss i 5 = [] then [] else env.spaces (sect 5)).zipIdx.map fun d =>
    if d.1.kind = .deep then { d.1 with n := (q.pool d.2).getD d.1.n } else d.1
  need (decide (base.length ≤ 256)) ldrTagcheck 12 none
  let loads := (sectsIn ss i 2) ++ (sectsIn ss i 3)
  let ps ← checkFabrics s env q i (decide (targetOf ss i = 1)) base wins 0 loads
  let gs := ps.map (·.graph)
  let rs ← checkRelocs wins loads.length (sectsIn ss i 8).length ((sect 7).drop skip)
  let es := if sectsIn ss i 6 = [] then [] else env.scopes (sect 6)
  .ok {
    rec_ := {
      lsize := Nat.log2 q.clusters, program := sect 4, images := (List.range loads.length).map env.imageAt,
      spaces := (recordSpaces q.clusters base gs).map SpaceDesc.word,
      cm := es.foldl (fun m e => smSet 0 m e.1 e.2.1) [], pm := es.foldl (fun m e => smSet 0 m e.1 e.2.2) [], sys := 0,
      winDecl := wins, winImage := (List.range 8).map fun j => ((q.windows.getD j (0, 0, 0)).1, (q.windows.getD j (0, 0, 0)).2.1),
      ovStore := q.ovStore, ovBase := q.ovBase, ovSize := q.ovSize, requires := featuresOf (reqsOf ss i),
      arrivers := holdersOf is ps },
    cells := imageCells env q.clusters 0 ps ++ relocCells env q rs, images := ps.length }

/-- The loader takes a load request: it writes the configuration images, completes the window images and leaves a load record at
an intermediate address, or reports its refusal to the host and places nothing (R11, R281, R285, R290; log 5). -/
def loaderTurn (ia : Nat) (object : List Byte) (q : LoadReq) (s : State) : State :=
  let t : State := { s with frees := s.frees + 1 }
  match loadObject s (s.loadEnv object q) object q with
  | .error r => { t with ldrLog := t.ldrLog ++ [r] }
  | .ok l => writeHome l.cells { t with records := smIns t.records ia l.rec_, idents := t.idents + l.images }

end Sys2Proof.Machine
end

