-- ==== Sys2Proof/Machine/Turns.lean ====
section
/-! DEFINITION. Whose turn it is, and what a turn does: the fetch of a sequencer instruction (R93), the operation of a firing's
stage (R16), events, the passing of cycles, the loader, and upsets (R344). -/

namespace Sys2Proof.Machine

open Sys2Proof

/-! ## Turns (R242, R250; log 1) -/

/-- The next turn: the head of the agenda, or one that nothing fixes. -/
def nextTurn (s : State) : Turn × State :=
  match s.agenda with
  | t :: ts => (t, { s with agenda := ts })
  | [] => (Config.turn s.turns, { s with turns := s.turns + 1 })

/-- Gives the turn to a context or firing, or to none. -/
def State.withCur (s : State) (u : Cur) : State := { s with cur := u }

/-- The turn ends: nothing holds it. -/
def endTurn (o : Out) : Out :=
  match o with
  | .next s => .next (s.withCur .none)
  | .fault f => .fault f
  | .refused r => .refused r

/-! ## The sequencer's fetch (R92, R93) -/

/-- Whether the sequencer of a context executes: its region runs or drains, or its done is under way, it has not stopped, and
its region has resumed after a restore (R339). -/
def Ctx.seqRuns (x : Ctx) : Bool := x.trappable && decide (x.seq.phase ≠ .stopped) && x.goesOn none

/-- Whether an address is one that a sequencer may fetch from (R93). -/
def State.fetchable (s : State) (x : Ctx) (pc : Nat) : Bool :=
  decide (pc < 2 ^ 30) && x.inBlock (x.spAddr pc / 2 ^ 24) && !s.carved (x.spAddr pc + 3)

/-- What the fetch of a context's next instruction gives: the instruction, or what it raises (R67, R93, R95, R344). -/
inductive Fetch where
  | instr (i : Instr)
  | bad (code : Nat) (epc report : Word)
  deriving DecidableEq, Repr, Inhabited

/-- A word of the program as an instruction; an illegal word is one of its own (R67). -/
def instrOf (w : BitVec 32) : Instr :=
  match decodeSeq w.toNat with
  | .ok i => i
  | .error _ => .illegalSequencerWord w

/-- The instruction in progress, or the word at the program counter, which is fetched once and kept until its instruction
is left (R93). -/
def fetchSeq (c : Nat) (s : State) : Fetch × State :=
  let x := s.ctx c
  let pc := x.seq.addr
  match x.seq.ir with
  | some w => (.instr (instrOf w), s)
  | none =>
    if x.seq.far || !s.fetchable x pc.toNat then (.bad trapSeqPc pc pc, s)
    else
      let r := spRead (x.spAddr pc.toNat) 4 s
      match r.bad with
      | some w => (.bad trapEccSp pc (BitVec.ofNat 64 w), r.s)
      | none =>
        let w := BitVec.ofNat 32 r.val
        (.instr (instrOf w), r.s.modSeq c fun q => { q with ir := some w })

/-- The turn of a sequencer. -/
def seqTurn (c : Nat) (s : State) : Out :=
  if !(s.ctx c).seqRuns then .next s
  else match fetchSeq c s with
    | (.instr i, s) => exec i (s.withCur (.seq c))
    | (.bad code epc report, s) => .next (seqTrap c code 0 epc report s)

/-! ## The operation of a firing -/

/-- The operation that a firing executes next. -/
def firingOp (c fid : Nat) (s : State) : Option Instr :=
  match (s.fab c).firings.find? fun g => g.id == fid with
  | none => none
  | some g => (s.nodeImg (s.ctx c) g.ref).bind fun m => m.ops[g.stage]?

/-- The turn of a firing. -/
def firingTurn (c fid : Nat) (s : State) : Out :=
  if !(s.ctx c).live || !(s.ctx c).goesOn (some fid) then .next s
  else match firingOp c fid s with
    | none => .next s
    | some i => exec i (s.withCur (.firing c fid))

/-! ## Cycles (R37, R316, R351, R368, R371) -/

/-- Cycles pass for a context: the watchdog counts where no engine command of the region is in progress, in a drain too but
for one of a page fault (R37, R322, R339), and its ready task waits (R316). -/
def tickCtx (s : State) (n c : Nat) (x : Ctx) : Ctx :=
  let idle :=
    if !x.live || decide (x.st = .draining ∧ x.cause = some .page) then x.fab.idle
    else if s.hasCmd c false then 0 else x.fab.idle + n
  { x with
    fab := { x.fab with idle := idle },
    queue := match x.queue with
      | t :: ts => (if x.ready t then { t with w := t.w + n } else t) :: ts
      | [] => [] }

/-- Cycles pass. -/
def tick (n : Nat) (s : State) : State :=
  { s with
    cycles := s.cycles + n,
    ctxs := smMap Ctx.reset (tickCtx s n) s.ctxs,
    govs := smMap Gov.reset (fun _ g => { g with
      waited := g.waited + n * g.queue.length, throttled := g.throttled + (if g.halved then n else 0) }) s.govs,
    ports := smMap LinkPort.reset (fun _ p => if p.up then { p with upCycles := p.upCycles + n } else p) s.ports }

/-! ## Upsets (R344) -/

/-- The k-th element of a list changed. -/
def modAt {α : Type} (f : α → α) : List α → Nat → List α
  | [], _ => []
  | a :: t, 0 => f a :: t
  | a :: t, n + 1 => a :: modAt f t n

/-- Bits of a stored word are flipped: 0 scratchpad and 1 HBM by word, 2 a waiting operand by context and place, 3 a sorter's
record, 4 an operand latch's word, 5 a tag-table entry. -/
def upset (store key : Nat) (mask : Word) (s : State) : State :=
  match store with
  | 0 => { s with sp := wrBytes s.sp (8 * key) (rdBytes s.sp (8 * key) 8 ^^^ mask.toNat) 8,
                  spErr := smSet 0 s.spErr key (smGet 0 s.spErr key ^^^ mask) }
  | 1 => { s with hbm := wrBytes s.hbm (8 * key) (rdBytes s.hbm (8 * key) 8 ^^^ mask.toNat) 8,
                  hbmErr := smSet 0 s.hbmErr key (smGet 0 s.hbmErr key ^^^ mask) }
  | 2 => s.modFab (key % 64) fun f => { f with
      waiting := modAt (fun w => { w with err := w.err ^^^ mask.toNat }) f.waiting (key / 64) }
  | 3 => { s with recs := modAt (fun r => { r with err := r.err ^^^ mask.toNat }) s.recs key }
  | 4 => { s with latchErr := smSet 0 s.latchErr key (smGet 0 s.latchErr key ^^^ mask.toNat) }
  | 5 => { s with tagtab := smSet 0 s.tagtab key (smGet 0 s.tagtab key ^^^ mask.setWidth 63),
                  tagErr := smSet 0 s.tagErr key (smGet 0 s.tagErr key ^^^ mask.toNat % 2 ^ 63) }
  | _ => s

/-! ## A turn -/

/-- Whether an instruction belongs to a sequencer or a firing: it has a word of its own, or is the illegal word of R67. -/
def ofAgent (i : Instr) : Bool :=
  (encode i).isSome || match i with
    | .illegalSequencerWord _ => true
    | _ => false

/-- What a turn does; an instruction of a sequencer or a firing is no event. -/
def runTurn (t : Turn) (s : State) : Out :=
  match t with
  | .seq c => seqTurn c s
  | .firing c f => firingTurn c f s
  | .event i => if ofAgent i then .next s else exec i (s.withCur .none)
  | .tick n => .next (tick n s)
  | .load ia object q => .next (loaderTurn ia object q s)
  | .outside place a bytes => .next (remoteWrite place (a % 2 ^ 48) bytes s)
  | .tlbDrop die k => .next (dropTlb die k s)
  | .upset store key mask => .next (upset store key mask s)

/-! ## Placing a program (log 2) -/

/-- A context that runs on cluster 0, with one plain space: what withFetchWord stands for. -/
def placedCtx : Ctx :=
  { Ctx.reset with
    st := .running, en := true,
    spaces := smSet SpaceDesc.none [] 0 { kind := .plain, parent := none, home := 0, n := 1 },
    slots := smSet Slot.zero [] 0 { Slot.zero with live := true } }

/-- The head word of a node of three inputs, one stage and no switch words (R69). -/
def placedHead : Nat := 0x30010000

/-- A firing of node 0 with a token on each of its three ports. -/
def placedFiring : Firing :=
  let tok : Tok := { tag := 0, kind := .data, mask := 0xFFFF, payload := [], dest := { cl := 0, plane := 0, pe := 0, slot := 0 },
                     port := 0, src := { cl := 0, plane := 0, pe := 0, slot := 0 }, pred := [] }
  { id := 0, ref := tok.dest, tag := 0, ports := [some tok, some { tok with port := 1 }, some { tok with port := 2 }],
    scales := [none, none], stage := 0, x := [], mask := 0xFFFF, act := 0xFFFF, fwd := [], fl := 0, phase := .run,
    wins := [], got := [] }

/-- A node operation's word stands in node 0 of the region of context 0, and a firing of that node is in its stage. -/
def placeNode (w : Nat) (s : State) : State :=
  let x : Ctx := if (s.ctx 0).live then s.ctx 0 else placedCtx
  let s := s.setCtx 0 { x with fab := { x.fab with firings := [placedFiring], nextId := 1 } }
  { s with
    nodes := smSet [] s.nodes (nodeKey x.first 0 0 0) [placedHead, w, 0], agenda := [.firing 0 0] }

/-- A sequencer instruction's word stands where the sequencer of context 0 fetches next. -/
def placeSeq (w : Nat) (s : State) : State :=
  let x : Ctx := if (s.ctx 0).live then s.ctx 0 else placedCtx
  let s := s.setCtx 0 { x with seq := { x.seq.point x.seq.addr with phase := .ready } }
  { s with sp := wrBytes s.sp (x.spAddr x.seq.addr.toNat) w 4, agenda := [.seq 0] }

end Sys2Proof.Machine
end

