-- ==== Sys2Proof/Machine/Step.lean ====
section
/-! DEFINITION. One step of the package: one turn. -/

namespace Sys2Proof.Machine

/-- One step: the turn that is due is taken. -/
def step (s : State) : Host.Outcome State Fault Refusal :=
  endTurn (runTurn (nextTurn s).1 (nextTurn s).2)

/-- The state with an instruction word stored where the next step fetches it: a node operation's word as the operation of a
firing of context 0, a sequencer instruction's word at the program counter of context 0 (R59; log 2). -/
def State.withFetchWord (s : State) (nbits w : Nat) : State :=
  if nbits ≠ 32 then s
  else match decodeNode (w % 2 ^ 32) with
    | .ok _ => placeNode (w % 2 ^ 32) s
    | .error _ => placeSeq (w % 2 ^ 32) s

end Sys2Proof.Machine
end

