-- ==== Sys2Proof/Safety.lean ====
section
/-! DEFINITION. What a safe step and a well-formed state are: the canonical form of the byte stores, of the store of contexts
and of the register files. -/

namespace Sys2Proof.Machine

/-- The canonical form of a byte store: addresses strictly rising, no entry that reads as an unlisted one. -/
def Memory.wf (m : List Host.Cell) : Bool := smWf 0 m

/-- The byte stores of the package, and those of the host and of its peers, are in canonical form. -/
def State.memWf (s : State) : Bool := Memory.wf s.sp && Memory.wf s.hbm && Memory.wf s.hostMem && Memory.wf s.peerMem

/-- The store of contexts is in canonical form. -/
def State.ctxWf (s : State) : Bool := smWf Ctx.reset s.ctxs

/-- The register file of every context's sequencer is in canonical form. -/
def State.regWf (s : State) : Bool := s.ctxs.all fun p => smWf 0 p.2.seq.regs

/-- A step is safe when it has a next state. -/
def Safe (s : State) : Prop := ∃ t, step s = .next t

end Sys2Proof.Machine
end

