-- ==== Sys2Proof/Certificates/Slice0/Obligations.lean ====
section
/-! DEFINITION. What is claimed of the model, rule by rule: every statement names the rules of the spec that it formalises.  A
statement about several rules is the conjunction of its parts, which stand in Sys2Proof.Claims. -/

open Sys2Proof Sys2Proof.Machine

namespace Sys2Proof.Claims

open Sys2Proof Sys2Proof.Machine

/-- Sequencer `c` holds the turn, an instruction with these sources and this destination issues, and no breakpoint fires on
its pass; `s'` is the state with the pass counted (R61, R96, R348). -/
def Issues (c : Nat) (srcs : List Src) (dst : SReg) (s s' : State) : Prop :=
  s.cur = .seq c ∧ (s.seq c).issue srcs dst = .go ∧ beginPass c s = (s', none)

/-- Context `c`'s instruction writes `v` to register `d` and retires through its boundary (R61, R102). -/
def writes (c : Nat) (d : SReg) (v : Word) (s : State) : Out := .next (retire c (s.modSeq c fun q => q.wr d v))

/-- No active loop level of a sequencer ends at its pc: its instruction's retirement is no boundary (R102). -/
def NoBoundary (q : Seq) : Prop := ∀ v : Nat, v < 4 → q.act.getLsbD v = true → smGet 0 q.le v ≠ q.addr.toNat

/-- The instructions of a sequencer with the sources, in the order of their fields, and the destination that each issues
with (R60 to R66, R96). -/
def Issuing (f : Instr × List Src × SReg) : Prop :=
  ∃ (d a b : SReg) (ea eb : Bool) (i15 : BitVec 15) (i14 : BitVec 14) (i21 : BitVec 21) (i16 : BitVec 16) (i12 : BitVec 12)
    (i9 : BitVec 9) (w : Fin 8) (p q : Fin 4) (n : Fin 64) (k : Fin 32) (m : Fin 128),
    let A : Src := (a, ea)
    let B : Src := (b, eb)
    f ∈ (([.add d a b ea eb, .sub d a b ea eb, .mul d a b ea eb, .mulh d a b ea eb, .mulhn d a b ea eb, .and d a b ea eb,
        .or d a b ea eb, .xor d a b ea eb, .sll d a b ea eb, .srl d a b ea eb, .sra d a b ea eb, .slt d a b ea eb,
        .sltn d a b ea eb, .seq d a b ea eb, .min d a b ea eb, .max d a b ea eb, .minn d a b ea eb, .maxn d a b ea eb,
        .send d a b ea eb] : List Instr).map fun i => (i, [A, B], d)) ++
      (([.addi d a ea i15, .andi d a ea i15, .ori d a ea i15, .xori d a ea i15, .slli d a ea n, .srli d a ea n, .srai d a ea n,
        .slti d a ea i15, .sltni d a ea i15, .seqi d a ea i15, .jalr d a ea i15, .ld d a ea i15, .wld d a ea w i12,
        .estat d a ea, .ubind d a ea] : List Instr).map fun i => (i, [A], d)) ++
      (([.beqz a ea i15, .bnez a ea i15, .bltz a ea i15, .bgez a ea i15, .bgtz a ea i15, .blez a ea i15, .bbs k a ea i15,
        .bbc k a ea i15, .loop p a ea i15, .cfg a ea p, .run a ea p, .csrw a ea i12, .csrs a ea i12, .csrc a ea i12,
        .uflush a ea, .unbind a ea, .done a ea] : List Instr).map fun i => (i, [A], 0)) ++
      (([.movz d q i16, .jal d i21, .csrr d i12] : List Instr).map fun i => (i, [], d)) ++
      (([.qwait, .yield, .arrive m, .wait m, .fence k, .fenceAcq k, .fenceRel k, .trap i15, .brk i9, .tret] : List Instr).map
        fun i => (i, [], 0)) ++
      [(.movk d q i16, [(d, false)], d), (.st b a ea eb i14, [A, B], 0), (.tbind a b ea eb, [A, B], 0)]

end Sys2Proof.Claims

open Sys2Proof.Claims

/-- R97: every instruction of the ALU group writes to its destination the value that the rule's table gives, and retires; it sets
no flag and raises no trap of its own. -/
def Obligations.AluGroupWritesTableValue : Prop :=
  ∀ (c : Nat) (d a b : SReg) (ea eb : Bool) (s s' : State), Issues c [(a, ea), (b, eb)] d s s' →
    let x := (s'.seq c).rd a
    let y := (s'.seq c).rd b
    let sh := y.toNat % 64
    exec (.add d a b ea eb) s = writes c d (BitVec.ofNat 64 (x.toNat + y.toNat)) s' ∧
    exec (.sub d a b ea eb) s = writes c d (BitVec.ofInt 64 ((x.toNat : Int) - y.toNat)) s' ∧
    exec (.mul d a b ea eb) s = writes c d (BitVec.ofNat 64 (x.toNat * y.toNat)) s' ∧
    exec (.mulh d a b ea eb) s = writes c d (BitVec.ofInt 64 (x.toInt * y.toInt / 2 ^ 64)) s' ∧
    exec (.mulhn d a b ea eb) s = writes c d (BitVec.ofNat 64 (x.toNat * y.toNat / 2 ^ 64)) s' ∧
    exec (.and d a b ea eb) s = writes c d (x &&& y) s' ∧
    exec (.or d a b ea eb) s = writes c d (x ||| y) s' ∧
    exec (.xor d a b ea eb) s = writes c d (x ^^^ y) s' ∧
    exec (.sll d a b ea eb) s = writes c d (BitVec.ofNat 64 (x.toNat * 2 ^ sh)) s' ∧
    exec (.srl d a b ea eb) s = writes c d (BitVec.ofNat 64 (x.toNat / 2 ^ sh)) s' ∧
    exec (.sra d a b ea eb) s = writes c d (BitVec.ofInt 64 (x.toInt / 2 ^ sh)) s' ∧
    exec (.slt d a b ea eb) s = writes c d (if x.toInt < y.toInt then 1 else 0) s' ∧
    exec (.sltn d a b ea eb) s = writes c d (if x.toNat < y.toNat then 1 else 0) s' ∧
    exec (.seq d a b ea eb) s = writes c d (if x = y then 1 else 0) s' ∧
    exec (.min d a b ea eb) s = writes c d (if x.toInt ≤ y.toInt then x else y) s' ∧
    exec (.max d a b ea eb) s = writes c d (if x.toInt ≤ y.toInt then y else x) s' ∧
    exec (.minn d a b ea eb) s = writes c d (if x.toNat ≤ y.toNat then x else y) s' ∧
    exec (.maxn d a b ea eb) s = writes c d (if x.toNat ≤ y.toNat then y else x) s' ∧
    (∀ v t, s'.ctxWf = true → writes c d v s' = .next t → (t.ctx c).flags = (s'.ctx c).flags ∧
      (NoBoundary (s'.seq c) → (t.seq c).phase = .ready ∧ (t.ctx c).st = (s'.ctx c).st))

/-- R98: the immediate forms compute as the ALU group with B replaced by the immediate of R62: sign-extended for addi, slti,
seqi and (read as unsigned) sltni, zero-extended for andi, ori and xori, and a shift amount for the shifts. -/
def Sys2Proof.Claims.ImmediateFormsUseExtendedImmediate : Prop :=
  ∀ (c : Nat) (d a : SReg) (e : Bool) (i : BitVec 15) (n : Fin 64) (s s' : State), Issues c [(a, e)] d s s' →
    let x := (s'.seq c).rd a
    let si : Word := i.signExtend 64
    let zi : Word := i.zeroExtend 64
    exec (.addi d a e i) s = writes c d (x + si) s' ∧
    exec (.slti d a e i) s = writes c d (if x.toInt < i.toInt then 1 else 0) s' ∧
    exec (.sltni d a e i) s = writes c d (if x.toNat < si.toNat then 1 else 0) s' ∧
    exec (.seqi d a e i) s = writes c d (if x = si then 1 else 0) s' ∧
    exec (.andi d a e i) s = writes c d (x &&& zi) s' ∧
    exec (.ori d a e i) s = writes c d (x ||| zi) s' ∧
    exec (.xori d a e i) s = writes c d (x ^^^ zi) s' ∧
    exec (.slli d a e n) s = writes c d (BitVec.ofNat 64 (x.toNat * 2 ^ n.val)) s' ∧
    exec (.srli d a e n) s = writes c d (BitVec.ofNat 64 (x.toNat / 2 ^ n.val)) s' ∧
    exec (.srai d a e n) s = writes c d (BitVec.ofInt 64 (x.toInt / 2 ^ n.val)) s'

/-- R99: movz writes imm × 2^(16q); movk replaces bits <16q+15:16q> of its destination and keeps the other 48, and it waits
while its destination is empty. -/
def Sys2Proof.Claims.MovesWriteOneQuarter : Prop :=
  (∀ (c : Nat) (d : SReg) (q : Fin 4) (i : BitVec 16) (s s' : State), Issues c [] d s s' →
    exec (.movz d q i) s = writes c d (BitVec.ofNat 64 (i.toNat * 2 ^ (16 * q.val))) s') ∧
  (∀ (c : Nat) (d : SReg) (q : Fin 4) (i : BitVec 16) (s s' : State), Issues c [(d, false)] d s s' →
    ∃ v : Word, exec (.movk d q i) s = writes c d v s' ∧ ∀ k, k < 64 →
      v.getLsbD k = (if k / 16 = q.val then i.getLsbD (k % 16) else ((s'.seq c).rd d).getLsbD k)) ∧
  (∀ (c : Nat) (d : SReg) (q : Fin 4) (i : BitVec 16) (s : State), s.cur = .seq c → (s.seq c).isEmpty d = true →
    exec (.movk d q i) s = .next s)

/-- R61: s0 reads 0 and discards a write; a write to any other register is read back from it, leaves the other registers
alone, and changes nothing of the sequencer but its registers: no full/empty bit, loop level, pc or trap register. -/
def Sys2Proof.Claims.RegisterWriteReadsBack : Prop :=
  ∀ (q : Seq) (d : SReg) (v : Word), smWf 0 q.regs = true →
    q.rd 0 = 0 ∧ q.wr 0 v = q ∧ (d ≠ 0 → (q.wr d v).rd d = v) ∧ (∀ r, r ≠ d → (q.wr d v).rd r = q.rd r) ∧
    q.wr d v = { q with regs := (q.wr d v).regs }

/-- R61, R95, R96, R110: issue, for any sources and any destination. An empty source under rule 1 is SEQ.EMPTY, naming the
empty source, the one in field a where both are empty; with none of these, a source that is empty or whose earlier result is
pending waits; then the oldest fault held for a source register is raised; then a destination with a result pending waits; else
the instruction goes on. -/
def Sys2Proof.Claims.IssueOrder : Prop :=
  ∀ (q : Seq) (srcs : List Src) (dst : SReg),
    let traps := ∃ p ∈ srcs, p.2 = true ∧ q.isEmpty p.1 = true
    let blocked := ∃ p ∈ srcs, q.ready p.1 = false
    let faulted := fun (f : HeldFault) => ∃ p ∈ srcs, p.1 ≠ 0 ∧ f.reg = p.1.val
    (traps → ∃ (k : Nat) (p : Src), srcs[k]? = some p ∧ q.isEmpty p.1 = true ∧ (∀ (j : Nat) (r : Src), j < k → srcs[j]? = some r → q.isEmpty r.1 = false) ∧
      q.issue srcs dst = .empty p.1) ∧
    (¬ traps → blocked → q.issue srcs dst = .wait) ∧
    (∀ (k : Nat) (f : HeldFault), ¬ traps → ¬ blocked → q.faults[k]? = some f → faulted f → (∀ (j : Nat) (h : HeldFault), j < k → q.faults[j]? = some h → ¬ faulted h) →
      q.issue srcs dst = .fault f) ∧
    (¬ traps → ¬ blocked → (∀ f ∈ q.faults, ¬ faulted f) →
      q.issue srcs dst = if q.ready dst = true then .go else .wait)

/-- R61, R95, R96, R110, R348: every instruction of a sequencer that is at its next instruction takes what its issue gives:
SEQ.EMPTY with the register's number, a wait with nothing changed, the held fault once, or the pass of a breakpoint. -/
def Sys2Proof.Claims.EveryFormIssues : Prop :=
  ∀ (f : Instr × List Src × SReg) (c : Nat) (s : State), Issuing f → s.cur = .seq c → (s.seq c).phase = .ready →
    let q := s.seq c
    (∀ r, q.issue f.2.1 f.2.2 = .empty r →
      exec f.1 s = .next (seqTrap c 0x0301 0 q.addr (BitVec.ofNat 64 r.val) s)) ∧
    (q.issue f.2.1 f.2.2 = .wait → exec f.1 s = .next s) ∧
    (∀ h, q.issue f.2.1 f.2.2 = .fault h → exec f.1 s = .next (seqTrap c h.code h.reason q.addr (BitVec.ofNat 64 h.report)
      (s.modSeq c fun q => { q with faults := q.faults.erase h }))) ∧
    (∀ k s', q.issue f.2.1 f.2.2 = .go → beginPass c s = (s', some k) → exec f.1 s = .next (sbpFreeze c k s'))

/-- R102: an instruction that retires where no active level ends goes to the next word and changes nothing else of its
sequencer; the other contexts are unchanged. -/
def Sys2Proof.Claims.RetirementAdvancesPc : Prop :=
  ∀ (c : Nat) (s : State), s.ctxWf = true → NoBoundary (s.seq c) →
    (retire c s).seq c = { (s.seq c).point ((s.seq c).addr + 4) with phase := .ready, counted := false } ∧
    ∀ o, o ≠ c → (retire c s).ctx o = s.ctx o

/-- R102, R103: at a boundary the active levels that end at the instruction are processed from 3 down to 0. The count of a
level becomes the value written to it while it was active, or goes down by one, and a pending pair of bounds is installed. A
level with no count left ends and the next lower one is tried; one with a count left wraps to its lb, or raises SEQ.LOOP where
its le lies below lb, and the levels below it are left as they are. Where every level that ends there is left, execution goes
on at the next word. -/
def Sys2Proof.Claims.LoopBoundaryCountsAndWraps : Prop :=
  ∀ (c : Nat) (s : State), s.ctxWf = true →
    let q := s.seq c
    let a := q.addr
    let ends := fun (v : Nat) => q.act.getLsbD v = true ∧ smGet 0 q.le v = a.toNat
    let n := fun (v : Nat) => if q.cpend.getLsbD v then smGet 0 q.lcw v else smGet 0 q.lc v - 1
    let lb := fun (v : Nat) => if q.wpend.getLsbD v then smGet 0 q.plb v else smGet 0 q.lb v
    let le := fun (v : Nat) => if q.wpend.getLsbD v then smGet 0 q.ple v else smGet 0 q.le v
    let q' := (retire c s).seq c
    let kept := fun (v : Nat) => q'.act.getLsbD v = q.act.getLsbD v ∧ smGet 0 q'.lc v = smGet 0 q.lc v ∧
      smGet 0 q'.lb v = smGet 0 q.lb v ∧ smGet 0 q'.le v = smGet 0 q.le v ∧
      q'.cpend.getLsbD v = q.cpend.getLsbD v ∧ q'.wpend.getLsbD v = q.wpend.getLsbD v
    let counted := fun (v : Nat) => smGet 0 q'.lc v = n v ∧ smGet 0 q'.lb v = lb v ∧ smGet 0 q'.le v = le v ∧
      q'.cpend.getLsbD v = false ∧ q'.wpend.getLsbD v = false
    (∀ v, v < 4 → ends v → n v ≠ 0 → (∀ w, v < w → w < 4 → ends w → n w = 0) →
      (lb v ≤ le v → q' = { q'.point (BitVec.ofNat 64 (lb v)) with phase := .ready, counted := false } ∧ counted v ∧
        q'.act.getLsbD v = true ∧ (∀ w, v < w → w < 4 → ends w → q'.act.getLsbD w = false ∧ counted w) ∧
        (∀ w, w < v → kept w) ∧ (∀ w, w < 4 → ¬ ends w → kept w)) ∧
      (le v < lb v → q.h = false → q'.phase = .stopped ∧ q'.cause = 0x0303 ∧
        q'.epc = a &&& 0x3FFFFFFC ∧ q'.tval = BitVec.ofNat 64 (le v * 2 ^ 32 + lb v))) ∧
    ((∀ v, v < 4 → ends v → n v = 0) → q' = { q'.point (a + 4) with phase := .ready, counted := false } ∧
      ∀ w, w < 4 → (ends w → q'.act.getLsbD w = false ∧ counted w) ∧ (¬ ends w → kept w))

/-- R100: a branch whose condition holds goes to P + 4 × sext(offset), and one whose condition does not hold retires like any
other instruction. -/
def Sys2Proof.Claims.BranchesCompareWithZero : Prop :=
  ∀ (c : Nat) (a : SReg) (e : Bool) (i : BitVec 15) (k : Fin 32) (s s' : State), Issues c [(a, e)] 0 s s' →
    let x := (s'.seq c).rd a
    let t : Word := (s'.seq c).addr + BitVec.ofInt 64 (4 * i.toInt)
    let go := fun (p : Prop) [Decidable p] => (Host.Outcome.next (if p then moveTo c t s' else retire c s') : Out)
    exec (.beqz a e i) s = go (x.toInt = 0) ∧ exec (.bnez a e i) s = go (x.toInt ≠ 0) ∧
    exec (.bltz a e i) s = go (x.toInt < 0) ∧ exec (.bgez a e i) s = go (0 ≤ x.toInt) ∧
    exec (.bgtz a e i) s = go (0 < x.toInt) ∧ exec (.blez a e i) s = go (x.toInt ≤ 0) ∧
    exec (.bbs k a e i) s = go (x.getLsbD k.val = true) ∧ exec (.bbc k a e i) s = go (x.getLsbD k.val = false)

/-- R100: jal and jalr write P + 4 to d and go to their target; jalr reads s[a] before it writes d, and clears <1:0>
of the target. The model's choices in it: log 9. -/
def Sys2Proof.Claims.JumpsLinkAndGo : Prop :=
  (∀ (c : Nat) (d : SReg) (i : BitVec 21) (s s' : State), Issues c [] d s s' →
    exec (.jal d i) s = .next (moveTo c ((s'.seq c).addr + BitVec.ofInt 64 (4 * i.toInt))
      (s'.modSeq c fun q => q.wr d ((s'.seq c).addr + 4)))) ∧
  (∀ (c : Nat) (d a : SReg) (e : Bool) (i : BitVec 15) (s s' : State), Issues c [(a, e)] d s s' →
    ∃ t : Word, exec (.jalr d a e i) s = .next (moveTo c t (s'.modSeq c fun q => q.wr d ((s'.seq c).addr + 4))) ∧
      t.toNat = ((s'.seq c).rd a + BitVec.ofInt 64 (4 * i.toInt)).toNat / 4 * 4)

/-- R101: loop with a count of 0 skips the body and leaves every level unchanged; with another count it starts level v over
the n words after it, with no write pending, and leaves the other levels unchanged. -/
def Sys2Proof.Claims.LoopStartsLevel : Prop :=
  ∀ (c : Nat) (v : Fin 4) (a : SReg) (e : Bool) (n : BitVec 15) (s s' : State), Issues c [(a, e)] 0 s s' →
    let q := s'.seq c
    let p := q.addr.toNat
    (q.rd a = 0 → exec (.loop v a e n) s = .next (moveTo c (q.addr + 4 + BitVec.ofNat 64 (4 * n.toNat)) s')) ∧
    (q.rd a ≠ 0 → s'.ctxWf = true → ∃ t, exec (.loop v a e n) s = .next t ∧
      let r := t.seq c
      r = { r.point (q.addr + 4) with phase := .ready, counted := false } ∧ smGet 0 r.lc v.val = q.rd a ∧ r.act.getLsbD v.val = true ∧ r.cpend.getLsbD v.val = false ∧
      r.wpend.getLsbD v.val = false ∧ r.regs = q.regs ∧
      (smWf 0 q.lb = true → smGet 0 r.lb v.val = (p + 4) % 2 ^ 32) ∧
      (smWf 0 q.le = true → smGet 0 r.le v.val = (p + 4 * n.toNat) % 2 ^ 32) ∧
      ∀ w, w < 4 → w ≠ v.val → r.act.getLsbD w = q.act.getLsbD w ∧ r.cpend.getLsbD w = q.cpend.getLsbD w ∧
        r.wpend.getLsbD w = q.wpend.getLsbD w ∧ smGet 0 r.lc w = smGet 0 q.lc w ∧ smGet 0 r.lb w = smGet 0 q.lb w ∧
        smGet 0 r.le w = smGet 0 q.le w ∧ smGet 0 r.lcw w = smGet 0 q.lcw w ∧ smGet 0 r.plb w = smGet 0 q.plb w ∧
        smGet 0 r.ple w = smGet 0 q.ple w)

/-- R95, R122, R322, R343: a trap of the sequencer writes seq.cause, seq.epc and seq.tval and stops it; one that
suspends a context which already drains is recorded, and writes seq.epc alone. With seq.status.h = 1 the trap becomes
SEQ.DOUBLE, naming the instruction, with the second trap's code and reason in seq.tval. Nothing else of the sequencer
changes, no register and no loop level, and no byte of memory. A trap of a node or an access writes seq.cause and
seq.tval, and SEQ.DOUBLE in its place where h = 1. The model's choices in it: log 10, 121. -/
def Sys2Proof.Claims.TrapEntryWritesTrapRegisters : Prop :=
  ∀ (c code reason : Nat) (epc tval : Word) (s : State), s.ctxWf = true → code < 2 ^ 16 → reason < 2 ^ 16 →
    let q := s.seq c
    let t := seqTrap c code reason epc tval s
    let u := nodeTrap c code reason tval s
    let word := BitVec.ofNat 64 (code + reason * 2 ^ 16)
    let halted := { q with phase := .stopped, counted := false }
    let records := (s.ctx c).st = .draining ∧ code ∈ [0x0301, 0x0302, 0x0308, 0x0403, 0x0404, 0x0104]
    t.sp = s.sp ∧ t.hbm = s.hbm ∧ t.hostMem = s.hostMem ∧
    (q.h = false → ¬ records →
      t.seq c = { halted with cause := word, epc := epc &&& 0x3FFFFFFC, tval := tval }) ∧
    (q.h = false → records → t.seq c = { halted with epc := epc &&& 0x3FFFFFFC }) ∧
    (q.h = true → t.seq c = { halted with cause := 0x0307, epc := q.addr &&& 0x3FFFFFFC, tval := word }) ∧
    u.sp = s.sp ∧ u.hbm = s.hbm ∧ u.hostMem = s.hostMem ∧ (u.seq c).regs = q.regs ∧
    (q.h = false → ¬ records → (u.seq c).cause = word ∧ (u.seq c).tval = tval) ∧
    (q.h = false → records → u.seq c = q) ∧
    (q.h = true → u.seq c = { q with phase := .stopped, cause := 0x0307, epc := q.addr &&& 0x3FFFFFFC, tval := word } ∧
      (u.ctx c).st = .retiring)

/-- R10, R95, R310, R320: SEQ.EMPTY, SEQ.TRAP and SEQ.BRK suspend a running graph, which drains with the cause of a
trap, or of a debug freeze; every other SEQ code retires it, with a kind 2 completion token that carries the code,
reason and report. The model's choices in it: log 10, 89. -/
def Sys2Proof.Claims.TrapOutcomeSuspendsOrRetires : Prop :=
  ∀ (c reason : Nat) (epc tval : Word) (s : State), s.ctxWf = true → (s.seq c).h = false → (s.ctx c).st = .running →
    let after := fun code => (seqTrap c code reason epc tval s).ctx c
    (∀ code ∈ [0x0301, 0x0302, 0x0308], (after code).st = .draining ∧ (after code).causeCode = code ∧
      (after code).causeReport = tval ∧ (after code).cause = some (if code = 0x0308 then .freeze else .trap)) ∧
    (∀ code ∈ [0x0303, 0x0304, 0x0305, 0x0306], (after code).st = .retiring ∧
      ∃ k, (after code).ending = some k ∧ k.kind = 2 ∧ k.code = code ∧ k.reason = reason ∧ k.report = tval)

/-- R67, R102, R121 to R123: trap and brk retire, through their boundary, and then raise SEQ.TRAP with the sign-extended
immediate, or SEQ.BRK with the identifier, seq.epc naming the instruction that would have run next, the first one of the body
where their boundary wraps; a SEQ.LOOP of the boundary stands in their place. tret returns to seq.epc with h = 0, and raises SEQ.TRET where h = 0; a word
that R67 refuses raises OP.ILL at its address. -/
def Sys2Proof.Claims.TrapInstructionsAndReturn : Prop :=
  (∀ (c : Nat) (i : BitVec 15) (j : BitVec 9) (s s' : State), Issues c [] 0 s s' → s'.ctxWf = true →
    (s'.seq c).h = false →
    let r := retire c s'
    ((r.seq c).phase = .stopped → exec (.trap i) s = .next r ∧ exec (.brk j) s = .next r) ∧
    ((r.seq c).phase ≠ .stopped →
      exec (.trap i) s = .next (seqTrap c 0x0302 0 (r.seq c).addr (BitVec.ofInt 64 i.toInt) r) ∧
      exec (.brk j) s = .next (seqTrap c 0x0308 0 (r.seq c).addr (BitVec.ofNat 64 j.toNat) r)) ∧
    (NoBoundary (s'.seq c) → (r.seq c).phase = .ready ∧ (r.seq c).pc = (s'.seq c).pc + 4)) ∧
  (∀ (c : Nat) (s s' : State), Issues c [] 0 s s' →
    ((s'.seq c).h = true →
      exec .tret s = .next (moveTo c (s'.seq c).epc (s'.modSeq c fun q => { q with h := false }))) ∧
    ((s'.seq c).h = false → exec .tret s = .next (seqTrap c 0x0306 0 (s'.seq c).addr (s'.seq c).addr s'))) ∧
  (∀ (c : Nat) (w : BitVec 32) (s : State), s.cur = .seq c →
    exec (.illegalSequencerWord w) s = .next (seqTrap c 0x0401 0 (s.seq c).addr (s.seq c).addr s))

/-- R348: an instruction's pass is counted once, at the start of its execution: a breakpoint register that is armed and watches
its address with more than one pass left loses one, the others stay, and nothing else changes; a counted pass is not counted
again, and no breakpoint fires on it. -/
def Sys2Proof.Claims.SequencerBreakpointCounts : Prop :=
  ∀ (c : Nat) (s : State), s.ctxWf = true →
    let w := fun (k : Nat) => smGet 0 (s.ctx c).sbp k
    let watches := fun (k : Nat) => (w k).getLsbD 63 = true ∧ bits (w k).toNat 29 2 * 4 = (s.seq c).addr.toNat
    let r := beginPass c s
    ((s.seq c).counted = true → r = (s, none)) ∧
    ((s.seq c).counted = false → (∀ k, k < 4 → watches k → 1 < bits (w k).toNat 47 32) →
      r.2 = none ∧ (∀ k, k < 4 → smGet 0 (r.1.ctx c).sbp k = if watches k then w k - 0x100000000 else w k) ∧
      r.1.ctx c = { s.ctx c with sbp := (r.1.ctx c).sbp, seq := { s.seq c with counted := true } } ∧
      (∀ o, o ≠ c → r.1.ctx o = s.ctx o) ∧ r.1 = { s with ctxs := r.1.ctxs } ∧
      ∀ i, s.cur = .seq c → (s.seq c).issue [] 0 = .go → exec (.trap i) s = exec (.trap i) r.1)

/-- R348: an instruction's pass is counted once. A breakpoint register that is armed and watches the pc with 1 or 0 passes
left fires, the lowest index first: it is disarmed, and the context freezes with SEQ.BRK, its index in seq.tval and seq.epc
naming the instruction. -/
def Sys2Proof.Claims.SequencerBreakpointFires : Prop :=
  ∀ (c k : Nat) (i : BitVec 15) (s : State), s.cur = .seq c → s.ctxWf = true → (s.seq c).counted = false → k < 4 →
    (s.seq c).issue [] 0 = .go →
    let w := smGet 0 (s.ctx c).sbp k
    w.getLsbD 63 = true → bits w.toNat 29 2 * 4 = (s.seq c).addr.toNat → bits w.toNat 47 32 ≤ 1 →
    (∀ j, j < k → (smGet 0 (s.ctx c).sbp j).getLsbD 63 = false) →
    ∃ s', beginPass c s = (s', some k) ∧ exec (.trap i) s = .next (sbpFreeze c k s') ∧
      (sbpFreeze c k s').sp = s.sp ∧ ((sbpFreeze c k s').seq c).phase = .stopped ∧
      ((sbpFreeze c k s').seq c).regs = (s.seq c).regs ∧ ((sbpFreeze c k s').seq c).counted = true ∧
      ((s.seq c).h = false → ((sbpFreeze c k s').seq c).cause = 0x0308 ∧
        ((sbpFreeze c k s').seq c).tval = BitVec.ofNat 64 (0x200 + k) ∧
        ((sbpFreeze c k s').seq c).epc = (s.seq c).addr &&& 0x3FFFFFFC)

/-- R104, R290: cfg of a misaligned address raises MEM.ALIGN; of an image whose header R290 refuses OP.ILL; of one
that does not fit the planes or the region SEQ.PLANE. An image that the planes already hold starts no load and
retires; another image whose parts are legal, and whose planes no period uses, starts its load and retires, with the
fabric loads that it overlaps dropped whole, those still in progress among them. The model's choices in it: log 15,
100. -/
def Obligations.CfgStartsOrKeepsLoad : Prop :=
  ∀ (c : Nat) (a : SReg) (e : Bool) (p : Fin 4) (s s' : State), Issues c [(a, e)] 0 s s' →
    let va := ((s'.seq c).rd a).toNat
    let x := s'.ctx c
    (va % 64 ≠ 0 → exec (.cfg a e p) s = trapHere c { code := 0x0201, report := va } s') ∧
    ∀ (ws : List Nat) (u : State), va % 64 = 0 → readWords c (.seq c) x.seqDie va 16 s' = .ok ws u →
      let f := ws.getD 2 0 % 256
      let ident := ws.getD 0 0 + ws.getD 1 0 * 2 ^ 32
      (∀ w, imgHeadBad ws = some w → exec (.cfg a e p) s = trapHere c { code := 0x0401, report := va + 4 * w } u) ∧
      (imgHeadBad ws = none →
        (4 < p.val + f ∨ bits (ws.getD 2 0) 31 16 ≠ x.size →
          exec (.cfg a e p) s = trapHere c { code := 0x0305, report := va } u) ∧
        (p.val + f ≤ 4 → bits (ws.getD 2 0) 31 16 = x.size → u.resident x p.val f va ident = true →
          exec (.cfg a e p) s = .next (retire c u)) ∧
        (p.val + f ≤ 4 → bits (ws.getD 2 0) 31 16 = x.size → u.resident x p.val f va ident = false →
          u.periodUses x p.val f = false →
          ∀ (ds : List Nat) (v w : State) (d : ImgData),
            readWords c (.seq c) (u.ctx c).seqDie (va + 64) (4 * ((u.ctx c).size * f)) u = .ok ds v →
            readParts c (.seq c) (u.ctx c).seqDie va f p.val (descsOf 0 ds) { nodes := [], holds := [], offs := [] } v =
              .ok d w →
            destsBad d (u.ctx c).size = none → (d.holds = [] ∨ (u.ctx c).fab.period = none) →
            exec (.cfg a e p) s = .next (retire c ((w.dropLoads (u.ctx c) p.val f).modFab c fun b => { b with
              loads := (b.loads.map fun j => if j.plane < p.val + f ∧ p.val < j.plane + j.fold
                  then { j with dropped := true } else j) ++
                [{ addr := va, ident := ident, plane := p.val, fold := f, nodes := d.nodes, holds := d.holds,
                   dropped := false }] }))))

/-- R104, R105: run on a plane that is not the first of a fabric load, held or in progress and not dropped, raises SEQ.PLANE
with the plane; while a period is in progress or that load, a hold record or an earlier store is pending it waits; otherwise it
starts the period, with the extents that s[a] packs, no point issued yet and every binding's period count one higher, and
retires. -/
def Sys2Proof.Claims.RunStartsPeriod : Prop :=
  ∀ (c : Nat) (a : SReg) (e : Bool) (p : Fin 4) (s s' : State), Issues c [(a, e)] 0 s s' →
    let x := s'.ctx c
    let v := ((s'.seq c).rd a).toNat
    let loading := ∃ j ∈ x.fab.loads, j.dropped = false ∧ j.plane = p.val
    (¬ loading → (s'.planeOf x 0 p.val).2.2.1 ≠ p.val →
      exec (.run a e p) s = trapHere c { code := 0x0305, report := p.val } s') ∧
    ((loading ∨ (s'.planeOf x 0 p.val).2.2.1 = p.val) →
      (x.fab.period ≠ none ∨ loading ∨ (∃ j ∈ x.fab.loads, j.holds ≠ []) ∨ s'.seqPending c AccOp.writes = true) →
      exec (.run a e p) s = .next s') ∧
    ((s'.planeOf x 0 p.val).2.2.1 = p.val → x.fab.period = none → ¬ loading → (∀ j ∈ x.fab.loads, j.holds = []) →
      s'.seqPending c AccOp.writes = false → x.apply = none → x.seq.phase = .ready → x.wraps = [] →
      ∃ f, exec (.run a e p) s = .next (retire c (s'.modCtx c f)) ∧
        (f x).fab.period = some { plane := p.val, nx := v % 2 ^ 21, ny := v / 2 ^ 21 % 2 ^ 21, nz := v / 2 ^ 42 % 2 ^ 21 } ∧
        (f x).fab.cursors = [] ∧ (f x).seq = x.seq ∧ (f x).slots = x.slots ∧ (f x).rings = x.rings ∧
        ∀ h b, x.binding h = some b → (f x).binding h = some { b with period := b.period + 1 })

/-- R106, R110, R113: qwait waits for the period in progress and for the engine commands that its sequencer sent; in a
draining region it stops there with seq.epc naming it; a held engine fault is raised before it retires; with nothing in
progress and nothing held it retires at once. -/
def Sys2Proof.Claims.QwaitWaitsForQuiescence : Prop :=
  ∀ (c : Nat) (s s' : State), Issues c [] 0 s s' → s'.ctxWf = true →
    let x := s'.ctx c
    let busy := x.fab.period.isSome || s'.hasCmd c true
    (busy = true → x.st ≠ .draining → exec .qwait s = .next s') ∧
    (busy = true → x.st = .draining → ∃ t, exec .qwait s = .next t ∧ (t.seq c).phase = .stopped ∧
      (t.seq c).epc = x.seq.addr &&& 0x3FFFFFFC ∧ (t.seq c).regs = x.seq.regs) ∧
    (busy = false → ∀ f r, x.seq.faults = f :: r → exec .qwait s = .next (raiseHeld c f s')) ∧
    (busy = false → x.seq.faults = [] → exec .qwait s = .next (retire c s'))

/-- R113: yield has no effect but its retirement where no pre-emption is requested; in a draining region the sequencer stops
there, with seq.epc naming the next instruction. -/
def Sys2Proof.Claims.YieldTakesPreemption : Prop :=
  ∀ (c : Nat) (s s' : State), Issues c [] 0 s s' → s'.ctxWf = true →
    ((s'.ctx c).st ≠ .draining → exec .yield s = .next (retire c s')) ∧
    ((s'.ctx c).st = .draining → NoBoundary (s'.seq c) → ∃ t, exec .yield s = .next t ∧ (t.seq c).phase = .stopped ∧
      (t.seq c).epc = ((s'.seq c).addr + 4) &&& 0x3FFFFFFC ∧ (t.seq c).regs = (s'.seq c).regs)

/-- R52, R66, R94, R103, R107, R120: csrr writes the value of a CSR to its destination; csrw writes the RW fields and clears
the flags that are 1 in its operand; csrs and csrc set and clear bits of RW fields alone. WO registers read 0, RO ones take no
write, and a hold-register or scope write waits until no period is in progress. The numbers are those that name a CSR (R67,
R366). -/
def Sys2Proof.Claims.CsrReadAndWrite : Prop :=
  (∀ (c : Nat) (d : SReg) (n : BitVec 12) (s s' : State), Issues c [] d s s' → csrAssigned n.toNat = true →
    n ≠ 0x001 → exec (.csrr d n) s = writes c d ((s'.ctx c).csr c n.toNat) s') ∧
  (∀ (c : Nat) (d : SReg) (s s' : State), Issues c [] d s s' → (s'.ctx c).unmerged = 0 →
    exec (.csrr d 0x001) s = writes c d ((s'.ctx c).flags.setWidth 64) s') ∧
  (∀ (c : Nat) (a : SReg) (e : Bool) (n : BitVec 12) (s s' : State), Issues c [(a, e)] 0 s s' →
    csrAssigned n.toNat = true →
    let x := s'.ctx c
    let w := (s'.seq c).rd a
    (n = 0x001 → x.unmerged = 0 →
      exec (.csrw a e n) s = .next (retire c (s'.modCtx c fun x => { x with flags := x.flags &&& ~~~w.setWidth 8 }))) ∧
    (n ≠ 0x001 → (n < 0x040 ∨ 0x060 ≤ n) → (n < 0x0C0 ∨ 0x100 < n) →
      exec (.csrw a e n) s = .next (retire c (s'.modCtx c fun x => x.setCsr n.toNat w))) ∧
    ((n < 0x0C0 ∨ 0x100 < n) →
      exec (.csrs a e n) s = .next (retire c (s'.modCtx c fun x => x.setCsr n.toNat (x.csr c n.toNat ||| w))) ∧
      exec (.csrc a e n) s = .next (retire c (s'.modCtx c fun x => x.setCsr n.toNat (x.csr c n.toNat &&& ~~~w)))) ∧
    ((0x0C0 ≤ n ∧ n ≤ 0x100) → x.fab.period ≠ none →
      exec (.csrw a e n) s = .next s' ∧ exec (.csrs a e n) s = .next s' ∧ exec (.csrc a e n) s = .next s') ∧
    ((0x0C0 ≤ n ∧ n ≤ 0x100) → x.fab.period = none →
      exec (.csrw a e n) s = .next (retire c (s'.modCtx c fun x => x.setCsr n.toNat w)))) ∧
  (∀ (x : Ctx) (id : Nat) (w : Word),
    x.csr id 0x000 = BitVec.ofNat 64 id ∧ x.csr id 0x003 = x.seed ∧ x.csr id 0x020 = x.seq.tvec ∧ x.csr id 0x021 = x.seq.epc ∧
    x.csr id 0x022 = x.seq.cause ∧ x.csr id 0x023 = x.seq.tval ∧ x.csr id 0x040 = 0 ∧ x.csr id 0x05F = 0 ∧
    x.setCsr 0x000 w = x ∧ x.setCsr 0x003 w = x ∧ x.setCsr 0x022 w = x ∧ x.setCsr 0x024 w = x ∧
    (x.setCsr 0x020 w).seq.tvec = w &&& 0x3FFFFFFC ∧ (x.setCsr 0x021 w).seq.epc = w &&& 0x3FFFFFFC ∧
    (x.setCsr 0x002 w).ovfp = w &&& 0x0000FFFFFFFFFFF0)

/-- R107: a csrw to hold32 j or hold64 j writes s[a] into every lane, or every lane pair, of register hj of every PE of the
region, and into no other hold register; it waits until no configuration period is in progress. -/
def Sys2Proof.Claims.HoldWritesReachEveryPe : Prop :=
  ∀ (c j : Nat) (a : SReg) (e wide : Bool) (s s' : State), Issues c [(a, e)] 0 s s' → j < 16 →
    let x := s'.ctx c
    let w := ((s'.seq c).rd a).toNat
    let n : BitVec 12 := BitVec.ofNat 12 ((if wide then 0x050 else 0x040) + j)
    (x.fab.period ≠ none → exec (.csrw a e n) s = .next s') ∧
    (x.fab.period = none → smWf [] s'.hold = true → ∃ u, exec (.csrw a e n) s = .next (retire c u) ∧
      (∀ pe i, pe < x.size * 64 → i < 16 →
        (laneAt (smGet [] u.hold ((x.first * 64 + pe) * 16 + j)) i).toNat =
          (if wide ∧ i % 2 = 1 then w / 2 ^ 32 else w) % 2 ^ 32) ∧
      ∀ k, (k % 16 ≠ j ∨ k / 16 < x.first * 64 ∨ (x.first + x.size) * 64 ≤ k / 16) → smGet [] u.hold k = smGet [] s'.hold k)

/-- R61, R96, R115: ld and st reach s[a] + 8 × sext(off). A sum of 2^30 or more raises MEM.RANGE, one that is not
8-byte aligned MEM.ALIGN, one in a carve-out MEM.PERM; else the access is issued, of 8 bytes at that address, and the
instruction retires. ld marks its destination busy, or, where the address lies outside the region's clusters, empty.
The model's choices in it: log 17. -/
def Sys2Proof.Claims.LdAndStIssueOneAccess : Prop :=
  ∀ (c : Nat) (d v a : SReg) (ea ev : Bool) (i : BitVec 15) (j : BitVec 14) (s s' : State), s'.ctxWf = true →
    let x := s'.ctx c
    let id := x.fab.nextId
    let at_ := fun (off : Int) => (x.seq.rd a + BitVec.ofInt 64 (8 * off)).toNat
    (Issues c [(a, ea)] d s s' → ∀ b, spCheck s' x (at_ i.toInt) 8 8 = .error b → exec (.ld d a ea i) s = trapHere c b s') ∧
    (Issues c [(a, ea)] d s s' → ∀ p, spCheck s' x (at_ i.toInt) 8 8 = .ok p →
      ∃ u, exec (.ld d a ea i) s = .next (retire c u) ∧ u.sp = s'.sp ∧ u.hbm = s'.hbm ∧ (u.seq c).regs = x.seq.regs ∧
        (∃ k, (u.fab c).accesses = x.fab.accesses ++ [k] ∧ k.id = id ∧ k.op = .load ∧ k.glob = false ∧
          k.addr = at_ i.toInt ∧ k.size = 8 ∧ k.accepted = true) ∧
        (u.seq c).long = x.seq.long ++ [{ reg := d.val, src := .loads id [] }] ∧
        (d ≠ 0 → (u.seq c).isEmpty d = !x.inBlock (p / 2 ^ 24) ∧ (u.seq c).ready d = false)) ∧
    (Issues c [(a, ea), (v, ev)] 0 s s' → ∀ b, spCheck s' x (at_ j.toInt) 8 8 = .error b →
      exec (.st v a ea ev j) s = trapHere c b s') ∧
    (Issues c [(a, ea), (v, ev)] 0 s s' → ∀ p, spCheck s' x (at_ j.toInt) 8 8 = .ok p →
      ∃ u, exec (.st v a ea ev j) s = .next (retire c u) ∧ u.sp = s'.sp ∧ u.hbm = s'.hbm ∧ u.seq c = x.seq ∧
        ∃ k, (u.fab c).accesses = x.fab.accesses ++ [k] ∧ k.id = id ∧ k.op = .store (x.seq.rd v).toNat ∧ k.glob = false ∧
          k.addr = at_ j.toInt ∧ k.size = 8 ∧ k.accepted = true)

/-- R115, R166: the checks of a scratchpad address come in the order MEM.RANGE, MEM.ALIGN, MEM.PERM, each reporting the
address; an address that passes is relocated to the clusters that the region occupies (R318). -/
def Sys2Proof.Claims.ScratchpadAddressChecks : Prop :=
  ∀ (s : State) (x : Ctx) (a n : Nat), n ∈ [1, 2, 4, 8] →
    let p := x.spAddr a
    (2 ^ 30 ≤ a → spCheck s x a n n = .error { code := 0x0202, report := a }) ∧
    (a < 2 ^ 30 → a % n ≠ 0 → spCheck s x a n n = .error { code := 0x0201, report := a }) ∧
    (a < 2 ^ 30 → a % n = 0 → 2 ^ 24 ≤ p % 2 ^ 24 + s.carveOf (p / 2 ^ 24) →
      spCheck s x a n n = .error { code := 0x0203, report := a }) ∧
    (a < 2 ^ 30 → a % n = 0 → p % 2 ^ 24 + n + s.carveOf (p / 2 ^ 24) ≤ 2 ^ 24 → spCheck s x a n n = .ok p) ∧
    (x.base ≤ a / 2 ^ 24 → a / 2 ^ 24 < x.base + x.size → p = (x.first + (a / 2 ^ 24 - x.base)) * 2 ^ 24 + a % 2 ^ 24) ∧
    (a / 2 ^ 24 < x.base ∨ x.base + x.size ≤ a / 2 ^ 24 → p = a)

/-- R114: wld of a window that is not bound raises WIN.UNBOUND; of a bound one it reads the bytes that lie below the
bound, each at its place, leaves its destination empty until they land, and raises win.oob where a byte lies at or
beyond the bound. The model's choices in it: log 14, 34. -/
def Sys2Proof.Claims.WldReadsBoundedBytes : Prop :=
  ∀ (c : Nat) (d a : SReg) (e : Bool) (w : Fin 8) (o : BitVec 12) (s s' : State), Issues c [(a, e)] d s s' →
    s'.ctxWf = true →
    let x := s'.ctx c
    let off := (x.seq.rd a).toNat + 8 * o.toNat
    (∀ b, x.window w.val = .error b → exec (.wld d a e w o) s = trapHere c b s') ∧
    ∀ base size, x.window w.val = .ok (base, size) → wldBad s' x (wldBytes base size off) = none →
      ∃ u, exec (.wld d a e w o) s = .next (retire c u) ∧ u.sp = s'.sp ∧ u.hbm = s'.hbm ∧ (u.seq c).regs = x.seq.regs ∧
        (d ≠ 0 → (u.seq c).isEmpty d = true) ∧
        (∀ k, k ∈ (u.fab c).accesses → k ∈ x.fab.accesses ∨ ∃ b, b < 8 ∧ off + b < size ∧ k.addr = base + off + b ∧
          k.lane = b ∧ k.size = 1 ∧ k.op = .load ∧ k.glob = true) ∧
        (∀ b, b < 8 → off + b < size → ∃ k, k ∈ (u.fab c).accesses ∧ k.addr = base + off + b ∧ k.lane = b) ∧
        (x.fab.period = none → (u.ctx c).flags = if size < off + 8 then x.flags ||| fOob else x.flags)

/-- R61: a pending producer that is ready writes its value and marks its register full; one whose loads are pending changes
nothing. -/
def Sys2Proof.Claims.LongLatencyWriteFillsRegister : Prop :=
  ∀ (c : CtxId) (k : Nat) (l : LongWrite) (s : State), s.ctxWf = true → (s.seq c.val).long[k]? = some l →
    (s.ctx c.val).live = true → l.reg < 32 →
    (∀ v, longReady s c.val l = some v → ∃ t, exec (.longLatencyWrite c k) s = .next t ∧
      (t.seq c.val).long = (s.seq c.val).long.eraseIdx k ∧ (t.seq c.val).pc = (s.seq c.val).pc ∧ t.sp = s.sp ∧
      (l.reg ≠ 0 → (t.seq c.val).empty.getLsbD l.reg = false ∧ (t.seq c.val).busy.getLsbD l.reg = false ∧
        (smWf 0 (s.seq c.val).regs = true → smGet 0 (t.seq c.val).regs l.reg = v)) ∧
      ∀ r, r < 32 → r ≠ l.reg → (t.seq c.val).empty.getLsbD r = (s.seq c.val).empty.getLsbD r) ∧
    (longReady s c.val l = none → exec (.longLatencyWrite c k) s = .next s)

/-- R82, R108: send of a header that R82 refuses, or of an rkind 1 header with d ≠ s0, raises OP.ILL; otherwise, once the
earlier stores are performed, the header waits at its engine with the register's number as the reply of an rkind 0 header,
d is marked empty, and send retires when the inbox has accepted it. -/
def Sys2Proof.Claims.SendPostsHeader : Prop :=
  ∀ (c : Nat) (d a b : SReg) (ea eb : Bool) (s s' : State),
    (s.cur = .seq c → (s.seq c).phase = .sendWait →
      exec (.send d a b ea eb) s = .next (if s.sendWaits c then s else retire c s)) ∧
    ((s.seq c).phase = .ready → Issues c [(a, ea), (b, eb)] d s s' →
      let x := s'.ctx c
      let raw := sendRaw d (x.seq.rd a) (x.seq.rd b)
      (headerOf s' x raw = none →
        exec (.send d a b ea eb) s = trapHere c { code := 0x0401, report := (x.seq.rd a).toNat } s') ∧
      (∀ h, headerOf s' x raw = some h → raw.testBit 96 = true → d ≠ 0 →
        exec (.send d a b ea eb) s = trapHere c { code := 0x0401, report := (x.seq.rd a).toNat } s') ∧
      (∀ h, headerOf s' x raw = some h → (raw.testBit 96 = false ∨ d = 0) → s'.seqPending c AccOp.writes = true →
        exec (.send d a b ea eb) s = .next s') ∧
      (∀ h, headerOf s' x raw = some h → (raw.testBit 96 = false ∨ d = 0) → s'.seqPending c AccOp.writes = false →
        ∃ k, exec (.send d a b ea eb) s =
            .next ((postCmd x k s').modSeq c fun q => { q.markEmpty d with phase := .sendWait }) ∧
          k.raw = raw ∧ k.hdr = h ∧ k.from_.ctx = c ∧ k.from_.bySeq = true ∧ k.from_.reg = d.val ∧
          (raw.testBit 96 = false → raw / 2 ^ 64 % 32 = d.val)))

/-- R109, R187: estat of an operand with a non-zero zero field, a refused class, a unit out of range or a cluster
outside the nominal region raises OP.ILL; of a legal one it marks d empty and samples the engine's status word later.
The model's choices in it: log 112. -/
def Sys2Proof.Claims.EstatSamplesStatus : Prop :=
  ∀ (c : Nat) (d a : SReg) (e : Bool) (s s' : State), Issues c [(a, e)] d s s' →
    let x := s'.ctx c
    let w := (x.seq.rd a).toNat
    let kind := w / 2 ^ 10 % 16
    ((2 ^ 14 ≤ w ∨ EngClass.ofCode? kind = none ∨ (∃ k, EngClass.ofCode? kind = some k ∧ k.units ≤ w % 16) ∨
        x.inNominal (w / 16 % 64) = false) → exec (.estat d a e) s = trapHere c { code := 0x0401, report := w } s') ∧
    ∀ k, w < 2 ^ 14 → EngClass.ofCode? kind = some k → w % 16 < k.units → x.inNominal (w / 16 % 64) = true →
      exec (.estat d a e) s = .next (retire c (s'.modSeq c fun q => { q.markEmpty d with
        long := q.long ++ [{ reg := d.val, src := .estat { cls := k, cluster := Fin.ofNat 64 (x.reloc (w / 16 % 64)),
                                                            unit := Fin.ofNat 16 (w % 16) } }] }))

/-- R111, R257, R258, R379: an arrive of the sequencer, as a participant of its instance whose previous phase it has seen
complete, joins the next phase, with its release and its message still to be recorded, and retires; before that it waits. Where
it is no participant it retires once its earlier accesses have reached the scope. A wait retires once the phase of its latest
arrive, or without one the phase in progress, is complete, and is held until then. -/
def Sys2Proof.Claims.SequencerBarriers : Prop :=
  ∀ (c : Nat) (n : Fin 128) (s s' : State), Issues c [] 0 s s' → s'.ctxWf = true →
    let f := s'.fab c
    let i := barInst n.val 4096
    let member := (f.bar i).parts.contains 4096
    let seen := f.seenOf 0 i
    let joined := f.joinedOf 4096 i
    let before := s'.agentDeps c .seq ((s'.ctx c).scopeLevel (n.val % 32)) fun _ => true
    let target := if member = true ∧ joined ≠ 0 then joined else (f.bar i).phase + 1
    (member = true → joined ≤ seen → ∃ u, exec (.arrive n) s = .next (retire c u) ∧
      (u.fab c).arrives = f.arrives ++ [{ inst := i, agent := 4096, deps := before }] ∧
      (smWf 0 f.joined = true → (u.fab c).joinedOf 4096 i = joined + 1) ∧ (u.fab c).bars = f.bars ∧
      (u.fab c).accesses = f.accesses ∧ u.seq c = s'.seq c ∧ u.sp = s'.sp ∧ u.hbm = s'.hbm) ∧
    (member = true → seen < joined → exec (.arrive n) s = .next s') ∧
    (member = false → exec (.arrive n) s = .next (if s'.depsDone c before = true then retire c s' else s')) ∧
    ((s'.seq c).phase = .ready → target ≤ seen → exec (.wait n) s = .next (retire c s')) ∧
    ((s'.seq c).phase = .ready → seen < target → ∃ t, exec (.wait n) s = .next t ∧
      t.seq c = { s'.seq c with phase := .barWait i target } ∧ t.fab c = f) ∧
    (∀ j p, (s'.seq c).phase = .barWait j p →
      (p ≤ f.seenOf 0 j → exec (.wait n) s = .next (retire c s')) ∧
      (f.seenOf 0 j < p → ∃ t, exec (.wait n) s = .next t ∧ t.seq c = s'.seq c ∧ t.fab c = f))

/-- R112, R248: a fence of the sequencer retires when every earlier ld, st and wld (an acquire fence: every earlier ld
and wld) has reached its scope, and waits while one has not; at a scope that holds the host, while a posted store
waits for its acknowledgement too. The model's choices in it: log 36. -/
def Sys2Proof.Claims.SequencerFencesWaitForAccesses : Prop :=
  ∀ (c : Nat) (g : Fin 32) (s s' : State), Issues c [] 0 s s' →
    let x := s'.ctx c
    let level := x.scopeLevel g.val
    let f := s'.fab c
    let mine := ∃ a ∈ f.accesses, a.agent = .seq
    let loads := ∃ a ∈ f.accesses, a.agent = .seq ∧ a.op = .load
    let posted := ∃ p ∈ s'.posted, p.ctx = c
    let both := fun o => exec (.fence g) s = o ∧ exec (.fenceRel g) s = o
    (both (.next (if s'.depsDone c (s'.agentDeps c .seq level fun _ => true) then retire c s' else s'))) ∧
    (exec (.fenceAcq g) s = .next (if s'.depsDone c (s'.agentDeps c .seq .performed AccOp.isLoad) then retire c s' else s')) ∧
    (¬ mine → (∀ p ∈ f.pairs, p.agent ≠ .seq) → (level = .acked → ¬ posted) → both (.next (retire c s'))) ∧
    (¬ loads → (∀ p ∈ f.pairs, p.agent ≠ .seq) → exec (.fenceAcq g) s = .next (retire c s')) ∧
    (mine → level ≠ .accepted → both (.next s')) ∧ (loads → exec (.fenceAcq g) s = .next s') ∧
    (posted → level = .acked → both (.next s')) ∧
    (g.val ≠ 0 → x.scopeEmpty g.val = false → level = if bit x.sys.toNat g.val = true then .acked else .performed)

/-- R117, R208: ubind whose descriptor is legal, whose region and spill area the range registers map and no binding
holds, binds the lowest free handle, writes it to d and clears the handle's counters; a refused descriptor raises
MEM.UBIND with its reason, binds nothing, and a period in progress makes it wait. The model's choices in it: log 33.
-/
def Sys2Proof.Claims.UbindBindsLowestHandle : Prop :=
  ∀ (c : Nat) (d a : SReg) (e : Bool) (s s' : State), Issues c [(a, e)] d s s' →
    let x := s'.ctx c
    let addr := (x.seq.rd a).toNat
    (x.fab.period ≠ none → exec (.ubind d a e) s = .next s') ∧
    ∀ p v u, x.fab.period = none → s'.seqPending c AccOp.writes = false → spCheck s' x addr 32 1 = .ok p → addr % 32 = 0 →
      seqSpRead p 32 s' = .ok v u →
      let y := u.ctx c
      let b := bindingOf y v
      (∀ r, descReason u v b = some r → exec (.ubind d a e) s = ubindFault c r (BitVec.ofNat 64 addr) u) ∧
      (∀ r, descReason u v b = none → boundReason y b = some r →
        exec (.ubind d a e) s = ubindFault c r (BitVec.ofNat 64 addr) u) ∧
      (∀ h, descReason u v b = none → boundReason y b = none → extentBad y b.base b.size = none →
        extentBad y b.spill b.spillsize = none → otherBound u c y b.base b.size = false →
        otherBound u c y b.spill b.spillsize = false → h < 16 → y.binding h = none →
        (∀ k, k < h → y.binding k ≠ none) →
        exec (.ubind d a e) s = writes c d (BitVec.ofNat 64 h) (u.modCtx c (bindRegion h b)))

/-- R118: uflush and unbind wait while a period is in progress; a handle that is not bound is MEM.UBIND reason 6 (its report is a free
value, log 31); for a bound one the apply of its pending updates starts, and the instruction retires when it has ended. -/
def Sys2Proof.Claims.UflushAndUnbindApply : Prop :=
  ∀ (c : Nat) (a : SReg) (e : Bool) (s s' : State), Issues c [(a, e)] 0 s s' →
    let x := s'.ctx c
    let h := (x.seq.rd a).toNat
    let both := fun o => exec (.uflush a e) s = o ∧ exec (.unbind a e) s = o
    (x.fab.period ≠ none → both (.next s')) ∧
    (x.fab.period = none → x.apply = none → x.seq.phase = .applyWait → both (.next (retire c s'))) ∧
    (x.fab.period = none → x.apply = none → x.seq.phase = .ready → x.binding h = none →
      both (.next (seqTrap c 0x0205 6 x.seq.addr s'.fresh.1 s'.fresh.2))) ∧
    (x.fab.period = none → x.apply = none → x.seq.phase = .ready → x.binding h ≠ none →
      exec (.uflush a e) s = .next (startApply c [h] .flush (s'.modSeq c fun q => { q with phase := .applyWait })) ∧
      exec (.unbind a e) s = .next (startApply c [h] .unbind (s'.modSeq c fun q => { q with phase := .applyWait })))

/-- R119, R315: tbind with s[b] = 0 asks the scheduler to remove a tile's binding, and with a token that passes its checks to
bind it; it retires at the acknowledgement; a tile above 63 raises SCHED.BIND reason 7 (its report is a free value, log
32). -/
def Sys2Proof.Claims.TbindAsksScheduler : Prop :=
  ∀ (c : Nat) (a b : SReg) (ea eb : Bool) (s s' : State), Issues c [(a, ea), (b, eb)] 0 s s' →
    let x := s'.ctx c
    let va := (x.seq.rd a).toNat
    let vb := (x.seq.rd b).toNat
    (x.seq.phase = .tbindWait → x.tbinds = [] → exec (.tbind a b ea eb) s = .next (retire c s')) ∧
    (x.seq.phase = .tbindWait → x.tbinds ≠ [] → exec (.tbind a b ea eb) s = .next s') ∧
    ∀ pa v u, x.seq.phase = .ready → s'.seqPending c AccOp.writes = false → spCheck s' x va 8 8 = .ok pa →
      seqSpRead pa 8 s' = .ok v u →
      (vb = 0 → 63 < v → exec (.tbind a b ea eb) s = .next (seqTrap c 0x0803 7 (u.seq c).addr u.fresh.1 u.fresh.2)) ∧
      (vb = 0 → v ≤ 63 → exec (.tbind a b ea eb) s = .next (tbindPost c v none u)) ∧
      (∀ pb ws u2 u3 t, vb ≠ 0 → v ≤ 63 → spCheck s' x vb 64 64 = .ok pb → readSpWords pb 8 u = .ok ws u2 →
        launchCheck c (.seq c) (ws.map (BitVec.ofNat 64)) u2 = .ok t u3 →
        exec (.tbind a b ea eb) s = .next (tbindPost c v (some (ws.map (BitVec.ofNat 64))) u3))

/-- R110, R124, R310, R353: done waits for the period in progress, and stops at it in a draining region with seq.epc naming it;
with none the context becomes Retiring with s[a] kept. Then it waits for its engine commands, raises a held fault, starts the
apply and release of the bindings and waits for its end, waits for the posted stores, of which one whose route has failed is
LINK.POSTED with its window and their number, and ends the graph with a kind 1 token that carries s[a]. -/
def Obligations.DoneRetiresGraph : Prop :=
  (∀ (c : Nat) (a : SReg) (e : Bool) (s s' : State), (s.seq c).phase = .ready → Issues c [(a, e)] 0 s s' →
    s'.ctxWf = true →
    let x := s'.ctx c
    (x.fab.period ≠ none → x.st ≠ .draining → exec (.done a e) s = .next s') ∧
    (x.fab.period ≠ none → x.st = .draining → ∃ t, exec (.done a e) s = .next t ∧ (t.seq c).phase = .stopped ∧
      (t.seq c).epc = x.seq.addr &&& 0x3FFFFFFC) ∧
    (x.fab.period = none → ∃ t, exec (.done a e) s = .next t ∧ (t.ctx c).st = .retiring ∧
      (t.seq c).phase = .finishing (x.seq.rd a) ∧ (t.ctx c).cause = none ∧ (t.fab c).draining = false)) ∧
  (∀ (c : Nat) (a : SReg) (e : Bool) (v : Word) (s : State), s.cur = .seq c → (s.seq c).phase = .finishing v →
    let x := s.ctx c
    let mine := s.posted.filter fun p => decide (p.ctx = c)
    (s.hasCmd c true = true → exec (.done a e) s = .next s) ∧
    (∀ f r, s.hasCmd c true = false → x.seq.faults = f :: r → exec (.done a e) s = .next (raiseHeld c f s)) ∧
    (s.hasCmd c true = false → x.seq.faults = [] → x.apply ≠ none → exec (.done a e) s = .next s) ∧
    (s.hasCmd c true = false → x.seq.faults = [] → x.apply = none → x.boundHandles ≠ [] →
      exec (.done a e) s = .next (startApply c x.boundHandles .done s)) ∧
    (s.hasCmd c true = false → x.seq.faults = [] → x.apply = none → x.boundHandles = [] →
      (mine ≠ [] → (∀ p ∈ mine, s.postedFailed p = false) → exec (.done a e) s = .next s) ∧
      (∀ p, mine.find? s.postedFailed = some p → x.seq.h = false → s.ctxWf = true → ∃ t k, exec (.done a e) s = .next t ∧
        (t.ctx c).st = .retiring ∧ (t.ctx c).ending = some k ∧ k.kind = 2 ∧ k.code = 0x0901 ∧
        k.report = BitVec.ofNat 64 (windowOf p.ia) ∧ k.extra = BitVec.ofNat 64 mine.length) ∧
      (mine = [] → exec (.done a e) s = .next (endGraph c 1 0 0 v 0 0 s)) ∧
      (mine = [] → s.ctxWf = true → ∃ t k, exec (.done a e) s = .next t ∧ (t.ctx c).st = .retiring ∧
        (t.seq c).phase = .stopped ∧ (t.ctx c).ending = some k ∧ k.kind = 1 ∧ k.code = 0 ∧ k.reason = 0 ∧ k.value = v ∧
        k.report = 0)))

namespace Sys2Proof.Claims

open Sys2Proof Sys2Proof.Machine

/-- Firing `g` of node `m` holds the turn in its pipeline, with no earlier firing of its PE before it there (R16). -/
def Fires (c : Nat) (g : Firing) (m : NodeImg) (s : State) : Prop :=
  s.cur = .firing c g.id ∧ ((s.fab c).firings.find? fun h => h.id == g.id) = some g ∧
    s.nodeImg (s.ctx c) g.ref = some m ∧ g.phase = .run ∧ (s.fab c).behind g = false

/-- Firing `g` executes operation `i` with the operands `env`: it has read every element of a window operand (R73, R125). -/
def Computes (i : Instr) (c : Nat) (g : Firing) (m : NodeImg) (env : OpEnv) (s : State) : Prop :=
  Fires c g m s ∧ winMore i g = false ∧ env = mkEnv s c g m (winLanes i g)

/-- The firing's stage ends with a result (R16, R126). -/
def results (c : Nat) (g : Firing) (m : NodeImg) (r : OpRes) (s : State) : Out := .next (stageDone c g m r s)

/-- Firing `g` waits in phase `p`: it holds the turn again, after an event or a wait. -/
def Waits (c : Nat) (g : Firing) (m : NodeImg) (p : Phase) (s : State) : Prop :=
  s.cur = .firing c g.id ∧ ((s.fab c).firings.find? fun h => h.id == g.id) = some g ∧
    s.nodeImg (s.ctx c) g.ref = some m ∧ g.phase = p

/-- The least and the greatest value of an integer type (R38, R130). -/
def lo (t : IntTy) : Int := if IntTy.signed t then -2 ^ (IntTy.bits t - 1) else 0
@[inherit_doc lo] def hi (t : IntTy) : Int := if IntTy.signed t then 2 ^ (IntTy.bits t - 1) - 1 else 2 ^ IntTy.bits t - 1

/-- The active elements of a mask: its lanes, or the pairs of a 64-bit type (R17). -/
def actives (t : IntTy) (mask : BitVec 16) (k : Nat) : Prop :=
  if IntTy.wide t then k < 8 ∧ mask.getLsbD (2 * k) = true else k < 16 ∧ mask.getLsbD k = true

/-- Element `k` of a result: a lane, or a pair of a 64-bit type. -/
def elemAt (t : IntTy) (v : List Lane) (k : Nat) : Nat := if IntTy.wide t then pairAt v k else (laneAt v k).toNat

/-- The value of element `k` of an operand, read by a type (R125). -/
def valAt (env : OpEnv) (t : IntTy) (a : Sel) (k : Nat) : Int := intVal t (selInt env t a k)

/-- R130's last three lines: the exact value `e` clamped under .sat, else wrapped into the range of the type. -/
def Narrowed (t : IntTy) (sat : Bool) (e v : Int) : Prop :=
  if sat = true ∧ e < lo t then v = lo t
  else if sat = true ∧ hi t < e then v = hi t
  else lo t ≤ v ∧ v ≤ hi t ∧ (v - e) % 2 ^ IntTy.bits t = 0

/-- An integer operation that writes the narrowed exact value `f k` to every active element `k`, extended by its type, 0 to
every inactive lane, and sets sat exactly where an active element was clamped. -/
def ArithResult (i : Instr) (c : Nat) (g : Firing) (m : NodeImg) (env : OpEnv) (s : State) (t : IntTy) (sat : Bool)
    (f : Nat → Int) : Prop :=
  ∃ r, exec i s = results c g m r s ∧ r.mask = (if IntTy.wide t then pairMask env.mask else env.mask) ∧
    (∀ k, actives t env.mask k → ∃ v, Narrowed t sat (f k) v ∧ elemAt t r.lanes k = intRaw t v) ∧
    (∀ l, l < 16 → r.mask.getLsbD l = false → laneAt r.lanes l = 0) ∧
    ((∃ k, actives t env.mask k ∧ sat = true ∧ (f k < lo t ∨ hi t < f k)) → r.fl = fSat) ∧
    ((∀ k, actives t env.mask k → sat = false ∨ (lo t ≤ f k ∧ f k ≤ hi t)) → r.fl = fNone)

/-- A bit operation that writes the n-bit pattern `f k` to every active element, extended by its type, and sets no flag. -/
def BitResult (i : Instr) (c : Nat) (g : Firing) (m : NodeImg) (env : OpEnv) (s : State) (t : IntTy) (f : Nat → Nat) :
    Prop :=
  ∃ r, exec i s = results c g m r s ∧ r.mask = (if IntTy.wide t then pairMask env.mask else env.mask) ∧ r.fl = fNone ∧
    ∀ k, actives t env.mask k → elemAt t r.lanes k = extendRaw t (f k)

end Sys2Proof.Claims

/-- R130: the integer arithmetic of every active element, wrapped or clamped once, with sat set exactly where it clamps. -/
def Obligations.IntegerArithmeticWrapsOrClamps : Prop :=
  ∀ (t : IntTy) (a b d : Sel) (sat : Bool) (c : Nat) (g : Firing) (m : NodeImg) (env : OpEnv) (s : State),
    let A := valAt env t a
    let B := valAt env t b
    let D := valAt env t d
    let R := fun (i : Instr) (sat : Bool) (f : Nat → Int) => Computes i c g m env s → ArithResult i c g m env s t sat f
    R (.addInteger t a b sat) sat (fun k => A k + B k) ∧
    R (.subInteger t a b sat) sat (fun k => A k - B k) ∧
    R (.mulInteger t a b sat) sat (fun k => A k * B k) ∧
    R (.mad t a b d sat) sat (fun k => A k * B k + D k) ∧
    R (.negInteger t a sat) sat (fun k => -A k) ∧
    R (.absInteger t a sat) sat (fun k => if A k < 0 then -A k else A k) ∧
    R (.mulhInteger t a b) false (fun k => A k * B k / 2 ^ IntTy.bits t) ∧
    R (.minInteger t a b) false (fun k => if A k ≤ B k then A k else B k) ∧
    R (.maxInteger t a b) false (fun k => if B k ≤ A k then A k else B k)

/-- R131: the logic and bit operations on the n-bit patterns of every active element; none sets a flag. -/
def Obligations.BitOperationsOnPatterns : Prop :=
  ∀ (t : IntTy) (a b : Sel) (c : Nat) (g : Firing) (m : NodeImg) (env : OpEnv) (s : State),
    let n := IntTy.bits t
    let A := fun k => selInt env t a k % 2 ^ n
    let B := fun k => selInt env t b k % 2 ^ n
    let R := fun (i : Instr) (f : Nat → Nat) => Computes i c g m env s → BitResult i c g m env s t f
    R (.andInteger t a b) (fun k => A k &&& B k) ∧
    R (.orInteger t a b) (fun k => A k ||| B k) ∧
    R (.xorInteger t a b) (fun k => A k ^^^ B k) ∧
    R (.notInteger t a) (fun k => 2 ^ n - 1 - A k) ∧
    R (.andn t a b) (fun k => A k &&& (2 ^ n - 1 - B k)) ∧
    R (.shl t a b) (fun k => if n ≤ B k then 0 else A k * 2 ^ B k % 2 ^ n) ∧
    R (.shr t a b) (fun k => if IntTy.signed t then (intVal t (A k) / 2 ^ min (B k) (n - 1) % 2 ^ n).toNat
      else if n ≤ B k then 0 else A k / 2 ^ B k) ∧
    R (.rotl t a b) (fun k => ((A k <<< (B k % n)) ||| (A k >>> (n - B k % n))) % 2 ^ n) ∧
    R (.rotr t a b) (fun k => ((A k >>> (B k % n)) ||| (A k <<< (n - B k % n))) % 2 ^ n) ∧
    R (.clz t a) (fun k => if A k = 0 then n else n - 1 - Nat.log2 (A k)) ∧
    R (.popc t a) (fun k => ((List.range n).filter fun j => (A k).testBit j).length)

/-- R129, R132: nop passes p0, or x after another stage; cmp writes 1 where its condition holds and 0 elsewhere, and sel
chooses b or c by a; none of them sets a flag. -/
def Obligations.NopCompareAndSelect : Prop :=
  ∀ (t : IntTy) (a b d : Sel) (c : Nat) (g : Firing) (m : NodeImg) (env : OpEnv) (s : State),
    let A := valAt env t a
    let B := valAt env t b
    let D := valAt env t d
    (Computes .nop c g m env s → ∃ r, exec .nop s = results c g m r s ∧ r.mask = env.mask ∧ r.fl = fNone ∧
      ∀ l, l < 16 → laneAt r.lanes l = if env.mask.getLsbD l = true then
        laneAt (if g.stage = 0 then env.ports.getD 0 [] else env.x) l else 0) ∧
    (∀ q : ICond, Computes (.cmpInteger t a b q) c g m env s →
      ∃ r, exec (.cmpInteger t a b q) s = results c g m r s ∧ r.fl = fNone ∧ ∀ k, actives t env.mask k →
        elemAt t r.lanes k = match q with
          | .eq => if A k = B k then 1 else 0
          | .ne => if A k = B k then 0 else 1
          | .lt => if A k < B k then 1 else 0
          | .le => if A k ≤ B k then 1 else 0
          | .gt => if B k < A k then 1 else 0
          | .ge => if B k ≤ A k then 1 else 0) ∧
    (Computes (.sel t a b d) c g m env s → ∃ r, exec (.sel t a b d) s = results c g m r s ∧ r.fl = fNone ∧
      ∀ k, actives t env.mask k → elemAt t r.lanes k = intRaw t (if A k = 0 then D k else B k))

/-- R133 to R136: every float operation applies its format's function to the active elements of its operands, each rounding
with its own draw of R48, and merges the elements flags. -/
def Sys2Proof.Claims.FloatOperationsApply : Prop :=
  ∀ (t : FltTy) (a b d : Sel) (rnd : Rnd) (sat : Bool) (q : FCond) (c : Nat) (g : Firing) (m : NodeImg) (env : OpEnv)
      (s : State),
    let w := FltTy.wide t
    let u := drawAt env w
    let A := selFlt env t a
    let B := selFlt env t b
    let D := selFlt env t d
    let R := fun (i : Instr) (f : Nat → Res Nat) => Computes i c g m env s →
      exec i s = results c g m (byElem w env.mask f) s
    R (.addFloat t a b rnd sat) (fun k => fAdd t rnd sat (u k) (A k) (B k)) ∧
    R (.subFloat t a b rnd sat) (fun k => fSub t rnd sat (u k) (A k) (B k)) ∧
    R (.mulFloat t a b rnd sat) (fun k => fMul t rnd sat (u k) (A k) (B k)) ∧
    R (.fma t a b d rnd sat) (fun k => fFma t rnd sat (u k) (A k) (B k) (D k)) ∧
    R (.minFloat t a b) (fun k => fMinMax false t (A k) (B k)) ∧
    R (.maxFloat t a b) (fun k => fMinMax true t (A k) (B k)) ∧
    R (.absFloat t a) (fun k => fSignOp false t (A k)) ∧
    R (.negFloat t a) (fun k => fSignOp true t (A k)) ∧
    R (.cmpFloat t a b q) (fun k => { val := if (fCmp t q (A k) (B k)).val then 1 else 0, fl := (fCmp t q (A k) (B k)).fl }) ∧
    R (.rcp t a rnd sat) (fun k => fRcp t rnd sat (u k) (A k)) ∧
    R (.rsqrt t a rnd sat) (fun k => fRsqrt t rnd sat (u k) (A k)) ∧
    R (.sqrt t a rnd sat) (fun k => fSqrt t rnd sat (u k) (A k)) ∧
    R (.exp2 t a rnd sat) (fun k => fExp2 t rnd sat (u k) (A k)) ∧
    R (.log2 t a rnd sat) (fun k => fLog2 t rnd sat (u k) (A k))

namespace Sys2Proof.Claims

open Sys2Proof Sys2Proof.Machine

/-- R40: the exponent field of a pattern. -/
def expField (t : FltTy) (b : Nat) : Nat := b / 2 ^ FltTy.frac t % 2 ^ FltTy.exp t

/-- R40: a pattern that is neither an infinity nor a NaN. -/
def finite (t : FltTy) (b : Nat) : Prop := expField t b < 2 ^ FltTy.exp t - 1

/-- R40: the sign bit of a pattern. -/
def signBit (t : FltTy) (b : Nat) : Bool := b.testBit (FltTy.exp t + FltTy.frac t)

/-- R40: the value of a finite pattern. -/
def ratOf (t : FltTy) (b : Nat) : ℚ :=
  let frac : ℚ := (b % 2 ^ FltTy.frac t : Nat) / 2 ^ FltTy.frac t
  let mag : ℚ := if expField t b = 0 then 2 ^ (1 - FltTy.bias t : ℤ) * frac
    else 2 ^ (expField t b - FltTy.bias t : ℤ) * (1 + frac)
  if signBit t b = true then -mag else mag

/-- R47, R48: `k` is the whole number that the magnitude `w` rounds to in a mode, for a value of sign `neg` and the draw `u`. -/
def Nearest (r : Rnd) (neg : Bool) (u : Nat) (w : ℚ) (k : Nat) : Prop :=
  let below := (k : ℚ) ≤ w ∧ w < k + 1
  let above := w ≤ k ∧ (k : ℚ) < w + 1
  match r with
  | .rne => |w - k| ≤ 1 / 2 ∧ (|w - k| = 1 / 2 → k % 2 = 0)
  | .rz => below
  | .ru => if neg = true then below else above
  | .rd => if neg = true then above else below
  | .sr => k = if (⌊w⌋₊ : ℚ) ≠ w ∧ u < ⌊2 ^ 32 * (w - ⌊w⌋₊)⌋₊ then ⌊w⌋₊ + 1 else ⌊w⌋₊

/-- R42, R47 to R50: `res` is the exact value `v ≠ 0` rounded once to a format, with its flags. The magnitude lies from `2^e0`
up; `k` and `j` are its roundings in units of the format and of an unbounded exponent range. -/
def RoundsTo (t : FltTy) (r : Rnd) (sat : Bool) (u : Nat) (v : ℚ) (res : Res Nat) : Prop :=
  ∀ (e0 : ℤ) (k j : Nat), 2 ^ e0 ≤ |v| → |v| < 2 ^ (e0 + 1) →
    let emin : ℤ := 1 - FltTy.bias t
    let unit : ℤ := max e0 emin - FltTy.frac t
    let neg := decide (v < 0)
    let got : ℚ := k * 2 ^ unit
    let free : ℚ := j * 2 ^ (e0 - FltTy.frac t)
    let largest : ℚ := (2 - 2 ^ (-FltTy.frac t : ℤ)) * 2 ^ (FltTy.bias t)
    Nearest r neg u (|v| / 2 ^ unit) k → Nearest r neg u (|v| / 2 ^ (e0 - FltTy.frac t : ℤ)) j →
    (largest < got → res.fl = fOvf ||| fInx ∧
      res.val = if sat = true ∨ r = .rz ∨ (r = .ru ∧ neg = true) ∨ (r = .rd ∧ neg = false) then fInf t neg - 1 else fInf t neg) ∧
    (got ≤ largest → finite t res.val ∧ signBit t res.val = neg ∧ |ratOf t res.val| = got ∧ res.val < 2 ^ FltTy.width t ∧
      res.fl = flagIf (decide (got ≠ |v|)) fInx ||| flagIf (decide (got ≠ |v| ∧ free < 2 ^ emin)) fUnf)

/-- R134, R135: the order of two patterns that are no NaN, by their values. -/
def Below (t : FltTy) (a b : Nat) : Prop :=
  (fVal t a = .inf true ∧ fVal t b ≠ .inf true) ∨ (fVal t b = .inf false ∧ fVal t a ≠ .inf false) ∨
    (finite t a ∧ finite t b ∧ ratOf t a < ratOf t b)

/-- R136: `res` is the positive root of `below v = 0` rounded once, where `below` is negative under the root and positive above
it: the rounding of the root where that is rational, else that of every rational near enough to it on either side. -/
def RootRounds (t : FltTy) (r : Rnd) (sat : Bool) (u : Nat) (below : ℚ → ℚ) (res : Res Nat) : Prop :=
  (∀ v, 0 < v → below v = 0 → RoundsTo t r sat u v res) ∧
  ((∀ v, below v ≠ 0) → ∃ lo hi, 0 < lo ∧ below lo < 0 ∧ 0 < below hi ∧ ∀ v, lo ≤ v → v ≤ hi → RoundsTo t r sat u v res)

/-- R43, R44: the value of a block element, in a block that is neither a zero nor a NaN block. -/
def blkRat (t : BlkTy) (scale mant : Nat) : ℚ :=
  2 ^ (scaleE scale - 127 : ℤ) * (1 + scaleF scale / 256) * mantOf (BlkTy.w t) mant / 2 ^ (BlkTy.w t - 1)

/-- Element `k` of a vector of pairs or of lanes. -/
def elemOf (wide : Bool) (v : List Lane) (k : Nat) : Nat := if wide then pairAt v k else (laneAt v k).toNat

/-- R138: the active elements of a conversion's result from elements of width `sw` to elements of width `dw`. -/
def mappedOn (mask : BitVec 16) (sw dw : Bool) (k : Nat) : Prop :=
  if dw = true then k < 8 ∧ mask.getLsbD (2 * k) = true
  else k < 16 ∧ mask.getLsbD k = true ∧ (sw = true → k % 2 = 0)

/-- R138: the source element of result element `k`. -/
def mappedFrom (sw dw : Bool) (k : Nat) : Nat := if sw = dw then k else if dw then 2 * k else k / 2

/-- R126, R138: element `k` of the result is that of `f`, its mask holds its active elements, every other lane is 0, and a flag
is set where an element sets it. -/
def MappedResult (mask : BitVec 16) (sw dw : Bool) (f : Nat → Res Nat) (r : OpRes) : Prop :=
  let act := mappedOn mask sw dw
  (∀ k, act k → elemOf dw r.lanes k = (f k).val) ∧
  (∀ l, l < 16 → (r.mask.getLsbD l = true ↔ act (if dw then l / 2 else l))) ∧
  (∀ l, l < 16 → r.mask.getLsbD l = false → laneAt r.lanes l = 0) ∧
  (∀ j, r.fl.getLsbD j = true ↔ ∃ k, act k ∧ (f k).fl.getLsbD j = true)

/-- R57, R146: the value at position `i` of level `l` of the fixed tree, absent where no element beneath it is, with the flags
of the steps beneath; a step at level `l + 1` has the key `i + 2^l`. -/
def treeAt (step : Nat → Nat → Nat → Res Nat) (x : Nat → Option Nat) : Nat → Nat → Option Nat × Flags
  | 0, i => (x i, fNone)
  | l + 1, i =>
    let a := treeAt step x l i
    let b := treeAt step x l (i + 2 ^ l)
    match a.1, b.1 with
    | some p, some q => (some (step (i + 2 ^ l) p q).val, a.2 ||| b.2 ||| (step (i + 2 ^ l) p q).fl)
    | some p, none => (some p, a.2 ||| b.2)
    | none, q => (q, a.2 ||| b.2)

/-- R57, R146: a reduction of the active elements: the tree's value, or the identity, alone in element 0. -/
def Reduces (wide : Bool) (mask : BitVec 16) (x : Nat → Nat) (ident : Nat) (step : Nat → Nat → Nat → Res Nat) (r : OpRes) :
    Prop :=
  let on := fun k => if wide then mask.getLsbD (2 * k) else mask.getLsbD k
  let v := treeAt step (fun k => if on k = true then some (x k) else none) (if wide then 3 else 4) 0
  elemOf wide r.lanes 0 = v.1.getD ident ∧ r.mask = (if wide then 3 else 1) ∧ r.fl = v.2 ∧
    ∀ l, l < 16 → (if wide then 2 else 1) ≤ l → laneAt r.lanes l = 0

/-- R56, R147: a scan: the lowest active element is its own, and every other one the step of the one before and its own. -/
def Scans (wide : Bool) (mask : BitVec 16) (x : Nat → Nat) (step : Nat → Nat → Nat → Res Nat) (r : OpRes) : Prop :=
  let act := mappedOn mask wide wide
  let next := fun j k => act j ∧ act k ∧ j < k ∧ ∀ i, j < i → i < k → ¬ act i
  let made := fun j k => step (laneKey wide k) (elemOf wide r.lanes j) (x k)
  (∀ k, act k → (∀ j, j < k → ¬ act j) → elemOf wide r.lanes k = x k) ∧
  (∀ j k, next j k → elemOf wide r.lanes k = (made j k).val) ∧
  (∀ l, l < 16 → (r.mask.getLsbD l = true ↔ act (if wide then l / 2 else l))) ∧
  (∀ l, l < 16 → r.mask.getLsbD l = false → laneAt r.lanes l = 0) ∧
  (∀ i, r.fl.getLsbD i = true ↔ ∃ j k, next j k ∧ (made j k).fl.getLsbD i = true)

end Sys2Proof.Claims

/-- R133, R136: the special operands of the float operations, in every format, rounding mode and saturation: ∞ − ∞ and
0 × ∞ are invalid, any other sum or product with an infinity is the infinity of its sign, and rcp, rsqrt, sqrt, exp2 and
log2 give the table's results and flags. -/
def Sys2Proof.Claims.FloatSpecialOperands : Prop :=
  ∀ (t : FltTy) (r : Rnd) (sat n k : Bool) (u : Nat),
    let nan : Res Nat := { val := fNaN t, fl := fInv }
    let no := fun v => ({ val := v, fl := fNone } : Res Nat)
    let dz := fun v => ({ val := v, fl := fDz } : Res Nat)
    let one := FltTy.bias t * 2 ^ FltTy.frac t
    let inf := fInf t
    fAdd t r sat u (inf n) (inf !n) = nan ∧ fSub t r sat u (inf n) (inf n) = nan ∧
    fAdd t r sat u (inf n) (inf n) = no (inf n) ∧ fSub t r sat u (inf n) (inf !n) = no (inf n) ∧
    (∀ z, fMul t r sat u (fZero t z) (inf n) = nan ∧ fMul t r sat u (inf n) (fZero t z) = nan ∧
      fFma t r sat u (fZero t z) (inf n) (fNaN t) = nan ∧ fFma t r sat u (inf n) (fZero t z) (fNaN t) = nan) ∧
    fMul t r sat u (inf n) (inf k) = no (inf (n != k)) ∧
    fFma t r sat u (inf n) (inf k) (inf (n != k)) = no (inf (n != k)) ∧ fFma t r sat u (inf n) (inf k) (inf (n == k)) = nan ∧
    (∀ a, finite t a → let s := signBit t a
      fAdd t r sat u (inf n) a = no (inf n) ∧ fAdd t r sat u a (inf n) = no (inf n) ∧
      fSub t r sat u (inf n) a = no (inf n) ∧ fSub t r sat u a (inf n) = no (inf !n) ∧
      fFma t r sat u (inf n) (inf k) a = no (inf (n != k)) ∧
      (∀ b, finite t b → fFma t r sat u a b (inf n) = no (inf n)) ∧
      (ratOf t a ≠ 0 → fMul t r sat u (inf n) a = no (inf (n != s)) ∧ fMul t r sat u a (inf n) = no (inf (n != s)) ∧
        fFma t r sat u (inf n) a (inf (n != s)) = no (inf (n != s)) ∧ fFma t r sat u a (inf n) (inf (n == s)) = nan ∧
        ∀ b, finite t b → fFma t r sat u (inf n) a b = no (inf (n != s)) ∧ fFma t r sat u a (inf n) b = no (inf (n != s))) ∧
      (ratOf t a < 0 → fRsqrt t r sat u a = nan ∧ fSqrt t r sat u a = nan ∧ fLog2 t r sat u a = nan)) ∧
    fAdd t r sat u (fZero t n) (fZero t n) = no (fZero t n) ∧
    fAdd t r sat u (fZero t n) (fZero t !n) = no (fZero t (decide (r = .rd))) ∧
    fRcp t r sat u (inf n) = no (fZero t n) ∧ fRcp t r sat u (fZero t n) = dz (inf n) ∧
    fRsqrt t r sat u (inf true) = nan ∧ fRsqrt t r sat u (inf false) = no (fZero t false) ∧
    fRsqrt t r sat u (fZero t n) = dz (inf n) ∧
    fSqrt t r sat u (inf true) = nan ∧ fSqrt t r sat u (inf false) = no (inf false) ∧
    fSqrt t r sat u (fZero t n) = no (fZero t n) ∧
    fExp2 t r sat u (inf true) = no (fZero t false) ∧ fExp2 t r sat u (inf false) = no (inf false) ∧
    fExp2 t r sat u (fZero t n) = no one ∧
    fLog2 t r sat u (inf true) = nan ∧ fLog2 t r sat u (inf false) = no (inf false) ∧
    fLog2 t r sat u (fZero t n) = dz (inf true) ∧ fLog2 t r sat u one = no (fZero t false)

/-- R41, R133 to R136: the float operations on NaN operands: the canonical NaN, with inv for a signalling one, and in fma
for 0 × ∞ too; min and max give the other operand; cmp gives the results of the table, with inv for a signalling NaN and,
under an ordered condition, for any NaN. -/
def Sys2Proof.Claims.FloatNanOperands : Prop :=
  ∀ (t : FltTy) (a b : Nat),
    let an := (fVal t a).isNan
    let bn := (fVal t b).isNan
    let sn := (fVal t a).isSnan || (fVal t b).isSnan
    let inv := fun (p : Bool) => if p then fInv else fNone
    let nan := fun (p : Bool) => ({ val := fNaN t, fl := inv p } : Res Nat)
    (∀ r sat u, (an || bn) = true → fAdd t r sat u a b = nan sn ∧ fSub t r sat u a b = nan sn ∧ fMul t r sat u a b = nan sn) ∧
    (∀ r sat u d, (an || bn || (fVal t d).isNan) = true →
      let bad := ((fVal t a).isZero && decide (∃ n, fVal t b = .inf n)) || (decide (∃ n, fVal t a = .inf n) && (fVal t b).isZero)
      fFma t r sat u a b d = nan (bad || sn || (fVal t d).isSnan)) ∧
    (∀ r sat u, an = true → let x := nan (fVal t a).isSnan
      fRcp t r sat u a = x ∧ fRsqrt t r sat u a = x ∧ fSqrt t r sat u a = x ∧ fExp2 t r sat u a = x ∧ fLog2 t r sat u a = x) ∧
    (∀ w, (an = true → bn = false → (fMinMax w t a b).val = b) ∧ (an = false → bn = true → (fMinMax w t a b).val = a) ∧
      (an = true → bn = true → (fMinMax w t a b).val = fNaN t) ∧ (fMinMax w t a b).fl = inv sn) ∧
    (∀ w, an = true → (fSignOp w t a).val = fNaN t ∧ (fSignOp w t a).fl = inv (fVal t a).isSnan) ∧
    ((an || bn) = true → ∀ q,
      (fCmp t q a b).val = (match q with | .ne | .un => true | .eq | .lt | .le | .gt | .ge => false) ∧
      (fCmp t q a b).fl = (match q with | .eq | .ne | .un => inv sn | .lt | .le | .gt | .ge => fInv)) ∧
    (an = false → bn = false → ∀ q, (fCmp t q a b).fl = fNone)

/-- R134, R135: min and max of two numbers give the one with the lower or higher value, −0 being below +0; abs clears the
sign bit of a number and neg changes it; cmp compares the values of two numbers, zeros being equal. None of them sets a
flag. -/
def Sys2Proof.Claims.NumbersAreOrdered : Prop :=
  ∀ (t : FltTy) (a b : Nat), (fVal t a).isNan = false → (fVal t b).isNan = false → a < 2 ^ FltTy.width t →
      b < 2 ^ FltTy.width t →
    let no := fun v => ({ val := v, fl := fNone } : Res Nat)
    let lt := Below t a b
    let gt := Below t b a
    (lt → fMinMax false t a b = no a ∧ fMinMax true t a b = no b) ∧ (gt → fMinMax false t a b = no b ∧ fMinMax true t a b = no a) ∧
    (¬ lt → ¬ gt → (a = b → ∀ w, fMinMax w t a b = no a) ∧
      (a = fZero t true → b = fZero t false → fMinMax false t a b = no a ∧ fMinMax true t a b = no b) ∧
      (a = fZero t false → b = fZero t true → fMinMax false t a b = no b ∧ fMinMax true t a b = no a) ∧
      (a = b ∨ (ratOf t a = 0 ∧ ratOf t b = 0))) ∧
    fSignOp false t a = no (a % 2 ^ (FltTy.exp t + FltTy.frac t)) ∧
    fSignOp true t a = no (a ^^^ 2 ^ (FltTy.exp t + FltTy.frac t)) ∧
    ∀ q, (fCmp t q a b).fl = fNone ∧ ((fCmp t q a b).val = true ↔ match q with
      | .eq => ¬ lt ∧ ¬ gt
      | .ne => lt ∨ gt
      | .lt => lt
      | .le => ¬ gt
      | .gt => gt
      | .ge => ¬ lt
      | .un => False)

/-- R42, R47 to R50, R133, R136: the exact sum, difference, product, fused product and sum, reciprocal, square root
and reciprocal square root of finite operands, rounded once; an exact zero keeps the sign of two like zeros, and is
else minus only under RD, and a zero product has the sign of its operands' product. exp2 of an integer is the power of
two and log2 of a power of two its exponent, each rounded once; exp2 of another value lies between the neighbouring
powers before its one rounding, and log2 of another value is a value of its sign rounded once: how near to the
function's value these are is not claimed. The model's choices in it: log 113. -/
def Sys2Proof.Claims.FiniteResultsAreRoundedOnce : Prop :=
  ∀ (t : FltTy) (r : Rnd) (sat : Bool) (u a b d : Nat), finite t a → finite t b → finite t d →
    let A := ratOf t a
    let B := ratOf t b
    let D := ratOf t d
    let sa := signBit t a
    let sb := signBit t b
    let sp := sa != sb
    let rounds := RoundsTo t r sat u
    let gives := fun (v : ℚ) (zero : Bool) (x : Res Nat) =>
      (v ≠ 0 → rounds v x) ∧ (v = 0 → x = { val := fZero t zero, fl := fNone })
    gives (A + B) (if A = 0 ∧ sa = sb then sa else decide (r = .rd)) (fAdd t r sat u a b) ∧
    gives (A - B) (if A = 0 ∧ sa ≠ sb then sa else decide (r = .rd)) (fSub t r sat u a b) ∧
    gives (A * B) sp (fMul t r sat u a b) ∧
    gives (A * B + D) (if D = 0 ∧ sp = signBit t d then sp else decide (r = .rd)) (fFma t r sat u a b d) ∧
    (A ≠ 0 → rounds (1 / A) (fRcp t r sat u a)) ∧
    (0 < A → RootRounds t r sat u (fun v => v * v - A) (fSqrt t r sat u a) ∧
      RootRounds t r sat u (fun v => v * v * A - 1) (fRsqrt t r sat u a)) ∧
    (∀ n : ℤ, A = n → rounds (2 ^ n) (fExp2 t r sat u a)) ∧
    (∀ n : ℤ, (n : ℚ) < A → A < n + 1 → ∃ v, 2 ^ n < v ∧ v < 2 ^ (n + 1) ∧ rounds v (fExp2 t r sat u a)) ∧
    (∀ n : ℤ, A = 2 ^ n → gives n false (fLog2 t r sat u a)) ∧
    (0 < A → A ≠ 1 → ∃ v, (v < 0 ↔ A < 1) ∧ v ≠ 0 ∧ rounds v (fLog2 t r sat u a))

/-- R39, R41, R51, R137: the conversions of one value between integers and floats. -/
def Sys2Proof.Claims.ConversionsOfValues : Prop :=
  (∀ (it : IntTy) (sat : Bool) (i : Int),
    let v := cvtII (IntTy.signed it) (IntTy.bits it) sat i
    Narrowed it sat i v.val ∧ v.fl = flagIf (sat && decide (i < lo it ∨ hi it < i)) fSat) ∧
  (∀ (d : FltTy) (r : Rnd) (sat : Bool) (u : Nat) (i : Int), (i ≠ 0 → RoundsTo d r sat u i (cvtIF d r sat u i)) ∧
    cvtIF d r sat u 0 = { val := 0, fl := fNone }) ∧
  (∀ (f d : FltTy) (r : Rnd) (sat : Bool) (u a : Nat),
    (finite f a → (ratOf f a ≠ 0 → RoundsTo d r sat u (ratOf f a) (cvtFF f d r sat u a)) ∧
      (ratOf f a = 0 → cvtFF f d r sat u a = { val := fZero d (signBit f a), fl := fNone })) ∧
    (∀ n, fVal f a = .inf n → cvtFF f d r sat u a = { val := fInf d n, fl := fNone }) ∧
    (∀ q, fVal f a = .nan q → cvtFF f d r sat u a = { val := fNaN d, fl := flagIf q fInv })) ∧
  (∀ (f : FltTy) (it : IntTy) (r : Rnd) (u a k : Nat),
    let x := cvtFI f (IntTy.signed it) (IntTy.bits it) r u a
    let A := ratOf f a
    let v : Int := if A < 0 then -(k : Int) else k
    (finite f a → Nearest r (decide (A < 0)) u |A| k →
      (v < lo it → x = { val := lo it, fl := fInv }) ∧ (hi it < v → x = { val := hi it, fl := fInv }) ∧
      (lo it ≤ v → v ≤ hi it → x = { val := v, fl := flagIf (decide ((k : ℚ) ≠ |A|)) fInx })) ∧
    (∀ n, fVal f a = .inf n → x = { val := if n then lo it else hi it, fl := fInv }) ∧
    (∀ q, fVal f a = .nan q → x = { val := 0, fl := fInv }))

/-- R43, R44, R51, R141 to R144: quant, dequant, bmul and bdot of block elements: the exact value under the scales, rounded
once; a NaN block gives the canonical NaN and a zero block +0, without a flag. -/
def Sys2Proof.Claims.BlockValues : Prop :=
  (∀ (t : BlkTy) (d : FltTy) (r : Rnd) (sat : Bool) (u sc m : Nat),
    let x := dequantVal t d r sat u sc m
    let v := blkRat t sc m
    (scaleE sc = 255 → x = { val := fNaN d, fl := fNone }) ∧
    (scaleE sc = 0 ∨ (scaleE sc < 255 ∧ v = 0) → x = { val := 0, fl := fNone }) ∧
    (0 < scaleE sc → scaleE sc < 255 → v ≠ 0 → RoundsTo d r sat u v x ∧
      (d = .f32 ∨ d = .f64 → x.fl = fNone ∧ ratOf d x.val = v))) ∧
  (∀ (t : BlkTy) (f : FltTy) (r : Rnd) (u sc a k : Nat),
    let x := quantVal t f r u sc a
    let top : Int := 2 ^ (BlkTy.w t - 1) - 1
    let A := ratOf f a
    let w : ℚ := |A| * 2 ^ (BlkTy.w t - 1) / (2 ^ (scaleE sc - 127 : ℤ) * (1 + scaleF sc / 256))
    let v : Int := if A < 0 then -(k : Int) else k
    let clamped : Flags := fSat ||| fInx
    (scaleE sc = 255 ∨ (∃ q, fVal f a = .nan q) →
      x = { val := { m := 0, fwd := 0xFF00 }, fl := flagIf (fVal f a).isSnan fInv }) ∧
    (scaleE sc = 0 → (∀ q, fVal f a ≠ .nan q) →
      x = { val := { m := 0, fwd := 0 }, fl := flagIf (!(fVal f a).isZero) fInx }) ∧
    (0 < scaleE sc → scaleE sc < 255 →
      (∀ n, fVal f a = .inf n → x = { val := { m := if n then -top - 1 else top, fwd := sc }, fl := clamped }) ∧
      (finite f a → Nearest r (decide (A < 0)) u w k →
        (top < v → x = { val := { m := top, fwd := sc }, fl := clamped }) ∧
        (v < -top - 1 → x = { val := { m := -top - 1, fwd := sc }, fl := clamped }) ∧
        (-top - 1 ≤ v → v ≤ top → x = { val := { m := v, fwd := sc }, fl := flagIf (decide ((k : ℚ) ≠ w)) fInx })))) ∧
  (∀ (ta tb : BlkTy) (r : Rnd) (sat : Bool) (u sa ma sb mb : Nat),
    let x := bmulVal ta tb r sat u sa ma sb mb
    let v := blkRat ta sa ma * blkRat tb sb mb
    let nan := scaleE sa = 255 ∨ scaleE sb = 255
    let zero := scaleE sa = 0 ∨ scaleE sb = 0 ∨ v = 0
    (nan → x = { val := fNaN .f32, fl := fNone }) ∧ (¬ nan → zero → x = { val := 0, fl := fNone }) ∧
    (¬ nan → ¬ zero → RoundsTo .f32 r sat u v x)) ∧
  (∀ (ta tb : BlkTy) (r : Rnd) (sat : Bool) (u : Nat) (es : List (Nat × Nat × Nat × Nat)),
    let x := bdotVal r sat u (es.map fun e => blkProd ta tb e.1 e.2.1 e.2.2.1 e.2.2.2)
    let nan := ∃ e ∈ es, scaleE e.1 = 255 ∨ scaleE e.2.2.1 = 255
    let v : ℚ := (es.map fun e => if scaleE e.1 = 0 ∨ scaleE e.2.2.1 = 0 then 0
      else blkRat ta e.1 e.2.1 * blkRat tb e.2.2.1 e.2.2.2).sum
    (nan → x = { val := fNaN .f32, fl := fNone }) ∧ (¬ nan → v = 0 → x = { val := 0, fl := fNone }) ∧
    (¬ nan → v ≠ 0 → RoundsTo .f32 r sat u v x))

/-- R48, R126, R137 to R139, R141 to R144: the conversions and the block operations give every active element the conversion or
the block function of its source element, with the draw of its result lane, and place it as R138 says; a block operand whose
index differs from its scale lane's in an active lane raises OP.SCALE, with no result and no flag. -/
def Sys2Proof.Claims.ConversionsAndBlocksPerElement : Prop :=
  ∀ (ti : IntTy) (tf : FltTy) (tb tb2 : BlkTy) (a b : Sel) (cv : CvtTy) (df : FltTy) (rnd : Rnd) (sat : Bool) (c : Nat)
      (g : Firing) (m : NodeImg) (env : OpEnv) (s : State),
    let draw := fun (dw : Bool) k => env.key.draw (if dw then 2 * k else k)
    let R := fun (i : Instr) (sw dw : Bool) (f : Nat → Res Nat) => Computes i c g m env s →
      ∃ r, exec i s = results c g m r s ∧ MappedResult env.mask sw dw f r
    let sc := scaleAt env
    let mt := mantAt env
    let fits := fun (p : Sel) l => (laneAt (blkLanes env p) l).toNat / 2 ^ 16 = (laneAt (blkScales env p) l).toNat / 2 ^ 16
    let trap := (Host.Outcome.next (nodeTrap c 0x0402 0 (nodeTagReport m.emit.node g.tag) s) : Out)
    let on := mappedOn env.mask false false
    let S := fun (i : Instr) (ok : Prop) (P : OpRes → Prop) => Computes i c g m env s →
      (ok → ∃ r, exec i s = results c g m r s ∧ P r) ∧ (¬ ok → exec i s = trap)
    let isw := IntTy.wide ti
    let fsw := FltTy.wide tf
    let dfw := FltTy.wide df
    R (.cvtIntegerSource ti a cv rnd sat) isw (CvtTy.wide cv) (fun k =>
      let v := valAt env ti a (mappedFrom isw (CvtTy.wide cv) k)
      match cv with
      | .int d => let x := cvtII (IntTy.signed d) (IntTy.bits d) sat v
        { val := intRaw d x.val, fl := x.fl }
      | .flt d => cvtIF d rnd sat (draw (FltTy.wide d) k) v) ∧
    R (.cvtFloatSource tf a cv rnd sat) fsw (CvtTy.wide cv) (fun k =>
      let v := selFlt env tf a (mappedFrom fsw (CvtTy.wide cv) k)
      match cv with
      | .int d => let x := cvtFI tf (IntTy.signed d) (IntTy.bits d) rnd (draw (IntTy.wide d) k) v
        { val := intRaw d x.val, fl := x.fl }
      | .flt d => cvtFF tf d rnd sat (draw (FltTy.wide d) k) v) ∧
    (Computes (.quant tb a df rnd sat) c g m env s →
      let q := fun k => quantVal tb df rnd (draw false k) ((laneAt env.quantScale k).toNat % 2 ^ 16)
        (selFlt env df a (mappedFrom dfw false k))
      let bi := fun k => (laneAt env.quantScale k).toNat / 2 ^ 16 * 2 ^ 16
      ∃ r, exec (.quant tb a df rnd sat) s = results c g m r s ∧
        MappedResult env.mask dfw false (fun k => { val := bi k + ((q k).val.m % 256).toNat, fl := (q k).fl }) r ∧
        ∀ k, mappedOn env.mask dfw false k → (laneAt r.fwd k).toNat = bi k + (q k).val.fwd) ∧
    S (.dequant tb a df rnd sat) (∀ k, mappedOn env.mask false dfw k → fits a (mappedFrom false dfw k)) (fun r =>
      MappedResult env.mask false dfw (fun k => dequantVal tb df rnd sat (draw dfw k) (sc a (mappedFrom false dfw k))
        (mt a (mappedFrom false dfw k))) r) ∧
    S (.bmul tb a b tb2 rnd sat) (∀ l, on l → fits a l ∧ fits b l) (fun r =>
      MappedResult env.mask false false (fun l => bmulVal tb tb2 rnd sat (draw false l) (sc a l) (mt a l) (sc b l) (mt b l)) r) ∧
    S (.bdot tb a b tb2 rnd sat) (∀ l, on l → fits a l ∧ fits b l) (fun r =>
      let v := bdotVal rnd sat (draw false 0) ((activeLanes env.mask).map fun l =>
        blkProd tb tb2 (sc a l) (mt a l) (sc b l) (mt b l))
      r.mask = 1 ∧ (laneAt r.lanes 0).toNat = v.val ∧ r.fl = v.fl ∧ ∀ l, 1 ≤ l → l < 16 → laneAt r.lanes l = 0)

/-- R56, R57, R146, R147: red gives the value of the fixed tree over the active elements, or the identity, in element 0; scan
gives every active element the fold of those up to it.  Each step is the single operation at the type, drawing under SR with its
own key. -/
def Sys2Proof.Claims.ReductionsAndScans : Prop :=
  (∀ (ti : IntTy) (tf : FltTy) (a : Sel) (ro : RedOp) (fo : FRedOp) (rnd : Rnd) (sat : Bool) (c : Nat) (g : Firing)
      (m : NodeImg) (env : OpEnv) (s : State),
    let R := fun (i : Instr) (P : OpRes → Prop) => Computes i c g m env s → ∃ r, exec i s = results c g m r s ∧ P r
    let xi := fun k => extendRaw ti (selInt env ti a k)
    let xf := selFlt env tf a
    let idI : Int := match ro with
      | .add | .or | .xor => 0
      | .and => if IntTy.signed ti then -1 else hi ti
      | .min => hi ti
      | .max => lo ti
    let idF := match fo with
      | .add => 0
      | .min => fInf tf false
      | .max => fInf tf true
    R (.redInteger ti a ro sat) (Reduces (IntTy.wide ti) env.mask xi (intRaw ti idI) fun _ => redStepI ti ro sat) ∧
    R (.redFloat tf a fo rnd sat) (Reduces (FltTy.wide tf) env.mask xf idF fun k =>
      redStepF tf fo rnd sat (env.key.draw k)) ∧
    R (.scanInteger ti a ro sat) (Scans (IntTy.wide ti) env.mask xi fun _ => redStepI ti ro sat) ∧
    R (.scanFloat tf a fo rnd sat) (Scans (FltTy.wide tf) env.mask xf fun k => redStepF tf fo rnd sat (env.key.draw k))) ∧
  (∀ (t : IntTy) (sat : Bool) (a b : Nat),
    let A := intVal t a
    let B := intVal t b
    let n := IntTy.bits t
    let is := fun (o : RedOp) (v : Int) => redStepI t o sat a b = { val := intRaw t v, fl := fNone }
    (∃ v, Narrowed t sat (A + B) v ∧ (redStepI t .add sat a b).val = intRaw t v ∧
      (redStepI t .add sat a b).fl = flagIf (sat && decide (A + B < lo t ∨ hi t < A + B)) fSat) ∧
    is .min (min A B) ∧ is .max (max A B) ∧
    (∀ o f, (o, f) ∈ [(RedOp.and, (· &&& · : Nat → Nat → Nat)), (.or, (· ||| ·)), (.xor, (· ^^^ ·))] →
      redStepI t o sat a b = { val := extendRaw t (f (a % 2 ^ n) (b % 2 ^ n)), fl := fNone })) ∧
  (∀ (t : FltTy) (r : Rnd) (sat : Bool) (u a b : Nat), redStepF t .add r sat u a b = fAdd t r sat u a b ∧
    redStepF t .min r sat u a b = fMinMax false t a b ∧ redStepF t .max r sat u a b = fMinMax true t a b)

/-- R145: bcast gives every active lane, or pair, the source element that B names in the lowest active one, and shuf the one
that B names in the lane itself, the index taken modulo the number of elements; a source element that is
inactive in the firing reads 0. -/
def Sys2Proof.Claims.BroadcastAndShuffle : Prop :=
  ∀ (t : WTy) (a b : Sel) (c : Nat) (g : Firing) (m : NodeImg) (env : OpEnv) (s : State),
    let it := WTy.int t
    let n := if IntTy.wide it then 8 else 16
    (Computes (.shuf t a b) c g m env s → ∃ r, exec (.shuf t a b) s = results c g m r s ∧ r.fl = fNone ∧
      ∀ k, actives it env.mask k →
        (actives it env.act (selInt env it b k % n) →
          elemAt it r.lanes k = selInt env it a (selInt env it b k % n) % 2 ^ IntTy.bits it) ∧
        (¬ actives it env.act (selInt env it b k % n) → elemAt it r.lanes k = 0)) ∧
    (Computes (.bcast t a b) c g m env s → ∃ r, exec (.bcast t a b) s = results c g m r s ∧ r.fl = fNone ∧
      ∀ k0 k, actives it env.mask k0 → (∀ j, j < k0 → ¬ actives it env.mask j) → actives it env.mask k →
        (actives it env.act (selInt env it b k0 % n) →
          elemAt it r.lanes k = selInt env it a (selInt env it b k0 % n) % 2 ^ IntTy.bits it) ∧
        (¬ actives it env.act (selInt env it b k0 % n) → elemAt it r.lanes k = 0))

/-- R16, R53, R126, R128: the end of a stage at which no breakpoint fires. Before the last one the firing keeps the result as x,
with its mask and forwarded scales, for its next stage; after it the result's outputs leave.  Its flags are merged, or wait
with a firing's until its later block operations can no longer raise OP.SCALE. -/
def Sys2Proof.Claims.StageEndHandsResultOn : Prop :=
  ∀ (c : Nat) (g : Firing) (m : NodeImg) (r : OpRes) (s : State), s.ctxWf = true →
    (s.ctx c).nodeBreak m g.tag g.stage = none → (∃ h ∈ (s.fab c).firings, h.id = g.id) →
    let t := stageDone c g m r s
    let waits := ∃ j i, g.stage < j ∧ m.ops[j]? = some i ∧ Instr.blockSels i ≠ []
    (g.stage + 1 < m.ops.length → t.fab c = { s.fab c with firings := (t.fab c).firings } ∧
      ∀ h ∈ (t.fab c).firings, h.id = g.id → h.stage = g.stage + 1 ∧ h.x = r.lanes ∧ h.mask = r.mask ∧ h.fwd = r.fwd ∧
        h.phase = g.phase ∧ h.wins = [] ∧ h.act = g.act ∧ (waits → h.fl = g.fl ||| r.fl) ∧ (¬ waits → h.fl = 0)) ∧
    (m.ops.length ≤ g.stage + 1 → ∃ u, u.fab c = s.fab c ∧
      t = emitNow c { g with x := r.lanes, mask := r.mask, fwd := r.fwd, fl := 0, wins := [] } m
        (resultOuts m { g with x := r.lanes, mask := r.mask, fwd := r.fwd, fl := 0, wins := [] }) u) ∧
    (¬ waits → (s.fab c).period = none → (t.ctx c).flags = (s.ctx c).flags ||| g.fl ||| r.fl) ∧
    (¬ waits → (s.fab c).period ≠ none → (t.ctx c).unmerged = (s.ctx c).unmerged ||| g.fl ||| r.fl ∧
      (t.ctx c).flags = (s.ctx c).flags) ∧
    (waits → (t.ctx c).flags = (s.ctx c).flags ∧ (t.ctx c).unmerged = (s.ctx c).unmerged) ∧
    t.sp = s.sp ∧ t.hbm = s.hbm

/-- R16, R321, R325: the outputs of a firing in its E stage. A copy enters the queue of its branch where that has
room, one to an element that a drain has frozen always; round markers stand in these queues like other tokens. The
copies that found no room stay with the firing, each to its branch, and no copy is lost or sent twice. With all sent
the firing is complete, but for a ret, which then waits to free its tag; behind an earlier firing of the node that
still has copies to send, it sends none. The model's choices in it: log 106. -/
def Sys2Proof.Claims.OutputsWaitForRoom : Prop :=
  ∀ (c : Nat) (g : Firing) (m : NodeImg) (outs : List Emission) (s : State), s.ctxWf = true →
    (∃ h ∈ (s.fab c).firings, h.id = g.id) →
    let f := s.fab c
    let t := emitNow c g m outs s
    let toks := s.toks (s.ctx c) g.ref m
    let ts := outs.flatMap toks
    let stays := fun (l : List Tok) => ∃ h ∈ (t.fab c).firings, h.id = g.id ∧ h.tag = g.tag ∧
      ∃ es, h.phase = .emit es ∧ es.flatMap toks = l
    let queue := fun (k : Tok) => (t.fab c).chan.filter fun q =>
      decide (q.src = k.src ∧ q.dest = k.dest ∧ q.port = k.port)
    (f.routeBusy g = true → (t.fab c).chan = f.chan ∧ stays ts) ∧
    (f.routeBusy g = false → ∃ sent kept, (t.fab c).chan = f.chan ++ sent ∧ sent.Sublist ts ∧ kept.Sublist ts ∧
      (sent ++ kept).Perm ts ∧ (∀ k ∈ kept, s.frozen (s.ctx c) k.dest = false ∧ queueDepth ≤ (queue k).length) ∧
      (kept ≠ [] → stays kept) ∧
      (kept = [] → (∀ a, m.last ≠ some (.ret a)) → ∀ h ∈ (t.fab c).firings, h.id ≠ g.id) ∧
      (∀ a, kept = [] → m.last = some (.ret a) → ∀ h ∈ (t.fab c).firings, h.id = g.id → h.phase = .waitFree)) ∧
    (t.fab c).waiting = f.waiting ∧ (t.fab c).accesses = f.accesses ∧ t.sp = s.sp ∧ t.hbm = s.hbm ∧
    (t.ctx c).flags = (s.ctx c).flags

/-- R153, R162, R22: alloc and call ask for a slot of the space that the link word names. alloc outside a plain inner space
whose parent is the firing's, and call outside a call or deep space, raise TAG.KIND; a free slot is granted at once and the
tag leaves under R152, and otherwise the firing waits, keeping A's lanes. -/
def Sys2Proof.Claims.AllocAndCallTakeTags : Prop :=
  ∀ (a : Sel) (c : Nat) (g : Firing) (m : NodeImg) (env : OpEnv) (s : State),
    let x := s.ctx c
    let sp := m.link / 2 ^ 24
    let l := operandLanes env a
    let kind := .next (nodeTrap c 0x0105 0 (nodeTagReport m.emit.node g.tag) s)
    (Computes (.alloc a) c g m env s →
      ((x.isInner sp = false ∨ (x.space sp).parent ≠ some (tagSpace g.tag)) → exec (.alloc a) s = kind) ∧
      (x.isInner sp = true → (x.space sp).parent = some (tagSpace g.tag) →
        let q : AllocReq := { firing := g.id, space := sp, ring := tagIndex g.tag, parent := g.tag, opened := true }
        (∀ t y, x.fab.allocs = [] → grantReq s x g m q = some (t, y) →
          exec (.alloc a) s = .next (finish c g m (tagOut m g l t) (s.setCtx c y))) ∧
        (grantReq s x g m q = none → exec (.alloc a) s =
          .next ((holdFiring c g .waitAlloc l s).modFab c fun f => { f with allocs := f.allocs ++ [q] })))) ∧
    (Computes (.call a) c g m env s →
      ((x.space sp).kind = .plain ∨ (x.space sp).kind = .unused → exec (.call a) s = kind) ∧
      (∀ t y, (x.space sp).kind = .deep →
        x.grantDeep sp (x.keyOf g.tag) (some (g.tag, (s.callDest x m g).1, (s.callDest x m g).2)) = some (t, y) →
        exec (.call a) s = .next (finish c g m (tagOut m g l t) (s.setCtx c y))) ∧
      (∀ t y, (x.space sp).kind = .call → x.fab.allocs = [] →
        grantReq s x g m { firing := g.id, space := sp, ring := 0, parent := 0, opened := false } = some (t, y) →
        exec (.call a) s = .next (finish c g m (tagOut m g l t) (s.setCtx c y))))

/-- R23, R152, R154: free of a plain tag waits for the tag's other tokens, keeping A's lanes, and of a call or deep tag raises
TAG.KIND; once freed, a root tag emits nothing and any other A with the restored parent tag. -/
def Sys2Proof.Claims.FreeReleasesPlainTags : Prop :=
  ∀ (a : Sel) (c : Nat) (g : Firing) (m : NodeImg),
    (∀ (env : OpEnv) (s : State), Computes (.free a) c g m env s →
      (((s.ctx c).space (tagSpace g.tag)).kind = .plain →
        exec (.free a) s = .next (holdFiring c g .waitFree (operandLanes env a) s)) ∧
      (((s.ctx c).space (tagSpace g.tag)).kind ≠ .plain →
        exec (.free a) s = .next (nodeTrap c 0x0105 0 (nodeTagReport m.emit.node g.tag) s))) ∧
    (∀ (p : Tag) (s : State), Waits c g m (.freed p) s →
      ((s.ctx c).isRoot (tagSpace g.tag) = true → exec (.free a) s = .next (finish c g m [] s)) ∧
      ((s.ctx c).isRoot (tagSpace g.tag) = false →
        exec (.free a) s = .next (finish c g m [dataOut p g.mask g.x] s))) ∧
    (∀ s : State, Waits c g m .waitFree s → exec (.free a) s = .next s)

/-- R155 to R157: retag emits A with a live tag that B names, ctag with the parent of the firing's inner tag, and tagrd writes
the firing's tag into every lane that is active under A's mask; the refused tags raise TAG.KIND or TAG.STALE. -/
def Sys2Proof.Claims.RetagCtagTagrd : Prop :=
  ∀ (a b : Sel) (c : Nat) (g : Firing) (m : NodeImg) (env : OpEnv) (s : State),
    let x := s.ctx c
    let trap := fun code => .next (nodeTrap c code 0 (nodeTagReport m.emit.node g.tag) s)
    (Computes (.retag a b) c g m env s →
      (g.mask = 0 → env.mask = 0 → exec (.retag a b) s = trap 0x0105) ∧
      (∀ l, l < 16 → env.mask.getLsbD l = true → (∀ k, k < l → env.mask.getLsbD k = false) →
        let u : Tag := BitVec.ofNat 32 (selRaw env false .zext b l)
        (x.tagAdmitted u = false → exec (.retag a b) s = trap 0x0105) ∧
        (x.tagAdmitted u = true → x.tagLive u = false → exec (.retag a b) s = trap 0x0102) ∧
        (x.tagAdmitted u = true → x.tagLive u = true →
          exec (.retag a b) s = .next (finish c g m (retagOut m g (operandLanes env a) u) s)))) ∧
    (Computes (.ctag a) c g m env s →
      (x.isInner (tagSpace g.tag) = false → exec (.ctag a) s = trap 0x0105) ∧
      (x.isInner (tagSpace g.tag) = true →
        exec (.ctag a) s = .next (finish c g m (retagOut m g (operandLanes env a) (x.tagSlot g.tag).parent) s))) ∧
    (∀ p : Fin 3, ∀ k : Tok, a = .port p → g.ports.getD p.val none = some k → Computes (.tagrd a) c g m env s →
      ∃ v, exec (.tagrd a) s = .next (finish c g m [dataOut g.tag g.mask v] s) ∧
        ∀ l, l < 16 → laneAt v l = if k.mask.getLsbD l = true then g.tag else 0)

/-- R150, R158, R160, R161: steer sends the whole of B to output 0 where A is not 0 in the lowest active lane, and to
output 1 where it is or no lane is active; merge and dup re-emit their token unchanged. The model's choices in it: log
108. -/
def Sys2Proof.Claims.SteerMergeDup : Prop :=
  ∀ (a b : Sel) (c : Nat) (g : Firing) (m : NodeImg) (env : OpEnv) (s : State),
    (Computes (.steer a b) c g m env s →
      ∃ one : Bool, exec (.steer a b) s = .next (finish c g m [{ moved g b (operandLanes env b) with out := .route one }] s) ∧
        (env.mask = 0 → one = true) ∧
        ∀ l, l < 16 → env.mask.getLsbD l = true → (∀ k, k < l → env.mask.getLsbD k = false) →
          one = decide (selRaw env false .zext a l = 0)) ∧
    (∀ k : Tok, Fires c g m s → g.ports = [some k] → exec .merge s = .next (finish c g m
      [{ out := .route false, tag := k.tag, kind := k.kind, mask := k.mask, lanes := k.payload, pred := k.pred }] s)) ∧
    (∀ k : Tok, Computes (.dup a) c g m env s → g.ports.getD 0 none = some k → exec (.dup a) s = .next (finish c g m
      [{ out := .route false, tag := k.tag, kind := k.kind, mask := k.mask, lanes := k.payload, pred := k.pred }] s))

/-- R159: a gate on a control that is not 0 takes the next iteration's tag in its ring and emits p1 with it, at once where the
slot is free; on a control of 0 it frees the firing's tag first; once freed it emits p1 with the parent tag to the exit. A tag
that is not plain inner raises TAG.KIND, and a firing that consumes p2 releases the round markers held. -/
def Sys2Proof.Claims.GateContinuesOrExits : Prop :=
  ∀ (c : Nat) (g : Firing) (m : NodeImg),
    (∀ (env : OpEnv) (s : State), Computes .gate c g m env s →
      let x := s.ctx c
      let p := (x.tagSlot g.tag).parent
      let ctl := (lowestValue env (.port 0)).getD 0
      let r := releaseMarkers c g m s
      let q : AllocReq := { firing := g.id, space := tagSpace g.tag, ring := tagIndex p, parent := p, opened := false }
      (x.isInner (tagSpace g.tag) = false →
        exec .gate s = .next (nodeTrap c 0x0105 0 (nodeTagReport m.emit.node g.tag) s)) ∧
      (x.isInner (tagSpace g.tag) = true → ctl = 0 → exec .gate s = .next (setFiring c { g with phase := .waitFree } r)) ∧
      (∀ u y, x.isInner (tagSpace g.tag) = true → ctl ≠ 0 → (r.ctx c).fab.allocs = [] →
        grantReq r (r.ctx c) g m q = some (u, y) → exec .gate s = .next (finish c g m
          [{ moved g (.port 1) (operandLanes env (.port 1)) with tag := u }] (r.setCtx c y)))) ∧
    (∀ (u : Tag) (s : State), Waits c g m (.granted u) s → ∃ e : Emission, exec .gate s = .next (finish c g m [e] s) ∧
      e.tag = u ∧ e.mask = g.mask ∧ e.out = .route false) ∧
    (∀ (p : Tag) (d : NodeRef × Nat) (s : State), Waits c g m (.freed p) s → s.linkAt (s.ctx c) m g = some d →
      ∃ e : Emission, exec .gate s = .next (finish c g m [e] s) ∧ e.tag = p ∧ e.mask = g.mask ∧ e.out = .to d.1 d.2)

/-- R19, R78, R287: a destination lies on the plane of its virtual tile: the one plane of the emitter's fabric load
that holds a node in the named slot, whatever plane the emitter is on. Where several hold one, it is one of them,
which no word tells: a free value. The model's choices in it: log 107. -/
def Sys2Proof.Claims.DestinationsLieOnTheirPlane : Prop :=
  ∀ (s : State) (x : Ctx) (r d : NodeRef) (i p : Nat),
    let holds := fun (q : Fin 4) => s.nodeWords x { d with plane := q } ≠ [] ∧
      s.loadOf x { d with plane := q } = s.loadOf x r
    let t := s.settle x r i (d, p)
    t.2 = p ∧ t.1 = { d with plane := t.1.plane } ∧ ((∃ q, holds q) → ∃ q : Fin 4, t.1.plane = q ∧ holds q) ∧
    (∀ q : Fin 4, holds q → (∀ o, holds o → o = q) → t.1.plane = q) ∧ ((∀ q, ¬ holds q) → t.1 = d)

/-- R163: ret sends A with the recorded caller tag to the recorded destination, and then waits to free its tag; a plain tag
raises TAG.KIND, and once the tag is freed the firing is complete. -/
def Sys2Proof.Claims.RetReturnsToCaller : Prop :=
  ∀ (a : Sel) (c : Nat) (g : Firing) (m : NodeImg),
    (∀ (env : OpEnv) (s : State), Computes (.ret a) c g m env s →
      let x := s.ctx c
      let k := (x.space (tagSpace g.tag)).kind
      (k = .plain ∨ k = .unused → exec (.ret a) s = .next (nodeTrap c 0x0105 0 (nodeTagReport m.emit.node g.tag) s)) ∧
      (∀ t d p, k = .call ∨ k = .deep → (x.tagSlot g.tag).ret = some (t, d, p) →
        ∃ e : Emission, exec (.ret a) s = .next (finish c g m [e] s) ∧ e.out = .to d p ∧ e.tag = t ∧ e.kind = .data ∧
          e.mask = g.mask ∧ e.lanes = operandLanes env a ∧ e.pred = []) ∧
      (k = .call ∨ k = .deep → (x.tagSlot g.tag).ret = none →
        exec (.ret a) s = .next (nodeTrap c 0x0102 0 (nodeTagReport m.emit.node g.tag) s))) ∧
    (∀ (p : Tag) (s : State), Waits c g m (.freed p) s → exec (.ret a) s = .next (dropFiring c g.id s))

/-- R164: an rdc firing whose ordinal is the next of its ring applies its elements to the accumulators, one that is absent
taking the element and one that is present the step of the two, in which the draw has the lane's key; the next ordinal is one
higher, and the accumulators that are present leave as the result.  One whose ordinal is not yet the next waits; a tag of another
kind raises TAG.KIND. -/
def Sys2Proof.Claims.RdcAppliesNextOrdinal : Prop :=
  ∀ (i : Instr) (wide : Bool) (val : OpEnv → Nat → Nat) (step : OpEnv → Nat → Nat → Nat → Res Nat),
    ((∃ t a o sat, i = .rdcInteger t a o sat ∧ wide = IntTy.wide t ∧
        val = (fun env k => extendRaw t (selInt env t a k)) ∧ step = fun _ _ => redStepI t o sat) ∨
      (∃ t a o rnd sat, i = .rdcFloat t a o rnd sat ∧ wide = FltTy.wide t ∧
        val = (fun env k => selFlt env t a k) ∧ step = fun env k => redStepF t o rnd sat (env.key.draw k))) →
    ∀ (c : Nat) (g : Firing) (m : NodeImg) (env : OpEnv) (s : State), Computes i c g m env s → s.ctxWf = true →
      let x := s.ctx c
      let slot := x.tagSlot g.tag
      let key := rdcKey g.ref (tagSpace g.tag) slot.key.ring
      let plain := (x.space (tagSpace g.tag)).kind = .plain
      let act := mappedOn env.mask wide wide
      let r := rdcFind s x g
      let old := fun k => smGet 0 r.acc k
      let here := fun k => r.present.getLsbD (laneKey wide k)
      let made := fun k => step env (laneKey wide k) (old k) (val env k)
      let held := smGet RdcState.none x.fab.rdc key
      (¬ plain → exec i s = .next (nodeTrap c 0x0105 0 (nodeTagReport m.emit.node g.tag) s)) ∧
      (plain → r.next ≠ some slot.key.ordinal → ∃ t, exec i s = .next t ∧ (t.fab c).rdc = x.fab.rdc ∧
        (t.fab c).chan = x.fab.chan ∧ ∀ h ∈ (t.fab c).firings, h.id = g.id → h.phase = .waitFence []) ∧
      (plain → r.next = some slot.key.ordinal → smWf 0 r.acc = true → ∃ y res,
        exec i s = results c g m res (s.modFab c fun f => { f with rdc := smSet RdcState.none f.rdc key y }) ∧
        y.next = some ((slot.key.ordinal + 1) % 2 ^ 64) ∧
        (∀ k, act k → smGet 0 y.acc k = if here k = true then (made k).val else val env k) ∧
        (∀ k, ¬ act k → smGet 0 y.acc k = old k) ∧
        (∀ l, l < 16 → (y.present.getLsbD l = true ↔ r.present.getLsbD l = true ∨ act (if wide then l / 2 else l))) ∧
        MappedResult y.present wide wide (fun k => { val := smGet 0 y.acc k % (if wide then 2 ^ 64 else 2 ^ 32), fl := fNone })
          { res with fl := fNone } ∧
        ∀ j, res.fl.getLsbD j = true ↔ ∃ k, act k ∧ here k = true ∧ (made k).fl.getLsbD j = true) ∧
      (x.isRoot (tagSpace g.tag) = true → held.next ≠ none → r = held) ∧
      (x.isRoot (tagSpace g.tag) = true → held.next = none → r.acc = [] ∧ r.present = 0 ∧
        r.next = some (s.rootStart x (tagSpace g.tag))) ∧
      (x.isRoot (tagSpace g.tag) = false → slot.opened = true → r = { next := some slot.key.ordinal, acc := [], present := 0 }) ∧
      (x.isRoot (tagSpace g.tag) = false → slot.opened = false → r = held)

/-- R22, R105, R164: the first ordinal that a root space's rdc nodes expect in a period is the one that its first point took: the
points issued since are the distance to the ordinal that its ring gives next. -/
def Sys2Proof.Claims.RootRingStartsAtThePeriod : Prop :=
  ∀ (s : State) (x : Ctx) (sp : Nat) (r : NodeRef) (m : NodeImg), (s.sources x).head? = some r → s.nodeImg x r = some m →
    m.head.space = sp → x.ringNext sp 0 < 2 ^ 64 → smGet 0 x.fab.cursors r.key < 2 ^ 64 →
    (s.rootStart x sp + smGet 0 x.fab.cursors r.key) % 2 ^ 64 = x.ringNext sp 0

namespace Sys2Proof.Claims

open Sys2Proof Sys2Proof.Machine

/-- R165: the address of active element `k` of a run whose base the lowest active element reads. -/
def runAt (t : IntTy) (mask : BitVec 16) (base : Nat → Nat) (k : Nat) : Nat :=
  let k0 := (elemIdx (IntTy.wide t) mask).headD 0
  base k0 + IntTy.bytes t * (k - k0)

/-- R165: the address of active element `k` of a gather: the base of the lowest active element and its own index. -/
def gatherAt (env : OpEnv) (t : IntTy) (a b : Sel) (k : Nat) : Nat :=
  addr64 env t b ((elemIdx (IntTy.wide t) env.mask).headD 0) + IntTy.bytes t * addrAt env t a k

/-- The operations on scratchpad elements with the rule that tells whether their elements are one run, and the address of
each element (R165). -/
def spForms (env : OpEnv) (t : IntTy) (a b : Sel) (o : Bool) : List (Instr × Bool × (Nat → Nat)) :=
  [(.lds t a o, true, runAt t env.mask (addrAt env t a)), (.sts t a b o, true, runAt t env.mask (addrAt env t a)),
    (.scatter t a b o, false, addrAt env t a)]

/-- The atomics with what each does to its element (R170). -/
def atomForms (w : WTy) (a b d : Sel) : List (Instr × AtomOp × Sel) :=
  [(.atomIadd w a b, .iadd, .zero), (.atomImin w a b, .imin, .zero), (.atomImax w a b, .imax, .zero),
    (.atomAnd w a b, .and, .zero), (.atomOr w a b, .or, .zero), (.atomXor w a b, .xor, .zero),
    (.atomXchg w a b, .xchg, .zero), (.atomCas w a b d, .cas, d)]

/-- The operations on global elements, with whether they write, and the address of each element (R165). -/
def globForms (env : OpEnv) (t : IntTy) (a b : Sel) (gn : Fin 32) (o : Bool) : List (Instr × Bool × (Nat → Nat)) :=
  [(.ldg t a o, false, runAt t env.mask (addr64 env t a)), (.ldacq t a gn o, false, runAt t env.mask (addr64 env t a)),
    (.gather t a b o, false, gatherAt env t a b), (.stg t a b o, true, runAt t env.mask (addr64 env t a)),
    (.strel t a b gn o, true, runAt t env.mask (addr64 env t a))]

/-- No check of R166 refuses these scratchpad elements: aligned, below 2^30, of one SP unit where they are a run, and outside
every carve-out. -/
def SpLegal (s : State) (x : Ctx) (t : IntTy) (mask : BitVec 16) (run : Bool) (addr : Nat → Nat) : Prop :=
  ∀ k, actives t mask k → addr k % IntTy.bytes t = 0 ∧ addr k < 2 ^ 30 ∧
    x.spAddr (addr k) % 2 ^ 24 + IntTy.bytes t + s.carveOf (x.spAddr (addr k) / 2 ^ 24) ≤ 2 ^ 24 ∧
    (run = true → ∀ j, actives t mask j → addr j / 2 ^ 18 = addr k / 2 ^ 18)

/-- No check of R166 refuses these global elements. -/
def GlobLegal (s : State) (x : Ctx) (t : IntTy) (mask : BitVec 16) (wr : Bool) (addr : Nat → Nat) : Prop :=
  ∀ k, actives t mask k → addr k % IntTy.bytes t = 0 ∧ ∃ ia, globCheck s x (!wr) wr (addr k) = .ok ia

/-- Firing `g` issues one access `op k` at `addr k` for each active element `k`, behind everything that its PE's holds name,
and waits in phase `p`; no byte of memory, token or register changes.  `P` is said of the state after and the accesses. -/
def Issued (c : Nat) (g : Firing) (t : IntTy) (mask : BitVec 16) (glob : Bool) (addr : Nat → Nat) (op : Nat → AccOp)
    (p : Phase) (s : State) (o : Out) (P : State → List Access → Prop) : Prop :=
  ∃ u ks, o = .next u ∧ (u.fab c).accesses = (s.fab c).accesses ++ ks ∧ u.sp = s.sp ∧ u.hbm = s.hbm ∧
    u.hostMem = s.hostMem ∧ (u.fab c).chan = (s.fab c).chan ∧ u.seq c = s.seq c ∧
    (∀ h ∈ (u.fab c).firings, h.id = g.id → h.phase = p) ∧
    (∀ k ∈ ks, actives t mask k.lane ∧ k.addr = addr k.lane ∧ k.op = op k.lane ∧ k.glob = glob ∧
      k.size = IntTy.bytes t ∧ k.agent = g.agent ∧ k.firing = g.id ∧ k.accepted = false ∧
      ∀ h ∈ (s.fab c).holds, h.agent = g.agent → h.storesOnly = false → s.depsDone c h.deps = false →
        ∀ d ∈ h.deps, d ∈ k.deps) ∧
    (∀ e, actives t mask e → ∃ k ∈ ks, k.lane = e) ∧ P u ks

/-- Nothing more is said. -/
def anyway : State → List Access → Prop := fun _ _ => True

/-- R17, R150, R165, R168, R260: the ordering token of a store, of no lanes, names the firing's accesses that are still pending
or posted; its mask is the firing's, after a 64-bit operation with each pair's bit in both lanes. -/
def OrderingToken (c : Nat) (g : Firing) (m : NodeImg) (s : State) (e : Emission) : Prop :=
  let wide := ∃ i t, m.last = some i ∧ Instr.intTy i = some t ∧ IntTy.wide t = true
  e.kind = .order ∧ e.tag = g.tag ∧ (wide → e.mask = pairMask g.mask) ∧ (¬ wide → e.mask = g.mask) ∧ e.lanes = [] ∧
    e.out = .route false ∧
    ∀ i, i ∈ e.pred ↔ (∃ a ∈ (s.fab c).accesses, a.id = i ∧ a.agent = g.agent ∧ a.firing = g.id) ∨
      ∃ p ∈ s.posted, p.ctx = c ∧ p.firing = some g.id ∧ p.acc = i

/-- The lanes that R176 gives arrive, wait, fence, yield and brk: x after another stage, zeros as the only one. -/
def passed (g : Firing) : List Lane := if g.stage = 0 then [] else g.x

/-- A firing ends with one data token on its node's route (R150, R176). -/
def ends (c : Nat) (g : Firing) (m : NodeImg) (lanes : List Lane) (s : State) : Out :=
  .next (finish c g m [dataOut g.tag g.mask lanes] s)

end Sys2Proof.Claims

/-- R165, R169, R170: a load, gather, acquire load or atomic whose elements pass the checks of R166 issues one access
for each active element, at the address its operands give, and waits for their values; after an acquire load the PE's
later accesses wait for them. The model's choices in it: log 109. -/
def Sys2Proof.Claims.NodeLoadsAndAtomicsIssueAccesses : Prop :=
  ∀ (t : IntTy) (w : WTy) (a b d : Sel) (gn : Fin 32) (o : Bool) (c : Nat) (g : Firing) (m : NodeImg) (env : OpEnv)
      (s : State), s.ctxWf = true →
    let x := s.ctx c
    let k := env.mask
    let T := WTy.int w
    let runSp := runAt t k (addrAt env t a)
    let run := runAt t k (addr64 env t a)
    (Computes (.lds t a o) c g m env s → SpLegal s x t k true runSp →
      Issued c g t k false runSp (fun _ => .load) .waitMem s (exec (.lds t a o) s) anyway) ∧
    (Computes (.ldg t a o) c g m env s → GlobLegal s x t k false run →
      Issued c g t k true run (fun _ => .load) .waitMem s (exec (.ldg t a o) s) anyway) ∧
    (Computes (.gather t a b o) c g m env s → GlobLegal s x t k false (gatherAt env t a b) →
      Issued c g t k true (gatherAt env t a b) (fun _ => .load) .waitMem s (exec (.gather t a b o) s) anyway) ∧
    (Computes (.ldacq t a gn o) c g m env s → GlobLegal s x t k false run →
      Issued c g t k true run (fun _ => .load) .waitMem s (exec (.ldacq t a gn o) s) fun u ks =>
        ks = [] ∨ ∃ h ∈ (u.fab c).holds, h.agent = g.agent ∧ h.storesOnly = false ∧
          ∀ y ∈ ks, ({ id := y.id, level := .performed } : Dep) ∈ h.deps) ∧
    (∀ f ∈ atomForms w a b d, Computes f.1 c g m env s → SpLegal s x T k false (addrAt env T a) →
      Issued c g T k false (addrAt env T a)
        (fun j => .atomic f.2.1 (IntTy.signed T) (selInt env T b j) (selInt env T f.2.2 j)) .waitMem s (exec f.1 s) anyway)

/-- R165, R169: a store whose elements pass the checks of R166 issues one access for each active element, with the element of
B, and waits for their acceptance; a release store puts every pending access and tag-table operation of its PE before them; a
store with no active element sends its ordering token at once. -/
def Sys2Proof.Claims.NodeStoresIssueAccesses : Prop :=
  ∀ (t : IntTy) (a b : Sel) (gn : Fin 32) (o : Bool) (c : Nat) (g : Firing) (m : NodeImg) (env : OpEnv) (s : State),
    s.ctxWf = true →
    let x := s.ctx c
    let k := env.mask
    let v := fun j => AccOp.store (selInt env t b j % 2 ^ (8 * IntTy.bytes t))
    let runSp := runAt t k (addrAt env t a)
    let run := runAt t k (addr64 env t a)
    let any := ∃ e, actives t k e
    (Computes (.sts t a b o) c g m env s → any → SpLegal s x t k true runSp →
      Issued c g t k false runSp v .waitAccept s (exec (.sts t a b o) s) anyway) ∧
    (Computes (.scatter t a b o) c g m env s → any → SpLegal s x t k false (addrAt env t a) →
      Issued c g t k false (addrAt env t a) v .waitAccept s (exec (.scatter t a b o) s) anyway) ∧
    (Computes (.stg t a b o) c g m env s → any → GlobLegal s x t k true run →
      Issued c g t k true run v .waitAccept s (exec (.stg t a b o) s) anyway) ∧
    (Computes (.strel t a b gn o) c g m env s → any → GlobLegal s x t k true run →
      Issued c g t k true run v .waitAccept s (exec (.strel t a b gn o) s) fun _ ks =>
        ∀ y ∈ ks, (∀ p ∈ (s.fab c).accesses, p.agent = g.agent → ({ id := p.id, level := x.scopeLevel gn.val } : Dep) ∈ y.deps) ∧
          ∀ h ∈ s.tagWaits c g.agent, ({ id := h.id, level := x.scopeLevel gn.val } : Dep) ∈ y.deps) ∧
    (¬ any → ∀ i ∈ [Instr.sts t a b o, .scatter t a b o, .stg t a b o, .strel t a b gn o], Computes i c g m env s →
      ∃ e, exec i s = .next (finish c g m [e] s) ∧ OrderingToken c g m s e)

/-- R73, R165, R166, R244: an operation of a firing reads its window operand one element a turn, ascending, at window
k7<2:0> and element k7<31:8> more than its own, behind what an acquire or a fence holds it for. A window that is not
bound traps; an element beyond the bound reads 0 and, of an active lane, sets win.oob. An operation of lanes reads its
active ones. The model's choices in it: log 34, 109. -/
def Sys2Proof.Claims.WindowOperandsAreReadByElement : Prop :=
  (∀ (i : Instr) (c : Nat) (g : Firing) (m : NodeImg) (s : State), Fires c g m s → winMore i g = true →
    let x := s.ctx c
    let k7 := (m.consts.getD 7 0).toNat
    let t := Instr.winTy i
    let n := IntTy.bytes t
    let own := (Instr.winIdx i g.mask).getD g.wins.length 0
    let e := k7 / 2 ^ 8 % 2 ^ 24 + own
    let free := s.depsDone c ((s.fab c).holdDeps g.agent false)
    (free = false → exec i s = .next s) ∧
    (∀ b, free = true → x.window (k7 % 8) = .error b →
      exec i s = .next (nodeTrap c b.code 0 (BitVec.ofNat 64 b.report) (s.raiseFlags c g.fl))) ∧
    (∀ base size, free = true → x.window (k7 % 8) = .ok (base, size) →
      let r := readWin c (.access c g.id) (x.dieAt g.ref.cl) base size (e * n) n s
      let oob := actives t g.mask own ∧ size < (e + 1) * n
      (size ≤ e * n → r = .ok 0 s) ∧ (∀ u, r = .stall u → exec i s = .next u) ∧
      (∀ b u, r = .bad b u →
        exec i s = .next (nodeTrap c b.code 0 (BitVec.ofNat 64 b.report) (u.raiseFlags c g.fl))) ∧
      ∀ v u fl, r = .ok v u → (oob → fl = g.fl ||| fOob) → (¬ oob → fl = g.fl) → exec i s = .next (
        if m.scaleLater g.stage = true then setFiring c { g with wins := g.wins ++ [v], fl := fl } u
        else setFiring c { g with wins := g.wins ++ [v], fl := 0 } (u.raiseFlags c fl)))) ∧
  (∀ (t : IntTy) (b : Sel) (sat : Bool) (c : Nat) (g : Firing) (m : NodeImg) (s : State),
    let i := Instr.addInteger t .win b sat
    let idx : List Nat := Instr.winIdx i g.mask
    (∀ k, k ∈ idx ↔ actives t g.mask k) ∧ idx.Pairwise (· < ·) ∧ (winMore i g = true ↔ g.wins.length < idx.length) ∧
    ∀ (j k v : Nat), idx[j]? = some k → g.wins[j]? = some v → v < 2 ^ IntTy.bits t →
      valAt (mkEnv s c g m (winLanes i g)) t .win k = intVal t v)

/-- R166: the first check that refuses an element traps, with the address in the report, and nothing is issued:
MEM.ALIGN before MEM.RANGE before MEM.PERM on scratchpad, and on global memory MEM.ALIGN before the checks of the
range registers, the bindings and the overflow area; among elements the lowest. The model's choices in it: log 18. -/
def Obligations.NodeAccessChecksTrap : Prop :=
  ∀ (t : IntTy) (w : WTy) (a b d : Sel) (gn : Fin 32) (o : Bool) (c : Nat) (g : Firing) (m : NodeImg) (env : OpEnv)
      (s : State),
    let x := s.ctx c
    let trap := fun (code r : Nat) => (Host.Outcome.next (nodeTrap c code 0 (BitVec.ofNat 64 r) s) : Out)
    let spTraps := fun (i : Instr) (t : IntTy) (run : Bool) (addr : Nat → Nat) => Computes i c g m env s →
      let act := actives t env.mask
      let first := fun (p : Nat → Prop) (e : Nat) => act e ∧ p e ∧ ∀ j, j < e → act j → ¬ p j
      let aligned := ∀ e, act e → addr e % IntTy.bytes t = 0
      let perm := fun e => 2 ^ 24 < x.spAddr (addr e) % 2 ^ 24 + IntTy.bytes t + s.carveOf (x.spAddr (addr e) / 2 ^ 24)
      (∀ e, first (fun k => addr k % IntTy.bytes t ≠ 0) e → exec i s = trap 0x0201 (addr e)) ∧
      (∀ e, aligned → first (fun k => 2 ^ 30 ≤ addr k) e → exec i s = trap 0x0202 (addr e)) ∧
      (∀ e j, aligned → (∀ k, act k → addr k < 2 ^ 30) → run = true → first (fun _ => True) e → act j →
        addr j / 2 ^ 18 ≠ addr e / 2 ^ 18 → exec i s = trap 0x0202 (addr e)) ∧
      (∀ e, aligned → (∀ k, act k → addr k < 2 ^ 30) →
        (run = true → ∀ j k, act j → act k → addr j / 2 ^ 18 = addr k / 2 ^ 18) → first perm e →
        exec i s = trap 0x0203 (addr e))
    (∀ f ∈ spForms env t a b o, spTraps f.1 t f.2.1 f.2.2) ∧
    (∀ f ∈ atomForms w a b d, spTraps f.1 (WTy.int w) false (addrAt env (WTy.int w) a)) ∧
    (∀ f ∈ globForms env t a b gn o, Computes f.1 c g m env s →
      let act := actives t env.mask
      let addr := f.2.2
      (∀ e, act e → addr e % IntTy.bytes t ≠ 0 → (∀ j, j < e → act j → addr j % IntTy.bytes t = 0) →
        exec f.1 s = trap 0x0201 (addr e)) ∧
      (∀ e q, (∀ e, act e → addr e % IntTy.bytes t = 0) → act e → globCheck s x (!f.2.1) f.2.1 (addr e) = .error q →
        (∀ j, j < e → act j → ∃ ia, globCheck s x (!f.2.1) f.2.1 (addr j) = .ok ia) →
        exec f.1 s = trap q.code q.report))

/-- R165, R167, R170: an access enters its memory node's queue, and waits while the queue holds 16, while what it
waits for has not entered, and, of an atomic, while an earlier lane has not; with the last access of a store the
ordering token leaves. Once a load has every value, its result token carries each active element extended by its type.
The model's choices in it: log 41, 84. -/
def Sys2Proof.Claims.AcceptanceAndLoadResults : Prop :=
  (∀ (c : CtxId) (k : Nat) (a : Access) (s : State), s.ctxWf = true → (s.ctx c.val).live = true →
    (s.fab c.val).accesses[k]? = some a → a.accepted = false →
    let x := s.ctx c.val
    let f := s.fab c.val
    let u := ({ s with arrivals := s.arrivals + 1 } : State).modFab c.val fun f => { f with
      accesses := f.accesses.eraseIdx k ++ [{ a with accepted := true, arrived := s.arrivals }] }
    let queue := s.unitQueue (x.unitOf c.val a)
    let mine := fun (b : Access) => b.agent = a.agent ∧ b.firing = a.firing
    let may := queue.length < 16 ∧ (∀ d ∈ a.deps, s.depDone c.val { d with level := .accepted } = true) ∧
      ((∃ o sg b e, a.op = .atomic o sg b e) → ∀ j b, j < k → f.accesses[j]? = some b → mine b → b.accepted = true)
    (∀ q b, (q, b) ∈ queue ↔ ∃ y, (q, y) ∈ s.ctxs ∧ y.performs = true ∧ b ∈ y.fab.accesses ∧ b.accepted = true ∧
      y.unitOf q b = x.unitOf c.val a) ∧
    (¬ may → exec (.memoryAccessAccept c k) s = .next s) ∧
    (may → (∀ g ∈ f.firings, g.id = a.firing → g.phase ≠ .waitAccept) → exec (.memoryAccessAccept c k) s = .next u) ∧
    (∀ g m, may → (f.firings.find? fun g => g.id == a.firing) = some g → g.phase = .waitAccept →
      s.nodeImg (s.ctx c.val) g.ref = some m →
      ((∃ b ∈ (u.fab c.val).accesses, b.agent = g.agent ∧ b.firing = a.firing ∧ b.accepted = false) →
        exec (.memoryAccessAccept c k) s = .next u) ∧
      ((∀ b ∈ (u.fab c.val).accesses, b.agent = g.agent → b.firing = a.firing → b.accepted = true) →
        ∃ e, exec (.memoryAccessAccept c k) s = .next (finish c.val g m [e] u) ∧ OrderingToken c.val g m u e))) ∧
  (∀ (c : CtxId) (g : Firing) (m : NodeImg) (s : State), (s.ctx c.val).live = true →
    ((s.fab c.val).firings.find? fun h => h.id == g.id) = some g → g.phase = .waitMem →
    s.nodeImg (s.ctx c.val) g.ref = some m →
    let t := m.loadTy
    ((∃ a ∈ (s.fab c.val).accesses, a.agent = g.agent ∧ a.firing = g.id) → exec (.loadResult c g.id) s = .next s) ∧
    ((∀ a ∈ (s.fab c.val).accesses, a.agent ≠ g.agent ∨ a.firing ≠ g.id) →
      ∃ v, exec (.loadResult c g.id) s = .next (finish c.val g m
          [dataOut g.tag (if IntTy.wide t then pairMask g.mask else g.mask) v] s) ∧
        ∀ k, actives t g.mask k → elemAt t v k = extendRaw t (smGet 0 g.got k)))

/-- R171: a tag-table operation applies its active lanes one after another, ascending, and emits a word for each: lookup bit
31 and the value where the key is present, else 0; insert writes the key's entry, with bit 30 and the old value, or a free
one, and answers 0 where none is free; evict clears the valid bit. An operation that an acquire or a fence of its PE holds back
waits, with the table as it was (R169, R174). -/
def Sys2Proof.Claims.TagTableOperations : Prop :=
  (∀ (a b : Sel) (c : Nat) (g : Firing) (m : NodeImg) (env : OpEnv) (s : State), s.tagErr = [] → (s.fab c).holds = [] →
    let base := (((s.ctx c).first + g.ref.cl) * 64 + g.ref.pe) * 64
    let key := selRaw env false .zext a
    let done := fun (i : Instr) (f : Nat → SMap (BitVec 63) → Nat × SMap (BitVec 63)) => Computes i c g m env s →
      let r := tagLanes f s.tagtab (activeLanes env.mask)
      exec i s = ends c g m (mkLanes fun l => BitVec.ofNat 32 (smGet 0 r.1 l)) { s with tagtab := r.2 }
    done (.lookup a) (fun l t => tagLookup base (key l) t) ∧
    done (.insert a b) (fun l t => tagInsert base (key l) (selRaw env false .zext b l) t) ∧
    done (.evict a) (fun l t => tagEvict base (key l) t)) ∧
  (∀ (a b : Sel) (c : Nat) (g : Firing) (m : NodeImg) (env : OpEnv) (s : State),
    let ds := (s.fab c).holdDeps g.agent true
    s.depsDone c ds = false → ∀ i ∈ [Instr.lookup a, .insert a b, .evict a], Computes i c g m env s →
      exec i s = .next (setFiring c { g with phase := .waitFence ds } s)) ∧
  (∀ (base key v : Nat) (t : SMap (BitVec 63)), key < 2 ^ 32 →
    let holds := fun e => e < 64 ∧ (smGet 0 t (base + e)).toNat / 2 ^ 30 = 2 ^ 32 + key
    let old := fun e => (smGet 0 t (base + e)).toNat % 2 ^ 30
    let entry : BitVec 63 := BitVec.ofNat 63 (2 ^ 62 + key * 2 ^ 30 + v % 2 ^ 30)
    (∀ e, holds e → (∀ j, j < e → ¬ holds j) → smWf 0 t = true →
      tagLookup base key t = (2 ^ 31 + old e, t) ∧
      (tagInsert base key v t).1 = 2 ^ 31 + 2 ^ 30 + old e ∧
      (∀ k, smGet 0 (tagInsert base key v t).2 k = if k = base + e then entry else smGet 0 t k) ∧
      (tagEvict base key t).1 = 2 ^ 31 + old e ∧
      (∀ k j, j < 63 → (smGet 0 (tagEvict base key t).2 k).getLsbD j =
        if k = base + e ∧ j = 62 then false else (smGet 0 t k).getLsbD j)) ∧
    ((∀ e, ¬ holds e) → tagLookup base key t = (0, t) ∧ tagEvict base key t = (0, t) ∧
      ((∀ e, e < 64 → (smGet 0 t (base + e)).getLsbD 62 = true) → tagInsert base key v t = (0, t)) ∧
      (∀ e, e < 64 → (smGet 0 t (base + e)).getLsbD 62 = false →
        (∀ j, j < e → (smGet 0 t (base + j)).getLsbD 62 = true) → smWf 0 t = true →
        (tagInsert base key v t).1 = 2 ^ 31 ∧
        ∀ k, smGet 0 (tagInsert base key v t).2 k = if k = base + e then entry else smGet 0 t k)))

/-- R172, R210: upd of a handle that is not bound, or whose binding has another width, raises MEM.UBIND reason 8 or 9, and of
an element beyond the region MEM.RANGE; otherwise each active element is a pair on its way to its sorter, with the key of the
firing's tag, and the ordering token leaves when no pair waits any more. -/
def Sys2Proof.Claims.UpdSendsPairs : Prop :=
  ∀ (w : WTy) (a b : Sel) (c : Nat) (g : Firing) (m : NodeImg),
    (∀ (env : OpEnv) (s : State), Computes (.upd w a b) c g m env s → s.ctxWf = true →
      let x := s.ctx c
      let t := WTy.int w
      let h := m.link % 16
      let n := IntTy.bytes t
      let at_ := addrAt env t a
      let ubind := fun r => .next (nodeTrap c 0x0205 r (nodeTagReport m.emit.node g.tag) s)
      (x.binding h = none → exec (.upd w a b) s = ubind 8) ∧
      ∀ d, x.binding h = some d →
        (d.width ≠ n → exec (.upd w a b) s = ubind 9) ∧
        (∀ e, d.width = n → actives t env.mask e → d.size * 2 ^ 16 < (at_ e + 1) * n →
          (∀ j, j < e → actives t env.mask j → (at_ j + 1) * n ≤ d.size * 2 ^ 16) →
          exec (.upd w a b) s = .next (nodeTrap c 0x0202 0 (BitVec.ofNat 64 (d.base + at_ e * n)) s)) ∧
        (d.width = n → (∀ e, actives t env.mask e → (at_ e + 1) * n ≤ d.size * 2 ^ 16) → (∃ e, actives t env.mask e) →
          ∃ u ps, exec (.upd w a b) s = .next u ∧ (u.fab c).pairs = (s.fab c).pairs ++ ps ∧ u.recs = s.recs ∧
            u.sp = s.sp ∧ u.hbm = s.hbm ∧ (u.fab c).accesses = (s.fab c).accesses ∧
            (∀ f ∈ (u.fab c).firings, f.id = g.id → f.phase = .waitPairs) ∧
            (∀ p ∈ ps, ∃ e, actives t env.mask e ∧ p.lane = laneKey (IntTy.wide t) e ∧ p.handle = h ∧
              p.offset = at_ e * n ∧ p.value = selInt env t b e % 256 ^ n ∧ p.size = n ∧ p.key = x.keyOf g.tag ∧
              p.node = m.emit.node ∧ p.firing = g.id ∧ p.agent = g.agent) ∧
            ∀ e, actives t env.mask e → ∃ p ∈ ps, p.lane = laneKey (IntTy.wide t) e)) ∧
    (∀ s : State, Waits c g m .waitPairs s →
      ((∃ p ∈ (s.fab c).pairs, p.firing = g.id ∧ p.agent = g.agent) → exec (.upd w a b) s = .next s) ∧
      ((∀ p ∈ (s.fab c).pairs, p.firing ≠ g.id ∨ p.agent ≠ g.agent) →
        ∃ e, exec (.upd w a b) s = .next (finish c g m [e] s) ∧ OrderingToken c g m s e))

/-- R173 to R176, R379: yield emits at once; an arrive of a participant whose previous phase is complete joins the
next one, with its release still to be recorded, and emits; a wait and a fence emit once the phase is complete or the
accesses have reached the scope, and hold their firing and, of a wait or a full or acquire fence, the PE's later
accesses until then. The model's choices in it: log 36, 123. -/
def Sys2Proof.Claims.NodeBarriersFencesAndYield : Prop :=
  ∀ (n : Fin 128) (gn : Fin 32) (k : FenceKind) (c : Nat) (g : Firing) (m : NodeImg) (s : State), Fires c g m s →
    s.ctxWf = true →
    let f := s.fab c
    let i := barInst n.val g.agent.index
    let level := (s.ctx c).scopeLevel gn.val
    let member := (f.bar i).parts.contains g.agent.index
    let seen := f.seenOf (agentCl g.agent.index) i
    let joined := f.joinedOf g.agent.index i
    let before := s.agentDeps c g.agent ((s.ctx c).scopeLevel (n.val % 32)) fun _ => true
    let msg : ArriveMsg := { inst := i, agent := g.agent.index, deps := before }
    let target := if member = true ∧ joined ≠ 0 then joined else (f.bar i).phase + 1
    let waits := if k = .acq then (∃ a ∈ f.accesses, a.agent = g.agent ∧ ∀ v, a.op ≠ .store v) ∨ s.tagWaits c g.agent ≠ []
      else s.depsDone c (s.agentDeps c g.agent level fun _ => true) = false
    exec .yieldNode s = ends c g m (passed g) s ∧
    (member = true → joined ≤ seen → ∃ u, exec (.arriveNode n) s = ends c g m (passed g) u ∧
      (u.fab c).arrives = f.arrives ++ [msg] ∧
      (smWf 0 f.joined = true → (u.fab c).joinedOf g.agent.index i = joined + 1) ∧ (u.fab c).bars = f.bars ∧
      (u.fab c).accesses = f.accesses ∧ u.sp = s.sp ∧ u.hbm = s.hbm) ∧
    (member = true → seen < joined → ∃ u, exec (.arriveNode n) s = .next u ∧ (u.fab c).arrives = f.arrives ∧
      (u.fab c).chan = f.chan ∧ (∀ h ∈ (u.fab c).firings, h.id = g.id → h.phase = .waitFence [])) ∧
    (member = false → s.depsDone c before = true →
      exec (.arriveNode n) s = ends c g m (passed g) s) ∧
    (target ≤ seen → exec (.waitNode n) s = ends c g m (passed g) s) ∧
    (seen < target → ∃ u, exec (.waitNode n) s = .next u ∧ (u.fab c).chan = f.chan ∧
      (∀ h ∈ (u.fab c).firings, h.id = g.id → h.phase = .waitPhase i target) ∧
      ({ agent := g.agent, deps := [{ id := g.id, level := .performed }], storesOnly := false } : Hold) ∈ (u.fab c).holds) ∧
    (¬ waits → exec (.fenceNode gn k) s = ends c g m (passed g) s) ∧
    (waits → ∃ u ds, exec (.fenceNode gn k) s = .next u ∧ (u.fab c).chan = f.chan ∧
      (∀ h ∈ (u.fab c).firings, h.id = g.id → h.phase = .waitFence ds) ∧
      ({ agent := g.agent, deps := ds, storesOnly := decide (k = .rel) } : Hold) ∈ (u.fab c).holds) ∧
    ((∀ a ∈ f.accesses, a.agent ≠ g.agent) → (∀ p ∈ f.pairs, p.agent ≠ g.agent) → s.tagWaits c g.agent = [] →
      (k ≠ .acq → level = .acked → ∀ p ∈ s.posted, p.ctx ≠ c) → exec (.fenceNode gn k) s = ends c g m (passed g) s)

/-- R82, R177 to R179, R342: a node's send of a header that R82 refuses, or of rkind 0, raises OP.ILL with the
header's low word; otherwise the header waits at its engine and zeros leave once it has been accepted. trap raises
OP.TRAP and ends its firing; brk raises OP.BRK and holds its firing's output until the context is resumed; a
breakpoint that their stage meets follows (R347, R349). The model's choices in it: log 109. -/
def Sys2Proof.Claims.NodeSendTrapAndBrk : Prop :=
  (∀ (a b : Sel) (c : Nat) (g : Firing) (m : NodeImg),
    (∀ (env : OpEnv) (s : State), Computes (.sendNode a b) c g m env s →
      let low := selRaw env true .zext a 0
      let raw := low + selRaw env true .zext b 0 * 2 ^ 64
      ((headerOf s (s.ctx c) raw = none ∨ raw.testBit 96 = false) →
        exec (.sendNode a b) s = .next (nodeTrap c 0x0401 0 (BitVec.ofNat 64 low) s)) ∧
      (∀ h, headerOf s (s.ctx c) raw = some h → raw.testBit 96 = true →
        ∃ k, exec (.sendNode a b) s = .next (postCmd (s.ctx c) k (setFiring c { g with phase := .waitInbox } s)) ∧
          k.raw = raw ∧ k.hdr = h ∧ k.from_.ctx = c ∧ k.from_.bySeq = false ∧ k.from_.tag = g.tag ∧
          k.from_.firing = g.id)) ∧
    (∀ s : State, Waits c g m .waitInbox s → (s.nodeSendWaits c g.id = true → exec (.sendNode a b) s = .next s) ∧
      (s.nodeSendWaits c g.id = false → exec (.sendNode a b) s = ends c g m [] s))) ∧
  (∀ (i : BitVec 10) (c : Nat) (g : Firing) (m : NodeImg) (s : State), Fires c g m s →
    let outs := [dataOut g.tag g.mask (passed g)]
    let report := nodeTagReport m.emit.node g.tag
    let trapped := nodeTrap c 0x0403 (i.toNat / 16) (report + BitVec.ofNat 64 (i.toNat % 16 * 2 ^ 60)) (dropFiring c g.id s)
    let broken := nodeTrap c 0x0404 i.toNat report (setFiring c { g with phase := .held (some outs) } s)
    let either := fun (o : Option (List Emission)) (i : Instr) (t : State) =>
      ((t.ctx c).live = false ∨ (t.ctx c).nodeBreak m g.tag g.stage = none → exec i s = .next t) ∧
      ∀ k, (t.ctx c).live = true → (t.ctx c).nodeBreak m g.tag g.stage = some k →
        exec i s = .next (nodeFreeze c k g m o t)
    either none (.trapNode i) trapped ∧ either (some outs) (.brkNode i) broken)

/-- R10, R95, R180, R322: a trap of a node firing or an access writes seq.cause and seq.tval and takes its outcome:
OP.TRAP, OP.BRK and TAG.DEEP suspend the graph, which drains, and every other code of R342 retires it with a kind 2
token, its tags freed with their generations kept. In a context that drains, the first cause stands and the later
codes are kept, each to be raised with its seq.cause and seq.tval at a resume. The model's choices in it: log 10, 89,
121. -/
def Sys2Proof.Claims.NodeTrapTakesItsOutcome : Prop :=
  ∀ (c code reason : Nat) (report : Word) (s : State), s.ctxWf = true → (s.seq c).h = false → code < 2 ^ 16 →
    reason < 2 ^ 16 →
    let t := nodeTrap c code reason report s
    let y := t.ctx c
    let suspends := code ∈ [0x0403, 0x0404, 0x0104, 0x0301, 0x0302, 0x0308]
    let records := suspends ∧ (s.ctx c).st = .draining
    (¬ records → y.seq.cause = BitVec.ofNat 64 (code + reason * 2 ^ 16) ∧ y.seq.tval = report) ∧
    (records → y.seq = s.seq c) ∧ y.seq.regs = (s.seq c).regs ∧
    (suspends → y.seq.epc = (s.seq c).epc) ∧ (¬ suspends → y.seq.epc = (s.seq c).addr &&& 0x3FFFFFFC) ∧
    t.sp = s.sp ∧ t.hbm = s.hbm ∧ t.hostMem = s.hostMem ∧
    (suspends → (s.ctx c).st = .running → y.st = .draining ∧ y.fab.draining = true ∧ y.causeCode = code ∧
      y.causeReason = reason ∧ y.causeReport = report) ∧
    (suspends → (s.ctx c).st = .draining → y.st = .draining ∧ y.causeCode = (s.ctx c).causeCode ∧
      y.cause = (s.ctx c).cause ∧ (code ≠ 0 → y.later = (s.ctx c).later ++ [(code, reason, report)])) ∧
    (¬ suspends → y.st = .retiring ∧ y.seq.phase = .stopped ∧ y.fab.chan = [] ∧ y.fab.firings = [] ∧
      (∀ n, smWf Slot.zero (s.ctx c).slots = true → (smGet Slot.zero y.slots n).live = false ∧
        (smGet Slot.zero y.slots n).gen = (smGet Slot.zero (s.ctx c).slots n).gen) ∧
      ∃ k, y.ending = some k ∧ k.kind = 2 ∧ k.code = code ∧ k.reason = reason ∧ k.report = report)

namespace Sys2Proof.Claims

open Sys2Proof Sys2Proof.Machine

/-- The TLB of a byte's home holds a leaf of its page, which allows the access and puts the byte at a physical address (R333, R335). -/
def Maps (s : State) (ia : Nat) (wr : Bool) (pa : Nat) : Prop :=
  ∃ e, ((smGet [] s.tlb (dieOf ia)).find? fun e => e.hits ia false) = some e ∧ (wr = true → e.w = true) ∧ e.paOf ia = pa

/-- R214: the fields that order a binding's records: the key, and with it the value. -/
def recKey (r : Rec) : List Nat := [r.period, r.key.space, r.key.ring, r.key.ordinal, r.node, r.lane]

/-- R214: some records in ascending order of key, and of value among equal keys. -/
def InOrder (qs : List Rec) : Prop := qs.Pairwise fun a b => ¬ (recKey b ++ [b.value] < recKey a ++ [a.value])

end Sys2Proof.Claims

/-- R170, R240, R243, R245, R260, R332, R335: an accepted access that nothing holds takes effect once, where its bytes
are: a load returns them, a store replaces them, an atomic returns the old element and writes the new one; a global
one at the physical bytes that its translation gives, as a posted store through a window, or as a load of the host's
or the peer's bytes; one without a translation misses and stays. An earlier one of its memory node to the same bytes,
or one that is replayed, holds it back (R167, R250, R255). The model's choices in it: log 4, 70. -/
def Obligations.AccessPerformTakesEffect : Prop :=
  (∀ (c : CtxId) (k : Nat) (a : Access) (s : State), (s.ctx c.val).performs = true →
    (s.fab c.val).accesses[k]? = some a → a.accepted = true → s.depsDone c.val a.deps = true →
    accHeld s c.val k a = false →
    let x := s.ctx c.val
    let p := x.spAddr a.addr
    let old := rdBytes s.sp p a.size
    let next := fun (v : Nat) (u : State) => exec (.accessPerform c k) s = .next (deliver c.val a v (dropAccess c.val a.id u))
    (a.glob = false → s.spErr = [] →
      (a.op = .load → next old s) ∧
      (∀ v, a.op = .store v → next 0 { s with sp := wrBytes s.sp p v a.size }) ∧
      (∀ o sg b d, a.op = .atomic o sg b d →
        let t : IntTy := if sg then (if a.size = 8 then .i64 else .i32) else (if a.size = 8 then .n64 else .n32)
        next old { s with sp := wrBytes s.sp p (atomNew o t old b d) a.size })) ∧
    (a.glob = true →
      (∀ b, x.toIa a.op.returns a.op.writes a.addr = .error b →
        exec (.accessPerform c k) s = .next (ctxTrap c.val b (dropAccess c.val a.id s))) ∧
      ∀ ia, x.toIa a.op.returns a.op.writes a.addr = .ok ia →
        (∀ pa, a.op = .load → s.hbmErr = [] →
          (∀ j, j < a.size → inWindow (ia + j) = false ∧ s.tlbLook (ia + j) false = some (pa + j) ∧
            s.regionOf (ia + j) = none) → next (rdBytes s.hbm pa a.size) s) ∧
        (∀ v pa, a.op = .store v → inWindow ia = false → s.hbmErr = [] → s.tlbLook ia true = some pa →
          next 0 { s with hbm := wrBytes s.hbm pa v a.size }) ∧
        (∀ v, a.op = .store v → inWindow ia = false → s.tlbLook ia true = none →
          exec (.accessPerform c k) s = .next (s.miss (.access c.val a.id) ia true)) ∧
        (∀ v w, a.op = .store v → inWindow ia = true → windowCheck (accDie x a) ia s = .ok w s →
          next 0 (postStore c.val (accDie x a) ia (toBytes v a.size) a.id
            (if a.agent = .seq then none else some a.firing) a.foot (x.unitOf c.val a) s)) ∧
        (∀ ra, a.op = .load → s.posted = [] → (∀ j, j < a.size → inWindow (ia + j) = true ∧
            (∃ w, windowCheck (accDie x a) (ia + j) s = .ok w s) ∧ s.remotePlace (ia + j) = s.remotePlace ia ∧
            s.remoteAddr (ia + j) = ra + j) →
          (isHostPlace (s.remotePlace ia) = true → next (rdBytes s.hostMem ra a.size) s) ∧
          (isHostPlace (s.remotePlace ia) = false →
            next (rdBytes s.peerMem (s.remotePlace ia * 2 ^ 48 + ra) a.size) s)))) ∧
  (∀ (c : CtxId) (k j : Nat) (a b : Access) (s : State), (s.fab c.val).accesses[k]? = some a →
    (s.fab c.val).accesses[j]? = some b → j < k → b.accepted = true →
    (s.ctx c.val).unitOf c.val b = (s.ctx c.val).unitOf c.val a →
    (accOverlap (s.ctx c.val) b (s.ctx c.val) a = true ∨ b.replay = true) → exec (.accessPerform c k) s = .next s) ∧
  (∀ (t : IntTy) (old b d : Nat),
    atomNew .iadd t old b d = (old + b) % 2 ^ IntTy.bits t ∧ atomNew .and t old b d = old &&& b ∧
    atomNew .or t old b d = old ||| b ∧ atomNew .xor t old b d = old ^^^ b ∧ atomNew .xchg t old b d = b ∧
    atomNew .cas t old b d = (if old = d then b else old) ∧
    intVal t (atomNew .imin t old b d) = min (intVal t old) (intVal t b) ∧
    intVal t (atomNew .imax t old b d) = max (intVal t old) (intVal t b))

/-- R244, R245: the frame of an access: a load changes no byte; a store or atomic to scratchpad changes only its own bytes,
at the address that its nominal address relocates to, and no byte of global memory; a global one only the bytes at the
physical address that its translation gives. Every register is unchanged, and so is the memory of the host and of the peers, but
for the posted stores that a load of a window finds performed (R260). -/
def Obligations.AccessPerformFrame : Prop :=
  ∀ (c : CtxId) (k : Nat) (a : Access) (s t : State), s.memWf = true → s.ctxWf = true → s.spErr = [] → s.hbmErr = [] →
    s.bound = [] → (s.fab c.val).accesses[k]? = some a → exec (.accessPerform c k) s = .next t →
    let x := s.ctx c.val
    let p := x.spAddr a.addr
    let outside := a.op = .load ∧ a.glob = true ∧ s.posted ≠ [] ∧
      ∃ ia j, x.toIa a.op.returns a.op.writes a.addr = .ok ia ∧ j < a.size ∧ inWindow (ia + j) = true
    (¬ outside → t.hostMem = s.hostMem ∧ t.peerMem = s.peerMem) ∧ (t.seq c.val).regs = (s.seq c.val).regs ∧
    (t.seq c.val).pc = (s.seq c.val).pc ∧ (∀ o, o ≠ c.val → t.ctx o = s.ctx o) ∧
    (a.op = .load → t.sp = s.sp ∧ t.hbm = s.hbm) ∧
    (a.glob = false → t.hbm = s.hbm ∧ ∀ q, (q < p ∨ p + a.size ≤ q) → smGet 0 t.sp q = smGet 0 s.sp q) ∧
    (a.glob = true → t.sp = s.sp ∧
      (∀ ia pa, x.toIa a.op.returns a.op.writes a.addr = .ok ia → s.tlbLook ia true = some pa →
        ∀ q, (q < pa ∨ pa + a.size ≤ q) → smGet 0 t.hbm q = smGet 0 s.hbm q) ∧
      ((∀ ia, x.toIa a.op.returns a.op.writes a.addr = .ok ia → inWindow ia = true ∨ s.tlbLook ia true = none) →
        t.hbm = s.hbm))

/-- R334, R335, R337, R339: a miss goes to the walker of its die, joining a walk of its page or where the walker has
room. A walk whose entries lead to a leaf fills the TLB, so that the address now translates to the page's bytes, and
the misses that the leaf answers are gone; an entry that is not valid, or a leaf that a write may not use, is a fault
token for every unit whose miss joined the walk; a malformed entry is MEM.WALK with the entry's address, for the
context of an access, a sequencer or a sorter a trap, for an engine the failure of its command. A leaf that the TLB
holds answers a miss that it serves. The model's choices in it: log 4, 24. -/
def Sys2Proof.Claims.MissesWalkTheTable : Prop :=
  ∀ (k : Nat) (m : Miss) (s : State), s.misses[k]? = some m →
    let busy := s.misses.filter fun n => n.walking && decide (dieOf n.ia = dieOf m.ia)
    (((∃ n ∈ busy, n.ia / 2 ^ 16 = m.ia / 2 ^ 16) ∨ (busy.map fun n => n.ia / 2 ^ 16).dedup.length < 1024) →
      exec (.tlbMiss k) s = .next { s with misses := s.misses.set k { m with walking := true } }) ∧
    (m.walking = true → s.hbmErr = [] → s.tlbLook m.ia false = none →
      let entry := fun (table i : Nat) => rdBytes s.hbm (table + 8 * i) 8
      let e0 := entry s.ptRoot.toNat (bits m.ia 45 29)
      let e1 := entry (bits e0 39 0) (bits m.ia 28 25)
      let e2 := entry (bits e1 39 0) (bits m.ia 24 16)
      let ptr := fun (e al : Nat) => bit e 63 = true ∧ bit e 62 = false ∧ bits e 60 40 = 0 ∧ bits e 39 0 % al = 0
      let leaf := fun (e n : Nat) => bit e 63 = true ∧ bit e 62 = true ∧ (m.wr = true → bit e 61 = true) ∧
        bits e 60 40 = 0 ∧ bits e 39 0 % 2 ^ n = 0 ∧ bits e 39 0 + 2 ^ n ≤ 0xFFFF000000
      let refused := fun (e : Nat) => bit e 63 = false ∨ (bit e 62 = true ∧ m.wr = true ∧ bit e 61 = false)
      let found := fun (e n : Nat) => ∃ t, exec (.walkResult k) s = .next t ∧
        t.tlbLook m.ia m.wr = some (bits e 39 0 + m.ia % 2 ^ n) ∧ t.hbm = s.hbm ∧ t.ctxs = s.ctxs ∧ m ∉ t.misses ∧
        ∀ n ∈ t.misses, n ∈ s.misses
      let token := fun (n : Miss) => ({ who := n.who, ia := n.ia, wr := n.wr } : FaultTok)
      let joined := fun (n : Miss) => n ∈ s.misses ∧ n.walking = true ∧ n.wr = m.wr ∧ dieOf n.ia = dieOf m.ia ∧
        n.ia / 2 ^ 16 = m.ia / 2 ^ 16
      let fault := ∃ t, exec (.walkResult k) s = .next t ∧ t.hbm = s.hbm ∧ t.ctxs = s.ctxs ∧
        (∀ n, joined n → token n ∈ t.faultToks ∧ n ∉ t.misses) ∧ (∀ n ∈ t.misses, n ∈ s.misses) ∧
        (∀ n ∈ s.misses, n ∉ t.misses → token n ∈ t.faultToks) ∧ ∀ f ∈ s.faultToks, f ∈ t.faultToks
      (leaf e0 29 → found e0 29) ∧ (ptr e0 128 → leaf e1 25 → found e1 25) ∧
      (ptr e0 128 → ptr e1 4096 → leaf e2 16 → found e2 16) ∧
      let reserved := fun (e : Nat) => bit e 63 = true ∧ ¬ refused e ∧ bits e 60 40 ≠ 0
      let badLeaf := fun (e n : Nat) => bit e 63 = true ∧ ¬ refused e ∧ bit e 62 = true ∧
        (bits e 39 0 % 2 ^ n ≠ 0 ∨ 0xFFFF000000 < bits e 39 0 + 2 ^ n)
      let badPtr := fun (e al : Nat) => bit e 63 = true ∧ bit e 62 = false ∧ bits e 39 0 % al ≠ 0
      let malformed := fun (at_ : Nat) => s.misses = [m] →
        let u : State := { s with misses := [] }
        let b : Bad := { code := 0x0209, report := at_ }
        exec (.walkResult k) s = .next (match m.who with
          | .access c id => ctxTrap c b (dropAccess c id u)
          | .seq c | .sorter c _ | .spill c => ctxTrap c b u
          | .eng e => failRun e b u
          | .sched c q => refuseLaunch c q b u)
      let at0 := s.ptRoot.toNat + 8 * bits m.ia 45 29
      let at1 := bits e0 39 0 + 8 * bits m.ia 28 25
      let at2 := bits e1 39 0 + 8 * bits m.ia 24 16
      (refused e0 → fault) ∧ (ptr e0 128 → refused e1 → fault) ∧ (ptr e0 128 → ptr e1 4096 → refused e2 → fault) ∧
      (reserved e0 ∨ badLeaf e0 29 ∨ badPtr e0 128 → malformed at0) ∧
      (ptr e0 128 → reserved e1 ∨ badLeaf e1 25 ∨ badPtr e1 4096 → malformed at1) ∧
      (ptr e0 128 → ptr e1 4096 → reserved e2 ∨ badLeaf e2 16 ∨ (bit e2 63 = true ∧ bit e2 62 = false) → malformed at2)) ∧
    (∀ pa, m.walking = true → s.tlbLook m.ia m.wr = some pa →
      (∀ e ∈ smGet [] s.tlb (dieOf m.ia), e.hits m.ia false = true → m.wr = true → e.w = true) →
      ∃ t, exec (.walkResult k) s = .next t ∧ t.tlb = s.tlb ∧ t.hbm = s.hbm ∧ t.ctxs = s.ctxs ∧ m ∉ t.misses ∧
        ∀ n ∈ t.misses, n ∈ s.misses) ∧
    (m.walking = false → exec (.walkResult k) s = .next s)

/-- R124, R188, R321, R339, R340: the fault token of a unit of a running context leaves an access, a wld's among them,
parked, and an engine's command and a sorter's records as they are; it writes ctx.fault where no fault was pending,
signals vector 64 + c, and drains the context with the cause of a page fault. A sequencer that waits for its own
access, or for an apply that met the fault, stops there with seq.epc naming its instruction. The model's choices in
it: log 25, 39. -/
def Sys2Proof.Claims.PageFaultDrains : Prop :=
  ∀ (k c : Nat) (t : FaultTok) (s : State), s.ctxWf = true → s.faultToks[k]? = some t → s.whoCtx t.who = some c →
    (∀ q, t.who ≠ .sched c q) → (s.ctx c).st = .running → c < 64 →
    let x := s.ctx c
    let stops := t.who = .seq c ∨ (∃ h, t.who = .sorter c h ∧ x.apply ≠ none)
    ∃ u, exec (.pageFault k) s = .next u ∧ u.faultToks = s.faultToks.eraseIdx k ∧ u.vectors.getLsbD (64 + c) = true ∧
      u.sp = s.sp ∧ u.hbm = s.hbm ∧ u.engs = s.engs ∧ u.recs = s.recs ∧
      let y := u.ctx c
      y.st = .draining ∧ y.cause = some .page ∧ y.fab.draining = true ∧
      (∀ id, t.who = .access c id →
        y.fab.accesses = x.fab.accesses.map fun a => if a.id = id then { a with parked := true } else a) ∧
      ((∀ id, t.who ≠ .access c id) → y.fab.accesses = x.fab.accesses) ∧
      (¬ stops → y.seq = x.seq ∧ y.apply = x.apply) ∧
      (stops → x.seq.phase ≠ .stopped →
        y.seq = { x.seq with phase := .stopped, epc := x.seq.addr &&& 0x3FFFFFFC } ∧ y.apply = none) ∧
      y.faultPend = true ∧ (x.faultPend = false → y.faultIa = t.ia ∧ y.faultWr = t.wr) ∧
      (x.faultPend = true → y.faultIa = x.faultIa ∧ y.faultWr = x.faultWr)

/-- R335, R336: a write of pt.root takes bits <39:20> while no context holds a launched graph, and is discarded
otherwise; a go of pt.inval that is not busy sets busy and starts the invalidation of the named range, a go while busy
is discarded, and the end of an invalidation leaves no named entry in any TLB and clears busy. The model's choices in
it: log 24. -/
def Sys2Proof.Claims.PageTableRegisters : Prop :=
  ∀ (v : Word) (s : State), s.boot.minimal = false → s.boot.tripped = false → s.credit 8 = true →
    (s.anyLaunched = true → exec (.ptRootWrite v) s = .next s) ∧
    (s.anyLaunched = false → ∃ w : Word, exec (.ptRootWrite v) s = .next { s with ptRoot := w } ∧
      ∀ j, j < 64 → w.getLsbD j = (decide (20 ≤ j ∧ j < 40) && v.getLsbD j)) ∧
    (v.getLsbD 0 = true → s.ptInval.getLsbD 63 = true → exec (.ptInval v) s = .next s) ∧
    (v.getLsbD 0 = true → s.ptInval.getLsbD 63 = false → ∃ w, exec (.ptInval v) s = .next { s with
        ptInval := w, invalRange := (bits v.toNat 47 46, bits v.toNat 45 16 * 2 ^ 16) } ∧ w.getLsbD 63 = true) ∧
    (s.ptInval.getLsbD 63 = false → exec .invalidationComplete s = .next s) ∧
    (s.ptInval.getLsbD 63 = true → ∃ (w : Word) (l : SMap (List TlbEntry)),
      exec .invalidationComplete s = .next { s with ptInval := w, tlb := l } ∧
      (∀ j, j < 64 → w.getLsbD j = (decide (j ≠ 63) && s.ptInval.getLsbD j)) ∧ (s.invalRange.1 = 3 → l = []) ∧
      (smWf [] s.tlb = true → ∀ d e, e ∈ smGet [] l d ↔
        e ∈ smGet [] s.tlb d ∧ e.named s.invalRange.1 s.invalRange.2 = false))

/-- R344, R345: a scrub read of an HBM word of its die corrects a single-bit error and writes it back, counting it as
corrected; a word with more errors stays as it is, is entered in the log and counted as uncorrectable; a word without
errors is only read. The model's choices in it: log 22, 35, 44. -/
def Sys2Proof.Claims.ScrubCorrectsOrLogs : Prop :=
  ∀ (d : Die) (w : BitVec 40) (s : State), dieOf (w.toNat / 8 * 8) = d.val → smWf 0 s.hbmErr = true →
    smWf LogEntry.none s.eccLog = true →
    let k := w.toNat / 8
    let e := smGet 0 s.hbmErr k
    (e = 0 → ∃ t, exec (.scrubPass d w) s = .next t ∧ t.hbm = s.hbm ∧ t.hbmErr = s.hbmErr ∧ t.corrected = s.corrected ∧
      t.uncorrected = s.uncorrected ∧ t.eccCount = s.eccCount) ∧
    (popWord e = 1 → ∃ t, exec (.scrubPass d w) s = .next t ∧ smGet 0 t.hbmErr k = 0 ∧
      t.hbm = wrBytes s.hbm (8 * k) (rdBytes s.hbm (8 * k) 8 ^^^ e.toNat) 8 ∧
      smGet 0 t.corrected d.val = smGet 0 s.corrected d.val + 1 ∧ t.eccCount = s.eccCount) ∧
    (2 ≤ popWord e → ∃ t, exec (.scrubPass d w) s = .next t ∧ t.hbm = s.hbm ∧ t.hbmErr = s.hbmErr ∧
      smGet 0 t.uncorrected d.val = smGet 0 s.uncorrected d.val + 1 ∧ t.eccCount = s.eccCount + 1 ∧
      (smGet LogEntry.none t.eccLog (s.eccCount.toNat % 64)).addr = 8 * k) ∧
    (∀ d', d' ≠ d → exec (.scrubPass d' w) s = .next s)

/-- R17, R23, R25 to R27, R151: a token that reaches the active plane of its node, first of its route, traps where its
tag names no admitted slot (TAG.KIND) or an old generation (TAG.STALE), or its port already holds an operand
(TAG.DUP); a merge fires on it; the last operand of a frame fires the node, with the AND of the masks on its data
ports, or is an ECC trap where a waiting operand is uncorrectable; any other is stored. An operand in the global
overflow area is reached through its translation (R28, R332). The model's choices in it: log 22, 40. -/
def Obligations.TokenMatchFiresOrStores : Prop :=
  ∀ (c : CtxId) (k : Nat) (t : Tok) (m : NodeImg) (s : State), s.ctxWf = true →
    let x := s.ctx c.val
    let exec' := exec (.tokenMatch c k) s
    let trap := fun code => .next (nodeTrap c.val code 0 (nodeTagReport m.emit.node t.tag) s)
    let frame := x.fab.waiting.filter fun w => decide (w.tok.dest = t.dest ∧ w.tok.tag = t.tag)
    let held := fun p => ∃ w ∈ frame, w.tok.port = p
    x.fab.chan[k]? = some t → s.nodeImg x t.dest = some m → x.live = true → x.fab.firstOfRoute k t = true →
    x.resuming = false → smGet 0 s.active (x.first + t.dest.cl) = t.dest.plane → t.kind ≠ .marker → x.fab.draining = false →
    let reached := reachAreas c.val ((frame.filter fun w => decide (w.place = .area)).map x.fab.inArea.idxOf) s
    let fires := m.head.rule ≠ .merge ∧ ¬ held t.port ∧ (∀ p ∈ m.portList, p = t.port ∨ held p)
    (x.tagAdmitted t.tag = false → exec' = trap 0x0105) ∧
    (x.tagAdmitted t.tag = true → x.tagCurrent t.tag = false → exec' = trap 0x0102) ∧
    (x.tagAdmitted t.tag = true → x.tagCurrent t.tag = true →
      (m.head.rule = .merge → exec' = .next (fire c.val t.dest t.tag t.mask [t] (dropTok c.val k s))) ∧
      (m.head.rule ≠ .merge → held t.port → exec' = trap 0x0103) ∧
      ((∀ w ∈ frame, w.place ≠ .area) → reached = .ok 0 s) ∧
      (∀ u, fires → reached = .stall u → exec' = .next u) ∧
      (∀ b u, fires → reached = .bad b u → exec' = .next (nodeTrap c.val b.code 0 (BitVec.ofNat 64 b.report) u)) ∧
      (∀ (j : Nat) (w : Waiting), fires → reached = .ok 0 s → frame[j]? = some w → 2 ≤ popWord (BitVec.ofNat 64 w.err) →
        (∀ (i : Nat) (v : Waiting), i < j → frame[i]? = some v → popWord (BitVec.ofNat 64 v.err) < 2) →
        ∃ r u, exec' = .next (nodeTrap c.val (match w.place with
          | .table => 0x0B02 | .store => 0x0B01 | .area => 0x0B03) 0 r u)) ∧
      (fires → reached = .ok 0 s → (∀ w ∈ frame, w.err = 0) →
        ∃ u f, exec' = .next u ∧ (u.fab c.val).firings = x.fab.firings ++ [f] ∧ f.ref = t.dest ∧ f.tag = t.tag ∧
          f.stage = 0 ∧ f.phase = .run ∧ (u.fab c.val).chan = x.fab.chan.eraseIdx k ∧
          (∀ w, w ∈ (u.fab c.val).waiting ↔ w ∈ x.fab.waiting ∧ ¬ (w.tok.dest = t.dest ∧ w.tok.tag = t.tag)) ∧
          (t.port < 3 → f.ports.getD t.port none = some t) ∧
          ∀ l, l < 16 → (f.mask.getLsbD l = true ↔ ∀ q, q = t ∨ (∃ w ∈ frame, w.tok = q) →
            q.port < m.head.inputs → some q.port ≠ m.ordPort → q.mask.getLsbD l = true)) ∧
      (∀ p, m.head.rule ≠ .merge → ¬ held t.port → p ∈ m.portList → p ≠ t.port → ¬ held p →
        let area := reachArea c.val true x.fab.inArea.length s
        (∀ place, s.waitPlace x t = some place → (place = .area → ∃ v, area = .ok v s) → ∃ u, exec' = .next u ∧
          (u.fab c.val).waiting = x.fab.waiting ++ [{ tok := t, place := place, err := 0 }] ∧
          (u.fab c.val).chan = x.fab.chan.eraseIdx k ∧ (u.fab c.val).firings = x.fab.firings) ∧
        (∀ u, s.waitPlace x t = some .area → area = .stall u → exec' = .next u) ∧
        (∀ b u, s.waitPlace x t = some .area → area = .bad b u →
          exec' = .next (nodeTrap c.val b.code 0 (BitVec.ofNat 64 b.report) u)) ∧
        (s.waitPlace x t = none → exec' = .next s)))

/-- R22, R105: a source of the period whose points are not all issued emits the next one with a fresh root tag, its x,
y and z in lanes 0 to 2, all lanes active, as soon as its slot is free and its queue has room; in a draining region it
emits no point, and once its own point is done it stops with a round marker on each of its routes, those that find no
room waiting there (R320, R325). The model's choices in it: log 86, 90, 99, 106. -/
def Sys2Proof.Claims.SourcesIssueThePoints : Prop :=
  ∀ (c : CtxId) (k : Nat) (p : Period) (r : NodeRef) (m : NodeImg) (s : State), s.ctxWf = true →
    let x := s.ctx c.val
    x.fab.period = some p → (s.sources x)[k]? = some r → s.nodeImg x r = some m → x.live = true → x.resuming = false →
    let i := smGet 0 x.fab.cursors r.key
    (x.fab.draining = false → p.nx * p.ny * p.nz ≤ i → exec (.indexTokenIssue c k) s = .next s) ∧
    (∀ t y, x.fab.draining = false → i < p.nx * p.ny * p.nz → x.grant m.head.space 0 0 false none none = some (t, y) →
      let q : Tok := { tag := t, kind := .data, mask := 0xFFFF, payload := p.point i, dest := r, port := 0, src := r, pred := [] }
      (hasRoom x.fab.chan q = false → exec (.indexTokenIssue c k) s = .next s) ∧
      ((∀ o ∈ x.fab.chan, o.src ≠ r ∨ o.dest ≠ r ∨ o.port ≠ 0) → hasRoom x.fab.chan q = true) ∧
      (hasRoom x.fab.chan q = true → ∃ u, exec (.indexTokenIssue c k) s = .next u ∧ (u.fab c.val).chan = y.fab.chan ++ [q] ∧
        laneAt q.payload 0 = BitVec.ofNat 32 (i % p.nx) ∧ laneAt q.payload 1 = BitVec.ofNat 32 (i / p.nx % p.ny) ∧
        laneAt q.payload 2 = BitVec.ofNat 32 (i / (p.nx * p.ny)) ∧
        (∀ l, 3 ≤ l → l < 16 → laneAt q.payload l = 0) ∧ smGet 0 (u.fab c.val).cursors r.key = i + 1 ∧
        (u.ctx c.val).slots = y.slots ∧ (u.ctx c.val).rings = y.rings)) ∧
    (x.fab.draining = false → x.grant m.head.space 0 0 false none none = none → exec (.indexTokenIssue c k) s = .next s) ∧
    (x.fab.draining = true → smGet 0 x.fab.stopped r.key = 0 → s.pointBusy c.val r = false →
      (∀ h ∈ x.fab.firings, h.ref = r → ∀ es, h.phase ≠ .emit es) → ∃ u sent kept, exec (.indexTokenIssue c k) s = .next u ∧
        smGet 0 (u.fab c.val).stopped r.key = 1 ∧ (u.fab c.val).chan = x.fab.chan ++ sent ∧
        (sent ++ kept).Perm (s.markersOut x r m) ∧
        (∀ d, d ∈ s.destsAt x r m ↔ ∃ t ∈ sent ++ kept, (t.dest, t.port) = d) ∧
        (∀ t ∈ sent ++ kept, t.kind = .marker ∧ t.src = r ∧ t.mask = 0) ∧
        (∀ t ∈ kept, s.frozen x t.dest = false ∧ queueDepth ≤ ((u.fab c.val).chan.filter fun q =>
          decide (q.src = t.src ∧ q.dest = t.dest ∧ q.port = t.port)).length) ∧
        (kept ≠ [] → ∃ h ∈ (u.fab c.val).firings, h.ref = r ∧
          ∃ es, h.phase = .emit es ∧ es.flatMap (s.toks x r m) = kept))

/-- R20, R22, R23, R154: an allocator grants the next slot of the ring once it is not live, with its generation in the
tag; the oldest waiting request of a ring is granted first, a call's with its caller's key and its return. A waiting
free takes effect once no other token bears the tag: its slot is no longer live and its generation goes up by one,
modulo 256; a tag that names a parent raises TAG.NEST. The model's choices in it: log 86, 90, 99. -/
def Sys2Proof.Claims.TagsAreGrantedAndFreed : Prop :=
  (∀ (x : Ctx) (sp q : Nat) (parent : Tag) (opened : Bool), smWf 0 x.rings = true →
    let n := (x.space sp).n
    let o := x.ringNext sp q
    let i := q * n + o % n
    ((x.slot sp i).live = true → x.grant sp q parent opened none none = none) ∧
    ((x.slot sp i).live = false → ∃ y, x.grant sp q parent opened none none =
        some (mkTag (x.space sp).home sp i (x.slot sp i).gen, y) ∧
      (y.slot sp i).live = true ∧ (y.slot sp i).gen = (x.slot sp i).gen ∧ (y.slot sp i).parent = parent ∧
      (y.slot sp i).key = { space := sp, ring := q, ordinal := o } ∧ y.ringNext sp q = (o + 1) % 2 ^ 64)) ∧
  (∀ (c : CtxId) (k : Nat) (r : AllocReq) (g : Firing) (m : NodeImg) (s : State),
    let x := s.ctx c.val
    x.live = true → x.resuming = false → x.fab.allocs[k]? = some r → (x.fab.firings.find? fun g => g.id == r.firing) = some g →
    s.nodeImg x g.ref = some m →
    (∀ t y, grantReq s x g m r = some (t, y) → ∃ z, (x.grant r.space r.ring r.parent r.opened
        (if (x.space r.space).kind = .call then some (x.keyOf g.tag) else none)
        (if (x.space r.space).kind = .call then some (g.tag, (s.callDest x m g).1, (s.callDest x m g).2) else none)) = some (t, z) ∧
      y.slots = z.slots ∧ y.rings = z.rings) ∧
    ((∃ q ∈ x.fab.allocs.take k, q.space = r.space ∧ q.ring = r.ring) → exec (.tagAllocGrant c k) s = .next s) ∧
    (grantReq s x g m r = none → exec (.tagAllocGrant c k) s = .next s) ∧
    (∀ t y, (∀ q ∈ x.fab.allocs.take k, q.space ≠ r.space ∨ q.ring ≠ r.ring) → grantReq s x g m r = some (t, y) →
      exec (.tagAllocGrant c k) s = .next ((setFiring c.val { g with phase := .granted t } (s.setCtx c.val y)).modFab
        c.val fun f => { f with allocs := f.allocs.eraseIdx k }))) ∧
  (∀ (c : CtxId) (g : Firing) (m : NodeImg) (s : State),
    let x := s.ctx c.val
    let v := x.tagSlot g.tag
    x.live = true → x.resuming = false → (x.fab.firings.find? fun h => h.id == g.id) = some g → g.phase = .waitFree →
    s.nodeImg x g.ref = some m →
    (s.tagInUse c.val g.id g.tag = true → exec (.freeComplete c g.id) s = .next s) ∧
    (s.tagInUse c.val g.id g.tag = false → x.tagLive g.tag = true → x.namedAsParent g.tag = true →
      exec (.freeComplete c g.id) s = .next (nodeTrap c.val 0x0101 0 (nodeTagReport m.emit.node g.tag) s)) ∧
    (s.tagInUse c.val g.id g.tag = false → x.tagLive g.tag = false →
      exec (.freeComplete c g.id) s = .next (nodeTrap c.val 0x0102 0 (nodeTagReport m.emit.node g.tag) s)) ∧
    (s.tagInUse c.val g.id g.tag = false → x.tagLive g.tag = true → x.namedAsParent g.tag = false →
      ∃ y : Ctx, exec (.freeComplete c g.id) s =
          .next (setFiring c.val { g with phase := .freed v.parent } (s.setCtx c.val y)) ∧
        y = { x with slots := y.slots, fab := { x.fab with loops := y.fab.loops } } ∧ (m.isGate = false → y.fab = x.fab) ∧
        (smWf Slot.zero x.slots = true → (y.tagSlot g.tag).live = false ∧ (y.tagSlot g.tag).gen = (v.gen + 1) % 256)))

/-- R32: a cluster whose active plane has no waiting token and no firing in its pipelines, up to the E stage, switches to the next plane, in the
order after the active one, that a token waits for; with a token or firing left, or none waiting, it stays. -/
def Sys2Proof.Claims.PlaneSwitchesToNextWaiting : Prop :=
  ∀ (n : Cluster) (c : Nat) (x : Ctx) (s : State), (s.ctxs.find? fun e => e.2.live && e.2.inBlock n.val) = some (c, x) →
    let cl := n.val - x.first
    let a := smGet 0 s.active n.val
    let waits := fun q => s.waitsFor x cl q = true
    let runs := ∃ g ∈ x.fab.firings, g.ref.cl = cl ∧ g.ref.plane = a ∧
      (g.phase = .run ∨ (∃ es, g.phase = .emit es) ∨ (∃ v, g.phase = .granted v) ∨ ∃ v, g.phase = .freed v)
    (waits a ∨ runs → exec (.planeSwitch n) s = .next s) ∧
    (∀ d, ¬ waits a → ¬ runs → 1 ≤ d → d ≤ 3 → waits ((a + d) % 4) → (∀ e, 1 ≤ e → e < d → ¬ waits ((a + e) % 4)) →
      ∃ u, exec (.planeSwitch n) s = .next u ∧ u = { s with active := u.active } ∧
        (smWf 0 s.active = true → ∀ k, smGet 0 u.active k = if k = n.val then (a + d) % 4 else smGet 0 s.active k))

/-- R104, R291, R292: the end of a load writes its address, identity and first plane to each of its planes in every cluster of
the region, its nodes and no other into those planes, and its hold records, and the load is gone; of a load that a later one
has dropped the planes belong to no fabric load. -/
def Sys2Proof.Claims.LoadCompletionWritesPlanes : Prop :=
  ∀ (c : CtxId) (j : LoadJob) (l : List LoadJob) (s : State), s.ctxWf = true → (s.ctx c.val).live = true →
    (s.fab c.val).loads = j :: l → j.plane + j.fold ≤ 4 → 1 ≤ j.fold → smWf noPlane s.planes = true →
    smWf [] s.nodes = true → smWf [] j.nodes = true →
    let x := s.ctx c.val
    ∃ u, exec (.configurationLoadComplete c) s = .next u ∧ (u.fab c.val).loads = l ∧ u.sp = s.sp ∧ u.hbm = s.hbm ∧
      (∀ cl q, cl < x.size → q < j.fold → u.planeOf x cl (j.plane + q) =
        (if j.dropped = true then noPlane else (j.addr, j.ident, j.plane, j.fold))) ∧
      (∀ cl q pe slot, cl < x.size → j.plane ≤ q → q < j.plane + j.fold → pe < 64 → slot < 128 →
        smGet [] u.nodes (nodeKey (x.first + cl) q pe slot) = smGet [] j.nodes (nodeKey cl q pe slot)) ∧
      (∀ k v, smWf [] s.hold = true → smWf [] j.holds = true → (k, v) ∈ j.holds →
        ∀ i, i < 16 → laneAt (smGet [] u.hold (x.first * 1024 + k)) i = laneAt v i)

/-- R15, R53, R106, R214: the period ends only when every source has issued every point and no token, operand, firing, pair,
access of a PE, reply or engine command of the region is left; then its flags are merged and its records are complete. -/
def Sys2Proof.Claims.QuiescenceEndsThePeriod : Prop :=
  ∀ (c : CtxId) (p : Period) (s : State), s.ctxWf = true →
    let x := s.ctx c.val
    x.fab.period = some p → x.live = true →
    let empty := x.fab.chan = [] ∧ x.fab.waiting = [] ∧ x.fab.firings = [] ∧ x.fab.allocs = [] ∧ x.fab.pairs = [] ∧
      x.fab.replies = [] ∧ (∀ a ∈ x.fab.accesses, a.agent = .seq) ∧ s.hasCmd c.val false = false ∧
      ∀ r ∈ s.sources x, p.nx * p.ny * p.nz ≤ smGet 0 x.fab.cursors r.key
    (¬ empty → exec (.quiescenceReport c) s = .next s) ∧
    (empty → ∃ u, exec (.quiescenceReport c) s = .next u ∧ (u.fab c.val).period = none ∧
      (u.ctx c.val).flags = x.flags ||| x.unmerged ∧ (u.ctx c.val).unmerged = 0 ∧ (u.ctx c.val).seq = x.seq ∧
      u.sp = s.sp ∧ u.hbm = s.hbm ∧
      u.recs = s.recs.map fun r => if r.ctx = c.val then { r with current := false } else r)

/-- R377: a reply for a node port of the load that the period runs becomes a token of lanes 0 and 1 with its tag; one
that names no node, plane or data port of it raises OP.ILL with its header's low word. The model's choices in it: log
106. -/
def Sys2Proof.Claims.ReplyTokenReachesItsPort : Prop :=
  ∀ (c : CtxId) (k : Nat) (r : NodeReply) (p : Period) (s : State), s.ctxWf = true →
    let x := s.ctx c.val
    let f := x.fab
    x.live = true → x.resuming = false → f.replies[k]? = some r → f.period = some p →
    let cl := LinkDest.clusterOf r.dest - x.base
    let ref : NodeRef := { cl := cl, plane := p.plane + r.plane, pe := r.dest.pe, slot := r.dest.node }
    let fold := (s.planeOf x cl p.plane).2.2.2
    let u := s.modFab c.val fun f => { f with replies := f.replies.eraseIdx k }
    let ill := exec (.replyTokenDelivery c k) s =
      .next (nodeTrap c.val 0x0401 0 (BitVec.ofNat 64 (r.header % 2 ^ 64)) u)
    (s.nodeImg x ref = none → ill) ∧
    ∀ m, s.nodeImg x ref = some m →
      (fold ≤ r.plane ∨ m.head.inputs ≤ r.dest.port → ill) ∧
      (r.plane < fold → r.dest.port < m.head.inputs → ∃ t, exec (.replyTokenDelivery c k) s =
          .next (if hasRoom f.chan t = true then sendToks c.val [t] u else s) ∧
        ((∀ o ∈ f.chan, o.dest ≠ ref ∨ o.port ≠ r.dest.port) → hasRoom f.chan t = true) ∧ t.tag = r.tag ∧ t.kind = .data ∧ t.mask = 0x0003 ∧ t.dest = ref ∧ t.port = r.dest.port ∧
        laneAt t.payload 0 = r.word.setWidth 32 ∧ laneAt t.payload 1 = (r.word >>> 32).setWidth 32)

/-- R37, R324: the watchdog trips after 2^24 idle cycles and not before: the graph is retired with SCHED.HANG, its
token carrying the address of the hang map, which is written where ctx.hang names a page: a header with the entries
found and written, as many as the area holds, and the region's first cluster and size, and 16 bytes for each entry.
The model's choices in it: log 10, 30, 42. -/
def Sys2Proof.Claims.WatchdogRetiresTheGraph : Prop :=
  ∀ (c : CtxId) (s : State), s.ctxWf = true → (s.ctx c.val).live = true →
    let h := (s.ctx c.val).hang.toNat
    ((s.fab c.val).idle < 2 ^ 24 → exec (.watchdogTrip c) s = .next s) ∧
    (2 ^ 24 ≤ (s.fab c.val).idle → (s.seq c.val).h = false →
      (bits h 63 52 = 0 →
        exec (.watchdogTrip c) s = .next (graphTrap c.val 0x0801 0 0 0 (BitVec.ofNat 64 (bits h 47 12 * 2 ^ 12)) s)) ∧
      (∀ (ia pa : Nat → Nat), bits h 63 52 ≠ 0 → s.hbmErr = [] → smWf 0 s.hbm = true →
        let x := s.ctx c.val
        let es := hangEntries s x
        let n := min es.length ((bits h 63 52 * 4096 - 64) / 16)
        (∀ i, i < 8 + 2 * n → x.toIa false true (bits h 47 12 * 2 ^ 12 + 8 * i) = .ok (ia i) ∧ inWindow (ia i) = false ∧
          Maps s (ia i) true (pa i)) →
        (∀ i j, i < 8 + 2 * n → j < 8 + 2 * n → i ≠ j → pa i + 8 ≤ pa j ∨ pa j + 8 ≤ pa i) →
        ∃ u, exec (.watchdogTrip c) s = .next u ∧ (
          let w := fun i => rdBytes u.hbm (pa i) 8;
          w 0 = (es.length + n * 2 ^ 32) % 2 ^ 64 ∧ (x.first < 64 → x.lsize < 7 → w 1 = x.first + x.lsize * 2 ^ 8) ∧
          (∀ i, 2 ≤ i → i < 8 → w i = 0) ∧
          (∀ i e, i < n → es[i]? = some e → w (8 + 2 * i) =
              (e.kind + e.port * 2 ^ 8 + e.node * 2 ^ 16 + e.plane * 2 ^ 24 + (e.cl * 64 + e.pe) * 2 ^ 32) % 2 ^ 64 ∧
            w (9 + 2 * i) = e.tag.toNat + e.source % 2 ^ 32 * 2 ^ 32)) ∧
          ∀ q, (∀ i, i < 8 + 2 * n → q < pa i ∨ pa i + 8 ≤ q) → smGet 0 u.hbm q = smGet 0 s.hbm q) ∧
      ∃ u t, exec (.watchdogTrip c) s = .next u ∧ (u.ctx c.val).st = .retiring ∧ (u.ctx c.val).ending = some t ∧
        (u.seq c.val).cause = 0x0801 ∧ (u.seq c.val).epc = (s.seq c.val).addr &&& 0x3FFFFFFC ∧
        t.kind = 2 ∧ t.code = 0x0801 ∧ t.reason = 0 ∧ t.extra = BitVec.ofNat 64 (bits h 47 12 * 2 ^ 12))

/-- R324: a hang map has its entries in ascending order of cluster, PE, plane, node and port, and names what each
waiting component awaits: the ports of a frame without a token, a firing's slot, last token, barrier phase, ordinal,
sorters or queue room, an index source's root slot or queue room, tokens without a place to wait, and the sequencer's
register. The model's choices in it: log 42. -/
def Sys2Proof.Claims.HangMapNamesTheWaits : Prop :=
  ∀ (s : State) (x : Ctx),
    let es := hangEntries s x
    let f := x.fab
    let key := fun (e : HangEntry) => [e.cl, e.pe, e.plane, e.node, e.port]
    let names := fun (kind port : Nat) (r : NodeRef) (tag : Tag) (source : Nat) =>
      ({ kind := kind, port := port, node := r.slot, plane := r.plane, cl := r.cl, pe := r.pe, tag := tag, source := source } :
        HangEntry) ∈ es
    es.Pairwise (fun a b => ¬ key b < key a) ∧
    (∀ w m p, w ∈ f.waiting → s.nodeImg x w.tok.dest = some m → p ∈ m.portList →
      (∀ v ∈ f.waiting, v.tok.dest = w.tok.dest → v.tok.tag = w.tok.tag → v.tok.port ≠ p) →
      ∃ src, names 1 p w.tok.dest w.tok.tag src ∧
        ∀ r, (s.feeds x).find? (fun e => decide (e.2 = (w.tok.dest, p))) = some (r, (w.tok.dest, p)) → src = r.peer) ∧
    (∀ g q, g ∈ f.firings → g.phase = .waitAlloc → (f.allocs.find? fun q => q.firing == g.id) = some q →
      let i := x.nextSlot q.space q.ring
      names 2 0xFF g.ref (mkTag (x.space q.space).home q.space i (x.slot q.space i).gen) 0) ∧
    (∀ g, g ∈ f.firings →
      (g.phase = .waitFree → names 3 0xFF g.ref g.tag 0) ∧ (g.phase = .waitPairs → names 7 0xFF g.ref g.tag 0) ∧
      (∀ i n, g.phase = .waitPhase i n → names 4 0xFF g.ref g.tag (i / 8192)) ∧
      (∀ m outs, g.phase = .emit outs → s.nodeImg x g.ref = some m →
        ∀ t ∈ outs.flatMap (s.toks x g.ref m), hasRoom f.chan t = false → names 6 t.port g.ref t.tag t.dest.peer) ∧
      (∀ m, g.phase = .waitFence [] → s.nodeImg x g.ref = some m →
        (∀ b, m.last = some (.arriveNode b) → names 4 0xFF g.ref g.tag b.val) ∧
        ∀ t a o sat, m.last = some (.rdcInteger t a o sat) →
          names 5 (match a with | .port p => p.val | _ => 0xFF) g.ref g.tag ((rdcFind s x g).next.getD 0))) ∧
    (∀ p r m, f.period = some p → r ∈ s.sources x → s.nodeImg x r = some m → f.draining = false →
      smGet 0 f.cursors r.key < p.points → x.grant m.head.space 0 0 false none none = none →
      let i := x.nextSlot m.head.space 0
      names 2 0xFF r (mkTag (x.space m.head.space).home m.head.space i (x.slot m.head.space i).gen) 0) ∧
    (∀ t ∈ f.chan, t.kind ≠ .marker → s.waitPlace x t = none → names 8 t.port t.dest t.tag 0) ∧
    (x.seq.phase ≠ .stopped → names 9 0xFF { cl := 0, plane := 0, pe := 0, slot := waitReg s x } 0 0) ∧
    ∀ e ∈ es, 1 ≤ e.kind ∧ e.kind ≤ 9

/-- R256 to R258, R379: an arrive message is recorded once its release is complete; the last one of a phase completes it, and
sends a message to each cluster that holds a participant; the message raises the phases that its cluster has seen. -/
def Sys2Proof.Claims.BarrierPhasesComplete : Prop :=
  (∀ (c : CtxId) (k : Nat) (m : ArriveMsg) (s : State), s.ctxWf = true → (s.ctx c.val).live = true →
    (s.fab c.val).arrives[k]? = some m →
    let f := s.fab c.val
    let b := f.bar m.inst
    let last := ∀ a ∈ b.parts, a = m.agent ∨ a ∈ b.arrived
    (s.depsDone c.val m.deps = false → exec (.barrierArrivalRecord c k) s = .next s) ∧
    (s.depsDone c.val m.deps = true → ∃ u, exec (.barrierArrivalRecord c k) s = .next u ∧
      (u.fab c.val).arrives = f.arrives.eraseIdx k ∧ (u.fab c.val).joined = f.joined ∧ (u.fab c.val).seen = f.seen ∧
      u.sp = s.sp ∧
      (b.parts ≠ [] → last → ((u.fab c.val).bar m.inst).phase = b.phase + 1 ∧ ((u.fab c.val).bar m.inst).arrived = [] ∧
        (∀ a ∈ b.parts, ({ inst := m.inst, cl := agentCl a, phase := b.phase + 1 } : PhaseMsg) ∈ (u.fab c.val).phases)) ∧
      (¬ last → ((u.fab c.val).bar m.inst).phase = b.phase ∧ m.agent ∈ ((u.fab c.val).bar m.inst).arrived ∧
        (u.fab c.val).phases = f.phases))) ∧
  (∀ (c : CtxId) (k : Nat) (m : PhaseMsg) (s : State), s.ctxWf = true → (s.ctx c.val).live = true →
    (s.fab c.val).phases[k]? = some m → smWf 0 (s.fab c.val).seen = true →
    ∃ u, exec (.phaseCompletion c k) s = .next u ∧ (u.fab c.val).phases = (s.fab c.val).phases.eraseIdx k ∧
      (u.fab c.val).bars = (s.fab c.val).bars ∧
      ∀ i, smGet 0 (u.fab c.val).seen i = if i = m.cl * 2 ^ 21 + m.inst then max (smGet 0 (s.fab c.val).seen i) m.phase
        else smGet 0 (s.fab c.val).seen i)

/-- R210, R211: the sorter of a pair's line accepts it where its bin SRAM has room, as a record with the pair's value
and key, in the binding's period; it waits where the SRAM is full and the binding has no spill area. The model's
choices in it: log 37, 40. -/
def Sys2Proof.Claims.SorterAcceptsPairs : Prop :=
  ∀ (c : CtxId) (k ia : Nat) (p : Pair) (b : Binding) (s : State), s.ctxWf = true → (s.ctx c.val).live = true →
    (s.ctx c.val).resuming = false → (s.fab c.val).pairs[k]? = some p → (s.ctx c.val).binding p.handle = some b → b.toIa (b.base + p.offset) = some ia →
    let stack := ia / 2 ^ 11 % 16
    let full := 262144 ≤ (s.recs.filter fun r => decide (r.stack = stack ∧ r.run = 0)).length
    (s.depsDone c.val p.deps = false → exec (.pairAccept c k) s = .next s) ∧
    (s.depsDone c.val p.deps = true → ¬ full → ∃ u r, exec (.pairAccept c k) s = .next u ∧ u.recs = s.recs ++ [r] ∧
      r.ctx = c.val ∧ r.handle = p.handle ∧ r.stack = stack ∧ r.offset = p.offset ∧ r.value = p.value ∧ r.key = p.key ∧
      r.node = p.node ∧ r.lane = p.lane ∧ r.period = b.period - 1 ∧ r.current = true ∧ r.run = 0 ∧ u.hbm = s.hbm ∧
      (∀ q, q ∈ (u.fab c.val).pairs ↔ q ∈ (s.fab c.val).pairs ∧ q.id ≠ p.id)) ∧
    (s.depsDone c.val p.deps = true → full → b.spillsize = 0 →
      (∀ r ∈ s.recs, r.ctx = c.val → r.handle = p.handle → r.stack = stack → r.run = 0) →
      exec (.pairAccept c k) s = .next s)

/-- R214 to R216: an apply of a line folds an element's completed records into its memory value in the order of their keys,
writes it back and frees the records; the operators are those of R215. -/
def Sys2Proof.Claims.SorterAppliesRecords : Prop :=
  (∀ (c : CtxId) (h stack : Fin 16) (b : Binding) (l off ia pa : Nat) (s : State), s.ctxWf = true →
    (s.ctx c.val).binding h.val = some b → doneLines c.val h.val stack.val s.recs = [l] →
    lineOffs c.val h.val l s.recs = [off] → (∀ r ∈ s.recs, r.run = 0 ∧ r.err = 0) →
    b.toIa (b.base + off) = some ia → s.tlbLook ia true = some pa → s.hbmErr = [] →
    smWf 0 (s.ctx c.val).updLines = true →
    let mine := fun (r : Rec) => r.ctx = c.val ∧ r.handle = h.val ∧ r.offset = off ∧ r.current = false
    let rs := s.recs.filter fun r => decide (mine r)
    let v := foldRecs b.op b.type (rdBytes s.hbm pa b.width) rs
    ∃ u, exec (.sorterApply c h stack) s = .next u ∧ u.hbm = wrBytes s.hbm pa v.val b.width ∧ u.sp = s.sp ∧
      (∀ r, r ∈ u.recs ↔ r ∈ s.recs ∧ ¬ mine r) ∧ (u.ctx c.val).flags = (s.ctx c.val).flags ||| v.fl ∧
      smGet 0 (u.ctx c.val).updLines h.val = smGet 0 (s.ctx c.val).updLines h.val + 1) ∧
  (∀ (op type v : Nat) (r : Rec), foldRecs op type v [] = { val := v, fl := fNone } ∧
    (foldRecs op type v [r]).val = (updOp op type v r.value).val) ∧
  (∀ (type v w : Nat), type < 8 → 2 ≤ type % 4 → let t := IntTy.ofCode type
    (updOp 0 type v w).val = (v + w) % 2 ^ IntTy.bits t ∧
    intVal t (updOp 1 type v w).val = min (intVal t v) (intVal t w) ∧
    intVal t (updOp 2 type v w).val = max (intVal t v) (intVal t w) ∧
    (updOp 3 type v w).val = v &&& w ∧ (updOp 4 type v w).val = v ||| w ∧ (updOp 5 type v w).val = v ^^^ w ∧
    (updOp 6 type v w) = fAdd .f32 .rne false 0 v w ∧ (updOp 7 type v w) = fMinMax false .f32 v w ∧
    (updOp 8 type v w) = fMinMax true .f32 v w ∧ (updOp 9 type v w).val = w) ∧
  (∀ (op type v : Nat) (rs qs : List Rec), qs.Perm rs → InOrder qs → foldRecs op type v rs =
    qs.foldl (fun a r => { val := (updOp op type a.val r.value).val, fl := a.fl ||| (updOp op type a.val r.value).fl })
      { val := v, fl := fNone })

/-- R212, R213, R220: a pair that finds its sorter's bin SRAM full has records of its own binding moved to the share
of the spill area, as many as the room holds, lowest keys first, as one new run, or is written alone as a run where
the binding has none in SRAM; the counter of spilled bytes counts them. A full share is compacted first, an element's
records into one with the fold of their values and the highest key; where the operator is fadd or every element has
one record, the pair waits. The model's choices in it: log 37, 40. -/
def Sys2Proof.Claims.SortersSpillAndCompact : Prop :=
  ∀ (c : CtxId) (k ia : Nat) (p : Pair) (b : Binding) (s : State), s.ctxWf = true → (s.ctx c.val).live = true →
    (s.ctx c.val).resuming = false → (s.fab c.val).pairs[k]? = some p → (s.ctx c.val).binding p.handle = some b →
    b.toIa (b.base + p.offset) = some ia → s.depsDone c.val p.deps = true → (∀ r ∈ s.recs, r.err = 0) → s.hbmErr = [] →
    let stack := ia / 2 ^ 11 % 16
    262144 ≤ (s.recs.filter fun r => decide (r.stack = stack ∧ r.run = 0)).length →
    let own := fun (r : Rec) => r.ctx = c.val ∧ r.handle = p.handle ∧ r.stack = stack
    let spilled := s.recs.filter fun r => decide (own r ∧ 0 < r.run)
    let mine := s.recs.filter fun r => decide (own r ∧ r.run = 0)
    let used := spilled.length
    let share := b.spillsize * 128
    let run := exec (.pairAccept c k) s
    (used < share → (∀ slot d, slot < share → d ∈ [0, 8, 16, 24] →
        ∃ j pa, b.toIa (b.spillAddr stack slot) = some j ∧ s.tlbLook (j + d) true = some pa) →
      ∃ u n r, run = .next u ∧ 0 < n ∧ (∀ x ∈ spilled, x.run < n) ∧ u.recs.length = s.recs.length + 1 ∧
        u.recs[s.recs.length]? = some r ∧ own r ∧ r.offset = p.offset ∧ r.value = p.value ∧ r.key = p.key ∧ r.node = p.node ∧
        r.lane = p.lane ∧ r.period = b.period - 1 ∧ r.current = true ∧ r.run = (if mine = [] then n else 0) ∧
        (∀ (i : Nat) x, s.recs[i]? = some x → u.recs[i]? = some x ∨ (own x ∧ x.run = 0 ∧ u.recs[i]? = some { x with run := n })) ∧
        (let moved := fun (i : Nat) => u.recs[i]? ≠ s.recs[i]?;
          ((List.range s.recs.length).filter fun i => decide (moved i)).length = min (share - used) mine.length ∧
          ∀ (i j : Nat) x y, s.recs[i]? = some x → s.recs[j]? = some y → own y → y.run = 0 → moved i → ¬ moved j →
            ¬ recKey y < recKey x) ∧
        (smWf 0 (s.ctx c.val).updSpill = true → smGet 0 (u.ctx c.val).updSpill p.handle =
          smGet 0 (s.ctx c.val).updSpill p.handle + BitVec.ofNat 64 (32 * max 1 (min (share - used) mine.length))) ∧
        ∀ q, q ∈ (u.fab c.val).pairs ↔ q ∈ (s.fab c.val).pairs ∧ q.id ≠ p.id) ∧
    (share ≤ used → (b.op = 6 ∨ (spilled.map (·.offset)).Nodup) → run = .next s) ∧
    (used = share → b.op ≠ 6 → ¬ (spilled.map (·.offset)).Nodup → ∃ t, run = exec (.pairAccept c k) t ∧ t.hbm = s.hbm ∧
      t.tlb = s.tlb ∧ (∀ r, ¬ (own r ∧ 0 < r.run) → (r ∈ t.recs ↔ r ∈ s.recs)) ∧
      ∀ o, (∃ r ∈ spilled, r.offset = o) → ∃ r q qs, (t.recs.filter fun r => decide (own r ∧ 0 < r.run ∧ r.offset = o)) = [r] ∧
        (q :: qs).Perm (spilled.filter fun r => decide (r.offset = o)) ∧ InOrder (q :: qs) ∧
        recKey r = recKey ((q :: qs).getLastD q) ∧
        r.value = qs.foldl (fun v x => (updOp b.op b.type v x.value).val) q.value)

/-- R118, R124, R209, R215, R218, R367: an apply that needs leave waits for it; a sorter that holds leave applies its binding's
completed records and gives its 8 units back as its own apply completes; then every completed record of the bindings is
applied, and an unbind or done releases the bindings with their records. -/
def Sys2Proof.Claims.ApplyCompletes : Prop :=
  ∀ (c : CtxId) (a : Apply) (s : State), (s.ctx c.val).apply = some a → (s.ctx c.val).st = .running →
    let run := exec (.applyCompletion c) s
    let ended := fun (u : State) =>
      let t := u.modCtx c.val fun x => { x with apply := none }
      ((a.why = .flush ∨ a.why = .wrap) → run = .next t) ∧
      ((a.why = .unbind ∨ a.why = .done) → run = .next (releaseBindings c.val a.handles t) ∧
        (∀ r ∈ (releaseBindings c.val a.handles t).recs, r.ctx = c.val → r.handle ∉ a.handles))
    (a.leave = [] → a.waits ≠ [] → run = .next s) ∧
    (∀ n u, a.leave = [] → a.waits = [] → applyBindings c.val a.handles s = .ok n u → ended u) ∧
    (∀ u, a.leave = [] → a.waits = [] → applyBindings c.val a.handles s = .stall u → run = .next u) ∧
    (a.leave = [] → a.waits = [] → s.recs = [] → ended s) ∧
    (∀ (k : Nat) (l : List Nat) (b : Binding), a.leave = k :: l → (s.ctx c.val).binding (k / 16) = some b →
      let done := fun (u : State) => ∃ t, run = .next t ∧ (t.ctx c.val).apply = some { a with leave := l } ∧
        (t.gov (k % 16 % 8)).held = (u.gov (k % 16 % 8)).held - 8 ∧ t.recs = u.recs
      let wf := fun (u : State) => u.ctxWf = true ∧ smWf Gov.reset u.govs = true
      (∀ n u, applyStacks { ctx := c.val, handle := k / 16, b := b } [k % 16] s = .ok n u → wf u → done u) ∧
      (s.recs = [] → wf s → done s))

namespace Sys2Proof.Claims

open Sys2Proof Sys2Proof.Machine

/-- Command `k` with body `b` as it starts: its reply's tag is that of the body for one that its sequencer sent, else that of its
sender (R182, R184). -/
def started (k : Cmd) (b : Nat) : Run := runOf k b (k.rtag (BitVec.ofNat 32 b)) .working (.ok 0)

/-- Idle engine `e` takes command `k` with opcode `op` from the head of its inbox, and its body of `bytes` bytes is read
whole as `b` (R181, R182, R252). -/
def Starts (e : EngRef) (op bytes : Nat) (k : Cmd) (b : Nat) (s s' : State) : Prop :=
  nextCmd e op s = some k ∧ spSpanBad s (s.ctx k.from_.ctx) k.hdr.body bytes = none ∧
    readSpan (s.ctx k.from_.ctx) k.hdr.body bytes (s.setEng e { s.eng e with inbox := (s.eng e).inbox.drop 1 }) = .ok b s'

/-- Engine `e` has command `r` with opcode `op` in progress, of a context whose region goes on (R182, R339). -/
def Holds (e : EngRef) (op : Nat) (r : Run) (s : State) : Prop :=
  (s.eng e).run = some r ∧ r.cmd.hdr.op = op ∧ (s.ctx r.cmd.from_.ctx).performs = true ∧
    (s.ctx r.cmd.from_.ctx).resuming = false

/-- The accesses of command `r` before stage `stage` are done, and have read the bytes `got` (R189). -/
def Reaches (e : EngRef) (op stage : Nat) (got : List Byte) (r : Run) (s : State) : Prop :=
  Holds e op r s ∧ r.phase = .working ∧ r.todo = [] ∧ r.stage = stage ∧ r.got.reverse = got

/-- A press unit holds its leave for command `r` (R206). -/
def HasLeave (e : EngRef) (op : Nat) (r : Run) (s : State) : Prop :=
  Holds e op r s ∧ r.phase = .leaveGranted ∧ r.stage = 2

/-- The engine has done command `r` with an outcome, which its commit will report (R183, R184). -/
def finishes (e : EngRef) (r : Run) (o : CmdOut) (s : State) : Out :=
  .next (s.setRun e { runOf r.cmd r.body r.rtag .finished o with leave := r.leave })

/-- The engine has done the command that it started with an outcome. -/
def ended (e : EngRef) (k : Cmd) (b : Nat) (o : CmdOut) (s : State) : Out := finishes e (started k b) o s

/-- Command `r` goes on to accesses, after which its stage `stage` follows; what it needs then it keeps above its body. -/
def worksOn (e : EngRef) (r : Run) (stage body : Nat) (todo : List Work) (s : State) : Out :=
  .next (s.setRun e { r with phase := .working, stage := stage, body := body, todo := todo.filter fun w => !w.done, got := [] })

/-- MEM.BODY with its reason, reporting the header's low word (R192, R342). -/
def bodyFault (e : EngRef) (r : Run) (reason result : Nat) (s : State) : Out :=
  finishes e r (.bad 0x0206 reason result (r.cmd.raw % 2 ^ 64)) s

/-- R190 to R192: a copy of rows whose ranges meet is MEM.BODY reason 3; the first byte that may not be read or written, or whose
window is not in force or out of reach, is its trap, before any byte is written; else the rows are copied, in their order. -/
def CopiesRows (i : Instr) (e : EngRef) (r : Run) (stage : Nat) (src dst : Plc) (rows : List CopyRow) (s s' : State) : Prop :=
  let bad := rowsBad s' (s'.ctx r.cmd.from_.ctx) e src dst rows
  (rangesMeet src dst rows = true → exec i s = bodyFault e r 3 0 s') ∧
  (∀ f, rangesMeet src dst rows = false → bad = some f → exec i s = finishes e r (.bad f.code 0 0 f.report) s') ∧
  (rangesMeet src dst rows = false → bad = none → exec i s = worksOn e r stage r.body (rows.map fun y =>
    .move (y.src.map fun o => { src with addr := src.addr + o }) { dst with addr := dst.addr + y.dst } y.rd y.wr) s')

/-- A started press command waits for leave at its die's governor (R206). -/
def asksLeave (e : EngRef) (r : Run) (body : Nat) (s : State) : Out :=
  let t := s.setRun e { r with phase := .leaveWait, stage := 2, body := body, todo := [], got := [] }
  let d := e.cluster.val / 8
  .next (t.setGov d ((t.gov d).ask t.cycles (.press e)))

/-- The little-endian value of `n` scratchpad bytes at a nominal address of a context (R190, R318). -/
def spBytes (x : Ctx) (m : SMap Byte) : Nat → Nat → Nat
  | _, 0 => 0
  | a, n + 1 => (smGet 0 m (x.spAddr a)).toNat + 256 * spBytes x m (a + 1) n

/-- `i` is operation `op` of engine `e`, which nothing else of the engine's holds back (R197). -/
def EngineOp (i : Instr) (op : Nat) (e : EngRef) (s : State) : Prop :=
  ∃ (c : Cluster) (n : Fin 16), ((i, op, e) ∈ [(Instr.copyLin c n, 1, engAt .copy c n), (.copy2d c n, 2, engAt .copy c n),
      (.copyRows c n, 3, engAt .copy c n), (.copySeg c n, 4, engAt .copy c n), (.pressMm c n, 1, engAt .press c n),
      (.pressBf c n, 2, engAt .press c n), (.pressRd c n, 3, engAt .press c n), (.maskCls c, 1, engAt .jig c 0)]) ∨
    (i = .gath c n ∧ op = 1 ∧ e = engAt .gather c n ∧ latchInUse c n s = false)

/-- Turns of one instruction, one after another. -/
inductive Turns (i : Instr) : State → State → Prop
  | none (s : State) : Turns i s s
  | more (s t u : State) : exec i s = .next t → Turns i t u → Turns i s u

/-- The value of the `j`-th of consecutive spans of bytes, by their lengths, little-endian. -/
def spanVal (lens : List Nat) (got : List Byte) (j : Nat) : Nat :=
  ofBytes ((got.drop (lens.take j).sum).take (lens.getD j 0))

/-- R195, R201, R202: the stored pattern of element `k` of a row of `K` elements of `w` bits: under 4-of-8 the one of its group's
four that the metadata entry places there; 0 where it is pruned, and at and beyond `K`. -/
def stored (w : Nat) (sparse : Bool) (K data metas k : Nat) : Nat :=
  let e := metas / 65536 ^ (k / 8) % 65536
  let st := fun j => data / 2 ^ ((k / 8 * 4 + j) * w) % 2 ^ w
  if K ≤ k then 0
  else if sparse = false then data / 2 ^ (k * w) % 2 ^ w
  else if e % 8 = k % 8 then st 0
  else if e / 8 % 8 = k % 8 then st 1
  else if e / 64 % 8 = k % 8 then st 2
  else if e / 512 % 8 = k % 8 then st 3
  else 0

/-- No two of these spans, each an address and a number of bytes, meet. -/
def Apart (l : List (Nat × Nat)) : Prop := l.Pairwise fun a b => a.1 + a.2 ≤ b.1 ∨ b.1 + b.2 ≤ a.1

/-- R54: an accumulator after `n` K-blocks of block results `P`, ascending, from `c`; its flags are those of every step. -/
def accumulated (P : Nat → Res Nat) (c : Nat) : Nat → Res Nat
  | 0 => { val := c, fl := fNone }
  | n + 1 =>
    let r := accumulated P c n
    { val := (accStep r.val (P n)).val, fl := r.fl ||| (accStep r.val (P n)).fl }

/-- R54: `r` is the rounded value `x` after flush_if_subnormal. -/
def Flushed (x r : Res Nat) : Prop :=
  let sub := finite .f32 x.val ∧ ratOf .f32 x.val ≠ 0 ∧ |ratOf .f32 x.val| < 2 ^ (-126 : ℤ)
  (sub → r.val = (if signBit .f32 x.val = true then 2 ^ 31 else 0) ∧ r.fl = (x.fl &&& ~~~fUnf) ||| fFlush) ∧
    (¬ sub → r.val = x.val ∧ r.fl = x.fl &&& ~~~fUnf)

/-- R203: values added to +0 one after another, each sum rounded. -/
def summed (vs : List Nat) : Nat := vs.foldl (fun c v => (fAdd .f32 .rne false 0 c v).val) 0

/-- R203: a checksum entry from `c`: block by block, ascending, the rounded sum of the rounded products of its 32 positions is
added, with the flush of an accumulator. -/
def checksum (kb c : Nat) (xs ys : Nat → Nat) : Nat :=
  (List.range kb).foldl (fun c i => (accStep c { val := summed ((List.range 32).map fun q =>
    (fMul .f32 .rne false 0 (xs (32 * i + q)) (ys (32 * i + q))).val), fl := fNone }).val) c

end Sys2Proof.Claims

/-- R189 to R191, R244, R250: a command in progress makes one access a turn, in the order of its work: a byte of a row
read, that byte or a 0 written, a byte of scratchpad read, or an element written there; nothing else changes. A byte
in a window is posted; one without a translation misses. The model's choices in it: log 19, 124. -/
def Sys2Proof.Claims.EngineAccessesTakeATurnEach : Prop :=
  ∀ (i : Instr) (op : Nat) (e : EngRef) (r : Run) (s : State), EngineOp i op e s → Holds e op r s → r.phase = .working →
    s.spErr = [] → s.hbmErr = [] → s.bound = [] →
    let c := r.cmd.from_.ctx
    let x := s.ctx c
    let next := fun (todo : List Work) (got : List Byte) (t : State) =>
      exec i s = .next (t.setRun e { r with todo := todo, got := got })
    let then_ := fun (w : Work) (t : List Work) => if w.done = true then t else w :: t
    let put := fun (p v n : Nat) => ({ s with sp := wrBytes s.sp p v n } : State)
    (∀ a n t, r.todo = .read a n :: t →
      next (then_ (.read (a + 1) (n - 1)) t) (smGet 0 s.sp (x.spAddr a) :: r.got) s) ∧
    (∀ a k n v t, r.todo = .put a k n v :: t → a % 2 ^ 24 + min k n ≤ 2 ^ 24 →
      next (then_ (.put (a + k) k (n - k) (v / 256 ^ k)) t) r.got (put (x.spAddr a) v (min k n))) ∧
    (∀ src dst rd n t, r.todo = .move src dst rd n :: t →
      let rest := then_ (.move (src.map fun p => { p with addr := p.addr + 1 }) { dst with addr := dst.addr + 1 } (rd - 1) (n - 1)) t
      let writes := r.got ≠ [] ∨ src = none ∨ rd = 0
      let v := r.got.headD 0
      (∀ p, ¬ writes → src = some p →
        (p.sp = true → next r.todo [smGet 0 s.sp (x.spAddr p.addr)] s) ∧
        (∀ ia, p.sp = false → globCheck s x true false p.addr = .ok ia → inWindow ia = false →
          (∀ pa, s.tlbLook ia false = some pa → next r.todo [smGet 0 s.hbm pa] s) ∧
          (s.tlbLook ia false = none → exec i s = .next { s with misses := (s.miss (.eng e) ia false).misses }))) ∧
      (writes → dst.sp = true → next rest [] (put (x.spAddr dst.addr) v.toNat 1)) ∧
      (∀ ia, writes → dst.sp = false → x.toIa false true dst.addr = .ok ia →
        (∀ pa, inWindow ia = false → s.tlbLook ia true = some pa → next rest [] { s with hbm := wrBytes s.hbm pa v.toNat 1 }) ∧
        (inWindow ia = false → s.tlbLook ia true = none →
          exec i s = .next { s with misses := (s.miss (.eng e) ia true).misses }) ∧
        (∀ w, inWindow ia = true → windowCheck (e.cluster.val / 8) ia s = .ok w s →
          next rest [] (postNew c (e.cluster.val / 8) ia [v] (srcEng e) s))))

/-- R190, R191, R195: with nothing else between its turns, a command reads its spans byte for byte, and copies a row
within scratchpad, with zeros where it names no bytes, and changes nothing else. The model's choices in it: log 4, 19,
124. -/
def Sys2Proof.Claims.EngineAccessesMoveTheirBytes : Prop :=
  ∀ (i : Instr) (op : Nat) (e : EngRef) (r : Run) (s : State), EngineOp i op e s → Holds e op r s → r.phase = .working →
    s.spErr = [] → r.got = [] → smWf Eng.reset s.engs = true →
    let x := s.ctx r.cmd.from_.ctx
    (∀ spans : List (Nat × Nat), r.todo = (spans.map fun p => Work.read p.1 p.2).filter (fun w => !w.done) →
      ∃ got : List Byte, Turns i s (s.setRun e { r with todo := [], got := got.reverse }) ∧
        got.length = (spans.map Prod.snd).sum ∧
        ∀ j p, spans[j]? = some p → spanVal (spans.map Prod.snd) got j = spBytes x s.sp p.1 p.2) ∧
    (∀ (src : Option Nat) (d rd n : Nat) (t : List Work), 1 ≤ n → rd ≤ n → smWf 0 s.sp = true → x.base = x.first →
      r.todo = .move (src.map fun a => { sp := true, addr := a }) { sp := true, addr := d } rd n :: t →
      (∀ a, src = some a → a + rd ≤ d ∨ d + n ≤ a) →
      ∃ u : State, Turns i s (u.setRun e { r with todo := t }) ∧ u = { s with sp := u.sp } ∧
        (∀ a j, src = some a → j < rd → smGet 0 u.sp (d + j) = smGet 0 s.sp (a + j)) ∧
        (∀ j, (src = none ∨ rd ≤ j) → j < n → smGet 0 u.sp (d + j) = 0) ∧
        ∀ q, (q < d ∨ d + n ≤ q) → smGet 0 u.sp q = smGet 0 s.sp q)

/-- R190 to R192: copy.lin moves n bytes, copy.2d rows of n bytes at two strides, copy.rows the source rows that its
indices name, or zeros where the index names none; a zero size is MEM.BODY reason 1, a zero field or reserved place
bit that is set reason 6, a misaligned index table reason 7. After its last access the command succeeds with result 0.
The model's choices in it: log 19, 45. -/
def Sys2Proof.Claims.CopiesMoveTheirRows : Prop :=
  (∀ (c : Cluster) (n : Fin 16) (k : Cmd) (b : Nat) (s s' : State),
    let e := engAt .copy c n
    let r := started k b
    let len := fld b 4 4
    let rows := fld b 24 4
    (Starts e 1 32 k b s s' →
      (len = 0 → exec (.copyLin c n) s = bodyFault e r 1 0 s') ∧
      (len ≠ 0 → (placeOf (fld b 8 8) = none ∨ placeOf (fld b 16 8) = none ∨ fld b 24 8 ≠ 0) →
        exec (.copyLin c n) s = bodyFault e r 6 0 s') ∧
      (∀ src dst, len ≠ 0 → placeOf (fld b 8 8) = some src → placeOf (fld b 16 8) = some dst → fld b 24 8 = 0 →
        CopiesRows (.copyLin c n) e r 1 src dst [{ src := some 0, dst := 0, rd := len, wr := len }] s s')) ∧
    (Starts e 2 48 k b s s' →
      (len = 0 ∨ rows = 0 → exec (.copy2d c n) s = bodyFault e r 1 0 s') ∧
      (len ≠ 0 → rows ≠ 0 → (placeOf (fld b 8 8) = none ∨ placeOf (fld b 16 8) = none ∨ fld b 28 4 ≠ 0) →
        exec (.copy2d c n) s = bodyFault e r 6 0 s') ∧
      (∀ src dst, len ≠ 0 → rows ≠ 0 → placeOf (fld b 8 8) = some src → placeOf (fld b 16 8) = some dst →
        fld b 28 4 = 0 → CopiesRows (.copy2d c n) e r 1 src dst ((List.range rows).map fun q =>
          { src := some (q * fld b 32 8), dst := q * fld b 40 8, rd := len, wr := len }) s s')) ∧
    (Starts e 3 48 k b s s' →
      (len = 0 ∨ rows = 0 → exec (.copyRows c n) s = bodyFault e r 1 0 s') ∧
      (len ≠ 0 → rows ≠ 0 → (placeOf (fld b 8 8) = none ∨ placeOf (fld b 16 8) = none) →
        exec (.copyRows c n) s = bodyFault e r 6 0 s') ∧
      (∀ src dst, len ≠ 0 → rows ≠ 0 → placeOf (fld b 8 8) = some src → placeOf (fld b 16 8) = some dst →
        let bad := spSpanBad s' (s'.ctx k.from_.ctx) (fld b 28 4) (4 * rows)
        (fld b 28 4 % 4 ≠ 0 → exec (.copyRows c n) s = bodyFault e r 7 0 s') ∧
        (∀ f, fld b 28 4 % 4 = 0 → bad = some f → exec (.copyRows c n) s = finishes e r (.bad f.code 0 0 f.report) s') ∧
        (fld b 28 4 % 4 = 0 → bad = none →
          exec (.copyRows c n) s = worksOn e r 1 b [.read (fld b 28 4) (4 * rows)] s')))) ∧
  (∀ (c : Cluster) (n : Fin 16) (r : Run) (got : List Byte) (s : State),
    let e := engAt .copy c n
    let b := r.body
    let idx := fun i => spanVal (List.replicate (fld b 24 4) 4) got i
    (∀ src dst, Reaches e 3 1 got r s → fld b 4 4 ≠ 0 → fld b 24 4 ≠ 0 → placeOf (fld b 8 8) = some src →
      placeOf (fld b 16 8) = some dst → fld b 28 4 % 4 = 0 →
      CopiesRows (.copyRows c n) e r 2 src dst ((List.range (fld b 24 4)).map fun i =>
        { src := if idx i = 0xFFFFFFFF then none else some (idx i * fld b 32 8), dst := i * fld b 40 8, rd := fld b 4 4,
          wr := fld b 4 4 }) s s) ∧
    (Reaches e 1 1 got r s → exec (.copyLin c n) s = finishes e r (.ok 0) s) ∧
    (Reaches e 2 1 got r s → exec (.copy2d c n) s = finishes e r (.ok 0) s) ∧
    (Reaches e 3 2 got r s → exec (.copyRows c n) s = finishes e r (.ok 0) s))

/-- R192, R193: copy.seg refuses a zero capacity (reason 1), element sizes above 3 (reason 2), a piece length of 0 or
above 4,096 (reason 5) and descending row pointers (reason 4, its result the row); else it copies the pieces of its
rows as virtual rows, each in both streams with its carry entry, its result is their number, and as it commits it
writes where it stopped into its body. The model's choices in it: log 4, 19, 45, 118. -/
def Sys2Proof.Claims.CopySegCutsRowsIntoPieces : Prop :=
  (∀ (c : Cluster) (n : Fin 16) (k : Cmd) (b : Nat) (s s' : State),
    let e := engAt .copy c n
    let m := started k b
    let x := s'.ctx k.from_.ctx
    let vmax := fld b 20 4
    let sa := fld b 6 1
    let sb := fld b 7 1
    let p := fld b 4 2
    let stop := fld b 12 4 + fld b 16 4
    let ct := fld b 56 4
    let ex := exec (.copySeg c n) s
    Starts e 4 64 k b s s' →
    (vmax = 0 → ex = bodyFault e m 1 0 s') ∧
    (vmax ≠ 0 → (3 < sa ∨ (3 < sb ∧ sb ≠ 0xFF)) → ex = bodyFault e m 2 0 s') ∧
    (vmax ≠ 0 → sa ≤ 3 → (sb ≤ 3 ∨ sb = 0xFF) → (p = 0 ∨ 4096 < p) → ex = bodyFault e m 5 0 s') ∧
    ∀ a1 a2 b1 b2, vmax ≠ 0 → sa ≤ 3 → (sb ≤ 3 ∨ sb = 0xFF) → 1 ≤ p → p ≤ 4096 → placeOf (fld b 24 8) = some a1 →
      placeOf (fld b 32 8) = some a2 → placeOf (fld b 40 8) = some b1 → placeOf (fld b 48 8) = some b2 →
      fld b 62 2 = 0 → (sb = 0xFF → fld b 40 8 = 0 ∧ fld b 48 8 = 0) →
      (fld b 8 4 % 4 ≠ 0 ∨ ct % 8 ≠ 0 → ex = bodyFault e m 7 0 s') ∧
      (fld b 8 4 % 4 = 0 → ct % 8 = 0 →
        let pass := segPass x p (fld b 8 4) stop (fld b 16 4 + vmax + 1) (fld b 12 4) (fld b 60 2) vmax s'
        let streams := (2 ^ sa, a1, a2) :: (if sb = 0xFF then [] else [(2 ^ sb, b1, b2)])
        (∀ r u, pass = .descends r u → ex = bodyFault e m 4 r u) ∧
        (∀ ps r j u, pass = .ok ps r j u →
          let rows := fun (t : Nat × Plc × Plc) => ps.zipIdx.map fun y =>
            ({ src := some (y.1.elem * t.1), dst := y.2 * p * t.1, rd := y.1.len * t.1, wr := p * t.1 } : CopyRow)
          let meet := ∃ t ∈ streams, rangesMeet t.2.1 t.2.2 (rows t) = true
          let bad := (streams.findSome? fun t => rowsBad u (u.ctx k.from_.ctx) e t.2.1 t.2.2 (rows t)).or
            (spSpanBad u (u.ctx k.from_.ctx) ct (8 * ps.length))
          (meet → ex = bodyFault e m 3 0 u) ∧
          (∀ f, ¬ meet → bad = some f → ex = finishes e m (.bad f.code 0 0 f.report) u) ∧
          (¬ meet → bad = none → ∃ (body : Nat) (carry : Nat → Nat) (v : State),
            ex = worksOn e m 1 body ((List.range ps.length).flatMap fun i => (streams.map fun t =>
              let y := ps.getD i default
              Work.move (some { t.2.1 with addr := t.2.1.addr + y.elem * t.1 }) { t.2.2 with addr := t.2.2.addr + i * p * t.1 }
                (y.len * t.1) (p * t.1)) ++ [.put (ct + 8 * i) 1 8 (carry i)]) v ∧ v = { u with frees := v.frees } ∧
            body % 256 ^ 64 = b % 256 ^ 64 ∧
            (ps.length < 2 ^ 64 → r < 2 ^ 64 → fld body 64 8 = ps.length ∧ fld body 72 8 = r ∧ (j < 2 ^ 64 → fld body 80 8 = j)) ∧
            ∀ i y, ps[i]? = some y → y.row < 2 ^ 32 → y.piece < 2 ^ 16 →
              carry i = (if y.last = true then 2 ^ 63 else 0) + y.len * 2 ^ 48 + y.piece * 2 ^ 32 + y.row)))) ∧
  (∀ (c : Cluster) (n : Fin 16) (r : Run) (got : List Byte) (s : State),
    let e := engAt .copy c n
    let at_ := r.cmd.hdr.body
    let row := fld r.body 72 8
    Reaches e 4 1 got r s → fld r.body 80 8 < 2 ^ 16 → exec (.copySeg c n) s =
      finishes e r { CmdOut.ok (fld r.body 64 8) with back := [.put (at_ + 12) 1 8 (row % 2 ^ 32 +
        (fld r.body 12 4 + fld r.body 16 4 - row) % 2 ^ 32 * 2 ^ 32), .put (at_ + 60) 1 2 (fld r.body 80 8)] } s) ∧
  (∀ (x : Ctx) (p base stop f r j v : Nat) (s : State), 0 < p →
    let pass := segPass x p base stop (f + 1) r j v s
    (stop ≤ r ∨ v = 0 → pass = .ok [] r j s) ∧
    ∀ a q, r < stop → 0 < v → rowPtr x base r s = .ok (a, s) → rowPtr x base (r + 1) s = .ok (q, s) →
      (q < a → pass = .descends r s) ∧
      (a ≤ q → q - a ≤ j * p → pass = segPass x p base stop f (r + 1) 0 v s) ∧
      (∀ ps r' j' u, a ≤ q → j * p < q - a → segPass x p base stop f r (j + 1) (v - 1) s = .ok ps r' j' u →
        ∃ y : SegPiece, pass = .ok (y :: ps) r' j' u ∧ y.row = r ∧ y.piece = j ∧ y.elem = a + j * p ∧
          y.len = min p (q - a - j * p) ∧ y.last = decide (q - a ≤ (j + 1) * p)))

/-- R192, R194 to R197: gath waits while a press reads its latch, and refuses a field out of range (MEM.BODY reason
8), a misaligned index table (reason 7) and an odd address that must be even (MEM.ALIGN); else it reads its indices
and the mantissas, scales and metadata of each row that one names, and fills the latch with its shape, format and what
it read; a row that none names is zeros, with the entry 0x0F50 for every group under 4-of-8. The model's choices in
it: log 19, 46, 47, 119. -/
def Sys2Proof.Claims.GathFillsTheLatch : Prop :=
  ∀ (c : Cluster) (n : Fin 16) (k : Cmd) (b : Nat) (r : Run) (got : List Byte) (s s' : State),
    let e := engAt .gather c n
    let ex := exec (.gath c n) s
    (latchInUse c n s = true → ex = .next s) ∧
    (latchInUse c n s = false → Starts e 1 32 k b s s' →
      let g := gathBody b
      let m := started k b
      let bad := spSpanBad s' (s'.ctx k.from_.ctx) g.idx (4 * g.m)
      (gathOk b = false → ex = bodyFault e m 8 0 s') ∧
      (gathOk b = true → g.idx % 4 ≠ 0 → ex = bodyFault e m 7 0 s') ∧
      (∀ v, gathOk b = true → g.idx % 4 = 0 → g.odd = some v → ex = finishes e m (.bad 0x0201 0 0 v) s') ∧
      (∀ f, gathOk b = true → g.idx % 4 = 0 → g.odd = none → bad = some f →
        ex = finishes e m (.bad f.code 0 0 f.report) s') ∧
      (gathOk b = true → g.idx % 4 = 0 → g.odd = none → bad = none → ex = worksOn e m 1 b [.read g.idx (4 * g.m)] s')) ∧
    (latchInUse c n s = false → Reaches e 1 1 got r s → got.length = 4 * (gathBody r.body).m →
      let g := gathBody r.body
      let idx := fun i => spanVal (List.replicate g.m 4) got i
      let spans := ((List.range g.m).filter fun i => idx i ≠ 0xFFFFFFFF).flatMap fun i =>
        rowSpans g.ty g.sparse g.kb g.src g.stride g.scales g.metas (idx i)
      let bad := spans.findSome? fun p => spSpanBad s (s.ctx r.cmd.from_.ctx) p.1 p.2
      (∀ f, bad = some f → ex = finishes e r (.bad f.code 0 0 f.report) s) ∧
      (bad = none → ∃ body, ex = worksOn e r 2 body (spans.map fun p => .read p.1 p.2) s ∧
        body % 256 ^ 32 = r.body % 256 ^ 32 ∧ ∀ i, i < g.m → fld body (32 + 4 * i) 4 = idx i)) ∧
    (latchInUse c n s = false → Reaches e 1 2 got r s → gathOk (r.body % 256 ^ 32) = true →
      let g := gathBody r.body
      let idx := fun i => fld r.body (32 + 4 * i) 4
      let data := rowBytes g.ty g.sparse g.kb
      let scales := if g.ty.isSome then 2 * g.kb else 0
      let metas := if g.sparse then 8 * g.kb else 0
      let row := fun i => ((List.range i).filter fun j => idx j ≠ 0xFFFFFFFF).length * (data + scales + metas)
      let value := fun off len => ofBytes ((got.drop off).take len)
      got.length = row g.m → r.body < 256 ^ (32 + 4 * g.m) →
      ∃ t l, ex = finishes e r (.ok g.m) t ∧ t.sp = s.sp ∧ t.hbm = s.hbm ∧ (smWf none s.latches = true →
        smGet none t.latches (c.val * 16 + n.val) = some l ∧
        ∀ q, q ≠ c.val * 16 + n.val → smGet none t.latches q = smGet none s.latches q) ∧
        l.m = g.m ∧ l.kb = g.kb ∧ l.fmt = g.fmt ∧ l.sparse = g.sparse ∧
        ∀ i, i < g.m →
          (idx i = 0xFFFFFFFF → smGet 0 l.data i = 0 ∧ smGet 0 l.scales i = 0 ∧ (g.sparse = false → smGet 0 l.metas i = 0) ∧
            ∀ q, g.sparse = true → q < 4 * g.kb → smGet 0 l.metas i / 65536 ^ q % 65536 = 0x0F50) ∧
          (idx i ≠ 0xFFFFFFFF → smGet 0 l.data i = value (row i) data ∧ smGet 0 l.scales i = value (row i + data) scales ∧
            smGet 0 l.metas i = value (row i + data + scales) metas))

/-- R199, R205, R206: a press command that passes the checks of its body, in the order of R205, waits for leave; a
shape out of range, also of a latch, a format or zero field, a latch that holds another operand, a misaligned field
and an illegal metadata entry end it with their code, the tile in the class field. Metadata in scratchpad is read
first, that of a latch is tested at once, and an uncorrectable word of it is ECC.LATCH with nothing changed. With its
leave, a command reads its operands and its mask. The model's choices in it: log 19, 22, 48, 49, 120. -/
def Sys2Proof.Claims.PressCommandsCheckThenWork : Prop :=
  ∀ (c : Cluster) (n : Fin 16) (k : Cmd) (b : Nat) (r : Run) (got : List Byte) (s s' : State),
    let e := engAt .press c n
    let u := c.val * 16 + n.val
    let m := started k b
    let checks := fun (i : Instr) (op : Nat) (bf : Bool) =>
      let p := pressBody bf b
      let bad := fun (code result report : Nat) => finishes e m { CmdOut.bad code 0 result report with cls := p.tile } s'
      let latch := s'.latch c.val n.val
      let latched := p.latch = true → p.latchOk latch = true
      let pass := p.shapeOk = true ∧ p.fmtOk s' b = true ∧ latched ∧ p.misaligned = none ∧
        p.footprints.findSome? (footBad s' (s'.ctx k.from_.ctx)) = none
      (p.shapeOk = true ↔ 1 ≤ p.m ∧ p.m ≤ 128 ∧ 1 ≤ p.n ∧ p.n ≤ 128 ∧ 1 ≤ p.k ∧ p.k ≤ 65536 ∧
        (p.latch = true → (p.k + 31) / 32 ≤ if bf = true then 8 else 16)) ∧
      (Starts e op 64 k b s s' →
      (p.shapeOk = false → exec i s = bad 0x0602 0 0) ∧
      (p.shapeOk = true → p.fmtOk s' b = false → exec i s = bad 0x0603 0 0) ∧
      (p.shapeOk = true → p.fmtOk s' b = true → ¬ latched → exec i s = bad 0x0604 0 0) ∧
      (∀ v, p.shapeOk = true → p.fmtOk s' b = true → latched → p.misaligned = some v → exec i s = bad 0x0201 0 v) ∧
      (∀ f, p.shapeOk = true → p.fmtOk s' b = true → latched → p.misaligned = none →
        p.footprints.findSome? (footBad s' (s'.ctx k.from_.ctx)) = some f → exec i s = bad f.code 0 f.report) ∧
      (pass → p.sparse = false → exec i s = asksLeave e m b s') ∧
      (pass → p.sparse = true → p.latch = false → exec i s = worksOn e m 1 b [.read p.metas (p.m * p.kb * 8)] s') ∧
      (∀ l, pass → p.sparse = true → p.latch = true → latch = some l →
        let v := (List.range l.m).foldl (fun v i => v + smGet 0 l.metas i * 65536 ^ (i * (4 * p.kb))) 0
        let ecc := latchCheck u l.metaWords s'
        (ecc.1 = true → ∃ rep, exec i s = finishes e m { CmdOut.bad 0x0B05 0 0 rep with cls := p.tile } ecc.2) ∧
        (∀ y, ecc.1 = false → metaBad (p.m * (4 * p.kb)) v = some y →
          exec i s = finishes e m { CmdOut.bad 0x0601 0 y y with cls := p.tile } ecc.2) ∧
        (ecc.1 = false → metaBad (p.m * (4 * p.kb)) v = none → exec i s = asksLeave e m (b % 256 ^ 64 + v * 256 ^ 64) ecc.2))) ∧
      (∀ y, Reaches e op 1 got r s → metaBad ((pressBody bf r.body).m * (4 * (pressBody bf r.body).kb)) (ofBytes got) = some y →
        exec i s = finishes e r { CmdOut.bad 0x0601 0 y y with cls := (pressBody bf r.body).tile } s) ∧
      (Reaches e op 1 got r s → metaBad ((pressBody bf r.body).m * (4 * (pressBody bf r.body).kb)) (ofBytes got) = none →
        exec i s = asksLeave e r (r.body % 256 ^ 64 + ofBytes got * 256 ^ 64) s) ∧
      (HasLeave e op r s →
        let p := pressBody bf r.body
        (bf = false → p.fa ≤ 6 ∧ p.fb ≤ 6) → exec i s = worksOn e r 3 r.body (((if p.latch then [] else ((List.range p.m).map fun q =>
            (p.a + q * p.astride, rowBytes p.ta p.sparse p.kb)) ++ if bf then [] else [(p.ascales, p.m * p.kb * 2)]) ++
          ((List.range p.n).map fun q => (p.b + q * p.bstride, rowBytes p.tb false p.kb)) ++
          (if bf then [] else [(p.bscales, p.n * p.kb * 2)]) ++ if p.emask = 0 then [] else [(p.emask, 16 * p.m)]).map fun y =>
            .read y.1 y.2) s)
    checks (.pressMm c n) 1 false ∧ checks (.pressBf c n) 2 true

/-- R200, R201, R203, R205: the result of a press command: each element that the mask keeps becomes the accumulation of its row
and column over the K-blocks, from its old value or, with ovw, from 0; one that it does not keep becomes the fill with ovw and
stays without; every other element of every tile stays. With cks, the checksum row and column of its N columns and M rows are
formed from the sums of the operands' values, and every other entry stays. The result word packs M, N, K mod 32 and cks. -/
def Sys2Proof.Claims.PressResultFillsTheTile : Prop :=
  ∀ (u : Nat) (p : PressBody) (as bs : List Vec) (mask : Nat) (o : CmdOut) (s t : State), smWf 0 s.acc = true →
    smWf 0 s.csrow = true → smWf 0 s.cscol = true →
    as.length ≤ 128 → bs.length ≤ 128 → p.tile ≤ 1 → pressResult u p as bs mask s = .fin o t →
    let place := fun m n => (u * 2 + p.tile) * 16384 + m * 128 + n
    let entry := fun i => (u * 2 + p.tile) * 128 + i
    let old := fun m n => if p.ovw then 0 else (smGet 0 s.acc (place m n)).toNat
    let kept := fun m n => p.emask = 0 ∨ mask.testBit (128 * m + n) = true
    let sA := fun k => summed (as.map fun a => Vec.val p.ta a k)
    let sB := fun k => summed (bs.map fun b => Vec.val p.tb b k)
    let from_ := fun (m : SMap (BitVec 32)) i => if p.ovw then 0 else (smGet 0 m (entry i)).toNat
    o.code = 0 ∧ o.cls = p.tile ∧
    o.result = (if p.cks then 2 ^ 21 else 0) + p.k % 32 * 2 ^ 16 + p.n * 2 ^ 8 + p.m ∧ t.sp = s.sp ∧ t.hbm = s.hbm ∧
    (∀ m n a b, as[m]? = some a → bs[n]? = some b →
      (kept m n → smGet 0 t.acc (place m n) = BitVec.ofNat 32 (accum p.ta p.tb a b (old m n) p.kb).val) ∧
      (¬ kept m n → smGet 0 t.acc (place m n) = if p.ovw then BitVec.ofNat 32 p.fill else smGet 0 s.acc (place m n))) ∧
    (∀ q, (∀ m n, m < as.length → n < bs.length → q ≠ place m n) → smGet 0 t.acc q = smGet 0 s.acc q) ∧
    (p.cks = false → t.csrow = s.csrow ∧ t.cscol = s.cscol) ∧
    (p.cks = true →
      (∀ n b, bs[n]? = some b → smGet 0 t.csrow (entry n) =
        BitVec.ofNat 32 (checksum p.kb (from_ s.csrow n) sA (Vec.val p.tb b))) ∧
      (∀ m a, as[m]? = some a → smGet 0 t.cscol (entry m) =
        BitVec.ofNat 32 (checksum p.kb (from_ s.cscol m) (Vec.val p.ta a) sB)) ∧
      (∀ q, (q < entry 0 ∨ entry bs.length ≤ q) → smGet 0 t.csrow q = smGet 0 s.csrow q) ∧
      (∀ q, (q < entry 0 ∨ entry as.length ≤ q) → smGet 0 t.cscol q = smGet 0 s.cscol q))

/-- R43, R55, R203: the value of an operand element that a checksum takes: 0 at a position that holds none, the BF16 pattern
widened, and of a block element the exact value under its scale, as binary32; a NaN block gives the canonical NaN and a zero
block 0. -/
def Sys2Proof.Claims.ChecksumsTakeElementValues : Prop :=
  ∀ (t : OpFmt) (v : Vec) (k e : Nat),
    let sc := v.scales / 65536 ^ (k / 32) % 65536
    ((v.elems[k]? = none ∨ v.elems[k]? = some none) → Vec.val t v k = 0) ∧
    (v.elems[k]? = some (some e) → (t = none → Vec.val t v k = e * 65536) ∧
      ∀ b, t = some b → (scaleE sc = 255 → Vec.val t v k = fNaN .f32) ∧
        (scaleE sc = 0 ∨ (scaleE sc ≠ 255 ∧ blkRat b sc e = 0) → Vec.val t v k = 0) ∧
        (0 < scaleE sc → scaleE sc < 255 → blkRat b sc e ≠ 0 →
          ∃ x, RoundsTo .f32 .rne false 0 (blkRat b sc e) x ∧ Vec.val t v k = x.val))

/-- R43, R54, R55: a block result is NaN where a block is a NaN block, +0 where one is a zero block, and else the exact sum of the
products under both scales, rounded once and flushed; in element-exponent mode a NaN product, infinity times zero or infinite
products of both signs give NaN, infinite ones of one sign that infinity, and else the exact sum rounded once and flushed; an
accumulator takes a block result by one flushed addition. -/
def Sys2Proof.Claims.BlockResultsAreRoundedOnce : Prop :=
  (∀ (ta tb : BlkTy) (sa sb : Nat) (S : Int), sa < 2 ^ 16 → sb < 2 ^ 16 →
    let r := blockP ta tb sa sb S
    let v : ℚ := S * (256 + scaleF sa : Nat) * (256 + scaleF sb : Nat) *
      2 ^ (scaleE sa + scaleE sb - 254 - 16 - (BlkTy.w ta - 1) - (BlkTy.w tb - 1) : ℤ)
    let live := scaleE sa ≠ 255 ∧ scaleE sb ≠ 255 ∧ scaleE sa ≠ 0 ∧ scaleE sb ≠ 0
    (scaleE sa = 255 ∨ scaleE sb = 255 → r.val = fNaN .f32 ∧ r.fl = fNone) ∧
    (scaleE sa ≠ 255 → scaleE sb ≠ 255 → scaleE sa = 0 ∨ scaleE sb = 0 → r.val = 0 ∧ r.fl = fNone) ∧
    (live → S = 0 → r.val = 0 ∧ r.fl = fNone) ∧
    (live → S ≠ 0 → ∃ x, RoundsTo .f32 .rne false 0 v x ∧ Flushed x r)) ∧
  (∀ (acc : Nat) (p : Res Nat), acc < 2 ^ 32 → p.val < 2 ^ 32 → ∃ r, Flushed (fAdd .f32 .rne false 0 acc p.val) r ∧
    accStep acc p = { val := r.val, fl := r.fl ||| p.fl }) ∧
  (∀ (ps : List (Nat × Nat)), (∀ p ∈ ps, p.1 < 2 ^ 16 ∧ p.2 < 2 ^ 16) →
    let r := bfP ps
    let nan := fun (b : Nat) => expField .b16 b = 2 ^ FltTy.exp .b16 - 1 ∧ b % 2 ^ FltTy.frac .b16 ≠ 0
    let snan := fun (b : Nat) => nan b ∧ b % 2 ^ FltTy.frac .b16 < 2 ^ (FltTy.frac .b16 - 1)
    let infinity := fun (b : Nat) => expField .b16 b = 2 ^ FltTy.exp .b16 - 1 ∧ b % 2 ^ FltTy.frac .b16 = 0
    let zero := fun (b : Nat) => b % 2 ^ 15 = 0
    let infProd := fun (p : Nat × Nat) => (infinity p.1 ∧ ¬ nan p.2 ∧ ¬ zero p.2) ∨ (infinity p.2 ∧ ¬ nan p.1 ∧ ¬ zero p.1)
    let sign := fun (p : Nat × Nat) => xor (signBit .b16 p.1) (signBit .b16 p.2)
    let both := (∃ p ∈ ps, infProd p ∧ sign p = true) ∧ ∃ p ∈ ps, infProd p ∧ sign p = false
    let invalid := both ∨ ∃ p ∈ ps, (infinity p.1 ∧ zero p.2) ∨ (infinity p.2 ∧ zero p.1)
    let anyNan := ∃ p ∈ ps, nan p.1 ∨ nan p.2
    let anySnan := ∃ p ∈ ps, snan p.1 ∨ snan p.2
    let sum : ℚ := (ps.map fun p => ratOf .b16 p.1 * ratOf .b16 p.2).sum
    (anyNan ∨ invalid → r.val = fNaN .f32) ∧ (anySnan ∨ invalid → r.fl = fInv) ∧
    (anyNan → ¬ anySnan → ¬ invalid → r.fl = fNone) ∧
    (∀ p ∈ ps, ¬ anyNan → ¬ invalid → infProd p → r.val = fInf .f32 (sign p) ∧ r.fl = fNone) ∧
    ((∀ p ∈ ps, finite .b16 p.1 ∧ finite .b16 p.2) → (sum = 0 → r.val = 0 ∧ r.fl = fNone) ∧
      (sum ≠ 0 → ∃ x, RoundsTo .f32 .rne false 0 sum x ∧ Flushed x r)))

/-- R195, R199 to R204: a press command that has read its operands multiplies them, or its latch's rows and operand B,
into its tile: each element that its mask keeps is the accumulation of the K-blocks of its row and column from its old
value or, with ovw, from 0; one that it does not keep becomes the fill with ovw and stays without; every other element
of every tile stays. The result word packs M, N, K mod 32 and cks; without a checksum the command's flags are those of
the elements kept. The model's choices in it: log 19. -/
def Sys2Proof.Claims.PressMultipliesIntoItsTile : Prop :=
  ∀ (bf : Bool) (c : Cluster) (n : Fin 16) (r : Run) (got : List Byte) (s : State),
    Reaches (engAt .press c n) (if bf then 2 else 1) 3 got r s → smWf 0 s.acc = true → s.latchErr = [] →
    let e := engAt .press c n
    let p := pressBody bf r.body
    let w := fun (t : OpFmt) => match t with | some b => BlkTy.w b | none => 16
    let row := fun (t : OpFmt) (sparse : Bool) => p.kb * (if sparse then 2 else 4) * w t
    let spans := fun (q bytes : Nat) => List.replicate q bytes ++ if bf then [] else [q * p.kb * 2]
    let lens := (if p.latch then [] else spans p.m (row p.ta p.sparse)) ++ spans p.n (row p.tb false) ++
      if p.emask = 0 then [] else [16 * p.m]
    let value := spanVal lens got
    let count := fun (q : Nat) => if bf then q else q + 1
    let na := if p.latch then 0 else count p.m
    let place := fun i j => ((c.val * 16 + n.val) * 2 + p.tile) * 16384 + i * 128 + j
    1 ≤ p.m → p.m ≤ 128 → 1 ≤ p.n → p.n ≤ 128 → (bf = false → p.fa ≤ 6 ∧ p.fb ≤ 6) → got.length = lens.sum →
    ∀ l : Latch, (p.latch = true → s.latch c.val n.val = some l) →
    let dataA := fun i => if p.latch = true then smGet 0 l.data i else value i
    let scaleA := fun i b => (if p.latch = true then smGet 0 l.scales i / 65536 ^ b
      else value p.m / 65536 ^ (i * p.kb + b)) % 65536
    let scaleB := fun j b => value (na + p.n) / 65536 ^ (j * p.kb + b) % 65536
    let A := fun i k => stored (w p.ta) p.sparse p.k (dataA i) (r.body / 256 ^ 64 / 65536 ^ (i * 4 * p.kb)) k
    let B := fun j k => stored (w p.tb) false p.k (value (na + j)) 0 k
    let block := fun i j b => match p.ta, p.tb with
      | some ta, some tb => blockP ta tb (scaleA i b) (scaleB j b) ((List.range 32).map fun q =>
          mantOf (BlkTy.w ta) (A i (32 * b + q)) * mantOf (BlkTy.w tb) (B j (32 * b + q))).sum
      | _, _ => bfP ((List.range 32).map fun q => (A i (32 * b + q), B j (32 * b + q)))
    let old := fun i j => if p.ovw = true then 0 else (smGet 0 s.acc (place i j)).toNat
    let res := fun i j => accumulated (block i j) (old i j) p.kb
    let kept := fun i j => p.emask = 0 ∨ (value (na + count p.n)).testBit (128 * i + j) = true
    ∃ t o, exec (if bf then .pressBf c n else .pressMm c n) s = finishes e r o t ∧ o.code = 0 ∧ o.cls = p.tile ∧
      o.result = (if p.cks then 2 ^ 21 else 0) + p.k % 32 * 2 ^ 16 + p.n * 2 ^ 8 + p.m ∧ t.sp = s.sp ∧ t.hbm = s.hbm ∧
      (∀ i j, i < p.m → j < p.n →
        (kept i j → smGet 0 t.acc (place i j) = BitVec.ofNat 32 (res i j).val) ∧
        (¬ kept i j → smGet 0 t.acc (place i j) =
          if p.ovw = true then BitVec.ofNat 32 p.fill else smGet 0 s.acc (place i j))) ∧
      (∀ q, (∀ i j, i < p.m → j < p.n → q ≠ place i j) → smGet 0 t.acc q = smGet 0 s.acc q) ∧
      (p.cks = false → ∀ f, o.flags.getLsbD f = true ↔ ∃ i j, i < p.m ∧ j < p.n ∧ kept i j ∧ (res i j).fl.getLsbD f = true)

/-- R205 to R207: press.rd with a shape out of range, a format or zero field, or a field that is not 4-byte aligned
ends with its code; one that passes its checks waits for leave; with it, the elements of its tile are written out row
by row, four bytes each, and with cks its checksum row and column behind them; what was read with clr is then 0. The
model's choices in it: log 19. -/
def Sys2Proof.Claims.PressReadsOutItsTile : Prop :=
  ∀ (c : Cluster) (n : Fin 16) (k : Cmd) (b : Nat) (r : Run) (got : List Byte) (s s' : State),
    let e := engAt .press c n
    let u := c.val * 16 + n.val
    let ex := exec (.pressRd c n) s
    (Starts e 3 32 k b s s' →
      let p := readBody b
      let m := started k b
      let bad := fun (code report : Nat) => finishes e m { CmdOut.bad code 0 0 report with cls := p.tile } s'
      let shape := 1 ≤ p.m ∧ p.m ≤ 128 ∧ 1 ≤ p.n ∧ p.n ≤ 128
      let fmt := fld b 4 1 < 8 ∧ fld b 5 3 = 0 ∧ fld b 24 8 = 0 ∧ (p.cks = false → p.cdst = 0) ∧
        (p.cks = true → s'.masked 3 = false)
      let foot := [(List.range p.m).map fun i => (p.dst + i * p.dstride, 4 * p.n),
        if p.cks then [(p.cdst, 4 * (p.n + p.m))] else []].findSome? (footBad s' (s'.ctx k.from_.ctx))
      (¬ shape → ex = bad 0x0602 0) ∧ (shape → ¬ fmt → ex = bad 0x0603 0) ∧
      (shape → fmt → p.dst % 4 ≠ 0 → ex = bad 0x0201 p.dst) ∧
      (shape → fmt → p.dst % 4 = 0 → p.dstride % 4 ≠ 0 → ex = bad 0x0201 p.dstride) ∧
      (shape → fmt → p.dst % 4 = 0 → p.dstride % 4 = 0 → p.cdst % 4 ≠ 0 → ex = bad 0x0201 p.cdst) ∧
      (∀ f, shape → fmt → p.dst % 4 = 0 → p.dstride % 4 = 0 → p.cdst % 4 = 0 → foot = some f → ex = bad f.code f.report) ∧
      (shape → fmt → p.dst % 4 = 0 → p.dstride % 4 = 0 → p.cdst % 4 = 0 → foot = none → ex = asksLeave e m b s')) ∧
    (let p := readBody r.body
      let tile := fun i j => (u * 2 + p.tile) * 16384 + i * 128 + j
      let entry := fun i => (u * 2 + p.tile) * 128 + i
      (HasLeave e 3 r s → ∃ (row : Nat → Nat) (ends : Nat), ex = worksOn e r 3 r.body
          (((List.range p.m).map fun i => .put (p.dst + i * p.dstride) 4 (4 * p.n) (row i)) ++
            if p.cks then [.put p.cdst 4 (4 * (p.n + p.m)) ends] else []) s ∧
        (∀ i j, j < p.n → row i / 2 ^ (32 * j) % 2 ^ 32 = (smGet 0 s.acc (tile i j)).toNat) ∧
        (∀ j, j < p.n → ends / 2 ^ (32 * j) % 2 ^ 32 = (smGet 0 s.csrow (entry j)).toNat) ∧
        (∀ i, i < p.m → ends / 2 ^ (32 * (p.n + i)) % 2 ^ 32 = (smGet 0 s.cscol (entry i)).toNat)) ∧
      (Reaches e 3 3 got r s → ∃ t o, ex = finishes e r o t ∧ o.code = 0 ∧ o.result = 0 ∧ o.cls = p.tile ∧ t.sp = s.sp ∧
        (p.clr = false → t = s) ∧
        (p.clr = true → p.m ≤ 128 → p.n ≤ 128 → smWf 0 s.acc = true → smWf 0 s.csrow = true → smWf 0 s.cscol = true →
          (∀ i j, i < p.m → j < p.n → smGet 0 t.acc (tile i j) = 0) ∧
          (∀ q, (∀ i j, i < p.m → j < p.n → q ≠ tile i j) → smGet 0 t.acc q = smGet 0 s.acc q) ∧
          (p.cks = false → t.csrow = s.csrow ∧ t.cscol = s.cscol) ∧
          (p.cks = true → ∀ q, smGet 0 t.csrow q = (if entry 0 ≤ q ∧ q < entry p.n then 0 else smGet 0 s.csrow q) ∧
            smGet 0 t.cscol q = if entry 0 ≤ q ∧ q < entry p.m then 0 else smGet 0 s.cscol q))))

/-- R222, R228, R231 to R234, R237: mask.cls refuses a faulty body with MASK.BAD, its reason and index; it reads its
boundary table; a command whose partial tiles exceed the mask capacity is MASK.FULL with their number and writes
nothing; else it writes the class map, two bits a tile, the list of the tiles that are not empty, each partial one
with its mask's address, and the exact masks of the partial tiles, and its result is the number of listed tiles. The
model's choices in it: log 19. -/
def Obligations.MaskClsClassifiesTiles : Prop :=
  ∀ (c : Cluster) (k : Cmd) (b : Nat) (m : Run) (got : List Byte) (s s' : State),
    let e := engAt .jig c 0
    let ex := exec (.maskCls c) s
    let starting := Starts e 1 128 k b s s' ∧ m = started k b
    let going := Reaches e 1 1 got m s ∧ s' = s
    (starting ∨ going →
      let b := m.body
      let x := s'.ctx m.cmd.from_.ctx
      let p := maskBody b
      let bad := fun (reason index : Nat) => ex = finishes e m (.bad 0x0701 reason index index) s'
      let start := fun i => spanVal (List.replicate p.nb 4) got i
      let starts := (List.range p.nb).map start
      let sound := 1 ≤ p.plen ∧ p.plen ≤ 16 ∧ progBad p.plen 0 0 p.words = none ∧ constBad p.consts = none ∧ p.nb ≤ 4096
      (starting → (p.plen = 0 ∨ 16 < p.plen → bad 5 p.plen) ∧
        (1 ≤ p.plen → p.plen ≤ 16 → (∀ f, progBad p.plen 0 0 p.words = some f → bad f.1 f.2) ∧
          (progBad p.plen 0 0 p.words = none → (∀ i, constBad p.consts = some i → bad 8 i) ∧
            (constBad p.consts = none → 4096 < p.nb → bad 9 p.nb))) ∧
        (∀ f, sound → p.nb ≠ 0 → areaBad s' x p.btab (4 * p.nb) 4 = some f →
          ex = finishes e m (.bad f.code 0 0 f.report) s') ∧
        (sound → p.nb ≠ 0 → areaBad s' x p.btab (4 * p.nb) 4 = none → ex = worksOn e m 1 b [.read p.btab (4 * p.nb)] s')) ∧
      ((starting ∧ sound ∧ p.nb = 0) ∨ going →
        (∀ i, startBad starts = some i → bad 9 i) ∧
        (startBad starts = none →
          let j : MaskJob := { p := p, starts := starts, ws := p.words.filterMap decodeMask }
          let n := p.ni * p.nj
          let cls := fun t => triRun (j.span (t / p.nj) (t % p.nj)) j.const j.ws
          let number := fun (z : Tri) t => ((List.range t).filter fun i => decide (cls i = z)).length
          let parts := number .u n
          let listed := fun t => number .u t + number .t t
          let maskAt := fun t => p.mbase + number .u t * (p.t * 16)
          let areas := ((areaBad s' x p.cmap ((n + 3) / 4) 4).or (areaBad s' x p.list (8 * n) 8)).or
            (areaBad s' x p.mbase (p.mcap * (p.t * 16)) 16)
          (p.geomOk = false → bad 10 0) ∧
          (∀ i, p.geomOk = true → zeroBad b p.nb = some i → bad 11 i) ∧
          (∀ f, p.geomOk = true → zeroBad b p.nb = none → areas = some f → ex = finishes e m (.bad f.code 0 0 f.report) s') ∧
          (p.geomOk = true → zeroBad b p.nb = none → areas = none →
            (p.mcap < parts → ex = finishes e m (.bad 0x0702 0 parts parts) s') ∧
            (parts ≤ p.mcap → ∃ (body cmap list : Nat) (masks : Nat → Nat), ex = worksOn e m 2 body
                ([.put p.cmap 1 ((n + 3) / 4) cmap, .put p.list 1 (8 * listed n) list] ++
                  ((List.range n).filter fun t => decide (cls t = .u)).map fun t => .put (maskAt t) 1 (p.t * 16) (masks t)) s' ∧
              body % 256 ^ 128 = b % 256 ^ 128 ∧ (∀ i, i < p.nb → start i < 2 ^ 32 → fld body (128 + 4 * i) 4 = start i) ∧
              ∀ t, t < n → cmap / 4 ^ t % 4 = (match cls t with | .f => 0 | .u => 1 | .t => 2) ∧
                (cls t ≠ .f → list / 2 ^ (64 * listed t) % 2 ^ 64 = t / p.nj * 2 ^ 48 + t % p.nj * 2 ^ 32 +
                  (if cls t = .t then 2 ^ 31 else 2 ^ 30 + maskAt t % 2 ^ 30)) ∧
                (cls t = .u → ∀ y q, y < p.t → q < 128 →
                  let row := t / p.nj * p.t + y
                  let col := t % p.nj * p.t + q
                  let elem : Elem := { q := (p.qbase + row : Nat), k := (p.kbase + col : Nat),
                                       dq := docOf starts (p.qbase + row), dk := docOf starts (p.kbase + col) }
                  (masks t).testBit (128 * y + q) =
                    (decide (row < p.lq ∧ q < p.t ∧ col < p.lk) && elemRun elem j.const j.ws)))))) ) ∧
    (Reaches e 1 2 got m s →
      let p := maskBody m.body
      let starts := (List.range p.nb).map fun i => fld m.body (128 + 4 * i) 4
      let j : MaskJob := { p := p, starts := starts, ws := p.words.filterMap decodeMask }
      let number := fun (z : Tri) => ((List.range (p.ni * p.nj)).filter fun t =>
        decide (triRun (j.span (t / p.nj) (t % p.nj)) j.const j.ws = z)).length
      ∃ o, ex = finishes e m o s ∧ o.code = 0 ∧ o.result = number .u + number .t ∧
        o.counts = [number .t, number .u, number .f, number .f * p.sbytes])

/-- R227, R229, R230: the class of a tile is sound: where the program's value over a tile is full every element of the tile is
in the exact mask, and where it is empty none is. -/
def Obligations.MaskClassesAreSound : Prop :=
  ∀ (starts : List Nat) (c : Fin 8 → Int) (ws : List MaskWord) (qlo qhi klo khi q k : Nat), qlo ≤ q → q ≤ qhi → klo ≤ k →
    k ≤ khi →
    let d := docOf starts
    let tile : Span := { qlo := qlo, qhi := qhi, klo := klo, khi := khi, dqlo := d qlo, dqhi := d qhi, dklo := d klo,
                         dkhi := d khi }
    let elem : Elem := { q := q, k := k, dq := d q, dk := d k }
    (triRun tile c ws = .t → elemRun elem c ws = true) ∧ (triRun tile c ws = .f → elemRun elem c ws = false)

/-- R181, R206, R218, R367 to R369: an inbox with fewer than 8 headers accepts the one that waited first; a die's governor
grants its earliest request when its pool, halved while throttled, holds the units, at most one in a cycle, and none while
grants are stopped; requests of one cycle stand presses before sorters, each in ascending order, and are granted once their cycle
is over. -/
def Sys2Proof.Claims.InboxesAndLeave : Prop :=
  (∀ (e : EngRef) (k : Cmd) (l : List Cmd) (s : State), (s.eng e).waiting = k :: l →
    ((s.eng e).inbox.length < 8 → (s.ctx k.from_.ctx).live = true → (s.ctx k.from_.ctx).resuming = false →
      exec (.inboxAccept e) s = .next (s.setEng e { s.eng e with waiting := l, inbox := (s.eng e).inbox ++ [k] })) ∧
    (8 ≤ (s.eng e).inbox.length → exec (.inboxAccept e) s = .next s)) ∧
  (∀ (g : Gov) (w : Nat) (r : LeaveReq), (∀ y ∈ g.queue, y.1 ≤ w) →
    ∃ a b, (g.ask w r).queue = a ++ (w, r) :: b ∧ a.Sublist g.queue ∧ b.Sublist g.queue ∧
      (∀ y, y ∈ g.queue ↔ y ∈ a ∨ y ∈ b) ∧
      (∀ y ∈ a, y.1 < w ∨ y.2.rank ≤ r.rank) ∧ ∀ y ∈ b, y.1 = w ∧ r.rank < y.2.rank) ∧
  (∀ (e : EngRef) (c h st : Nat), st < 16 → (LeaveReq.press e).rank = e.cluster.val * 16 + e.unit.val ∧
    (LeaveReq.press e).rank < (LeaveReq.sorter c h st).rank ∧ (LeaveReq.sorter c h st).rank = 1024 + st) ∧
  (∀ (d : Die) (w : Nat) (r : LeaveReq) (l : List (Nat × LeaveReq)) (s : State), (s.gov d.val).queue = (w, r) :: l →
    let g := s.gov d.val
    let units := match r with
      | .press _ => 1
      | .sorter _ _ _ => 8
    let pool := if g.halved then g.pool / 2 else g.pool
    (s.cycles ≤ w ∨ g.stopped = true ∨ pool < g.held + units ∨ s.cycles < g.last → exec (.leaveGrant d) s = .next s) ∧
    (w < s.cycles → g.stopped = false → g.held + units ≤ pool → g.last ≤ s.cycles → ∃ t, exec (.leaveGrant d) s = .next t ∧
      t.sp = s.sp ∧ t.hbm = s.hbm ∧ (smWf Gov.reset s.govs = true → (t.gov d.val).held = g.held + units ∧
        (t.gov d.val).queue = l ∧ (t.gov d.val).last = s.cycles + 1 ∧ (t.gov d.val).grants = g.grants + 1) ∧
      (∀ e, r = .press e → smWf Eng.reset s.engs = true →
        ∀ x, (s.eng e).run = some x → (t.eng e).run = some { x with phase := .leaveGranted, leave := true }) ∧
      (∀ c h st a, r = .sorter c h st → (s.ctx c).apply = some a → s.ctxWf = true →
        (t.ctx c).apply = some { a with waits := a.waits.erase (h * 16 + st), leave := a.leave ++ [h * 16 + st] })))

/-- R108, R110, R183 to R188, R193, R237: a finished command commits once its release is performed and, where it names a
follow-on, its engine holds none: what it writes back into its body is written, its engine is free, its status
word counts the commit and shows its outcome, its flags are merged and its leave goes back. A reply goes to the register of
its send, or to its node port with the tag of its command; the fault of a chain that a sequencer began is held for the
register, and that of a node's chain is raised at once. -/
def Sys2Proof.Claims.CommitReportsTheOutcome : Prop :=
  ∀ (e : EngRef) (r : Run) (s : State), s.ctxWf = true → smWf Eng.reset s.engs = true → (s.eng e).run = some r →
    (e.cls ≠ .press ∨ s.fiCtl.getLsbD 63 = false) →
    let k := r.cmd.from_
    let x := s.ctx k.ctx
    let held := (s.eng e).follow ≠ none ∧ r.cmd.hdr.next ≠ 0
    x.live = true →
    (r.phase ≠ .finished ∨ s.relDone r = false ∨ held → exec (.commitPoint e) s = .next s) ∧
    (∀ a v b w, r.phase = .finished → s.relDone r = true → r.cmd.hdr.next = 0 → s.spErr = [] → r.code = 0 →
      r.back = [.put a 1 8 v, .put b 1 2 w] → a % 2 ^ 24 + 8 ≤ 2 ^ 24 → b % 2 ^ 24 + 2 ≤ 2 ^ 24 →
      ∃ u, exec (.commitPoint e) s = .next u ∧ (u.eng e).run = none ∧ (u.eng e).commits = (s.eng e).commits + 1 ∧
        u.sp = wrBytes (wrBytes s.sp (x.spAddr a) v 8) (x.spAddr b) w 2 ∧ u.hbm = s.hbm) ∧
    (r.phase = .finished → s.relDone r = true → r.cmd.hdr.next = 0 → r.back = [] → ∃ u, exec (.commitPoint e) s = .next u ∧
      (u.eng e).run = none ∧ (u.eng e).commits = (s.eng e).commits + 1 ∧ (u.eng e).fault = decide (r.code ≠ 0) ∧
      (e.cls ≠ .gather → (u.eng e).cls = BitVec.ofNat 16 r.cls) ∧
      (e.cls = .gather → (s.latch e.cluster.val e.unit.val = none → (u.eng e).cls = 0) ∧
        ∀ l, s.latch e.cluster.val e.unit.val = some l →
          (u.eng e).cls = BitVec.ofNat 16 (1 + (l.m - 1) * 2 + l.kb * 2 ^ 8)) ∧
      (u.eng e).fcode = (if r.code = 0 then (s.eng e).fcode else BitVec.ofNat 16 r.code) ∧
      (u.eng e).inbox = (s.eng e).inbox ∧ (u.ctx k.ctx).flags = x.flags ||| r.flags ∧ u.sp = s.sp ∧ u.hbm = s.hbm ∧
      (r.code = 0 →
        (r.leave = true → smWf Gov.reset s.govs = true →
          (u.gov (e.cluster.val / 8)).held = (s.gov (e.cluster.val / 8)).held - 1) ∧
        (r.cmd.hdr.reply = .none → (u.seq k.ctx).long = x.seq.long ∧ (u.fab k.ctx).replies = x.fab.replies) ∧
        (∀ w, r.cmd.hdr.reply = .reg w → (u.seq k.ctx).long = x.seq.long ++ [{ reg := k.reg, src := .value r.word }]) ∧
        (∀ q d, r.cmd.hdr.reply = .node q d → (u.fab k.ctx).replies = x.fab.replies ++
          [{ plane := q, dest := d, tag := r.rtag, word := r.word, header := r.cmd.raw, pred := [] }])) ∧
      (r.code ≠ 0 → k.bySeq = true → (u.seq k.ctx).faults = x.seq.faults ++
        [{ reg := k.reg, code := r.code, reason := r.reason, report := r.report }] ∧ (u.ctx k.ctx).st = x.st) ∧
      (r.code ∉ [0, 0x0403, 0x0404, 0x0104, 0x0301, 0x0302, 0x0308] → k.bySeq = false → (u.ctx k.ctx).st = .retiring)) ∧
    r.word = BitVec.ofNat 64 (r.code % 2 ^ 16 + r.reason % 2 ^ 16 * 2 ^ 16 + r.result % 2 ^ 32 * 2 ^ 32)

/-- R82, R185, R186: the commit of a successful command that names a follow-on reads it and holds it, with the issuing command as
its sender, the reply's tag as its tag and one more in its chain; the 65th of a chain, a pointer that cannot be read, a header
that R82 refuses and a reply to a register other than s0 are OP.ILL with the pointer, held for a chain that a sequencer began and
raised at once for a node's; the command completes normally. -/
def Sys2Proof.Claims.CommitReadsTheFollowOn : Prop :=
  ∀ (e : EngRef) (r : Run) (s t : State), (s.eng e).run = some r → r.phase = .finished → s.relDone r = true →
    (s.eng e).follow = none → r.code = 0 → r.cmd.hdr.next ≠ 0 → smWf Eng.reset s.engs = true →
    let k := r.cmd.from_
    let p := r.cmd.hdr.next
    let ex := exec (.commitPoint e) s
    exec (.commitPoint e) (s.setRun e { r with cmd := { r.cmd with hdr := { r.cmd.hdr with next := 0 } } }) = .next t →
    let x := t.ctx k.ctx
    x.live = true →
    let ill := fun (v : State) => ex = .next (if k.bySeq = true then v.modSeq k.ctx fun q =>
        { q with faults := q.faults ++ [{ reg := 0, code := 0x0401, reason := 0, report := p }] }
      else nodeTrap k.ctx 0x0401 0 (BitVec.ofNat 64 p) (v.modCtx k.ctx fun x => { x with failed := none }))
    (64 ≤ k.chain → ill t) ∧ (k.chain < 64 → spSpanBad t x p 16 ≠ none → ill t) ∧
    ∀ raw v, k.chain < 64 → spSpanBad t x p 16 = none → readSpan x p 16 t = .ok raw v →
      (headerOf v x raw = none → ill v) ∧
      ∀ h, headerOf v x raw = some h → ((∃ w, h.reply = .reg w) → ill v) ∧
        ((∀ w, h.reply ≠ .reg w) → ∃ f, ex = .next (v.setEng e { v.eng e with follow := some f }) ∧ f.raw = raw ∧ f.hdr = h ∧
          f.from_.ctx = k.ctx ∧ f.from_.bySeq = k.bySeq ∧ f.from_.chain = k.chain + 1 ∧ f.from_.tag = r.rtag ∧
          f.from_.reg = 0 ∧ (h.acq = false → f.from_.deps = []))

/-- R185: a held follow-on is delivered to the inbox that it names once that has room; the engine then holds none. -/
def Sys2Proof.Claims.FollowOnsAreDelivered : Prop :=
  ∀ (e : EngRef) (k : Cmd) (s : State), (s.eng e).follow = some k → (s.ctx k.from_.ctx).live = true →
    smWf Eng.reset s.engs = true →
    let t := engOf (s.ctx k.from_.ctx) k.hdr
    (8 ≤ (s.eng t).inbox.length → exec (.followOnDelivery e) s = .next s) ∧
    ((s.eng t).inbox.length < 8 → ∃ u, exec (.followOnDelivery e) s = .next u ∧ (u.eng e).follow = none ∧
      (u.eng t).inbox = (s.eng t).inbox ++ [k] ∧ (u.eng e).run = (s.eng e).run ∧ u.ctxs = s.ctxs ∧ u.sp = s.sp)

namespace Sys2Proof.Claims

open Sys2Proof Sys2Proof.Machine

/-- The token at the head of a context's channel is of a kind, with every byte but its own named ones zero (R306, R307). -/
def Receives (c : CtxId) (kind : Nat) (named : List Nat) (t : List Word) (s : State) : Prop :=
  s.nextToken c.val = some t ∧ tokByte t 0 = kind ∧ ∀ i, i < 64 → i ≠ 0 → i ∉ named → tokByte t i = 0

/-- The token is consumed. -/
def consumed (c : CtxId) (s : State) : State := s.modCtx c.val fun x => { x with channel := x.channel.drop 1 }

/-- R308, R328: the token is discarded with a kind 2 token of SCHED.TOKEN and nothing else changes: it is written into the
egress ring where that has room and nothing waits, else it waits. -/
def Refused (c : CtxId) (reason : Nat) (t : List Word) (s : State) (o : Out) : Prop :=
  ∃ k : Completion, o = .next (egressSend c.val k (consumed c s)) ∧ k.kind = 2 ∧ k.code = 0x0804 ∧ k.reason = reason ∧
    k.value = 0 ∧ k.extra = 0 ∧ k.cookie = if tokByte t 0 = 1 ∨ tokByte t 0 = 5 then t.getD 6 0 else 0

end Sys2Proof.Claims

/-- R307 to R310: a launch token that passes the checks of R308 is consumed and its task enters the queue, with the
next sequence number; an Idle context becomes Queued. A token of an unknown kind or with a zero field set is refused
with reason 1, one of a region size above 6, or a base above 63 or misaligned, with 2, and one of a misaligned load
record with 3. The model's choices in it: log 5, 11, 30. -/
def Sys2Proof.Claims.LaunchQueuesTheTask : Prop :=
  ∀ (c : CtxId) (t : List Word) (s : State), s.nextToken c.val = some t → (tokByte t 0 < 2 ∨ 5 < tokByte t 0) →
    let field := tokByte t 0 ≠ 1 ∨ launchZero t = false
    let place := 6 < tokByte t 2 ∨ 63 < tokByte t 4 ∨ tokByte t 4 % 2 ^ tokByte t 2 ≠ 0
    (field → Refused c 1 t s (exec (.launch c) s)) ∧ (¬ field → place → Refused c 2 t s (exec (.launch c) s)) ∧
    (¬ field → ¬ place → (t.getD 1 0).toNat % 64 ≠ 0 → Refused c 3 t s (exec (.launch c) s)) ∧
    ∀ r u, launchCheck c.val (.sched c.val false) t s = .ok r u → u.ctxWf = true → (u.ctx c.val).st ≠ .free →
      ∃ v k, exec (.launch c) s = .next v ∧
        let x := u.ctx c.val
        let y := v.ctx c.val
        y.queue = x.queue ++ [k] ∧ k.seqno = x.launches ∧ y.launches = x.launches + 1 ∧ y.channel = x.channel.drop 1 ∧
        y.st = (if x.st = .idle then .queued else x.st) ∧ k.prio = tokByte t 1 ∧ k.lsize = tokByte t 2 ∧
        k.base = tokByte t 4 ∧ k.seed = t.getD 2 0 ∧ k.inmask = t.getD 4 0 ∧ k.outmask = t.getD 5 0 ∧ k.cookie = t.getD 6 0 ∧
        v.sp = u.sp ∧ v.hostMem = u.hostMem

/-- R307, R310, R312, R313, R320, R329: resume requeues a context that no page fault suspended, its task first; retire
ends a graph with SCHED.KILL; stop drains a running graph and keeps its cookie; mark clears and sets resident bits at
once. In a state that does not fit, resume, retire and stop are refused with reason 6, and a set zero field is refused
with reason 1. The model's choices in it: log 11, 30, 53. -/
def Sys2Proof.Claims.IngressTokensActOnContexts : Prop :=
  ∀ (c : CtxId) (t : List Word) (s : State), s.ctxWf = true →
    let x := s.ctx c.val
    let u := consumed c s
    (Receives c 2 [1] t s → tokByte t 1 ≤ 1 →
      (¬ (x.st = .suspended ∧ x.cause ≠ some .page) → Refused c 6 t s (exec (.resume c) s)) ∧
      (∀ k, x.st = .suspended → x.cause ≠ some .page → x.task = some k → ∃ v, exec (.resume c) s = .next v ∧
        (v.ctx c.val).st = .queued ∧ (v.ctx c.val).task = none ∧ (v.ctx c.val).saved = x.saved ∧
        (v.ctx c.val).queue = { k with w := 0, placed := true, handler := decide (tokByte t 1 = 1) } :: x.queue)) ∧
    (∀ kind named j, (kind, named, j) ∈ ([(2, [1], .resume c), (3, [], .retire c), (4, List.range' 32 16, .mark c),
        (5, List.range' 48 8, .stop c)] : List (Nat × List Nat × Instr)) → s.nextToken c.val = some t → tokByte t 0 = kind →
      ((∃ i, i < 64 ∧ i ≠ 0 ∧ i ∉ named ∧ tokByte t i ≠ 0) ∨ (kind = 2 ∧ 1 < tokByte t 1)) →
      Refused c 1 t s (exec j s)) ∧
    (Receives c 3 [] t s →
      (x.st ∉ [.queued, .running, .draining, .suspended] → Refused c 6 t s (exec (.retire c) s)) ∧
      (x.st ∈ [.queued, .running, .draining, .suspended] → ∃ v k, exec (.retire c) s = .next v ∧
        (v.ctx c.val).st = .retiring ∧ (v.ctx c.val).ending = some k ∧ k.kind = 2 ∧ k.code = 0x0805 ∧ k.reason = 0)) ∧
    (Receives c 5 (List.range' 48 8) t s →
      (x.live = false → Refused c 6 t s (exec (.stop c) s)) ∧
      (x.live = true → ∃ v, exec (.stop c) s = .next v ∧ (v.ctx c.val).st = .draining ∧
        (v.ctx c.val).cookieStop = some (t.getD 6 0) ∧ (x.st = .running → (v.ctx c.val).cause = some .stop) ∧
        (x.st = .draining → (v.ctx c.val).cause = x.cause))) ∧
    (Receives c 4 (List.range' 32 16) t s →
      let low := x.tiles &&& ~~~t.getD 5 0
      let next : Word := low ||| t.getD 4 0
      (x.trigen = 0 → exec (.mark c) s = .next (u.modCtx c.val fun y => { y with tiles := next })) ∧
      (∀ i, i < 64 → (∀ j, j < 64 → (t.getD 4 0).getLsbD j = decide (j = i)) → low.getLsbD i = false →
        x.trigen.getLsbD i = true → smGet [] x.binds i = [] →
        (x.pending < 256 → exec (.mark c) s =
          .next (u.modCtx c.val fun y => { y with tiles := next, triggers := y.triggers ++ [i] })) ∧
        (256 ≤ x.pending → x.live = true → x.seq.h = false → ∃ v k, exec (.mark c) s = .next v ∧
          (v.ctx c.val).st = .retiring ∧ (v.ctx c.val).tiles = next ∧ (v.ctx c.val).ending = some k ∧ k.kind = 2 ∧
          k.code = 0x0802 ∧ k.reason = 0 ∧ (v.seq c.val).cause = 0x0802)))

/-- R310, R312, R326, R327: a retiring context whose accesses and engine commands are done writes its completion token
into its egress ring, once the ring has room: eight doublewords at the entry that the count names, with the flag word;
the count goes up, the vector is signalled where enabled, and the context is Queued where a task waits, else Idle. The
output tiles of a task that succeeded, kind 1, become resident first; those of another do not. The model's choices in
it: log 56. -/
def Sys2Proof.Claims.CompletionTokenIsWritten : Prop :=
  ∀ (c : CtxId) (k : Completion) (s : State), s.ctxWf = true → smWf 0 s.hostMem = true →
    let x := s.ctx c.val
    x.st = .retiring → x.ending = some k → x.outbox = [] → x.trigen = 0 →
    let tiles : Word := if k.kind = 1 then x.tiles ||| (x.task.map (·.outmask)).getD 0 else x.tiles
    ((x.fab.accesses ≠ [] ∨ s.hasCmd c.val false = true) → exec (.completionTokenWrite c) s = .next s) ∧
    (x.fab.accesses = [] → s.hasCmd c.val false = false → 64 ≤ (x.ecount - x.ehead).toNat →
      ∃ u, exec (.completionTokenWrite c) s = .next u ∧ (u.ctx c.val).tiles = tiles ∧ (u.ctx c.val).st = .retiring ∧
        (u.ctx c.val).ending = some k ∧ (u.ctx c.val).ecount = x.ecount ∧ u.hostMem = s.hostMem ∧ u.vectors = s.vectors) ∧
    (x.fab.accesses = [] → s.hasCmd c.val false = false → (x.ecount - x.ehead).toNat < 64 → x.unmerged = 0 →
      ∃ u, exec (.completionTokenWrite c) s = .next u ∧ (u.ctx c.val).ecount = x.ecount + 1 ∧
        (u.ctx c.val).tiles = tiles ∧ (u.ctx c.val).st = (if x.queue = [] then .idle else .queued) ∧ (u.ctx c.val).ending = none ∧ u.sp = s.sp ∧
        u.hbm = s.hbm ∧ (x.egress.getLsbD 0 = true → u.vectors.getLsbD c.val = true) ∧
        let base := x.egress.toNat / 2 ^ 12 * 2 ^ 12 + 64 * (x.ecount.toNat % 64)
        let ws : List Word := [BitVec.ofNat 64 (k.kind % 2 ^ 8 + k.code % 2 ^ 16 * 2 ^ 16 + k.reason % 2 ^ 16 * 2 ^ 32),
          k.value, x.flags.setWidth 64, k.report, 0, k.extra, k.cookie, BitVec.ofNat 64 k.seqno]
        (∀ i, i < 8 → rdBytes u.hostMem (base + 8 * i) 8 = (ws.getD i 0).toNat) ∧
        ∀ q, (q < base ∨ base + 64 ≤ q) → smGet 0 u.hostMem q = smGet 0 s.hostMem q)

/-- R92, R302, R307, R316, R317, R323: the first ready task is placed on a free block of its size. A task that has not
run starts at the entry word of its program, which its scratchpad holds from the region's first byte, with the windows
of its window table or else of its load record, and with empty registers, flags and slots; one that was saved comes
back with its scratchpad, as the frame in memory holds it, and goes on at seq.epc, or in handler mode at seq.tvec with
h = 1. A unit of the frame that cannot be reached keeps what was saved. The model's choices in it: log 5, 6, 59. -/
def Sys2Proof.Claims.TasksArePlaced : Prop :=
  (∀ s : State, s.topTask = none → exec .taskPlace s = .next s) ∧
  (∀ (c : Nat) (t : Task) (d : ClusterData) (k : Nat) (s : State), s.ctxWf = true → s.topTask = some (c, t) →
    (s.ctx c).saved = some d → (s.ctx c).lsize = t.lsize → (s.ctx c).later = [] →
    headerWait c (s.imagesOf c t) s = none → s.pickBlock c t (s.imagesOf c t) = some k → smWf 0 s.sp = true →
    smWf 0 d.sp = true → s.hbmErr = [] → (∀ e ∈ d.sp, e.1 < 2 ^ t.lsize * 2 ^ 24) → d.carve ≤ 2 ^ 24 →
    let q := (s.ctx c).seq
    let z : SpSection := { off := d.spOff, per := 2 ^ 24 - d.carve, clusters := 2 ^ t.lsize }
    ∀ at_ : Nat → Option Nat, z.off + z.size ≤ frameBytes (2 ^ t.lsize) →
    (∀ i, z.needs i = true → (at_ i = none → (∃ e, (s.ctx c).toIa true false (d.frame + i * 2 ^ 16) = .error e) ∨
        ∃ ia, (s.ctx c).toIa true false (d.frame + i * 2 ^ 16) = .ok ia ∧ inWindow ia = true) ∧
      ∀ pa, at_ i = some pa → ∃ ia, (s.ctx c).toIa true false (d.frame + i * 2 ^ 16) = .ok ia ∧ inWindow ia = false ∧
        s.tlbLook ia false = some pa) →
    ∃ u, exec .taskPlace s = .next u ∧ (u.ctx c).first = k ∧ (u.ctx c).queue = (s.ctx c).queue.drop 1 ∧
      (∀ i, i < 2 ^ t.lsize * 2 ^ 24 → let b := smGet 0 u.sp (k * 2 ^ 24 + i)
        (z.place i = none → b = smGet 0 d.sp i) ∧ ∀ p, z.place i = some p → (at_ (p / 2 ^ 16) = none → b = smGet 0 d.sp i) ∧
          ∀ pa, at_ (p / 2 ^ 16) = some pa → b = smGet 0 s.hbm (pa + p % 2 ^ 16)) ∧
      (∀ i, (i < k * 2 ^ 24 ∨ (k + 2 ^ t.lsize) * 2 ^ 24 ≤ i) → smGet 0 u.sp i = smGet 0 s.sp i) ∧ u.hbm = s.hbm ∧
      (u.seq c).regs = q.regs ∧ (u.ctx c).flags = (s.ctx c).flags ∧
      (t.handler = false → (u.ctx c).st = .running ∧ (u.seq c).pc = q.epc.setWidth 32 ∧ (u.seq c).phase = .ready ∧
        (u.seq c).h = q.h) ∧
      (t.handler = true → ((u.ctx c).st = .running ∧ (u.seq c).addr = q.tvec ∧ (u.seq c).h = true) ∨
        ((u.ctx c).st = .retiring ∧ (u.seq c).cause = 0x0304 ∧ (u.seq c).h = q.h))) ∧
  (∀ (c : Nat) (t : Task) (r : LoadRecord) (k : Nat) (es : List Nat) (s u v : State), v.ctxWf = true → s.topTask = some (c, t) →
    (s.ctx c).saved = none → s.sec.installing = 0 → taskCheck c (.sched c true) t s = .ok r u →
    (t.wtab = 0 → v = u) → (t.wtab ≠ 0 → readWtab c (.sched c true) 0 t.wtab (List.range 8) u = .ok es v) →
    r.images = [] → v.pickBlock c t [] = some k → smWf 0 v.sp = true → r.program.length ≤ 2 ^ 24 →
    ∃ w, exec .taskPlace s = .next w ∧ (w.ctx c).st = .running ∧ (w.ctx c).first = k ∧ (w.ctx c).base = t.base ∧
      (w.ctx c).seed = t.seed ∧ (w.ctx c).flags = 0 ∧ (w.ctx c).slots = [] ∧ (w.ctx c).bindings = [] ∧
      (w.seq c).pc = BitVec.ofNat 32 (t.base * 2 ^ 24 + 4 * t.entry) ∧ (w.seq c).regs = [] ∧ (w.seq c).empty = 0 ∧
      (w.seq c).act = 0 ∧ (w.seq c).h = false ∧ (w.ctx c).fab.chan = [] ∧
      (∀ j, j < 8 → let e := if t.wtab = 0 then r.winImage.getD j (0, 0) else (es.getD j 0 % 2 ^ 64, es.getD j 0 / 2 ^ 64)
        smGet none (w.ctx c).windows j = if e.2 = 0 then none else some e) ∧
      ∀ i b, r.program[i]? = some b → smGet 0 w.sp (k * 2 ^ 24 + i) = b)

/-- R10, R104, R290, R302, R308, R317: a launch whose record has images waits until the first image's pages are in the
TLB; then the launch is the one of a record without images, and after it the first image enters planes 0 up as cfg
enters it: an illegal word raises OP.ILL and another region size SEQ.PLANE before the first instruction, resident
planes stay as they are, and else the planes and hold registers hold the image. The window table is read once, and a
word of it that cannot be read drops the task with the read's refusal. The model's choices in it: log 5, 23, 26. -/
def Sys2Proof.Claims.LaunchLoadsItsFirstImage : Prop :=
  ∀ (c : Nat) (t : Task) (r : LoadRecord) (k va : Nat) (l es : List Nat) (s u v : State), s.topTask = some (c, t) →
    (s.ctx c).saved = none → s.sec.installing = 0 → taskCheck c (.sched c true) t s = .ok r u → r.images = va :: l →
    (∀ b z, t.wtab ≠ 0 → readWtab c (.sched c true) 0 t.wtab (List.range 8) u = .bad b z →
      exec .taskPlace s = .next (refuse c (readRefusal b).1 (readRefusal b).2 (BitVec.ofNat 64 b.report) t.cookie
        (z.modCtx c Ctx.dropHead))) ∧
    ((t.wtab = 0 → v = u) → (t.wtab ≠ 0 → readWtab c (.sched c true) 0 t.wtab (List.range 8) u = .ok es v) →
      (∀ z, imageWait c va v = some z → exec .taskPlace s = .next z) ∧
      (imageWait c va v = none → v.pickBlock c t r.images = none → exec .taskPlace s = .next v) ∧
      ∀ w w' ws, imageWait c va v = none → v.pickBlock c t r.images = some k →
        freshLaunch c k t { r with images := [] } (winsOf t r es) v = .next w →
        readWords c (.sched c true) 0 va 16 w = .ok ws w' →
        let x := w'.ctx c
        let f := ws.getD 2 0 % 256
        let ident := ws.getD 0 0 + ws.getD 1 0 * 2 ^ 32
        let stops := fun (code report : Nat) (y : State) =>
          exec .taskPlace s = .next (seqTrap c code 0 (y.seq c).addr (BitVec.ofNat 64 report) y)
        (∀ i, imgHeadBad ws = some i → stops 0x0401 (va + 4 * i) w') ∧
        (imgHeadBad ws = none → bits (ws.getD 2 0) 31 16 ≠ x.size → stops 0x0305 va w') ∧
        (imgHeadBad ws = none → bits (ws.getD 2 0) 31 16 = x.size →
          (w'.resident x 0 f va ident = true → exec .taskPlace s = .next w') ∧
          (w'.resident x 0 f va ident = false → ∀ (ds : List Nat) (y z : State),
            readWords c (.sched c true) 0 (va + 64) (4 * (x.size * f)) w' = .ok ds y →
            let parts := readParts c (.sched c true) 0 va f 0 (descsOf 0 ds) { nodes := [], holds := [], offs := [] } y
            (∀ i, parts = .ill i z → stops 0x0401 (va + 4 * i) z) ∧
            ∀ d, parts = .ok d z → (∀ i, destsBad d x.size = some i → stops 0x0401 (va + 4 * i) z) ∧
              (destsBad d x.size = none → exec .taskPlace s = .next (finishLoad x
                { addr := va, ident := ident, plane := 0, fold := f, nodes := d.nodes, holds := d.holds, dropped := false }
                z)))))

/-- R316, R320: where no block is free for the first ready task, the running tasks of the lowest block in which each
was placed with a lower priority are asked to drain; with a free block, pre-emption off or no such block, nothing
happens. The model's choices in it: log 58. -/
def Sys2Proof.Claims.HigherPriorityPreempts : Prop :=
  ∀ (c : Nat) (t : Task) (s : State), s.ctxWf = true → s.topTask = some (c, t) →
    let n := 2 ^ t.lsize
    let blocks := blocksOf t.lsize
    (s.preempt = false ∨ (∃ k ∈ blocks, s.blockFree n k = true) ∨ (∀ k ∈ blocks, s.yields n t.eff k = false) →
      exec .preemptRequest s = .next s) ∧
    (∀ k, s.preempt = true → (∀ j ∈ blocks, s.blockFree n j = false) → k ∈ blocks → s.yields n t.eff k = true →
      (∀ j ∈ blocks, j < k → s.yields n t.eff j = false) →
      ∃ u, exec .preemptRequest s = .next u ∧ u.sp = s.sp ∧ u.hbm = s.hbm ∧
        (∀ o x, (o, x) ∈ s.ctxs → x.st = .running → k < x.first + x.size → x.first < k + n →
          (u.ctx o).st = .draining ∧ (u.ctx o).cause = some .priority ∧ (u.ctx o).seq = x.seq) ∧
        (∀ o, (s.ctx o).live = false ∨ (s.ctx o).first + (s.ctx o).size ≤ k ∨ k + n ≤ (s.ctx o).first →
          u.ctx o = s.ctx o))

/-- R305, R310, R320 to R323, R329, R339, R342: a drain is complete when every element is frozen and all else is at
rest. A save area too small for the region is SCHED.SAVE; else, where the frame is written, the region's state is
kept. The context is Queued after a request of the scheduler or a page fault that go has released, unless a stop token
was absorbed; else it is Suspended, and a kind 3 token is sent with the code, reason and report of what stopped it,
that of a page fault MEM.PAGE with the faulting address, and the stop token's cookie, else the task's. The model's
choices in it: log 6, 30, 57, 85. -/
def Sys2Proof.Claims.DrainEndsInASave : Prop :=
  ∀ (c : CtxId) (s : State), s.ctxWf = true → (s.ctx c.val).st = .draining →
    let x := s.ctx c.val
    let rest := s.allFrozen x = true ∧ s.restAtRest c.val = true
    let released := x.cause = some .priority ∨ (x.cause = some .page ∧ x.faultGo = true)
    (¬ rest → s.exitedGate c.val = none → exec (.drainComplete c) s = .next s) ∧
    (rest → bits x.save.toNat 15 4 < 1 + 24 * x.size → x.seq.h = false → ∃ u k, exec (.drainComplete c) s = .next u ∧
      (u.ctx c.val).st = .retiring ∧ (u.ctx c.val).ending = some k ∧ k.kind = 2 ∧ k.code = 0x0806 ∧ k.reason = 0 ∧
      (u.seq c.val).cause = 0x0806) ∧
    (∀ e w, rest → 1 + 24 * x.size ≤ bits x.save.toNat 15 4 → saveEcc x s = (none, e) → writeFrame c.val e = (w, none) →
      w.ctx c.val = { x with fab := { x.fab with nextId := (w.fab c.val).nextId } } → x.unmerged = 0 → x.seq.phase = .stopped →
      ∃ u d, exec (.drainComplete c) s = .next u ∧ (u.ctx c.val).saved = some d ∧ (u.seq c.val) = x.seq ∧
        d.sp = smSlice w.sp (x.first * 2 ^ 24) ((x.first + x.size) * 2 ^ 24) ∧ u.sp = w.sp ∧
        d.frame = bits x.save.toNat 47 16 * 2 ^ 16 ∧ d.spOff = (e.spSectionOf x).off ∧
        (u.fab c.val).accesses = (x.fab.accesses.map fun a => { a with replay := a.accepted && decide (a.agent ≠ .seq) }) ∧
        (∀ t ∈ (u.fab c.val).chan, t.kind ≠ .marker) ∧
        (∀ t ∈ x.fab.chan, t.kind ≠ .marker → t ∈ (u.fab c.val).chan) ∧
        (released → x.cookieStop = none → (u.ctx c.val).st = .queued ∧ (u.ctx c.val).task = none ∧
          (u.ctx c.val).queue = (x.task.map fun t => { t with w := 0, placed := true, handler := false }).toList ++ x.queue) ∧
        (¬ (released ∧ x.cookieStop = none) → (u.ctx c.val).st = .suspended ∧
          (u.ctx c.val).cause = (if released then some .stop else x.cause) ∧
          ∃ (v : State) (k : Completion), u = egressSend c.val k v ∧ (v.ctx c.val).outbox = x.outbox ∧
            v.hostMem = w.hostMem ∧ k.kind = 3 ∧ k.cookie = x.cookieStop.getD ((x.task.map (·.cookie)).getD 0) ∧
            k.seqno = (x.task.map (·.seqno)).getD 0 ∧ k.value = 0 ∧ k.extra = 0 ∧ k.flags = x.flags.setWidth 64 ∧
            (x.cause = some .page → x.faultGo = false → k.code = 0x0208 ∧ k.reason = 0 ∧
              k.report = BitVec.ofNat 64 (x.faultIa + if x.faultWr then 2 ^ 63 else 0)) ∧
            (x.cause ≠ some .page ∨ x.faultGo = true →
              k.code = x.causeCode ∧ k.reason = x.causeReason ∧ k.report = x.causeReport)))

/-- R323, R332, R341: where the TLB maps every unit of the save area for writing, the write of a frame writes the
header's words from the area's first byte, with the magic number, the region's size and cause, the code, the base and
the place and size of the scratchpad section, and each scratchpad byte of the region at its place in that section; it
changes no other byte of any memory. The model's choices in it: log 6. -/
def Sys2Proof.Claims.FrameHoldsTheScratchpad : Prop :=
  ∀ (c : Nat) (ia pa : Nat → Nat) (s : State), smWf 0 s.hbm = true → smWf 0 s.sp = true → s.hbmErr = [] →
    let x := s.ctx c
    let n := (1 + 24 * x.size) * 16
    let base := bits x.save.toNat 47 16 * 2 ^ 16
    let z := s.spSectionOf x
    (∀ i, i < n → x.toIa false true (base + i * 2 ^ 16) = .ok (ia i) ∧ ia i % 2 ^ 16 = 0 ∧ inWindow (ia i) = false ∧
      pa i % 2 ^ 16 = 0 ∧ ∃ e, ((smGet [] s.tlb (dieOf (ia i))).find? fun e => e.hits (ia i) false) = some e ∧ e.w = true ∧
        e.paOf (ia i) = pa i) →
    (∀ i, i < 32 → x.toIa false true (base + 8 * i) = .ok (ia 0 + 8 * i)) →
    (∀ i j, i < n → j < n → pa i = pa j → i = j) →
    let at_ := fun q => pa (q / 2 ^ 16) + q % 2 ^ 16
    let place := fun k => z.off + k / 2 ^ 24 * z.per + k % 2 ^ 24
    let kept := fun k => k < x.size * 2 ^ 24 ∧ k % 2 ^ 24 < z.per
    ∃ w, writeFrame c s = (w, none) ∧ 256 ≤ z.off ∧ z.off + z.size ≤ n * 2 ^ 16 ∧ z.clusters = x.size ∧
      z.per = 2 ^ 24 - s.carveOf x.first ∧
      (∀ k, kept k → smGet 0 w.hbm (at_ (place k)) = smGet 0 s.sp (x.first * 2 ^ 24 + k)) ∧
      (let h := (fun (i : Nat) => rdBytes w.hbm (pa 0 + 8 * i) 8);
        h 0 = (0x14D524653 + x.lsize * 2 ^ 48 + (x.cause.map DrainCause.code).getD 0 * 2 ^ 56) % 2 ^ 64 ∧
        h 2 = x.base % 2 ^ 64 ∧ h 3 = 0 ∧ h 22 = z.off ∧ h 23 = z.size ∧ (∀ i, 24 ≤ i → i < 32 → h i = 0) ∧
        (x.cause ∈ [some .priority, some .stop] → h 1 = 0) ∧ (x.cause = some .page → h 1 = 0x0208) ∧
        (x.cause ∈ [some .trap, some .freeze] → h 1 = (x.causeCode + x.causeReason * 2 ^ 16) % 2 ^ 64)) ∧
      (∀ a, (∀ q, (q < 256 ∨ (z.off ≤ q ∧ q < z.off + z.size)) → a ≠ at_ q) → smGet 0 w.hbm a = smGet 0 s.hbm a) ∧
      w.sp = s.sp ∧ w.ctxs = s.ctxs

/-- R119, R272, R304, R310, R314, R315, R339, R340: the commit of a tbind changes its tile's binding; en = 1 makes a Free context
Idle with no tile resident, once the device runs, and en = 0 a Free or Idle one Free, in any other state it is discarded; go
clears a pending page fault and requeues the context that it suspended. A write waits while posted credits are withheld. -/
def Sys2Proof.Claims.BindingEnableAndGo : Prop :=
  ∀ (c : CtxId) (s : State), s.ctxWf = true →
    let x := s.ctx c.val
    (∀ b l, x.tbinds = b :: l → (b.token = none ∨ (∀ i ∈ x.triggers, i ≠ b.tile)) → smWf [] x.binds = true →
      ∃ u, exec (.tbindCommit c) s = .next u ∧ (u.ctx c.val).tbinds = l ∧ (u.ctx c.val).queue = x.queue ∧
        ∀ i, smGet [] (u.ctx c.val).binds i = if i = b.tile then b.token.getD [] else smGet [] x.binds i) ∧
    (s.credit 8 = false → ∀ b req, exec (.ctxCtlEn c b) s = .next s ∧ exec (.faultGo c req) s = .next s) ∧
    (x.st = .free → s.boot.stage = 5 → s.boot.minimal = false → s.credit 8 = true → ∃ u, exec (.ctxCtlEn c true) s = .next u ∧
      (u.ctx c.val).st = .idle ∧ (u.ctx c.val).en = true ∧ (u.ctx c.val).tiles = 0 ∧ (u.ctx c.val).egress = x.egress) ∧
    (x.st ≠ .free → exec (.ctxCtlEn c true) s = .next s) ∧
    (x.st ∈ [.free, .idle] → s.credit 8 = true → ∃ u, exec (.ctxCtlEn c false) s = .next u ∧ (u.ctx c.val).st = .free ∧
      (u.ctx c.val).en = false) ∧
    (x.st ∉ [.free, .idle] → exec (.ctxCtlEn c false) s = .next s) ∧
    ∀ req, s.hostBusy req = false → s.boot.minimal = false → s.boot.tripped = false → s.credit 8 = true →
      (x.faultPend = false → exec (.faultGo c req) s = .next s) ∧
      (∀ k, x.faultPend = true → x.st = .suspended → x.cause = some .page → x.task = some k →
        ∃ u, exec (.faultGo c req) s = .next u ∧ (u.ctx c.val).faultPend = false ∧ (u.ctx c.val).st = .queued ∧
          (u.ctx c.val).queue = { k with w := 0, placed := true, handler := false } :: x.queue) ∧
      (x.faultPend = true → x.st = .draining → x.cause = some .page → ∃ u, exec (.faultGo c req) s = .next u ∧
        (u.ctx c.val).faultPend = false ∧ (u.ctx c.val).faultGo = true ∧ (u.ctx c.val).st = .draining)

/-- R7, R272, R304, R306, R331, R346, R350, R352, R363, R365: register writes, each of which waits while posted
credits are withheld. A context's set-up registers take their fields while it is Free or Idle, and set istat.late
otherwise; the trigger enables, the ring's head and the breakpoints take them in any state; ones written to istat
clear its sticky bits, and a write to the ingress address that is no whole token sets istat.bad; an injection into the
scratchpad flips the selected bit, and with dbl the next one too; link windows only while no graph is launched; the
debug block only while it is unlocked and its feature is not masked. The model's choices in it: log 82, 83. -/
def Sys2Proof.Claims.RegisterWritesTakeTheirFields : Prop :=
  (∀ (c : CtxId) (off : BitVec 26) (o : Nat) (v : Word) (s : State), s.boot.minimal = false → s.boot.tripped = false →
    s.credit 8 = true → s.ctxWf = true → off.toNat = 0x200000 + c.val * 0x1000 + o → o < 0x1000 → o % 8 = 0 →
    let x := s.ctx c.val
    let setUp := x.st ∈ [.free, .idle]
    let gives := fun (y : Ctx) => exec (.registerWrite off v) s = .next (s.setCtx c.val y)
    (setUp → (o = 0x050 → gives { x with egress := v &&& 0xFFFFFFFFFFFFF001 }) ∧
      (o = 0x068 → gives { x with save := v &&& 0xFFFFFFFFFFF0 }) ∧ (o = 0x070 → gives { x with hang := v &&& 0xFFF0FFFFFFFFF000 }) ∧
      (∀ j, j < 16 → (o = 0x100 + 16 * j → gives { x with rngA := smSet 0 x.rngA j v }) ∧
        (o = 0x108 + 16 * j → gives { x with rngB := smSet 0 x.rngB j (v &&& 0x7FFFFFFFF) }))) ∧
    (¬ setUp → (o = 0x050 ∨ o = 0x068 ∨ o = 0x070 ∨ (0x100 ≤ o ∧ o < 0x200)) → gives { x with late := true }) ∧
    (o < 0x040 → gives { x with bad := true }) ∧
    (o = 0x048 → gives
      { x with
        off := x.off && !v.getLsbD 10, late := x.late && !v.getLsbD 9, bad := x.bad && !v.getLsbD 8,
        ovf := x.ovf && !v.getLsbD 7 }) ∧
    (o = 0x060 → gives { x with ehead := v }) ∧ (o = 0x080 → gives { x with trigen := v }) ∧
    (∀ k, k < 4 → (o = 0x200 + 16 * k → gives { x with nbpA := smSet 0 x.nbpA k (v &&& 0x800000003FFFFFFF) }) ∧
      (o = 0x208 + 16 * k → gives { x with nbpB := smSet 0 x.nbpB k v }) ∧
      (o = 0x240 + 8 * k → gives { x with sbp := smSet 0 x.sbp k (v &&& 0x8000FFFF3FFFFFFC) })) ∧
    ((o = 0x058 ∨ o = 0x078 ∨ (0x260 ≤ o ∧ o < 0x1000)) → gives x)) ∧
  (∀ (off : BitVec 26) (v : Word) (p : Port) (s : State), s.credit 8 = false →
    ∀ j ∈ [Instr.registerWrite off v, .ptRootWrite v, .ptInval v, .faultInjectionArm v, .portRetrain p, .bootRetry],
      exec j s = .next s) ∧
  (∀ (off : BitVec 26) (v : Word) (s : State), s.boot.minimal = false → s.boot.tripped = false → s.credit 8 = true →
    (∀ j, j < 64 → off.toNat = 0x100400 + 16 * j →
      (s.anyLaunched = true → exec (.registerWrite off v) s = .next s) ∧
      (s.anyLaunched = false →
        exec (.registerWrite off v) s = .next { s with wa := smSet 0 s.wa j (v &&& 0xE00FFF00000000FF) })) ∧
    (off.toNat = 0x101000 → exec (.registerWrite off v) s = .next { s with etype := v &&& 0xFFFF }) ∧
    (off.toNat = 0x020 → exec (.registerWrite off v) s = .next { s with pwin := v.getLsbD 0 }) ∧
    (off.toNat = 0x10000 → s.sec.busy = true →
      exec (.registerWrite off v) s = .next { s with sec := { s.sec with ovr := true } }) ∧
    (off.toNat = 0x10000 → s.sec.busy = false → 1 ≤ v.toNat % 256 → v.toNat % 256 ≤ 9 →
      ∃ t, exec (.registerWrite off v) s = .next t ∧ t.sec.busy = true ∧ t.sec.op = v.toNat % 256 ∧
        t.sec.arg = v.toNat / 2 ^ 32 ∧ t.sec.err = 0)) ∧
  (∀ (v : Word) (s : State),
    ((s.sec.unlocked = false ∨ s.fmask.getLsbD 12 = true) → exec (.faultInjectionArm v) s = .next s) ∧
    (s.boot.minimal = false → s.boot.tripped = false → s.sec.unlocked = true → s.fmask.getLsbD 12 = false →
      s.credit 8 = true →
      let w := bits s.fiSel.toNat 29 3
      let i := bits s.fiSel.toNat 63 58
      let flip := if v.getLsbD 3 then 2 ^ i ^^^ 2 ^ ((i + 1) % 64) else 2 ^ i
      (v.getLsbD 63 = true → bits v.toNat 2 0 = 3 → ∃ t, exec (.faultInjectionArm v) s = .next t ∧
        t.fiCtl.getLsbD 63 = false ∧ t.fiCtl.getLsbD 62 = true ∧ t.hbm = s.hbm ∧ t.ctxs = s.ctxs ∧
        t.sp = wrBytes s.sp (8 * w) (rdBytes s.sp (8 * w) 8 ^^^ flip) 8 ∧
        (smWf 0 s.spErr = true → smGet 0 t.spErr w = smGet 0 s.spErr w ^^^ BitVec.ofNat 64 flip)) ∧
      ((v.getLsbD 63 = false ∨ bits v.toNat 2 0 ≠ 3) → ∃ t, exec (.faultInjectionArm v) s = .next t ∧ t.sp = s.sp ∧
        t.fiCtl.getLsbD 63 = v.getLsbD 63 ∧ bits t.fiCtl.toNat 3 0 = bits v.toNat 3 0)))

/-- R259, R272, R306: a token write reaches its context's ingress channel: with posted credits withheld it does not
arrive, and then one of another length than eight doublewords, to a context that is not enabled, or to a channel of 64
tokens is dropped and noted; any other joins the channel and is counted, and it waits at the I/O die where an earlier
memory write of its requester or an earlier token of its channel does. -/
def Sys2Proof.Claims.TokensReachTheirChannel : Prop :=
  ∀ (req : BitVec 16) (c : CtxId) (tok : List Word) (s : State), s.ctxWf = true → s.boot.tripped = false →
    s.boot.minimal = false →
    let x := s.ctx c.val
    let i := Instr.hostPostedWrite req (.ingress c tok)
    let gives := fun (y : Ctx) => ∃ t, exec i s = .next t ∧ t.ctx c.val = y ∧ (∀ o, o ≠ c.val → t.ctx o = s.ctx o) ∧
      t.hostWrs = s.hostWrs
    let held := s.hostWrs.any fun w => match w.write with
      | .ingress d _ => decide (d = c)
      | .memory _ _ | .physical _ _ => decide (w.req = req)
    (s.credit (8 * tok.length) = false → exec i s = .next s) ∧
    (s.credit (8 * tok.length) = true →
      (tok.length ≠ 8 → gives { x with bad := true }) ∧
      (tok.length = 8 → x.en = false → gives { x with off := true }) ∧
      (tok.length = 8 → x.en = true → 64 ≤ x.channel.length → gives { x with ovf := true }) ∧
      (tok.length = 8 → x.en = true → x.channel.length < 64 → held = false →
        gives { x with channel := x.channel ++ [tok], taken := x.taken + 1 }) ∧
      (tok.length = 8 → x.en = true → x.channel.length < 64 → held = true → ∃ t, exec i s = .next t ∧
        t.ctx c.val = { x with channel := x.channel ++ [tok], taken := x.taken + 1 } ∧ t.hostWrs = s.hostWrs ++
          [({ req := req, write := .ingress c [], forwarded := false, acks := [] } : HostWr)]))

/-- R209, R259, R269 to R272, R365: a posted write of 1 to 4,096 bytes waits at the I/O die; through the physical
window only while dev.pwin is set. It is forwarded once no earlier write of its requester is held, on the routes of
the stacks of its enabled bytes; one into a bound region is discarded with MEM.UPDST. Each home performs its bytes,
those of the intermediate space where the translation at the home puts them, and acknowledges it, and with the last
acknowledgement it is done; no write arrives while posted credits are withheld, and none changes the telemetry index
word. The model's choices in it: log 60, 63, 65, 67. -/
def Sys2Proof.Claims.HostWrites : Prop :=
  (∀ (req : BitVec 16) (ia : BitVec 46) (b : List (Option Byte)) (s : State), 0 < b.length → b.length ≤ 4096 →
    s.boot.minimal = false → s.boot.tripped = false → 2 ≤ s.boot.stage → s.credit b.length = true →
    let held := fun (w : HostWrite) =>
      ({ s with hostWrs := s.hostWrs ++ [({ req := req, write := w, forwarded := false, acks := [] } : HostWr)] } : State)
    (ia.toNat + b.length ≤ 2 ^ 46 → exec (.hostPostedWrite req (.memory ia b)) s = .next (held (.memory ia b))) ∧
    (∀ pa : BitVec 40, pa.toNat + b.length ≤ 2 ^ 40 →
      (s.pwin = true → exec (.hostPostedWrite req (.physical pa b)) s = .next (held (.physical pa b))) ∧
      (s.pwin = false → exec (.hostPostedWrite req (.physical pa b)) s = .next s))) ∧
  (∀ (req : BitVec 16) (b : List (Option Byte)) (s : State), s.credit b.length = false →
    (∀ ia, exec (.hostPostedWrite req (.memory ia b)) s = .next s) ∧
    ∀ pa, exec (.hostPostedWrite req (.physical pa b)) s = .next s) ∧
  (∀ (k : Nat) (w : HostWr) (s : State), s.hostWrs[k]? = some w → w.forwarded = false →
    let out := fun (cs : List Cell) => exec (.hostWriteForward k) s = .next { s with
      hostWrs := s.hostWrs.set k { w with forwarded := true, acks := (cs.map fun c => stackOf c.1).dedup } }
    (s.heldBack k w = true → exec (.hostWriteForward k) s = .next s) ∧
    (s.heldBack k w = false → s.postedBytes true + w.size ≤ 524288 →
      (∀ pa b, w.write = .physical pa b → enabled pa.toNat b ≠ [] → out (enabled pa.toNat b)) ∧
      (∀ ia b, w.write = .memory ia b → enabled ia.toNat b ≠ [] → s.boundCell (enabled ia.toNat b) = none →
        out (enabled ia.toNat b)) ∧
      (∀ ia b r a, w.write = .memory ia b → s.boundCell (enabled ia.toNat b) = some (r, a) →
        exec (.hostWriteForward k) s =
          .next (ctxTrap r.ctx { code := 0x0204, report := a } { s with hostWrs := s.hostWrs.eraseIdx k })))) ∧
  (∀ (k : Nat) (st : Fin 16) (w : HostWr) (pa : BitVec 40) (b : List (Option Byte)) (s : State), s.hostWrs[k]? = some w →
    w.forwarded = true → w.write = .physical pa b → smWf 0 s.hbm = true → s.hbmErr = [] →
    (st.val ∉ w.acks → exec (.homeAcknowledgement k st) s = .next s) ∧
    (st.val ∈ w.acks → ∃ t, exec (.homeAcknowledgement k st) s = .next t ∧ t.sp = s.sp ∧ t.hostMem = s.hostMem ∧
      t.ctxs = s.ctxs ∧
      (∀ i v, b[i]? = some (some v) → stackOf (pa.toNat + i) = st.val →
        ¬ (0xFFFF000000 ≤ pa.toNat + i ∧ pa.toNat + i < 0xFFFF000008) → smGet 0 t.hbm (pa.toNat + i) = v) ∧
      (∀ q, 0xFFFF000000 ≤ q → q < 0xFFFF000008 → smGet 0 t.hbm q = smGet 0 s.hbm q) ∧
      (∀ q, (∀ i v, b[i]? = some (some v) → stackOf (pa.toNat + i) = st.val → q ≠ pa.toNat + i) →
        smGet 0 t.hbm q = smGet 0 s.hbm q) ∧
      (w.acks = [st.val] → t.hostWrs = s.hostWrs.eraseIdx k))) ∧
  (∀ (k : Nat) (st : Fin 16) (w : HostWr) (ia : BitVec 46) (b : List (Option Byte)) (frame : Nat → Nat) (s : State),
    s.hostWrs[k]? = some w → w.forwarded = true → w.write = .memory ia b → smWf 0 s.hbm = true → s.hbmErr = [] →
    let page := fun (i : Nat) => (ia.toNat + i) / 2 ^ 16
    let at_ := fun (i : Nat) => frame (page i) / 2 ^ 16 * 2 ^ 16 + (ia.toNat + i) % 2 ^ 16
    let here := fun (i : Nat) (v : Byte) => b[i]? = some (some v) ∧ stackOf (ia.toNat + i) = st.val
    (∀ i v, here i v → Maps s (page i * 2 ^ 16 + st.val * 2 ^ 11) true (frame (page i))) →
    (∀ i j u v, here i u → here j v → frame (page i) / 2 ^ 16 = frame (page j) / 2 ^ 16 → page i = page j) →
    (st.val ∉ w.acks → exec (.homeAcknowledgement k st) s = .next s) ∧
    (st.val ∈ w.acks → ∃ t, exec (.homeAcknowledgement k st) s = .next t ∧ t.sp = s.sp ∧ t.hostMem = s.hostMem ∧
      t.ctxs = s.ctxs ∧ (∀ i v, here i v → smGet 0 t.hbm (at_ i) = v) ∧
      (∀ q, (∀ i v, here i v → q ≠ at_ i) → smGet 0 t.hbm q = smGet 0 s.hbm q) ∧
      (w.acks = [st.val] → t.hostWrs = s.hostWrs.eraseIdx k)))

/-- R259, R269, R333, R365: a read behind a write of its requester waits; a register read answers the register's word,
a read of the physical window the bytes of HBM, and one of the intermediate space the unbound bytes that the
translation at their homes finds, and it changes neither memory nor registers; an atomic request is answered with
Unsupported Request and changes no byte. The model's choices in it: log 61, 62, 66. -/
def Sys2Proof.Claims.HostReads : Prop :=
  ∀ (req : BitVec 16) (a : BitVec 46) (n : Nat) (s : State), 0 < n → n ≤ 4096 →
    (∀ sp, s.hostBusy req = true → exec (.hostRead req sp a n) s = .next s) ∧
    (s.hostBusy req = false →
      (a.toNat + n ≤ 2 ^ 26 → exec (.hostRead req .registers a n) s =
        .next { s with lastReply := some (.data (s.regBytes a.toNat n)) }) ∧
      (s.boot.minimal = false → s.boot.tripped = false → 2 ≤ s.boot.stage → a.toNat + n ≤ 2 ^ 40 → s.hbmErr = [] →
        ∃ t l, exec (.hostRead req .physical a n) s = .next t ∧ t.lastReply = some (.data l) ∧ l.length = n ∧
          t.hbm = s.hbm ∧ t.sp = s.sp ∧ t.ctxs = s.ctxs ∧ ∀ i, i < n → l[i]? = some (smGet 0 s.hbm (a.toNat + i)))) ∧
    (s.hostBusy req = false → (s.memOn = false →
        exec (.hostRead req .memory a n) s = .next { s with lastReply := some .unsupported }) ∧
      ∀ pa : Nat → Nat, s.memOn = true → a.toNat + n ≤ 2 ^ 46 → s.hbmErr = [] →
        (∀ i, i < n → Maps s (a.toNat + i) false (pa i) ∧ s.regionOf (a.toNat + i) = none) →
        ∃ t l, exec (.hostRead req .memory a n) s = .next t ∧ t.lastReply = some (.data l) ∧ l.length = n ∧
          t.hbm = s.hbm ∧ t.sp = s.sp ∧ t.ctxs = s.ctxs ∧ ∀ i, i < n → l[i]? = some (smGet 0 s.hbm (pa i))) ∧
    exec (.hostAtomicRequest req a) s = .next { s with lastReply := some .unsupported }

/-- R304, R340, R357, R365: the words that a read of BAR0 finds; a block other than the device and security blocks reads 0 in minimal
mode. -/
def Sys2Proof.Claims.RegistersReadTheirFields : Prop :=
  ∀ (s : State) (c j : Nat), c < 64 → s.boot.tripped = false →
    let x := s.ctx c
    let r := fun o => s.regRead (0x200000 + 0x1000 * c + o)
    s.regRead 0x008 = s.fmask.setWidth 64 ∧ s.regRead 0x020 = (if s.pwin then 1 else 0) ∧ s.regRead 0x018 = 0 ∧
    (s.boot.minimal = true → r 0x050 = 0 ∧ s.regRead 0x40000 = 0) ∧
    (s.boot.minimal = false → s.regRead 0x40000 = s.ptRoot ∧ s.regRead 0x101000 = s.etype ∧
      s.regRead 0x30000 = (if s.preempt then 1 else 0) ∧ (r 0x040).toNat = (if x.en then 256 else 0) + x.st.code ∧
      ((r 0x048).getLsbD 10 = x.off ∧ (r 0x048).getLsbD 9 = x.late ∧ (r 0x048).getLsbD 8 = x.bad ∧
        (r 0x048).getLsbD 7 = x.ovf) ∧
      (x.faultIa < 2 ^ 48 → (r 0x088).toNat = (if x.faultPend then 2 ^ 63 else 0) + (if x.faultWr then 2 ^ 62 else 0) + x.faultIa) ∧
      r 0x050 = x.egress ∧ r 0x058 = x.ecount ∧ r 0x060 = x.ehead ∧
      r 0x068 = x.save ∧ r 0x070 = x.hang ∧ r 0x078 = x.tiles ∧ r 0x080 = x.trigen ∧
      (j < 16 → r (0x100 + 16 * j) = smGet 0 x.rngA j ∧ r (0x108 + 16 * j) = smGet 0 x.rngB j) ∧
      ((r 0x048).toNat % 2 ^ 7 = x.channel.length % 2 ^ 7) ∧ (r 0x048).toNat / 2 ^ 16 = x.taken.toNat)

/-- R209, R341, R352: a peer's load of unbound, mapped bytes is answered with them and changes no byte; its store
writes each byte where the translation at the byte's home puts it; what lies in a bound region or is not served is
answered with Unsupported. The model's choices in it: log 61 to 64. -/
def Sys2Proof.Claims.PeersReadAndWrite : Prop :=
  ∀ (ia : BitVec 48) (n pa : Nat) (frame : Nat → Nat) (b : List Byte) (s : State),
    let at_ := fun (i : Nat) => frame i / 2 ^ 16 * 2 ^ 16 + (ia.toNat + i) % 2 ^ 16
    (s.memOn = false → exec (.peerAccess ia none n) s = .next { s with lastReply := some .unsupported } ∧
      exec (.peerAccess ia (some b) n) s = .next { s with lastReply := some .unsupported }) ∧
    (s.memOn = true → s.hbmErr = [] →
      (∀ i, i < n → ia.toNat + i < 2 ^ 46 ∧ s.tlbLook (ia.toNat + i) false = some (pa + i) ∧
        s.regionOf (ia.toNat + i) = none) →
      ∃ t l, exec (.peerAccess ia none n) s = .next t ∧ t.lastReply = some (.data l) ∧ l.length = n ∧ t.hbm = s.hbm ∧
        t.ctxs = s.ctxs ∧ ∀ i, i < n → l[i]? = some (smGet 0 s.hbm (pa + i))) ∧
    (s.memOn = true → s.hbmErr = [] → smWf 0 s.hbm = true → ia.toNat + b.length ≤ 2 ^ 46 → b ≠ [] →
      ia.toNat % 2 ^ 16 + b.length ≤ 2 ^ 16 → (∀ i, i < b.length →
        Maps s (ia.toNat / 2 ^ 16 * 2 ^ 16 + stackOf (ia.toNat + i) * 2 ^ 11) true (frame i)) →
      s.boundCell (b.zipIdx.map fun e => (ia.toNat + e.2, e.1)) = none →
      ∃ t, exec (.peerAccess ia (some b) n) s = .next t ∧ t.lastReply = some (.data []) ∧ t.sp = s.sp ∧ t.ctxs = s.ctxs ∧
        (∀ i v, b[i]? = some v → smGet 0 t.hbm (at_ i) = v) ∧
        ∀ q, (∀ i, i < b.length → q ≠ at_ i) → smGet 0 t.hbm q = smGet 0 s.hbm q) ∧
    (∀ r a, s.memOn = true → ia.toNat + b.length ≤ 2 ^ 46 →
      s.boundCell (b.zipIdx.map fun e => (ia.toNat + e.2, e.1)) = some (r, a) →
      ∃ t, exec (.peerAccess ia (some b) n) s = .next t ∧ t.hbm = s.hbm ∧ t.sp = s.sp ∧
        t.lastReply = some .unsupported)

/-- R167, R250, R260, R342, R352: the acknowledgement of a posted store removes it, and the store then stands in the
memory that its window names, the host's or a peer's, once: one that a load has met before is not written again. An
earlier store of the same memory node or engine to its location is performed before it. A refusal of one not yet
performed removes it, and raises LINK.REMOTE with the store's address in its context. The model's choices in it: log
4, 70. -/
def Sys2Proof.Claims.PostedStoresEnd : Prop :=
  ∀ (k : Nat) (p : Posted) (s : State), s.posted[k]? = some p →
    let w := (smGet 0 s.wa (p.ia / 2 ^ 40 - 0x40)).toNat
    let kind := bits w 62 61
    let peer := bits w 51 40
    let remote := bits w 7 0 * 2 ^ 40 + p.ia % 2 ^ 40
    let t : State := { s with posted := s.posted.eraseIdx k }
    let before := fun (q : Posted) => ∃ j, j < k ∧ s.posted[j]? = some q ∧ q.done = false ∧ q.src = p.src ∧
      remoteMeet (s.postedAt q) (s.postedAt p) = true
    (s.canAck p = false → exec (.peerStoreAcknowledgement k) s = .next s) ∧
    (∀ q, s.canAck p = true → (s.posted.map Posted.id).Nodup → before q → ∃ u v, exec (.peerStoreAcknowledgement k) s = .next u ∧
      v ∈ u.posted ∧ v.id = q.id ∧ v.done = true) ∧
    (s.canAck p = true → (∀ q, ¬ before q) → ∃ u, exec (.peerStoreAcknowledgement k) s = .next u ∧ u.posted.map Posted.id =
      (s.posted.map Posted.id).eraseIdx k ∧ u.sp = s.sp ∧ u.hbm = s.hbm ∧ u.ctxs = s.ctxs ∧
      (p.ctx = 64 → u.lastReply = some (.data [])) ∧
      (p.done = true → u.hostMem = s.hostMem ∧ u.peerMem = s.peerMem) ∧
      (p.done = false → kind = 2 → u.peerMem = s.peerMem ∧
        u.hostMem = wrBytes s.hostMem remote (ofBytes p.bytes) p.bytes.length) ∧
      (p.done = false → kind ≠ 2 → u.hostMem = s.hostMem ∧ u.peerMem =
        wrBytes s.peerMem ((kind * 4096 + peer) * 2 ^ 48 + remote) (ofBytes p.bytes) p.bytes.length)) ∧
    (p.done = true → exec (.linkRemoteRefusal k) s = .next s) ∧
    (p.done = false → p.ctx < 64 →
      exec (.linkRemoteRefusal k) s = .next (ctxTrap p.ctx { code := 0x0903, report := p.ia } t)) ∧
    (p.done = false → p.ctx = 64 → exec (.linkRemoteRefusal k) s = .next { t with lastReply := some .unsupported })

/-- R351, R353: a CRC failure on a port that is up is counted, saturating, and replayed; where one flit has failed its
first transmission and 16 replays, the port is declared down, and so it is at a loss of lane lock. A write to a down
port starts its training, and a trained port that is not down carries traffic on its lanes. The 64th retransmission of
one frame declares its Token Transport route down. The flit of a failure, or the frame, may be another than the last
one's, which starts its count again: that is a free choice. The model's choices in it: log 71 to 73. -/
def Sys2Proof.Claims.LinkPorts : Prop :=
  (∀ (p : Port) (n : Fin 3) (s : State), smWf LinkPort.reset s.ports = true →
    let x := s.port p.val
    let gives := fun (i : Instr) (q : LinkPort → Prop) => ∃ t, exec i s = .next t ∧ q (t.port p.val) ∧ t.sp = s.sp ∧
      t.hbm = s.hbm ∧ t.ctxs = s.ctxs ∧ ∀ o, o ≠ p.val → t.port o = s.port o
    (x.up = false → exec (.flitCrcFailure p) s = .next s) ∧
    (x.up = true → gives (.flitCrcFailure p) fun y => y.replays = x.replays + 1 ∧
      y.crc.toNat = min (2 ^ 16 - 1) (x.crc.toNat + 1) ∧ ∃ m, (m = 1 ∨ m = x.fails + 1) ∧
      (m < 17 → y.fails = m ∧ y.up = true ∧ y.down = x.down) ∧ (17 ≤ m → y.down = true ∧ y.up = false)) ∧
    gives (.laneLockLoss p) (fun y => y.down = true ∧ y.up = false ∧ y.crc = x.crc ∧
      y.downs = if x.down then x.downs else x.downs + 1) ∧
    (s.boot.minimal = false → s.boot.tripped = false → s.credit 8 = true → x.down = true →
      gives (.portRetrain p) fun y => y.down = false ∧ y.up = false ∧ y.crc = x.crc ∧ y.replays = x.replays) ∧
    (x.down = false → n ≠ 0 → gives (.portTrained p n) fun y => y.up = true ∧ y.lanes = n.val ∧ y.down = false) ∧
    (x.down = true → exec (.portTrained p n) s = .next s)) ∧
  (∀ (p : Fin 8) (s : State), smWf EthPort.reset s.eths = true →
    let x := smGet EthPort.reset s.eths p.val
    (x.down = true → exec (.cttRetransmission p) s = .next s) ∧
    (x.down = false → ∃ t, exec (.cttRetransmission p) s = .next t ∧ t.ctxs = s.ctxs ∧
      ∃ m, (m = 1 ∨ m = x.retrans + 1) ∧ (smGet EthPort.reset t.eths p.val).retrans = m ∧
      ((smGet EthPort.reset t.eths p.val).down = true ↔ 64 ≤ m)))

/-- R133, R353, R354: a store outside an enabled edge adder's range is a peer's store; an element inside it becomes
its binary32 sum with the local partial sum, with the sticky flags of the sum, and is written locally, or posted
through the output window at its offset. The model's choices in it: log 69. -/
def Sys2Proof.Claims.EdgeAddersSum : Prop :=
  ∀ (p : Port) (ia : BitVec 48) (b : List Byte) (s : State), s.memOn = true →
    let a := smGet 0 s.eaa p.val
    let w := smGet 0 s.eab p.val
    let base := bits a.toNat 47 6 * 64
    let size := bits w.toNat 63 48 * 64
    let off := ia.toNat - base
    let inside := a.getLsbD 63 = true ∧ base ≤ ia.toNat ∧ ia.toNat < base + size
    (¬ inside → exec (.edgeAdderStore p ia b) s = exec (.peerAccess ia (some b) 0) s) ∧
    (∀ l u, inside → b.length = 4 → ia.toNat % 4 = 0 → homeRead (bits w.toNat 47 6 * 64 + off) 4 s = .data l u →
      let sum := fAdd .f32 .rne false 0 (ofBytes b) (ofBytes l)
      let t : State := { u with eaa := smSet 0 u.eaa p.val (a ||| stBits sum.fl) }
      (a.getLsbD 62 = true → exec (.edgeAdderStore p ia b) s = exec (.peerAccess ia (some (toBytes sum.val 4)) 0) t) ∧
      (a.getLsbD 62 = false → ∀ r v, windowCheck (p.val / 16) ((0x40 + bits a.toNat 61 56) * 2 ^ 40 + off) t = .ok r v →
        ∃ q, exec (.edgeAdderStore p ia b) s = .next { v with posted := v.posted ++ [q] } ∧ q.ctx = 64 ∧
          q.ia = (0x40 + bits a.toNat 61 56) * 2 ^ 40 + off ∧ q.bytes = toBytes sum.val 4 ∧ q.done = false))

/-- R355, R358, R361: a load command refuses an image that does not fit the buffer with 7, an illegal one with 2, one
of a slot that is not enabled with 4, one whose digest or signature does not verify with 2, and one below its floor
with 3, and writes nothing then. A valid one replaces an absent flash copy, else the one with the lower version, and
of two equal ones the one that the load before did not write; kinds 4 to 7 stay busy until they are installed, which
waits until no context holds a launched graph. The model's choices in it: log 8, 74, 75. -/
def Sys2Proof.Claims.FirmwareLoads : Prop :=
  (∀ s : State, s.sec.busy = true → s.sec.op = 1 → s.boot.tripped = false → s.sec.installing = 0 →
    let c := s.sec
    let ends := fun (e : Nat) => exec .loadFirmware s = .next { s with sec := { c with busy := false, err := e, len := 0 } }
    (c.bufImage = none → ends 7) ∧
    ∀ i, c.bufImage = some i →
      let slot := i.field 5 1
      let floor := smGet 0 c.floors i.kind
      let signed := (i.header.drop 24).take 64 = Config.shake256 i.body ∧
        Config.verifies (c.keyOf slot) (i.header.take 88) ((i.header.drop 88).take 114) = true
      (i.legal = false → ends 2) ∧
      (i.legal = true → (c.slot slot).enabled = false → ends 4) ∧
      (i.legal = true → (c.slot slot).enabled = true → ¬ signed → ends 2) ∧
      (i.legal = true → (c.slot slot).enabled = true → signed → i.version < floor → ends 3) ∧
      (i.legal = true → (c.slot slot).enabled = true → signed → floor ≤ i.version → smWf none c.flash = true →
        smWf 0 c.newest = true →
        ∃ t o, exec .loadFirmware s = .next t ∧ t.sec.installed = c.installed ∧ t.ctxs = s.ctxs ∧ o < 2 ∧
          (∀ k p, t.sec.copy k p = if 2 * k + p = 2 * i.kind + o then some i else c.copy k p) ∧
          (∀ p, p < 2 → (c.copy i.kind p).isNone = true → (c.copy i.kind (1 - p)).isSome = true → o = p) ∧
          (∀ p x y, p < 2 → c.copy i.kind p = some x → c.copy i.kind (1 - p) = some y → x.version < y.version → o = p) ∧
          (∀ y, c.copy i.kind (1 - o) = some y → y.version = i.version → t.sec.olderCopy i.kind = 1 - o) ∧
          (s.boot.minimal = true → t.sec.busy = false ∧ t.sec.err = 0 ∧ t.boot.clearFails = true) ∧
          (s.boot.minimal = false → (i.kind < 4 → t.sec.busy = false ∧ t.sec.err = 0) ∧ (4 ≤ i.kind → t.sec.busy = true)))) ∧
  (∀ (k : Fin 8) (p : Nat) (i : FwImage) (s : State), 4 ≤ k.val → p < 2 →
    s.sec.installing = BitVec.ofNat 8 (2 ^ ((k.val - 4) * 2 + p)) → s.sec.copy k.val p = some i → i.kind = k.val →
    smWf none s.sec.installed = true →
    (s.anyLaunched = true → exec (.firmwareInstallation k) s = .next s) ∧
    (s.anyLaunched = false → ∃ t, exec (.firmwareInstallation k) s = .next t ∧ t.sec.busy = false ∧ t.sec.err = 0 ∧
      t.sec.installing = 0 ∧ t.ctxs = s.ctxs ∧
      ∀ j, smGet none t.sec.installed j = if j = k.val then some i else smGet none s.sec.installed j))

/-- R359, R360, R363: the commands that need an authorisation. One that no enabled owner slot signed ends with 2 and
changes nothing else; an accepted one advances the counter and enrols the key, disables the slot, raises the floor or
writes the feature mask; a slot out of range or disabled is 4, and a floor above a flash copy, or in minimal mode, 5.
The model's choices in it: log 8, 74. -/
def Sys2Proof.Claims.AuthorisedCommands : Prop :=
  ∀ s : State, s.sec.busy = true → s.boot.tripped = false → smWf KeySlot.none s.sec.slots = true →
    let c := s.sec
    let signed := fun (n : Nat) => c.ownerSigned (c.authMessage (c.bytes 0 n)) (c.bytes n 114)
    let ends := fun (i : Instr) (e : Nat) => exec i s = .next { s with sec := { c with busy := false, err := e, len := 0 } }
    let done := fun (i : Instr) (q : State → Prop) => ∃ t, exec i s = .next t ∧ t.sec.busy = false ∧ t.sec.err = 0 ∧
      t.sec.counter = c.counter + 1 ∧ t.ctxs = s.ctxs ∧ t.sp = s.sp ∧ t.hbm = s.hbm ∧ q t
    (c.op = 2 →
      let free := (c.slot c.arg).key = [] ∨ (c.slot c.arg).enabled = true
      let first := c.claimed = false ∧ c.arg = 1
      let own := Config.verifies (c.bytes 0 57) (c.authMessage (c.bytes 0 57)) (c.bytes 57 114)
      let enrols := done .enrolKey fun t => t.sec.claimed = true ∧
        ∀ i, t.sec.slot i = if i = c.arg then { key := c.bytes 0 57, enabled := true } else c.slot i
      (c.arg = 0 ∨ 3 < c.arg ∨ ¬ free → ends .enrolKey 4) ∧
      (1 ≤ c.arg → c.arg ≤ 3 → free →
        (first → (own = true → enrols) ∧ (own = false → ends .enrolKey 2)) ∧
        (¬ first → (signed 57 = true → enrols) ∧ (signed 57 = false → ends .enrolKey 2)))) ∧
    (c.op = 3 →
      (3 < c.arg ∨ (c.slot c.arg).enabled = false → ends .disableSlot 4) ∧
      (c.arg ≤ 3 → (c.slot c.arg).enabled = true → (signed 0 = false → ends .disableSlot 2) ∧
        (signed 0 = true → done .disableSlot fun t => (t.sec.slot c.arg).enabled = false ∧
          ∀ i, i ≠ c.arg → t.sec.slot i = c.slot i))) ∧
    (c.op = 4 →
      let kind := c.arg % 2 ^ 8
      let v := c.arg / 2 ^ 8 % 2 ^ 24
      let late := s.boot.minimal = true ∨ ∃ p i, p < 2 ∧ c.copy kind p = some i ∧ i.version < v
      (1 ≤ kind → kind ≤ 7 → (late → ends .raiseFloor 5) ∧ (¬ late → signed 0 = false → ends .raiseFloor 2) ∧
        (¬ late → signed 0 = true → smWf 0 c.floors = true → done .raiseFloor fun t =>
          ∀ k, smGet 0 t.sec.floors k = if k = kind then max v (smGet 0 c.floors k) else smGet 0 c.floors k))) ∧
    (c.op = 9 →
      (s.anyLaunched = true → exec .writeFmask s = .next s) ∧
      (s.anyLaunched = false → (signed 0 = false → ends .writeFmask 2) ∧
        (signed 0 = true → done .writeFmask fun t => t.fmask = BitVec.ofNat 14 c.arg)))

/-- R362, R363: attestation writes a report of 256 bytes into the buffer: its fields, the nonce that the buffer held
when the command started, the digest of the installed images and keys, and the signature of what precedes it; a
challenge replaces the nonce with another of 32 bytes, which it also writes into the buffer; an unlock needs a nonce,
is refused with 5 without one and ends with 2 without a signature of it by an enabled owner slot, and spends it; a
lock locks the debug block. The model's choices in it: log 8, 76. -/
def Sys2Proof.Claims.DebugLockAndAttestation : Prop :=
  ∀ s : State, s.sec.busy = true → s.boot.tripped = false →
    let c := s.sec
    let done := fun (i : Instr) (e : Nat) (q : State → Prop) => ∃ t, exec i s = .next t ∧ t.sec.busy = false ∧ t.sec.err = e ∧
      t.ctxs = s.ctxs ∧ t.sp = s.sp ∧ t.hbm = s.hbm ∧ t.fmask = s.fmask ∧ q t
    (c.op = 5 → smWf 0 c.buffer = true → done .attest 0 fun t => t.sec.nonce = c.nonce ∧ t.sec.unlocked = c.unlocked ∧
      (c.arg ≠ 1 → let b := t.sec.buffer
        rdBytes b 0 4 = 0x54415441 ∧ rdBytes b 4 4 = 1 ∧ rdBytes b 8 8 = c.serial.toNat ∧
        (∀ i, i < 32 → smGet 0 b (16 + i) = smGet 0 c.taken i) ∧ rdBytes b 48 8 = s.boot.status.toNat ∧
        rdBytes b 56 8 = s.fmask.toNat ∧ (rdBytes b 64 8).testBit 5 = c.unlocked ∧
        (rdBytes b 64 8).testBit 4 = c.claimed ∧ (∀ i, i < 4 → (rdBytes b 64 8).testBit i = (c.slot i).enabled) ∧ t.sec.len = 256 ∧
        let at_ := fun (o n : Nat) => (List.range n).map fun i => smGet 0 b (o + i)
        at_ 72 64 = Config.shake256 c.measured ∧ at_ 136 114 = Config.identitySign (at_ 0 136) ∧
        at_ 250 6 = List.replicate 6 0)) ∧
    (c.op = 6 → smWf 0 c.buffer = true → done .debugChallenge 0 fun t => ∃ n, t.sec.nonce = some n ∧ n.length = 32 ∧
      t.sec.len = 32 ∧ (List.range 32).map (fun i => smGet 0 t.sec.buffer i) = n ∧ t.sec.unlocked = c.unlocked) ∧
    (c.op = 7 → c.nonce = none → done .debugUnlock 5 fun t => t.sec.unlocked = c.unlocked) ∧
    (∀ n, c.op = 7 → c.nonce = some n →
      (c.ownerSigned n (c.bytes 0 114) = true → done .debugUnlock 0 fun t => t.sec.unlocked = true ∧ t.sec.nonce = none) ∧
      (c.ownerSigned n (c.bytes 0 114) = false →
        done .debugUnlock 2 fun t => t.sec.unlocked = c.unlocked ∧ t.sec.nonce = some n)) ∧
    (c.op = 8 → done .debugLock 0 fun t => t.sec.unlocked = false) ∧
    (∀ n sig, c.ownerSigned n sig = true → ∃ i, i ∈ [1, 2, 3] ∧ (c.slot i).enabled = true ∧
      Config.verifies (c.keyOf i) n sig = true)

/-- R356, R357, R363: a reset keeps the host's memory, the feature mask, keys, floors and flash, and frees every
context. A start that finds a valid copy of every kind, and meets no other failure, reaches stage 5 with no failed
start counted; one that finds no copy of kind 3 stops before stage 0 with cause 2, and counts; one that finds none of
a kind from 4 to 7 stops at stage 3 with the images before it installed; with three counted the device enters minimal
mode. A retry clears the count first, and a start that has not finished in time fails with cause 7. The model's
choices in it: log 77 to 79. -/
def Sys2Proof.Claims.ResetsAndStarts : Prop :=
  ∀ s : State, s.boot.tripped = false →
    let f := Config.startFault s.frees
    let n := if s.boot.clearFails then 0 else s.boot.fails
    let resets := fun (i : Instr) (n : Nat) =>
      (∃ t, exec i s = .next t ∧ t.hostMem = s.hostMem ∧ t.peerMem = s.peerMem ∧ t.fmask = s.fmask ∧ t.ctxs = [] ∧ t.sp = [] ∧ t.hbm = [] ∧
        t.sec.slots = s.sec.slots ∧ t.sec.floors = s.sec.floors ∧ t.sec.flash = s.sec.flash ∧
        t.sec.counter = s.sec.counter ∧ t.sec.unlocked = false ∧ t.boot.starts = s.boot.starts + 1 ∧
        t.boot.clearFails = false ∧ t.boot.trips = s.boot.trips ∧
        (3 ≤ n → t.boot.minimal = true ∧ t.boot.stage = 0) ∧
        (n < 3 → t.boot.minimal = false ∧ (t.boot.stage = 5 ↔ t.boot.cause = 0) ∧
          t.boot.fails = (if t.boot.cause = 0 then 0 else n + 1)) ∧
        (n < 3 → (∀ k, 1 ≤ k → k ≤ 7 → (s.sec.kept.bootCopy k).isSome = true) → (f.1 < 4 ∨ 7 < f.1) →
          t.boot.stage = 5 ∧ ∀ k, 1 ≤ k → k ≤ 7 → smGet none t.sec.installed k = s.sec.kept.bootCopy k) ∧
        (∀ k, n < 3 → 4 ≤ k → k ≤ 7 → (f.1 < 4 ∨ 7 < f.1) → s.sec.kept.bootCopy k = none →
          (∀ j, 1 ≤ j → j < k → (s.sec.kept.bootCopy j).isSome = true) → t.boot.stage = 3 ∧ t.boot.where_ = k ∧
          ∀ j, 1 ≤ j → j < k → smGet none t.sec.installed j = s.sec.kept.bootCopy j) ∧
        (n < 3 → ¬ (f.1 = 7 ∧ f.2 % 9 = 0) → s.sec.copy 3 0 = none → s.sec.copy 3 1 = none → t.boot.stage = 0 ∧ t.boot.cause = 2 ∧ t.boot.where_ = 3))
    resets .reset n ∧ (s.credit 8 = true → resets .bootRetry 0) ∧
    (s.boot.stage ≠ 5 → s.boot.minimal = false → s.boot.cause = 0 → ∃ t, exec .bootTimeout s = .next t ∧
      t.boot.cause = 7 ∧ t.boot.fails = min 3 (s.boot.fails + 1) ∧ t.ctxs = s.ctxs) ∧
    (s.boot.stage = 5 → exec .bootTimeout s = .next s)

/-- R369: a sample sets a die's temperature; at 95 °C or more its pool is halved until it is below 90, at 105 grants
stop until it is below 100, and at 115 the device trips: every context is lost, the trip is counted, and the device is
held in reset until every die is below 80 °C. The model's choices in it: log 77, 80. -/
def Sys2Proof.Claims.ThermalLimits : Prop :=
  ∀ (d : Die) (t : Nat) (s : State), smWf Gov.reset s.govs = true →
    (s.boot.tripped = false → t < 16 * 115 → ∃ u, exec (.thermalSample d t) s = .next u ∧ u.ctxs = s.ctxs ∧
      let g := s.gov d.val
      let h := u.gov d.val
      h.temp = t ∧ (16 * 95 ≤ t → h.halved = true) ∧ (t < 16 * 90 → h.halved = false) ∧
      (16 * 90 ≤ t → t < 16 * 95 → h.halved = g.halved) ∧ (16 * 105 ≤ t → h.stopped = true) ∧
      (t < 16 * 100 → h.stopped = false) ∧ (16 * 100 ≤ t → t < 16 * 105 → h.stopped = g.stopped) ∧ h.held = g.held ∧
      h.queue = g.queue ∧ ∀ o, o ≠ d.val → u.gov o = s.gov o) ∧
    (s.boot.tripped = false → 16 * 115 ≤ t → ∃ u, exec (.thermalSample d t) s = .next u ∧ u.boot.tripped = true ∧
      u.boot.trips = s.boot.trips + 1 ∧ u.ctxs = [] ∧ u.hostMem = s.hostMem ∧ u.boot.fails = s.boot.fails) ∧
    (s.boot.tripped = true → 16 * 80 ≤ t → ∃ u, exec (.thermalSample d t) s = .next u ∧ u.boot.tripped = true) ∧
    (s.boot.tripped = true → t < 16 * 80 → (∀ o, o < 8 → o ≠ d.val → (s.gov o).temp < 16 * 80) →
      ∃ u, exec (.thermalSample d t) s = .next u ∧ u.boot.tripped = false ∧ u.boot.starts = s.boot.starts + 1)

/-- R370, R371: a snapshot writes the other copy of the telemetry page, with its header, die, port and context
records, then the index word, whose generation goes up by one; it changes no other byte. The model's choices in it:
log 4, 44, 52. -/
def Sys2Proof.Claims.TelemetrySnapshots : Prop :=
  ∀ s : State, s.memOn = true → s.hbmErr = [] → smWf 0 s.hbm = true →
    let copy := if s.telCopy then 0 else 1
    let page := 0xFFFF000000
    let base := page + 0x100000 * (1 + copy)
    ∃ t, exec .telemetrySnapshot s = .next t ∧ t.telGen = s.telGen + 1 ∧ t.telCopy = (!s.telCopy) ∧ t.sp = s.sp ∧
      t.ctxs = s.ctxs ∧
      let w := fun a => rdBytes t.hbm a 8
      w page = ((s.telGen + 1) * 2 + copy) % 2 ^ 64 ∧ w base = 0x14D4C4554 ∧ w (base + 8) = s.cycles % 2 ^ 64 ∧
      w (base + 16) = s.boot.trips % 2 ^ 64 ∧
      (∀ d, d < 8 → let r := base + 64 + 256 * d
        w r % 2 ^ 16 = (s.gov d).temp % 2 ^ 16 ∧ w (r + 8) = (s.gov d).grants % 2 ^ 64 ∧
        w (r + 32) = smGet 0 s.corrected d % 2 ^ 64 ∧ w (r + 40) = smGet 0 s.uncorrected d % 2 ^ 64) ∧
      (∀ p, p < 128 → let r := base + 2112 + 32 * p
        w r = (s.port p).downs % 2 ^ 64 ∧ w (r + 8) = (s.port p).upCycles % 2 ^ 64 ∧ w (r + 16) = (s.port p).replays % 2 ^ 64) ∧
      (∀ c i, c < 64 → i < 12 → w (base + 6208 + 128 * c + 8 * i) = smGet 0 (s.ctx c).stats i % 2 ^ 64) ∧
      ∀ q, (q < page ∨ (page + 8 ≤ q ∧ q < base) ∨ base + 14400 ≤ q) → smGet 0 t.hbm q = smGet 0 s.hbm q

/-- R16, R59, R67, R93, R250: the turn that the agenda gives first is taken. A sequencer that runs executes the
instruction that the word at its pc decodes to, which it fetches once and keeps until it leaves the instruction (a
word that R67 refuses executes as the illegal word), a firing the operation of its stage, and an event its own effect;
while a restored region has accesses to replay, or fences behind them that it does not stand at, neither its sequencer
nor a firing executes (R339); then no agent holds the turn. An address that is no instruction's, or that 32 bits do
not hold, raises SEQ.PC. The model's choices in it: log 1, 9. -/
def Obligations.StepRunsDecodedInstruction : Prop :=
  ∀ (s : State) (l : List Turn) (c f : Nat) (i : Instr),
    let x := s.ctx c
    let pc := x.seq.pc.toNat
    let p := x.spAddr pc
    let w := rdBytes s.sp p 4
    let base : State := { s with agenda := l }
    let runs := fun (u : Cur) (y : State) (i : Instr) => step s = endTurn (exec i { y with cur := u })
    let runsWord := fun (w : BitVec 32) (y : State) =>
      (∀ j, decodeSeq w.toNat = .ok j → runs (.seq c) y j) ∧
      (∀ e, decodeSeq w.toNat = .error e → runs (.seq c) y (.illegalSequencerWord w))
    let outside := x.seq.far = true ∨ 2 ^ 30 ≤ pc ∨ x.inBlock (p / 2 ^ 24) = false ∨ s.carved (p + 3) = true
    (s.agenda = .seq c :: l → x.seqRuns = true →
      (∀ v, x.seq.ir = some v → runsWord v base) ∧
      (x.seq.ir = none → s.spErr = [] → ¬ outside → runsWord (BitVec.ofNat 32 w)
        (base.modSeq c fun q => { q with ir := some (BitVec.ofNat 32 w) })) ∧
      (x.seq.ir = none → outside →
        step s = endTurn (.next (seqTrap c 0x0304 0 (x.seq.pc.setWidth 64) (x.seq.pc.setWidth 64) base)))) ∧
    (s.agenda = .seq c :: l → x.goesOn none = false → step s = endTurn (.next base)) ∧
    (s.agenda = .firing c f :: l → x.goesOn (some f) = false → step s = endTurn (.next base)) ∧
    (∀ k, (x.replays = true → x.goesOn k = false) ∧
      (x.st = .running → x.fab.fencing = true → k ∉ x.fab.heldFences → x.goesOn k = false)) ∧
    (∀ g m, s.agenda = .firing c f :: l → x.live = true → x.goesOn (some f) = true →
      (x.fab.firings.find? fun g => g.id == f) = some g → s.nodeImg x g.ref = some m → m.ops[g.stage]? = some i →
      runs (.firing c f) base i) ∧
    (s.agenda = .event i :: l → encode i = none → (∀ w, i ≠ .illegalSequencerWord w) → runs .none base i) ∧
    (∀ t, step s = .next t → t.cur = .none)

/-- R62 to R65, R70 to R75, R97 to R101, R121, R123, R130 to R132: the words that the rules give as worked figures, and words
of other formats written out from the encoding tables, decode to the instructions that they stand for. -/
def Obligations.DecodedWords : Prop :=
  (∀ p ∈ ([(0x00000000, .add 0 0 0 false false), (0x00611000, .add 3 1 2 false false), (0x00E53401, .sub 7 5 6 true false),
      (0x04637FFC, .addi 3 3 false 0x7FFC), (0x148300BF, .srai 4 3 false 63), (0x19301234, .movz 9 2 0x1234),
      (0x1D20BEEF, .movk 9 0 0xBEEF), (0x40257FFD, .bnez 5 false 0x7FFD), (0x442A7FFE, .bbs 1 10 false 0x7FFE),
      (0x61040005, .loop 1 4 false 5), (0x94000000, .yield), (0xE0000007, .trap 7), (0xE8000005, .brk 5),
      (0xE4000000, .tret)] : List (Nat × Instr)), decodeSeq p.1 = .ok p.2) ∧
  (∀ p ∈ ([(0x01400F88, .addInteger .i32 (.port 0) (.port 1) true), (0x02A0A780, .subInteger .n16 (.port 0) (.const 0) false),
      (0x04400F80, .mulhInteger .i32 (.port 0) (.port 1)), (0x05600888, .mad .i64 (.port 0) (.port 1) (.port 2) true),
      (0x0640F788, .negInteger .i32 (.port 0) true), (0x0700F780, .absInteger .i8 (.port 0) false),
      (0x09E03780, .maxInteger .n64 (.port 0) (.hold 2)), (0x11C00F80, .rotl .n32 (.port 0) (.port 1)),
      (0x13E0F780, .clz .n64 (.port 0)), (0x16A03F85, .cmpInteger .n16 (.port 0) (.hold 3) .ge),
      (0x15400880, .sel .i32 (.port 0) (.port 1) (.port 2))] : List (Nat × Instr)), decodeNode p.1 = .ok p.2)

/-- R60 to R67: decoding the encoding of a well-formed sequencer instruction gives the instruction back, with every operand. -/
def Sys2Proof.Claims.SequencerDecodeEncodeAgree : Prop :=
  ∀ (i : Instr) (w : Nat), Instr.wf i = true → encodeSeq i = some w → decodeSeq w = .ok i

/-- R70 to R75: decoding the encoding of a well-formed node operation gives the operation back, with every operand. -/
def Sys2Proof.Claims.NodeDecodeEncodeAgree : Prop :=
  ∀ (i : Instr) (w : Nat), Instr.wf i = true → encodeNode i = some w → decodeNode w = .ok i

/-- R67, R75: what a decoder accepts is well formed, and its encoding is the word: no two words mean one instruction. -/
def Sys2Proof.Claims.DecodedInstructionsAreWellFormed : Prop :=
  ∀ (w : Nat) (i : Instr), w < 2 ^ 32 →
    (decodeSeq w = .ok i → Instr.wf i = true ∧ encodeSeq i = some w) ∧
    (decodeNode w = .ok i → Instr.wf i = true ∧ encodeNode i = some w)

/-- Every step keeps the canonical form of the byte stores, of the store of contexts and of every register file. -/
def Obligations.StepKeepsCanonicalForms : Prop :=
  ∀ s t : State, s.memWf = true → s.ctxWf = true → s.regWf = true → step s = .next t →
    t.memWf = true ∧ t.ctxWf = true ∧ t.regWf = true

/-- The machine never stops: whichever turn is due, and in every state, a step has a next state. -/
def Obligations.EveryStepHasANextState : Prop := ∀ s : State, Safe s

/-- R304, R356, R365: right after reset the stores are in canonical form, every context is Free and disabled with no
tile resident, the device is at stage 0, lnk.etype holds 0x88B5, and nothing is pending. The model's choices in it:
log 3. -/
def Obligations.ResetState : Prop :=
  let s := State.reset
  s.memWf = true ∧ s.ctxWf = true ∧ s.regWf = true ∧ s.boot.stage = 0 ∧ s.etype = 0x88B5 ∧ s.ptRoot = 0 ∧ s.preempt = true ∧
  s.pwin = false ∧ s.sec.unlocked = false ∧ s.misses = [] ∧ s.hostWrs = [] ∧
  ∀ c, (s.ctx c).st = .free ∧ (s.ctx c).en = false ∧ (s.ctx c).tiles = 0 ∧ (s.ctx c).egress = 0 ∧ (s.ctx c).sys = 0x10

/-- R97 to R103: the frame of the instructions whose whole effect is one register: no byte of any memory, no other context, no
other register and no flag, loop level, window, binding or pending access changes. -/
def Sys2Proof.Claims.RegisterInstructionsFrame : Prop :=
  ∀ (c : Nat) (d a b r : SReg) (ea eb : Bool) (i : BitVec 15) (n : Fin 64) (q : Fin 4) (k : BitVec 16) (s s' t : State)
      (srcs : List Src) (j : Instr),
    (srcs, j) ∈ ([Instr.add d a b ea eb, .sub d a b ea eb, .mul d a b ea eb, .mulh d a b ea eb, .mulhn d a b ea eb,
        .and d a b ea eb, .or d a b ea eb, .xor d a b ea eb, .sll d a b ea eb, .srl d a b ea eb, .sra d a b ea eb,
        .slt d a b ea eb, .sltn d a b ea eb, .seq d a b ea eb, .min d a b ea eb, .max d a b ea eb, .minn d a b ea eb,
        .maxn d a b ea eb].map fun j => ([(a, ea), (b, eb)], j)) ++
      ([Instr.addi d a ea i, .slti d a ea i, .sltni d a ea i, .seqi d a ea i, .andi d a ea i, .ori d a ea i, .xori d a ea i,
        .slli d a ea n, .srli d a ea n, .srai d a ea n].map fun j => ([(a, ea)], j)) ++
      [([], .movz d q k), ([(d, false)], .movk d q k)] →
    Issues c srcs d s s' → s'.ctxWf = true → smWf 0 (s'.seq c).regs = true → NoBoundary (s'.seq c) → exec j s = .next t →
    let x := s'.ctx c
    let y := t.ctx c
    t.sp = s'.sp ∧ t.hbm = s'.hbm ∧ t.hostMem = s'.hostMem ∧ t.tagtab = s'.tagtab ∧ t.acc = s'.acc ∧ t.recs = s'.recs ∧
    (∀ o, o ≠ c → t.ctx o = s'.ctx o) ∧ (r ≠ d → y.seq.rd r = x.seq.rd r) ∧ y.seq.empty = x.seq.empty ∧
    y.seq.lc = x.seq.lc ∧ y.seq.lb = x.seq.lb ∧ y.seq.le = x.seq.le ∧ y.seq.act = x.seq.act ∧ y.seq.h = x.seq.h ∧
    y.seq.tvec = x.seq.tvec ∧ y.seq.epc = x.seq.epc ∧ y.seq.cause = x.seq.cause ∧ y.seq.tval = x.seq.tval ∧
    y.flags = x.flags ∧ y.windows = x.windows ∧ y.bindings = x.bindings ∧ y.fab.accesses = x.fab.accesses ∧ y.st = x.st

/-- R100, R101, R111, R112, R121 to R123: the frame of the instructions that go elsewhere or wait: branches, loop, arrive, wait,
fence, yield, qwait, trap, brk and tret change no byte of any memory and no register. -/
def Sys2Proof.Claims.ControlInstructionsFrame : Prop :=
  ∀ (c : Nat) (a : SReg) (e : Bool) (i : BitVec 15) (k : Fin 32) (v : Fin 4) (n : Fin 128) (g : Fin 32) (m : BitVec 9)
      (s t : State) (j : Instr),
    j ∈ [Instr.beqz a e i, .bnez a e i, .bltz a e i, .bgez a e i, .bgtz a e i, .blez a e i, .bbs k a e i, .bbc k a e i,
      .loop v a e i, .arrive n, .wait n, .fence g, .fenceAcq g, .fenceRel g, .yield, .qwait, .trap i, .brk m, .tret] →
    s.cur = .seq c → s.ctxWf = true → (s.seq c).faults = [] → exec j s = .next t →
    t.sp = s.sp ∧ t.hbm = s.hbm ∧ t.hostMem = s.hostMem ∧ t.acc = s.acc ∧ t.tagtab = s.tagtab ∧
    (t.seq c).regs = (s.seq c).regs ∧ (t.seq c).tvec = (s.seq c).tvec ∧ ∀ o, o ≠ c → t.ctx o = s.ctx o

/-- R290, R291: the words of a configuration image that the loader writes: its identity, the planes and clusters, 13
words of zeros, a descriptor of 16 bytes for each relative cluster and plane offset, which gives the byte offset and
the length in words of its part, and the parts: a record for each node, which names its PE, slot and length before its
words, and the end record; a part without a node has no word. -/
def Sys2Proof.Claims.ImagesAreLaidOut : Prop :=
  ∀ (ident c f i : Nat) (ns : List ImageNode), 1 ≤ f → f ≤ 4 → i < c * f →
    let ws := imageWords ident c f ns
    let w := fun j => ws.getD j 0
    let d := 16 + 4 * i
    let mine := ns.filter fun n => decide (n.ref.cl = i / f ∧ n.ref.plane = i % f)
    let part := if mine = [] then [] else
      (mine.flatMap fun n => (n.ref.pe * 2 ^ 16 + n.ref.slot * 2 ^ 8 + n.words.length) :: n.words) ++ [0x80000000]
    w 0 + w 1 * 2 ^ 32 = ident % 2 ^ 64 ∧ w 2 = f + c * 2 ^ 16 ∧ (∀ j, 3 ≤ j → j < 16 → w j = 0) ∧
    w (d + 1) = part.length ∧ w (d + 2) = 0 ∧ w (d + 3) = 0 ∧ w d % 4 = 0 ∧
    (ws.drop (w d / 4)).take (w (d + 1)) = part

/-- R11, R281, R285: the loader refuses a load and reports it to the host, or leaves the load record at its address: a
refusal appends its code, reason and node to the host's reports and changes no record, no node, no context and no byte
of any memory; an accepted load stores the record and reports nothing, and no node is placed and no context changes.
The model's choices in it: log 5, 93, 102, 103. -/
def Sys2Proof.Claims.LoadsEndInARecordOrAReport : Prop :=
  ∀ (s : State) (ia : Nat) (object : List Byte) (q : LoadReq),
    (∀ r, loadObject s (s.loadEnv object q) object q = .error r →
      ∃ t, runTurn (.load ia object q) s = .next t ∧ t.ldrLog = s.ldrLog ++ [r] ∧ t.records = s.records ∧
        t.nodes = s.nodes ∧ t.ctxs = s.ctxs ∧ t.sp = s.sp ∧ t.hbm = s.hbm ∧ t.hostMem = s.hostMem) ∧
    (∀ l, loadObject s (s.loadEnv object q) object q = .ok l →
      ∃ t, runTurn (.load ia object q) s = .next t ∧ t.records = smIns s.records ia l.rec_ ∧ t.ldrLog = s.ldrLog ∧
        t.nodes = s.nodes ∧ t.ctxs = s.ctxs ∧ t.sp = s.sp ∧ t.hostMem = s.hostMem)

/-- R281, R285: a field of a load request out of its range is refused with LDR.FORMAT, reason 6, before any image is
chosen, where the object and its requirement lists are well formed. The model's choices in it: log 105. -/
def Sys2Proof.Claims.RequestsOutOfRangeAreRefused : Prop :=
  ∀ (s : State) (env : LoadEnv) (object : List Byte) (q : LoadReq) (ss : List Sect),
    checkObject env object = .ok ss → (∀ x ∈ ss, x.kind = 1 → checkReqs x = .ok ()) →
    (q.clusters ∉ [1, 2, 4, 8, 16, 32, 64] ∨ q.ovStore % 65536 ≠ 0 ∨ 4194304 < q.ovStore ∨ q.ovBase % 65536 ≠ 0 ∨
      q.ovSize % 65536 ≠ 0 ∨ 4095 * 65536 < q.ovSize ∨ ∃ p ∈ q.pools, p.2 = 0 ∨ 4096 < p.2) →
    loadObject s env object q = .error { code := 0x0A06, reason := 6, node := none }

/-- R284: the loader takes a native image that matches, the one of the highest preference, among those of the highest
target, and among those of the lowest index; without one it takes image 0 where that matches, and else none. -/
def Sys2Proof.Claims.LoaderChoosesTheImage : Prop :=
  ∀ (s : State) (version : Nat) (q : LoadReq) (ss : List Sect),
    let pref := fun i => ((sectsIn ss i 4).map (·.pref)).headD 0
    let hit := fun i => imageMatch s version q ss true i = true
    (∀ i, chooseImage s version q ss true = some i → i ≠ 0 →
      i ∈ imagesOf ss ∧ hit i ∧ ∀ j ∈ imagesOf ss, j ≠ 0 → hit j →
        pref j < pref i ∨ (pref j = pref i ∧ (targetOf ss j < targetOf ss i ∨ (targetOf ss j = targetOf ss i ∧ i ≤ j)))) ∧
    ((∀ j ∈ imagesOf ss, j ≠ 0 → ¬ hit j) → hit 0 → chooseImage s version q ss true = some 0) ∧
    ((∀ j ∈ imagesOf ss, j ≠ 0 → ¬ hit j) → ¬ hit 0 → chooseImage s version q ss true = none) ∧
    (∀ j ∈ imagesOf ss, j ≠ 0 → hit j → ∃ i, i ≠ 0 ∧ chooseImage s version q ss true = some i)

/-- R286: with F the sum of the numeric counts and A the number of auto tiles, each auto tile receives floor((f × c − F) / A)
copies; F above f × c is refused with LDR.FRAMES, and less than one copy with LDR.PLACE. -/
def Sys2Proof.Claims.TilesAreReplicated : Prop :=
  ∀ (f c : Nat) (tiles : List (Option Nat)), 1 ≤ f → f ≤ 4 →
    let total := (tiles.map fun t => t.getD 0).sum
    let autos := (tiles.filter (·.isNone)).length
    let r := (f * c - total) / autos
    (f * c < total → copiesOf f c tiles = .error { code := 0x0A03, reason := 0, node := none }) ∧
    (total ≤ f * c → autos ≠ 0 → r < 1 → copiesOf f c tiles = .error { code := 0x0A07, reason := 0, node := none }) ∧
    (total ≤ f * c → autos = 0 ∨ 1 ≤ r → copiesOf f c tiles = .ok (tiles.map fun t => t.getD r))

/-- R298: the tag check reports the first failing reason in the order of the table, with the lowest graph node number that
shows it, and a fabric load passes when no reason applies. -/
def Sys2Proof.Claims.TagCheckReportsTheFirstReason : Prop :=
  ∀ (s : State) (g : Graph) (lsize : Nat) (shared : Shown),
    let shows := fun k => (g.reasons s lsize shared).getD k { nums := [], bare := false }
    (∀ r n, g.check s lsize shared = some (r, n) →
      1 ≤ r ∧ r ≤ 12 ∧ (∀ k, k + 1 < r → (shows k).nums = [] ∧ (shows k).bare = false) ∧
      ((shows (r - 1)).nums ≠ [] ∨ (shows (r - 1)).bare = true) ∧
      (∀ m, n = some m → m ∈ (shows (r - 1)).nums ∧ ∀ j ∈ (shows (r - 1)).nums, m ≤ j) ∧
      (n = none → (shows (r - 1)).nums = [])) ∧
    (g.check s lsize shared = none ↔ ∀ k < 12, (shows k).nums = [] ∧ (shows k).bare = false)

/-! ## Statements of several parts -/

/-- Immediate forms compute as the ALU group; movz and movk write one quarter (R98, R62, R99). -/
def Obligations.ImmediatesAndMoves : Prop :=
  ImmediateFormsUseExtendedImmediate ∧ MovesWriteOneQuarter

/-- Every issuing form waits or traps on its empty sources and destination; a register write reads back, s0 reads 0 (R61,
R95, R96, R110, R348). -/
def Obligations.IssueAndRegisterFile : Prop :=
  IssueOrder ∧ EveryFormIssues ∧ RegisterWriteReadsBack

/-- Retirement goes to the next word; loops start, count, wrap and end at their boundary (R102, R103, R101). -/
def Obligations.RetirementAndLoops : Prop :=
  RetirementAdvancesPc ∧ LoopBoundaryCountsAndWraps ∧ LoopStartsLevel

/-- Branches compare with zero or test a bit; jal and jalr link and go to their target (R100). -/
def Obligations.BranchesAndJumps : Prop :=
  BranchesCompareWithZero ∧ JumpsLinkAndGo

/-- Traps write the trap registers, and suspend or retire the graph by their code (R95, R122, R322, R343, R10, R310, R320,
R180, R342). -/
def Obligations.TrapsTakeTheirOutcomes : Prop :=
  TrapEntryWritesTrapRegisters ∧ TrapOutcomeSuspendsOrRetires ∧ NodeTrapTakesItsOutcome

/-- Trap, brk, tret, the illegal word, and sequencer breakpoints, which fire or count a pass (R67, R102, R121, R122, R123,
R348). -/
def Obligations.TrapInstructionsAndBreakpoints : Prop :=
  TrapInstructionsAndReturn ∧ SequencerBreakpointFires ∧ SequencerBreakpointCounts

/-- Run starts a period, qwait waits for its end, yield and qwait take a pre-emption, quiescence ends it (R104, R105,
R106, R110, R113, R15, R53, R214). -/
def Obligations.PeriodsRunAndEnd : Prop :=
  RunStartsPeriod ∧ QwaitWaitsForQuiescence ∧ YieldTakesPreemption ∧ QuiescenceEndsThePeriod

/-- Csrr, csrw, csrs and csrc read and write the CSRs; hold registers reach every PE (R52, R66, R94, R103, R107, R120,
R67, R366). -/
def Obligations.CsrsReadAndWrite : Prop :=
  CsrReadAndWrite ∧ HoldWritesReachEveryPe

/-- Ld, st and wld check and issue their accesses, and long-latency writes fill their register (R61, R96, R115, R166,
R318, R114). -/
def Obligations.SequencerMemoryAccess : Prop :=
  LdAndStIssueOneAccess ∧ ScratchpadAddressChecks ∧ WldReadsBoundedBytes ∧ LongLatencyWriteFillsRegister

/-- Send posts a legal header to its engine; estat samples a status word (R82, R108, R109, R187). -/
def Obligations.SequencerSendAndEstat : Prop :=
  SendPostsHeader ∧ EstatSamplesStatus

/-- Arrive, wait and the fences of a sequencer retire or wait as their rules say (R111, R257, R258, R379, R112, R248). -/
def Obligations.SequencerBarriersAndFences : Prop :=
  SequencerBarriers ∧ SequencerFencesWaitForAccesses

/-- Ubind binds the lowest free handle; uflush and unbind apply the pending updates (R117, R208, R118). -/
def Obligations.UpdateBindings : Prop :=
  UbindBindsLowestHandle ∧ UflushAndUnbindApply

/-- Tbind and its commit bind a tile; ctx.ctl.en and ctx.fault.go change a context (R119, R315, R272, R304, R310, R314,
R339, R340). -/
def Obligations.TileBindingsAndContextEnable : Prop :=
  TbindAsksScheduler ∧ BindingEnableAndGo

/-- Float operations per element: sums, products, quotients and roots are the exact ones rounded once; comparisons and
signs of numbers (R133, R134, R135, R136, R48, R42, R47, R49, R50). -/
def Obligations.FloatOperationsPerElement : Prop :=
  FloatOperationsApply ∧ FiniteResultsAreRoundedOnce ∧ NumbersAreOrdered

/-- Infinities, zeros, negative and NaN operands of the float operations, with their flags (R133, R136, R41, R134, R135). -/
def Obligations.FloatSpecialValues : Prop :=
  FloatSpecialOperands ∧ FloatNanOperands

/-- Conversions, block operations, reductions and scans: their values, flags and masks, and OP.SCALE of a scale mismatch
(R39, R41, R51, R137, R43, R44, R141, R142, R143, R144, R48, R126, R138, R139, R56, R57, R146, R147). -/
def Obligations.ConversionsBlocksAndReductions : Prop :=
  ConversionsOfValues ∧ BlockValues ∧ ConversionsAndBlocksPerElement ∧ ReductionsAndScans

/-- Bcast and shuf move elements; a stage hands its result on or sends it (R145, R16, R53, R126, R128). -/
def Obligations.LaneMovesAndStageEnds : Prop :=
  BroadcastAndShuffle ∧ StageEndHandsResultOn

/-- Alloc, call, free, retag, ctag and tagrd take, release and change tags (R153, R162, R22, R152, R23, R154, R155, R156,
R157). -/
def Obligations.TagOperations : Prop :=
  AllocAndCallTakeTags ∧ FreeReleasesPlainTags ∧ RetagCtagTagrd

/-- Steer, merge, dup, gate and ret send their operand where their rules say; an output waits for room in every queue
(R150, R158, R160, R161, R159, R163, R16, R321, R325, R19, R78, R287). -/
def Obligations.FlowOperations : Prop :=
  SteerMergeDup ∧ GateContinuesOrExits ∧ RetReturnsToCaller ∧ OutputsWaitForRoom ∧ DestinationsLieOnTheirPlane

/-- Rdc applies the values of a ring in the order of their ordinals (R164, R22, R105). -/
def Obligations.RdcAppliesInRingOrder : Prop :=
  RdcAppliesNextOrdinal ∧ RootRingStartsAtThePeriod

/-- Loads, atomics and stores issue an access per element; window operands, acceptance and load results (R165, R169, R170,
R166, R73, R244, R167). -/
def Obligations.NodeAccessesIssueAndComplete : Prop :=
  NodeLoadsAndAtomicsIssueAccesses ∧ NodeStoresIssueAccesses ∧ WindowOperandsAreReadByElement ∧ AcceptanceAndLoadResults

/-- Lookup, insert and evict on the tag table; upd sends a pair per element (R171, R169, R174, R172, R210). -/
def Obligations.TagTableAndUpdates : Prop :=
  TagTableOperations ∧ UpdSendsPairs

/-- Arrive, wait, fence, yield, send, trap and brk of a node (R173, R174, R175, R176, R379, R82, R177, R178, R179, R342,
R347, R349). -/
def Obligations.NodeSynchronisationAndTraps : Prop :=
  NodeBarriersFencesAndYield ∧ NodeSendTrapAndBrk

/-- Misses walk the page table, page faults drain, the page-table registers, and scrub reads (R334, R335, R337, R339,
R124, R188, R321, R340, R336, R344, R345). -/
def Obligations.TranslationPageFaultsAndScrubs : Prop :=
  MissesWalkTheTable ∧ PageFaultDrains ∧ PageTableRegisters ∧ ScrubCorrectsOrLogs

/-- Sources issue their points with fresh tags; allocators grant slots and frees release them (R22, R105, R320, R325, R20,
R23, R154). -/
def Obligations.PointsAndTags : Prop :=
  SourcesIssueThePoints ∧ TagsAreGrantedAndFreed

/-- Plane switches, the end of a configuration load, and reply tokens to node ports (R32, R104, R291, R292, R377). -/
def Obligations.PlanesLoadsAndReplies : Prop :=
  PlaneSwitchesToNextWaiting ∧ LoadCompletionWritesPlanes ∧ ReplyTokenReachesItsPort

/-- The watchdog retires a graph that has stood still and writes its hang map; barrier phases complete (R37, R324, R256,
R257, R258, R379). -/
def Obligations.WatchdogAndBarrierPhases : Prop :=
  WatchdogRetiresTheGraph ∧ HangMapNamesTheWaits ∧ BarrierPhasesComplete

/-- Sorters accept, spill and compact pairs and apply their records; an apply completes (R210, R211, R212, R213, R220,
R214, R215, R216, R118, R124, R209, R218, R367). -/
def Obligations.SortersAndApplies : Prop :=
  SorterAcceptsPairs ∧ SortersSpillAndCompact ∧ SorterAppliesRecords ∧ ApplyCompletes

/-- The copy commands move their rows access by access, copy.seg cuts rows into pieces and keeps its carries, gath fills a
latch (R189, R190, R191, R244, R250, R195, R192, R193, R194, R196, R197). -/
def Obligations.CopyAndGatherEngines : Prop :=
  EngineAccessesTakeATurnEach ∧ EngineAccessesMoveTheirBytes ∧ CopiesMoveTheirRows ∧ CopySegCutsRowsIntoPieces ∧ GathFillsTheLatch

/-- Press commands check their bodies, wait for leave, work, and read tiles out (R199, R205, R206, R207). -/
def Obligations.PressCommands : Prop :=
  PressCommandsCheckThenWork ∧ PressReadsOutItsTile

/-- Press.mm and press.bf accumulate the exact products into their tile, rounded once, with mask, fill, checksums and
result word (R195, R199, R200, R201, R202, R203, R204, R43, R54, R55, R205). -/
def Obligations.PressWritesItsTile : Prop :=
  PressMultipliesIntoItsTile ∧ BlockResultsAreRoundedOnce ∧ PressResultFillsTheTile ∧ ChecksumsTakeElementValues

/-- Inboxes accept, governors grant leave, commits report, follow-ons are read and delivered (R181, R206, R218, R367,
R368, R369, R108, R110, R183, R184, R185, R186, R187, R188, R193, R237, R82). -/
def Obligations.EngineInboxesAndCommits : Prop :=
  InboxesAndLeave ∧ CommitReportsTheOutcome ∧ CommitReadsTheFollowOn ∧ FollowOnsAreDelivered

/-- Launch, resume, retire, mark and stop tokens act on their context or are refused (R307, R308, R309, R310, R312, R313,
R320, R329). -/
def Obligations.LaunchAndIngressTokens : Prop :=
  LaunchQueuesTheTask ∧ IngressTokensActOnContexts

/-- The first ready task is placed on a free block with its first image, or requests a pre-emption (R92, R302, R307, R316,
R317, R323, R10, R104, R290, R308, R320). -/
def Obligations.PlacementAndPreemption : Prop :=
  TasksArePlaced ∧ LaunchLoadsItsFirstImage ∧ HigherPriorityPreempts

/-- A complete drain saves its region with its scratchpad; a retiring context writes its completion token (R305, R310,
R320, R321, R322, R323, R329, R339, R342, R332, R341, R312, R326, R327). -/
def Obligations.DrainsAndCompletionTokens : Prop :=
  DrainEndsInASave ∧ FrameHoldsTheScratchpad ∧ CompletionTokenIsWritten

/-- Writes of BAR0 take their fields under their access rules, and reads find them (R7, R272, R304, R306, R331, R346,
R350, R352, R363, R365, R340, R357). -/
def Obligations.RegistersOfBar0 : Prop :=
  RegisterWritesTakeTheirFields ∧ RegistersReadTheirFields

/-- Posted writes, tokens, reads and atomic requests of the host, and the accesses of peers (R259, R272, R306, R209, R269,
R270, R271, R365, R333, R341, R352). -/
def Obligations.HostAndPeers : Prop :=
  TokensReachTheirChannel ∧ HostWrites ∧ HostReads ∧ PeersReadAndWrite

/-- Posted stores end, ports fail and train, edge adders sum (R167, R250, R260, R342, R352, R351, R353, R133, R354). -/
def Obligations.LinksAndPostedStores : Prop :=
  PostedStoresEnd ∧ LinkPorts ∧ EdgeAddersSum

/-- Firmware loads, authorised commands, attestation and the debug lock (R355, R358, R361, R359, R360, R363, R362). -/
def Obligations.SecurityCommands : Prop :=
  FirmwareLoads ∧ AuthorisedCommands ∧ DebugLockAndAttestation

/-- Resets and starts, thermal limits, and the telemetry page (R356, R357, R363, R369, R370, R371). -/
def Obligations.BootLimitsAndTelemetry : Prop :=
  ResetsAndStarts ∧ ThermalLimits ∧ TelemetrySnapshots

/-- The loader refuses with a report or leaves a record; its images, choice of image, copies and tag check (R11, R281,
R285, R290, R291, R284, R286, R298). -/
def Obligations.LoaderChecksAndRecords : Prop :=
  LoadsEndInARecordOrAReport ∧ ImagesAreLaidOut ∧ RequestsOutOfRangeAreRefused ∧ LoaderChoosesTheImage ∧ TilesAreReplicated ∧ TagCheckReportsTheFirstReason

/-- Decode of encode is the instruction, and encode of decode is the word (R60, R61, R62, R63, R64, R65, R66, R67, R70,
R71, R72, R73, R74, R75). -/
def Obligations.DecodeAndEncodeAgree : Prop :=
  SequencerDecodeEncodeAgree ∧ NodeDecodeEncodeAgree ∧ DecodedInstructionsAreWellFormed

/-- What register and control instructions of a sequencer leave unchanged (R97, R98, R99, R100, R101, R102, R103, R111,
R112, R121, R122, R123). -/
def Obligations.InstructionFrames : Prop :=
  RegisterInstructionsFrame ∧ ControlInstructionsFrame
end

