-- ==== Sys2Proof/Laws/Sparse.lean ====
section
/-! SUPPORT. The laws of sparse stores: reading after a write, and that every operation on them keeps the canonical form. -/

namespace Sys2Proof.Machine

variable {α : Type} [DecidableEq α] {d : α}

/-- A store whose keys all lie above a bound lists no key below it. -/
theorem smGet_below {lo i : Nat} {m : SMap α} (h : smWfFrom d lo m = true) (hi : i < lo) : smGet d m i = d := by
  cases m with
  | nil => rfl
  | cons p t =>
    simp only [smWfFrom, Bool.and_eq_true, decide_eq_true_eq] at h
    have h1 : i ≠ p.1 := by omega
    have h2 : i < p.1 := by omega
    simp [smGet, h1, h2]

/-- A weaker bound. -/
theorem smWfFrom_mono {lo lo' : Nat} {m : SMap α} (h : smWfFrom d lo m = true) (hl : lo' ≤ lo) :
    smWfFrom d lo' m = true := by
  cases m with
  | nil => rfl
  | cons p t =>
    simp only [smWfFrom, Bool.and_eq_true, decide_eq_true_eq] at h ⊢
    exact ⟨⟨by omega, h.1.2⟩, h.2⟩

theorem smWfFrom_smDel {lo i : Nat} {m : SMap α} (h : smWfFrom d lo m = true) : smWfFrom d lo (smDel m i) = true := by
  induction m generalizing lo with
  | nil => rfl
  | cons p t ih =>
    simp only [smWfFrom, Bool.and_eq_true, decide_eq_true_eq] at h
    simp only [smDel]
    split
    · exact smWfFrom_mono h.2 (by omega)
    · split
      · simp [smWfFrom, h.1.1, h.1.2, h.2]
      · simp [smWfFrom, h.1.1, h.1.2, ih h.2]

theorem smWfFrom_smIns {lo i : Nat} {x : α} {m : SMap α} (h : smWfFrom d lo m = true) (hi : lo ≤ i) (hx : x ≠ d) :
    smWfFrom d lo (smIns m i x) = true := by
  induction m generalizing lo with
  | nil => simp [smIns, smWfFrom, hi, hx]
  | cons p t ih =>
    simp only [smWfFrom, Bool.and_eq_true, decide_eq_true_eq] at h
    simp only [smIns]
    split
    · rename_i he
      simp [smWfFrom, hx, he, h.2, h.1.1]
    · split
      · have : i + 1 ≤ p.1 := by omega
        simp [smWfFrom, hi, hx, h.1.2, h.2, this]
      · simp [smWfFrom, h.1.1, h.1.2, ih h.2 (by omega : p.1 + 1 ≤ i)]

/-- A write keeps the canonical form. -/
theorem smWf_smSet {m : SMap α} (h : smWf d m = true) (i : Nat) (x : α) : smWf d (smSet d m i x) = true := by
  unfold smWf smSet
  split
  · exact smWfFrom_smDel h
  · exact smWfFrom_smIns h (Nat.zero_le _) ‹_›

theorem smGet_smDel_same {lo i : Nat} {m : SMap α} (h : smWfFrom d lo m = true) : smGet d (smDel m i) i = d := by
  induction m generalizing lo with
  | nil => rfl
  | cons p t ih =>
    simp only [smWfFrom, Bool.and_eq_true, decide_eq_true_eq] at h
    simp only [smDel]
    split
    · rename_i he
      exact smGet_below h.2 (by omega)
    · rename_i he
      split
      · rename_i hl
        simp [smGet, he, hl]
      · rename_i hl
        simp [smGet, he, hl, ih h.2]

theorem smGet_smDel_ne {lo i j : Nat} {m : SMap α} (h : smWfFrom d lo m = true) (hij : j ≠ i) :
    smGet d (smDel m i) j = smGet d m j := by
  induction m generalizing lo with
  | nil => rfl
  | cons p t ih =>
    simp only [smWfFrom, Bool.and_eq_true, decide_eq_true_eq] at h
    simp only [smDel]
    split
    · rename_i he
      have hj : j ≠ p.1 := by omega
      by_cases hl : j < p.1
      · simp [smGet, hj, hl, smGet_below h.2 (show j < p.1 + 1 by omega)]
      · simp [smGet, hj, hl]
    · split
      · rfl
      · simp only [smGet, ih h.2]

omit [DecidableEq α] in
theorem smGet_smIns_same (m : SMap α) (i : Nat) (x : α) : smGet d (smIns m i x) i = x := by
  induction m with
  | nil => simp [smIns, smGet]
  | cons p t ih =>
    simp only [smIns]
    split
    · simp [smGet]
    · rename_i he
      split
      · simp [smGet]
      · rename_i hl
        simp [smGet, he, hl, ih]

omit [DecidableEq α] in
theorem smGet_smIns_ne {m : SMap α} {i j : Nat} (x : α) (hij : j ≠ i) : smGet d (smIns m i x) j = smGet d m j := by
  induction m with
  | nil => simp [smIns, smGet, hij]
  | cons p t ih =>
    simp only [smIns]
    split
    · rename_i he
      have : j ≠ p.1 := by omega
      simp [smGet, this, he]
    · split
      · rename_i he hl
        by_cases hj : j < i
        · have h1 : j ≠ p.1 := by omega
          have h2 : j < p.1 := by omega
          simp [smGet, hij, hj, h1, h2]
        · simp [smGet, hij, hj]
      · simp only [smGet, ih]

/-- A read after a write of the same key of a canonical store gives the value written. -/
theorem smGet_smSet_same {m : SMap α} (h : smWf d m = true) (i : Nat) (x : α) : smGet d (smSet d m i x) i = x := by
  unfold smSet
  split
  · rename_i hx
    rw [smGet_smDel_same h, hx]
  · exact smGet_smIns_same m i x

/-- A write of a canonical store leaves every other key alone. -/
theorem smGet_smSet_ne {m : SMap α} (h : smWf d m = true) {i j : Nat} (x : α) (hij : j ≠ i) :
    smGet d (smSet d m i x) j = smGet d m j := by
  unfold smSet
  split
  · exact smGet_smDel_ne h hij
  · exact smGet_smIns_ne x hij

/-- A value other than the default is read back from any store. -/
theorem smGet_smSet_of_ne_default {m : SMap α} (i : Nat) {x : α} (hx : x ≠ d) : smGet d (smSet d m i x) i = x := by
  simp [smSet, hx, smGet_smIns_same]

theorem smWfFrom_filter {lo : Nat} {m : SMap α} (f : Nat × α → Bool) (h : smWfFrom d lo m = true) :
    smWfFrom d lo (m.filter f) = true := by
  induction m generalizing lo with
  | nil => rfl
  | cons p t ih =>
    simp only [smWfFrom, Bool.and_eq_true, decide_eq_true_eq] at h
    by_cases hf : f p
    · simp [hf, smWfFrom, h.1.1, h.1.2, ih h.2]
    · simp only [List.filter_cons, hf]
      exact smWfFrom_mono (ih h.2) (by omega)

/-- A part of a canonical store is canonical. -/
theorem smWf_filter {m : SMap α} (f : Nat × α → Bool) (h : smWf d m = true) : smWf d (m.filter f) = true :=
  smWfFrom_filter f h

/-- The removal of a range of keys keeps the canonical form. -/
theorem smWf_smClear {m : SMap α} (lo hi : Nat) (h : smWf d m = true) : smWf d (smClear m lo hi) = true :=
  smWfFrom_filter _ h

theorem smWfFrom_smMap {lo : Nat} {m : SMap α} (f : Nat → α → α) (h : smWfFrom d lo m = true) :
    smWfFrom d lo (smMap d f m) = true := by
  unfold smMap
  induction m generalizing lo with
  | nil => rfl
  | cons p t ih =>
    simp only [smWfFrom, Bool.and_eq_true, decide_eq_true_eq] at h
    by_cases hd : f p.1 p.2 = d
    · rw [List.filterMap_cons]
      simp only [hd, if_true]
      exact smWfFrom_mono (ih h.2) (by omega)
    · rw [List.filterMap_cons]
      simp only [hd, if_false, smWfFrom, h.1.1, ih h.2, decide_true, Bool.and_true, Bool.true_and, decide_eq_true_eq]
      simpa using hd

/-- A change of every listed value keeps the canonical form. -/
theorem smWf_smMap {m : SMap α} (f : Nat → α → α) (h : smWf d m = true) : smWf d (smMap d f m) = true :=
  smWfFrom_smMap f h

/-- A slice written back keeps the canonical form. -/
theorem smWf_smPut {m : SMap α} (lo : Nat) (t : SMap α) (h : smWf d m = true) : smWf d (smPut d m lo t) = true := by
  induction t generalizing m with
  | nil => exact h
  | cons p t ih => exact ih (smWf_smSet h _ _)

/-- A fold of writes keeps the canonical form. -/
theorem smWf_foldl_smSet {β : Type} (k : β → Nat) (v : SMap α → β → α) (l : List β) {m : SMap α} (h : smWf d m = true) :
    smWf d (l.foldl (fun m b => smSet d m (k b) (v m b)) m) = true := by
  induction l generalizing m with
  | nil => exact h
  | cons b l ih => exact ih (smWf_smSet h _ _)

end Sys2Proof.Machine
end

