-- ==== Sys2Proof/Laws/Memory.lean ====
section
/-! SUPPORT. The laws of the byte stores: reading after a write, what a write leaves alone, and that every memory operation
keeps the canonical form. -/

namespace Sys2Proof.Machine

/-! ### Bytes -/

/-- A write of bytes keeps the canonical form. -/
theorem wf_wrBytes (n : Nat) {m : SMap Byte} (h : Memory.wf m = true) (a v : Nat) : Memory.wf (wrBytes m a v n) = true := by
  induction n generalizing m a v with
  | zero => exact h
  | succ n ih => exact ih (smWf_smSet h _ _) _ _

/-- A byte outside the bytes written reads as before. -/
theorem smGet_wrBytes_outside (n : Nat) {m : SMap Byte} (h : Memory.wf m = true) (a v : Nat) {b : Nat}
    (hb : b < a ∨ a + n ≤ b) : smGet 0 (wrBytes m a v n) b = smGet 0 m b := by
  induction n generalizing m a v with
  | zero => rfl
  | succ n ih =>
    rw [wrBytes, ih (smWf_smSet h _ _) _ _ (by omega)]
    exact smGet_smSet_ne h _ (by omega)

/-- Bytes written read back, as far as they go. -/
theorem rdBytes_wrBytes (n : Nat) {m : SMap Byte} (h : Memory.wf m = true) (a v : Nat) :
    rdBytes (wrBytes m a v n) a n = v % 256 ^ n := by
  induction n generalizing m a v with
  | zero => simp [rdBytes, Nat.mod_one]
  | succ n ih =>
    have hs := smWf_smSet h a (BitVec.ofNat 8 v)
    rw [wrBytes, rdBytes, ih hs, smGet_wrBytes_outside n hs (a + 1) (v / 256) (b := a) (by omega), smGet_smSet_same h]
    rw [BitVec.toNat_ofNat, show 256 ^ (n + 1) = 256 * 256 ^ n from Nat.pow_succ', Nat.mod_mul]

/-- Bytes outside the bytes written read as before. -/
theorem rdBytes_wrBytes_outside (k n : Nat) {m : SMap Byte} (h : Memory.wf m = true) (a v b : Nat)
    (hb : b + k ≤ a ∨ a + n ≤ b) : rdBytes (wrBytes m a v n) b k = rdBytes m b k := by
  induction k generalizing b with
  | zero => rfl
  | succ k ih => rw [rdBytes, rdBytes, ih (b + 1) (by omega), smGet_wrBytes_outside n h a v (by omega)]

theorem wf_wrWords (ws : List Word) {m : SMap Byte} (h : Memory.wf m = true) (a : Nat) :
    Memory.wf (wrWords m a ws) = true := by
  induction ws generalizing m a with
  | nil => exact h
  | cons w t ih => exact ih (wf_wrBytes 8 h _ _) _

/-! ### SECDED -/

theorem wf_eccWord {e : Ecc} (h : Memory.wf e.m = true) (w : Nat) : Memory.wf (e.word w).m = true := by
  unfold Ecc.word
  simp only
  split
  · exact h
  · split
    · exact wf_wrBytes 8 h _ _
    · exact h

theorem wf_eccRead {m : SMap Byte} (h : Memory.wf m = true) (errs : SMap Word) (a n : Nat) :
    Memory.wf (eccRead m errs a n).m = true := by
  unfold eccRead
  split
  · exact h
  · generalize wordsOf a n = ws
    suffices ∀ e : Ecc, Memory.wf e.m = true → Memory.wf (ws.foldl Ecc.word e).m = true from this _ h
    induction ws with
    | nil => exact fun _ he => he
    | cons w t ih => exact fun e he => ih _ (wf_eccWord he w)

theorem wf_eccWrite {m : SMap Byte} (h : Memory.wf m = true) (errs : SMap Word) (a n : Nat) :
    Memory.wf (eccWrite m errs a n).m = true := by
  unfold eccWrite
  split
  · exact h
  · generalize wordsOf a n = ws
    suffices ∀ e : Ecc, Memory.wf e.m = true → Memory.wf (ws.foldl
        (fun e w => if a ≤ 8 * w ∧ 8 * w + 8 ≤ a + n then { e with errs := smSet 0 e.errs w 0 } else e.word w) e).m = true
      from this _ h
    induction ws with
    | nil => exact fun _ he => he
    | cons w t ih =>
      intro e he
      refine ih _ ?_
      dsimp only
      split
      · exact he
      · exact wf_eccWord he w

/-! ### The stores of the package -/

@[simp] theorem sp_countEcc (s : State) (d f b : Nat) : (s.countEcc d f b).sp = s.sp := by
  unfold State.countEcc; split <;> rfl
@[simp] theorem hbm_countEcc (s : State) (d f b : Nat) : (s.countEcc d f b).hbm = s.hbm := by
  unfold State.countEcc; split <;> rfl
@[simp] theorem hostMem_countEcc (s : State) (d f b : Nat) : (s.countEcc d f b).hostMem = s.hostMem := by
  unfold State.countEcc; split <;> rfl
@[simp] theorem peerMem_countEcc (s : State) (d f b : Nat) : (s.countEcc d f b).peerMem = s.peerMem := by
  unfold State.countEcc; split <;> rfl
@[simp] theorem ctxs_countEcc (s : State) (d f b : Nat) : (s.countEcc d f b).ctxs = s.ctxs := by
  unfold State.countEcc; split <;> rfl

/-- What the counting of one word keeps, the counting of any words keeps. -/
theorem countWords_keeps {α : Type} (g : State → α) (h : ∀ s d f b, g (s.countEcc d f b) = g s) (s : State) (d : Nat → Nat)
    (f b : List Nat) : g (s.countWords d f b) = g s := by
  unfold State.countWords
  have step : ∀ (k : Nat → State → State), (∀ w s, g (k w s) = g s) → ∀ (l : List Nat) (s : State),
      g (l.foldl (fun s w => k w s) s) = g s := by
    intro k hk l
    induction l with
    | nil => intro s; rfl
    | cons w t ih => intro s; rw [List.foldl_cons, ih, hk]
  rw [step (fun w s => s.countEcc (d w) 0 1) (fun w s => h s _ _ _),
    step (fun w s => s.countEcc (d w) 1 0) (fun w s => h s _ _ _)]

@[simp] theorem sp_countCheck (s : State) (d : Nat → Nat) (e : Ecc) : (s.countCheck d e).sp = s.sp :=
  countWords_keeps State.sp sp_countEcc s d _ _
@[simp] theorem hbm_countCheck (s : State) (d : Nat → Nat) (e : Ecc) : (s.countCheck d e).hbm = s.hbm :=
  countWords_keeps State.hbm hbm_countEcc s d _ _
@[simp] theorem hostMem_countCheck (s : State) (d : Nat → Nat) (e : Ecc) : (s.countCheck d e).hostMem = s.hostMem :=
  countWords_keeps State.hostMem hostMem_countEcc s d _ _
@[simp] theorem peerMem_countCheck (s : State) (d : Nat → Nat) (e : Ecc) : (s.countCheck d e).peerMem = s.peerMem :=
  countWords_keeps State.peerMem peerMem_countEcc s d _ _
@[simp] theorem ctxs_countCheck (s : State) (d : Nat → Nat) (e : Ecc) : (s.countCheck d e).ctxs = s.ctxs :=
  countWords_keeps State.ctxs ctxs_countEcc s d _ _

/-- A check that found nothing counts nothing. -/
@[simp] theorem countCheck_none (s : State) (d : Nat → Nat) (m : SMap Byte) (errs : SMap Word) :
    s.countCheck d { m := m, errs := errs, fixed := [], bad := [] } = s := rfl

theorem memWf_iff (s : State) :
    s.memWf = true ↔ Memory.wf s.sp = true ∧ Memory.wf s.hbm = true ∧ Memory.wf s.hostMem = true ∧
      Memory.wf s.peerMem = true := by
  simp [State.memWf, and_assoc]

/-- A scratchpad read keeps the canonical form. -/
theorem memWf_spRead {s : State} (h : s.memWf = true) (a n : Nat) : (spRead a n s).s.memWf = true := by
  rw [memWf_iff] at h ⊢
  exact ⟨by simpa [spRead] using wf_eccRead h.1 _ _ _, by simpa [spRead] using h.2.1, by simpa [spRead] using h.2.2⟩

/-- A scratchpad write keeps the canonical form. -/
theorem memWf_spWrite {s : State} (h : s.memWf = true) (a n v : Nat) : (spWrite a n v s).s.memWf = true := by
  rw [memWf_iff] at h ⊢
  refine ⟨?_, by simpa [spWrite] using h.2.1, by simpa [spWrite] using h.2.2⟩
  simp only [spWrite, sp_countCheck]
  split
  · exact wf_eccWrite h.1 _ _ _
  · exact wf_wrBytes n (wf_eccWrite h.1 _ _ _) _ _

/-- An HBM read keeps the canonical form. -/
theorem memWf_hbmRead {s : State} (h : s.memWf = true) (a n : Nat) : (hbmRead a n s).s.memWf = true := by
  rw [memWf_iff] at h ⊢
  exact ⟨by simpa [hbmRead] using h.1, by simpa [hbmRead] using wf_eccRead h.2.1 _ _ _, by simpa [hbmRead] using h.2.2⟩

/-- An HBM write keeps the canonical form. -/
theorem memWf_hbmWrite {s : State} (h : s.memWf = true) (a n v : Nat) : (hbmWrite a n v s).s.memWf = true := by
  rw [memWf_iff] at h ⊢
  refine ⟨by simpa [hbmWrite] using h.1, ?_, by simpa [hbmWrite] using h.2.2⟩
  simp only [hbmWrite, hbm_countCheck]
  split
  · exact wf_eccWrite h.2.1 _ _ _
  · exact wf_wrBytes n (wf_eccWrite h.2.1 _ _ _) _ _

/-- A completion token written into the egress ring keeps the canonical form. -/
theorem memWf_egressWrite {s : State} (h : s.memWf = true) (c : Nat) (t : Completion) : (egressWrite c t s).memWf = true := by
  rw [memWf_iff] at h ⊢
  exact ⟨h.1, h.2.1, wf_wrWords _ h.2.2.1 _, h.2.2.2⟩

/-- A write into the host's or a peer's memory keeps the canonical form. -/
theorem memWf_remoteWrite {s : State} (h : s.memWf = true) (place a : Nat) (l : List Byte) :
    (remoteWrite place a l s).memWf = true := by
  rw [memWf_iff] at h ⊢
  unfold remoteWrite
  split
  · exact ⟨h.1, h.2.1, wf_wrBytes _ h.2.2.1 _ _, h.2.2.2⟩
  · exact ⟨h.1, h.2.1, h.2.2.1, wf_wrBytes _ h.2.2.2 _ _⟩

/-- The performance of a posted store keeps the canonical form. -/
theorem memWf_performPosted {s : State} (h : s.memWf = true) (p : Posted) : (performPosted p s).memWf = true := by
  unfold performPosted
  split
  · exact h
  · exact memWf_remoteWrite h _ _ _

/-- Without upsets a scratchpad read changes nothing and gives the stored bytes. -/
theorem spRead_clean {s : State} (h : s.spErr = []) (a n : Nat) :
    spRead a n s = { s := s, val := rdBytes s.sp a n, bad := none } := by
  simp [spRead, eccRead, h]
  rw [← h]

/-- Without upsets a scratchpad write stores the value's bytes and touches nothing else. -/
theorem spWrite_clean {s : State} (h : s.spErr = []) (a n v : Nat) :
    spWrite a n v s = { s := { s with sp := wrBytes s.sp a v n }, val := 0, bad := none } := by
  simp [spWrite, eccWrite, h]

/-- A write of the scratchpad read back (R5), without upsets. -/
theorem spRead_spWrite {s : State} (h : s.spErr = []) (hm : s.memWf = true) (a n v : Nat) :
    (spRead a n (spWrite a n v s).s).val = v % 256 ^ n := by
  rw [spWrite_clean h, spRead_clean (by exact h)]
  exact rdBytes_wrBytes n ((memWf_iff s).1 hm).1 a v

end Sys2Proof.Machine
end

