-- ==== Sys2Proof/Laws/State.lean ====
section
/-! SUPPORT. What each update of the state leaves alone: one lemma per field and update, true by rfl, so that no later proof
unfolds a record update; and reading a context after a write. -/

namespace Sys2Proof.Machine

open Sys2Proof

variable (s : State)

/-! ### setCtx -/

@[simp] theorem State.setCtx_cur (c : Nat) (x : Ctx) : (s.setCtx c x).cur = s.cur := rfl
@[simp] theorem State.setCtx_agenda (c : Nat) (x : Ctx) : (s.setCtx c x).agenda = s.agenda := rfl
@[simp] theorem State.setCtx_turns (c : Nat) (x : Ctx) : (s.setCtx c x).turns = s.turns := rfl
@[simp] theorem State.setCtx_frees (c : Nat) (x : Ctx) : (s.setCtx c x).frees = s.frees := rfl
@[simp] theorem State.setCtx_cycles (c : Nat) (x : Ctx) : (s.setCtx c x).cycles = s.cycles := rfl
@[simp] theorem State.setCtx_sp (c : Nat) (x : Ctx) : (s.setCtx c x).sp = s.sp := rfl
@[simp] theorem State.setCtx_hbm (c : Nat) (x : Ctx) : (s.setCtx c x).hbm = s.hbm := rfl
@[simp] theorem State.setCtx_hostMem (c : Nat) (x : Ctx) : (s.setCtx c x).hostMem = s.hostMem := rfl
@[simp] theorem State.setCtx_peerMem (c : Nat) (x : Ctx) : (s.setCtx c x).peerMem = s.peerMem := rfl
@[simp] theorem State.setCtx_arrivals (c : Nat) (x : Ctx) : (s.setCtx c x).arrivals = s.arrivals := rfl
@[simp] theorem State.setCtx_records (c : Nat) (x : Ctx) : (s.setCtx c x).records = s.records := rfl
@[simp] theorem State.setCtx_ldrLog (c : Nat) (x : Ctx) : (s.setCtx c x).ldrLog = s.ldrLog := rfl
@[simp] theorem State.setCtx_idents (c : Nat) (x : Ctx) : (s.setCtx c x).idents = s.idents := rfl
@[simp] theorem State.setCtx_nodes (c : Nat) (x : Ctx) : (s.setCtx c x).nodes = s.nodes := rfl
@[simp] theorem State.setCtx_planes (c : Nat) (x : Ctx) : (s.setCtx c x).planes = s.planes := rfl
@[simp] theorem State.setCtx_active (c : Nat) (x : Ctx) : (s.setCtx c x).active = s.active := rfl
@[simp] theorem State.setCtx_hold (c : Nat) (x : Ctx) : (s.setCtx c x).hold = s.hold := rfl
@[simp] theorem State.setCtx_tagtab (c : Nat) (x : Ctx) : (s.setCtx c x).tagtab = s.tagtab := rfl
@[simp] theorem State.setCtx_carve (c : Nat) (x : Ctx) : (s.setCtx c x).carve = s.carve := rfl
@[simp] theorem State.setCtx_lastCtx (c : Nat) (x : Ctx) : (s.setCtx c x).lastCtx = s.lastCtx := rfl
@[simp] theorem State.setCtx_engs (c : Nat) (x : Ctx) : (s.setCtx c x).engs = s.engs := rfl
@[simp] theorem State.setCtx_latches (c : Nat) (x : Ctx) : (s.setCtx c x).latches = s.latches := rfl
@[simp] theorem State.setCtx_acc (c : Nat) (x : Ctx) : (s.setCtx c x).acc = s.acc := rfl
@[simp] theorem State.setCtx_csrow (c : Nat) (x : Ctx) : (s.setCtx c x).csrow = s.csrow := rfl
@[simp] theorem State.setCtx_cscol (c : Nat) (x : Ctx) : (s.setCtx c x).cscol = s.cscol := rfl
@[simp] theorem State.setCtx_recs (c : Nat) (x : Ctx) : (s.setCtx c x).recs = s.recs := rfl
@[simp] theorem State.setCtx_govs (c : Nat) (x : Ctx) : (s.setCtx c x).govs = s.govs := rfl
@[simp] theorem State.setCtx_tlb (c : Nat) (x : Ctx) : (s.setCtx c x).tlb = s.tlb := rfl
@[simp] theorem State.setCtx_misses (c : Nat) (x : Ctx) : (s.setCtx c x).misses = s.misses := rfl
@[simp] theorem State.setCtx_faultToks (c : Nat) (x : Ctx) : (s.setCtx c x).faultToks = s.faultToks := rfl
@[simp] theorem State.setCtx_ptRoot (c : Nat) (x : Ctx) : (s.setCtx c x).ptRoot = s.ptRoot := rfl
@[simp] theorem State.setCtx_ptInval (c : Nat) (x : Ctx) : (s.setCtx c x).ptInval = s.ptInval := rfl
@[simp] theorem State.setCtx_invalRange (c : Nat) (x : Ctx) : (s.setCtx c x).invalRange = s.invalRange := rfl
@[simp] theorem State.setCtx_eccCount (c : Nat) (x : Ctx) : (s.setCtx c x).eccCount = s.eccCount := rfl
@[simp] theorem State.setCtx_eccLog (c : Nat) (x : Ctx) : (s.setCtx c x).eccLog = s.eccLog := rfl
@[simp] theorem State.setCtx_spErr (c : Nat) (x : Ctx) : (s.setCtx c x).spErr = s.spErr := rfl
@[simp] theorem State.setCtx_hbmErr (c : Nat) (x : Ctx) : (s.setCtx c x).hbmErr = s.hbmErr := rfl
@[simp] theorem State.setCtx_latchErr (c : Nat) (x : Ctx) : (s.setCtx c x).latchErr = s.latchErr := rfl
@[simp] theorem State.setCtx_tagErr (c : Nat) (x : Ctx) : (s.setCtx c x).tagErr = s.tagErr := rfl
@[simp] theorem State.setCtx_corrected (c : Nat) (x : Ctx) : (s.setCtx c x).corrected = s.corrected := rfl
@[simp] theorem State.setCtx_uncorrected (c : Nat) (x : Ctx) : (s.setCtx c x).uncorrected = s.uncorrected := rfl
@[simp] theorem State.setCtx_scrubs (c : Nat) (x : Ctx) : (s.setCtx c x).scrubs = s.scrubs := rfl
@[simp] theorem State.setCtx_hostWrs (c : Nat) (x : Ctx) : (s.setCtx c x).hostWrs = s.hostWrs := rfl
@[simp] theorem State.setCtx_lastReply (c : Nat) (x : Ctx) : (s.setCtx c x).lastReply = s.lastReply := rfl
@[simp] theorem State.setCtx_vectors (c : Nat) (x : Ctx) : (s.setCtx c x).vectors = s.vectors := rfl
@[simp] theorem State.setCtx_posted (c : Nat) (x : Ctx) : (s.setCtx c x).posted = s.posted := rfl
@[simp] theorem State.setCtx_ports (c : Nat) (x : Ctx) : (s.setCtx c x).ports = s.ports := rfl
@[simp] theorem State.setCtx_eths (c : Nat) (x : Ctx) : (s.setCtx c x).eths = s.eths := rfl
@[simp] theorem State.setCtx_wa (c : Nat) (x : Ctx) : (s.setCtx c x).wa = s.wa := rfl
@[simp] theorem State.setCtx_wb (c : Nat) (x : Ctx) : (s.setCtx c x).wb = s.wb := rfl
@[simp] theorem State.setCtx_eaa (c : Nat) (x : Ctx) : (s.setCtx c x).eaa = s.eaa := rfl
@[simp] theorem State.setCtx_eab (c : Nat) (x : Ctx) : (s.setCtx c x).eab = s.eab := rfl
@[simp] theorem State.setCtx_etype (c : Nat) (x : Ctx) : (s.setCtx c x).etype = s.etype := rfl
@[simp] theorem State.setCtx_fiCtl (c : Nat) (x : Ctx) : (s.setCtx c x).fiCtl = s.fiCtl := rfl
@[simp] theorem State.setCtx_fiSel (c : Nat) (x : Ctx) : (s.setCtx c x).fiSel = s.fiSel := rfl
@[simp] theorem State.setCtx_preempt (c : Nat) (x : Ctx) : (s.setCtx c x).preempt = s.preempt := rfl
@[simp] theorem State.setCtx_lastPlaced (c : Nat) (x : Ctx) : (s.setCtx c x).lastPlaced = s.lastPlaced := rfl
@[simp] theorem State.setCtx_pwin (c : Nat) (x : Ctx) : (s.setCtx c x).pwin = s.pwin := rfl
@[simp] theorem State.setCtx_fmask (c : Nat) (x : Ctx) : (s.setCtx c x).fmask = s.fmask := rfl
@[simp] theorem State.setCtx_boot (c : Nat) (x : Ctx) : (s.setCtx c x).boot = s.boot := rfl
@[simp] theorem State.setCtx_sec (c : Nat) (x : Ctx) : (s.setCtx c x).sec = s.sec := rfl
@[simp] theorem State.setCtx_telGen (c : Nat) (x : Ctx) : (s.setCtx c x).telGen = s.telGen := rfl
@[simp] theorem State.setCtx_telCopy (c : Nat) (x : Ctx) : (s.setCtx c x).telCopy = s.telCopy := rfl

/-! ### modCtx -/

@[simp] theorem State.modCtx_cur (c : Nat) (f : Ctx → Ctx) : (s.modCtx c f).cur = s.cur := rfl
@[simp] theorem State.modCtx_agenda (c : Nat) (f : Ctx → Ctx) : (s.modCtx c f).agenda = s.agenda := rfl
@[simp] theorem State.modCtx_turns (c : Nat) (f : Ctx → Ctx) : (s.modCtx c f).turns = s.turns := rfl
@[simp] theorem State.modCtx_frees (c : Nat) (f : Ctx → Ctx) : (s.modCtx c f).frees = s.frees := rfl
@[simp] theorem State.modCtx_cycles (c : Nat) (f : Ctx → Ctx) : (s.modCtx c f).cycles = s.cycles := rfl
@[simp] theorem State.modCtx_sp (c : Nat) (f : Ctx → Ctx) : (s.modCtx c f).sp = s.sp := rfl
@[simp] theorem State.modCtx_hbm (c : Nat) (f : Ctx → Ctx) : (s.modCtx c f).hbm = s.hbm := rfl
@[simp] theorem State.modCtx_hostMem (c : Nat) (f : Ctx → Ctx) : (s.modCtx c f).hostMem = s.hostMem := rfl
@[simp] theorem State.modCtx_peerMem (c : Nat) (f : Ctx → Ctx) : (s.modCtx c f).peerMem = s.peerMem := rfl
@[simp] theorem State.modCtx_arrivals (c : Nat) (f : Ctx → Ctx) : (s.modCtx c f).arrivals = s.arrivals := rfl
@[simp] theorem State.modCtx_records (c : Nat) (f : Ctx → Ctx) : (s.modCtx c f).records = s.records := rfl
@[simp] theorem State.modCtx_ldrLog (c : Nat) (f : Ctx → Ctx) : (s.modCtx c f).ldrLog = s.ldrLog := rfl
@[simp] theorem State.modCtx_idents (c : Nat) (f : Ctx → Ctx) : (s.modCtx c f).idents = s.idents := rfl
@[simp] theorem State.modCtx_nodes (c : Nat) (f : Ctx → Ctx) : (s.modCtx c f).nodes = s.nodes := rfl
@[simp] theorem State.modCtx_planes (c : Nat) (f : Ctx → Ctx) : (s.modCtx c f).planes = s.planes := rfl
@[simp] theorem State.modCtx_active (c : Nat) (f : Ctx → Ctx) : (s.modCtx c f).active = s.active := rfl
@[simp] theorem State.modCtx_hold (c : Nat) (f : Ctx → Ctx) : (s.modCtx c f).hold = s.hold := rfl
@[simp] theorem State.modCtx_tagtab (c : Nat) (f : Ctx → Ctx) : (s.modCtx c f).tagtab = s.tagtab := rfl
@[simp] theorem State.modCtx_carve (c : Nat) (f : Ctx → Ctx) : (s.modCtx c f).carve = s.carve := rfl
@[simp] theorem State.modCtx_lastCtx (c : Nat) (f : Ctx → Ctx) : (s.modCtx c f).lastCtx = s.lastCtx := rfl
@[simp] theorem State.modCtx_engs (c : Nat) (f : Ctx → Ctx) : (s.modCtx c f).engs = s.engs := rfl
@[simp] theorem State.modCtx_latches (c : Nat) (f : Ctx → Ctx) : (s.modCtx c f).latches = s.latches := rfl
@[simp] theorem State.modCtx_acc (c : Nat) (f : Ctx → Ctx) : (s.modCtx c f).acc = s.acc := rfl
@[simp] theorem State.modCtx_csrow (c : Nat) (f : Ctx → Ctx) : (s.modCtx c f).csrow = s.csrow := rfl
@[simp] theorem State.modCtx_cscol (c : Nat) (f : Ctx → Ctx) : (s.modCtx c f).cscol = s.cscol := rfl
@[simp] theorem State.modCtx_recs (c : Nat) (f : Ctx → Ctx) : (s.modCtx c f).recs = s.recs := rfl
@[simp] theorem State.modCtx_govs (c : Nat) (f : Ctx → Ctx) : (s.modCtx c f).govs = s.govs := rfl
@[simp] theorem State.modCtx_tlb (c : Nat) (f : Ctx → Ctx) : (s.modCtx c f).tlb = s.tlb := rfl
@[simp] theorem State.modCtx_misses (c : Nat) (f : Ctx → Ctx) : (s.modCtx c f).misses = s.misses := rfl
@[simp] theorem State.modCtx_faultToks (c : Nat) (f : Ctx → Ctx) : (s.modCtx c f).faultToks = s.faultToks := rfl
@[simp] theorem State.modCtx_ptRoot (c : Nat) (f : Ctx → Ctx) : (s.modCtx c f).ptRoot = s.ptRoot := rfl
@[simp] theorem State.modCtx_ptInval (c : Nat) (f : Ctx → Ctx) : (s.modCtx c f).ptInval = s.ptInval := rfl
@[simp] theorem State.modCtx_invalRange (c : Nat) (f : Ctx → Ctx) : (s.modCtx c f).invalRange = s.invalRange := rfl
@[simp] theorem State.modCtx_eccCount (c : Nat) (f : Ctx → Ctx) : (s.modCtx c f).eccCount = s.eccCount := rfl
@[simp] theorem State.modCtx_eccLog (c : Nat) (f : Ctx → Ctx) : (s.modCtx c f).eccLog = s.eccLog := rfl
@[simp] theorem State.modCtx_spErr (c : Nat) (f : Ctx → Ctx) : (s.modCtx c f).spErr = s.spErr := rfl
@[simp] theorem State.modCtx_hbmErr (c : Nat) (f : Ctx → Ctx) : (s.modCtx c f).hbmErr = s.hbmErr := rfl
@[simp] theorem State.modCtx_latchErr (c : Nat) (f : Ctx → Ctx) : (s.modCtx c f).latchErr = s.latchErr := rfl
@[simp] theorem State.modCtx_tagErr (c : Nat) (f : Ctx → Ctx) : (s.modCtx c f).tagErr = s.tagErr := rfl
@[simp] theorem State.modCtx_corrected (c : Nat) (f : Ctx → Ctx) : (s.modCtx c f).corrected = s.corrected := rfl
@[simp] theorem State.modCtx_uncorrected (c : Nat) (f : Ctx → Ctx) : (s.modCtx c f).uncorrected = s.uncorrected := rfl
@[simp] theorem State.modCtx_scrubs (c : Nat) (f : Ctx → Ctx) : (s.modCtx c f).scrubs = s.scrubs := rfl
@[simp] theorem State.modCtx_hostWrs (c : Nat) (f : Ctx → Ctx) : (s.modCtx c f).hostWrs = s.hostWrs := rfl
@[simp] theorem State.modCtx_lastReply (c : Nat) (f : Ctx → Ctx) : (s.modCtx c f).lastReply = s.lastReply := rfl
@[simp] theorem State.modCtx_vectors (c : Nat) (f : Ctx → Ctx) : (s.modCtx c f).vectors = s.vectors := rfl
@[simp] theorem State.modCtx_posted (c : Nat) (f : Ctx → Ctx) : (s.modCtx c f).posted = s.posted := rfl
@[simp] theorem State.modCtx_ports (c : Nat) (f : Ctx → Ctx) : (s.modCtx c f).ports = s.ports := rfl
@[simp] theorem State.modCtx_eths (c : Nat) (f : Ctx → Ctx) : (s.modCtx c f).eths = s.eths := rfl
@[simp] theorem State.modCtx_wa (c : Nat) (f : Ctx → Ctx) : (s.modCtx c f).wa = s.wa := rfl
@[simp] theorem State.modCtx_wb (c : Nat) (f : Ctx → Ctx) : (s.modCtx c f).wb = s.wb := rfl
@[simp] theorem State.modCtx_eaa (c : Nat) (f : Ctx → Ctx) : (s.modCtx c f).eaa = s.eaa := rfl
@[simp] theorem State.modCtx_eab (c : Nat) (f : Ctx → Ctx) : (s.modCtx c f).eab = s.eab := rfl
@[simp] theorem State.modCtx_etype (c : Nat) (f : Ctx → Ctx) : (s.modCtx c f).etype = s.etype := rfl
@[simp] theorem State.modCtx_fiCtl (c : Nat) (f : Ctx → Ctx) : (s.modCtx c f).fiCtl = s.fiCtl := rfl
@[simp] theorem State.modCtx_fiSel (c : Nat) (f : Ctx → Ctx) : (s.modCtx c f).fiSel = s.fiSel := rfl
@[simp] theorem State.modCtx_preempt (c : Nat) (f : Ctx → Ctx) : (s.modCtx c f).preempt = s.preempt := rfl
@[simp] theorem State.modCtx_lastPlaced (c : Nat) (f : Ctx → Ctx) : (s.modCtx c f).lastPlaced = s.lastPlaced := rfl
@[simp] theorem State.modCtx_pwin (c : Nat) (f : Ctx → Ctx) : (s.modCtx c f).pwin = s.pwin := rfl
@[simp] theorem State.modCtx_fmask (c : Nat) (f : Ctx → Ctx) : (s.modCtx c f).fmask = s.fmask := rfl
@[simp] theorem State.modCtx_boot (c : Nat) (f : Ctx → Ctx) : (s.modCtx c f).boot = s.boot := rfl
@[simp] theorem State.modCtx_sec (c : Nat) (f : Ctx → Ctx) : (s.modCtx c f).sec = s.sec := rfl
@[simp] theorem State.modCtx_telGen (c : Nat) (f : Ctx → Ctx) : (s.modCtx c f).telGen = s.telGen := rfl
@[simp] theorem State.modCtx_telCopy (c : Nat) (f : Ctx → Ctx) : (s.modCtx c f).telCopy = s.telCopy := rfl

/-! ### modSeq -/

@[simp] theorem State.modSeq_cur (c : Nat) (f : Seq → Seq) : (s.modSeq c f).cur = s.cur := rfl
@[simp] theorem State.modSeq_agenda (c : Nat) (f : Seq → Seq) : (s.modSeq c f).agenda = s.agenda := rfl
@[simp] theorem State.modSeq_turns (c : Nat) (f : Seq → Seq) : (s.modSeq c f).turns = s.turns := rfl
@[simp] theorem State.modSeq_frees (c : Nat) (f : Seq → Seq) : (s.modSeq c f).frees = s.frees := rfl
@[simp] theorem State.modSeq_cycles (c : Nat) (f : Seq → Seq) : (s.modSeq c f).cycles = s.cycles := rfl
@[simp] theorem State.modSeq_sp (c : Nat) (f : Seq → Seq) : (s.modSeq c f).sp = s.sp := rfl
@[simp] theorem State.modSeq_hbm (c : Nat) (f : Seq → Seq) : (s.modSeq c f).hbm = s.hbm := rfl
@[simp] theorem State.modSeq_hostMem (c : Nat) (f : Seq → Seq) : (s.modSeq c f).hostMem = s.hostMem := rfl
@[simp] theorem State.modSeq_peerMem (c : Nat) (f : Seq → Seq) : (s.modSeq c f).peerMem = s.peerMem := rfl
@[simp] theorem State.modSeq_arrivals (c : Nat) (f : Seq → Seq) : (s.modSeq c f).arrivals = s.arrivals := rfl
@[simp] theorem State.modSeq_records (c : Nat) (f : Seq → Seq) : (s.modSeq c f).records = s.records := rfl
@[simp] theorem State.modSeq_ldrLog (c : Nat) (f : Seq → Seq) : (s.modSeq c f).ldrLog = s.ldrLog := rfl
@[simp] theorem State.modSeq_idents (c : Nat) (f : Seq → Seq) : (s.modSeq c f).idents = s.idents := rfl
@[simp] theorem State.modSeq_nodes (c : Nat) (f : Seq → Seq) : (s.modSeq c f).nodes = s.nodes := rfl
@[simp] theorem State.modSeq_planes (c : Nat) (f : Seq → Seq) : (s.modSeq c f).planes = s.planes := rfl
@[simp] theorem State.modSeq_active (c : Nat) (f : Seq → Seq) : (s.modSeq c f).active = s.active := rfl
@[simp] theorem State.modSeq_hold (c : Nat) (f : Seq → Seq) : (s.modSeq c f).hold = s.hold := rfl
@[simp] theorem State.modSeq_tagtab (c : Nat) (f : Seq → Seq) : (s.modSeq c f).tagtab = s.tagtab := rfl
@[simp] theorem State.modSeq_carve (c : Nat) (f : Seq → Seq) : (s.modSeq c f).carve = s.carve := rfl
@[simp] theorem State.modSeq_lastCtx (c : Nat) (f : Seq → Seq) : (s.modSeq c f).lastCtx = s.lastCtx := rfl
@[simp] theorem State.modSeq_engs (c : Nat) (f : Seq → Seq) : (s.modSeq c f).engs = s.engs := rfl
@[simp] theorem State.modSeq_latches (c : Nat) (f : Seq → Seq) : (s.modSeq c f).latches = s.latches := rfl
@[simp] theorem State.modSeq_acc (c : Nat) (f : Seq → Seq) : (s.modSeq c f).acc = s.acc := rfl
@[simp] theorem State.modSeq_csrow (c : Nat) (f : Seq → Seq) : (s.modSeq c f).csrow = s.csrow := rfl
@[simp] theorem State.modSeq_cscol (c : Nat) (f : Seq → Seq) : (s.modSeq c f).cscol = s.cscol := rfl
@[simp] theorem State.modSeq_recs (c : Nat) (f : Seq → Seq) : (s.modSeq c f).recs = s.recs := rfl
@[simp] theorem State.modSeq_govs (c : Nat) (f : Seq → Seq) : (s.modSeq c f).govs = s.govs := rfl
@[simp] theorem State.modSeq_tlb (c : Nat) (f : Seq → Seq) : (s.modSeq c f).tlb = s.tlb := rfl
@[simp] theorem State.modSeq_misses (c : Nat) (f : Seq → Seq) : (s.modSeq c f).misses = s.misses := rfl
@[simp] theorem State.modSeq_faultToks (c : Nat) (f : Seq → Seq) : (s.modSeq c f).faultToks = s.faultToks := rfl
@[simp] theorem State.modSeq_ptRoot (c : Nat) (f : Seq → Seq) : (s.modSeq c f).ptRoot = s.ptRoot := rfl
@[simp] theorem State.modSeq_ptInval (c : Nat) (f : Seq → Seq) : (s.modSeq c f).ptInval = s.ptInval := rfl
@[simp] theorem State.modSeq_invalRange (c : Nat) (f : Seq → Seq) : (s.modSeq c f).invalRange = s.invalRange := rfl
@[simp] theorem State.modSeq_eccCount (c : Nat) (f : Seq → Seq) : (s.modSeq c f).eccCount = s.eccCount := rfl
@[simp] theorem State.modSeq_eccLog (c : Nat) (f : Seq → Seq) : (s.modSeq c f).eccLog = s.eccLog := rfl
@[simp] theorem State.modSeq_spErr (c : Nat) (f : Seq → Seq) : (s.modSeq c f).spErr = s.spErr := rfl
@[simp] theorem State.modSeq_hbmErr (c : Nat) (f : Seq → Seq) : (s.modSeq c f).hbmErr = s.hbmErr := rfl
@[simp] theorem State.modSeq_latchErr (c : Nat) (f : Seq → Seq) : (s.modSeq c f).latchErr = s.latchErr := rfl
@[simp] theorem State.modSeq_tagErr (c : Nat) (f : Seq → Seq) : (s.modSeq c f).tagErr = s.tagErr := rfl
@[simp] theorem State.modSeq_corrected (c : Nat) (f : Seq → Seq) : (s.modSeq c f).corrected = s.corrected := rfl
@[simp] theorem State.modSeq_uncorrected (c : Nat) (f : Seq → Seq) : (s.modSeq c f).uncorrected = s.uncorrected := rfl
@[simp] theorem State.modSeq_scrubs (c : Nat) (f : Seq → Seq) : (s.modSeq c f).scrubs = s.scrubs := rfl
@[simp] theorem State.modSeq_hostWrs (c : Nat) (f : Seq → Seq) : (s.modSeq c f).hostWrs = s.hostWrs := rfl
@[simp] theorem State.modSeq_lastReply (c : Nat) (f : Seq → Seq) : (s.modSeq c f).lastReply = s.lastReply := rfl
@[simp] theorem State.modSeq_vectors (c : Nat) (f : Seq → Seq) : (s.modSeq c f).vectors = s.vectors := rfl
@[simp] theorem State.modSeq_posted (c : Nat) (f : Seq → Seq) : (s.modSeq c f).posted = s.posted := rfl
@[simp] theorem State.modSeq_ports (c : Nat) (f : Seq → Seq) : (s.modSeq c f).ports = s.ports := rfl
@[simp] theorem State.modSeq_eths (c : Nat) (f : Seq → Seq) : (s.modSeq c f).eths = s.eths := rfl
@[simp] theorem State.modSeq_wa (c : Nat) (f : Seq → Seq) : (s.modSeq c f).wa = s.wa := rfl
@[simp] theorem State.modSeq_wb (c : Nat) (f : Seq → Seq) : (s.modSeq c f).wb = s.wb := rfl
@[simp] theorem State.modSeq_eaa (c : Nat) (f : Seq → Seq) : (s.modSeq c f).eaa = s.eaa := rfl
@[simp] theorem State.modSeq_eab (c : Nat) (f : Seq → Seq) : (s.modSeq c f).eab = s.eab := rfl
@[simp] theorem State.modSeq_etype (c : Nat) (f : Seq → Seq) : (s.modSeq c f).etype = s.etype := rfl
@[simp] theorem State.modSeq_fiCtl (c : Nat) (f : Seq → Seq) : (s.modSeq c f).fiCtl = s.fiCtl := rfl
@[simp] theorem State.modSeq_fiSel (c : Nat) (f : Seq → Seq) : (s.modSeq c f).fiSel = s.fiSel := rfl
@[simp] theorem State.modSeq_preempt (c : Nat) (f : Seq → Seq) : (s.modSeq c f).preempt = s.preempt := rfl
@[simp] theorem State.modSeq_lastPlaced (c : Nat) (f : Seq → Seq) : (s.modSeq c f).lastPlaced = s.lastPlaced := rfl
@[simp] theorem State.modSeq_pwin (c : Nat) (f : Seq → Seq) : (s.modSeq c f).pwin = s.pwin := rfl
@[simp] theorem State.modSeq_fmask (c : Nat) (f : Seq → Seq) : (s.modSeq c f).fmask = s.fmask := rfl
@[simp] theorem State.modSeq_boot (c : Nat) (f : Seq → Seq) : (s.modSeq c f).boot = s.boot := rfl
@[simp] theorem State.modSeq_sec (c : Nat) (f : Seq → Seq) : (s.modSeq c f).sec = s.sec := rfl
@[simp] theorem State.modSeq_telGen (c : Nat) (f : Seq → Seq) : (s.modSeq c f).telGen = s.telGen := rfl
@[simp] theorem State.modSeq_telCopy (c : Nat) (f : Seq → Seq) : (s.modSeq c f).telCopy = s.telCopy := rfl

/-! ### modFab -/

@[simp] theorem State.modFab_cur (c : Nat) (f : Fabric → Fabric) : (s.modFab c f).cur = s.cur := rfl
@[simp] theorem State.modFab_agenda (c : Nat) (f : Fabric → Fabric) : (s.modFab c f).agenda = s.agenda := rfl
@[simp] theorem State.modFab_turns (c : Nat) (f : Fabric → Fabric) : (s.modFab c f).turns = s.turns := rfl
@[simp] theorem State.modFab_frees (c : Nat) (f : Fabric → Fabric) : (s.modFab c f).frees = s.frees := rfl
@[simp] theorem State.modFab_cycles (c : Nat) (f : Fabric → Fabric) : (s.modFab c f).cycles = s.cycles := rfl
@[simp] theorem State.modFab_sp (c : Nat) (f : Fabric → Fabric) : (s.modFab c f).sp = s.sp := rfl
@[simp] theorem State.modFab_hbm (c : Nat) (f : Fabric → Fabric) : (s.modFab c f).hbm = s.hbm := rfl
@[simp] theorem State.modFab_hostMem (c : Nat) (f : Fabric → Fabric) : (s.modFab c f).hostMem = s.hostMem := rfl
@[simp] theorem State.modFab_peerMem (c : Nat) (f : Fabric → Fabric) : (s.modFab c f).peerMem = s.peerMem := rfl
@[simp] theorem State.modFab_arrivals (c : Nat) (f : Fabric → Fabric) : (s.modFab c f).arrivals = s.arrivals := rfl
@[simp] theorem State.modFab_records (c : Nat) (f : Fabric → Fabric) : (s.modFab c f).records = s.records := rfl
@[simp] theorem State.modFab_ldrLog (c : Nat) (f : Fabric → Fabric) : (s.modFab c f).ldrLog = s.ldrLog := rfl
@[simp] theorem State.modFab_idents (c : Nat) (f : Fabric → Fabric) : (s.modFab c f).idents = s.idents := rfl
@[simp] theorem State.modFab_nodes (c : Nat) (f : Fabric → Fabric) : (s.modFab c f).nodes = s.nodes := rfl
@[simp] theorem State.modFab_planes (c : Nat) (f : Fabric → Fabric) : (s.modFab c f).planes = s.planes := rfl
@[simp] theorem State.modFab_active (c : Nat) (f : Fabric → Fabric) : (s.modFab c f).active = s.active := rfl
@[simp] theorem State.modFab_hold (c : Nat) (f : Fabric → Fabric) : (s.modFab c f).hold = s.hold := rfl
@[simp] theorem State.modFab_tagtab (c : Nat) (f : Fabric → Fabric) : (s.modFab c f).tagtab = s.tagtab := rfl
@[simp] theorem State.modFab_carve (c : Nat) (f : Fabric → Fabric) : (s.modFab c f).carve = s.carve := rfl
@[simp] theorem State.modFab_lastCtx (c : Nat) (f : Fabric → Fabric) : (s.modFab c f).lastCtx = s.lastCtx := rfl
@[simp] theorem State.modFab_engs (c : Nat) (f : Fabric → Fabric) : (s.modFab c f).engs = s.engs := rfl
@[simp] theorem State.modFab_latches (c : Nat) (f : Fabric → Fabric) : (s.modFab c f).latches = s.latches := rfl
@[simp] theorem State.modFab_acc (c : Nat) (f : Fabric → Fabric) : (s.modFab c f).acc = s.acc := rfl
@[simp] theorem State.modFab_csrow (c : Nat) (f : Fabric → Fabric) : (s.modFab c f).csrow = s.csrow := rfl
@[simp] theorem State.modFab_cscol (c : Nat) (f : Fabric → Fabric) : (s.modFab c f).cscol = s.cscol := rfl
@[simp] theorem State.modFab_recs (c : Nat) (f : Fabric → Fabric) : (s.modFab c f).recs = s.recs := rfl
@[simp] theorem State.modFab_govs (c : Nat) (f : Fabric → Fabric) : (s.modFab c f).govs = s.govs := rfl
@[simp] theorem State.modFab_tlb (c : Nat) (f : Fabric → Fabric) : (s.modFab c f).tlb = s.tlb := rfl
@[simp] theorem State.modFab_misses (c : Nat) (f : Fabric → Fabric) : (s.modFab c f).misses = s.misses := rfl
@[simp] theorem State.modFab_faultToks (c : Nat) (f : Fabric → Fabric) : (s.modFab c f).faultToks = s.faultToks := rfl
@[simp] theorem State.modFab_ptRoot (c : Nat) (f : Fabric → Fabric) : (s.modFab c f).ptRoot = s.ptRoot := rfl
@[simp] theorem State.modFab_ptInval (c : Nat) (f : Fabric → Fabric) : (s.modFab c f).ptInval = s.ptInval := rfl
@[simp] theorem State.modFab_invalRange (c : Nat) (f : Fabric → Fabric) : (s.modFab c f).invalRange = s.invalRange := rfl
@[simp] theorem State.modFab_eccCount (c : Nat) (f : Fabric → Fabric) : (s.modFab c f).eccCount = s.eccCount := rfl
@[simp] theorem State.modFab_eccLog (c : Nat) (f : Fabric → Fabric) : (s.modFab c f).eccLog = s.eccLog := rfl
@[simp] theorem State.modFab_spErr (c : Nat) (f : Fabric → Fabric) : (s.modFab c f).spErr = s.spErr := rfl
@[simp] theorem State.modFab_hbmErr (c : Nat) (f : Fabric → Fabric) : (s.modFab c f).hbmErr = s.hbmErr := rfl
@[simp] theorem State.modFab_latchErr (c : Nat) (f : Fabric → Fabric) : (s.modFab c f).latchErr = s.latchErr := rfl
@[simp] theorem State.modFab_tagErr (c : Nat) (f : Fabric → Fabric) : (s.modFab c f).tagErr = s.tagErr := rfl
@[simp] theorem State.modFab_corrected (c : Nat) (f : Fabric → Fabric) : (s.modFab c f).corrected = s.corrected := rfl
@[simp] theorem State.modFab_uncorrected (c : Nat) (f : Fabric → Fabric) : (s.modFab c f).uncorrected = s.uncorrected := rfl
@[simp] theorem State.modFab_scrubs (c : Nat) (f : Fabric → Fabric) : (s.modFab c f).scrubs = s.scrubs := rfl
@[simp] theorem State.modFab_hostWrs (c : Nat) (f : Fabric → Fabric) : (s.modFab c f).hostWrs = s.hostWrs := rfl
@[simp] theorem State.modFab_lastReply (c : Nat) (f : Fabric → Fabric) : (s.modFab c f).lastReply = s.lastReply := rfl
@[simp] theorem State.modFab_vectors (c : Nat) (f : Fabric → Fabric) : (s.modFab c f).vectors = s.vectors := rfl
@[simp] theorem State.modFab_posted (c : Nat) (f : Fabric → Fabric) : (s.modFab c f).posted = s.posted := rfl
@[simp] theorem State.modFab_ports (c : Nat) (f : Fabric → Fabric) : (s.modFab c f).ports = s.ports := rfl
@[simp] theorem State.modFab_eths (c : Nat) (f : Fabric → Fabric) : (s.modFab c f).eths = s.eths := rfl
@[simp] theorem State.modFab_wa (c : Nat) (f : Fabric → Fabric) : (s.modFab c f).wa = s.wa := rfl
@[simp] theorem State.modFab_wb (c : Nat) (f : Fabric → Fabric) : (s.modFab c f).wb = s.wb := rfl
@[simp] theorem State.modFab_eaa (c : Nat) (f : Fabric → Fabric) : (s.modFab c f).eaa = s.eaa := rfl
@[simp] theorem State.modFab_eab (c : Nat) (f : Fabric → Fabric) : (s.modFab c f).eab = s.eab := rfl
@[simp] theorem State.modFab_etype (c : Nat) (f : Fabric → Fabric) : (s.modFab c f).etype = s.etype := rfl
@[simp] theorem State.modFab_fiCtl (c : Nat) (f : Fabric → Fabric) : (s.modFab c f).fiCtl = s.fiCtl := rfl
@[simp] theorem State.modFab_fiSel (c : Nat) (f : Fabric → Fabric) : (s.modFab c f).fiSel = s.fiSel := rfl
@[simp] theorem State.modFab_preempt (c : Nat) (f : Fabric → Fabric) : (s.modFab c f).preempt = s.preempt := rfl
@[simp] theorem State.modFab_lastPlaced (c : Nat) (f : Fabric → Fabric) : (s.modFab c f).lastPlaced = s.lastPlaced := rfl
@[simp] theorem State.modFab_pwin (c : Nat) (f : Fabric → Fabric) : (s.modFab c f).pwin = s.pwin := rfl
@[simp] theorem State.modFab_fmask (c : Nat) (f : Fabric → Fabric) : (s.modFab c f).fmask = s.fmask := rfl
@[simp] theorem State.modFab_boot (c : Nat) (f : Fabric → Fabric) : (s.modFab c f).boot = s.boot := rfl
@[simp] theorem State.modFab_sec (c : Nat) (f : Fabric → Fabric) : (s.modFab c f).sec = s.sec := rfl
@[simp] theorem State.modFab_telGen (c : Nat) (f : Fabric → Fabric) : (s.modFab c f).telGen = s.telGen := rfl
@[simp] theorem State.modFab_telCopy (c : Nat) (f : Fabric → Fabric) : (s.modFab c f).telCopy = s.telCopy := rfl

/-! ### mergeFlags -/

@[simp] theorem State.mergeFlags_cur (c : Nat) (f : Flags) : (s.mergeFlags c f).cur = s.cur := rfl
@[simp] theorem State.mergeFlags_agenda (c : Nat) (f : Flags) : (s.mergeFlags c f).agenda = s.agenda := rfl
@[simp] theorem State.mergeFlags_turns (c : Nat) (f : Flags) : (s.mergeFlags c f).turns = s.turns := rfl
@[simp] theorem State.mergeFlags_frees (c : Nat) (f : Flags) : (s.mergeFlags c f).frees = s.frees := rfl
@[simp] theorem State.mergeFlags_cycles (c : Nat) (f : Flags) : (s.mergeFlags c f).cycles = s.cycles := rfl
@[simp] theorem State.mergeFlags_sp (c : Nat) (f : Flags) : (s.mergeFlags c f).sp = s.sp := rfl
@[simp] theorem State.mergeFlags_hbm (c : Nat) (f : Flags) : (s.mergeFlags c f).hbm = s.hbm := rfl
@[simp] theorem State.mergeFlags_hostMem (c : Nat) (f : Flags) : (s.mergeFlags c f).hostMem = s.hostMem := rfl
@[simp] theorem State.mergeFlags_peerMem (c : Nat) (f : Flags) : (s.mergeFlags c f).peerMem = s.peerMem := rfl
@[simp] theorem State.mergeFlags_arrivals (c : Nat) (f : Flags) : (s.mergeFlags c f).arrivals = s.arrivals := rfl
@[simp] theorem State.mergeFlags_records (c : Nat) (f : Flags) : (s.mergeFlags c f).records = s.records := rfl
@[simp] theorem State.mergeFlags_ldrLog (c : Nat) (f : Flags) : (s.mergeFlags c f).ldrLog = s.ldrLog := rfl
@[simp] theorem State.mergeFlags_idents (c : Nat) (f : Flags) : (s.mergeFlags c f).idents = s.idents := rfl
@[simp] theorem State.mergeFlags_nodes (c : Nat) (f : Flags) : (s.mergeFlags c f).nodes = s.nodes := rfl
@[simp] theorem State.mergeFlags_planes (c : Nat) (f : Flags) : (s.mergeFlags c f).planes = s.planes := rfl
@[simp] theorem State.mergeFlags_active (c : Nat) (f : Flags) : (s.mergeFlags c f).active = s.active := rfl
@[simp] theorem State.mergeFlags_hold (c : Nat) (f : Flags) : (s.mergeFlags c f).hold = s.hold := rfl
@[simp] theorem State.mergeFlags_tagtab (c : Nat) (f : Flags) : (s.mergeFlags c f).tagtab = s.tagtab := rfl
@[simp] theorem State.mergeFlags_carve (c : Nat) (f : Flags) : (s.mergeFlags c f).carve = s.carve := rfl
@[simp] theorem State.mergeFlags_lastCtx (c : Nat) (f : Flags) : (s.mergeFlags c f).lastCtx = s.lastCtx := rfl
@[simp] theorem State.mergeFlags_engs (c : Nat) (f : Flags) : (s.mergeFlags c f).engs = s.engs := rfl
@[simp] theorem State.mergeFlags_latches (c : Nat) (f : Flags) : (s.mergeFlags c f).latches = s.latches := rfl
@[simp] theorem State.mergeFlags_acc (c : Nat) (f : Flags) : (s.mergeFlags c f).acc = s.acc := rfl
@[simp] theorem State.mergeFlags_csrow (c : Nat) (f : Flags) : (s.mergeFlags c f).csrow = s.csrow := rfl
@[simp] theorem State.mergeFlags_cscol (c : Nat) (f : Flags) : (s.mergeFlags c f).cscol = s.cscol := rfl
@[simp] theorem State.mergeFlags_recs (c : Nat) (f : Flags) : (s.mergeFlags c f).recs = s.recs := rfl
@[simp] theorem State.mergeFlags_govs (c : Nat) (f : Flags) : (s.mergeFlags c f).govs = s.govs := rfl
@[simp] theorem State.mergeFlags_tlb (c : Nat) (f : Flags) : (s.mergeFlags c f).tlb = s.tlb := rfl
@[simp] theorem State.mergeFlags_misses (c : Nat) (f : Flags) : (s.mergeFlags c f).misses = s.misses := rfl
@[simp] theorem State.mergeFlags_faultToks (c : Nat) (f : Flags) : (s.mergeFlags c f).faultToks = s.faultToks := rfl
@[simp] theorem State.mergeFlags_ptRoot (c : Nat) (f : Flags) : (s.mergeFlags c f).ptRoot = s.ptRoot := rfl
@[simp] theorem State.mergeFlags_ptInval (c : Nat) (f : Flags) : (s.mergeFlags c f).ptInval = s.ptInval := rfl
@[simp] theorem State.mergeFlags_invalRange (c : Nat) (f : Flags) : (s.mergeFlags c f).invalRange = s.invalRange := rfl
@[simp] theorem State.mergeFlags_eccCount (c : Nat) (f : Flags) : (s.mergeFlags c f).eccCount = s.eccCount := rfl
@[simp] theorem State.mergeFlags_eccLog (c : Nat) (f : Flags) : (s.mergeFlags c f).eccLog = s.eccLog := rfl
@[simp] theorem State.mergeFlags_spErr (c : Nat) (f : Flags) : (s.mergeFlags c f).spErr = s.spErr := rfl
@[simp] theorem State.mergeFlags_hbmErr (c : Nat) (f : Flags) : (s.mergeFlags c f).hbmErr = s.hbmErr := rfl
@[simp] theorem State.mergeFlags_latchErr (c : Nat) (f : Flags) : (s.mergeFlags c f).latchErr = s.latchErr := rfl
@[simp] theorem State.mergeFlags_tagErr (c : Nat) (f : Flags) : (s.mergeFlags c f).tagErr = s.tagErr := rfl
@[simp] theorem State.mergeFlags_corrected (c : Nat) (f : Flags) : (s.mergeFlags c f).corrected = s.corrected := rfl
@[simp] theorem State.mergeFlags_uncorrected (c : Nat) (f : Flags) : (s.mergeFlags c f).uncorrected = s.uncorrected := rfl
@[simp] theorem State.mergeFlags_scrubs (c : Nat) (f : Flags) : (s.mergeFlags c f).scrubs = s.scrubs := rfl
@[simp] theorem State.mergeFlags_hostWrs (c : Nat) (f : Flags) : (s.mergeFlags c f).hostWrs = s.hostWrs := rfl
@[simp] theorem State.mergeFlags_lastReply (c : Nat) (f : Flags) : (s.mergeFlags c f).lastReply = s.lastReply := rfl
@[simp] theorem State.mergeFlags_vectors (c : Nat) (f : Flags) : (s.mergeFlags c f).vectors = s.vectors := rfl
@[simp] theorem State.mergeFlags_posted (c : Nat) (f : Flags) : (s.mergeFlags c f).posted = s.posted := rfl
@[simp] theorem State.mergeFlags_ports (c : Nat) (f : Flags) : (s.mergeFlags c f).ports = s.ports := rfl
@[simp] theorem State.mergeFlags_eths (c : Nat) (f : Flags) : (s.mergeFlags c f).eths = s.eths := rfl
@[simp] theorem State.mergeFlags_wa (c : Nat) (f : Flags) : (s.mergeFlags c f).wa = s.wa := rfl
@[simp] theorem State.mergeFlags_wb (c : Nat) (f : Flags) : (s.mergeFlags c f).wb = s.wb := rfl
@[simp] theorem State.mergeFlags_eaa (c : Nat) (f : Flags) : (s.mergeFlags c f).eaa = s.eaa := rfl
@[simp] theorem State.mergeFlags_eab (c : Nat) (f : Flags) : (s.mergeFlags c f).eab = s.eab := rfl
@[simp] theorem State.mergeFlags_etype (c : Nat) (f : Flags) : (s.mergeFlags c f).etype = s.etype := rfl
@[simp] theorem State.mergeFlags_fiCtl (c : Nat) (f : Flags) : (s.mergeFlags c f).fiCtl = s.fiCtl := rfl
@[simp] theorem State.mergeFlags_fiSel (c : Nat) (f : Flags) : (s.mergeFlags c f).fiSel = s.fiSel := rfl
@[simp] theorem State.mergeFlags_preempt (c : Nat) (f : Flags) : (s.mergeFlags c f).preempt = s.preempt := rfl
@[simp] theorem State.mergeFlags_lastPlaced (c : Nat) (f : Flags) : (s.mergeFlags c f).lastPlaced = s.lastPlaced := rfl
@[simp] theorem State.mergeFlags_pwin (c : Nat) (f : Flags) : (s.mergeFlags c f).pwin = s.pwin := rfl
@[simp] theorem State.mergeFlags_fmask (c : Nat) (f : Flags) : (s.mergeFlags c f).fmask = s.fmask := rfl
@[simp] theorem State.mergeFlags_boot (c : Nat) (f : Flags) : (s.mergeFlags c f).boot = s.boot := rfl
@[simp] theorem State.mergeFlags_sec (c : Nat) (f : Flags) : (s.mergeFlags c f).sec = s.sec := rfl
@[simp] theorem State.mergeFlags_telGen (c : Nat) (f : Flags) : (s.mergeFlags c f).telGen = s.telGen := rfl
@[simp] theorem State.mergeFlags_telCopy (c : Nat) (f : Flags) : (s.mergeFlags c f).telCopy = s.telCopy := rfl

/-! ### raiseFlags -/

@[simp] theorem State.raiseFlags_cur (c : Nat) (f : Flags) : (s.raiseFlags c f).cur = s.cur := rfl
@[simp] theorem State.raiseFlags_agenda (c : Nat) (f : Flags) : (s.raiseFlags c f).agenda = s.agenda := rfl
@[simp] theorem State.raiseFlags_turns (c : Nat) (f : Flags) : (s.raiseFlags c f).turns = s.turns := rfl
@[simp] theorem State.raiseFlags_frees (c : Nat) (f : Flags) : (s.raiseFlags c f).frees = s.frees := rfl
@[simp] theorem State.raiseFlags_cycles (c : Nat) (f : Flags) : (s.raiseFlags c f).cycles = s.cycles := rfl
@[simp] theorem State.raiseFlags_sp (c : Nat) (f : Flags) : (s.raiseFlags c f).sp = s.sp := rfl
@[simp] theorem State.raiseFlags_hbm (c : Nat) (f : Flags) : (s.raiseFlags c f).hbm = s.hbm := rfl
@[simp] theorem State.raiseFlags_hostMem (c : Nat) (f : Flags) : (s.raiseFlags c f).hostMem = s.hostMem := rfl
@[simp] theorem State.raiseFlags_peerMem (c : Nat) (f : Flags) : (s.raiseFlags c f).peerMem = s.peerMem := rfl
@[simp] theorem State.raiseFlags_arrivals (c : Nat) (f : Flags) : (s.raiseFlags c f).arrivals = s.arrivals := rfl
@[simp] theorem State.raiseFlags_records (c : Nat) (f : Flags) : (s.raiseFlags c f).records = s.records := rfl
@[simp] theorem State.raiseFlags_ldrLog (c : Nat) (f : Flags) : (s.raiseFlags c f).ldrLog = s.ldrLog := rfl
@[simp] theorem State.raiseFlags_idents (c : Nat) (f : Flags) : (s.raiseFlags c f).idents = s.idents := rfl
@[simp] theorem State.raiseFlags_nodes (c : Nat) (f : Flags) : (s.raiseFlags c f).nodes = s.nodes := rfl
@[simp] theorem State.raiseFlags_planes (c : Nat) (f : Flags) : (s.raiseFlags c f).planes = s.planes := rfl
@[simp] theorem State.raiseFlags_active (c : Nat) (f : Flags) : (s.raiseFlags c f).active = s.active := rfl
@[simp] theorem State.raiseFlags_hold (c : Nat) (f : Flags) : (s.raiseFlags c f).hold = s.hold := rfl
@[simp] theorem State.raiseFlags_tagtab (c : Nat) (f : Flags) : (s.raiseFlags c f).tagtab = s.tagtab := rfl
@[simp] theorem State.raiseFlags_carve (c : Nat) (f : Flags) : (s.raiseFlags c f).carve = s.carve := rfl
@[simp] theorem State.raiseFlags_lastCtx (c : Nat) (f : Flags) : (s.raiseFlags c f).lastCtx = s.lastCtx := rfl
@[simp] theorem State.raiseFlags_engs (c : Nat) (f : Flags) : (s.raiseFlags c f).engs = s.engs := rfl
@[simp] theorem State.raiseFlags_latches (c : Nat) (f : Flags) : (s.raiseFlags c f).latches = s.latches := rfl
@[simp] theorem State.raiseFlags_acc (c : Nat) (f : Flags) : (s.raiseFlags c f).acc = s.acc := rfl
@[simp] theorem State.raiseFlags_csrow (c : Nat) (f : Flags) : (s.raiseFlags c f).csrow = s.csrow := rfl
@[simp] theorem State.raiseFlags_cscol (c : Nat) (f : Flags) : (s.raiseFlags c f).cscol = s.cscol := rfl
@[simp] theorem State.raiseFlags_recs (c : Nat) (f : Flags) : (s.raiseFlags c f).recs = s.recs := rfl
@[simp] theorem State.raiseFlags_govs (c : Nat) (f : Flags) : (s.raiseFlags c f).govs = s.govs := rfl
@[simp] theorem State.raiseFlags_tlb (c : Nat) (f : Flags) : (s.raiseFlags c f).tlb = s.tlb := rfl
@[simp] theorem State.raiseFlags_misses (c : Nat) (f : Flags) : (s.raiseFlags c f).misses = s.misses := rfl
@[simp] theorem State.raiseFlags_faultToks (c : Nat) (f : Flags) : (s.raiseFlags c f).faultToks = s.faultToks := rfl
@[simp] theorem State.raiseFlags_ptRoot (c : Nat) (f : Flags) : (s.raiseFlags c f).ptRoot = s.ptRoot := rfl
@[simp] theorem State.raiseFlags_ptInval (c : Nat) (f : Flags) : (s.raiseFlags c f).ptInval = s.ptInval := rfl
@[simp] theorem State.raiseFlags_invalRange (c : Nat) (f : Flags) : (s.raiseFlags c f).invalRange = s.invalRange := rfl
@[simp] theorem State.raiseFlags_eccCount (c : Nat) (f : Flags) : (s.raiseFlags c f).eccCount = s.eccCount := rfl
@[simp] theorem State.raiseFlags_eccLog (c : Nat) (f : Flags) : (s.raiseFlags c f).eccLog = s.eccLog := rfl
@[simp] theorem State.raiseFlags_spErr (c : Nat) (f : Flags) : (s.raiseFlags c f).spErr = s.spErr := rfl
@[simp] theorem State.raiseFlags_hbmErr (c : Nat) (f : Flags) : (s.raiseFlags c f).hbmErr = s.hbmErr := rfl
@[simp] theorem State.raiseFlags_latchErr (c : Nat) (f : Flags) : (s.raiseFlags c f).latchErr = s.latchErr := rfl
@[simp] theorem State.raiseFlags_tagErr (c : Nat) (f : Flags) : (s.raiseFlags c f).tagErr = s.tagErr := rfl
@[simp] theorem State.raiseFlags_corrected (c : Nat) (f : Flags) : (s.raiseFlags c f).corrected = s.corrected := rfl
@[simp] theorem State.raiseFlags_uncorrected (c : Nat) (f : Flags) : (s.raiseFlags c f).uncorrected = s.uncorrected := rfl
@[simp] theorem State.raiseFlags_scrubs (c : Nat) (f : Flags) : (s.raiseFlags c f).scrubs = s.scrubs := rfl
@[simp] theorem State.raiseFlags_hostWrs (c : Nat) (f : Flags) : (s.raiseFlags c f).hostWrs = s.hostWrs := rfl
@[simp] theorem State.raiseFlags_lastReply (c : Nat) (f : Flags) : (s.raiseFlags c f).lastReply = s.lastReply := rfl
@[simp] theorem State.raiseFlags_vectors (c : Nat) (f : Flags) : (s.raiseFlags c f).vectors = s.vectors := rfl
@[simp] theorem State.raiseFlags_posted (c : Nat) (f : Flags) : (s.raiseFlags c f).posted = s.posted := rfl
@[simp] theorem State.raiseFlags_ports (c : Nat) (f : Flags) : (s.raiseFlags c f).ports = s.ports := rfl
@[simp] theorem State.raiseFlags_eths (c : Nat) (f : Flags) : (s.raiseFlags c f).eths = s.eths := rfl
@[simp] theorem State.raiseFlags_wa (c : Nat) (f : Flags) : (s.raiseFlags c f).wa = s.wa := rfl
@[simp] theorem State.raiseFlags_wb (c : Nat) (f : Flags) : (s.raiseFlags c f).wb = s.wb := rfl
@[simp] theorem State.raiseFlags_eaa (c : Nat) (f : Flags) : (s.raiseFlags c f).eaa = s.eaa := rfl
@[simp] theorem State.raiseFlags_eab (c : Nat) (f : Flags) : (s.raiseFlags c f).eab = s.eab := rfl
@[simp] theorem State.raiseFlags_etype (c : Nat) (f : Flags) : (s.raiseFlags c f).etype = s.etype := rfl
@[simp] theorem State.raiseFlags_fiCtl (c : Nat) (f : Flags) : (s.raiseFlags c f).fiCtl = s.fiCtl := rfl
@[simp] theorem State.raiseFlags_fiSel (c : Nat) (f : Flags) : (s.raiseFlags c f).fiSel = s.fiSel := rfl
@[simp] theorem State.raiseFlags_preempt (c : Nat) (f : Flags) : (s.raiseFlags c f).preempt = s.preempt := rfl
@[simp] theorem State.raiseFlags_lastPlaced (c : Nat) (f : Flags) : (s.raiseFlags c f).lastPlaced = s.lastPlaced := rfl
@[simp] theorem State.raiseFlags_pwin (c : Nat) (f : Flags) : (s.raiseFlags c f).pwin = s.pwin := rfl
@[simp] theorem State.raiseFlags_fmask (c : Nat) (f : Flags) : (s.raiseFlags c f).fmask = s.fmask := rfl
@[simp] theorem State.raiseFlags_boot (c : Nat) (f : Flags) : (s.raiseFlags c f).boot = s.boot := rfl
@[simp] theorem State.raiseFlags_sec (c : Nat) (f : Flags) : (s.raiseFlags c f).sec = s.sec := rfl
@[simp] theorem State.raiseFlags_telGen (c : Nat) (f : Flags) : (s.raiseFlags c f).telGen = s.telGen := rfl
@[simp] theorem State.raiseFlags_telCopy (c : Nat) (f : Flags) : (s.raiseFlags c f).telCopy = s.telCopy := rfl

/-! ### setEng -/

@[simp] theorem State.setEng_cur (e : EngRef) (x : Eng) : (s.setEng e x).cur = s.cur := rfl
@[simp] theorem State.setEng_agenda (e : EngRef) (x : Eng) : (s.setEng e x).agenda = s.agenda := rfl
@[simp] theorem State.setEng_turns (e : EngRef) (x : Eng) : (s.setEng e x).turns = s.turns := rfl
@[simp] theorem State.setEng_frees (e : EngRef) (x : Eng) : (s.setEng e x).frees = s.frees := rfl
@[simp] theorem State.setEng_cycles (e : EngRef) (x : Eng) : (s.setEng e x).cycles = s.cycles := rfl
@[simp] theorem State.setEng_sp (e : EngRef) (x : Eng) : (s.setEng e x).sp = s.sp := rfl
@[simp] theorem State.setEng_hbm (e : EngRef) (x : Eng) : (s.setEng e x).hbm = s.hbm := rfl
@[simp] theorem State.setEng_hostMem (e : EngRef) (x : Eng) : (s.setEng e x).hostMem = s.hostMem := rfl
@[simp] theorem State.setEng_peerMem (e : EngRef) (x : Eng) : (s.setEng e x).peerMem = s.peerMem := rfl
@[simp] theorem State.setEng_arrivals (e : EngRef) (x : Eng) : (s.setEng e x).arrivals = s.arrivals := rfl
@[simp] theorem State.setEng_ctxs (e : EngRef) (x : Eng) : (s.setEng e x).ctxs = s.ctxs := rfl
@[simp] theorem State.setEng_records (e : EngRef) (x : Eng) : (s.setEng e x).records = s.records := rfl
@[simp] theorem State.setEng_ldrLog (e : EngRef) (x : Eng) : (s.setEng e x).ldrLog = s.ldrLog := rfl
@[simp] theorem State.setEng_idents (e : EngRef) (x : Eng) : (s.setEng e x).idents = s.idents := rfl
@[simp] theorem State.setEng_nodes (e : EngRef) (x : Eng) : (s.setEng e x).nodes = s.nodes := rfl
@[simp] theorem State.setEng_planes (e : EngRef) (x : Eng) : (s.setEng e x).planes = s.planes := rfl
@[simp] theorem State.setEng_active (e : EngRef) (x : Eng) : (s.setEng e x).active = s.active := rfl
@[simp] theorem State.setEng_hold (e : EngRef) (x : Eng) : (s.setEng e x).hold = s.hold := rfl
@[simp] theorem State.setEng_tagtab (e : EngRef) (x : Eng) : (s.setEng e x).tagtab = s.tagtab := rfl
@[simp] theorem State.setEng_carve (e : EngRef) (x : Eng) : (s.setEng e x).carve = s.carve := rfl
@[simp] theorem State.setEng_lastCtx (e : EngRef) (x : Eng) : (s.setEng e x).lastCtx = s.lastCtx := rfl
@[simp] theorem State.setEng_latches (e : EngRef) (x : Eng) : (s.setEng e x).latches = s.latches := rfl
@[simp] theorem State.setEng_acc (e : EngRef) (x : Eng) : (s.setEng e x).acc = s.acc := rfl
@[simp] theorem State.setEng_csrow (e : EngRef) (x : Eng) : (s.setEng e x).csrow = s.csrow := rfl
@[simp] theorem State.setEng_cscol (e : EngRef) (x : Eng) : (s.setEng e x).cscol = s.cscol := rfl
@[simp] theorem State.setEng_recs (e : EngRef) (x : Eng) : (s.setEng e x).recs = s.recs := rfl
@[simp] theorem State.setEng_govs (e : EngRef) (x : Eng) : (s.setEng e x).govs = s.govs := rfl
@[simp] theorem State.setEng_tlb (e : EngRef) (x : Eng) : (s.setEng e x).tlb = s.tlb := rfl
@[simp] theorem State.setEng_misses (e : EngRef) (x : Eng) : (s.setEng e x).misses = s.misses := rfl
@[simp] theorem State.setEng_faultToks (e : EngRef) (x : Eng) : (s.setEng e x).faultToks = s.faultToks := rfl
@[simp] theorem State.setEng_ptRoot (e : EngRef) (x : Eng) : (s.setEng e x).ptRoot = s.ptRoot := rfl
@[simp] theorem State.setEng_ptInval (e : EngRef) (x : Eng) : (s.setEng e x).ptInval = s.ptInval := rfl
@[simp] theorem State.setEng_invalRange (e : EngRef) (x : Eng) : (s.setEng e x).invalRange = s.invalRange := rfl
@[simp] theorem State.setEng_eccCount (e : EngRef) (x : Eng) : (s.setEng e x).eccCount = s.eccCount := rfl
@[simp] theorem State.setEng_eccLog (e : EngRef) (x : Eng) : (s.setEng e x).eccLog = s.eccLog := rfl
@[simp] theorem State.setEng_spErr (e : EngRef) (x : Eng) : (s.setEng e x).spErr = s.spErr := rfl
@[simp] theorem State.setEng_hbmErr (e : EngRef) (x : Eng) : (s.setEng e x).hbmErr = s.hbmErr := rfl
@[simp] theorem State.setEng_latchErr (e : EngRef) (x : Eng) : (s.setEng e x).latchErr = s.latchErr := rfl
@[simp] theorem State.setEng_tagErr (e : EngRef) (x : Eng) : (s.setEng e x).tagErr = s.tagErr := rfl
@[simp] theorem State.setEng_corrected (e : EngRef) (x : Eng) : (s.setEng e x).corrected = s.corrected := rfl
@[simp] theorem State.setEng_uncorrected (e : EngRef) (x : Eng) : (s.setEng e x).uncorrected = s.uncorrected := rfl
@[simp] theorem State.setEng_scrubs (e : EngRef) (x : Eng) : (s.setEng e x).scrubs = s.scrubs := rfl
@[simp] theorem State.setEng_hostWrs (e : EngRef) (x : Eng) : (s.setEng e x).hostWrs = s.hostWrs := rfl
@[simp] theorem State.setEng_lastReply (e : EngRef) (x : Eng) : (s.setEng e x).lastReply = s.lastReply := rfl
@[simp] theorem State.setEng_vectors (e : EngRef) (x : Eng) : (s.setEng e x).vectors = s.vectors := rfl
@[simp] theorem State.setEng_posted (e : EngRef) (x : Eng) : (s.setEng e x).posted = s.posted := rfl
@[simp] theorem State.setEng_ports (e : EngRef) (x : Eng) : (s.setEng e x).ports = s.ports := rfl
@[simp] theorem State.setEng_eths (e : EngRef) (x : Eng) : (s.setEng e x).eths = s.eths := rfl
@[simp] theorem State.setEng_wa (e : EngRef) (x : Eng) : (s.setEng e x).wa = s.wa := rfl
@[simp] theorem State.setEng_wb (e : EngRef) (x : Eng) : (s.setEng e x).wb = s.wb := rfl
@[simp] theorem State.setEng_eaa (e : EngRef) (x : Eng) : (s.setEng e x).eaa = s.eaa := rfl
@[simp] theorem State.setEng_eab (e : EngRef) (x : Eng) : (s.setEng e x).eab = s.eab := rfl
@[simp] theorem State.setEng_etype (e : EngRef) (x : Eng) : (s.setEng e x).etype = s.etype := rfl
@[simp] theorem State.setEng_fiCtl (e : EngRef) (x : Eng) : (s.setEng e x).fiCtl = s.fiCtl := rfl
@[simp] theorem State.setEng_fiSel (e : EngRef) (x : Eng) : (s.setEng e x).fiSel = s.fiSel := rfl
@[simp] theorem State.setEng_preempt (e : EngRef) (x : Eng) : (s.setEng e x).preempt = s.preempt := rfl
@[simp] theorem State.setEng_lastPlaced (e : EngRef) (x : Eng) : (s.setEng e x).lastPlaced = s.lastPlaced := rfl
@[simp] theorem State.setEng_pwin (e : EngRef) (x : Eng) : (s.setEng e x).pwin = s.pwin := rfl
@[simp] theorem State.setEng_fmask (e : EngRef) (x : Eng) : (s.setEng e x).fmask = s.fmask := rfl
@[simp] theorem State.setEng_boot (e : EngRef) (x : Eng) : (s.setEng e x).boot = s.boot := rfl
@[simp] theorem State.setEng_sec (e : EngRef) (x : Eng) : (s.setEng e x).sec = s.sec := rfl
@[simp] theorem State.setEng_telGen (e : EngRef) (x : Eng) : (s.setEng e x).telGen = s.telGen := rfl
@[simp] theorem State.setEng_telCopy (e : EngRef) (x : Eng) : (s.setEng e x).telCopy = s.telCopy := rfl

/-! ### setGov -/

@[simp] theorem State.setGov_cur (d : Nat) (g : Gov) : (s.setGov d g).cur = s.cur := rfl
@[simp] theorem State.setGov_agenda (d : Nat) (g : Gov) : (s.setGov d g).agenda = s.agenda := rfl
@[simp] theorem State.setGov_turns (d : Nat) (g : Gov) : (s.setGov d g).turns = s.turns := rfl
@[simp] theorem State.setGov_frees (d : Nat) (g : Gov) : (s.setGov d g).frees = s.frees := rfl
@[simp] theorem State.setGov_cycles (d : Nat) (g : Gov) : (s.setGov d g).cycles = s.cycles := rfl
@[simp] theorem State.setGov_sp (d : Nat) (g : Gov) : (s.setGov d g).sp = s.sp := rfl
@[simp] theorem State.setGov_hbm (d : Nat) (g : Gov) : (s.setGov d g).hbm = s.hbm := rfl
@[simp] theorem State.setGov_hostMem (d : Nat) (g : Gov) : (s.setGov d g).hostMem = s.hostMem := rfl
@[simp] theorem State.setGov_peerMem (d : Nat) (g : Gov) : (s.setGov d g).peerMem = s.peerMem := rfl
@[simp] theorem State.setGov_arrivals (d : Nat) (g : Gov) : (s.setGov d g).arrivals = s.arrivals := rfl
@[simp] theorem State.setGov_ctxs (d : Nat) (g : Gov) : (s.setGov d g).ctxs = s.ctxs := rfl
@[simp] theorem State.setGov_records (d : Nat) (g : Gov) : (s.setGov d g).records = s.records := rfl
@[simp] theorem State.setGov_ldrLog (d : Nat) (g : Gov) : (s.setGov d g).ldrLog = s.ldrLog := rfl
@[simp] theorem State.setGov_idents (d : Nat) (g : Gov) : (s.setGov d g).idents = s.idents := rfl
@[simp] theorem State.setGov_nodes (d : Nat) (g : Gov) : (s.setGov d g).nodes = s.nodes := rfl
@[simp] theorem State.setGov_planes (d : Nat) (g : Gov) : (s.setGov d g).planes = s.planes := rfl
@[simp] theorem State.setGov_active (d : Nat) (g : Gov) : (s.setGov d g).active = s.active := rfl
@[simp] theorem State.setGov_hold (d : Nat) (g : Gov) : (s.setGov d g).hold = s.hold := rfl
@[simp] theorem State.setGov_tagtab (d : Nat) (g : Gov) : (s.setGov d g).tagtab = s.tagtab := rfl
@[simp] theorem State.setGov_carve (d : Nat) (g : Gov) : (s.setGov d g).carve = s.carve := rfl
@[simp] theorem State.setGov_lastCtx (d : Nat) (g : Gov) : (s.setGov d g).lastCtx = s.lastCtx := rfl
@[simp] theorem State.setGov_engs (d : Nat) (g : Gov) : (s.setGov d g).engs = s.engs := rfl
@[simp] theorem State.setGov_latches (d : Nat) (g : Gov) : (s.setGov d g).latches = s.latches := rfl
@[simp] theorem State.setGov_acc (d : Nat) (g : Gov) : (s.setGov d g).acc = s.acc := rfl
@[simp] theorem State.setGov_csrow (d : Nat) (g : Gov) : (s.setGov d g).csrow = s.csrow := rfl
@[simp] theorem State.setGov_cscol (d : Nat) (g : Gov) : (s.setGov d g).cscol = s.cscol := rfl
@[simp] theorem State.setGov_recs (d : Nat) (g : Gov) : (s.setGov d g).recs = s.recs := rfl
@[simp] theorem State.setGov_tlb (d : Nat) (g : Gov) : (s.setGov d g).tlb = s.tlb := rfl
@[simp] theorem State.setGov_misses (d : Nat) (g : Gov) : (s.setGov d g).misses = s.misses := rfl
@[simp] theorem State.setGov_faultToks (d : Nat) (g : Gov) : (s.setGov d g).faultToks = s.faultToks := rfl
@[simp] theorem State.setGov_ptRoot (d : Nat) (g : Gov) : (s.setGov d g).ptRoot = s.ptRoot := rfl
@[simp] theorem State.setGov_ptInval (d : Nat) (g : Gov) : (s.setGov d g).ptInval = s.ptInval := rfl
@[simp] theorem State.setGov_invalRange (d : Nat) (g : Gov) : (s.setGov d g).invalRange = s.invalRange := rfl
@[simp] theorem State.setGov_eccCount (d : Nat) (g : Gov) : (s.setGov d g).eccCount = s.eccCount := rfl
@[simp] theorem State.setGov_eccLog (d : Nat) (g : Gov) : (s.setGov d g).eccLog = s.eccLog := rfl
@[simp] theorem State.setGov_spErr (d : Nat) (g : Gov) : (s.setGov d g).spErr = s.spErr := rfl
@[simp] theorem State.setGov_hbmErr (d : Nat) (g : Gov) : (s.setGov d g).hbmErr = s.hbmErr := rfl
@[simp] theorem State.setGov_latchErr (d : Nat) (g : Gov) : (s.setGov d g).latchErr = s.latchErr := rfl
@[simp] theorem State.setGov_tagErr (d : Nat) (g : Gov) : (s.setGov d g).tagErr = s.tagErr := rfl
@[simp] theorem State.setGov_corrected (d : Nat) (g : Gov) : (s.setGov d g).corrected = s.corrected := rfl
@[simp] theorem State.setGov_uncorrected (d : Nat) (g : Gov) : (s.setGov d g).uncorrected = s.uncorrected := rfl
@[simp] theorem State.setGov_scrubs (d : Nat) (g : Gov) : (s.setGov d g).scrubs = s.scrubs := rfl
@[simp] theorem State.setGov_hostWrs (d : Nat) (g : Gov) : (s.setGov d g).hostWrs = s.hostWrs := rfl
@[simp] theorem State.setGov_lastReply (d : Nat) (g : Gov) : (s.setGov d g).lastReply = s.lastReply := rfl
@[simp] theorem State.setGov_vectors (d : Nat) (g : Gov) : (s.setGov d g).vectors = s.vectors := rfl
@[simp] theorem State.setGov_posted (d : Nat) (g : Gov) : (s.setGov d g).posted = s.posted := rfl
@[simp] theorem State.setGov_ports (d : Nat) (g : Gov) : (s.setGov d g).ports = s.ports := rfl
@[simp] theorem State.setGov_eths (d : Nat) (g : Gov) : (s.setGov d g).eths = s.eths := rfl
@[simp] theorem State.setGov_wa (d : Nat) (g : Gov) : (s.setGov d g).wa = s.wa := rfl
@[simp] theorem State.setGov_wb (d : Nat) (g : Gov) : (s.setGov d g).wb = s.wb := rfl
@[simp] theorem State.setGov_eaa (d : Nat) (g : Gov) : (s.setGov d g).eaa = s.eaa := rfl
@[simp] theorem State.setGov_eab (d : Nat) (g : Gov) : (s.setGov d g).eab = s.eab := rfl
@[simp] theorem State.setGov_etype (d : Nat) (g : Gov) : (s.setGov d g).etype = s.etype := rfl
@[simp] theorem State.setGov_fiCtl (d : Nat) (g : Gov) : (s.setGov d g).fiCtl = s.fiCtl := rfl
@[simp] theorem State.setGov_fiSel (d : Nat) (g : Gov) : (s.setGov d g).fiSel = s.fiSel := rfl
@[simp] theorem State.setGov_preempt (d : Nat) (g : Gov) : (s.setGov d g).preempt = s.preempt := rfl
@[simp] theorem State.setGov_lastPlaced (d : Nat) (g : Gov) : (s.setGov d g).lastPlaced = s.lastPlaced := rfl
@[simp] theorem State.setGov_pwin (d : Nat) (g : Gov) : (s.setGov d g).pwin = s.pwin := rfl
@[simp] theorem State.setGov_fmask (d : Nat) (g : Gov) : (s.setGov d g).fmask = s.fmask := rfl
@[simp] theorem State.setGov_boot (d : Nat) (g : Gov) : (s.setGov d g).boot = s.boot := rfl
@[simp] theorem State.setGov_sec (d : Nat) (g : Gov) : (s.setGov d g).sec = s.sec := rfl
@[simp] theorem State.setGov_telGen (d : Nat) (g : Gov) : (s.setGov d g).telGen = s.telGen := rfl
@[simp] theorem State.setGov_telCopy (d : Nat) (g : Gov) : (s.setGov d g).telCopy = s.telCopy := rfl

/-! ### The contexts -/

variable {s}

/-- A context read after it was written. -/
theorem State.ctx_setCtx_same (h : s.ctxWf = true) (c : Nat) (x : Ctx) : (s.setCtx c x).ctx c = x :=
  smGet_smSet_same h c x

/-- A write of a context leaves every other one alone. -/
theorem State.ctx_setCtx_ne (h : s.ctxWf = true) {c d : Nat} (x : Ctx) (hd : d ≠ c) : (s.setCtx c x).ctx d = s.ctx d :=
  smGet_smSet_ne h x hd

theorem State.ctxWf_setCtx (h : s.ctxWf = true) (c : Nat) (x : Ctx) : (s.setCtx c x).ctxWf = true := smWf_smSet h c x

theorem State.ctxWf_modCtx (h : s.ctxWf = true) (c : Nat) (f : Ctx → Ctx) : (s.modCtx c f).ctxWf = true :=
  smWf_smSet h c _

theorem State.ctxWf_modSeq (h : s.ctxWf = true) (c : Nat) (f : Seq → Seq) : (s.modSeq c f).ctxWf = true :=
  smWf_smSet h c _

theorem State.ctxWf_modFab (h : s.ctxWf = true) (c : Nat) (f : Fabric → Fabric) : (s.modFab c f).ctxWf = true :=
  smWf_smSet h c _

theorem State.ctx_modCtx_same (h : s.ctxWf = true) (c : Nat) (f : Ctx → Ctx) : (s.modCtx c f).ctx c = f (s.ctx c) :=
  State.ctx_setCtx_same h c _

theorem State.ctx_modCtx_ne (h : s.ctxWf = true) {c d : Nat} (f : Ctx → Ctx) (hd : d ≠ c) : (s.modCtx c f).ctx d = s.ctx d :=
  State.ctx_setCtx_ne h _ hd

theorem State.seq_modSeq_same (h : s.ctxWf = true) (c : Nat) (f : Seq → Seq) : (s.modSeq c f).seq c = f (s.seq c) := by
  simp [State.seq, State.modSeq, State.ctx_modCtx_same h]

theorem State.fab_modFab_same (h : s.ctxWf = true) (c : Nat) (f : Fabric → Fabric) : (s.modFab c f).fab c = f (s.fab c) := by
  simp [State.fab, State.modFab, State.ctx_modCtx_same h]

end Sys2Proof.Machine
end

