-- ==== Sys2Proof/Laws/Ops.lean ====
section
/-! SUPPORT. What the shared operations of the sequencer can do: the issue of an instruction, its retirement, taking a trap, and
the end or drain of a graph; what they leave of the stores, and that they keep the store of contexts canonical. -/

namespace Sys2Proof.Machine

open Sys2Proof

/-! ### Stores that an operation leaves alone -/

/-- The byte stores of two states are the same. -/
def SameStores (s t : State) : Prop := t.sp = s.sp ∧ t.hbm = s.hbm ∧ t.hostMem = s.hostMem ∧ t.peerMem = s.peerMem

theorem SameStores.rfl {s : State} : SameStores s s := ⟨Eq.refl _, Eq.refl _, Eq.refl _, Eq.refl _⟩

theorem SameStores.trans {s t u : State} (h : SameStores s t) (g : SameStores t u) : SameStores s u :=
  ⟨g.1.trans h.1, g.2.1.trans h.2.1, g.2.2.1.trans h.2.2.1, g.2.2.2.trans h.2.2.2⟩

theorem SameStores.memWf {s t : State} (h : SameStores s t) (g : s.memWf = true) : t.memWf = true := by
  unfold State.memWf at *
  rw [h.1, h.2.1, h.2.2.1, h.2.2.2]
  exact g

theorem sameStores_modCtx (s : State) (c : Nat) (f : Ctx → Ctx) : SameStores s (s.modCtx c f) := SameStores.rfl
theorem sameStores_modSeq (s : State) (c : Nat) (f : Seq → Seq) : SameStores s (s.modSeq c f) := SameStores.rfl
theorem sameStores_modFab (s : State) (c : Nat) (f : Fabric → Fabric) : SameStores s (s.modFab c f) := SameStores.rfl
theorem sameStores_setCtx (s : State) (c : Nat) (x : Ctx) : SameStores s (s.setCtx c x) := SameStores.rfl

/-- Leave given back touches the governors alone. -/
theorem returnLeave_frame (l : List Nat) (s : State) :
    SameStores s (returnLeave l s) ∧ (returnLeave l s).ctxs = s.ctxs := by
  unfold returnLeave
  induction l generalizing s with
  | nil => exact ⟨SameStores.rfl, rfl⟩
  | cons k t ih => exact ih _

/-- An apply that is given up touches the governors and its context alone. -/
theorem dropApply_stores (c : Nat) (s : State) : SameStores s (dropApply c s) := by
  unfold dropApply
  split
  · exact SameStores.rfl
  · rename_i a _
    refine SameStores.trans ?_ (sameStores_modCtx _ _ _)
    generalize hr : returnLeave a.leave s = r
    have h : SameStores s r := hr ▸ (returnLeave_frame a.leave s).1
    clear hr
    generalize a.waits = w
    induction w generalizing r with
    | nil => exact h
    | cons k t ih => exact ih _ h

theorem dropApply_ctxWf {s : State} (h : s.ctxWf = true) (c : Nat) : (dropApply c s).ctxWf = true := by
  unfold dropApply
  split
  · exact h
  · rename_i a _
    refine State.ctxWf_modCtx ?_ _ _
    generalize hr : returnLeave a.leave s = r
    have h : r.ctxWf = true := by
      unfold State.ctxWf
      rw [← hr, (returnLeave_frame a.leave s).2]
      exact h
    clear hr
    generalize a.waits = w
    induction w generalizing r with
    | nil => exact h
    | cons k t ih => exact ih _ h

/-- The end of a graph leaves the byte stores alone. -/
theorem endGraph_stores (c kind code reason : Nat) (v r e : Word) (s : State) :
    SameStores s (endGraph c kind code reason v r e s) := dropApply_stores c s

theorem endGraph_ctxWf {s : State} (h : s.ctxWf = true) (c kind code reason : Nat) (v r e : Word) :
    (endGraph c kind code reason v r e s).ctxWf = true := by
  have hd : smWf Ctx.reset (dropApply c s).ctxs = true := dropApply_ctxWf h c
  unfold endGraph State.ctxWf
  dsimp only [State.modCtx, State.setCtx]
  exact smWf_smSet hd c _

theorem beginDrain_stores (c : Nat) (w : DrainCause) (code reason : Nat) (r : Word) (s : State) :
    SameStores s (beginDrain c w code reason r s) := SameStores.rfl

theorem outcome_stores (c code reason : Nat) (r : Word) (s : State) : SameStores s (outcome c code reason r s) := by
  unfold outcome
  split
  · exact beginDrain_stores c _ code reason r s
  · exact endGraph_stores c 2 code reason 0 r 0 s

theorem outcome_ctxWf {s : State} (h : s.ctxWf = true) (c code reason : Nat) (r : Word) :
    (outcome c code reason r s).ctxWf = true := by
  unfold outcome
  split
  · exact State.ctxWf_modCtx h c _
  · exact endGraph_ctxWf h c 2 code reason 0 r 0

/-- Taking a trap leaves the byte stores alone. -/
theorem seqTrap_stores (c code reason : Nat) (epc tval : Word) (s : State) :
    SameStores s (seqTrap c code reason epc tval s) := by
  unfold seqTrap
  split
  · exact (sameStores_modSeq s c _).trans (outcome_stores _ _ _ _ _)
  · exact (sameStores_modSeq s c _).trans (outcome_stores _ _ _ _ _)

theorem seqTrap_ctxWf {s : State} (h : s.ctxWf = true) (c code reason : Nat) (epc tval : Word) :
    (seqTrap c code reason epc tval s).ctxWf = true := by
  unfold seqTrap
  split
  · exact outcome_ctxWf (State.ctxWf_modSeq h c _) _ _ _ _
  · exact outcome_ctxWf (State.ctxWf_modSeq h c _) _ _ _ _

/-- A node's trap leaves the byte stores alone. -/
theorem nodeTrap_stores (c code reason : Nat) (r : Word) (s : State) : SameStores s (nodeTrap c code reason r s) := by
  unfold nodeTrap
  split
  · exact (sameStores_modSeq s c _).trans (outcome_stores _ _ _ _ _)
  · exact (sameStores_modSeq s c _).trans (outcome_stores _ _ _ _ _)

theorem nodeTrap_ctxWf {s : State} (h : s.ctxWf = true) (c code reason : Nat) (r : Word) :
    (nodeTrap c code reason r s).ctxWf = true := by
  unfold nodeTrap
  split
  · exact outcome_ctxWf (State.ctxWf_modSeq h c _) _ _ _ _
  · exact outcome_ctxWf (State.ctxWf_modSeq h c _) _ _ _ _

/-- Retirement leaves the byte stores alone. -/
theorem retire_stores (c : Nat) (s : State) : SameStores s (retire c s) := by
  unfold retire
  simp only
  split
  · exact SameStores.rfl
  · exact SameStores.rfl
  · exact (sameStores_modSeq s c _).trans (seqTrap_stores _ _ _ _ _ _)

theorem retire_ctxWf {s : State} (h : s.ctxWf = true) (c : Nat) : (retire c s).ctxWf = true := by
  unfold retire
  simp only
  split
  · exact State.ctxWf_modCtx (State.ctxWf_modSeq h c _) c _
  · exact State.ctxWf_modCtx (State.ctxWf_modSeq h c _) c _
  · exact seqTrap_ctxWf (State.ctxWf_modSeq h c _) _ _ _ _ _

/-! ### Issue -/

/-- Everything that an instruction which issues can do: SEQ.EMPTY, a wait, a held fault, a breakpoint, or its effect. -/
theorem seqIssue_cases {srcs : List Src} {dst : SReg} {s t : State} {k : Nat → State → Out}
    (h : seqIssue srcs dst s k = .next t) : ∃ c, s.cur = .seq c ∧
      ((∃ r, (s.seq c).issue srcs dst = .empty r ∧
          t = seqTrap c trapSeqEmpty 0 (s.seq c).addr (BitVec.ofNat 64 r.val) s) ∨
        ((s.seq c).issue srcs dst = .wait ∧ t = s) ∨
        (∃ f, (s.seq c).issue srcs dst = .fault f ∧ t = raiseHeld c f s) ∨
        ((s.seq c).issue srcs dst = .go ∧ ((∃ s' b, beginPass c s = (s', some b) ∧ t = sbpFreeze c b s') ∨
          (∃ s', beginPass c s = (s', none) ∧ k c s' = .next t)))) := by
  unfold seqIssue asSeq at h
  cases hc : s.cur with
  | none => rw [hc] at h; cases h
  | firing c f => rw [hc] at h; cases h
  | seq c =>
    refine ⟨c, rfl, ?_⟩
    rw [hc] at h
    simp only at h
    cases hi : (s.seq c).issue srcs dst with
    | empty r => rw [hi] at h; cases h; exact .inl ⟨r, rfl, rfl⟩
    | wait => rw [hi] at h; cases h; exact .inr (.inl ⟨rfl, rfl⟩)
    | fault f => rw [hi] at h; cases h; exact .inr (.inr (.inl ⟨f, rfl, rfl⟩))
    | go =>
      rw [hi] at h
      simp only at h
      rcases hb : beginPass c s with ⟨s', _ | b⟩
      · rw [hb] at h
        exact .inr (.inr (.inr ⟨rfl, .inr ⟨s', rfl, h⟩⟩))
      · rw [hb] at h
        cases h
        exact .inr (.inr (.inr ⟨rfl, .inl ⟨s', b, rfl, rfl⟩⟩))

/-- An instruction that issues, with no breakpoint on its pass, has its effect. -/
theorem seqIssue_go {srcs : List Src} {dst : SReg} {s s' : State} {c : Nat} (k : Nat → State → Out)
    (hc : s.cur = .seq c) (hi : (s.seq c).issue srcs dst = .go) (hb : beginPass c s = (s', none)) :
    seqIssue srcs dst s k = k c s' := by
  simp [seqIssue, asSeq, hc, hi, hb]

/-- The count of a breakpoint pass leaves the byte stores alone. -/
theorem beginPass_stores (c : Nat) (s : State) : SameStores s (beginPass c s).1 := by
  unfold beginPass
  simp only
  split <;> exact SameStores.rfl

theorem beginPass_ctxWf {s : State} (h : s.ctxWf = true) (c : Nat) : (beginPass c s).1.ctxWf = true := by
  unfold beginPass
  simp only
  split
  · exact h
  · exact State.ctxWf_setCtx h c _

/-- An instruction whose whole effect is one register write leaves the byte stores alone, whatever its issue finds. -/
theorem seqAlu_stores {srcs : List Src} {dst : SReg} {s t : State} {f : Seq → Word} (h : seqAlu srcs dst s f = .next t) :
    SameStores s t := by
  obtain ⟨c, -, ⟨r, -, rfl⟩ | ⟨-, rfl⟩ | ⟨g, -, rfl⟩ | ⟨-, ⟨s', b, hb, rfl⟩ | ⟨s', hb, hk⟩⟩⟩ := seqIssue_cases h
  · exact seqTrap_stores _ _ _ _ _ _
  · exact SameStores.rfl
  · exact (sameStores_modSeq s c _).trans (seqTrap_stores _ _ _ _ _ _)
  · have hs : s' = (beginPass c s).1 := by rw [hb]
    exact ((hs ▸ beginPass_stores c s : SameStores s s').trans (seqTrap_stores _ _ _ _ _ _)).trans (sameStores_modSeq _ c _)
  · have hs : s' = (beginPass c s).1 := by rw [hb]
    cases hk
    exact (hs ▸ beginPass_stores c s : SameStores s s').trans ((sameStores_modSeq s' c _).trans (retire_stores c _))

/-! ### Loop boundaries -/

/-- No level ends at the instruction: boundary processing changes nothing. -/
theorem boundary_none {a : Nat} {l : List Nat} {q : Seq}
    (h : ∀ v ∈ l, q.act.getLsbD v = true → smGet 0 q.le v ≠ a) : boundary a l q = (q, .none) := by
  induction l with
  | nil => rfl
  | cons v t ih =>
    have hv := h v (by simp)
    have : (q.act.getLsbD v && decide (smGet 0 q.le v = a)) = false := by
      cases ha : q.act.getLsbD v <;> simp [hv, ha]
    simp [boundary, this, ih fun w hw => h w (by simp [hw])]

end Sys2Proof.Machine
end

