-- ==== Sys2Proof/Laws/PerInstr.lean ====
section
/-! SUPPORT. One lemma per constructor of Instr: its encoding, where it has one, is one 32-bit word (R5, R60, R70). -/

namespace Sys2Proof.Laws

open Sys2Proof

/-- The encoding of an instruction, where it has one, is one 32-bit word. -/
def EncodeBound.Statement (i : Instr) : Prop := ∀ w, encode i = some w → w < 2 ^ 32

theorem noWord {i : Instr} (h : encode i = none) : EncodeBound.Statement i := fun w g => by
  rw [h] at g; exact absurd g (by simp)

theorem inWord {i : Instr} {v : Nat} (h : encode i = some v) (hv : v < 2 ^ 32) : EncodeBound.Statement i := fun w g => by
  rw [h] at g; exact Option.some.inj g ▸ hv

theorem code_lt (a : Sel) : a.code < 32 := by
  cases a <;> simp only [Sel.code] <;> omega
theorem intCode_lt (t : IntTy) : t.code < 8 := by cases t <;> decide
theorem fltCode_lt (t : FltTy) : t.code < 4 := by cases t <;> decide
theorem blkCode_lt (t : BlkTy) : t.code < 7 := by cases t <;> decide
theorem wCode_lt (t : WTy) : t.code < 8 := by cases t <;> decide
theorem cvtCode_lt (t : CvtTy) : t.code < 12 := by
  cases t with
  | int t => have := intCode_lt t; simp only [CvtTy.code]; omega
  | flt t => have := fltCode_lt t; simp only [CvtTy.code]; omega
theorem icond_lt (c : ICond) : c.code < 8 := by cases c <;> decide
theorem fcond_lt (c : FCond) : c.code < 8 := by cases c <;> decide
theorem redOp_lt (c : RedOp) : c.code < 6 := by cases c <;> decide
theorem fredOp_lt (c : FRedOp) : c.code < 3 := by cases c <;> decide
theorem fence_lt (k : FenceKind) : k.code < 3 := by cases k <;> decide
theorem rndField_lt (r : Rnd) : r.field < 4 := by cases r <;> decide
theorem rndMod_lt (r : Rnd) : r.modField < 8 := by cases r <;> decide
theorem bitN_lt (b : Bool) : bitN b < 2 := by cases b <;> decide

theorem packS_lt {op d a b : Nat} {ea eb : Bool} {fn : Nat} (ho : op < 64) (hd : d < 32) (ha : a < 32) (hb : b < 32)
    (hf : fn < 512) : packS op d a b ea eb fn < 2 ^ 32 := by
  have := bitN_lt ea
  have := bitN_lt eb
  unfold packS
  omega

theorem packI_lt {op d a : Nat} {e : Bool} {imm : Nat} (ho : op < 64) (hd : d < 32) (ha : a < 32) (hi : imm < 2 ^ 15) :
    packI op d a e imm < 2 ^ 32 := by
  have := bitN_lt e
  unfold packI
  omega

theorem packN_lt {op t a b c rnd : Nat} {sat : Bool} {mod : Nat} (ho : op < 256) (ht : t < 8) (ha : a < 32) (hb : b < 32)
    (hc : c < 32) (hr : rnd < 4) (hm : mod < 8) : packN op t a b c rnd sat mod < 2 ^ 32 := by
  have := bitN_lt sat
  unfold packN
  omega

theorem EncodeBound.add (d a b : SReg) (ea eb : Bool) :
    EncodeBound.Statement (.add d a b ea eb) := by
  have := d.isLt
  have := a.isLt
  have := b.isLt
  have := bitN_lt ea
  have := bitN_lt eb
  refine inWord rfl (packS_lt ?_ ?_ ?_ ?_ ?_) <;> omega
theorem EncodeBound.sub (d a b : SReg) (ea eb : Bool) :
    EncodeBound.Statement (.sub d a b ea eb) := by
  have := d.isLt
  have := a.isLt
  have := b.isLt
  have := bitN_lt ea
  have := bitN_lt eb
  refine inWord rfl (packS_lt ?_ ?_ ?_ ?_ ?_) <;> omega
theorem EncodeBound.mul (d a b : SReg) (ea eb : Bool) :
    EncodeBound.Statement (.mul d a b ea eb) := by
  have := d.isLt
  have := a.isLt
  have := b.isLt
  have := bitN_lt ea
  have := bitN_lt eb
  refine inWord rfl (packS_lt ?_ ?_ ?_ ?_ ?_) <;> omega
theorem EncodeBound.mulh (d a b : SReg) (ea eb : Bool) :
    EncodeBound.Statement (.mulh d a b ea eb) := by
  have := d.isLt
  have := a.isLt
  have := b.isLt
  have := bitN_lt ea
  have := bitN_lt eb
  refine inWord rfl (packS_lt ?_ ?_ ?_ ?_ ?_) <;> omega
theorem EncodeBound.mulhn (d a b : SReg) (ea eb : Bool) :
    EncodeBound.Statement (.mulhn d a b ea eb) := by
  have := d.isLt
  have := a.isLt
  have := b.isLt
  have := bitN_lt ea
  have := bitN_lt eb
  refine inWord rfl (packS_lt ?_ ?_ ?_ ?_ ?_) <;> omega
theorem EncodeBound.and (d a b : SReg) (ea eb : Bool) :
    EncodeBound.Statement (.and d a b ea eb) := by
  have := d.isLt
  have := a.isLt
  have := b.isLt
  have := bitN_lt ea
  have := bitN_lt eb
  refine inWord rfl (packS_lt ?_ ?_ ?_ ?_ ?_) <;> omega
theorem EncodeBound.or (d a b : SReg) (ea eb : Bool) :
    EncodeBound.Statement (.or d a b ea eb) := by
  have := d.isLt
  have := a.isLt
  have := b.isLt
  have := bitN_lt ea
  have := bitN_lt eb
  refine inWord rfl (packS_lt ?_ ?_ ?_ ?_ ?_) <;> omega
theorem EncodeBound.xor (d a b : SReg) (ea eb : Bool) :
    EncodeBound.Statement (.xor d a b ea eb) := by
  have := d.isLt
  have := a.isLt
  have := b.isLt
  have := bitN_lt ea
  have := bitN_lt eb
  refine inWord rfl (packS_lt ?_ ?_ ?_ ?_ ?_) <;> omega
theorem EncodeBound.sll (d a b : SReg) (ea eb : Bool) :
    EncodeBound.Statement (.sll d a b ea eb) := by
  have := d.isLt
  have := a.isLt
  have := b.isLt
  have := bitN_lt ea
  have := bitN_lt eb
  refine inWord rfl (packS_lt ?_ ?_ ?_ ?_ ?_) <;> omega
theorem EncodeBound.srl (d a b : SReg) (ea eb : Bool) :
    EncodeBound.Statement (.srl d a b ea eb) := by
  have := d.isLt
  have := a.isLt
  have := b.isLt
  have := bitN_lt ea
  have := bitN_lt eb
  refine inWord rfl (packS_lt ?_ ?_ ?_ ?_ ?_) <;> omega
theorem EncodeBound.sra (d a b : SReg) (ea eb : Bool) :
    EncodeBound.Statement (.sra d a b ea eb) := by
  have := d.isLt
  have := a.isLt
  have := b.isLt
  have := bitN_lt ea
  have := bitN_lt eb
  refine inWord rfl (packS_lt ?_ ?_ ?_ ?_ ?_) <;> omega
theorem EncodeBound.slt (d a b : SReg) (ea eb : Bool) :
    EncodeBound.Statement (.slt d a b ea eb) := by
  have := d.isLt
  have := a.isLt
  have := b.isLt
  have := bitN_lt ea
  have := bitN_lt eb
  refine inWord rfl (packS_lt ?_ ?_ ?_ ?_ ?_) <;> omega
theorem EncodeBound.sltn (d a b : SReg) (ea eb : Bool) :
    EncodeBound.Statement (.sltn d a b ea eb) := by
  have := d.isLt
  have := a.isLt
  have := b.isLt
  have := bitN_lt ea
  have := bitN_lt eb
  refine inWord rfl (packS_lt ?_ ?_ ?_ ?_ ?_) <;> omega
theorem EncodeBound.seq (d a b : SReg) (ea eb : Bool) :
    EncodeBound.Statement (.seq d a b ea eb) := by
  have := d.isLt
  have := a.isLt
  have := b.isLt
  have := bitN_lt ea
  have := bitN_lt eb
  refine inWord rfl (packS_lt ?_ ?_ ?_ ?_ ?_) <;> omega
theorem EncodeBound.min (d a b : SReg) (ea eb : Bool) :
    EncodeBound.Statement (.min d a b ea eb) := by
  have := d.isLt
  have := a.isLt
  have := b.isLt
  have := bitN_lt ea
  have := bitN_lt eb
  refine inWord rfl (packS_lt ?_ ?_ ?_ ?_ ?_) <;> omega
theorem EncodeBound.max (d a b : SReg) (ea eb : Bool) :
    EncodeBound.Statement (.max d a b ea eb) := by
  have := d.isLt
  have := a.isLt
  have := b.isLt
  have := bitN_lt ea
  have := bitN_lt eb
  refine inWord rfl (packS_lt ?_ ?_ ?_ ?_ ?_) <;> omega
theorem EncodeBound.minn (d a b : SReg) (ea eb : Bool) :
    EncodeBound.Statement (.minn d a b ea eb) := by
  have := d.isLt
  have := a.isLt
  have := b.isLt
  have := bitN_lt ea
  have := bitN_lt eb
  refine inWord rfl (packS_lt ?_ ?_ ?_ ?_ ?_) <;> omega
theorem EncodeBound.maxn (d a b : SReg) (ea eb : Bool) :
    EncodeBound.Statement (.maxn d a b ea eb) := by
  have := d.isLt
  have := a.isLt
  have := b.isLt
  have := bitN_lt ea
  have := bitN_lt eb
  refine inWord rfl (packS_lt ?_ ?_ ?_ ?_ ?_) <;> omega
theorem EncodeBound.addi (d a : SReg) (e : Bool) (i : BitVec 15) :
    EncodeBound.Statement (.addi d a e i) := by
  have := d.isLt
  have := a.isLt
  have := bitN_lt e
  have := i.isLt
  refine inWord rfl (packI_lt ?_ ?_ ?_ ?_) <;> omega
theorem EncodeBound.andi (d a : SReg) (e : Bool) (i : BitVec 15) :
    EncodeBound.Statement (.andi d a e i) := by
  have := d.isLt
  have := a.isLt
  have := bitN_lt e
  have := i.isLt
  refine inWord rfl (packI_lt ?_ ?_ ?_ ?_) <;> omega
theorem EncodeBound.ori (d a : SReg) (e : Bool) (i : BitVec 15) :
    EncodeBound.Statement (.ori d a e i) := by
  have := d.isLt
  have := a.isLt
  have := bitN_lt e
  have := i.isLt
  refine inWord rfl (packI_lt ?_ ?_ ?_ ?_) <;> omega
theorem EncodeBound.xori (d a : SReg) (e : Bool) (i : BitVec 15) :
    EncodeBound.Statement (.xori d a e i) := by
  have := d.isLt
  have := a.isLt
  have := bitN_lt e
  have := i.isLt
  refine inWord rfl (packI_lt ?_ ?_ ?_ ?_) <;> omega
theorem EncodeBound.slli (d a : SReg) (e : Bool) (n : Fin 64) :
    EncodeBound.Statement (.slli d a e n) := by
  have := d.isLt
  have := a.isLt
  have := bitN_lt e
  have := n.isLt
  refine inWord rfl (packI_lt ?_ ?_ ?_ ?_) <;> omega
theorem EncodeBound.srli (d a : SReg) (e : Bool) (n : Fin 64) :
    EncodeBound.Statement (.srli d a e n) := by
  have := d.isLt
  have := a.isLt
  have := bitN_lt e
  have := n.isLt
  refine inWord rfl (packI_lt ?_ ?_ ?_ ?_) <;> omega
theorem EncodeBound.srai (d a : SReg) (e : Bool) (n : Fin 64) :
    EncodeBound.Statement (.srai d a e n) := by
  have := d.isLt
  have := a.isLt
  have := bitN_lt e
  have := n.isLt
  refine inWord rfl (packI_lt ?_ ?_ ?_ ?_) <;> omega
theorem EncodeBound.movz (d : SReg) (q : Fin 4) (i : BitVec 16) :
    EncodeBound.Statement (.movz d q i) := by
  have := d.isLt
  have := q.isLt
  have := i.isLt
  refine inWord rfl ?_
  omega
theorem EncodeBound.movk (d : SReg) (q : Fin 4) (i : BitVec 16) :
    EncodeBound.Statement (.movk d q i) := by
  have := d.isLt
  have := q.isLt
  have := i.isLt
  refine inWord rfl ?_
  omega
theorem EncodeBound.slti (d a : SReg) (e : Bool) (i : BitVec 15) :
    EncodeBound.Statement (.slti d a e i) := by
  have := d.isLt
  have := a.isLt
  have := bitN_lt e
  have := i.isLt
  refine inWord rfl (packI_lt ?_ ?_ ?_ ?_) <;> omega
theorem EncodeBound.sltni (d a : SReg) (e : Bool) (i : BitVec 15) :
    EncodeBound.Statement (.sltni d a e i) := by
  have := d.isLt
  have := a.isLt
  have := bitN_lt e
  have := i.isLt
  refine inWord rfl (packI_lt ?_ ?_ ?_ ?_) <;> omega
theorem EncodeBound.seqi (d a : SReg) (e : Bool) (i : BitVec 15) :
    EncodeBound.Statement (.seqi d a e i) := by
  have := d.isLt
  have := a.isLt
  have := bitN_lt e
  have := i.isLt
  refine inWord rfl (packI_lt ?_ ?_ ?_ ?_) <;> omega
theorem EncodeBound.beqz (a : SReg) (e : Bool) (i : BitVec 15) :
    EncodeBound.Statement (.beqz a e i) := by
  have := a.isLt
  have := bitN_lt e
  have := i.isLt
  refine inWord rfl (packI_lt ?_ ?_ ?_ ?_) <;> omega
theorem EncodeBound.bnez (a : SReg) (e : Bool) (i : BitVec 15) :
    EncodeBound.Statement (.bnez a e i) := by
  have := a.isLt
  have := bitN_lt e
  have := i.isLt
  refine inWord rfl (packI_lt ?_ ?_ ?_ ?_) <;> omega
theorem EncodeBound.bltz (a : SReg) (e : Bool) (i : BitVec 15) :
    EncodeBound.Statement (.bltz a e i) := by
  have := a.isLt
  have := bitN_lt e
  have := i.isLt
  refine inWord rfl (packI_lt ?_ ?_ ?_ ?_) <;> omega
theorem EncodeBound.bgez (a : SReg) (e : Bool) (i : BitVec 15) :
    EncodeBound.Statement (.bgez a e i) := by
  have := a.isLt
  have := bitN_lt e
  have := i.isLt
  refine inWord rfl (packI_lt ?_ ?_ ?_ ?_) <;> omega
theorem EncodeBound.bgtz (a : SReg) (e : Bool) (i : BitVec 15) :
    EncodeBound.Statement (.bgtz a e i) := by
  have := a.isLt
  have := bitN_lt e
  have := i.isLt
  refine inWord rfl (packI_lt ?_ ?_ ?_ ?_) <;> omega
theorem EncodeBound.blez (a : SReg) (e : Bool) (i : BitVec 15) :
    EncodeBound.Statement (.blez a e i) := by
  have := a.isLt
  have := bitN_lt e
  have := i.isLt
  refine inWord rfl (packI_lt ?_ ?_ ?_ ?_) <;> omega
theorem EncodeBound.bbs (c : Fin 32) (a : SReg) (e : Bool) (i : BitVec 15) :
    EncodeBound.Statement (.bbs c a e i) := by
  have := c.isLt
  have := a.isLt
  have := bitN_lt e
  have := i.isLt
  refine inWord rfl (packI_lt ?_ ?_ ?_ ?_) <;> omega
theorem EncodeBound.bbc (c : Fin 32) (a : SReg) (e : Bool) (i : BitVec 15) :
    EncodeBound.Statement (.bbc c a e i) := by
  have := c.isLt
  have := a.isLt
  have := bitN_lt e
  have := i.isLt
  refine inWord rfl (packI_lt ?_ ?_ ?_ ?_) <;> omega
theorem EncodeBound.jal (d : SReg) (i : BitVec 21) :
    EncodeBound.Statement (.jal d i) := by
  have := d.isLt
  have := i.isLt
  refine inWord rfl ?_
  omega
theorem EncodeBound.jalr (d a : SReg) (e : Bool) (i : BitVec 15) :
    EncodeBound.Statement (.jalr d a e i) := by
  have := d.isLt
  have := a.isLt
  have := bitN_lt e
  have := i.isLt
  refine inWord rfl (packI_lt ?_ ?_ ?_ ?_) <;> omega
theorem EncodeBound.loop (v : Fin 4) (a : SReg) (e : Bool) (n : BitVec 15) :
    EncodeBound.Statement (.loop v a e n) := by
  have := v.isLt
  have := a.isLt
  have := bitN_lt e
  have := n.isLt
  refine inWord rfl (packI_lt ?_ ?_ ?_ ?_) <;> omega
theorem EncodeBound.cfg (a : SReg) (e : Bool) (p : Fin 4) :
    EncodeBound.Statement (.cfg a e p) := by
  have := a.isLt
  have := bitN_lt e
  have := p.isLt
  refine inWord rfl (packS_lt ?_ ?_ ?_ ?_ ?_) <;> omega
theorem EncodeBound.run (a : SReg) (e : Bool) (p : Fin 4) :
    EncodeBound.Statement (.run a e p) := by
  have := a.isLt
  have := bitN_lt e
  have := p.isLt
  refine inWord rfl (packS_lt ?_ ?_ ?_ ?_ ?_) <;> omega
theorem EncodeBound.qwait :
    EncodeBound.Statement (.qwait) := by
  exact inWord rfl (packS_lt (by decide) (by decide) (by decide) (by decide) (by decide))
theorem EncodeBound.send (d a b : SReg) (ea eb : Bool) :
    EncodeBound.Statement (.send d a b ea eb) := by
  have := d.isLt
  have := a.isLt
  have := b.isLt
  have := bitN_lt ea
  have := bitN_lt eb
  refine inWord rfl (packS_lt ?_ ?_ ?_ ?_ ?_) <;> omega
theorem EncodeBound.estat (d a : SReg) (e : Bool) :
    EncodeBound.Statement (.estat d a e) := by
  have := d.isLt
  have := a.isLt
  have := bitN_lt e
  refine inWord rfl (packS_lt ?_ ?_ ?_ ?_ ?_) <;> omega
theorem EncodeBound.arrive (b : Fin 128) :
    EncodeBound.Statement (.arrive b) := by
  have := b.isLt
  refine inWord rfl (packI_lt ?_ ?_ ?_ ?_) <;> omega
theorem EncodeBound.wait (b : Fin 128) :
    EncodeBound.Statement (.wait b) := by
  have := b.isLt
  refine inWord rfl (packI_lt ?_ ?_ ?_ ?_) <;> omega
theorem EncodeBound.fence (g : Fin 32) :
    EncodeBound.Statement (.fence g) := by
  have := g.isLt
  refine inWord rfl (packI_lt ?_ ?_ ?_ ?_) <;> omega
theorem EncodeBound.fenceAcq (g : Fin 32) :
    EncodeBound.Statement (.fenceAcq g) := by
  have := g.isLt
  refine inWord rfl (packI_lt ?_ ?_ ?_ ?_) <;> omega
theorem EncodeBound.fenceRel (g : Fin 32) :
    EncodeBound.Statement (.fenceRel g) := by
  have := g.isLt
  refine inWord rfl (packI_lt ?_ ?_ ?_ ?_) <;> omega
theorem EncodeBound.yield :
    EncodeBound.Statement (.yield) := by
  exact inWord rfl (packS_lt (by decide) (by decide) (by decide) (by decide) (by decide))
theorem EncodeBound.wld (d a : SReg) (e : Bool) (w : Fin 8) (o : BitVec 12) :
    EncodeBound.Statement (.wld d a e w o) := by
  have := d.isLt
  have := a.isLt
  have := bitN_lt e
  have := w.isLt
  have := o.isLt
  refine inWord rfl (packI_lt ?_ ?_ ?_ ?_) <;> omega
theorem EncodeBound.ld (d a : SReg) (e : Bool) (i : BitVec 15) :
    EncodeBound.Statement (.ld d a e i) := by
  have := d.isLt
  have := a.isLt
  have := bitN_lt e
  have := i.isLt
  refine inWord rfl (packI_lt ?_ ?_ ?_ ?_) <;> omega
theorem EncodeBound.st (v a : SReg) (ea ev : Bool) (i : BitVec 14) :
    EncodeBound.Statement (.st v a ea ev i) := by
  have := v.isLt
  have := a.isLt
  have := bitN_lt ea
  have := bitN_lt ev
  have := i.isLt
  refine inWord rfl (packI_lt ?_ ?_ ?_ ?_) <;> omega
theorem EncodeBound.ubind (d a : SReg) (e : Bool) :
    EncodeBound.Statement (.ubind d a e) := by
  have := d.isLt
  have := a.isLt
  have := bitN_lt e
  refine inWord rfl (packS_lt ?_ ?_ ?_ ?_ ?_) <;> omega
theorem EncodeBound.uflush (a : SReg) (e : Bool) :
    EncodeBound.Statement (.uflush a e) := by
  have := a.isLt
  have := bitN_lt e
  refine inWord rfl (packS_lt ?_ ?_ ?_ ?_ ?_) <;> omega
theorem EncodeBound.unbind (a : SReg) (e : Bool) :
    EncodeBound.Statement (.unbind a e) := by
  have := a.isLt
  have := bitN_lt e
  refine inWord rfl (packS_lt ?_ ?_ ?_ ?_ ?_) <;> omega
theorem EncodeBound.tbind (a b : SReg) (ea eb : Bool) :
    EncodeBound.Statement (.tbind a b ea eb) := by
  have := a.isLt
  have := b.isLt
  have := bitN_lt ea
  have := bitN_lt eb
  refine inWord rfl (packS_lt ?_ ?_ ?_ ?_ ?_) <;> omega
theorem EncodeBound.csrr (d : SReg) (c : BitVec 12) :
    EncodeBound.Statement (.csrr d c) := by
  have := d.isLt
  have := c.isLt
  refine inWord rfl (packI_lt ?_ ?_ ?_ ?_) <;> omega
theorem EncodeBound.csrw (a : SReg) (e : Bool) (c : BitVec 12) :
    EncodeBound.Statement (.csrw a e c) := by
  have := a.isLt
  have := bitN_lt e
  have := c.isLt
  refine inWord rfl (packI_lt ?_ ?_ ?_ ?_) <;> omega
theorem EncodeBound.csrs (a : SReg) (e : Bool) (c : BitVec 12) :
    EncodeBound.Statement (.csrs a e c) := by
  have := a.isLt
  have := bitN_lt e
  have := c.isLt
  refine inWord rfl (packI_lt ?_ ?_ ?_ ?_) <;> omega
theorem EncodeBound.csrc (a : SReg) (e : Bool) (c : BitVec 12) :
    EncodeBound.Statement (.csrc a e c) := by
  have := a.isLt
  have := bitN_lt e
  have := c.isLt
  refine inWord rfl (packI_lt ?_ ?_ ?_ ?_) <;> omega
theorem EncodeBound.trap (i : BitVec 15) :
    EncodeBound.Statement (.trap i) := by
  have := i.isLt
  refine inWord rfl (packI_lt ?_ ?_ ?_ ?_) <;> omega
theorem EncodeBound.tret :
    EncodeBound.Statement (.tret) := by
  exact inWord rfl (packS_lt (by decide) (by decide) (by decide) (by decide) (by decide))
theorem EncodeBound.brk (i : BitVec 9) :
    EncodeBound.Statement (.brk i) := by
  have := i.isLt
  refine inWord rfl (packS_lt ?_ ?_ ?_ ?_ ?_) <;> omega
theorem EncodeBound.done (a : SReg) (e : Bool) :
    EncodeBound.Statement (.done a e) := by
  have := a.isLt
  have := bitN_lt e
  refine inWord rfl (packS_lt ?_ ?_ ?_ ?_ ?_) <;> omega
theorem EncodeBound.longLatencyWrite (c : CtxId) (k : Nat) : EncodeBound.Statement (.longLatencyWrite c k) := noWord rfl
theorem EncodeBound.nop :
    EncodeBound.Statement (.nop) := by
  exact inWord rfl (packN_lt (by decide) (by decide) (by decide) (by decide) (by decide) (by decide) (by decide))
theorem EncodeBound.addInteger (t : IntTy) (a b : Sel) (sat : Bool) :
    EncodeBound.Statement (.addInteger t a b sat) := by
  have := intCode_lt t
  have := code_lt a
  have := code_lt b
  have := bitN_lt sat
  refine inWord rfl (packN_lt ?_ ?_ ?_ ?_ ?_ ?_ ?_) <;> omega
theorem EncodeBound.subInteger (t : IntTy) (a b : Sel) (sat : Bool) :
    EncodeBound.Statement (.subInteger t a b sat) := by
  have := intCode_lt t
  have := code_lt a
  have := code_lt b
  have := bitN_lt sat
  refine inWord rfl (packN_lt ?_ ?_ ?_ ?_ ?_ ?_ ?_) <;> omega
theorem EncodeBound.mulInteger (t : IntTy) (a b : Sel) (sat : Bool) :
    EncodeBound.Statement (.mulInteger t a b sat) := by
  have := intCode_lt t
  have := code_lt a
  have := code_lt b
  have := bitN_lt sat
  refine inWord rfl (packN_lt ?_ ?_ ?_ ?_ ?_ ?_ ?_) <;> omega
theorem EncodeBound.mulhInteger (t : IntTy) (a b : Sel) :
    EncodeBound.Statement (.mulhInteger t a b) := by
  have := intCode_lt t
  have := code_lt a
  have := code_lt b
  refine inWord rfl (packN_lt ?_ ?_ ?_ ?_ ?_ ?_ ?_) <;> omega
theorem EncodeBound.mad (t : IntTy) (a b c : Sel) (sat : Bool) :
    EncodeBound.Statement (.mad t a b c sat) := by
  have := intCode_lt t
  have := code_lt a
  have := code_lt b
  have := code_lt c
  have := bitN_lt sat
  refine inWord rfl (packN_lt ?_ ?_ ?_ ?_ ?_ ?_ ?_) <;> omega
theorem EncodeBound.negInteger (t : IntTy) (a : Sel) (sat : Bool) :
    EncodeBound.Statement (.negInteger t a sat) := by
  have := intCode_lt t
  have := code_lt a
  have := bitN_lt sat
  refine inWord rfl (packN_lt ?_ ?_ ?_ ?_ ?_ ?_ ?_) <;> omega
theorem EncodeBound.absInteger (t : IntTy) (a : Sel) (sat : Bool) :
    EncodeBound.Statement (.absInteger t a sat) := by
  have := intCode_lt t
  have := code_lt a
  have := bitN_lt sat
  refine inWord rfl (packN_lt ?_ ?_ ?_ ?_ ?_ ?_ ?_) <;> omega
theorem EncodeBound.minInteger (t : IntTy) (a b : Sel) :
    EncodeBound.Statement (.minInteger t a b) := by
  have := intCode_lt t
  have := code_lt a
  have := code_lt b
  refine inWord rfl (packN_lt ?_ ?_ ?_ ?_ ?_ ?_ ?_) <;> omega
theorem EncodeBound.maxInteger (t : IntTy) (a b : Sel) :
    EncodeBound.Statement (.maxInteger t a b) := by
  have := intCode_lt t
  have := code_lt a
  have := code_lt b
  refine inWord rfl (packN_lt ?_ ?_ ?_ ?_ ?_ ?_ ?_) <;> omega
theorem EncodeBound.andInteger (t : IntTy) (a b : Sel) :
    EncodeBound.Statement (.andInteger t a b) := by
  have := intCode_lt t
  have := code_lt a
  have := code_lt b
  refine inWord rfl (packN_lt ?_ ?_ ?_ ?_ ?_ ?_ ?_) <;> omega
theorem EncodeBound.orInteger (t : IntTy) (a b : Sel) :
    EncodeBound.Statement (.orInteger t a b) := by
  have := intCode_lt t
  have := code_lt a
  have := code_lt b
  refine inWord rfl (packN_lt ?_ ?_ ?_ ?_ ?_ ?_ ?_) <;> omega
theorem EncodeBound.xorInteger (t : IntTy) (a b : Sel) :
    EncodeBound.Statement (.xorInteger t a b) := by
  have := intCode_lt t
  have := code_lt a
  have := code_lt b
  refine inWord rfl (packN_lt ?_ ?_ ?_ ?_ ?_ ?_ ?_) <;> omega
theorem EncodeBound.notInteger (t : IntTy) (a : Sel) :
    EncodeBound.Statement (.notInteger t a) := by
  have := intCode_lt t
  have := code_lt a
  refine inWord rfl (packN_lt ?_ ?_ ?_ ?_ ?_ ?_ ?_) <;> omega
theorem EncodeBound.andn (t : IntTy) (a b : Sel) :
    EncodeBound.Statement (.andn t a b) := by
  have := intCode_lt t
  have := code_lt a
  have := code_lt b
  refine inWord rfl (packN_lt ?_ ?_ ?_ ?_ ?_ ?_ ?_) <;> omega
theorem EncodeBound.shl (t : IntTy) (a b : Sel) :
    EncodeBound.Statement (.shl t a b) := by
  have := intCode_lt t
  have := code_lt a
  have := code_lt b
  refine inWord rfl (packN_lt ?_ ?_ ?_ ?_ ?_ ?_ ?_) <;> omega
theorem EncodeBound.shr (t : IntTy) (a b : Sel) :
    EncodeBound.Statement (.shr t a b) := by
  have := intCode_lt t
  have := code_lt a
  have := code_lt b
  refine inWord rfl (packN_lt ?_ ?_ ?_ ?_ ?_ ?_ ?_) <;> omega
theorem EncodeBound.rotl (t : IntTy) (a b : Sel) :
    EncodeBound.Statement (.rotl t a b) := by
  have := intCode_lt t
  have := code_lt a
  have := code_lt b
  refine inWord rfl (packN_lt ?_ ?_ ?_ ?_ ?_ ?_ ?_) <;> omega
theorem EncodeBound.rotr (t : IntTy) (a b : Sel) :
    EncodeBound.Statement (.rotr t a b) := by
  have := intCode_lt t
  have := code_lt a
  have := code_lt b
  refine inWord rfl (packN_lt ?_ ?_ ?_ ?_ ?_ ?_ ?_) <;> omega
theorem EncodeBound.clz (t : IntTy) (a : Sel) :
    EncodeBound.Statement (.clz t a) := by
  have := intCode_lt t
  have := code_lt a
  refine inWord rfl (packN_lt ?_ ?_ ?_ ?_ ?_ ?_ ?_) <;> omega
theorem EncodeBound.popc (t : IntTy) (a : Sel) :
    EncodeBound.Statement (.popc t a) := by
  have := intCode_lt t
  have := code_lt a
  refine inWord rfl (packN_lt ?_ ?_ ?_ ?_ ?_ ?_ ?_) <;> omega
theorem EncodeBound.sel (t : IntTy) (a b c : Sel) :
    EncodeBound.Statement (.sel t a b c) := by
  have := intCode_lt t
  have := code_lt a
  have := code_lt b
  have := code_lt c
  refine inWord rfl (packN_lt ?_ ?_ ?_ ?_ ?_ ?_ ?_) <;> omega
theorem EncodeBound.cmpInteger (t : IntTy) (a b : Sel) (m : ICond) :
    EncodeBound.Statement (.cmpInteger t a b m) := by
  have := intCode_lt t
  have := code_lt a
  have := code_lt b
  have := icond_lt m
  refine inWord rfl (packN_lt ?_ ?_ ?_ ?_ ?_ ?_ ?_) <;> omega
theorem EncodeBound.addFloat (t : FltTy) (a b : Sel) (r : Rnd) (sat : Bool) :
    EncodeBound.Statement (.addFloat t a b r sat) := by
  have := fltCode_lt t
  have := code_lt a
  have := code_lt b
  have := rndField_lt r
  have := rndMod_lt r
  have := bitN_lt sat
  refine inWord rfl (packN_lt ?_ ?_ ?_ ?_ ?_ ?_ ?_) <;> omega
theorem EncodeBound.subFloat (t : FltTy) (a b : Sel) (r : Rnd) (sat : Bool) :
    EncodeBound.Statement (.subFloat t a b r sat) := by
  have := fltCode_lt t
  have := code_lt a
  have := code_lt b
  have := rndField_lt r
  have := rndMod_lt r
  have := bitN_lt sat
  refine inWord rfl (packN_lt ?_ ?_ ?_ ?_ ?_ ?_ ?_) <;> omega
theorem EncodeBound.mulFloat (t : FltTy) (a b : Sel) (r : Rnd) (sat : Bool) :
    EncodeBound.Statement (.mulFloat t a b r sat) := by
  have := fltCode_lt t
  have := code_lt a
  have := code_lt b
  have := rndField_lt r
  have := rndMod_lt r
  have := bitN_lt sat
  refine inWord rfl (packN_lt ?_ ?_ ?_ ?_ ?_ ?_ ?_) <;> omega
theorem EncodeBound.fma (t : FltTy) (a b c : Sel) (r : Rnd) (sat : Bool) :
    EncodeBound.Statement (.fma t a b c r sat) := by
  have := fltCode_lt t
  have := code_lt a
  have := code_lt b
  have := code_lt c
  have := rndField_lt r
  have := rndMod_lt r
  have := bitN_lt sat
  refine inWord rfl (packN_lt ?_ ?_ ?_ ?_ ?_ ?_ ?_) <;> omega
theorem EncodeBound.minFloat (t : FltTy) (a b : Sel) :
    EncodeBound.Statement (.minFloat t a b) := by
  have := fltCode_lt t
  have := code_lt a
  have := code_lt b
  refine inWord rfl (packN_lt ?_ ?_ ?_ ?_ ?_ ?_ ?_) <;> omega
theorem EncodeBound.maxFloat (t : FltTy) (a b : Sel) :
    EncodeBound.Statement (.maxFloat t a b) := by
  have := fltCode_lt t
  have := code_lt a
  have := code_lt b
  refine inWord rfl (packN_lt ?_ ?_ ?_ ?_ ?_ ?_ ?_) <;> omega
theorem EncodeBound.absFloat (t : FltTy) (a : Sel) :
    EncodeBound.Statement (.absFloat t a) := by
  have := fltCode_lt t
  have := code_lt a
  refine inWord rfl (packN_lt ?_ ?_ ?_ ?_ ?_ ?_ ?_) <;> omega
theorem EncodeBound.negFloat (t : FltTy) (a : Sel) :
    EncodeBound.Statement (.negFloat t a) := by
  have := fltCode_lt t
  have := code_lt a
  refine inWord rfl (packN_lt ?_ ?_ ?_ ?_ ?_ ?_ ?_) <;> omega
theorem EncodeBound.cmpFloat (t : FltTy) (a b : Sel) (m : FCond) :
    EncodeBound.Statement (.cmpFloat t a b m) := by
  have := fltCode_lt t
  have := code_lt a
  have := code_lt b
  have := fcond_lt m
  refine inWord rfl (packN_lt ?_ ?_ ?_ ?_ ?_ ?_ ?_) <;> omega
theorem EncodeBound.rcp (t : FltTy) (a : Sel) (r : Rnd) (sat : Bool) :
    EncodeBound.Statement (.rcp t a r sat) := by
  have := fltCode_lt t
  have := code_lt a
  have := rndField_lt r
  have := rndMod_lt r
  have := bitN_lt sat
  refine inWord rfl (packN_lt ?_ ?_ ?_ ?_ ?_ ?_ ?_) <;> omega
theorem EncodeBound.rsqrt (t : FltTy) (a : Sel) (r : Rnd) (sat : Bool) :
    EncodeBound.Statement (.rsqrt t a r sat) := by
  have := fltCode_lt t
  have := code_lt a
  have := rndField_lt r
  have := rndMod_lt r
  have := bitN_lt sat
  refine inWord rfl (packN_lt ?_ ?_ ?_ ?_ ?_ ?_ ?_) <;> omega
theorem EncodeBound.sqrt (t : FltTy) (a : Sel) (r : Rnd) (sat : Bool) :
    EncodeBound.Statement (.sqrt t a r sat) := by
  have := fltCode_lt t
  have := code_lt a
  have := rndField_lt r
  have := rndMod_lt r
  have := bitN_lt sat
  refine inWord rfl (packN_lt ?_ ?_ ?_ ?_ ?_ ?_ ?_) <;> omega
theorem EncodeBound.exp2 (t : FltTy) (a : Sel) (r : Rnd) (sat : Bool) :
    EncodeBound.Statement (.exp2 t a r sat) := by
  have := fltCode_lt t
  have := code_lt a
  have := rndField_lt r
  have := rndMod_lt r
  have := bitN_lt sat
  refine inWord rfl (packN_lt ?_ ?_ ?_ ?_ ?_ ?_ ?_) <;> omega
theorem EncodeBound.log2 (t : FltTy) (a : Sel) (r : Rnd) (sat : Bool) :
    EncodeBound.Statement (.log2 t a r sat) := by
  have := fltCode_lt t
  have := code_lt a
  have := rndField_lt r
  have := rndMod_lt r
  have := bitN_lt sat
  refine inWord rfl (packN_lt ?_ ?_ ?_ ?_ ?_ ?_ ?_) <;> omega
theorem EncodeBound.cvtIntegerSource (t : IntTy) (a : Sel) (c : CvtTy) (r : Rnd) (sat : Bool) :
    EncodeBound.Statement (.cvtIntegerSource t a c r sat) := by
  have := intCode_lt t
  have := code_lt a
  have := cvtCode_lt c
  have := rndField_lt r
  have := rndMod_lt r
  have := bitN_lt sat
  refine inWord rfl (packN_lt ?_ ?_ ?_ ?_ ?_ ?_ ?_) <;> omega
theorem EncodeBound.cvtFloatSource (t : FltTy) (a : Sel) (c : CvtTy) (r : Rnd) (sat : Bool) :
    EncodeBound.Statement (.cvtFloatSource t a c r sat) := by
  have := fltCode_lt t
  have := code_lt a
  have := cvtCode_lt c
  have := rndField_lt r
  have := rndMod_lt r
  have := bitN_lt sat
  refine inWord rfl (packN_lt ?_ ?_ ?_ ?_ ?_ ?_ ?_) <;> omega
theorem EncodeBound.quant (t : BlkTy) (a : Sel) (c : FltTy) (r : Rnd) (sat : Bool) :
    EncodeBound.Statement (.quant t a c r sat) := by
  have := blkCode_lt t
  have := code_lt a
  have := fltCode_lt c
  have := rndField_lt r
  have := rndMod_lt r
  have := bitN_lt sat
  refine inWord rfl (packN_lt ?_ ?_ ?_ ?_ ?_ ?_ ?_) <;> omega
theorem EncodeBound.dequant (t : BlkTy) (a : Sel) (c : FltTy) (r : Rnd) (sat : Bool) :
    EncodeBound.Statement (.dequant t a c r sat) := by
  have := blkCode_lt t
  have := code_lt a
  have := fltCode_lt c
  have := rndField_lt r
  have := rndMod_lt r
  have := bitN_lt sat
  refine inWord rfl (packN_lt ?_ ?_ ?_ ?_ ?_ ?_ ?_) <;> omega
theorem EncodeBound.bmul (t : BlkTy) (a b : Sel) (c : BlkTy) (r : Rnd) (sat : Bool) :
    EncodeBound.Statement (.bmul t a b c r sat) := by
  have := blkCode_lt t
  have := code_lt a
  have := code_lt b
  have := blkCode_lt c
  have := rndField_lt r
  have := rndMod_lt r
  have := bitN_lt sat
  refine inWord rfl (packN_lt ?_ ?_ ?_ ?_ ?_ ?_ ?_) <;> omega
theorem EncodeBound.bdot (t : BlkTy) (a b : Sel) (c : BlkTy) (r : Rnd) (sat : Bool) :
    EncodeBound.Statement (.bdot t a b c r sat) := by
  have := blkCode_lt t
  have := code_lt a
  have := code_lt b
  have := blkCode_lt c
  have := rndField_lt r
  have := rndMod_lt r
  have := bitN_lt sat
  refine inWord rfl (packN_lt ?_ ?_ ?_ ?_ ?_ ?_ ?_) <;> omega
theorem EncodeBound.bcast (t : WTy) (a b : Sel) :
    EncodeBound.Statement (.bcast t a b) := by
  have := wCode_lt t
  have := code_lt a
  have := code_lt b
  refine inWord rfl (packN_lt ?_ ?_ ?_ ?_ ?_ ?_ ?_) <;> omega
theorem EncodeBound.shuf (t : WTy) (a b : Sel) :
    EncodeBound.Statement (.shuf t a b) := by
  have := wCode_lt t
  have := code_lt a
  have := code_lt b
  refine inWord rfl (packN_lt ?_ ?_ ?_ ?_ ?_ ?_ ?_) <;> omega
theorem EncodeBound.redInteger (t : IntTy) (a : Sel) (c : RedOp) (sat : Bool) :
    EncodeBound.Statement (.redInteger t a c sat) := by
  have := intCode_lt t
  have := code_lt a
  have := redOp_lt c
  have := bitN_lt sat
  refine inWord rfl (packN_lt ?_ ?_ ?_ ?_ ?_ ?_ ?_) <;> omega
theorem EncodeBound.redFloat (t : FltTy) (a : Sel) (c : FRedOp) (r : Rnd) (sat : Bool) :
    EncodeBound.Statement (.redFloat t a c r sat) := by
  have := fltCode_lt t
  have := code_lt a
  have := fredOp_lt c
  have := rndField_lt r
  have := rndMod_lt r
  have := bitN_lt sat
  refine inWord rfl (packN_lt ?_ ?_ ?_ ?_ ?_ ?_ ?_) <;> omega
theorem EncodeBound.scanInteger (t : IntTy) (a : Sel) (c : RedOp) (sat : Bool) :
    EncodeBound.Statement (.scanInteger t a c sat) := by
  have := intCode_lt t
  have := code_lt a
  have := redOp_lt c
  have := bitN_lt sat
  refine inWord rfl (packN_lt ?_ ?_ ?_ ?_ ?_ ?_ ?_) <;> omega
theorem EncodeBound.scanFloat (t : FltTy) (a : Sel) (c : FRedOp) (r : Rnd) (sat : Bool) :
    EncodeBound.Statement (.scanFloat t a c r sat) := by
  have := fltCode_lt t
  have := code_lt a
  have := fredOp_lt c
  have := rndField_lt r
  have := rndMod_lt r
  have := bitN_lt sat
  refine inWord rfl (packN_lt ?_ ?_ ?_ ?_ ?_ ?_ ?_) <;> omega
theorem EncodeBound.alloc (a : Sel) :
    EncodeBound.Statement (.alloc a) := by
  have := code_lt a
  refine inWord rfl (packN_lt ?_ ?_ ?_ ?_ ?_ ?_ ?_) <;> omega
theorem EncodeBound.free (a : Sel) :
    EncodeBound.Statement (.free a) := by
  have := code_lt a
  refine inWord rfl (packN_lt ?_ ?_ ?_ ?_ ?_ ?_ ?_) <;> omega
theorem EncodeBound.retag (a b : Sel) :
    EncodeBound.Statement (.retag a b) := by
  have := code_lt a
  have := code_lt b
  refine inWord rfl (packN_lt ?_ ?_ ?_ ?_ ?_ ?_ ?_) <;> omega
theorem EncodeBound.ctag (a : Sel) :
    EncodeBound.Statement (.ctag a) := by
  have := code_lt a
  refine inWord rfl (packN_lt ?_ ?_ ?_ ?_ ?_ ?_ ?_) <;> omega
theorem EncodeBound.tagrd (a : Sel) :
    EncodeBound.Statement (.tagrd a) := by
  have := code_lt a
  refine inWord rfl (packN_lt ?_ ?_ ?_ ?_ ?_ ?_ ?_) <;> omega
theorem EncodeBound.steer (a b : Sel) :
    EncodeBound.Statement (.steer a b) := by
  have := code_lt a
  have := code_lt b
  refine inWord rfl (packN_lt ?_ ?_ ?_ ?_ ?_ ?_ ?_) <;> omega
theorem EncodeBound.merge :
    EncodeBound.Statement (.merge) := by
  exact inWord rfl (packN_lt (by decide) (by decide) (by decide) (by decide) (by decide) (by decide) (by decide))
theorem EncodeBound.gate :
    EncodeBound.Statement (.gate) := by
  exact inWord rfl (packN_lt (by decide) (by decide) (by decide) (by decide) (by decide) (by decide) (by decide))
theorem EncodeBound.dup (a : Sel) :
    EncodeBound.Statement (.dup a) := by
  have := code_lt a
  refine inWord rfl (packN_lt ?_ ?_ ?_ ?_ ?_ ?_ ?_) <;> omega
theorem EncodeBound.call (a : Sel) :
    EncodeBound.Statement (.call a) := by
  have := code_lt a
  refine inWord rfl (packN_lt ?_ ?_ ?_ ?_ ?_ ?_ ?_) <;> omega
theorem EncodeBound.ret (a : Sel) :
    EncodeBound.Statement (.ret a) := by
  have := code_lt a
  refine inWord rfl (packN_lt ?_ ?_ ?_ ?_ ?_ ?_ ?_) <;> omega
theorem EncodeBound.rdcInteger (t : IntTy) (a : Sel) (c : RedOp) (sat : Bool) :
    EncodeBound.Statement (.rdcInteger t a c sat) := by
  have := intCode_lt t
  have := code_lt a
  have := redOp_lt c
  have := bitN_lt sat
  refine inWord rfl (packN_lt ?_ ?_ ?_ ?_ ?_ ?_ ?_) <;> omega
theorem EncodeBound.rdcFloat (t : FltTy) (a : Sel) (c : FRedOp) (r : Rnd) (sat : Bool) :
    EncodeBound.Statement (.rdcFloat t a c r sat) := by
  have := fltCode_lt t
  have := code_lt a
  have := fredOp_lt c
  have := rndField_lt r
  have := rndMod_lt r
  have := bitN_lt sat
  refine inWord rfl (packN_lt ?_ ?_ ?_ ?_ ?_ ?_ ?_) <;> omega
theorem EncodeBound.lds (t : IntTy) (a : Sel) (o : Bool) :
    EncodeBound.Statement (.lds t a o) := by
  have := intCode_lt t
  have := code_lt a
  have := bitN_lt o
  refine inWord rfl (packN_lt ?_ ?_ ?_ ?_ ?_ ?_ ?_) <;> omega
theorem EncodeBound.sts (t : IntTy) (a b : Sel) (o : Bool) :
    EncodeBound.Statement (.sts t a b o) := by
  have := intCode_lt t
  have := code_lt a
  have := code_lt b
  have := bitN_lt o
  refine inWord rfl (packN_lt ?_ ?_ ?_ ?_ ?_ ?_ ?_) <;> omega
theorem EncodeBound.ldg (t : IntTy) (a : Sel) (o : Bool) :
    EncodeBound.Statement (.ldg t a o) := by
  have := intCode_lt t
  have := code_lt a
  have := bitN_lt o
  refine inWord rfl (packN_lt ?_ ?_ ?_ ?_ ?_ ?_ ?_) <;> omega
theorem EncodeBound.stg (t : IntTy) (a b : Sel) (o : Bool) :
    EncodeBound.Statement (.stg t a b o) := by
  have := intCode_lt t
  have := code_lt a
  have := code_lt b
  have := bitN_lt o
  refine inWord rfl (packN_lt ?_ ?_ ?_ ?_ ?_ ?_ ?_) <;> omega
theorem EncodeBound.gather (t : IntTy) (a b : Sel) (o : Bool) :
    EncodeBound.Statement (.gather t a b o) := by
  have := intCode_lt t
  have := code_lt a
  have := code_lt b
  have := bitN_lt o
  refine inWord rfl (packN_lt ?_ ?_ ?_ ?_ ?_ ?_ ?_) <;> omega
theorem EncodeBound.scatter (t : IntTy) (a b : Sel) (o : Bool) :
    EncodeBound.Statement (.scatter t a b o) := by
  have := intCode_lt t
  have := code_lt a
  have := code_lt b
  have := bitN_lt o
  refine inWord rfl (packN_lt ?_ ?_ ?_ ?_ ?_ ?_ ?_) <;> omega
theorem EncodeBound.ldacq (t : IntTy) (a : Sel) (g : Fin 32) (o : Bool) :
    EncodeBound.Statement (.ldacq t a g o) := by
  have := intCode_lt t
  have := code_lt a
  have := g.isLt
  have := bitN_lt o
  refine inWord rfl (packN_lt ?_ ?_ ?_ ?_ ?_ ?_ ?_) <;> omega
theorem EncodeBound.strel (t : IntTy) (a b : Sel) (g : Fin 32) (o : Bool) :
    EncodeBound.Statement (.strel t a b g o) := by
  have := intCode_lt t
  have := code_lt a
  have := code_lt b
  have := g.isLt
  have := bitN_lt o
  refine inWord rfl (packN_lt ?_ ?_ ?_ ?_ ?_ ?_ ?_) <;> omega
theorem EncodeBound.atomIadd (t : WTy) (a b : Sel) :
    EncodeBound.Statement (.atomIadd t a b) := by
  have := wCode_lt t
  have := code_lt a
  have := code_lt b
  refine inWord rfl (packN_lt ?_ ?_ ?_ ?_ ?_ ?_ ?_) <;> omega
theorem EncodeBound.atomImin (t : WTy) (a b : Sel) :
    EncodeBound.Statement (.atomImin t a b) := by
  have := wCode_lt t
  have := code_lt a
  have := code_lt b
  refine inWord rfl (packN_lt ?_ ?_ ?_ ?_ ?_ ?_ ?_) <;> omega
theorem EncodeBound.atomImax (t : WTy) (a b : Sel) :
    EncodeBound.Statement (.atomImax t a b) := by
  have := wCode_lt t
  have := code_lt a
  have := code_lt b
  refine inWord rfl (packN_lt ?_ ?_ ?_ ?_ ?_ ?_ ?_) <;> omega
theorem EncodeBound.atomAnd (t : WTy) (a b : Sel) :
    EncodeBound.Statement (.atomAnd t a b) := by
  have := wCode_lt t
  have := code_lt a
  have := code_lt b
  refine inWord rfl (packN_lt ?_ ?_ ?_ ?_ ?_ ?_ ?_) <;> omega
theorem EncodeBound.atomOr (t : WTy) (a b : Sel) :
    EncodeBound.Statement (.atomOr t a b) := by
  have := wCode_lt t
  have := code_lt a
  have := code_lt b
  refine inWord rfl (packN_lt ?_ ?_ ?_ ?_ ?_ ?_ ?_) <;> omega
theorem EncodeBound.atomXor (t : WTy) (a b : Sel) :
    EncodeBound.Statement (.atomXor t a b) := by
  have := wCode_lt t
  have := code_lt a
  have := code_lt b
  refine inWord rfl (packN_lt ?_ ?_ ?_ ?_ ?_ ?_ ?_) <;> omega
theorem EncodeBound.atomXchg (t : WTy) (a b : Sel) :
    EncodeBound.Statement (.atomXchg t a b) := by
  have := wCode_lt t
  have := code_lt a
  have := code_lt b
  refine inWord rfl (packN_lt ?_ ?_ ?_ ?_ ?_ ?_ ?_) <;> omega
theorem EncodeBound.atomCas (t : WTy) (a b c : Sel) :
    EncodeBound.Statement (.atomCas t a b c) := by
  have := wCode_lt t
  have := code_lt a
  have := code_lt b
  have := code_lt c
  refine inWord rfl (packN_lt ?_ ?_ ?_ ?_ ?_ ?_ ?_) <;> omega
theorem EncodeBound.lookup (a : Sel) :
    EncodeBound.Statement (.lookup a) := by
  have := code_lt a
  refine inWord rfl (packN_lt ?_ ?_ ?_ ?_ ?_ ?_ ?_) <;> omega
theorem EncodeBound.insert (a b : Sel) :
    EncodeBound.Statement (.insert a b) := by
  have := code_lt a
  have := code_lt b
  refine inWord rfl (packN_lt ?_ ?_ ?_ ?_ ?_ ?_ ?_) <;> omega
theorem EncodeBound.evict (a : Sel) :
    EncodeBound.Statement (.evict a) := by
  have := code_lt a
  refine inWord rfl (packN_lt ?_ ?_ ?_ ?_ ?_ ?_ ?_) <;> omega
theorem EncodeBound.upd (t : WTy) (a b : Sel) :
    EncodeBound.Statement (.upd t a b) := by
  have := wCode_lt t
  have := code_lt a
  have := code_lt b
  refine inWord rfl (packN_lt ?_ ?_ ?_ ?_ ?_ ?_ ?_) <;> omega
theorem EncodeBound.arriveNode (b : Fin 128) :
    EncodeBound.Statement (.arriveNode b) := by
  have := b.isLt
  refine inWord rfl (packN_lt ?_ ?_ ?_ ?_ ?_ ?_ ?_) <;> omega
theorem EncodeBound.waitNode (b : Fin 128) :
    EncodeBound.Statement (.waitNode b) := by
  have := b.isLt
  refine inWord rfl (packN_lt ?_ ?_ ?_ ?_ ?_ ?_ ?_) <;> omega
theorem EncodeBound.fenceNode (g : Fin 32) (k : FenceKind) :
    EncodeBound.Statement (.fenceNode g k) := by
  have := g.isLt
  have := fence_lt k
  refine inWord rfl (packN_lt ?_ ?_ ?_ ?_ ?_ ?_ ?_) <;> omega
theorem EncodeBound.yieldNode :
    EncodeBound.Statement (.yieldNode) := by
  exact inWord rfl (packN_lt (by decide) (by decide) (by decide) (by decide) (by decide) (by decide) (by decide))
theorem EncodeBound.sendNode (a b : Sel) :
    EncodeBound.Statement (.sendNode a b) := by
  have := code_lt a
  have := code_lt b
  refine inWord rfl (packN_lt ?_ ?_ ?_ ?_ ?_ ?_ ?_) <;> omega
theorem EncodeBound.trapNode (i : BitVec 10) :
    EncodeBound.Statement (.trapNode i) := by
  have := i.isLt
  refine inWord rfl (packN_lt ?_ ?_ ?_ ?_ ?_ ?_ ?_) <;> omega
theorem EncodeBound.brkNode (i : BitVec 10) :
    EncodeBound.Statement (.brkNode i) := by
  have := i.isLt
  refine inWord rfl (packN_lt ?_ ?_ ?_ ?_ ?_ ?_ ?_) <;> omega
theorem EncodeBound.copyLin (c : Cluster) (u : Fin 16) : EncodeBound.Statement (.copyLin c u) := noWord rfl
theorem EncodeBound.copy2d (c : Cluster) (u : Fin 16) : EncodeBound.Statement (.copy2d c u) := noWord rfl
theorem EncodeBound.copyRows (c : Cluster) (u : Fin 16) : EncodeBound.Statement (.copyRows c u) := noWord rfl
theorem EncodeBound.copySeg (c : Cluster) (u : Fin 16) : EncodeBound.Statement (.copySeg c u) := noWord rfl
theorem EncodeBound.gath (c : Cluster) (u : Fin 16) : EncodeBound.Statement (.gath c u) := noWord rfl
theorem EncodeBound.pressMm (c : Cluster) (u : Fin 16) : EncodeBound.Statement (.pressMm c u) := noWord rfl
theorem EncodeBound.pressBf (c : Cluster) (u : Fin 16) : EncodeBound.Statement (.pressBf c u) := noWord rfl
theorem EncodeBound.pressRd (c : Cluster) (u : Fin 16) : EncodeBound.Statement (.pressRd c u) := noWord rfl
theorem EncodeBound.maskCls (c : Cluster) : EncodeBound.Statement (.maskCls c) := noWord rfl
theorem EncodeBound.inboxAccept (e : EngRef) : EncodeBound.Statement (.inboxAccept e) := noWord rfl
theorem EncodeBound.leaveGrant (d : Die) : EncodeBound.Statement (.leaveGrant d) := noWord rfl
theorem EncodeBound.commitPoint (e : EngRef) : EncodeBound.Statement (.commitPoint e) := noWord rfl
theorem EncodeBound.followOnDelivery (e : EngRef) : EncodeBound.Statement (.followOnDelivery e) := noWord rfl
theorem EncodeBound.replyTokenDelivery (c : CtxId) (k : Nat) : EncodeBound.Statement (.replyTokenDelivery c k) := noWord rfl
theorem EncodeBound.tokenMatch (c : CtxId) (k : Nat) : EncodeBound.Statement (.tokenMatch c k) := noWord rfl
theorem EncodeBound.indexTokenIssue (c : CtxId) (k : Nat) : EncodeBound.Statement (.indexTokenIssue c k) := noWord rfl
theorem EncodeBound.tagAllocGrant (c : CtxId) (k : Nat) : EncodeBound.Statement (.tagAllocGrant c k) := noWord rfl
theorem EncodeBound.freeComplete (c : CtxId) (f : Nat) : EncodeBound.Statement (.freeComplete c f) := noWord rfl
theorem EncodeBound.planeSwitch (c : Cluster) : EncodeBound.Statement (.planeSwitch c) := noWord rfl
theorem EncodeBound.configurationLoadComplete (c : CtxId) : EncodeBound.Statement (.configurationLoadComplete c) := noWord rfl
theorem EncodeBound.quiescenceReport (c : CtxId) : EncodeBound.Statement (.quiescenceReport c) := noWord rfl
theorem EncodeBound.watchdogTrip (c : CtxId) : EncodeBound.Statement (.watchdogTrip c) := noWord rfl
theorem EncodeBound.memoryAccessAccept (c : CtxId) (k : Nat) : EncodeBound.Statement (.memoryAccessAccept c k) := noWord rfl
theorem EncodeBound.accessPerform (c : CtxId) (k : Nat) : EncodeBound.Statement (.accessPerform c k) := noWord rfl
theorem EncodeBound.loadResult (c : CtxId) (f : Nat) : EncodeBound.Statement (.loadResult c f) := noWord rfl
theorem EncodeBound.tlbMiss (k : Nat) : EncodeBound.Statement (.tlbMiss k) := noWord rfl
theorem EncodeBound.walkResult (k : Nat) : EncodeBound.Statement (.walkResult k) := noWord rfl
theorem EncodeBound.pageFault (k : Nat) : EncodeBound.Statement (.pageFault k) := noWord rfl
theorem EncodeBound.barrierArrivalRecord (c : CtxId) (k : Nat) : EncodeBound.Statement (.barrierArrivalRecord c k) := noWord rfl
theorem EncodeBound.phaseCompletion (c : CtxId) (k : Nat) : EncodeBound.Statement (.phaseCompletion c k) := noWord rfl
theorem EncodeBound.pairAccept (c : CtxId) (k : Nat) : EncodeBound.Statement (.pairAccept c k) := noWord rfl
theorem EncodeBound.sorterApply (c : CtxId) (h : Fin 16) (stack : Fin 16) : EncodeBound.Statement (.sorterApply c h stack) := noWord rfl
theorem EncodeBound.hostPostedWrite (req : BitVec 16) (w : HostWrite) : EncodeBound.Statement (.hostPostedWrite req w) := noWord rfl
theorem EncodeBound.hostWriteForward (k : Nat) : EncodeBound.Statement (.hostWriteForward k) := noWord rfl
theorem EncodeBound.homeAcknowledgement (k : Nat) (stack : Fin 16) : EncodeBound.Statement (.homeAcknowledgement k stack) := noWord rfl
theorem EncodeBound.hostRead (req : BitVec 16) (space : HostSpace) (a : BitVec 46) (n : Nat) : EncodeBound.Statement (.hostRead req space a n) := noWord rfl
theorem EncodeBound.hostAtomicRequest (req : BitVec 16) (ia : BitVec 46) : EncodeBound.Statement (.hostAtomicRequest req ia) := noWord rfl
theorem EncodeBound.peerAccess (ia : BitVec 48) (w : Option (List Byte)) (n : Nat) : EncodeBound.Statement (.peerAccess ia w n) := noWord rfl
theorem EncodeBound.peerStoreAcknowledgement (k : Nat) : EncodeBound.Statement (.peerStoreAcknowledgement k) := noWord rfl
theorem EncodeBound.linkRemoteRefusal (k : Nat) : EncodeBound.Statement (.linkRemoteRefusal k) := noWord rfl
theorem EncodeBound.flitCrcFailure (p : Port) : EncodeBound.Statement (.flitCrcFailure p) := noWord rfl
theorem EncodeBound.laneLockLoss (p : Port) : EncodeBound.Statement (.laneLockLoss p) := noWord rfl
theorem EncodeBound.cttRetransmission (p : Fin 8) : EncodeBound.Statement (.cttRetransmission p) := noWord rfl
theorem EncodeBound.portRetrain (p : Port) : EncodeBound.Statement (.portRetrain p) := noWord rfl
theorem EncodeBound.edgeAdderStore (p : Port) (ia : BitVec 48) (bytes : List Byte) : EncodeBound.Statement (.edgeAdderStore p ia bytes) := noWord rfl
theorem EncodeBound.launch (c : CtxId) : EncodeBound.Statement (.launch c) := noWord rfl
theorem EncodeBound.resume (c : CtxId) : EncodeBound.Statement (.resume c) := noWord rfl
theorem EncodeBound.retire (c : CtxId) : EncodeBound.Statement (.retire c) := noWord rfl
theorem EncodeBound.mark (c : CtxId) : EncodeBound.Statement (.mark c) := noWord rfl
theorem EncodeBound.stop (c : CtxId) : EncodeBound.Statement (.stop c) := noWord rfl
theorem EncodeBound.taskPlace : EncodeBound.Statement (.taskPlace) := noWord rfl
theorem EncodeBound.preemptRequest : EncodeBound.Statement (.preemptRequest) := noWord rfl
theorem EncodeBound.drainComplete (c : CtxId) : EncodeBound.Statement (.drainComplete c) := noWord rfl
theorem EncodeBound.completionTokenWrite (c : CtxId) : EncodeBound.Statement (.completionTokenWrite c) := noWord rfl
theorem EncodeBound.ctxCtlEn (c : CtxId) (v : Bool) : EncodeBound.Statement (.ctxCtlEn c v) := noWord rfl
theorem EncodeBound.faultGo (c : CtxId) (req : BitVec 16) : EncodeBound.Statement (.faultGo c req) := noWord rfl
theorem EncodeBound.ptRootWrite (v : Word) : EncodeBound.Statement (.ptRootWrite v) := noWord rfl
theorem EncodeBound.ptInval (v : Word) : EncodeBound.Statement (.ptInval v) := noWord rfl
theorem EncodeBound.invalidationComplete : EncodeBound.Statement (.invalidationComplete) := noWord rfl
theorem EncodeBound.faultInjectionArm (v : Word) : EncodeBound.Statement (.faultInjectionArm v) := noWord rfl
theorem EncodeBound.registerWrite (off : BitVec 26) (v : Word) : EncodeBound.Statement (.registerWrite off v) := noWord rfl
theorem EncodeBound.loadFirmware : EncodeBound.Statement (.loadFirmware) := noWord rfl
theorem EncodeBound.firmwareInstallation (kind : Fin 8) : EncodeBound.Statement (.firmwareInstallation kind) := noWord rfl
theorem EncodeBound.enrolKey : EncodeBound.Statement (.enrolKey) := noWord rfl
theorem EncodeBound.disableSlot : EncodeBound.Statement (.disableSlot) := noWord rfl
theorem EncodeBound.raiseFloor : EncodeBound.Statement (.raiseFloor) := noWord rfl
theorem EncodeBound.attest : EncodeBound.Statement (.attest) := noWord rfl
theorem EncodeBound.debugChallenge : EncodeBound.Statement (.debugChallenge) := noWord rfl
theorem EncodeBound.debugUnlock : EncodeBound.Statement (.debugUnlock) := noWord rfl
theorem EncodeBound.debugLock : EncodeBound.Statement (.debugLock) := noWord rfl
theorem EncodeBound.writeFmask : EncodeBound.Statement (.writeFmask) := noWord rfl
theorem EncodeBound.reset : EncodeBound.Statement (.reset) := noWord rfl
theorem EncodeBound.bootTimeout : EncodeBound.Statement (.bootTimeout) := noWord rfl
theorem EncodeBound.bootRetry : EncodeBound.Statement (.bootRetry) := noWord rfl
theorem EncodeBound.thermalSample (d : Die) (t : Nat) : EncodeBound.Statement (.thermalSample d t) := noWord rfl
theorem EncodeBound.telemetrySnapshot : EncodeBound.Statement (.telemetrySnapshot) := noWord rfl
theorem EncodeBound.scrubPass (d : Die) (w : BitVec 40) : EncodeBound.Statement (.scrubPass d w) := noWord rfl
theorem EncodeBound.illegalSequencerWord (w : BitVec 32) : EncodeBound.Statement (.illegalSequencerWord w) := noWord rfl
theorem EncodeBound.applyCompletion (c : CtxId) : EncodeBound.Statement (.applyCompletion c) := noWord rfl
theorem EncodeBound.tbindCommit (c : CtxId) : EncodeBound.Statement (.tbindCommit c) := noWord rfl
theorem EncodeBound.portTrained (p : Port) (lanes : Fin 3) : EncodeBound.Statement (.portTrained p lanes) := noWord rfl

end Sys2Proof.Laws
end

