-- ==== Sys2Proof/Tests/Slice0.lean ====
section
/-! SUPPORT. Tests: decoding of words written out from the encoding tables, well-formedness, single steps on the worked figures
of the rules, and for each statement a witness of its hypotheses. -/

namespace Sys2Proof.Tests

set_option Elab.async false

open Sys2Proof Sys2Proof.Machine Sys2Proof.Claims

/-! ## States -/

/-- Context 0 runs on cluster 0 and its sequencer holds the turn; `f` changes the context. -/
def seqS (f : Ctx → Ctx) : State := { State.reset with cur := .seq 0, ctxs := [(0, f placedCtx)] }

/-- A context with some registers. -/
def withRegs (l : SMap Word) (x : Ctx) : Ctx := { x with seq := { x.seq with regs := l } }

/-- s1 = 64, s2 = 7, s3 = 2^64 - 1, s4 = 2, s5 = 0x40. -/
def s1 : State := seqS (withRegs [(1, 64), (2, 7), (3, 0xFFFFFFFFFFFFFFFF), (4, 2), (5, 0x40)])

/-- The same after the pass of the instruction is counted. -/
def s1' : State := (beginPass 0 s1).1

/-- The state after an instruction; the state before it where it has none. -/
def after (i : Instr) (s : State) : State :=
  match exec i s with
  | .next t => t
  | .fault _ | .refused _ => s

/-- A register after an instruction. -/
def reg (r : SReg) (i : Instr) (s : State) : Word := ((after i s).seq 0).rd r

/-! ## Decoding (R60 to R77) -/

theorem test_decode_seq_add : ∀ p ∈ ([
    (0x00914C00, .add 4 17 9 true false),
    (0x00B14C01, .sub 5 17 9 true false),
    (0x00D14C02, .mul 6 17 9 true false),
    (0x00F14C03, .mulh 7 17 9 true false),
    (0x01114C04, .mulhn 8 17 9 true false),
    (0x01314C05, .and 9 17 9 true false),
    (0x00714C06, .or 3 17 9 true false),
    (0x00914C07, .xor 4 17 9 true false),
    (0x00B14C08, .sll 5 17 9 true false),
    (0x00D14C09, .srl 6 17 9 true false),
    (0x00F14C0A, .sra 7 17 9 true false),
    (0x01114C0B, .slt 8 17 9 true false),
    (0x01314C0C, .sltn 9 17 9 true false),
    (0x00714C0D, .seq 3 17 9 true false),
    (0x00914C0E, .min 4 17 9 true false),
    (0x00B14C0F, .max 5 17 9 true false),
    (0x00D14C10, .minn 6 17 9 true false),
    (0x00F14C11, .maxn 7 17 9 true false),
    (0x80D14C00, .send 6 17 9 true false)] : List (Nat × Instr)),
    decodeSeq p.1 = .ok p.2 := by decide

theorem test_decode_seq_addi : ∀ p ∈ ([
    (0x0511C005, .addi 8 17 true 16389),
    (0x09314005, .andi 9 17 false 16389),
    (0x0C71C005, .ori 3 17 true 16389),
    (0x10914005, .xori 4 17 false 16389),
    (0x20714005, .slti 3 17 false 16389),
    (0x2491C005, .sltni 4 17 true 16389),
    (0x28B14005, .seqi 5 17 false 16389),
    (0x51114005, .jalr 8 17 false 16389),
    (0x9D114005, .ld 8 17 false 16389)] : List (Nat × Instr)),
    decodeSeq p.1 = .ok p.2 := by decide

theorem test_decode_seq_slli : ∀ p ∈ ([
    (0x14B18025, .slli 5 17 true 37),
    (0x14D10065, .srli 6 17 false 37),
    (0x14F180A5, .srai 7 17 true 37)] : List (Nat × Instr)),
    decodeSeq p.1 = .ok p.2 := by decide

theorem test_decode_seq_movz : ∀ p ∈ ([
    (0x19108005, .movz 8 2 32773),
    (0x1D308005, .movk 9 2 32773)] : List (Nat × Instr)),
    decodeSeq p.1 = .ok p.2 := by decide

theorem test_decode_seq_beqz : ∀ p ∈ ([
    (0x4011C005, .beqz 17 true 16389),
    (0x40314005, .bnez 17 false 16389),
    (0x4051C005, .bltz 17 true 16389),
    (0x40714005, .bgez 17 false 16389),
    (0x4091C005, .bgtz 17 true 16389),
    (0x40B14005, .blez 17 false 16389)] : List (Nat × Instr)),
    decodeSeq p.1 = .ok p.2 := by decide

theorem test_decode_seq_bbs : ∀ p ∈ ([
    (0x4671C005, .bbs 19 17 true 16389),
    (0x4A714005, .bbc 19 17 false 16389)] : List (Nat × Instr)),
    decodeSeq p.1 = .ok p.2 := by decide

theorem test_decode_seq_jal : ∀ p ∈ ([
    (0x4CF00005, .jal 7 1048581)] : List (Nat × Instr)),
    decodeSeq p.1 = .ok p.2 := by decide

theorem test_decode_seq_loop : ∀ p ∈ ([
    (0x62118007, .loop 2 17 true 7)] : List (Nat × Instr)),
    decodeSeq p.1 = .ok p.2 := by decide

theorem test_decode_seq_cfg : ∀ p ∈ ([
    (0x64110002, .cfg 17 false 2),
    (0x68110402, .run 17 true 2)] : List (Nat × Instr)),
    decodeSeq p.1 = .ok p.2 := by decide

theorem test_decode_seq_qwait : ∀ p ∈ ([
    (0x6C000000, .qwait),
    (0x94000000, .yield),
    (0xE4000000, .tret)] : List (Nat × Instr)),
    decodeSeq p.1 = .ok p.2 := by decide

theorem test_decode_seq_estat : ∀ p ∈ ([
    (0x84F10000, .estat 7 17 false),
    (0xA4710000, .ubind 3 17 false)] : List (Nat × Instr)),
    decodeSeq p.1 = .ok p.2 := by decide

theorem test_decode_seq_arrive : ∀ p ∈ ([
    (0x88000063, .arrive 99),
    (0x8C000063, .wait 99)] : List (Nat × Instr)),
    decodeSeq p.1 = .ok p.2 := by decide

theorem test_decode_seq_fence : ∀ p ∈ ([
    (0x90000015, .fence 21),
    (0x90000035, .fenceAcq 21),
    (0x90000055, .fenceRel 21)] : List (Nat × Instr)),
    decodeSeq p.1 = .ok p.2 := by decide

theorem test_decode_seq_wld : ∀ p ∈ ([
    (0x98F1D123, .wld 7 17 true 5 291)] : List (Nat × Instr)),
    decodeSeq p.1 = .ok p.2 := by decide

theorem test_decode_seq_st : ∀ p ∈ ([
    (0xA191A005, .st 12 17 true false 8197)] : List (Nat × Instr)),
    decodeSeq p.1 = .ok p.2 := by decide

theorem test_decode_seq_uflush : ∀ p ∈ ([
    (0xA8110400, .uflush 17 true),
    (0xAC110000, .unbind 17 false),
    (0xEC110400, .done 17 true)] : List (Nat × Instr)),
    decodeSeq p.1 = .ok p.2 := by decide

theorem test_decode_seq_tbind : ∀ p ∈ ([
    (0xB0114C00, .tbind 17 9 true false)] : List (Nat × Instr)),
    decodeSeq p.1 = .ok p.2 := by decide

theorem test_decode_seq_csrr : ∀ p ∈ ([
    (0xC0E00011, .csrr 7 17)] : List (Nat × Instr)),
    decodeSeq p.1 = .ok p.2 := by decide

theorem test_decode_seq_csrw : ∀ p ∈ ([
    (0xC411801A, .csrw 17 true 26),
    (0xC811001A, .csrs 17 false 26),
    (0xCC11801A, .csrc 17 true 26)] : List (Nat × Instr)),
    decodeSeq p.1 = .ok p.2 := by decide

theorem test_decode_seq_trap : ∀ p ∈ ([
    (0xE0004005, .trap 16389),
    (0xE8000105, .brk 261)] : List (Nat × Instr)),
    decodeSeq p.1 = .ok p.2 := by decide

theorem test_decode_node_nop : ∀ p ∈ ([
    (0x001EF780, .nop),
    (0x691EF780, .merge),
    (0x6A1EF780, .gate),
    (0x9B1EF780, .yieldNode)] : List (Nat × Instr)),
    decodeNode p.1 = .ok p.2 := by decide

theorem test_decode_node_add_integer : ∀ p ∈ ([
    (0x0141B788, .addInteger .i32 (.port 1) (.const 2) true),
    (0x0241B788, .subInteger .i32 (.port 1) (.const 2) true),
    (0x0341B788, .mulInteger .i32 (.port 1) (.const 2) true)] : List (Nat × Instr)),
    decodeNode p.1 = .ok p.2 := by decide

theorem test_decode_node_mulh_integer : ∀ p ∈ ([
    (0x0441B780, .mulhInteger .i32 (.port 1) (.const 2)),
    (0x0841B780, .minInteger .i32 (.port 1) (.const 2)),
    (0x0941B780, .maxInteger .i32 (.port 1) (.const 2)),
    (0x0A41B780, .andInteger .i32 (.port 1) (.const 2)),
    (0x0B41B780, .orInteger .i32 (.port 1) (.const 2)),
    (0x0C41B780, .xorInteger .i32 (.port 1) (.const 2)),
    (0x0E41B780, .andn .i32 (.port 1) (.const 2)),
    (0x0F41B780, .shl .i32 (.port 1) (.const 2)),
    (0x1041B780, .shr .i32 (.port 1) (.const 2)),
    (0x1141B780, .rotl .i32 (.port 1) (.const 2)),
    (0x1241B780, .rotr .i32 (.port 1) (.const 2)),
    (0x3441B780, .minFloat .f32 (.port 1) (.const 2)),
    (0x3541B780, .maxFloat .f32 (.port 1) (.const 2)),
    (0x5041B780, .bcast .i32 (.port 1) (.const 2)),
    (0x5141B780, .shuf .i32 (.port 1) (.const 2)),
    (0x8041B780, .atomIadd .i32 (.port 1) (.const 2)),
    (0x8141B780, .atomImin .i32 (.port 1) (.const 2)),
    (0x8241B780, .atomImax .i32 (.port 1) (.const 2)),
    (0x8341B780, .atomAnd .i32 (.port 1) (.const 2)),
    (0x8441B780, .atomOr .i32 (.port 1) (.const 2)),
    (0x8541B780, .atomXor .i32 (.port 1) (.const 2)),
    (0x8641B780, .atomXchg .i32 (.port 1) (.const 2)),
    (0x9041B780, .upd .i32 (.port 1) (.const 2))] : List (Nat × Instr)),
    decodeNode p.1 = .ok p.2 := by decide

theorem test_decode_node_mad : ∀ p ∈ ([
    (0x0541B348, .mad .i32 (.port 1) (.const 2) (.hold 9) true)] : List (Nat × Instr)),
    decodeNode p.1 = .ok p.2 := by decide

theorem test_decode_node_neg_integer : ∀ p ∈ ([
    (0x0641F788, .negInteger .i32 (.port 1) true),
    (0x0741F788, .absInteger .i32 (.port 1) true)] : List (Nat × Instr)),
    decodeNode p.1 = .ok p.2 := by decide

theorem test_decode_node_not_integer : ∀ p ∈ ([
    (0x0D41F780, .notInteger .i32 (.port 1)),
    (0x1341F780, .clz .i32 (.port 1)),
    (0x1441F780, .popc .i32 (.port 1)),
    (0x3641F780, .absFloat .f32 (.port 1)),
    (0x3741F780, .negFloat .f32 (.port 1))] : List (Nat × Instr)),
    decodeNode p.1 = .ok p.2 := by decide

theorem test_decode_node_sel : ∀ p ∈ ([
    (0x1541B340, .sel .i32 (.port 1) (.const 2) (.hold 9)),
    (0x8741B340, .atomCas .i32 (.port 1) (.const 2) (.hold 9))] : List (Nat × Instr)),
    decodeNode p.1 = .ok p.2 := by decide

theorem test_decode_node_cmp_integer : ∀ p ∈ ([
    (0x1641B783, .cmpInteger .i32 (.port 1) (.const 2) .le),
    (0x3841B783, .cmpFloat .f32 (.port 1) (.const 2) .le)] : List (Nat × Instr)),
    decodeNode p.1 = .ok p.2 := by decide

theorem test_decode_node_add_float : ∀ p ∈ ([
    (0x3041B78C, .addFloat .f32 (.port 1) (.const 2) .sr true),
    (0x3141B78C, .subFloat .f32 (.port 1) (.const 2) .sr true),
    (0x3241B78C, .mulFloat .f32 (.port 1) (.const 2) .sr true)] : List (Nat × Instr)),
    decodeNode p.1 = .ok p.2 := by decide

theorem test_decode_node_fma : ∀ p ∈ ([
    (0x3341B34C, .fma .f32 (.port 1) (.const 2) (.hold 9) .sr true),
    (0x4A41190C, .bmul .bx4 (.port 1) .x .bx6 .sr true),
    (0x4B41190C, .bdot .bx4 (.port 1) .x .bx6 .sr true)] : List (Nat × Instr)),
    decodeNode p.1 = .ok p.2 := by decide

theorem test_decode_node_rcp : ∀ p ∈ ([
    (0x3941F78C, .rcp .f32 (.port 1) .sr true),
    (0x3A41F78C, .rsqrt .f32 (.port 1) .sr true),
    (0x3B41F78C, .sqrt .f32 (.port 1) .sr true),
    (0x3C41F78C, .exp2 .f32 (.port 1) .sr true),
    (0x3D41F78C, .log2 .f32 (.port 1) .sr true)] : List (Nat × Instr)),
    decodeNode p.1 = .ok p.2 := by decide

theorem test_decode_node_cvt_integer_source : ∀ p ∈ ([
    (0x4041F28C, .cvtIntegerSource .i32 (.port 1) (.flt .f32) .sr true),
    (0x4141F14C, .cvtFloatSource .f32 (.port 1) (.int .n16) .sr true),
    (0x4841F24C, .quant .bx4 (.port 1) .b16 .sr true),
    (0x4941F24C, .dequant .bx4 (.port 1) .b16 .sr true),
    (0x5341F00C, .redFloat .f32 (.port 1) .add .sr true),
    (0x5541F00C, .scanFloat .f32 (.port 1) .add .sr true),
    (0x6F41F00C, .rdcFloat .f32 (.port 1) .add .sr true)] : List (Nat × Instr)),
    decodeNode p.1 = .ok p.2 := by decide

theorem test_decode_node_red_integer : ∀ p ∈ ([
    (0x5241F008, .redInteger .i32 (.port 1) .add true),
    (0x5441F008, .scanInteger .i32 (.port 1) .add true),
    (0x6E41F008, .rdcInteger .i32 (.port 1) .add true)] : List (Nat × Instr)),
    decodeNode p.1 = .ok p.2 := by decide

theorem test_decode_node_alloc : ∀ p ∈ ([
    (0x6001F780, .alloc (.port 1)),
    (0x6101F780, .free (.port 1)),
    (0x6301F780, .ctag (.port 1)),
    (0x6401F780, .tagrd (.port 1)),
    (0x6B01F780, .dup (.port 1)),
    (0x6C01F780, .call (.port 1)),
    (0x6D01F780, .ret (.port 1)),
    (0x8801F780, .lookup (.port 1)),
    (0x8A01F780, .evict (.port 1))] : List (Nat × Instr)),
    decodeNode p.1 = .ok p.2 := by decide

theorem test_decode_node_retag : ∀ p ∈ ([
    (0x6201B780, .retag (.port 1) (.const 2)),
    (0x6801B780, .steer (.port 1) (.const 2)),
    (0x8901B780, .insert (.port 1) (.const 2)),
    (0x9C01B780, .sendNode (.port 1) (.const 2))] : List (Nat × Instr)),
    decodeNode p.1 = .ok p.2 := by decide

theorem test_decode_node_lds : ∀ p ∈ ([
    (0x7041F781, .lds .i32 (.port 1) true),
    (0x7241F781, .ldg .i32 (.port 1) true)] : List (Nat × Instr)),
    decodeNode p.1 = .ok p.2 := by decide

theorem test_decode_node_sts : ∀ p ∈ ([
    (0x7141B781, .sts .i32 (.port 1) (.const 2) true),
    (0x7341B781, .stg .i32 (.port 1) (.const 2) true),
    (0x7441B781, .gather .i32 (.port 1) (.const 2) true),
    (0x7541B781, .scatter .i32 (.port 1) (.const 2) true)] : List (Nat × Instr)),
    decodeNode p.1 = .ok p.2 := by decide

theorem test_decode_node_ldacq : ∀ p ∈ ([
    (0x7641F441, .ldacq .i32 (.port 1) 17 true)] : List (Nat × Instr)),
    decodeNode p.1 = .ok p.2 := by decide

theorem test_decode_node_strel : ∀ p ∈ ([
    (0x7741B441, .strel .i32 (.port 1) (.const 2) 17 true)] : List (Nat × Instr)),
    decodeNode p.1 = .ok p.2 := by decide

theorem test_decode_node_arrive_node : ∀ p ∈ ([
    (0x981E2880, .arriveNode 69),
    (0x991E2880, .waitNode 69)] : List (Nat × Instr)),
    decodeNode p.1 = .ok p.2 := by decide

theorem test_decode_node_fence_node : ∀ p ∈ ([
    (0x9A1E8F82, .fenceNode 17 .rel)] : List (Nat × Instr)),
    decodeNode p.1 = .ok p.2 := by decide

theorem test_decode_node_trap_node : ∀ p ∈ ([
    (0x9D1EA940, .trapNode 677)] : List (Nat × Instr)),
    decodeNode p.1 = .ok p.2 := by decide

theorem test_decode_node_brk_node : ∀ p ∈ ([
    (0x9E1EA940, .brkNode 677)] : List (Nat × Instr)),
    decodeNode p.1 = .ok p.2 := by decide

/-! ## Well-formedness: one ill-formed term for each check -/

theorem test_wf_loop : Instr.wf (.loop 0 1 false 0) = false := by decide
theorem test_wf_csr : Instr.wf (.csrr 1 0x005) = false ∧ Instr.wf (.csrw 1 false 0x00F) = false ∧
    Instr.wf (.csrs 1 false 0x025) = false ∧ Instr.wf (.csrc 1 false 0x101) = false := by decide
theorem test_wf_cvt : Instr.wf (.cvtIntegerSource .i32 (.port 0) (.int .i8) .rz false) = false := by decide
theorem test_wf_block : Instr.wf (.dequant .bx8 (.hold 0) .f16 .rne false) = false ∧
    Instr.wf (.dequant .bx8 (.port 0) .f32 .rz false) = false ∧
    Instr.wf (.bmul .bx8 .lane (.port 0) .bx4 .rne false) = false ∧
    Instr.wf (.bdot .bx8 (.port 0) (.const 0) .bx4 .rne false) = false := by decide
theorem test_wf_float_reduction : Instr.wf (.redFloat .f32 (.port 0) .min .rz false) = false ∧
    Instr.wf (.scanFloat .f32 (.port 0) .max .rne true) = false ∧
    Instr.wf (.rdcFloat .f32 (.port 0) .min .sr false) = false := by decide
theorem test_wf_units : Instr.wf (.copyLin 0 4) = false ∧ Instr.wf (.copy2d 0 4) = false ∧
    Instr.wf (.copyRows 0 4) = false ∧ Instr.wf (.copySeg 0 4) = false ∧
    Instr.wf (.inboxAccept { cls := .copy, cluster := 0, unit := 4 }) = false ∧
    Instr.wf (.commitPoint { cls := .jig, cluster := 0, unit := 1 }) = false ∧
    Instr.wf (.followOnDelivery { cls := .copy, cluster := 0, unit := 15 }) = false := by decide
theorem test_wf_host : Instr.wf (.hostPostedWrite 0 (.memory 0 [])) = false ∧
    Instr.wf (.hostPostedWrite 0 (.physical 0 [])) = false ∧ Instr.wf (.hostPostedWrite 0 (.ingress 0 [])) = false ∧
    Instr.wf (.firmwareInstallation 3) = false := by decide

/-! ## Sequencer instructions -/

theorem wit_issue_two : Issues 0 [(1, true), (2, false)] 3 s1 s1' ∧ s1'.ctxWf = true ∧ NoBoundary (s1'.seq 0) ∧
    smWf 0 (s1'.seq 0).regs = true := ⟨⟨rfl, by decide, rfl⟩, by decide, by unfold NoBoundary; decide, by decide⟩
theorem wit_issue_one : Issues 0 [(1, true)] 0 s1 s1' ∧ Issues 0 [] 3 s1 s1' ∧ Issues 0 [(3, false)] 3 s1 s1' :=
  ⟨⟨rfl, by decide, rfl⟩, ⟨rfl, by decide, rfl⟩, ⟨rfl, by decide, rfl⟩⟩

/-- R97: the worked figures of mulh and mulhn. -/
theorem test_mulh : reg 6 (.mulh 6 3 4 false false) s1 = 0xFFFFFFFFFFFFFFFF ∧ reg 6 (.mulhn 6 3 4 false false) s1 = 1 := by
  decide
theorem test_add_wraps : reg 6 (.add 6 3 4 false false) s1 = 1 ∧ reg 6 (.sub 6 4 2 false false) s1 = 0xFFFFFFFFFFFFFFFB := by
  decide
theorem test_mul_wraps : reg 6 (.mul 6 3 2 false false) s1 = 0xFFFFFFFFFFFFFFF9 := by decide
theorem test_logic : reg 6 (.and 6 2 4 false false) s1 = 2 ∧ reg 6 (.or 6 2 1 false false) s1 = 71 ∧
    reg 6 (.xor 6 2 4 false false) s1 = 5 := by decide
/-- R97: a shift amount is s[b]<5:0>, so 64 shifts by 0. -/
theorem test_shift_amount : reg 6 (.sll 6 2 1 false false) s1 = 7 ∧ reg 6 (.srl 6 3 2 false false) s1 = 0x01FFFFFFFFFFFFFF ∧
    reg 6 (.sra 6 3 2 false false) s1 = 0xFFFFFFFFFFFFFFFF := by decide
theorem test_compare : reg 6 (.slt 6 3 4 false false) s1 = 1 ∧ reg 6 (.sltn 6 3 4 false false) s1 = 0 ∧
    reg 6 (.seq 6 1 5 false false) s1 = 1 := by decide
theorem test_min_max : reg 6 (.min 6 3 4 false false) s1 = 0xFFFFFFFFFFFFFFFF ∧ reg 6 (.max 6 3 4 false false) s1 = 2 ∧
    reg 6 (.minn 6 3 4 false false) s1 = 2 ∧ reg 6 (.maxn 6 3 4 false false) s1 = 0xFFFFFFFFFFFFFFFF := by decide
/-- R98: sltni of -1 gives 1 but for 2^64 - 1. -/
theorem test_sltni : reg 6 (.sltni 6 4 false 0x7FFF) s1 = 1 ∧ reg 6 (.sltni 6 3 false 0x7FFF) s1 = 0 := by decide
theorem test_immediates : reg 6 (.addi 6 4 false 0x7FFC) s1 = 0xFFFFFFFFFFFFFFFE ∧ reg 6 (.slti 6 3 false 0) s1 = 1 ∧
    reg 6 (.seqi 6 3 false 0x7FFF) s1 = 1 ∧ reg 6 (.andi 6 3 false 0x7FFF) s1 = 0x7FFF ∧
    reg 6 (.ori 6 2 false 0x4000) s1 = 0x4007 ∧ reg 6 (.xori 6 2 false 0x0002) s1 = 5 := by decide
/-- R98: srai by 63 of a negative register writes all ones. -/
theorem test_shift_immediates : reg 6 (.srai 6 3 false 63) s1 = 0xFFFFFFFFFFFFFFFF ∧ reg 6 (.slli 6 2 false 63) s1 = 0x8000000000000000 ∧
    reg 6 (.srli 6 3 false 63) s1 = 1 := by decide
/-- R99: movz 0x1234, 2 then movk 0xBEEF, 0. -/
theorem test_moves : reg 9 (.movz 9 2 0x1234) s1 = 0x123400000000 ∧
    reg 9 (.movk 9 0 0xBEEF) (seqS (withRegs [(9, 0x123400000000)])) = 0x12340000BEEF := by decide

theorem wit_empty : (seqS fun x => { x with seq := { x.seq with empty := 2 } }).cur = .seq 0 ∧
    ((seqS fun x => { x with seq := { x.seq with empty := 2 } }).seq 0).isEmpty 1 = true ∧
    ((seqS fun x => { x with seq := { x.seq with empty := 2 } }).seq 0).ready 1 = false ∧
    ((seqS fun x => { x with seq := { x.seq with empty := 2 } }).seq 0).ready 2 = true := by decide
/-- R95: SEQ.EMPTY reports the register and drains the context. -/
theorem test_empty : ((after (.add 3 1 2 true false) (seqS fun x => { x with seq := { x.seq with empty := 2 } })).seq 0).tval = 1 ∧
    ((after (.add 3 1 2 true false) (seqS fun x => { x with seq := { x.seq with empty := 2 } })).ctx 0).st = .draining := by
  decide
theorem wit_held_fault : ((seqS fun x => { x with seq := { x.seq with
    faults := [{ reg := 1, code := 0x0206, reason := 1, report := 5 }] } }).seq 0).ready 1 = true := by decide

/-- A sequencer in the last instruction of level 1, with a count of 2. -/
def s2 : State := seqS fun x => { x with seq := { x.seq with
  pc := 8, act := 2, lc := [(1, 2)], lb := [(1, 4)], le := [(1, 8)] } }
theorem wit_boundary : s2.ctxWf = true ∧ (s2.seq 0).act.getLsbD 1 = true ∧ smGet 0 (s2.seq 0).le 1 = (s2.seq 0).pc.toNat ∧
    ∀ w, w < 4 → w ≠ 1 → (s2.seq 0).act.getLsbD w = true → smGet 0 (s2.seq 0).le w ≠ (s2.seq 0).pc.toNat := by decide
theorem test_loop_wraps : ((retire 0 s2).seq 0).pc = 4 ∧ smGet 0 ((retire 0 s2).seq 0).lc 1 = 1 := by decide
theorem test_loop : ((after (.loop 1 4 false 5) s1).seq 0).pc = 4 ∧ smGet 0 ((after (.loop 1 4 false 5) s1).seq 0).le 1 = 20 ∧
    smGet 0 ((after (.loop 1 4 false 5) s1).seq 0).lc 1 = 2 ∧ ((after (.loop 1 0 false 5) s1).seq 0).pc = 24 := by decide
theorem test_branches : ((after (.bnez 2 false 0x7FFD) s2).seq 0).pc = 4 ∧
    ((after (.beqz 0 false 0x7FFF) s1).seq 0).pc = 0xFFFFFFFC ∧ ((after (.bltz 3 false 4) s1).seq 0).pc = 16 ∧
    ((after (.bgez 3 false 4) s1).seq 0).pc = 4 ∧ ((after (.bgtz 0 false 4) s1).seq 0).pc = 4 ∧
    ((after (.blez 0 false 4) s1).seq 0).pc = 16 := by decide
theorem test_bit_branches : ((after (.bbs 1 2 false 4) s1).seq 0).pc = 16 ∧ ((after (.bbc 1 2 false 4) s1).seq 0).pc = 4 := by
  decide
theorem test_jumps : ((after (.jal 31 3) s1).seq 0).pc = 12 ∧ reg 31 (.jal 31 3) s1 = 4 ∧
    ((after (.jalr 2 2 false 1) s1).seq 0).pc = 8 ∧ reg 2 (.jalr 2 2 false 1) s1 = 4 := by decide

theorem wit_traps : s1.ctxWf = true ∧ (s1.seq 0).h = false ∧ (s1.ctx 0).st = .running := by decide
theorem test_trap : ((after (.trap 0x7FFF) s1).seq 0).tval = 0xFFFFFFFFFFFFFFFF ∧ ((after (.trap 0x7FFF) s1).seq 0).epc = 4 ∧
    ((after (.trap 0x7FFF) s1).seq 0).cause = 0x0302 := by decide
theorem test_brk : ((after (.brk 5) s1).seq 0).cause = 0x0308 ∧ ((after (.brk 5) s1).ctx 0).cause = some .freeze := by decide
def s3 : State := seqS fun x => { x with seq := { x.seq with h := true, epc := 0x40 } }
theorem wit_tret : Issues 0 [] 0 s3 (beginPass 0 s3).1 ∧ ((beginPass 0 s3).1.seq 0).h = true := ⟨⟨rfl, by decide, rfl⟩, by decide⟩
theorem test_tret : ((after .tret s3).seq 0).pc = 0x40 ∧ ((after .tret s3).seq 0).h = false ∧
    ((after .tret s1).ctx 0).st = .retiring := by decide
theorem test_illegal_word : ((after (.illegalSequencerWord 0xFC000000) s1).seq 0).cause = 0x0401 := by decide
/-- A breakpoint register that watches pc 8 with one pass left. -/
def s4 : State := seqS fun x => { x with seq := { x.seq with pc := 8 }, sbp := [(2, 0x8000000100000008)] }
theorem wit_breakpoint : s4.cur = .seq 0 ∧ s4.ctxWf = true ∧ (s4.seq 0).counted = false ∧ (s4.seq 0).issue [] 0 = .go ∧
    (smGet 0 (s4.ctx 0).sbp 2).getLsbD 63 = true ∧ bits (smGet 0 (s4.ctx 0).sbp 2).toNat 29 2 * 4 = (s4.seq 0).pc.toNat ∧
    bits (smGet 0 (s4.ctx 0).sbp 2).toNat 47 32 ≤ 1 ∧ ∀ j, j < 2 → (smGet 0 (s4.ctx 0).sbp j).getLsbD 63 = false := by decide
theorem test_breakpoint : ((after (.trap 1) s4).seq 0).tval = 0x202 ∧ ((after (.trap 1) s4).seq 0).epc = 8 := by decide

/-! ### Fabric, CSRs and memory -/

theorem wit_cfg_align : ((s1'.seq 0).rd 2).toNat % 64 ≠ 0 ∧ ((s1'.seq 0).rd 1).toNat % 64 = 0 := by decide
theorem test_cfg_align : ((after (.cfg 2 false 0) s1).seq 0).cause = 0x0201 := by decide
theorem wit_run_no_load : (s1'.ctx 0).fab.loads = [] ∧ (s1'.planeOf (s1'.ctx 0) 0 1).2.2.1 ≠ 1 ∧
    (s1'.ctx 0).fab.period = none := by decide
theorem test_run_plane : ((after (.run 2 false 1) s1).seq 0).cause = 0x0305 ∧ ((after (.run 2 false 1) s1).seq 0).tval = 1 := by
  decide
/-- Plane 1 holds an image of its own. -/
def s5 : State := { s1 with planes := [(1, (0x1000, 5, 1, 1))] }
theorem wit_run : Issues 0 [(2, false)] 0 s5 (beginPass 0 s5).1 ∧
    ((beginPass 0 s5).1.planeOf ((beginPass 0 s5).1.ctx 0) 0 1).2.2.1 = 1 ∧ ((beginPass 0 s5).1.ctx 0).apply = none ∧
    (beginPass 0 s5).1.seqPending 0 AccOp.writes = false ∧ ((beginPass 0 s5).1.ctx 0).wraps = [] ∧
    ((beginPass 0 s5).1.seq 0).phase = .ready := ⟨⟨rfl, by decide, rfl⟩, by decide, by decide, by decide, by decide, by decide⟩
theorem test_run : ((after (.run 2 false 1) s5).fab 0).period = some { plane := 1, nx := 7, ny := 0, nz := 0 } := by decide
/-- A period is in progress. -/
def inPeriod (x : Ctx) : Ctx := { x with fab := { x.fab with period := some { plane := 0, nx := 1, ny := 1, nz := 1 } } }
theorem wit_in_period : Issues 0 [(1, false)] 0 (seqS inPeriod) (beginPass 0 (seqS inPeriod)).1 ∧
    ((beginPass 0 (seqS inPeriod)).1.ctx 0).fab.period ≠ none := ⟨⟨rfl, by decide, rfl⟩, by decide⟩
theorem wit_qwait : ((s1'.ctx 0).fab.period.isSome || s1'.hasCmd 0 true) = false ∧ (s1'.ctx 0).seq.faults = [] := by decide
theorem test_qwait : ((after .qwait s1).seq 0).pc = 4 ∧ ((after .qwait (seqS inPeriod)).seq 0).pc = 0 := by decide
def s6 : State := seqS fun x => { x with st := .draining, cause := some .priority }
theorem wit_yield : Issues 0 [] 0 s6 (beginPass 0 s6).1 ∧ (beginPass 0 s6).1.ctxWf = true ∧
    ((beginPass 0 s6).1.ctx 0).st = .draining ∧ NoBoundary ((beginPass 0 s6).1.seq 0) :=
  ⟨⟨rfl, by decide, rfl⟩, by decide, by decide, by unfold NoBoundary; decide⟩
theorem test_yield : ((after .yield s6).seq 0).phase = .stopped ∧ ((after .yield s6).seq 0).epc = 4 ∧
    ((after .yield s1).seq 0).pc = 4 := by decide
theorem wit_csr_ranges : (0x050 : BitVec 12) ≠ 0x001 ∧ (0x0C0 : BitVec 12) ≤ 0x100 ∧ (0x0BF : BitVec 12) < 0x0C0 ∧
    (0x03F : BitVec 12) < 0x040 ∧ (0x060 : BitVec 12) ≤ 0x060 ∧ (s1'.ctx 0).unmerged = 0 ∧ smWf [] s1'.hold = true := by decide
theorem test_csrs : reg 6 (.csrr 6 0x000) s1 = 0 ∧ ((after (.csrw 5 false 0x020) s1).seq 0).tvec = 0x40 ∧
    ((after (.csrs 5 false 0x020) s1).seq 0).tvec = 0x40 ∧ ((after (.csrc 5 false 0x020) s1).seq 0).tvec = 0 := by decide
theorem wit_ld_address : spCheck s1' (s1'.ctx 0) 64 8 8 = .ok 64 ∧ s1'.ctxWf = true := by decide
theorem wit_ld_checks : spCheck s1' (s1'.ctx 0) (2 ^ 30) 8 8 = .error { code := 0x0202, report := 2 ^ 30 } ∧
    spCheck s1' (s1'.ctx 0) 7 8 8 = .error { code := 0x0201, report := 7 } ∧
    spCheck s1' (s1'.ctx 0) (15 * 2 ^ 20) 8 8 = .error { code := 0x0203, report := 15 * 2 ^ 20 } ∧
    spCheck s1' (s1'.ctx 0) (15 * 2 ^ 20 - 8) 8 8 = .ok (15 * 2 ^ 20 - 8) := by decide
theorem test_ld : ((after (.ld 6 1 false 1) s1).fab 0).accesses.map (fun a => (a.addr, a.size)) = [(72, 8)] ∧
    ((after (.ld 6 1 false 1) s1).seq 0).ready 6 = false ∧ ((after (.ld 6 2 false 0) s1).seq 0).cause = 0x0201 := by decide
theorem test_st : ((after (.st 2 1 false false 0x3FFF) s1).fab 0).accesses.map (fun a => (a.addr, a.op)) = [(56, .store 7)] := by
  decide
/-- Window 3 is bound with 12 bytes at 0x1000, through a range register that maps everything. -/
def s7 : State := seqS fun x => { withRegs [(1, 8)] x with
  windows := [(3, some (0x10000, 12))], rngA := [(0, 0xFFFFFFFF00000000)], rngB := [(0, 0x700000000)] }
theorem wit_wld : Issues 0 [(1, false)] 6 s7 (beginPass 0 s7).1 ∧ (beginPass 0 s7).1.ctxWf = true ∧
    ((beginPass 0 s7).1.ctx 0).window 3 = .ok (0x10000, 12) ∧
    wldBad (beginPass 0 s7).1 ((beginPass 0 s7).1.ctx 0) (wldBytes 0x10000 12 8) = none ∧
    (∃ b, ((beginPass 0 s7).1.ctx 0).window 2 = .error b) :=
  ⟨⟨rfl, by decide, rfl⟩, by decide, by decide, by decide, ⟨_, rfl⟩⟩
theorem test_wld : ((after (.wld 6 1 false 3 0) s7).fab 0).accesses.length = 4 ∧ ((after (.wld 6 1 false 3 0) s7).ctx 0).flags = fOob ∧
    ((after (.wld 6 1 false 2 0) s7).seq 0).cause = 0x0501 := by decide
def s8 : State := seqS fun x => { x with seq := { x.seq with empty := 0x40, long := [{ reg := 6, src := .value 9 }] } }
theorem wit_long : s8.ctxWf = true ∧ (s8.seq 0).long[0]? = some { reg := 6, src := .value 9 } ∧ (s8.ctx 0).live = true ∧
    longReady s8 0 { reg := 6, src := .value 9 } = some 9 ∧ longReady s8 0 { reg := 6, src := .loads 3 [] } = some 0 := by decide
theorem test_long : reg 6 (.longLatencyWrite 0 0) s8 = 9 ∧ ((after (.longLatencyWrite 0 0) s8).seq 0).empty = 0 := by decide

/-- s8 and s9 hold the header of a copy.lin to unit 0 of cluster 0, its body at 64; s10 one of an unknown class. -/
def s9 : State := seqS (withRegs [(8, 0x4000000000), (9, 0x0100000000000000), (10, 0x00F0000000000000), (11, 0x0100000100000000)])
def s9' : State := (beginPass 0 s9).1
theorem wit_send : (s9.seq 0).phase = .ready ∧ Issues 0 [(8, true), (9, true)] 7 s9 s9' ∧
    (headerOf s9' (s9'.ctx 0) (sendRaw 7 0x4000000000 0x0100000000000000)).isSome = true ∧
    (sendRaw 7 0x4000000000 0x0100000000000000).testBit 96 = false ∧ s9'.seqPending 0 AccOp.writes = false ∧
    headerOf s9' (s9'.ctx 0) (sendRaw 7 0x4000000000 0x00F0000000000000) = none ∧
    (headerOf s9' (s9'.ctx 0) (sendRaw 7 0x4000000000 0x0100000100000000)).isSome = true ∧
    (sendRaw 7 0x4000000000 0x0100000100000000).testBit 96 = true :=
  ⟨by decide, ⟨rfl, by decide, rfl⟩, by decide, by decide, by decide, by decide, by decide, by decide⟩
theorem test_send : ((after (.send 7 8 9 true true) s9).seq 0).phase = .sendWait ∧
    ((after (.send 7 8 9 true true) s9).eng (engAt .copy 0 0)).waiting.length = 1 ∧
    ((after (.send 7 8 9 true true) s9).seq 0).isEmpty 7 = true ∧ ((after (.send 7 8 10 true true) s9).seq 0).cause = 0x0401 ∧
    ((after (.send 7 8 11 true true) s9).seq 0).cause = 0x0401 := by decide
theorem wit_send_wait : (after (.send 7 8 9 true true) s9).cur = .seq 0 ∧
    (after (.send 7 8 9 true true) s9).sendWaits 0 = true := by decide
/-- R109: an operand of 2^14 or more is OP.ILL; class 0, cluster 0, unit 0 is legal. -/
theorem wit_estat : Issues 0 [(1, false)] 6 s1 s1' ∧ EngClass.ofCode? (64 / 2 ^ 10 % 16) = some .copy ∧
    (s1'.ctx 0).inNominal 0 = true := ⟨⟨rfl, by decide, rfl⟩, by decide, by decide⟩
theorem test_estat : ((after (.estat 6 0 false) s1).seq 0).isEmpty 6 = true ∧ ((after (.estat 6 1 false) s1).seq 0).cause = 0x0401 ∧
    ((after (.estat 6 3 false) s1).seq 0).cause = 0x0401 := by decide

/-- The sequencer is the only participant of a system barrier 5 (R256, R379). -/
def s11 : State := seqS fun x => { x with fab := { x.fab with
  bars := [(barInst 5 Agent.seq.index, { parts := [Agent.seq.index], phase := 0, arrived := [] })] } }
theorem wit_barriers : (match arriveAt 0 5 .seq (beginPass 0 s11).1 with
      | .joins _ => true
      | .wait | .outside _ => false) = true ∧
    (match arriveAt 0 6 .seq (beginPass 0 s11).1 with
      | .outside d => (beginPass 0 s11).1.depsDone 0 d
      | .wait | .joins _ => false) = true ∧
    (match arriveAt 0 5 .seq (after (.arrive 5) s11) with
      | .wait => true
      | .joins _ | .outside _ => false) = true ∧
    released 0 .seq (waitTarget 0 5 .seq s11).1 (waitTarget 0 5 .seq s11).2 s11 = false := by decide
theorem test_arrive : ((after (.arrive 5) s11).fab 0).arrives.length = 1 ∧ ((after (.arrive 5) s11).seq 0).pc = 4 ∧
    ((after (.arrive 6) s11).fab 0).arrives = [] ∧ ((after (.arrive 6) s11).seq 0).pc = 4 := by decide
theorem test_wait : ((after (.wait 5) s11).seq 0).phase = .barWait (barInst 5 Agent.seq.index) 1 ∧
    ((after (.wait 5) s11).seq 0).pc = 0 := by decide
theorem wit_fence : (s1'.fab 0).accesses = [] ∧ (s1'.fab 0).pairs = [] ∧ s1'.posted = [] ∧ Issues 0 [] 0 s1 s1' :=
  ⟨by decide, by decide, by decide, ⟨rfl, by decide, rfl⟩⟩
/-- A store of the sequencer is pending. -/
def s12 : State := { after (.st 2 1 false false 0) s1 with cur := .seq 0 }
theorem test_fence : ((after (.fence 4) s12).seq 0).pc = 4 ∧ ((after (.fenceRel 4) s12).seq 0).pc = 4 ∧
    ((after (.fence 0) s12).seq 0).pc = 8 ∧
    ((after (.fenceAcq 0) s12).seq 0).pc = 8 ∧ ((after (.fence 0) s1).seq 0).pc = 4 := by decide

/-- A descriptor of one unit at 0x10000, sum of 32-bit elements, its spill area at 0x20000, stands at 64 (R117). -/
def s13 : State :=
  let s := seqS fun x => { withRegs [(1, 64), (2, 65), (4, 96)] x with
    rngA := [(0, 0xFFFFFFFF00000000)], rngB := [(0, 0x700000000)] }
  { s with sp := wrBytes s.sp 64 (0x10000 + 1 * 2 ^ 64 + 6 * 2 ^ 104 + 0x20000 * 2 ^ 128 + 1 * 2 ^ 192) 32 }
def s13' : State := (beginPass 0 s13).1
def v13 : Nat := 0x10000 + 1 * 2 ^ 64 + 6 * 2 ^ 104 + 0x20000 * 2 ^ 128 + 1 * 2 ^ 192
theorem wit_ubind : Issues 0 [(1, false)] 6 s13 s13' ∧ (s13'.ctx 0).fab.period = none ∧
    s13'.seqPending 0 AccOp.writes = false ∧ spCheck s13' (s13'.ctx 0) 64 32 1 = .ok 64 ∧
    (match seqSpRead 64 32 s13' with
      | .ok v u => decide (v = v13) && decide (u = s13')
      | .bad _ _ | .stall _ => false) = true ∧
    descReason s13' v13 (bindingOf (s13'.ctx 0) v13) = none ∧ boundReason (s13'.ctx 0) (bindingOf (s13'.ctx 0) v13) = none ∧
    extentBad (s13'.ctx 0) 0x10000 1 = none ∧ extentBad (s13'.ctx 0) 0x20000 1 = none ∧
    otherBound s13' 0 (s13'.ctx 0) 0x10000 1 = false ∧ otherBound s13' 0 (s13'.ctx 0) 0x20000 1 = false ∧
    (s13'.ctx 0).binding 0 = none :=
  ⟨⟨rfl, by decide, rfl⟩, by decide, by decide, by decide, by decide, by decide, by decide, by decide, by decide, by decide,
    by decide, by decide⟩
/-- R117: an all-zero descriptor has a size of 0, reason 3. -/
theorem wit_ubind_refused : descReason s13' 0 (bindingOf (s13'.ctx 0) 0) = some 3 ∧
    descReason s13' (v13 + 2 ^ 104) (bindingOf (s13'.ctx 0) (v13 + 2 ^ 107)) = some 5 ∧
    descReason s13' v13 { bindingOf (s13'.ctx 0) v13 with spillsize := 0 } = some 4 ∧
    descReason s13' v13 { bindingOf (s13'.ctx 0) v13 with spill := 0x10000 } = some 7 := by decide
theorem test_ubind : (((after (.ubind 6 1 false) s13).ctx 0).binding 0).isSome = true ∧ reg 6 (.ubind 6 1 false) s13 = 0 ∧
    ((after (.ubind 6 4 false) s13).seq 0).cause = 0x00030205 := by decide
/-- Handle 0 is bound. -/
def s14 : State := { after (.ubind 6 1 false) s13 with cur := .seq 0 }
def s14' : State := (beginPass 0 s14).1
theorem wit_uflush : (s14'.ctx 0).fab.period = none ∧ (s14'.ctx 0).apply = none ∧ (s14'.ctx 0).seq.phase = .ready ∧
    (s14'.ctx 0).binding 0 ≠ none ∧ (s14'.ctx 0).binding 64 = none := by decide
theorem test_uflush : ((after (.uflush 0 false) s14).ctx 0).apply.isSome = true ∧
    ((after (.unbind 1 false) s14).seq 0).cause = 0x00060205 ∧
    (((after (.unbind 0 false) s14).ctx 0).apply.map fun a => decide (a.why = .unbind)) = some true := by decide

/-- The tile number 3 stands at 64, 64 at 72, and a launch token of kind 0 at 128. -/
def s15 : State :=
  let s := seqS (withRegs [(1, 64), (2, 72), (4, 128)])
  { s with sp := wrBytes (wrBytes s.sp 64 3 8) 72 64 8 }
theorem wit_tbind : Issues 0 [(1, false), (0, false)] 0 s15 (beginPass 0 s15).1 ∧ ((beginPass 0 s15).1.ctx 0).seq.phase = .ready ∧
    spCheck (beginPass 0 s15).1 ((beginPass 0 s15).1.ctx 0) 64 8 8 = .ok 64 ∧
    (match seqSpRead 64 8 (beginPass 0 s15).1 with
      | .ok v _ => decide (v = 3)
      | .bad _ _ | .stall _ => false) = true :=
  ⟨⟨rfl, by decide, rfl⟩, by decide, by decide, by decide⟩
theorem test_tbind : ((after (.tbind 1 0 false false) s15).ctx 0).tbinds = [{ tile := 3, token := none }] ∧
    ((after (.tbind 2 0 false false) s15).seq 0).cause = 0x00070803 ∧
    ((after (.tbind 1 4 false false) s15).seq 0).cause = 0x00010803 := by decide

theorem wit_done : (s1.seq 0).phase = .ready ∧ Issues 0 [(1, false)] 0 s1 s1' ∧ s1'.ctxWf = true ∧
    (s1'.ctx 0).fab.period = none := ⟨by decide, ⟨rfl, by decide, rfl⟩, by decide, by decide⟩
/-- done has written its state and waits for what is left. -/
def s16 : State := { after (.done 1 false) s1 with cur := .seq 0 }
theorem wit_done_ends : (s16.seq 0).phase = .finishing 64 ∧ s16.hasCmd 0 true = false ∧ (s16.ctx 0).seq.faults = [] ∧
    (s16.ctx 0).apply = none ∧ (s16.ctx 0).boundHandles = [] ∧ (s16.posted.filter fun p => decide (p.ctx = 0)) = [] ∧
    ({ s14 with ctxs := [(0, { s14.ctx 0 with st := .retiring })] }.ctx 0).boundHandles = [0] := by decide
theorem test_done : ((after (.done 1 false) s1).ctx 0).st = .retiring ∧
    (((after (.done 1 false) s16).ctx 0).ending.map fun k => (k.kind, k.value)) = some (1, 64) ∧
    ((after (.done 1 false) (seqS inPeriod)).ctx 0).st = .running := by decide

/-! ## Node operations -/

/-- A node in slot 0 of PE 0 with three inputs, operation `i`, its link word in k6 and one route to port 0 of node 2. -/
def nodeWs (i : Instr) (tagsel link : Nat) : List Nat :=
  [0x30010500, (encode i).getD 0, tagsel * 2 ^ 30 + 7, link, 0x4080]

/-- A token for port `p` of that node. -/
def tok (t : Tag) (p : Nat) (l : List Lane) : Tok :=
  { tag := t, kind := .data, mask := 0xFFFF, payload := l, dest := placedFiring.ref, port := p, src := placedFiring.ref, pred := [] }

/-- A firing of that node with these lanes on its ports. -/
def fir (t : Tag) (mask : BitVec 16) (a b d : List Lane) : Firing :=
  { placedFiring with tag := t, mask := mask, ports := [some (tok t 0 a), some (tok t 1 b), some (tok t 2 d)] }

/-- Spaces: 0 a plain root, 1 plain inside it, 2 for calls, 3 deep. -/
def spaced (x : Ctx) : Ctx :=
  { x with
    spaces := [(0, { kind := .plain, parent := none, home := 0, n := 1 }), (1, { kind := .plain, parent := some 0, home := 0, n := 2 }),
      (2, { kind := .call, parent := none, home := 0, n := 1 }), (3, { kind := .deep, parent := none, home := 0, n := 1 })] }

/-- The firing holds the turn. -/
def fireS (i : Instr) (tagsel link : Nat) (g : Firing) (f : Ctx → Ctx) : State :=
  let x := f (spaced placedCtx)
  { State.reset with
    cur := .firing 0 g.id
    ctxs := [(0, { x with fab := { x.fab with firings := [g], nextId := 1 } })]
    nodes := [(0, nodeWs i tagsel link)] }

/-- The image of its node. -/
def img (s : State) : NodeImg := (s.nodeImg (s.ctx 0) placedFiring.ref).getD default

/-- A firing of lanes of ones and twos. -/
def g0 : Firing := fir 0 0xFFFF [1] [2] [3]

/-- Whether the firing may execute, and its operands are read. -/
def firesB (i : Instr) (tagsel link : Nat) (g : Firing) (f : Ctx → Ctx) : Bool :=
  let s := fireS i tagsel link g f
  decide (((s.fab 0).firings.find? fun h => h.id == g.id) = some g) && (s.nodeImg (s.ctx 0) g.ref).isSome &&
    decide (g.ref = placedFiring.ref) && decide (g.phase = .run) && !(s.fab 0).behind g && !winMore i g

theorem fires_of (i : Instr) (tagsel link : Nat) (g : Firing) (f : Ctx → Ctx) (h : firesB i tagsel link g f = true) :
    let s := fireS i tagsel link g f
    Fires 0 g (img s) s ∧ Computes i 0 g (img s) (mkEnv s 0 g (img s) (winLanes i g)) s := by
  simp only [firesB, Bool.and_eq_true, decide_eq_true_eq, Bool.not_eq_true'] at h
  obtain ⟨⟨⟨⟨⟨h1, h2⟩, h3⟩, h4⟩, h5⟩, h6⟩ := h
  have hm : (fireS i tagsel link g f).nodeImg ((fireS i tagsel link g f).ctx 0) g.ref = some (img (fireS i tagsel link g f)) := by
    rw [h3] at h2 ⊢
    obtain ⟨m, hm⟩ := Option.isSome_iff_exists.mp h2
    simp [img, hm]
  have hf : Fires 0 g (img (fireS i tagsel link g f)) (fireS i tagsel link g f) := ⟨rfl, h1, hm, h4, h5⟩
  exact ⟨hf, hf, h6, rfl⟩

/-- The lanes that leave on the route, the flags raised. -/
def outOf (i : Instr) (a b d : List Lane) : List Nat :=
  match (after i (fireS i 0 0 (fir 0 0xFFFF a b d) id)).fab 0 |>.chan with
  | k :: _ => (k.payload.take 2).map BitVec.toNat
  | [] => []
def flOf (i : Instr) (a b d : List Lane) : BitVec 8 := ((after i (fireS i 0 0 (fir 0 0xFFFF a b d) id)).ctx 0).flags

theorem wit_integer : ∀ i ∈ [Instr.addInteger .i32 (.port 0) (.port 1) true, .subInteger .n16 (.port 0) (.const 0) false,
    .mulInteger .i64 (.port 0) (.port 1) true, .mad .i8 (.port 0) (.port 1) (.port 2) true, .negInteger .i32 (.port 0) true,
    .absInteger .i32 (.port 0) false, .mulhInteger .i32 (.port 0) (.port 1), .minInteger .n64 (.hold 2) .lane,
    .maxInteger .i16 .zero .ord, .andInteger .i32 (.port 0) (.port 1), .orInteger .i32 (.port 0) (.port 1),
    .xorInteger .i32 (.port 0) (.port 1), .notInteger .i32 (.port 0), .andn .n8 (.port 0) .x, .shl .i32 (.port 0) (.port 1),
    .shr .i32 (.port 0) (.port 1), .rotl .n32 (.port 0) (.port 1), .rotr .n32 (.port 0) (.port 1), .clz .n64 (.port 0),
    .popc .i32 (.port 0), .nop, .cmpInteger .n16 (.port 0) (.hold 3) .ge, .sel .i32 (.port 0) (.port 1) (.port 2)],
    firesB i 0 0 g0 id = true := by decide
theorem test_integer_add : outOf (.addInteger .i32 (.port 0) (.port 1) true) [0x7FFFFFFF, 5] [1, 0xFFFFFFF6] [] = [0x7FFFFFFF, 0xFFFFFFFB] ∧
    flOf (.addInteger .i32 (.port 0) (.port 1) true) [0x7FFFFFFF] [1] [] = fSat ∧
    outOf (.addInteger .i32 (.port 0) (.port 1) false) [0x7FFFFFFF] [1] [] = [0x80000000, 0] := by decide
theorem test_integer_narrow : outOf (.subInteger .n16 (.port 0) (.const 0) false) [3] [] [] = [3, 0] ∧
    outOf (.subInteger .n16 (.port 0) (.port 1) false) [0] [1] [] = [0xFFFF, 0] ∧
    outOf (.negInteger .i8 (.port 0) true) [0x80, 1] [] [] = [0x7F, 0xFFFFFFFF] ∧
    outOf (.absInteger .i8 (.port 0) false) [0x80] [] [] = [0xFFFFFF80, 0] := by decide
theorem test_integer_wide : outOf (.mulInteger .i64 (.port 0) (.port 1) false) [0xFFFFFFFF, 0xFFFFFFFF] [2] [] = [0xFFFFFFFE, 0xFFFFFFFF] ∧
    outOf (.mad .i64 (.port 0) (.port 1) (.port 2) true) [0, 0x40000000] [2] [1] = [0xFFFFFFFF, 0x7FFFFFFF] ∧
    outOf (.mulhInteger .i32 (.port 0) (.port 1)) [0xFFFFFFFF] [2] [] = [0xFFFFFFFF, 0] := by decide
theorem test_integer_order : outOf (.minInteger .i32 (.port 0) (.port 1)) [0xFFFFFFFF, 3] [2, 1] [] = [0xFFFFFFFF, 1] ∧
    outOf (.maxInteger .n32 (.port 0) (.port 1)) [0xFFFFFFFF, 3] [2, 1] [] = [0xFFFFFFFF, 3] ∧
    outOf (.cmpInteger .i32 (.port 0) (.port 1) .lt) [0xFFFFFFFF, 3] [2, 1] [] = [1, 0] ∧
    outOf (.sel .i32 (.port 0) (.port 1) (.port 2)) [0, 3] [2, 1] [8, 9] = [8, 1] := by decide
theorem test_bit_operations : outOf (.andInteger .i32 (.port 0) (.port 1)) [6] [3] [] = [2, 0] ∧
    outOf (.orInteger .i32 (.port 0) (.port 1)) [6] [3] [] = [7, 0] ∧ outOf (.xorInteger .i32 (.port 0) (.port 1)) [6] [3] [] = [5, 0] ∧
    outOf (.notInteger .n8 (.port 0)) [6] [] [] = [0xF9, 0xFF] ∧ outOf (.andn .i32 (.port 0) (.port 1)) [6] [3] [] = [4, 0] ∧
    outOf (.clz .n16 (.port 0)) [1] [] [] = [15, 16] ∧ outOf (.popc .n8 (.port 0)) [0x1FF] [] [] = [8, 0] := by decide
/-- R131: a shift by the width or more gives 0, or the sign. -/
theorem test_shifts : outOf (.shl .i32 (.port 0) (.port 1)) [1, 1] [31, 32] [] = [0x80000000, 0] ∧
    outOf (.shr .i32 (.port 0) (.port 1)) [0x80000000, 0x80000000] [31, 99] [] = [0xFFFFFFFF, 0xFFFFFFFF] ∧
    outOf (.shr .n32 (.port 0) (.port 1)) [0x80000000, 0x80000000] [31, 32] [] = [1, 0] ∧
    outOf (.rotl .n8 (.port 0) (.port 1)) [0x81] [9] [] = [3, 0] ∧ outOf (.rotr .n8 (.port 0) (.port 1)) [0x81] [1] [] = [0xC0, 0] := by
  decide
theorem test_nop : outOf .nop [4, 5] [2] [3] = [4, 5] := by decide

theorem wit_float : ∀ i ∈ [Instr.addFloat .f32 (.port 0) (.port 1) .rne true, .subFloat .f16 (.port 0) (.port 1) .rz false,
    .mulFloat .b16 (.port 0) (.port 1) .ru false, .fma .f64 (.port 0) (.port 1) (.port 2) .rd false, .minFloat .f32 (.port 0) (.port 1),
    .maxFloat .f32 (.port 0) (.port 1), .absFloat .f32 (.port 0), .negFloat .f32 (.port 0), .cmpFloat .f32 (.port 0) (.port 1) .un,
    .rcp .f32 (.port 0) .sr false, .rsqrt .f32 (.port 0) .rne false, .sqrt .f32 (.port 0) .rne false, .exp2 .f32 (.port 0) .rne false,
    .log2 .f32 (.port 0) .rne true, .cvtIntegerSource .i32 (.port 0) (.flt .f32) .rne false,
    .cvtFloatSource .f32 (.port 0) (.int .i8) .rz true, .quant .bx8 (.port 0) .f32 .rne false,
    .dequant .bx4 (.port 0) .f32 .rne false, .bmul .bx8 (.port 0) (.port 1) .bx4 .rne false,
    .bdot .bx8 (.port 0) (.port 1) .bx8 .rne false, .redInteger .i32 (.port 0) .add false, .redFloat .f32 (.port 0) .add .rne false,
    .scanInteger .i32 (.port 0) .min false, .scanFloat .f32 (.port 0) .add .rne false, .shuf .i32 (.port 0) (.port 1),
    .bcast .n64 (.port 0) (.port 1)], firesB i 0 0 g0 id = true := by decide
theorem test_float_arithmetic : outOf (.addFloat .f32 (.port 0) (.port 1) .rne false) [0x3F800000] [0x40000000] [] = [0x40400000, 0] ∧
    outOf (.subFloat .f32 (.port 0) (.port 1) .rne false) [0x3F800000] [0x40000000] [] = [0xBF800000, 0] ∧
    outOf (.mulFloat .f32 (.port 0) (.port 1) .rne false) [0x40400000] [0x40400000] [] = [0x41100000, 0] ∧
    outOf (.fma .f32 (.port 0) (.port 1) (.port 2) .rne false) [0x40400000] [0x40400000] [0x3F800000] = [0x41200000, 0] := by decide
theorem test_float_functions : outOf (.rcp .f32 (.port 0) .rne false) [0x40000000, 0x3F800000] [] [] = [0x3F000000, 0x3F800000] ∧
    outOf (.sqrt .f32 (.port 0) .rne false) [0x40800000] [] [] = [0x40000000, 0] ∧
    outOf (.rsqrt .f32 (.port 0) .rne false) [0x40800000, 0x3F800000] [] [] = [0x3F000000, 0x3F800000] := by decide
theorem test_float_order : outOf (.minFloat .f32 (.port 0) (.port 1)) [0x3F800000] [0xBF800000] [] = [0xBF800000, 0] ∧
    outOf (.maxFloat .f32 (.port 0) (.port 1)) [0x3F800000] [0xBF800000] [] = [0x3F800000, 0] ∧
    outOf (.absFloat .f32 (.port 0)) [0xBF800000] [] [] = [0x3F800000, 0] ∧
    outOf (.negFloat .f32 (.port 0)) [0x3F800000] [] [] = [0xBF800000, 0x80000000] ∧
    outOf (.cmpFloat .f32 (.port 0) (.port 1) .un) [0x7FC00000, 0] [0, 0] [] = [1, 0] := by decide
theorem test_float_special : fAdd .f32 .rne false 0 (fInf .f32 false) (fInf .f32 true) = { val := fNaN .f32, fl := fInv } ∧
    fRcp .f32 .rne false 0 (fZero .f32 true) = { val := fInf .f32 true, fl := fDz } ∧ fInf .f32 true = 0xFF800000 ∧
    (fVal .f32 0x7F800001).isSnan = true ∧ (fVal .f16 0x7E00).isNan = true ∧ (fVal .f32 0x3F800000).isNan = false := by decide
theorem test_exp2_log2 : (fExp2 .f32 .rne false 0 0x40400000).val = 0x41000000 ∧ (fLog2 .f32 .rne false 0 0x41000000).val = 0x40400000 := by
  decide
theorem test_conversions : outOf (.cvtIntegerSource .i32 (.port 0) (.flt .f32) .rne false) [3, 0xFFFFFFFF] [] [] = [0x40400000, 0xBF800000] ∧
    outOf (.cvtFloatSource .f32 (.port 0) (.int .i8) .rz true) [0x43800000, 0xBF800000] [] [] = [0x7F, 0xFFFFFFFF] := by decide
theorem test_reductions : outOf (.redInteger .i32 (.port 0) .add false) [1, 2, 3] [] [] = [6, 0] ∧
    outOf (.scanInteger .i32 (.port 0) .add false) [1, 2, 3] [] [] = [1, 3] ∧
    outOf (.redFloat .f32 (.port 0) .add .rne false) [0x3F800000, 0x3F800000] [] [] = [0x40000000, 0] ∧
    outOf (.scanFloat .f32 (.port 0) .add .rne false) [0x3F800000, 0x3F800000] [] [] = [0x3F800000, 0x40000000] := by decide
theorem test_lane_moves : outOf (.shuf .i32 (.port 0) (.port 1)) [10, 20, 30] [2, 16] [] = [30, 10] ∧
    outOf (.bcast .i32 (.port 0) (.port 1)) [10, 20, 30] [2, 16] [] = [30, 30] := by decide
theorem wit_stage_end : (fireS .nop 0 0 g0 id).ctxWf = true ∧
    ((fireS .nop 0 0 g0 id).ctx 0).nodeBreak (img (fireS .nop 0 0 g0 id)) g0.tag g0.stage = none ∧
    (img (fireS .nop 0 0 g0 id)).ops.length ≤ g0.stage + 1 ∧ (∃ h ∈ ((fireS .nop 0 0 g0 id).fab 0).firings, h.id = g0.id) :=
  ⟨by decide, by decide, by decide, g0, List.mem_singleton.mpr rfl, rfl⟩
/-- A node of two stages. -/
def twoS : State :=
  let s := fireS .nop 0 0 g0 id
  { s with nodes := [(0, [0x30020000, (encode .nop).getD 0, (encode .nop).getD 0, 7])] }
theorem wit_stage_goes_on : g0.stage + 1 < (img twoS).ops.length ∧ twoS.ctxWf = true := by decide
theorem test_stage_goes_on : ((after .nop twoS).fab 0).firings.map (fun g => (g.stage, g.x.take 1)) = [(1, [1])] := by decide

/-! ### Tags and routes -/

/-- The tokens that an operation sends: tag, destination node, lane 0. -/
def sent (i : Instr) (tagsel link : Nat) (g : Firing) (f : Ctx → Ctx) : List (Nat × Nat × Nat) :=
  ((after i (fireS i tagsel link g f)).fab 0).chan.map fun k => (k.tag.toNat, k.dest.slot, (laneAt k.payload 0).toNat)
/-- The code of the trap that an operation raises. -/
def cause (i : Instr) (tagsel link : Nat) (g : Firing) (f : Ctx → Ctx) : Word :=
  ((after i (fireS i tagsel link g f)).seq 0).cause
/-- The phase in which an operation leaves its firing. -/
def phases (i : Instr) (tagsel link : Nat) (g : Firing) (f : Ctx → Ctx) : List Phase :=
  ((after i (fireS i tagsel link g f)).fab 0).firings.map (·.phase)

/-- Slot 0 of ring 0 of space 1 is live, its parent the root tag. -/
def inner (x : Ctx) : Ctx :=
  { x with
    slots := smSet Slot.zero x.slots (1 * 4096) { Slot.zero with live := true, opened := true, key := { space := 1, ring := 0, ordinal := 0 } }
    rings := smSet 0 x.rings (1 * 4096) 1 }
/-- A firing in the inner tag, with a control of 1, or of 0. -/
def gIn : Firing := fir 0x100000 0xFFFF [1] [2] [3]
def gOut : Firing := fir 0x100000 0xFFFF [0] [2] [3]
/-- A firing in the tag of a call, whose return continuation is port 1 of node 5. -/
def gCall : Firing := fir 0x200000 0xFFFF [9] [] []
def called (x : Ctx) : Ctx :=
  { x with slots := smSet Slot.zero x.slots (2 * 4096) { Slot.zero with live := true,
                                                                        ret := some (0, { placedFiring.ref with slot := 5 }, 1) } }
theorem wit_slot_keys : ((inner (spaced placedCtx)).tagSlot 0x100000).live = true ∧ ((called (spaced placedCtx)).tagSlot 0x200000).ret.isSome ∧
    (inner (spaced placedCtx)).isInner 1 = true ∧ (inner (spaced placedCtx)).isInner 0 = false ∧
    (inner (spaced placedCtx)).isRoot 0 = true ∧ ((inner (spaced placedCtx)).space 1).parent = some (tagSpace 0) ∧
    ((inner (spaced placedCtx)).space 3).kind = .deep := by decide

/-- Link words: space 1; space 2 and 3 with node 4, port 1. -/
def link1 : Nat := 0x01000000
def link2 : Nat := 0x02400010
def link3 : Nat := 0x03400010
theorem wit_flow : (∀ p ∈ [(Instr.alloc (.port 0), link1), (.call (.port 0), link2), (.call (.port 0), link3), (.free (.port 0), 0),
      (.retag (.port 0) (.port 1), 0), (.tagrd (.port 0), 0), (.steer (.port 0) (.port 1), 0), (.dup (.port 0), 0)],
      firesB p.1 0 p.2 g0 spaced = true) ∧
    (∀ p ∈ [(Instr.ctag (.port 0), 0), (.gate, link1), (.alloc (.port 0), link1), (.rdcInteger .i32 (.port 0) .add false, 0),
      (.rdcFloat .f32 (.port 0) .add .rne false, 0)], firesB p.1 0 p.2 gIn inner = true) ∧
    firesB .gate 0 link2 gOut inner = true ∧ firesB (.ret (.port 0)) 0 0 gCall called = true := by decide
theorem wit_grants : let x := (fireS .nop 0 link1 g0 id).ctx 0
    x.fab.allocs = [] ∧
    (grantReq (fireS .nop 0 link1 g0 id) x g0 (img (fireS .nop 0 link1 g0 id)) { firing := 0, space := 1, ring := 0, parent := 0, opened := true }).isSome = true ∧
    (grantReq (fireS .nop 0 link2 g0 id) x g0 (img (fireS .nop 0 link2 g0 id)) { firing := 0, space := 2, ring := 0, parent := 0, opened := false }).isSome = true ∧
    (x.grantDeep 3 (x.keyOf 0) (some (0, ((fireS .nop 0 link3 g0 id).callDest x (img (fireS .nop 0 link3 g0 id)) g0).1, 1))).isSome = true ∧
    (grantReq (fireS .nop 0 link1 g0 id) (inner x) g0 (img (fireS .nop 0 link1 g0 id)) { firing := 0, space := 0, ring := 0, parent := 0, opened := true }) = none := by
  decide
theorem test_alloc : sent (.alloc (.port 0)) 0 link1 g0 id = [(0, 2, 0x100000)] ∧ sent (.alloc (.port 0)) 1 link1 g0 id = [(0x100000, 2, 1)] ∧
    cause (.alloc (.port 0)) 0 link2 g0 id = 0x0105 := by decide
theorem test_call : sent (.call (.port 0)) 1 link2 g0 id = [(0x200000, 2, 1)] ∧ cause (.call (.port 0)) 1 link1 g0 id = 0x0105 ∧
    (((after (.call (.port 0)) (fireS (.call (.port 0)) 1 link2 g0 id)).ctx 0).tagSlot 0x200000).ret.map (fun r => (r.1, r.2.1.slot, r.2.2)) =
      some (0, 4, 1) := by decide
theorem test_free : phases (.free (.port 0)) 0 0 g0 id = [.waitFree] ∧ cause (.free (.port 0)) 0 0 gCall called = 0x0105 := by decide
def gFreed : Firing := { gIn with phase := .freed 0, x := [7] }
theorem wit_freed : Waits 0 gFreed (img (fireS (.free (.port 0)) 0 0 gFreed inner)) (.freed 0) (fireS (.free (.port 0)) 0 0 gFreed inner) ∧
    Waits 0 { gIn with phase := .granted 0x100100 } (img (fireS .gate 0 link2 { gIn with phase := .granted 0x100100 } inner))
      (.granted 0x100100) (fireS .gate 0 link2 { gIn with phase := .granted 0x100100 } inner) :=
  ⟨⟨rfl, by decide, rfl, rfl⟩, ⟨rfl, by decide, rfl, rfl⟩⟩
theorem test_freed : sent (.free (.port 0)) 0 0 gFreed inner = [(0, 2, 7)] ∧
    sent (.free (.port 0)) 0 0 { g0 with phase := .freed 0 } id = [] := by decide
theorem wit_retag : (spaced placedCtx).tagAdmitted 0 = true ∧ (spaced placedCtx).tagLive 0 = true ∧
    (spaced placedCtx).tagAdmitted 0x100000 = true ∧ (spaced placedCtx).tagLive 0x100000 = false ∧
    (spaced placedCtx).tagAdmitted 2 = true ∧ (spaced placedCtx).tagAdmitted 0x500000 = false ∧
    (mkEnv (fireS .nop 0 0 g0 id) 0 g0 (img (fireS .nop 0 0 g0 id)) []).mask = 0xFFFF ∧ g0.ports.getD 0 none = some (tok 0 0 [1]) := by
  decide
theorem test_retag : sent (.retag (.port 0) (.port 1)) 1 0 (fir 0 0xFFFF [5] [0] []) id = [(0, 2, 5)] ∧
    cause (.retag (.port 0) (.port 1)) 1 0 (fir 0 0xFFFF [5] [0x100000] []) id = 0x0102 ∧
    cause (.retag (.port 0) (.port 1)) 1 0 (fir 0 0xFFFF [5] [0x500000] []) id = 0x0105 ∧
    cause (.retag (.port 0) (.port 1)) 1 0 (fir 0 0 [5] [0] []) id = 0x0105 := by decide
theorem test_ctag_tagrd : sent (.ctag (.port 0)) 1 0 gIn inner = [(0, 2, 1)] ∧ cause (.ctag (.port 0)) 1 0 g0 id = 0x0105 ∧
    sent (.tagrd (.port 0)) 0 0 gIn inner = [(0x100000, 2, 0x100000)] := by decide
/-- R158: the whole of B goes to output 0 where A is not 0; this node has no output 1. -/
theorem test_steer : sent (.steer (.port 0) (.port 1)) 0 0 (fir 0 0xFFFF [1] [8] []) id = [(0, 2, 8)] ∧
    sent (.steer (.port 0) (.port 1)) 0 0 (fir 0 0xFFFF [0] [8] []) id = [] := by decide
theorem wit_merge : let g := { g0 with ports := [some (tok 0 0 [6])] }
    Fires 0 g (img (fireS .merge 0 0 g id)) (fireS .merge 0 0 g id) ∧ g.ports = [some (tok 0 0 [6])] :=
  ⟨⟨rfl, by decide, rfl, rfl, by decide⟩, rfl⟩
theorem test_merge_dup : sent .merge 0 0 { g0 with ports := [some (tok 0 0 [6])] } id = [(0, 2, 6)] ∧
    sent (.dup (.port 0)) 0 0 g0 id = [(0, 2, 1)] := by decide
theorem test_gate : sent .gate 0 link2 gIn inner = [(0x100100, 2, 2)] ∧ phases .gate 0 link2 gOut inner = [.waitFree] ∧
    cause .gate 0 link2 g0 id = 0x0105 := by decide
theorem test_gate_exits : sent .gate 0 link2 { gIn with phase := .granted 0x100100 } inner = [(0x100100, 2, 2)] ∧
    sent .gate 0 link2 { gIn with phase := .freed 0 } inner = [(0, 4, 2)] := by decide
theorem wit_ret : ((called (spaced placedCtx)).space (tagSpace gCall.tag)).kind = .call ∧
    ((fireS (.ret (.port 0)) 0 0 gCall called).ctx 0).nodeBreak (img (fireS (.ret (.port 0)) 0 0 gCall called)) gCall.tag 0 = none := by
  decide
theorem test_ret : sent (.ret (.port 0)) 0 0 gCall called = [(0, 5, 9)] ∧ phases (.ret (.port 0)) 0 0 gCall called = [.waitFree] ∧
    cause (.ret (.port 0)) 0 0 g0 id = 0x0105 := by decide
theorem wit_rdc : let s := fireS (.rdcInteger .i32 (.port 0) .add false) 0 0 gIn inner
    ((s.ctx 0).space (tagSpace gIn.tag)).kind = .plain ∧
    (rdcFind s (s.ctx 0) gIn).next = some ((s.ctx 0).tagSlot gIn.tag).key.ordinal ∧ s.ctxWf = true := by decide
/-- R164: the first iteration of a ring starts the accumulators and emits them. -/
theorem test_rdc : sent (.rdcInteger .i32 (.port 0) .add false) 0 0 gIn inner = [(0x100000, 2, 1)] ∧
    ((after (.rdcInteger .i32 (.port 0) .add false) (fireS (.rdcInteger .i32 (.port 0) .add false) 0 0 gIn inner)).fab 0).rdc.length = 1 ∧
    sent (.rdcFloat .f32 (.port 0) .max .rne false) 0 0 (fir 0x100000 0xFFFF [0x3F800000] [] []) inner = [(0x100000, 2, 0x3F800000)] := by decide

/-! ### Memory, engines and synchronisation of nodes -/

/-- A firing of lane 0 alone, with an address on port 0 and a value on port 1. -/
def gA (a : Lane) : Firing := fir 0 1 [a] [7] [1]
/-- Range register 0 maps every unit to itself, read and written. -/
def mapped (x : Ctx) : Ctx := { x with rngA := [(0, 0xFFFFFFFF00000000)], rngB := [(0, 0x700000000)] }
def envA (i : Instr) (a : Lane) : OpEnv := mkEnv (fireS i 0 0 (gA a) mapped) 0 (gA a) (img (fireS i 0 0 (gA a) mapped)) []
def memS (i : Instr) (a : Lane) : State := fireS i 0 0 (gA a) mapped

theorem act_one (k : Nat) (h : actives .i32 1 k) : k = 0 := by
  obtain ⟨h1, h2⟩ : k < 16 ∧ (1 : BitVec 16).getLsbD k = true := h
  interval_cases k <;> first | rfl | exact absurd h2 (by decide)

theorem wit_node_memory : ∀ i ∈ [Instr.lds .i32 (.port 0) false, .ldg .i32 (.port 0) false, .gather .i32 (.port 0) (.port 1) false,
    .ldacq .i32 (.port 0) 3 false, .atomIadd .i32 (.port 0) (.port 1), .atomImin .i32 (.port 0) (.port 1),
    .atomImax .i32 (.port 0) (.port 1), .atomAnd .i32 (.port 0) (.port 1), .atomOr .i32 (.port 0) (.port 1),
    .atomXor .i32 (.port 0) (.port 1), .atomXchg .i32 (.port 0) (.port 1), .atomCas .i32 (.port 0) (.port 1) (.port 2),
    .sts .i32 (.port 0) (.port 1) false, .scatter .i32 (.port 0) (.port 1) false, .stg .i32 (.port 0) (.port 1) false,
    .strel .i32 (.port 0) (.port 1) 3 false, .lookup (.port 0), .insert (.port 0) (.port 1), .evict (.port 0),
    .upd .i32 (.port 0) (.port 1), .sendNode (.port 0) (.port 1)], firesB i 0 0 (gA 64) mapped = true := by decide
theorem wit_sp_legal : SpLegal (memS .nop 64) ((memS .nop 64).ctx 0) .i32 1 true (runAt .i32 1 (addrAt (envA .nop 64) .i32 (.port 0))) ∧
    SpLegal (memS .nop 64) ((memS .nop 64).ctx 0) .i32 1 false (addrAt (envA .nop 64) .i32 (.port 0)) ∧ actives .i32 1 0 ∧
    (memS .nop 64).ctxWf = true := by
  refine ⟨?_, ?_, ⟨by decide, by decide⟩, by decide⟩
  · intro k hk
    obtain rfl := act_one k hk
    refine ⟨by decide, by decide, by decide, fun _ j hj => ?_⟩
    obtain rfl := act_one j hj
    decide
  · intro k hk
    obtain rfl := act_one k hk
    exact ⟨by decide, by decide, by decide, fun h => absurd h (by decide)⟩
theorem wit_glob_legal : GlobLegal (memS .nop 64) ((memS .nop 64).ctx 0) .i32 1 true (runAt .i32 1 (addr64 (envA .nop 64) .i32 (.port 0))) ∧
    GlobLegal (memS .nop 64) ((memS .nop 64).ctx 0) .i32 1 false (runAt .i32 1 (addr64 (envA .nop 64) .i32 (.port 0))) := by
  constructor <;> (intro k hk; obtain rfl := act_one k hk; exact ⟨by decide, 64, by decide⟩)
/-- The accesses that an operation issues: address, size, lane. -/
def issued (i : Instr) (a : Lane) : List (Nat × Nat × Nat) := ((after i (memS i a)).fab 0).accesses.map fun k => (k.addr, k.size, k.lane)
theorem test_loads_stores : issued (.lds .i32 (.port 0) false) 64 = [(64, 4, 0)] ∧ issued (.ldg .n16 (.port 0) false) 64 = [(64, 2, 0)] ∧
    issued (.sts .i8 (.port 0) (.port 1) false) 65 = [(65, 1, 0)] ∧ issued (.stg .i32 (.port 0) (.port 1) false) 64 = [(64, 4, 0)] ∧
    ((after (.sts .i32 (.port 0) (.port 1) false) (memS (.sts .i32 (.port 0) (.port 1) false) 64)).fab 0).accesses.map (·.op) = [.store 7] := by
  decide
theorem test_gather_scatter : issued (.gather .i32 (.port 1) (.port 0) false) 64 = [(92, 4, 0)] ∧
    issued (.scatter .i32 (.port 0) (.port 1) false) 64 = [(64, 4, 0)] ∧ issued (.ldacq .i32 (.port 0) 3 false) 64 = [(64, 4, 0)] ∧
    issued (.strel .i32 (.port 0) (.port 1) 3 false) 64 = [(64, 4, 0)] ∧ issued (.atomCas .i32 (.port 0) (.port 1) (.port 2)) 64 = [(64, 4, 0)] := by
  decide
/-- R166: MEM.ALIGN, MEM.RANGE and MEM.PERM on scratchpad elements, at the bounds of each. -/
theorem test_access_checks : ((after (.lds .i32 (.port 0) false) (memS (.lds .i32 (.port 0) false) 66)).seq 0).cause = 0x0201 ∧
    ((after (.lds .i32 (.port 0) false) (memS (.lds .i32 (.port 0) false) 0x40000000)).seq 0).cause = 0x0202 ∧
    ((after (.lds .i32 (.port 0) false) (memS (.lds .i32 (.port 0) false) 0x00FFFFFC)).seq 0).cause = 0x0203 ∧
    issued (.lds .i32 (.port 0) false) 0x00EFFFFC = [(0x00EFFFFC, 4, 0)] ∧
    ((after (.atomIadd .i32 (.port 0) (.port 1)) (memS (.atomIadd .i32 (.port 0) (.port 1)) 66)).seq 0).cause = 0x0201 ∧
    ((after (.ldg .i32 (.port 0) false) (memS (.ldg .i32 (.port 0) false) 66)).seq 0).cause = 0x0201 := by decide
theorem wit_access_checks : actives .i32 1 0 ∧ addrAt (envA .nop 66) .i32 (.port 0) 0 % 4 ≠ 0 ∧
    2 ^ 30 ≤ addrAt (envA .nop 0x40000000) .i32 (.port 0) 0 ∧
    2 ^ 24 < ((memS .nop 0x00FFFFFC).ctx 0).spAddr 0x00FFFFFC % 2 ^ 24 + 4 + (memS .nop 0x00FFFFFC).carveOf 0 ∧
    (¬ ∃ e, actives .i32 0 e) ∧
    (∃ q, globCheck (fireS .nop 0 0 g0 id) ((fireS .nop 0 0 g0 id).ctx 0) true false 64 = .error q) := by
  refine ⟨⟨by decide, by decide⟩, by decide, by decide, by decide, ?_, ⟨_, rfl⟩⟩
  rintro ⟨e, _, h⟩
  simp at h
/-- R166: a run that leaves its SP unit is MEM.RANGE. -/
theorem test_run_crosses : ((after (.lds .i32 (.port 0) false) (fireS (.lds .i32 (.port 0) false) 0 0 (fir 0 3 [0x3FFFC] [] []) id)).seq 0).cause =
    0x0202 := by decide

/-- A load of lane 0 is pending, not accepted. -/
def loadS : State := after (.lds .i32 (.port 0) false) (memS (.lds .i32 (.port 0) false) 64)
/-- A store is pending, not accepted. -/
def storeS : State := after (.sts .i32 (.port 0) (.port 1) false) (memS (.sts .i32 (.port 0) (.port 1) false) 64)
theorem wit_accept : loadS.ctxWf = true ∧ (loadS.ctx 0).live = true ∧ ((loadS.fab 0).accesses[0]?.map (·.accepted)) = some false ∧
    loadS.mayAccept 0 0 ((loadS.fab 0).accesses.headD default) = true ∧
    storeS.mayAccept 0 0 ((storeS.fab 0).accesses.headD default) = true ∧
    ((storeS.fab 0).firings.map (·.phase)) = [.waitAccept] := by decide
theorem test_accept : ((after (.memoryAccessAccept 0 0) loadS).fab 0).accesses.map (·.accepted) = [true] ∧
    ((after (.memoryAccessAccept 0 0) storeS).fab 0).chan.map (fun k => (k.kind, k.pred.length)) = [(.order, 1)] ∧
    ((after (.memoryAccessAccept 0 0) storeS).fab 0).firings = [] := by decide
/-- The load has its value. -/
def loadedS : State := { loadS with
  ctxs := [(0, { loadS.ctx 0 with fab := { loadS.fab 0 with accesses := [], firings := (loadS.fab 0).firings.map fun g => { g with got := [(0, 0x8000)] } } })] }
theorem wit_load_result : (loadedS.ctx 0).live = true ∧ ((loadedS.fab 0).firings.map (·.phase)) = [.waitMem] ∧
    (loadedS.fab 0).accesses = [] := by decide
theorem test_load_result : ((after (.loadResult 0 0) loadedS).fab 0).chan.map (fun k => laneAt k.payload 0) = [0x8000] ∧
    ((after (.loadResult 0 0) loadS).fab 0).chan = [] := by decide

/-- An accepted load and an accepted store. -/
def loadA : State := { after (.memoryAccessAccept 0 0) loadS with sp := wrBytes [] 64 0x12345678 4 }
def storeA : State := after (.memoryAccessAccept 0 0) storeS
theorem wit_perform : (loadA.ctx 0).performs = true ∧ ((loadA.fab 0).accesses[0]?.map (·.accepted)) = some true ∧
    loadA.depsDone 0 ((loadA.fab 0).accesses.headD default).deps = true ∧
    accHeld loadA 0 0 ((loadA.fab 0).accesses.headD default) = false ∧ ((loadA.fab 0).accesses.headD default).glob = false ∧
    loadA.spErr = [] ∧ loadA.memWf = true ∧ loadA.ctxWf = true ∧ loadA.hbmErr = [] ∧ loadA.bound = [] := by decide
theorem test_perform : ((after (.accessPerform 0 0) loadA).fab 0).firings.map (·.got) = [[(0, 0x12345678)]] ∧
    ((after (.accessPerform 0 0) loadA).fab 0).accesses = [] ∧ rdBytes (after (.accessPerform 0 0) storeA).sp 64 4 = 7 ∧
    (after (.accessPerform 0 0) storeA).sp.length = 1 := by decide
/-- R170: the worked figures of the atomics. -/
theorem test_atomics : atomNew .iadd .i32 0xFFFFFFFF 2 0 = 1 ∧ atomNew .imin .i32 0xFFFFFFFF 2 0 = 0xFFFFFFFF ∧
    atomNew .imin .n32 0xFFFFFFFF 2 0 = 2 ∧ atomNew .imax .i32 0xFFFFFFFF 2 0 = 2 ∧ atomNew .cas .i32 5 9 5 = 9 ∧
    atomNew .cas .i32 5 9 6 = 5 ∧ atomNew .xchg .i32 5 9 0 = 9 := by decide
/-- A global load, and a global store, that are accepted and have a translation; without one the load misses. -/
def gloadA (a : Lane) (i : Instr) : State :=
  let s := after (.memoryAccessAccept 0 0) (after i (memS i a))
  { s with tlb := [(0, [{ level := 2, ia := 0, pa := 0x50000, w := true }])], hbm := wrBytes [] 0x50040 0xAB 1 }
theorem wit_perform_global : let s := gloadA 64 (.ldg .i32 (.port 0) false)
    ((s.fab 0).accesses.headD default).glob = true ∧ (s.ctx 0).toIa true false 64 = .ok 64 ∧ s.tlbLook 64 false = some 0x50040 ∧
    s.tlbLook 64 true = some 0x50040 ∧ s.regionOf 64 = none ∧ inWindow 64 = false ∧ inWindow (0x40 * 2 ^ 40) = true ∧
    (memS .nop 64).tlbLook 64 true = none ∧ (∃ b, (placedCtx).toIa true false 64 = .error b) :=
  ⟨by decide, by decide, by decide, by decide, by decide, by decide, by decide, by decide, ⟨_, rfl⟩⟩
theorem test_perform_global : ((after (.accessPerform 0 0) (gloadA 64 (.ldg .i32 (.port 0) false))).fab 0).firings.map (·.got) = [[(0, 0xAB)]] ∧
    rdBytes (after (.accessPerform 0 0) (gloadA 64 (.stg .i32 (.port 0) (.port 1) false))).hbm 0x50040 4 = 7 ∧
    (after (.accessPerform 0 0) { gloadA 64 (.ldg .i32 (.port 0) false) with tlb := [] }).misses.length = 1 := by decide

theorem wit_tag_table : (memS .nop 64).tagErr = [] ∧ ((memS .nop 64).fab 0).holds = [] ∧ smWf 0 (memS .nop 64).tagtab = true ∧
    (smGet 0 ([] : SMap (BitVec 63)) 0).getLsbD 62 = false ∧
    (smGet 0 (tagInsert 0 5 9 []).2 0).toNat / 2 ^ 30 = 2 ^ 32 + 5 := by decide
theorem test_tag_table : (tagInsert 0 5 9 []).1 = 0x80000000 ∧ (tagLookup 0 5 (tagInsert 0 5 9 []).2).1 = 0x80000009 ∧
    (tagInsert 0 5 8 (tagInsert 0 5 9 []).2).1 = 0xC0000009 ∧ (tagEvict 0 5 (tagInsert 0 5 9 []).2).1 = 0x80000009 ∧
    (tagLookup 0 6 (tagInsert 0 5 9 []).2).1 = 0 := by decide
theorem test_tag_table_operations : (after (.insert (.port 0) (.port 1)) (memS (.insert (.port 0) (.port 1)) 5)).tagtab.length = 1 ∧
    ((after (.insert (.port 0) (.port 1)) (memS (.insert (.port 0) (.port 1)) 5)).fab 0).chan.map (fun k => laneAt k.payload 0) = [0x80000000] ∧
    ((after (.lookup (.port 0)) (memS (.lookup (.port 0)) 5)).fab 0).chan.map (fun k => laneAt k.payload 0) = [0] := by decide

/-- Handle 0 binds one unit of 4-byte elements. -/
def binds (x : Ctx) : Ctx := { mapped x with
  bindings := [(0, some { base := 0x10000, size := 1, op := 0, type := 6, spill := 0x20000, spillsize := 1,
                          rng := [(0xFFFFFFFF00000000, 0x700000000)], period := 1 })] }
def updS (a : Lane) (w : WTy) (f : Ctx → Ctx) : State := fireS (.upd w (.port 0) (.port 1)) 0 0 (gA a) f
theorem wit_upd : ((updS 5 .i32 binds).ctx 0).binding 0 ≠ none ∧ (((updS 5 .i32 binds).ctx 0).binding 0).map (·.width) = some 4 ∧
    (updS 5 .i32 binds).ctxWf = true ∧ addrAt (envA .nop 5) .i32 (.port 0) 0 = 5 ∧ ((updS 5 .i32 mapped).ctx 0).binding 0 = none := by decide
/-- R172: at the last element of the region, one beyond it, of another width, and of no binding. -/
theorem test_upd : ((after (.upd .i32 (.port 0) (.port 1)) (updS 0x3FFF .i32 binds)).fab 0).pairs.map (fun p => (p.offset, p.value)) = [(0xFFFC, 7)] ∧
    ((after (.upd .i32 (.port 0) (.port 1)) (updS 0x4000 .i32 binds)).seq 0).cause = 0x0202 ∧
    ((after (.upd .i64 (.port 0) (.port 1)) (updS 5 .i64 binds)).seq 0).cause = 0x00090205 ∧
    ((after (.upd .i32 (.port 0) (.port 1)) (updS 5 .i32 mapped)).seq 0).cause = 0x00080205 := by decide
theorem wit_upd_waits : Waits 0 { gA 5 with phase := .waitPairs } (img (fireS (.upd .i32 (.port 0) (.port 1)) 0 0 { gA 5 with phase := .waitPairs } binds))
    .waitPairs (fireS (.upd .i32 (.port 0) (.port 1)) 0 0 { gA 5 with phase := .waitPairs } binds) := ⟨rfl, by decide, rfl, rfl⟩

/-- PE 0 is the only participant of barrier 5. -/
def barred (x : Ctx) : Ctx := { x with fab := { x.fab with
  bars := [(barInst 5 (Agent.pe 0 0).index, { parts := [(Agent.pe 0 0).index], phase := 0, arrived := [] })] } }
theorem wit_node_barriers : let s := fireS (.arriveNode 5) 0 0 g0 barred
    Fires 0 g0 (img s) s ∧ s.ctxWf = true ∧
    ((s.fab 0).bar (barInst 5 g0.agent.index)).parts.contains g0.agent.index = true ∧
    (s.fab 0).joinedOf g0.agent.index (barInst 5 g0.agent.index) = 0 ∧ smWf 0 (s.fab 0).joined = true ∧
    ((s.fab 0).bar (barInst 6 g0.agent.index)).parts.contains g0.agent.index = false ∧
    (s.fab 0).seenOf (agentCl g0.agent.index) (barInst 5 g0.agent.index) = 0 :=
  ⟨⟨rfl, by decide, rfl, rfl, by decide⟩, by decide, by decide, by decide, by decide, by decide, by decide⟩
theorem test_node_barriers : ((after (.arriveNode 5) (fireS (.arriveNode 5) 0 0 g0 barred)).fab 0).arrives.length = 1 ∧
    sent (.arriveNode 6) 0 0 g0 barred = [(0, 2, 0)] ∧
    phases (.waitNode 5) 0 0 g0 barred = [.waitPhase (barInst 5 g0.agent.index) 1] ∧ sent .yieldNode 0 0 g0 id = [(0, 2, 0)] ∧
    sent (.fenceNode 4 .full) 0 0 g0 id = [(0, 2, 0)] := by decide
/-- A header: copy.lin, unit 0 of cluster 0, body at 64, reply kind 1. -/
def gSend : Firing := fir 0 0xFFFF [0, 0x40] [0, 0x01000001] []
theorem wit_node_send : firesB (.sendNode (.port 0) (.port 1)) 0 0 gSend id = true ∧
    (headerOf (fireS .nop 0 0 gSend id) ((fireS .nop 0 0 gSend id).ctx 0) (0x4000000000 + 0x0100000100000000 * 2 ^ 64)).isSome = true ∧
    (0x4000000000 + 0x0100000100000000 * 2 ^ 64).testBit 96 = true ∧
    Waits 0 { gSend with phase := .waitInbox } (img (fireS (.sendNode (.port 0) (.port 1)) 0 0 { gSend with phase := .waitInbox } id)) .waitInbox
      (fireS (.sendNode (.port 0) (.port 1)) 0 0 { gSend with phase := .waitInbox } id) :=
  ⟨by decide, by decide, by decide, ⟨rfl, by decide, rfl, rfl⟩⟩
theorem test_node_send : phases (.sendNode (.port 0) (.port 1)) 0 0 gSend id = [.waitInbox] ∧
    ((after (.sendNode (.port 0) (.port 1)) (fireS (.sendNode (.port 0) (.port 1)) 0 0 gSend id)).eng (engAt .copy 0 0)).waiting.length = 1 ∧
    cause (.sendNode (.port 0) (.port 1)) 0 0 g0 id = 0x0401 := by decide
theorem test_node_trap_brk : cause (.trapNode 0x3F) 0 0 g0 id = 0x00030403 ∧ cause (.brkNode 9) 0 0 g0 id = 0x00090404 ∧
    ((after (.trapNode 0x3F) (fireS (.trapNode 0x3F) 0 0 g0 id)).ctx 0).st = .draining ∧
    ((after (.brkNode 9) (fireS (.brkNode 9) 0 0 g0 id)).fab 0).firings.length = 1 := by decide

/-! ## Events of the fabric, of translation and of the sorters -/

/-- Context 0 runs, with node words and a fabric. -/
def fabS (ws : List Nat) (f : Fabric → Fabric) : State :=
  { State.reset with ctxs := [(0, { spaced placedCtx with fab := f Fabric.reset })], nodes := [(0, ws)], planes := [(0, (0x1000, 5, 0, 1))] }
/-- A strict node of two inputs, and a merge. -/
def twoWs : List Nat := [0x20010000, (encode .nop).getD 0, 7]
def mergeWs : List Nat := [0x24010000, (encode .merge).getD 0, 7]
def chanS (ws : List Nat) (ts : List Tok) (w : List Tok) : State :=
  fabS ws fun f => { f with chan := ts, waiting := w.map fun t => { tok := t, place := .table, err := 0 } }
theorem wit_match : let s := chanS twoWs [tok 0 0 [1]] []
    let x := s.ctx 0
    s.ctxWf = true ∧ (s.nodeImg x (tok 0 0 []).dest).isSome = true ∧ x.live = true ∧ x.fab.firstOfRoute 0 (tok 0 0 [1]) = true ∧
    smGet 0 s.active (x.first + 0) = 0 ∧ x.fab.draining = false ∧ x.tagAdmitted 0 = true ∧ x.tagCurrent 0 = true ∧
    x.tagAdmitted 0x500000 = false ∧ x.tagCurrent 1 = false ∧ x.tagAdmitted 1 = true ∧
    (s.nodeImg x (tok 0 0 []).dest).map (·.portList) = some [0, 1] ∧ s.waitPlace x (tok 0 0 [1]) = some .table := by decide
theorem test_match : ((after (.tokenMatch 0 0) (chanS twoWs [tok 0 0 [1]] [])).fab 0).waiting.length = 1 ∧
    ((after (.tokenMatch 0 0) (chanS twoWs [tok 0 0 [1]] [tok 0 1 [2]])).fab 0).firings.map (fun g => g.ports.map fun t => t.map (·.payload)) =
      [[some [1], some [2], none]] ∧
    ((after (.tokenMatch 0 0) (chanS twoWs [tok 0 0 [1]] [tok 0 0 [2]])).seq 0).cause = 0x0103 ∧
    ((after (.tokenMatch 0 0) (chanS mergeWs [tok 0 0 [1]] [])).fab 0).firings.length = 1 := by decide
theorem test_match_traps : ((after (.tokenMatch 0 0) (chanS twoWs [tok 0x500000 0 [1]] [])).seq 0).cause = 0x0105 ∧
    ((after (.tokenMatch 0 0) (chanS twoWs [tok 1 0 [1]] [])).seq 0).cause = 0x0102 := by decide

/-- A source node of a period of 2 × 1 × 1 points; the root slot is free. -/
def srcS (i : Nat) (live drain : Bool) : State :=
  let s := fabS [0x50010000, (encode .nop).getD 0, 7] fun f => { f with
    period := some { plane := 0, nx := 2, ny := 1, nz := 1 }, cursors := if i = 0 then [] else [(0, i)], draining := drain }
  { s with ctxs := [(0, { s.ctx 0 with slots := if live then [(0, { Slot.zero with live := true })] else [] })] }
theorem wit_sources : ((srcS 0 false false).sources ((srcS 0 false false).ctx 0)) = [placedFiring.ref] ∧
    ((srcS 0 false false).nodeImg ((srcS 0 false false).ctx 0) placedFiring.ref).isSome = true ∧ (srcS 0 false false).ctxWf = true ∧
    (((srcS 0 false false).ctx 0).grant 0 0 0 false none none).isSome = true ∧ ((srcS 0 true false).ctx 0).grant 0 0 0 false none none = none ∧
    (srcS 0 false true).pointBusy 0 placedFiring.ref = false := by decide
theorem test_sources : ((after (.indexTokenIssue 0 0) (srcS 1 false false)).fab 0).chan.map (fun t => (t.payload.take 2, t.mask)) = [([1, 0], 0xFFFF)] ∧
    ((after (.indexTokenIssue 0 0) (srcS 2 false false)).fab 0).chan = [] ∧ ((after (.indexTokenIssue 0 0) (srcS 0 true false)).fab 0).chan = [] ∧
    smGet 0 ((after (.indexTokenIssue 0 0) (srcS 1 false false)).fab 0).cursors 0 = 2 ∧
    smGet 0 ((after (.indexTokenIssue 0 0) (srcS 1 false true)).fab 0).stopped 0 = 1 := by decide

/-- A firing waits for a slot of space 1, and one for a free of the root tag. -/
def allocS : State :=
  let s := fireS (.alloc (.port 0)) 1 link1 { g0 with phase := .waitAlloc, x := [4] } id
  s.modFab 0 fun f => { f with allocs := [{ firing := 0, space := 1, ring := 0, parent := 0, opened := true }] }
def freeS : State := fireS (.free (.port 0)) 1 link1 { g0 with phase := .waitFree, x := [4] } id
theorem wit_alloc_free : (allocS.ctx 0).live = true ∧ (allocS.fab 0).allocs.length = 1 ∧
    (grantReq allocS (allocS.ctx 0) { g0 with phase := .waitAlloc, x := [4] } (img allocS)
      { firing := 0, space := 1, ring := 0, parent := 0, opened := true }).isSome = true ∧ freeS.tagInUse 0 0 0 = false ∧
    (freeS.ctx 0).tagLive 0 = true ∧ (freeS.ctx 0).namedAsParent 0 = false ∧ smWf Slot.zero (freeS.ctx 0).slots = true ∧
    (inner (freeS.ctx 0)).namedAsParent 0 = true ∧ (freeS.ctx 0).tagLive 1 = false ∧ smWf 0 (allocS.ctx 0).rings = true := by decide
theorem test_alloc_free : ((after (.tagAllocGrant 0 0) allocS).fab 0).firings.map (·.phase) = [.granted 0x100000] ∧
    ((after (.tagAllocGrant 0 0) allocS).fab 0).allocs = [] ∧ ((after (.freeComplete 0 0) freeS).fab 0).firings.map (·.phase) = [.freed 0] ∧
    ((after (.freeComplete 0 0) freeS).ctx 0).slot 0 0 = { Slot.zero with gen := 1 } := by decide

/-- A token waits for plane 2; plane 0 is active. -/
def planeS : State := chanS twoWs [{ tok 0 0 [1] with dest := { placedFiring.ref with plane := 2 } }] []
theorem wit_plane_switch : ((planeS.ctxs.find? fun e => e.2.live && e.2.inBlock 0).map (·.1)) = some 0 ∧
    planeS.waitsFor (planeS.ctx 0) 0 2 = true ∧ planeS.waitsFor (planeS.ctx 0) 0 0 = false ∧ planeS.waitsFor (planeS.ctx 0) 0 1 = false ∧
    smWf 0 planeS.active = true := by decide
theorem test_plane_switch : (after (.planeSwitch 0) planeS).active = [(0, 2)] ∧
    (after (.planeSwitch 0) (chanS twoWs [tok 0 0 [1]] [])).active = [] := by decide
/-- A load of plane 1 is in progress. -/
def loadJobS : State := fabS twoWs fun f => { f with
  loads := [{ addr := 0x40, ident := 9, plane := 1, fold := 1, nodes := [(nodeKey 0 1 0 0, twoWs)], holds := [(3, [5])], dropped := false }] }
theorem wit_load_completion : loadJobS.ctxWf = true ∧ (loadJobS.ctx 0).live = true ∧ (loadJobS.fab 0).loads.length = 1 ∧
    smWf noPlane loadJobS.planes = true ∧ smWf [] loadJobS.nodes = true ∧ smWf [] [(nodeKey 0 1 0 0, twoWs)] = true := by decide
theorem test_load_completion : smGet [] (after (.configurationLoadComplete 0) loadJobS).nodes (nodeKey 0 1 0 0) = twoWs ∧
    smGet noPlane (after (.configurationLoadComplete 0) loadJobS).planes 1 = (0x40, 9, 1, 1) ∧
    laneAt (smGet [] (after (.configurationLoadComplete 0) loadJobS).hold 3) 0 = 5 := by decide
/-- A period of no points. -/
def quietS : State := fabS twoWs fun f => { f with period := some { plane := 0, nx := 0, ny := 1, nz := 1 } }
theorem wit_quiescence : let x := quietS.ctx 0
    quietS.ctxWf = true ∧ x.fab.period = some { plane := 0, nx := 0, ny := 1, nz := 1 } ∧ x.live = true ∧ x.fab.chan = [] ∧ x.fab.waiting = [] ∧
    x.fab.firings = [] ∧ x.fab.allocs = [] ∧ x.fab.pairs = [] ∧ x.fab.replies = [] ∧ x.fab.accesses = [] ∧
    quietS.hasCmd 0 false = false ∧ quietS.sources x = [] := by decide
theorem test_quiescence : ((after (.quiescenceReport 0) quietS).fab 0).period = none ∧
    ((after (.quiescenceReport 0) (srcS 1 false false)).fab 0).period.isSome = true := by decide
/-- A reply is on its way to port 1, or port 2, of node 0. -/
def replyS (port slot : Nat) : State := fabS twoWs fun f => { f with
  period := some { plane := 0, nx := 1, ny := 1, nz := 1 }
  replies := [{ plane := 0, dest := { die := 0, cluster := 0, pe := 0, node := slot, port := port }, tag := 0, word := 0x700000005,
                header := 6, pred := [] }] }
theorem wit_reply : (replyS 1 0).ctxWf = true ∧ ((replyS 1 0).ctx 0).live = true ∧
    ((replyS 1 0).nodeImg ((replyS 1 0).ctx 0) placedFiring.ref).map (·.head.inputs) = some 2 ∧
    ((replyS 1 0).planeOf ((replyS 1 0).ctx 0) 0 0).2.2.2 = 1 ∧
    (replyS 1 1).nodeImg ((replyS 1 1).ctx 0) { placedFiring.ref with slot := 1 } = none := by decide
theorem test_reply : ((after (.replyTokenDelivery 0 0) (replyS 1 0)).fab 0).chan.map (fun t => (t.port, t.mask, t.payload.take 2)) = [(1, 3, [5, 7])] ∧
    ((after (.replyTokenDelivery 0 0) (replyS 2 0)).seq 0).cause = 0x0401 ∧ ((after (.replyTokenDelivery 0 0) (replyS 1 1)).seq 0).cause = 0x0401 := by
  decide
theorem wit_watchdog : ((fabS twoWs fun f => { f with idle := 2 ^ 24 }).fab 0).idle = 2 ^ 24 ∧
    (fabS twoWs fun f => { f with idle := 2 ^ 24 }).ctxWf = true ∧ ((fabS twoWs id).ctx 0).hang = 0 := by decide
theorem test_watchdog : ((after (.watchdogTrip 0) (fabS twoWs fun f => { f with idle := 2 ^ 24 })).ctx 0).ending.map (fun k => (k.kind, k.code)) =
    some (2, 0x0801) ∧ ((after (.watchdogTrip 0) (fabS twoWs fun f => { f with idle := 2 ^ 24 - 1 })).ctx 0).st = .running := by decide
/-- The last arrival of a phase, and the message that its completion sends. -/
def barS : State := fabS twoWs fun f => { f with
  bars := [(5, { parts := [0], phase := 0, arrived := [] })], arrives := [{ inst := 5, agent := 0, deps := [] }]
  phases := [{ inst := 6, cl := 0, phase := 3 }] }
theorem wit_barrier_phases : barS.ctxWf = true ∧ (barS.ctx 0).live = true ∧ barS.depsDone 0 [] = true ∧ ((barS.fab 0).bar 5).parts = [0] ∧
    smWf 0 (barS.fab 0).seen = true := by decide
theorem test_barrier_phases : (((after (.barrierArrivalRecord 0 0) barS).fab 0).bar 5).phase = 1 ∧
    ((after (.barrierArrivalRecord 0 0) barS).fab 0).phases = [{ inst := 6, cl := 0, phase := 3 }, { inst := 5, cl := 0, phase := 1 }] ∧
    smGet 0 ((after (.phaseCompletion 0 0) barS).fab 0).seen 6 = 3 := by decide

/-- A translation of nothing at all is missed. -/
def missS (walking wr : Bool) (root : Nat) : State :=
  { State.reset with
    misses := [{ who := .access 0 0, ia := 0x12345, wr := wr, walking := walking }], hbm := wrBytes [] 0 root 8
    ctxs := [(0, placedCtx)] }
theorem wit_misses : (missS false false 0).misses[0]? = some { who := .access 0 0, ia := 0x12345, wr := false, walking := false } ∧
    (missS true false 0).hbmErr = [] ∧ bit (rdBytes (missS true false 0).hbm 0 8) 63 = false ∧
    (let e := rdBytes (missS true true (0xC000000040000000)).hbm 0 8;
      bit e 63 = true ∧ bit e 62 = true ∧ bits e 39 0 = 0x40000000 ∧ bits e 60 40 = 0 ∧ bit e 61 = false) := by decide
/-- R334: a leaf of the first level maps 512 MiB at 0x40000000; without w a write is refused, and an entry of 0 is not valid. -/
theorem test_walk_leaf : (after (.walkResult 0) (missS true false 0xC000000040000000)).tlbLook 0x12345 false = some 0x40012345 ∧
    (after (.walkResult 0) (missS true false 0xC000000040000000)).misses = [] := by decide +kernel
theorem test_walk_fault : (after (.walkResult 0) (missS true true 0xC000000040000000)).faultToks.length = 1 ∧
    (after (.walkResult 0) (missS true false 0)).faultToks.length = 1 ∧
    (after (.tlbMiss 0) (missS false false 0)).misses.map (·.walking) = [true] := by decide
def faultS : State := { missS true false 0 with misses := [], faultToks := [{ who := .access 0 0, ia := 0x12345, wr := false }] }
theorem wit_page_fault : faultS.ctxWf = true ∧ faultS.faultToks[0]? = some { who := .access 0 0, ia := 0x12345, wr := false } ∧
    (faultS.ctx 0).st = .running := by decide
theorem test_page_fault : ((after (.pageFault 0) faultS).ctx 0).st = .draining ∧ ((after (.pageFault 0) faultS).ctx 0).faultIa = 0x12345 ∧
    (after (.pageFault 0) faultS).vectors.getLsbD 64 = true := by decide
theorem wit_page_registers : State.reset.boot.minimal = false ∧ State.reset.boot.tripped = false ∧ State.reset.anyLaunched = false ∧
    s1.anyLaunched = true ∧ smWf [] State.reset.tlb = true ∧ State.reset.ptInval.getLsbD 63 = false := by decide
theorem test_page_registers : (after (.ptRootWrite 0xFFFFFFFFFFFFFFFF) State.reset).ptRoot = 0xFFFFF00000 ∧
    (after (.ptRootWrite 0xFFFFFFFFFFFFFFFF) s1).ptRoot = 0 ∧ (after .invalidationComplete (after (.ptInval 0xC00000000001) (gloadA 64 .nop))).tlb = [] ∧
    (after (.ptInval 1) State.reset).ptInval.getLsbD 63 = true ∧
    (after .invalidationComplete (after (.ptInval 1) State.reset)).ptInval.getLsbD 63 = false := by decide
/-- A word with one bit, and one with two bits, flipped. -/
def errS (m : Word) : State := { State.reset with hbm := wrBytes [] 8 m.toNat 8, hbmErr := [(1, m)] }
theorem wit_scrub : dieOf 8 = 0 ∧ smWf 0 (errS 1).hbmErr = true ∧ smWf LogEntry.none (errS 1).eccLog = true ∧ popWord 1 = 1 ∧ popWord 3 = 2 := by
  decide
theorem test_scrub : (after (.scrubPass 0 8) (errS 1)).hbmErr = [] ∧ (after (.scrubPass 0 8) (errS 1)).hbm = [] ∧
    (after (.scrubPass 0 8) (errS 3)).hbmErr = [(1, 3)] ∧ (after (.scrubPass 0 8) (errS 3)).eccCount = 1 := by decide

/-- A pair for handle 0, and a record of an ended period. -/
def pair0 : Pair :=
  { id := 0, handle := 0, offset := 8, value := 5, size := 4, key := { space := 0, ring := 0, ordinal := 0 }, node := 7, lane := 0, firing := 0,
    agent := .pe 0 0, deps := [] }
def rec0 : Rec :=
  { ctx := 0, handle := 0, stack := 0, offset := 8, value := 5, period := 0, key := { space := 0, ring := 0, ordinal := 0 }, node := 7, lane := 0,
    run := 0, current := false, err := 0 }
def sortS : State :=
  { State.reset with
    ctxs := [(0, let x := binds placedCtx; { x with fab := { x.fab with pairs := [pair0] } })], recs := [rec0], hbm := wrBytes [] 0x10008 3 4
    tlb := [(0, [{ level := 2, ia := 0x10000, pa := 0x10000, w := true }])] }
theorem wit_sorters : sortS.ctxWf = true ∧ (sortS.ctx 0).live = true ∧ (sortS.fab 0).pairs = [pair0] ∧ ((sortS.ctx 0).binding 0).isSome = true ∧
    (((sortS.ctx 0).binding 0).bind fun b => b.toIa (b.base + 8)) = some 0x10008 ∧ sortS.depsDone 0 [] = true ∧
    doneLines 0 0 0 sortS.recs = [0] ∧ lineOffs 0 0 0 sortS.recs = [8] ∧ sortS.tlbLook 0x10008 true = some 0x10008 ∧
    sortS.hbmErr = [] ∧ smWf 0 (sortS.ctx 0).updLines = true := by decide
theorem test_sorters : (after (.pairAccept 0 0) sortS).recs.map (fun r => (r.value, r.current)) = [(5, false), (5, true)] ∧
    rdBytes (after (.sorterApply 0 0 0) sortS).hbm 0x10008 4 = 8 ∧ (after (.sorterApply 0 0 0) sortS).recs = [] := by decide +kernel
theorem test_update_operators : (updOp 1 2 0xFFFFFFFF 4).val = 0xFFFFFFFF ∧ (updOp 1 6 0xFFFFFFFF 4).val = 4 ∧ (updOp 2 6 3 4).val = 4 ∧
    (updOp 9 2 3 4).val = 4 ∧ (updOp 6 10 0x3F800000 0x3F800000).val = 0x40000000 := by decide
def applyS (why : ApplyWhy) (ws : List Nat) : State :=
  { sortS with ctxs := [(0, { sortS.ctx 0 with apply := some { handles := [0], why := why, waits := ws, leave := [] } })] }
theorem wit_apply : ((applyS .flush []).ctx 0).apply.isSome = true ∧ ((applyS .flush []).ctx 0).st = .running ∧
    (match applyBindings 0 [0] (applyS .flush []) with
      | .ok _ _ => true
      | .bad _ _ | .stall _ => false) = true ∧
    (match applyBindings 0 [0] { applyS .flush [] with tlb := [] } with
      | .stall _ => true
      | .bad _ _ | .ok _ _ => false) = true := by decide
theorem test_apply : ((after (.applyCompletion 0) (applyS .flush [])).ctx 0).apply = none ∧ (after (.applyCompletion 0) (applyS .flush [])).recs = [] ∧
    ((after (.applyCompletion 0) (applyS .unbind [])).ctx 0).bindings = [] ∧
    ((after (.applyCompletion 0) (applyS .flush [5])).ctx 0).apply.isSome = true := by decide

/-! ## Engines -/

/-- A command with its body at 0x100. -/
def cmdOf (cls : EngClass) (op : Nat) : Cmd :=
  { raw := 0, hdr := { op := op, cls := cls, unit := 0, cluster := 0, acq := false, rel := false, scope := 0, reply := .none, body := 0x100, next := 0 }
    from_ := { ctx := 0, bySeq := true, reg := 0, agent := .seq, tag := 0, node := 0, firing := 0, chain := 0, deps := [] } }
/-- It stands first in its engine's inbox, and its body and data in the scratchpad of cluster 0. -/
def engS (cls : EngClass) (op n b : Nat) (l : List (Nat × Nat × Nat)) : State :=
  let s : State := { State.reset with
    ctxs := [(0, mapped placedCtx)], sp := l.foldl (fun m p => wrBytes m p.1 p.2.1 p.2.2) (wrBytes [] 0x100 b n) }
  s.setEng (engAt cls 0 0) { Eng.reset with inbox := [cmdOf cls op] }
def startsB (cls : EngClass) (op n b : Nat) (l : List (Nat × Nat × Nat)) : Bool :=
  let s := engS cls op n b l
  decide (nextCmd (engAt cls 0 0) op s = some (cmdOf cls op)) && decide (spSpanBad s (s.ctx 0) 0x100 n = none) &&
    match readSpan (s.ctx 0) 0x100 n (s.setEng (engAt cls 0 0) { s.eng (engAt cls 0 0) with inbox := (s.eng (engAt cls 0 0)).inbox.drop 1 }) with
    | .ok v _ => decide (v = b)
    | .bad _ _ | .stall _ => false
theorem starts_of (cls : EngClass) (op n b : Nat) (l : List (Nat × Nat × Nat)) (h : startsB cls op n b l = true) :
    ∃ s', Starts (engAt cls 0 0) op n (cmdOf cls op) b (engS cls op n b l) s' := by
  simp only [startsB, Bool.and_eq_true, decide_eq_true_eq] at h
  obtain ⟨⟨h1, h2⟩, h3⟩ := h
  split at h3
  · rename_i v u hr
    simp only [decide_eq_true_eq] at h3
    exact ⟨u, h1, h2, by rw [h3] at hr; exact hr⟩
  · exact absurd h3 (by decide)
  · exact absurd h3 (by decide)

/-- The command in progress: its accesses still to be made before stage `stage`, and the bytes that they have read. -/
def runS (cls : EngClass) (op n b : Nat) (l : List (Nat × Nat × Nat)) (stage : Nat) (todo : List Work) (got : List Byte) : State :=
  (engS cls op n b l).setEng (engAt cls 0 0) { Eng.reset with
    run := some { runOf (cmdOf cls op) b 0 .working (.ok 0) with stage := stage, todo := todo, got := got.reverse } }
theorem holds_run (cls : EngClass) (op n b : Nat) (l : List (Nat × Nat × Nat)) (stage : Nat) (todo : List Work) (got : List Byte) :
    Holds (engAt cls 0 0) op { runOf (cmdOf cls op) b 0 .working (.ok 0) with stage := stage, todo := todo, got := got.reverse }
      (runS cls op n b l stage todo got) := by
  refine ⟨?_, rfl, ?_, ?_⟩ <;> cases cls <;> rfl
theorem reaches_run (cls : EngClass) (op n b : Nat) (l : List (Nat × Nat × Nat)) (stage : Nat) (got : List Byte) :
    Reaches (engAt cls 0 0) op stage got { runOf (cmdOf cls op) b 0 .working (.ok 0) with stage := stage, todo := [], got := got.reverse }
      (runS cls op n b l stage [] got) :=
  ⟨holds_run cls op n b l stage [] got, rfl, rfl, rfl, List.reverse_reverse got⟩

/-- The outcome of an engine's command, and what it still has to do. -/
def outcome (cls : EngClass) (i : Instr) (s : State) : Option (Nat × Nat × Nat) :=
  ((after i s).eng (engAt cls 0 0)).run.bind fun r => if r.phase = .finished then some (r.code, r.reason, r.result) else none
def todoOf (cls : EngClass) (i : Instr) (s : State) : Option (List Work) := ((after i s).eng (engAt cls 0 0)).run.map (·.todo)

/-- Bodies: copy.lin of 8 bytes from 0x400 to 0x800; copy.2d of two rows; copy.rows of rows 0 and none. -/
def bLin : Nat := 8 * 2 ^ 32 + (2 ^ 63 + 0x400) * 2 ^ 64 + (2 ^ 63 + 0x800) * 2 ^ 128
def b2d : Nat := bLin + 2 * 2 ^ 192 + 0x10 * 2 ^ 256 + 0x20 * 2 ^ 320
def bRows : Nat := bLin + 2 * 2 ^ 192 + 0x900 * 2 ^ 224 + 0x10 * 2 ^ 256 + 0x20 * 2 ^ 320
def dataL : List (Nat × Nat × Nat) := [(0x400, 0x1122334455667788, 8), (0x410, 0x99, 8), (0x900, 0xFFFFFFFF00000001, 8)]
theorem wit_copies : startsB .copy 1 32 bLin dataL = true ∧ startsB .copy 2 48 b2d dataL = true ∧ startsB .copy 3 48 bRows dataL = true ∧
    placeOf (fld bLin 8 8) = some { sp := true, addr := 0x400 } ∧ placeOf (fld bLin 16 8) = some { sp := true, addr := 0x800 } ∧
    placeOf (2 ^ 48) = none ∧
    rangesMeet { sp := true, addr := 0x400 } { sp := true, addr := 0x800 } [{ src := some 0, dst := 0, rd := 8, wr := 8 }] = false ∧
    rangesMeet { sp := true, addr := 0x400 } { sp := true, addr := 0x407 } [{ src := some 0, dst := 0, rd := 8, wr := 8 }] = true ∧
    rowsBad (engS .copy 1 32 bLin dataL) ((engS .copy 1 32 bLin dataL).ctx 0) (engAt .copy 0 0) { sp := true, addr := 0x400 }
      { sp := true, addr := 0x800 } [{ src := some 0, dst := 0, rd := 8, wr := 8 }] = none ∧
    rowsBad (engS .copy 1 32 bLin dataL) ((engS .copy 1 32 bLin dataL).ctx 0) (engAt .copy 0 0) { sp := true, addr := 0x400 }
      { sp := true, addr := 2 ^ 30 - 1 } [{ src := some 0, dst := 0, rd := 8, wr := 8 }] ≠ none ∧
    spSpanBad (engS .copy 3 48 bRows dataL) ((engS .copy 3 48 bRows dataL).ctx 0) 0x900 8 = none := by decide +kernel
def spAt (a : Nat) : Plc := { sp := true, addr := a }
def rowsGot : List Byte := [1, 0, 0, 0, 0xFF, 0xFF, 0xFF, 0xFF]
theorem test_copy_start : todoOf .copy (.copyLin 0 0) (engS .copy 1 32 bLin dataL) = some [.move (some (spAt 0x400)) (spAt 0x800) 8 8] ∧
    todoOf .copy (.copy2d 0 0) (engS .copy 2 48 b2d dataL) =
      some [.move (some (spAt 0x400)) (spAt 0x800) 8 8, .move (some (spAt 0x410)) (spAt 0x820) 8 8] ∧
    todoOf .copy (.copyRows 0 0) (engS .copy 3 48 bRows dataL) = some [.read 0x900 8] ∧
    todoOf .copy (.copyRows 0 0) (runS .copy 3 48 bRows dataL 1 [] rowsGot) =
      some [.move (some (spAt 0x410)) (spAt 0x800) 8 8, .move none (spAt 0x820) 8 8] := by decide +kernel
theorem test_copy_faults : outcome .copy (.copyLin 0 0) (engS .copy 1 32 (bLin - 8 * 2 ^ 32) dataL) = some (0x0206, 1, 0) ∧
    outcome .copy (.copyLin 0 0) (engS .copy 1 32 (bLin + 2 ^ 192) dataL) = some (0x0206, 6, 0) ∧
    outcome .copy (.copyLin 0 0) (engS .copy 1 32 (bLin - 0x3F9 * 2 ^ 128) dataL) = some (0x0206, 3, 0) ∧
    outcome .copy (.copyRows 0 0) (engS .copy 3 48 (bRows + 2 ^ 224) dataL) = some (0x0206, 7, 0) ∧
    outcome .copy (.copyLin 0 0) (runS .copy 1 32 bLin dataL 1 [] []) = some (0, 0, 0) := by decide +kernel

/-- An engine's accesses: a byte of scratchpad read and written, a byte of a global address, one of a window, and an element. -/
def accS (todo : List Work) (got : List Byte) : State :=
  let s := runS .copy 1 32 bLin dataL 1 todo got
  { s with
    ctxs := [(0, { placedCtx with rngA := [(0, 0xFFF00000000), (1, 0x10FFF00010000)], rngB := [(0, 0x700000000), (1, 0x740000000)] })]
    wa := [(0, 0xC000000000000000)]
    hbm := [(0x200, 0x77)], tlb := [(0, [{ level := 2, ia := 0x0, pa := 0x0, w := true }])] }
def glAt (a : Nat) : Plc := { sp := false, addr := a }
theorem wit_engine_op : EngineOp (.copyLin 0 0) 1 (engAt .copy 0 0) (accS [] []) ∧ EngineOp (.gath 0 0) 1 (engAt .gather 0 0) (accS [] []) :=
  ⟨⟨0, 0, .inl (by simp)⟩, ⟨0, 0, .inr ⟨rfl, rfl, rfl, by decide +kernel⟩⟩⟩
theorem wit_engine_accesses : let s := accS [.read 0x400 2] []
    (s.eng (engAt .copy 0 0)).run = some { runOf (cmdOf .copy 1) bLin 0 .working (.ok 0) with stage := 1, todo := [.read 0x400 2] } ∧
    (s.ctx 0).performs = true ∧ (s.ctx 0).resuming = false ∧ s.spErr = [] ∧ s.hbmErr = [] ∧ s.bound = [] ∧
    (s.ctx 0).base = (s.ctx 0).first ∧ smWf Eng.reset s.engs = true ∧ smWf 0 s.sp = true ∧
    (globCheck s (s.ctx 0) true false 0x200 matches .ok 0x200) ∧ inWindow 0x200 = false ∧ s.tlbLook 0x200 false = some 0x200 ∧
    (globCheck s (s.ctx 0) true false 0x12000 matches .ok 0x12000) ∧ s.tlbLook 0x12000 false = none ∧ s.tlbLook 0x12000 true = none ∧
    ((s.ctx 0).toIa false true 0x100000000 matches .ok 0x400000000000) ∧ inWindow 0x400000000000 = true ∧
    (match windowCheck 0 0x400000000000 s with
      | .ok _ u => decide (u = s)
      | .bad _ _ | .stall _ => false) = true := by decide +kernel
theorem test_engine_reads : let run := fun t g => ((after (.copyLin 0 0) (accS t g)).eng (engAt .copy 0 0)).run.map fun r => (r.todo, r.got)
    run [.read 0x400 2] [] = some ([.read 0x401 1], [0x88]) ∧
    run [.move (some (glAt 0x200)) (spAt 0x800) 1 1] [] = some ([.move (some (glAt 0x200)) (spAt 0x800) 1 1], [0x77]) ∧
    (after (.copyLin 0 0) (accS [.move (some (glAt 0x12000)) (spAt 0x800) 1 1] [])).misses.length = 1 := by decide +kernel
theorem test_engine_writes : let w := fun t g => after (.copyLin 0 0) (accS t g)
    smGet 0 (w [.move (some (spAt 0x400)) (spAt 0x800) 2 2] [0x88]).sp 0x800 = 0x88 ∧
    smGet 0 (w [.move none (glAt 0x200) 1 1] []).hbm 0x200 = 0 ∧
    (w [.move none (glAt 0x100000000) 1 1] []).posted.length = 1 ∧
    rdBytes (w [.put 0xA00 4 8 0x0000000200000001] []).sp 0xA00 8 = 1 := by decide +kernel
/-- A read and a row within scratchpad, for the bytes that whole work lists move. -/
theorem wit_engine_moves : ([(0x400, 2)].map fun p => Work.read p.1 p.2).filter (fun w => !w.done) = [.read 0x400 2] ∧
    ∀ a, (some 0x400 : Option Nat) = some a → a + 8 ≤ 0x800 ∨ 0x800 + 8 ≤ a := ⟨by decide, fun a h => by injection h with h; omega⟩

/-- copy.seg of one row of 3 elements of one byte, cut into pieces of 2: row pointers 0 and 3 at 0xA00, the carry table at 0xB00. -/
def bSeg : Nat := 2 * 2 ^ 32 + 0xFF * 2 ^ 56 + 0xA00 * 2 ^ 64 + 1 * 2 ^ 128 + 4 * 2 ^ 160 +
  (2 ^ 63 + 0x400) * 2 ^ 192 + (2 ^ 63 + 0x800) * 2 ^ 256 + 0xB00 * 2 ^ 448
def segL : List (Nat × Nat × Nat) := [(0x400, 0x030201, 3), (0xA00, 0x300000000, 8)]
def segP : List SegPiece := [{ row := 0, piece := 0, elem := 0, len := 2, last := false }, { row := 0, piece := 1, elem := 2, len := 1, last := true }]
/-- Its streams and its carry table are clear of its body, and meet where the destination is the source. -/
theorem wit_copy_seg : let s := engS .copy 4 64 bSeg segL
    startsB .copy 4 64 bSeg segL = true ∧ fld bSeg 20 4 = 4 ∧ fld bSeg 6 1 = 0 ∧ fld bSeg 7 1 = 0xFF ∧ fld bSeg 4 2 = 2 ∧
    fld bSeg 62 2 = 0 ∧ fld bSeg 40 8 = 0 ∧ fld bSeg 48 8 = 0 ∧
    (match segPass (s.ctx 0) 2 0xA00 1 6 0 0 4 s with
      | .ok ps r j _ => decide (ps = segP ∧ r = 1 ∧ j = 0)
      | _ => false) = true ∧
    rangesMeet (spAt 0x400) (spAt 0x800) (segRows 2 1 segP) = false ∧ rangesMeet (spAt 0x400) (spAt 0x400) (segRows 2 1 segP) = true ∧
    rowsBad s (s.ctx 0) (engAt .copy 0 0) (spAt 0x400) (spAt 0x800) (segRows 2 1 segP) = none ∧
    spSpanBad s (s.ctx 0) (fld bSeg 56 4) (8 * segP.length) = none ∧
    (match rowPtr (s.ctx 0) 0xA00 0 s, rowPtr (s.ctx 0) 0xA00 1 s with
      | .ok (a, _), .ok (q, _) => decide (a = 0 ∧ q = 3)
      | _, _ => false) = true := by decide +kernel
/-- R193: each virtual row's bytes and its carry entry; the outcome, and what is written back at the commit: the row, the rows left
and the piece where it stopped. -/
theorem test_copy_seg : todoOf .copy (.copySeg 0 0) (engS .copy 4 64 bSeg segL) =
      some [.move (some (spAt 0x400)) (spAt 0x800) 2 2, .put 0xB00 1 8 (2 * 2 ^ 48), .move (some (spAt 0x402)) (spAt 0x802) 1 2,
        .put 0xB08 1 8 (2 ^ 63 + 2 ^ 48 + 2 ^ 32)] ∧
    ((after (.copySeg 0 0) (runS .copy 4 64 (bSeg + 2 * 2 ^ 512 + 1 * 2 ^ 576) segL 1 [] [])).eng (engAt .copy 0 0)).run.map
      (fun r => (r.result, r.back)) = some (2, [.put 0x10C 1 8 1, .put 0x13C 1 2 0]) := by decide +kernel
theorem test_seg_faults : outcome .copy (.copySeg 0 0) (engS .copy 4 64 (bSeg - 4 * 2 ^ 160) segL) = some (0x0206, 1, 0) ∧
    outcome .copy (.copySeg 0 0) (engS .copy 4 64 (bSeg - 2 * 2 ^ 32) segL) = some (0x0206, 5, 0) ∧
    outcome .copy (.copySeg 0 0) (engS .copy 4 64 bSeg [(0xA00, 3, 8)]) = some (0x0206, 4, 0) ∧
    outcome .copy (.copySeg 0 0) (engS .copy 4 64 (bSeg - 0x400 * 2 ^ 256) segL) = some (0x0206, 3, 0) := by decide +kernel

/-- gath of one row of one K-block of bfloat16 elements, of the row that the index at 0xA00 names. -/
def bGath : Nat := 1 * 2 ^ 32 + 1 * 2 ^ 40 + 9 * 2 ^ 48 + 0xA00 * 2 ^ 64 + 0x400 * 2 ^ 96 + 0x40 * 2 ^ 128
def gathL : List (Nat × Nat × Nat) := [(0xA00, 1, 4), (0x440, 0x3F80, 2)]
theorem wit_gath : startsB .gather 1 32 bGath gathL = true ∧ gathOk bGath = true ∧ (gathBody bGath).odd = none ∧
    (gathBody (bGath + 2 ^ 96)).odd = some 0x401 ∧ gathOk (bGath - 2 ^ 32) = false ∧ latchInUse 0 0 (engS .gather 1 32 bGath gathL) = false ∧
    spSpanBad (engS .gather 1 32 bGath gathL) ((engS .gather 1 32 bGath gathL).ctx 0) 0xA00 4 = none ∧
    spSpanBad (engS .gather 1 32 bGath gathL) ((engS .gather 1 32 bGath gathL).ctx 0) 0x440 64 = none ∧
    (bGath + 2 ^ 256) % 256 ^ 32 = bGath ∧ bGath + 2 ^ 256 < 256 ^ (32 + 4 * 1) ∧ latchInUse 0 0 (runS .gather 1 32 bGath gathL 1 [] []) = false ∧
    smWf none State.reset.latches = true := by decide +kernel
theorem test_gath : todoOf .gather (.gath 0 0) (engS .gather 1 32 bGath gathL) = some [.read 0xA00 4] ∧
    todoOf .gather (.gath 0 0) (runS .gather 1 32 bGath gathL 1 [] [1, 0, 0, 0]) = some [.read 0x440 64] ∧
    todoOf .gather (.gath 0 0) (runS .gather 1 32 bGath gathL 1 [] [0xFF, 0xFF, 0xFF, 0xFF]) = some [] ∧
    outcome .gather (.gath 0 0) (engS .gather 1 32 (bGath - 2 ^ 32) []) = some (0x0206, 8, 0) ∧
    outcome .gather (.gath 0 0) (engS .gather 1 32 (bGath + 2 ^ 64) []) = some (0x0206, 7, 0) := by decide +kernel
theorem test_gath_fill : let s := runS .gather 1 32 (bGath + 2 ^ 256) gathL 2 [] (0x80 :: 0x3F :: List.replicate 62 0)
    outcome .gather (.gath 0 0) s = some (0, 0, 1) ∧
    ((after (.gath 0 0) s).latch 0 0).map (fun l => (l.m, l.kb, l.fmt, smGet 0 l.data 0)) = some (1, 1, 9, 0x3F80) ∧
    ((after (.gath 0 0) (runS .gather 1 32 (bGath + 0xFFFFFFFF * 2 ^ 256) gathL 2 [] [])).latch 0 0).map (fun l => smGet 0 l.data 0) = some 0 := by
  decide +kernel

/-- press.bf of one element: 1.0 at 0x400 times 2.0 at 0x500, over 1 element of K, into tile 0 from 0. -/
def bBf : Nat := 2 * 2 ^ 32 + 1 * 2 ^ 64 + 1 * 2 ^ 80 + 1 * 2 ^ 96 + 0x400 * 2 ^ 128 + 0x40 * 2 ^ 160 + 0x500 * 2 ^ 224 + 0x40 * 2 ^ 256
def bfL : List (Nat × Nat × Nat) := [(0x400, 0x3F80, 2), (0x500, 0x4000, 2)]
theorem wit_press : startsB .press 2 64 bBf bfL = true ∧ ((engS .press 2 64 bBf bfL).eng (engAt .press 0 0)).run = none ∧
    (pressBody true bBf).shapeOk = true ∧ (pressBody true bBf).fmtOk (engS .press 2 64 bBf bfL) bBf = true ∧ (pressBody true bBf).latch = false ∧
    (pressBody true bBf).misaligned = none ∧ (pressBody true bBf).sparse = false ∧
    (pressBody true bBf).footprints.findSome? (footBad (engS .press 2 64 bBf bfL) ((engS .press 2 64 bBf bfL).ctx 0)) = none ∧
    startsB .press 1 64 bBf bfL = true ∧ (pressBody true (bBf + 2 ^ 128)).misaligned = some 0x401 ∧
    (pressBody true (bBf - 2 ^ 64)).shapeOk = false := by decide +kernel
theorem test_press_start : ((after (.pressBf 0 0) (engS .press 2 64 bBf bfL)).gov 0).queue = [(0, .press (engAt .press 0 0))] ∧
    outcome .press (.pressBf 0 0) (engS .press 2 64 (bBf - 2 ^ 64) bfL) = some (0x0602, 0, 0) ∧
    outcome .press (.pressBf 0 0) (engS .press 2 64 (bBf + 2 ^ 40) bfL) = some (0x0603, 0, 0) ∧
    outcome .press (.pressBf 0 0) (engS .press 2 64 (bBf + 16 * 2 ^ 32 - 0x400 * 2 ^ 128 - 0x40 * 2 ^ 160) bfL) = some (0x0604, 0, 0) ∧
    outcome .press (.pressBf 0 0) (engS .press 2 64 (bBf + 2 ^ 128) bfL) = some (0x0201, 0, 0) ∧
    outcome .press (.pressMm 0 0) (engS .press 1 64 (bBf - 2 ^ 64) bfL) = some (0x0602, 0, 0) := by decide +kernel
/-- Its leave has been granted. -/
def leaveS (op n b : Nat) (l : List (Nat × Nat × Nat)) : State :=
  let s := (engS .press op n b l).setEng (engAt .press 0 0) { Eng.reset with
    run := some { runOf (cmdOf .press op) b 0 .leaveGranted (.ok 0) with stage := 2, leave := true } }
  { s with acc := [(0, 0x40400000)], govs := [(0, { Gov.reset with held := 1 })] }
theorem wit_leave (op n b : Nat) (l : List (Nat × Nat × Nat)) :
    HasLeave (engAt .press 0 0) op { runOf (cmdOf .press op) b 0 .leaveGranted (.ok 0) with stage := 2, leave := true } (leaveS op n b l) :=
  ⟨⟨rfl, rfl, rfl, rfl⟩, rfl, rfl⟩
/-- R200: rows of 64 bytes of A and B; R205: the result word packs M, N and K mod 32. -/
theorem test_press_work : todoOf .press (.pressBf 0 0) (leaveS 2 64 bBf bfL) = some [.read 0x400 64, .read 0x500 64] ∧
    (let s := runS .press 2 64 bBf bfL 3 [] ([0x80, 0x3F] ++ List.replicate 62 0 ++ [0, 0x40] ++ List.replicate 62 0);
      outcome .press (.pressBf 0 0) s = some (0, 0, 0x10101) ∧ smGet 0 (after (.pressBf 0 0) s).acc 0 = 0x40000000) := by decide +kernel
theorem wit_press_tile : (match pressResult 0 (pressBody true bBf) [{ elems := [some 0x3F80], scales := 0 }] [{ elems := [some 0x4000], scales := 0 }] 0 State.reset with
      | .fin o _ => o.code
      | _ => 1) = 0 ∧ smWf 0 State.reset.acc = true ∧ (pressBody true bBf).m = 1 ∧ (pressBody true bBf).n = 1 ∧
    (pressBody true bBf).ovw = true ∧ (pressBody true bBf).cks = false ∧ (pressBody true bBf).tile = 0 ∧ State.reset.latchErr = [] := by
  decide +kernel
/-- R199, R202: a sparse command reads its metadata first; one with a latch tests that of the latch, where a word with two flipped
bits is ECC.LATCH. -/
def bSp : Nat := bBf + 8 * 2 ^ 32 + 0x600 * 2 ^ 320
def bSl : Nat := bBf + 24 * 2 ^ 32 - 0x400 * 2 ^ 128 - 0x40 * 2 ^ 160
def latchS (metas : Nat) (err : SMap Nat) : State :=
  { engS .press 2 64 bSl bfL with
    latches := [(0, some { m := 1, kb := 1, fmt := 9, sparse := true, data := [], scales := [], metas := [(0, metas)] })], latchErr := err }
theorem wit_press_sparse : startsB .press 2 64 bSp bfL = true ∧ startsB .press 2 64 bSl bfL = true ∧
    (pressBody true bSp).sparse = true ∧ (pressBody true bSp).latch = false ∧ (pressBody true bSl).sparse = true ∧ (pressBody true bSl).latch = true ∧
    (pressBody true bSl).shapeOk = true ∧ (pressBody true bSl).fmtOk (latchS 0x0688068806880688 []) bSl = true ∧
    (pressBody true bSl).latchOk ((latchS 0x0688068806880688 []).latch 0 0) = true ∧ (pressBody true bSl).misaligned = none ∧
    (latchCheck 0 [68] (latchS 0 [(68, 3)])).1 = true ∧ (latchCheck 0 [68] (latchS 0 [])).1 = false ∧
    metaBad 4 0x0688068806880688 = none ∧ metaBad 4 0x0688 = some 1 := by decide +kernel
theorem test_press_sparse : todoOf .press (.pressBf 0 0) (engS .press 2 64 bSp bfL) = some [.read 0x600 8] ∧
    ((after (.pressBf 0 0) (latchS 0x0688068806880688 [])).gov 0).queue.length = 1 ∧
    outcome .press (.pressBf 0 0) (latchS 0x0688 []) = some (0x0601, 0, 1) ∧
    outcome .press (.pressBf 0 0) (latchS 0x0688068806880688 [(68, 3)]) = some (0x0B05, 0, 0) := by decide +kernel
theorem test_press_sparse_meta : outcome .press (.pressBf 0 0) (runS .press 2 64 bSp bfL 1 [] (toBytes 0x0688 8)) = some (0x0601, 0, 1) := by
  decide +kernel
theorem test_press_rows : (rowBytes none false 1, rowBytes none true 1, rowBytes (some .bx8) false 2) = (64, 32, 64) := by decide
/-- A latch is too wide for its K-blocks: 600 elements of K have 19, and BF16 257 have 9. -/
theorem test_latch_shape : (pressBody false (bBf + 16 * 2 ^ 32 + 599 * 2 ^ 96)).shapeOk = false ∧ (pressBody false (bBf + 599 * 2 ^ 96)).shapeOk = true ∧
    (pressBody true (bBf + 16 * 2 ^ 32 + 256 * 2 ^ 96)).shapeOk = false ∧ (pressBody true (bBf + 16 * 2 ^ 32 + 255 * 2 ^ 96)).shapeOk = true := by
  decide +kernel
/-- press.rd of one element to 0x400, with clr. -/
def bRd : Nat := 4 * 2 ^ 32 + 1 * 2 ^ 64 + 1 * 2 ^ 80 + 0x400 * 2 ^ 96 + 4 * 2 ^ 128
theorem wit_press_rd : startsB .press 3 32 bRd [] = true ∧ (readBody bRd).m = 1 ∧ (readBody bRd).n = 1 ∧ (readBody bRd).clr = true ∧
    (readBody bRd).cks = false ∧ (readBody bRd).cdst = 0 ∧ (readBody bRd).dst % 4 = 0 ∧ (readBody bRd).dstride % 4 = 0 ∧
    footBad (engS .press 3 32 bRd []) ((engS .press 3 32 bRd []).ctx 0) [(0x400, 4)] = none ∧
    smWf 0 (leaveS 3 32 bRd []).acc = true ∧ smWf 0 State.reset.csrow = true ∧ smWf 0 State.reset.cscol = true ∧
    (readBody (bRd + 2 * 2 ^ 32 + 2 ^ 160)).cdst % 4 ≠ 0 ∧ (engS .press 3 32 bRd []).masked 3 = false := by decide +kernel
theorem test_press_rd : todoOf .press (.pressRd 0 0) (leaveS 3 32 bRd []) = some [.put 0x400 4 4 0x40400000] ∧
    (after (.pressRd 0 0) { runS .press 3 32 bRd [] 3 [] [] with acc := [(0, 0x40400000)] }).acc = [] ∧
    outcome .press (.pressRd 0 0) (engS .press 3 32 (bRd - 2 ^ 64) []) = some (0x0602, 0, 0) ∧
    outcome .press (.pressRd 0 0) (engS .press 3 32 (bRd + 2 ^ 96) []) = some (0x0201, 0, 0) ∧
    outcome .press (.pressRd 0 0) (engS .press 3 32 (bRd + 2 * 2 ^ 32 + 2 ^ 160) []) = some (0x0201, 0, 0) := by decide +kernel
/-- R203: an element's value: 1.0 in BF16, one of a NaN block, of a zero block, and of a block that is neither; a sum of the columns. -/
theorem wit_checksum_values : Vec.val none { elems := [some 0x3F80], scales := 0 } 0 = 0x3F800000 ∧
    Vec.val (some .bx8) { elems := [some 64], scales := 0xFF00 } 0 = fNaN .f32 ∧ Vec.val (some .bx8) { elems := [some 64], scales := 0 } 0 = 0 ∧
    scaleE 0xFF00 = 255 ∧ scaleE 0x7F00 = 127 ∧ Vec.val none { elems := [], scales := 0 } 3 = 0 ∧
    Vec.val (some .bx8) { elems := [some 64], scales := 0x7F00 } 0 = 0x3F000000 := by decide +kernel
/-- A block of each kind for the block result, and products of each kind for the element-exponent mode. -/
theorem wit_block_results : scaleE 0x7F80 = 127 ∧ (expField .b16 0x7FC0 = 255 ∧ 0x7FC0 % 2 ^ FltTy.frac .b16 ≠ 0) ∧
    (expField .b16 0xFF80 = 255 ∧ 0xFF80 % 2 ^ FltTy.frac .b16 = 0) ∧ signBit .b16 0xFF80 = true ∧ finite .b16 0x3F80 := by
  refine ⟨by decide, by decide, by decide, by decide, ?_⟩
  unfold finite; decide
theorem test_block_results : (bfP [(0x3F80, 0x4000), (0x4040, 0x3F80)]).val = 0x40A00000 ∧ (bfP [(0x7FC0, 0x3F80)]).fl = fNone ∧
    (bfP [(0x7F80, 0x3F80), (0xFF80, 0x3F80)]).fl = fInv ∧ (bfP [(0xFF80, 0x3F80)]).val = 0xFF800000 ∧
    (blockP .bx8 .bx8 0x7F00 0x7F00 (64 * 64)).val = 0x3E800000 ∧ (blockP .bx8 .bx8 0xFF00 0x7F00 5).val = fNaN .f32 := by decide

/-- mask.cls of k ≤ q over one tile of 32 by 32, with room for one mask. -/
def bMask : Nat := 2 * 2 ^ 40 + 32 * 2 ^ 128 + 32 * 2 ^ 160 + 0x400 * 2 ^ 224 + 0x440 * 2 ^ 256 + 0x800 * 2 ^ 288 + 1 * 2 ^ 320 + 0x1000 * 2 ^ 512
theorem wit_mask_cls : startsB .jig 1 128 bMask [] = true ∧ (maskBody bMask).plen = 2 ∧ progBad 2 0 0 (maskBody bMask).words = none ∧
    constBad (maskBody bMask).consts = none ∧ (maskBody bMask).nb = 0 ∧ (maskBody bMask).geomOk = true ∧ zeroBad bMask 0 = none ∧
    areaBad (engS .jig 1 128 bMask []) ((engS .jig 1 128 bMask []).ctx 0) 0x400 1 4 = none ∧
    areaBad (engS .jig 1 128 bMask []) ((engS .jig 1 128 bMask []).ctx 0) 0x440 8 8 = none ∧
    areaBad (engS .jig 1 128 bMask []) ((engS .jig 1 128 bMask []).ctx 0) 0x800 512 16 = none := by decide +kernel
theorem test_mask_cls : ((todoOf .jig (.maskCls 0) (engS .jig 1 128 bMask [])).map fun l => l.map fun w => match w with
      | .put a _ n v => (a, n, v % 2 ^ 32)
      | .move .. | .read .. => (0, 0, 0)) = some [(0x400, 1, 1), (0x440, 8, 0x40000800), (0x800, 512, 1)] ∧
    outcome .jig (.maskCls 0) (runS .jig 1 128 bMask [] 2 [] []) = some (0, 0, 1) ∧
    outcome .jig (.maskCls 0) (engS .jig 1 128 (bMask - 2 ^ 320) []) = some (0x0702, 0, 1) ∧
    outcome .jig (.maskCls 0) (engS .jig 1 128 (bMask - 2 * 2 ^ 40) []) = some (0x0701, 5, 0) ∧
    outcome .jig (.maskCls 0) (engS .jig 1 128 (bMask + 0x8000 * 2 ^ 512) []) = some (0x0701, 1, 0) := by decide +kernel
/-- With document starts 0 and 40 over 64 rows and 32 columns, k ≤ q and the same document: two partial tiles. -/
def bDoc : Nat := 4 * 2 ^ 40 + 2 * 2 ^ 48 + 64 * 2 ^ 128 + 32 * 2 ^ 160 + 0x480 * 2 ^ 192 + 0x400 * 2 ^ 224 + 0x440 * 2 ^ 256 + 0x800 * 2 ^ 288 +
  2 * 2 ^ 320 + 0x1000 * 2 ^ 512 + 0x5000 * 2 ^ 528 + 0x6000 * 2 ^ 544
theorem wit_mask_docs : let s := engS .jig 1 128 bDoc [(0x484, 40, 4)]
    startsB .jig 1 128 bDoc [(0x484, 40, 4)] = true ∧ progBad 4 0 0 (maskBody bDoc).words = none ∧ constBad (maskBody bDoc).consts = none ∧
    (maskBody bDoc).nb = 2 ∧ areaBad s (s.ctx 0) 0x480 8 4 = none ∧ startBad [0, 40] = none ∧ startBad [4, 4] = some 1 ∧
    (maskBody bDoc).geomOk = true ∧ zeroBad bDoc 2 = none := by decide +kernel
theorem test_mask_docs : todoOf .jig (.maskCls 0) (engS .jig 1 128 bDoc [(0x484, 40, 4)]) = some [.read 0x480 8] ∧
    ((todoOf .jig (.maskCls 0) (runS .jig 1 128 bDoc [] 1 [] [0, 0, 0, 0, 40, 0, 0, 0])).map fun l => l.map fun w => match w with
      | .put a _ n v => (a, n, v % 256)
      | .move .. | .read .. => (0, 0, 0)) = some [(0x400, 1, 5), (0x440, 16, 0), (0x800, 512, 1), (0xA00, 512, 255)] := by decide +kernel
/-- R229, R230: over rows 32 to 63 and columns 0 to 31 k ≤ q is full, over rows 0 to 31 and columns 32 to 63 empty. -/
theorem wit_mask_sound : triRun { qlo := 32, qhi := 63, klo := 0, khi := 31, dqlo := 0, dqhi := 0, dklo := 0, dkhi := 0 } (fun _ => 0) [.kleq 0, .stop] = .t ∧
    triRun { qlo := 0, qhi := 31, klo := 32, khi := 63, dqlo := 0, dqhi := 0, dklo := 0, dkhi := 0 } (fun _ => 0) [.kleq 0, .stop] = .f ∧
    triRun { qlo := 0, qhi := 31, klo := 0, khi := 31, dqlo := 0, dqhi := 0, dklo := 0, dkhi := 0 } (fun _ => 0) [.kleq 0, .stop] = .u := by
  decide

/-- A header waits at a copy engine. -/
def inboxS : State := State.setEng { State.reset with ctxs := [(0, placedCtx)] } (engAt .copy 0 0) { Eng.reset with waiting := [cmdOf .copy 1] }
theorem wit_inbox : (inboxS.eng (engAt .copy 0 0)).waiting = [cmdOf .copy 1] ∧ (inboxS.eng (engAt .copy 0 0)).inbox.length < 8 ∧
    (inboxS.ctx 0).live = true ∧ (inboxS.ctx 0).resuming = false := by decide
theorem test_inbox : ((after (.inboxAccept (engAt .copy 0 0)) inboxS).eng (engAt .copy 0 0)).inbox.length = 1 ∧
    ((after (.inboxAccept (engAt .copy 0 0)) (inboxS.setEng (engAt .copy 0 0)
      { Eng.reset with waiting := [cmdOf .copy 1], inbox := List.replicate 8 (cmdOf .copy 1) })).eng (engAt .copy 0 0)).waiting.length = 1 := by
  decide
/-- A press and a sorter ask for leave in cycle 0: the press first, then the sorter where only 7 units are left. -/
def govS (held : Nat) (r : LeaveReq) : State :=
  { State.reset with cycles := 1, govs := [(0, { Gov.reset with held := held, queue := [(0, r)] })] }
theorem wit_leave_grant : ((govS 129 (.sorter 0 0 0)).gov 0).queue.length = 1 ∧ 0 < (govS 129 (.sorter 0 0 0)).cycles ∧
    ((govS 135 (.press (engAt .press 0 0))).gov 0).last = 0 := by decide
theorem test_leave_grant : ((after (.leaveGrant 0) (govS 135 (.press (engAt .press 0 0)))).gov 0).held = 136 ∧
    ((after (.leaveGrant 0) { govS 135 (.press (engAt .press 0 0)) with cycles := 0 }).gov 0).held = 135 ∧
    ((after (.leaveGrant 0) (govS 129 (.sorter 0 0 0))).gov 0).held = 129 ∧ ((after (.leaveGrant 0) (govS 128 (.sorter 0 0 0))).gov 0).held = 136 := by
  decide
/-- Requests of one cycle: the press stands before the sorter that asked first. -/
theorem wit_ask : ∀ y ∈ ({ Gov.reset with queue := [(4, .sorter 0 0 1), (5, .sorter 0 0 0)] } : Gov).queue, y.1 ≤ 5 := by decide
theorem test_ask : ((({ Gov.reset with queue := [(4, .sorter 0 0 1), (5, .sorter 0 0 0)] } : Gov).ask 5 (.press (engAt .press 0 0))).queue.map (·.2.rank)) =
    [1025, 0, 1024] := by decide
/-- A command that has ended with an outcome; one of a gather, whose class field names its latch; one of a node's chain. -/
def commitOf (e : EngRef) (k : Cmd) (o : CmdOut) (sp : SMap Byte) : State :=
  State.setEng { State.reset with ctxs := [(0, placedCtx)], sp := sp } e { Eng.reset with run := some (runOf k 0 0 .finished o) }
def commitS (o : CmdOut) : State := commitOf (engAt .copy 0 0) (cmdOf .copy 1) o []
theorem wit_commit : (commitS (.ok 3)).ctxWf = true ∧ smWf Eng.reset (commitS (.ok 3)).engs = true ∧
    ((commitS (.ok 3)).eng (engAt .copy 0 0)).run = some (runOf (cmdOf .copy 1) 0 0 .finished (.ok 3)) ∧
    ((commitS (.ok 3)).ctx 0).live = true ∧ (commitS (.ok 3)).relDone (runOf (cmdOf .copy 1) 0 0 .finished (.ok 3)) = true := by decide
theorem test_commit : ((after (.commitPoint (engAt .copy 0 0)) (commitS (.ok 3))).eng (engAt .copy 0 0)).run = none ∧
    ((after (.commitPoint (engAt .copy 0 0)) (commitS (.ok 3))).eng (engAt .copy 0 0)).commits = 1 ∧
    ((after (.commitPoint (engAt .copy 0 0)) (commitS (.bad 0x0206 3 0 9))).seq 0).faults = [{ reg := 0, code := 0x0206, reason := 3, report := 9 }] := by
  decide
def gathC : State := commitOf (engAt .gather 0 0) (cmdOf .gather 1) (.ok 1) []
def nodeC : State :=
  commitOf (engAt .copy 0 0) { cmdOf .copy 1 with from_ := { (cmdOf .copy 1).from_ with bySeq := false, agent := .pe 0 0 } } (.bad 0x0206 3 0 9) []
theorem wit_commit_cases : gathC.latch 0 0 = none ∧ (gathC.eng (engAt .gather 0 0)).run.map (·.phase) = some .finished ∧
    (nodeC.eng (engAt .copy 0 0)).run.map (fun r => (r.code, r.cmd.from_.bySeq)) = some (0x0206, false) ∧ nodeC.ctxWf = true ∧
    (nodeC.eng (engAt .copy 0 0)).run.map nodeC.relDone = some true := by decide
theorem test_commit_cases : ((after (.commitPoint (engAt .gather 0 0)) gathC).eng (engAt .gather 0 0)).cls = 0 ∧
    ((after (.commitPoint (engAt .copy 0 0)) nodeC).ctx 0).st = .retiring := by decide
/-- R193: what a copy.seg writes back, at its commit. -/
def backC : State := commitS { CmdOut.ok 2 with back := [.put 0x10C 1 8 1, .put 0x13C 1 2 5] }
theorem wit_commit_back : (backC.eng (engAt .copy 0 0)).run.map (·.back) = some [.put 0x10C 1 8 1, .put 0x13C 1 2 5] ∧ backC.spErr = [] := by decide
theorem test_commit_back : rdBytes (after (.commitPoint (engAt .copy 0 0)) backC).sp 0x10C 8 = 1 ∧
    rdBytes (after (.commitPoint (engAt .copy 0 0)) backC).sp 0x13C 2 = 5 := by decide +kernel
/-- The command names a follow-on at 0x200: a header of copy.lin, one that R82 refuses, and one of a full chain. -/
def nextC (raw chain : Nat) : State :=
  commitOf (engAt .copy 0 0) { cmdOf .copy 1 with
    hdr := { (cmdOf .copy 1).hdr with next := 0x200 }, from_ := { (cmdOf .copy 1).from_ with chain := chain } } (.ok 3) (wrBytes [] 0x200 raw 16)
def followH : Nat := 2 ^ 120 + 0x100 * 2 ^ 32
theorem wit_next : let s := nextC followH 0
    ((s.eng (engAt .copy 0 0)).run.map fun r => (r.phase, s.relDone r, r.code, r.cmd.hdr.next)) = some (.finished, true, 0, 0x200) ∧
    (s.eng (engAt .copy 0 0)).follow = none ∧ smWf Eng.reset s.engs = true ∧ ((after (.commitPoint (engAt .copy 0 0)) (commitS (.ok 3))).ctx 0).live = true ∧
    spSpanBad s (s.ctx 0) 0x200 16 = none ∧ (headerOf s (s.ctx 0) followH).isSome = true ∧ headerOf s (s.ctx 0) (2 ^ 127) = none ∧
    (match readSpan (s.ctx 0) 0x200 16 s with
      | .ok v _ => decide (v = followH)
      | .bad _ _ | .stall _ => false) = true := by decide +kernel
theorem test_next : (((after (.commitPoint (engAt .copy 0 0)) (nextC followH 0)).eng (engAt .copy 0 0)).follow.map fun k => (k.hdr.body, k.from_.chain)) =
      some (0x100, 1) ∧
    ((after (.commitPoint (engAt .copy 0 0)) (nextC (2 ^ 127) 0)).seq 0).faults = [{ reg := 0, code := 0x0401, reason := 0, report := 0x200 }] ∧
    ((after (.commitPoint (engAt .copy 0 0)) (nextC followH 64)).seq 0).faults = [{ reg := 0, code := 0x0401, reason := 0, report := 0x200 }] := by
  decide +kernel
def followS : State := State.setEng { State.reset with ctxs := [(0, placedCtx)] } (engAt .press 0 0) { Eng.reset with follow := some (cmdOf .copy 1) }
theorem wit_follow : (followS.eng (engAt .press 0 0)).follow = some (cmdOf .copy 1) ∧ smWf Eng.reset followS.engs = true ∧
    (followS.eng (engOf (followS.ctx 0) (cmdOf .copy 1).hdr)).inbox.length < 8 := by decide
theorem test_follow : ((after (.followOnDelivery (engAt .press 0 0)) followS).eng (engAt .copy 0 0)).inbox.length = 1 ∧
    ((after (.followOnDelivery (engAt .press 0 0)) followS).eng (engAt .press 0 0)).follow = none := by decide

/-! ## Contexts, the scheduler, drains and registers -/

/-- Context 0 in a state, with a token at the head of its channel, everything mapped and a load record at 0x40. -/
def rec1 : LoadRecord :=
  { lsize := 0, program := [0x94, 0, 0, 0], images := [], spaces := [], cm := [], pm := [], sys := 0x10, winDecl := [], winImage := [],
    ovStore := 0x100000, ovBase := 0, ovSize := 0, requires := 0, arrivers := [] }
def hostS (f : Ctx → Ctx) : State :=
  { State.reset with
    boot := { Boot.reset with stage := 5 }, ctxs := [(0, f { mapped Ctx.reset with st := .idle, en := true, egress := 0x1001 })],
    records := [(0x40, rec1)], tlb := [(0, [{ level := 0, ia := 0, pa := 0, w := true }])] }
def tokenS (st : CtxState) (t : List Word) : State := hostS fun x => { x with st := st, channel := [t] }
/-- A launch token: its region size and base, its record, seed 5, cookie 6. -/
def launchT (lsize base record : Word) : List Word := [1 + lsize <<< 16 + base <<< 32, record, 5, 0, 0, 0, 6, 0]
/-- The reason of the refusal that an instruction writes. -/
def refusedT (i : Instr) (s : State) : Nat := rdBytes (after i s).hostMem 0x1000 8
theorem wit_launch : (tokenS .idle (launchT 0 0 0x40)).nextToken 0 = some (launchT 0 0 0x40) ∧ tokByte (launchT 0 0 0x40) 0 = 1 ∧
    launchZero (launchT 0 0 0x40) = true ∧
    (match launchCheck 0 (.sched 0 false) (launchT 0 0 0x40) (tokenS .idle (launchT 0 0 0x40)) with
      | .ok _ u => u.ctxWf && decide ((u.ctx 0).st = .idle)
      | .refuse _ _ _ _ | .stall _ => false) = true ∧ tokByte (launchT 6 63 0) 2 = 6 ∧ tokByte (launchT 6 63 0) 4 % 2 ^ 6 ≠ 0 := by decide +kernel
theorem test_launch : ((after (.launch 0) (tokenS .idle (launchT 0 0 0x40))).ctx 0).queue.map (fun t => (t.seed, t.cookie, t.seqno)) = [(5, 6, 0)] ∧
    ((after (.launch 0) (tokenS .idle (launchT 0 0 0x40))).ctx 0).st = .queued ∧ ((after (.launch 0) (tokenS .idle (launchT 0 0 0x40))).ctx 0).channel = [] := by
  decide +kernel
/-- R308: reasons 1, 2, 2, 3; the token's word 0 is kind 2, code 0x0804 and the reason. -/
theorem test_launch_refused : refusedT (.launch 0) (tokenS .idle [0x99, 0, 0, 0, 0, 0, 0, 0]) = 0x108040002 ∧
    refusedT (.launch 0) (tokenS .idle (launchT 7 0 0x40)) = 0x208040002 ∧ refusedT (.launch 0) (tokenS .idle (launchT 6 63 0x40)) = 0x208040002 ∧
    refusedT (.launch 0) (tokenS .idle (launchT 0 0 0x41)) = 0x308040002 := by decide +kernel
def task1 : Task := taskOf (launchT 0 0 0x40) false
/-- A suspended context, and one that runs. -/
def suspS (t : List Word) : State := hostS fun x => { x with st := .suspended, cause := some .stop, task := some task1, channel := [t] }
theorem wit_tokens : (suspS [2, 0, 0, 0, 0, 0, 0, 0]).ctxWf = true ∧ (suspS [2, 0, 0, 0, 0, 0, 0, 0]).nextToken 0 = some [2, 0, 0, 0, 0, 0, 0, 0] ∧
    (∀ i ∈ List.range 64, i ≠ 0 → i ∉ [1] → tokByte [2, 0, 0, 0, 0, 0, 0, 0] i = 0) ∧
    (∀ i ∈ List.range 64, i ≠ 0 → i ∉ List.range' 48 8 → tokByte [5, 0, 0, 0, 0, 0, 9, 0] i = 0) ∧
    (∀ i ∈ List.range 64, i ≠ 0 → i ∉ List.range' 32 16 → tokByte [4, 0, 0, 0, 2, 1, 0, 0] i = 0) := by decide +kernel
theorem test_resume : ((after (.resume 0) (suspS [2, 0, 0, 0, 0, 0, 0, 0])).ctx 0).st = .queued ∧
    ((after (.resume 0) (suspS [0x102, 0, 0, 0, 0, 0, 0, 0])).ctx 0).queue.map (·.handler) = [true] ∧
    refusedT (.resume 0) (tokenS .idle [2, 0, 0, 0, 0, 0, 0, 0]) = 0x608040002 ∧
    refusedT (.resume 0) (tokenS .idle [0x202, 0, 0, 0, 0, 0, 0, 0]) = 0x108040002 := by decide +kernel
theorem test_retire : ((after (.retire 0) (suspS [3, 0, 0, 0, 0, 0, 0, 0])).ctx 0).st = .retiring ∧
    ((after (.retire 0) (suspS [3, 0, 0, 0, 0, 0, 0, 0])).ctx 0).ending.map (·.code) = some 0x0805 ∧
    refusedT (.retire 0) (tokenS .idle [3, 0, 0, 0, 0, 0, 0, 0]) = 0x608040002 := by decide +kernel
theorem test_stop : ((after (.stop 0) (tokenS .running [5, 0, 0, 0, 0, 0, 9, 0])).ctx 0).st = .draining ∧
    ((after (.stop 0) (tokenS .running [5, 0, 0, 0, 0, 0, 9, 0])).ctx 0).cookieStop = some 9 ∧
    refusedT (.stop 0) (tokenS .idle [5, 0, 0, 0, 0, 0, 9, 0]) = 0x608040002 := by decide +kernel
theorem test_mark : ((after (.mark 0) (tokenS .idle [4, 0, 0, 0, 2, 1, 0, 0])).ctx 0).tiles = 2 ∧
    ((after (.mark 0) (hostS fun x => { x with channel := [[4, 0, 0, 0, 2, 1, 0, 0]], trigen := 2 })).ctx 0).triggers = [1] := by decide +kernel

/-- A context that retires. -/
def retS : State := hostS fun x => { x with st := .retiring, ending := some { kind := 1, code := 0, reason := 0, value := 7, flags := 0, report := 0,
                                                                                extra := 0, cookie := 8, seqno := 9 } }
theorem wit_completion : retS.ctxWf = true ∧ smWf 0 retS.hostMem = true ∧ (retS.ctx 0).st = .retiring ∧ (retS.ctx 0).outbox = [] ∧
    (retS.ctx 0).task = none ∧ (retS.ctx 0).fab.accesses = [] ∧ retS.hasCmd 0 false = false ∧ ((retS.ctx 0).ecount - (retS.ctx 0).ehead).toNat < 64 ∧
    (retS.ctx 0).unmerged = 0 := by decide +kernel
theorem test_completion : rdBytes (after (.completionTokenWrite 0) retS).hostMem 0x1008 8 = 7 ∧
    rdBytes (after (.completionTokenWrite 0) retS).hostMem 0x1038 8 = 9 ∧ ((after (.completionTokenWrite 0) retS).ctx 0).ecount = 1 ∧
    ((after (.completionTokenWrite 0) retS).ctx 0).st = .idle ∧ (after (.completionTokenWrite 0) retS).vectors.getLsbD 0 = true := by decide +kernel

/-- A task is queued, on a free device. -/
def queuedS (f : Ctx → Ctx) : State := hostS fun x => f { x with st := .queued, queue := [task1] }
theorem wit_place : State.reset.topTask = none ∧ (queuedS id).topTask = some (0, task1) ∧ ((queuedS id).ctx 0).saved = none ∧
    (queuedS id).sec.installing = 0 ∧
    (match taskCheck 0 (.sched 0 true) task1 (queuedS id) with
      | .ok r u => decide (r = rec1) && u.ctxWf && smWf 0 u.sp && decide (u.pickBlock 0 task1 [] = some 0)
      | .refuse _ _ _ _ | .stall _ => false) = true ∧ task1.wtab = 0 ∧ rec1.images = [] ∧ rec1.program.length ≤ 2 ^ 24 := by decide +kernel
theorem test_place : ((after .taskPlace (queuedS id)).ctx 0).st = .running ∧ ((after .taskPlace (queuedS id)).seq 0).pc = 0 ∧
    smGet 0 (after .taskPlace (queuedS id)).sp 0 = 0x94 ∧ (after .taskPlace State.reset).sp = [] := by decide +kernel
/-- A task that was saved with one byte of scratchpad. -/
def saved1 : ClusterData :=
  { sp := [(5, 6)], nodes := [], planes := [], hold := [], tagtab := [], acc := [], csrow := [], cscol := [], active := [], engs := [], latches := [],
    carve := 0xFF0000, frame := 0x500000, spOff := 256 }
def savedS : State :=
  { queuedS fun x => { x with
      saved := some saved1, queue := [{ task1 with placed := true }], seq := { x.seq with epc := 0x40, regs := [(1, 3)], phase := .stopped } } with
    hbm := [(0x500105, 9)] }
/-- Where the units of its frame are found that a restore needs. -/
def framePlace (i : Nat) : Option Nat := some (0x500000 + i * 2 ^ 16)
theorem wit_restore : savedS.ctxWf = true ∧ savedS.topTask = some (0, { task1 with placed := true }) ∧ (savedS.ctx 0).saved = some saved1 ∧
    (savedS.ctx 0).lsize = task1.lsize ∧ (savedS.ctx 0).later = [] ∧
    (headerWait 0 (savedS.imagesOf 0 { task1 with placed := true }) savedS).isSome = false ∧
    savedS.pickBlock 0 { task1 with placed := true } (savedS.imagesOf 0 { task1 with placed := true }) = some 0 ∧ savedS.hbmErr = [] ∧
    256 + (2 ^ 24 - 0xFF0000) * 1 ≤ frameBytes (2 ^ task1.lsize) ∧ smWf 0 savedS.sp = true ∧ smWf 0 saved1.sp = true ∧
    (∀ e ∈ saved1.sp, e.1 < 2 ^ task1.lsize * 2 ^ 24) ∧
    ∀ i < 2, ((savedS.ctx 0).toIa true false (0x500000 + i * 2 ^ 16) matches .ok _) ∧
      savedS.tlbLook (0x500000 + i * 2 ^ 16) false = framePlace i := by decide +kernel
theorem test_restore : smGet 0 (after .taskPlace savedS).sp 5 = 9 ∧ ((after .taskPlace savedS).seq 0).pc = 0x40 ∧
    ((after .taskPlace savedS).seq 0).rd 1 = 3 ∧ ((after .taskPlace savedS).ctx 0).st = .running := by decide +kernel
/-- A region of 64 clusters runs with priority 0, and a task of priority 2 is queued. -/
def fullS (p : Nat) : State :=
  let s := hostS fun x => { x with st := .running, lsize := 6, task := some { task1 with lsize := 6, held := p } }
  { s with ctxs := s.ctxs ++ [(1, { Ctx.reset with st := .queued, queue := [{ task1 with prio := 2 }] })] }
theorem wit_preempt : (fullS 1).ctxWf = true ∧ (fullS 1).topTask = some (1, { task1 with prio := 2 }) ∧ (fullS 1).preempt = true ∧
    (∀ j ∈ blocksOf 0, (fullS 1).blockFree 1 j = false) ∧ (fullS 1).yields 1 2 0 = true ∧ (fullS 2).yields 1 2 0 = false := by decide +kernel
theorem test_preempt : ((after .preemptRequest (fullS 1)).ctx 0).st = .draining ∧ ((after .preemptRequest (fullS 2)).ctx 0).st = .running ∧
    ((after .preemptRequest (fullS 1)).ctx 0).cause = some .priority := by decide +kernel

/-- A drained region of one cluster, its sequencer stopped; 25 or 24 MiB of save area, in a host window. -/
def drainS (save : Word) (c : DrainCause) : State :=
  let s := hostS fun x => { x with
    st := .draining, cause := some c, save := save, task := some task1, seq := { x.seq with phase := .stopped }
    fab := { x.fab with draining := true }, rngB := [(0, 0x740000000)] }
  { s with wa := [(0, 0xC000000000000000)] }
theorem wit_drain : (drainS 0x100190 .priority).ctxWf = true ∧ (drainS 0x100190 .priority).allFrozen ((drainS 0x100190 .priority).ctx 0) = true ∧
    (drainS 0x100190 .priority).restAtRest 0 = true ∧ bits (0x100190 : Word).toNat 15 4 = 25 ∧
    saveEcc ((drainS 0x100190 .priority).ctx 0) (drainS 0x100190 .priority) = (none, drainS 0x100190 .priority) ∧
    ((drainS 0x100190 .priority).ctx 0).seq.phase = .stopped ∧ ((drainS 0x100190 .priority).ctx 0).unmerged = 0 ∧
    (drainS 0x100190 .page).restAtRest 0 = true ∧ ((drainS 0x100190 .page).ctx 0).faultGo = false ∧
    ((drainS 0x100190 .priority).exitedGate 0 = none) := by decide +kernel
/-- The state of a drained region whose save area lies in a host window, after stores to it. -/
def drained (p : List Posted) (i f : Nat) : State :=
  { (drainS 0x100190 .priority).modFab 0 fun x => { x with nextId := i } with posted := p, frees := f }
def inArea (va : Nat) : Bool :=
  match ((drainS 0x100190 .priority).ctx 0).toIa false true va with
  | .ok ia => inWindow ia && decide (windowOf ia = 0)
  | .error _ => false
theorem area_all : ((List.range 400).all fun i => inArea (0x100000 + i * 2 ^ 16)) = true ∧
    ((List.range 32).all fun i => inArea (0x100000 + 8 * i)) = true := by decide +kernel
theorem area_units : ∀ (l : List Nat) (p : List Posted) (i f : Nat), (∀ j ∈ l, inArea (0x100000 + j * 2 ^ 16) = true) →
    frameUnits 0 0x100000 true l (drained p i f) = (l.map fun j => (j, .window), drained p i f)
  | [], _, _, _, _ => rfl
  | j :: l, p, i, f, h => by
    have hj : frameUnit 0 0x100000 j true (drained p i f) = (.window, drained p i f) := by
      have h0 := h j (by simp)
      unfold inArea at h0
      unfold frameUnit
      rw [show ((drained p i f).ctx 0).toIa (!true) true (0x100000 + j * 2 ^ 16) =
        ((drainS 0x100190 .priority).ctx 0).toIa false true (0x100000 + j * 2 ^ 16) from rfl]
      cases hv : ((drainS 0x100190 .priority).ctx 0).toIa false true (0x100000 + j * 2 ^ 16) with
      | error e => rw [hv] at h0; exact absurd h0 Bool.false_ne_true
      | ok ia =>
        rw [hv] at h0
        simp only [Bool.and_eq_true, decide_eq_true_eq] at h0
        simp only [h0.1, if_true]
    simp only [frameUnits, hj, List.map_cons, area_units l p i f fun k hk => h k (List.mem_cons_of_mem _ hk)]
theorem area_words : ∀ (ws : List Word) (va : Nat) (p : List Posted) (i f : Nat), (∀ k, k < ws.length → inArea (va + 8 * k) = true) →
    ∃ q j, writeVaWords 0 va ws (drained p i f) = (drained q j f, true)
  | [], _, p, i, _, _ => ⟨p, i, rfl⟩
  | w :: ws, va, p, i, f, h => by
    have h0 := h 0 (by simp)
    unfold inArea at h0
    unfold writeVaWords
    rw [show ((drained p i f).ctx 0).toIa false true va = ((drainS 0x100190 .priority).ctx 0).toIa false true va from rfl]
    rw [show va + 8 * 0 = va from rfl] at h0
    cases hv : ((drainS 0x100190 .priority).ctx 0).toIa false true va with
    | error e => rw [hv] at h0; exact absurd h0 Bool.false_ne_true
    | ok ia =>
      rw [hv] at h0
      simp only [Bool.and_eq_true, decide_eq_true_eq] at h0
      have hw : windowCheck 0 ia (drained p i f) = .ok 2 (drained p i f) := by
        have hk : (drained p i f).windowKind 0 = some 2 := by
          show (drainS 0x100190 .priority).windowKind 0 = some 2
          decide +kernel
        simp [windowCheck, h0.2, hk, State.routeUp]
      simp only [h0.1, if_true, hw]
      exact area_words ws (va + 8) _ (i + 1) f fun k hk => by
        rw [show va + 8 + 8 * k = va + 8 * (k + 1) by omega]
        exact h (k + 1) (by simpa using hk)
theorem frame_of (c : Nat) (s t r : State) (us : List (Nat × FrameUnit))
    (h1 : frameUnits c (bits (s.ctx c).save.toNat 47 16 * 2 ^ 16) true ((frameRange (s.ctx c).size).filter fun i =>
      (s.spSectionOf (s.ctx c)).needs i || (Config.unstated (s.frees + 20)).getLsbD 0) { s with frees := s.frees + 21 } = (us, t))
    (h2 : (us.findSome? fun e => e.2.saveBad) = none)
    (h3 : writeVaWords c (bits (s.ctx c).save.toNat 47 16 * 2 ^ 16) (frameHeader (s.ctx c) (s.spSectionOf (s.ctx c)) s.frees) t = (r, true))
    (h4 : ∀ z sp, us.foldl (saveUnit z sp) r = r) : writeFrame c s = (r, none) := by
  unfold writeFrame
  simp only [h1, h2, h3, h4, if_true]
theorem window_unsaved (z : SpSection) (sp : SMap Byte) (t : State) : ∀ l : List Nat,
    (l.map fun j => (j, FrameUnit.window)).foldl (saveUnit z sp) t = t
  | [] => rfl
  | _ :: l => window_unsaved z sp t l
theorem window_none : ∀ l : List Nat, ((l.map fun j => (j, FrameUnit.window)).findSome? fun e => e.2.saveBad) = none
  | [] => rfl
  | _ :: l => window_none l
theorem wit_frame_written : ∃ q j, writeFrame 0 (drainS 0x100190 .priority) = (drained q j 21, none) := by
  obtain ⟨ha, hb⟩ := area_all
  have hs : (drainS 0x100190 .priority).frees = 0 := rfl
  have hx : bits ((drainS 0x100190 .priority).ctx 0).save.toNat 47 16 * 2 ^ 16 = 0x100000 := by decide +kernel
  have hz : ((drainS 0x100190 .priority).ctx 0).size = 1 := by decide +kernel
  have h21 : { drainS 0x100190 .priority with frees := (drainS 0x100190 .priority).frees + 21 } = drained [] 0 21 := by decide +kernel
  obtain ⟨q, j, hw⟩ := area_words (frameHeader ((drainS 0x100190 .priority).ctx 0)
      ((drainS 0x100190 .priority).spSectionOf ((drainS 0x100190 .priority).ctx 0)) 0) 0x100000 [] 0 21
    fun k hk => List.all_eq_true.mp hb k (List.mem_range.mpr (by simpa [frameHeader] using hk))
  refine ⟨q, j, frame_of 0 _ (drained [] 0 21) _ (((frameRange 1).filter fun i =>
    ((drainS 0x100190 .priority).spSectionOf ((drainS 0x100190 .priority).ctx 0)).needs i || (Config.unstated 20).getLsbD 0).map
      fun j => (j, FrameUnit.window)) ?_ ?_ ?_ ?_⟩
  · rw [hs, hx, hz, ← hs, h21, hs]
    exact area_units _ [] 0 21 fun j hj => List.all_eq_true.mp ha j (List.mem_filter.mp hj).1
  · exact window_none _
  · rw [hs, hx]; exact hw
  · exact fun z sp => window_unsaved z sp _ _
theorem test_save_area : ((after (.drainComplete 0) (drainS 0x100180 .priority)).ctx 0).ending.map (·.code) = some 0x0806 := by decide +kernel

theorem wit_enable : (State.reset.ctx 0).st = .free ∧ (hostS id).boot.stage = 5 ∧ (hostS id).boot.minimal = false ∧ (hostS id).hostBusy 1 = false ∧
    (hostS id).boot.tripped = false := by decide +kernel
theorem test_enable : ((after (.ctxCtlEn 1 true) (hostS id)).ctx 1).st = .idle ∧ ((after (.ctxCtlEn 0 false) (hostS id)).ctx 0).st = .free ∧
    ((after (.ctxCtlEn 0 false) (tokenS .running [])).ctx 0).st = .running := by decide +kernel
def bindS : State := hostS fun x => { x with tbinds := [{ tile := 3, token := some [1, 2] }], binds := [(4, [9])] }
theorem wit_bind : bindS.ctxWf = true ∧ (bindS.ctx 0).tbinds = [{ tile := 3, token := some [1, 2] }] ∧ (bindS.ctx 0).triggers = [] ∧
    smWf [] (bindS.ctx 0).binds = true := by decide +kernel
theorem test_bind : ((after (.tbindCommit 0) bindS).ctx 0).binds = [(3, [1, 2]), (4, [9])] ∧ ((after (.tbindCommit 0) bindS).ctx 0).tbinds = [] := by
  decide +kernel
def goS (st : CtxState) : State := hostS fun x => { x with st := st, faultPend := true, cause := some .page, task := some task1 }
theorem wit_go : (goS .suspended).hostBusy 1 = false ∧ ((goS .suspended).ctx 0).faultPend = true ∧ ((goS .suspended).ctx 0).task = some task1 := by
  decide +kernel
theorem test_go : ((after (.faultGo 0 1) (goS .suspended)).ctx 0).st = .queued ∧ ((after (.faultGo 0 1) (goS .draining)).ctx 0).faultGo = true ∧
    ((after (.faultGo 0 1) (goS .suspended)).ctx 0).faultPend = false := by decide +kernel

theorem wit_registers : (0x200050 : BitVec 26).toNat = 0x200000 + 0 * 0x1000 + 0x050 ∧ ((hostS id).ctx 0).st = .idle ∧ (hostS id).ctxWf = true ∧
    (hostS id).anyLaunched = false ∧ (hostS id).sec.busy = false ∧ (0x1007F0 : BitVec 26).toNat = 0x100400 + 16 * 63 := by decide +kernel
theorem test_context_registers : ((after (.registerWrite 0x200050 0x123456789ABCDFFF) (hostS id)).ctx 0).egress = 0x123456789ABCD001 ∧
    ((after (.registerWrite 0x200050 0) (tokenS .running [])).ctx 0).egress = 0x1001 ∧
    ((after (.registerWrite 0x200050 0) (tokenS .running [])).ctx 0).late = true ∧
    smGet 0 ((after (.registerWrite 0x2001F8 0xFFFFFFFFFFFFFFFF) (hostS id)).ctx 0).rngB 15 = 0x7FFFFFFFF ∧
    smGet 0 ((after (.registerWrite 0x200258 0xFFFFFFFFFFFFFFFF) (hostS id)).ctx 0).sbp 3 = 0x8000FFFF3FFFFFFC := by decide +kernel
theorem test_device_registers : (after (.registerWrite 0x101000 0xFFFFF) (hostS id)).etype = 0xFFFF ∧
    (after (.registerWrite 0x020 3) (hostS id)).pwin = true ∧ smGet 0 (after (.registerWrite 0x1007F0 0xFFFFFFFFFFFFFFFF) (hostS id)).wa 63 = 0xE00FFF00000000FF ∧
    (after (.registerWrite 0x1007F0 1) (tokenS .running [])).wa = [] ∧ (after (.registerWrite 0x10000 0x1200000005) (hostS id)).sec.op = 5 ∧
    (after (.registerWrite 0x10000 0x1200000005) (hostS id)).sec.arg = 0x12 := by decide +kernel
/-- The debug block is unlocked, and the selection names bit 3 of the word of index 2. -/
def debugS : State := { hostS id with sec := { Sec.reset with unlocked := true }, fiSel := BitVec.ofNat 64 (2 * 8 + 3 * 2 ^ 58) }
theorem wit_inject : debugS.sec.unlocked = true ∧ debugS.fmask.getLsbD 12 = false ∧ bits debugS.fiSel.toNat 29 3 = 2 ∧ bits debugS.fiSel.toNat 63 58 = 3 ∧
    smWf 0 debugS.spErr = true ∧ (0x8000000000000003 : Word).getLsbD 63 = true ∧ bits (0x8000000000000003 : Word).toNat 3 0 = 3 := by decide +kernel
theorem test_inject : (after (.faultInjectionArm 0x8000000000000003) debugS).sp = [(16, 8)] ∧
    (after (.faultInjectionArm 0x8000000000000003) debugS).spErr = [(2, 8)] ∧ (after (.faultInjectionArm 0x8000000000000003) (hostS id)).sp = [] := by
  decide +kernel
theorem test_register_reads : (hostS id).regRead 0x200050 = 0x1001 ∧ (hostS id).regRead 0x101000 = 0x88B5 ∧ (hostS id).regRead 0x30000 = 1 ∧
    ({ hostS id with boot := { Boot.reset with minimal := true } }).regRead 0x200050 = 0 ∧ (hostS id).regRead 0x2001F0 = 0 ∧
    (hostS id).regRead 0x200100 = 0xFFFFFFFF00000000 := by decide +kernel

/-! ## The host, links, security and boot -/

/-- The device runs; everything below 512 MiB maps to itself. -/
def h0 : State := hostS id
theorem wit_host_write : h0.boot.minimal = false ∧ h0.boot.tripped = false ∧ 2 ≤ h0.boot.stage ∧ h0.credit 1 = true ∧ h0.credit 4096 = true ∧
    h0.pwin = false ∧ h0.boundCell (enabled 0x100 [some 5]) = none := by decide +kernel
/-- A held write of two bytes, the first enabled, to 0x100; through the physical window where it is set. -/
def held1 : State := after (.hostPostedWrite 1 (.physical 0x100 [some 5, none])) { h0 with pwin := true }
theorem wit_host_forward : held1.hostWrs[0]? = some { req := 1, write := .physical 0x100 [some 5, none], forwarded := false, acks := [] } ∧
    held1.heldBack 0 { req := 1, write := .physical 0x100 [some 5, none], forwarded := false, acks := [] } = false ∧
    held1.postedBytes true + 2 ≤ 524288 ∧ enabled 0x100 [some 5, none] ≠ [] ∧ smWf 0 held1.hbm = true ∧ held1.hbmErr = [] ∧
    (after (.hostWriteForward 0) held1).hostWrs[0]? = some { req := 1, write := .physical 0x100 [some 5, none], forwarded := true, acks := [0] } := by
  decide +kernel
theorem test_host_write : (after (.hostPostedWrite 1 (.physical 0x100 [some 5])) h0).hostWrs = [] ∧
    (after (.hostPostedWrite 1 (.memory 0x100 [some 5])) h0).hostWrs.length = 1 ∧
    (after (.homeAcknowledgement 0 0) (after (.hostWriteForward 0) held1)).hbm = [(0x100, 5)] ∧
    (after (.homeAcknowledgement 0 0) (after (.hostWriteForward 0) held1)).hostWrs = [] := by decide +kernel
theorem wit_host_read : h0.hostBusy 1 = false ∧ held1.hostBusy 1 = true ∧ held1.hostBusy 2 = false ∧ (0x200050 : BitVec 46).toNat + 8 ≤ 2 ^ 26 := by
  decide +kernel
theorem test_host_read : (after (.hostRead 1 .registers 0x200050 8) h0).lastReply = some (.data [1, 0x10, 0, 0, 0, 0, 0, 0]) ∧
    (after (.hostRead 1 .physical 0x100 2) { h0 with hbm := [(0x101, 9)] }).lastReply = some (.data [0, 9]) ∧
    (after (.hostRead 1 .physical 0x100 2) held1).lastReply = none ∧ (after (.hostAtomicRequest 1 0x100) h0).lastReply = some .unsupported := by
  decide +kernel
/-- A context binds the unit at 0x10000. -/
def boundS : State := { h0 with ctxs := [(0, binds placedCtx)] }
theorem wit_peer : h0.memOn = true ∧ State.reset.memOn = false ∧ h0.tlbLook 0x100 false = some 0x100 ∧ h0.regionOf 0x100 = none ∧
    h0.tlbLook 0 true = some 0 ∧ (boundS.boundCell [(0x10000, 5)]).isSome = true ∧ boundS.memOn = true ∧
    h0.boundCell [(0x100, 5)] = none := by decide +kernel
theorem test_peer : (after (.peerAccess 0x100 (some [7]) 0) h0).hbm = [(0x100, 7)] ∧
    (after (.peerAccess 0x101 none 1) { h0 with hbm := [(0x101, 9)] }).lastReply = some (.data [9]) ∧
    (after (.peerAccess 0x10000 (some [7]) 0) boundS).hbm = [] ∧ (after (.peerAccess 0x10000 (some [7]) 0) boundS).lastReply = some .unsupported ∧
    (after (.peerAccess 0x100 none 1) State.reset).lastReply = some .unsupported := by decide +kernel
/-- A posted store of a context, and of an edge adder, into a host window, that maps to host address 0. -/
def postedS (c : Nat) : State :=
  { hostS id with wa := [(0, 0xC000000000000000)], posted := [{ id := 1, ctx := c, die := 0, ia := 0x40 * 2 ^ 40 + 8, bytes := [7], acc := 1, firing := none, done := false, foot := [], src := 0 }] }
theorem wit_posted : (postedS 0).posted[0]? = some { id := 1, ctx := 0, die := 0, ia := 0x40 * 2 ^ 40 + 8, bytes := [7], acc := 1, firing := none, done := false, foot := [], src := 0 } ∧
    (postedS 0).canAck { id := 1, ctx := 0, die := 0, ia := 0x40 * 2 ^ 40 + 8, bytes := [7], acc := 1, firing := none, done := false, foot := [], src := 0 } = true ∧
    (postedS 0).windowKind 0 = some 2 ∧ h0.windowKind 0 = none := by decide +kernel
theorem test_posted : (after (.peerStoreAcknowledgement 0) (postedS 0)).hostMem = [(8, 7)] ∧ (after (.peerStoreAcknowledgement 0) (postedS 0)).posted = [] ∧
    ((after (.linkRemoteRefusal 0) { postedS 0 with ctxs := [(0, placedCtx)] }).ctx 0).ending.map (·.code) = some 0x0903 ∧
    (after (.linkRemoteRefusal 0) (postedS 64)).lastReply = some .unsupported := by decide +kernel
def portS (p : LinkPort) : State := { h0 with ports := [(3, p)] }
theorem wit_ports : smWf LinkPort.reset (portS { LinkPort.reset with up := true }).ports = true ∧
    ((portS { LinkPort.reset with up := true, fails := 16 }).port 3).fails = 16 ∧ (h0.port 3).up = false ∧
    ((portS { LinkPort.reset with down := true }).port 3).down = true ∧ smWf EthPort.reset h0.eths = true := by decide +kernel
/-- R351: a flit's first transmission and 16 replays have failed at the 17th failure in a row; another flit's failure is its
first. -/
theorem test_ports : failCount 16 0 = flitFailures ∧ failCount 16 1 = 1 ∧
    crcNext 0xFFFF = 0xFFFF ∧ crcNext 7 = 8 ∧
    ((after (.flitCrcFailure 3) (portS { LinkPort.reset with up := true, fails := 14 })).port 3).down = false ∧
    ((after (.laneLockLoss 3) (portS { LinkPort.reset with up := true })).port 3).downs = 1 ∧
    ((after (.portRetrain 3) (portS { LinkPort.reset with down := true })).port 3).down = false ∧
    ((after (.portTrained 3 2) h0).port 3).lanes = 2 := by
  refine ⟨by decide, by decide, by decide, by decide, ?_, by decide +kernel, by decide +kernel, by decide +kernel⟩
  have h : ∀ w : Word, failCount 14 w < flitFailures := by intro w; unfold failCount; split <;> decide
  have h2 : ∀ w, ¬ flitFailures ≤ failCount 14 w := fun w => Nat.not_le.mpr (h w)
  simp [after, exec, execFlitCrcFailure, portS, State.port, smGet, State.setPort, h2]
  rfl
theorem test_ctt : failCount 63 0 = frameRetries ∧ failCount 62 0 < frameRetries ∧ failCount 63 1 = 1 := by decide
/-- An edge adder of 64 bytes at 0x1000 that writes locally, its partial sums at 0x2000. -/
def edgeS : State := { h0 with
  eaa := [(0, 0xC000000000001000)], eab := [(0, 0x0001000000002000)], hbm := wrBytes [] 0x2004 0x40000000 4
  tlb := [0, 1, 2, 3, 4, 5, 6, 7].map fun d => (d, [{ level := 0, ia := 0, pa := 0, w := true }]) }
theorem wit_edge : edgeS.memOn = true ∧ (smGet 0 edgeS.eaa 0).getLsbD 63 = true ∧ bits (smGet 0 edgeS.eaa 0).toNat 47 6 * 64 = 0x1000 ∧
    bits (smGet 0 edgeS.eab 0).toNat 63 48 * 64 = 64 ∧
    (match homeRead 0x2004 4 edgeS with
      | .data l _ => decide (l = [0, 0, 0, 0x40])
      | _ => false) = true := by decide +kernel
/-- 1.0 + 2.0; at the end of the range and beyond it. -/
theorem test_edge : rdBytes (after (.edgeAdderStore 0 0x1004 [0, 0, 0x80, 0x3F]) edgeS).hbm 0x1004 4 = 0x40400000 ∧
    rdBytes (after (.edgeAdderStore 0 0x103C [0, 0, 0x80, 0x3F]) edgeS).hbm 0x103C 4 = 0x3F800000 ∧
    rdBytes (after (.edgeAdderStore 0 0x1040 [1, 2, 3, 4]) edgeS).hbm 0x1040 4 = 0x04030201 := by decide +kernel

/-- A command stands in the mailbox. -/
def secS (op arg : Nat) (f : Sec → Sec) : State := (fun c => { h0 with sec := { c with taken := c.buffer } }) (f { Sec.reset with busy := true, op := op, arg := arg })
/-- Whether a signature verifies is a free value: each clause about one that does, or does not, is met for one of the two. -/
theorem wit_signatures (c : Sec) (n sig : List Byte) : c.ownerSigned n sig = true ∨ c.ownerSigned n sig = false := by
  cases c.ownerSigned n sig <;> simp
/-- A header of kind 2, slot 0, version 3, of a body of one byte. -/
def image1 : FwImage :=
  { header := toBytes (0x57464D49 + 2 * 2 ^ 32 + 1 * 2 ^ 48 + 3 * 2 ^ 64 + 1 * 2 ^ 128) 256, body := [0x55] }
theorem wit_image : image1.legal = true ∧ image1.kind = 2 ∧ image1.version = 3 ∧ (Sec.reset.slot 0).enabled = true ∧ (Sec.reset.slot 1).enabled = false ∧
    ((secS 1 0 fun c => c.putBytes 0 (image1.header ++ image1.body)).sec.bufImage.map (·.version)) = some 3 ∧
    (secS 1 0 fun c => c.putBytes 16 [0, 0, 1]).sec.bufImage = none ∧ (secS 1 0 id).sec.installing = 0 := by decide +kernel
theorem test_load_refused : (after .loadFirmware (secS 1 0 fun c => c.putBytes 16 [0, 0, 1])).sec.err = 7 ∧
    (after .loadFirmware (secS 1 0 id)).sec.err = 2 ∧
    (after .loadFirmware (secS 1 0 fun c => { c.putBytes 0 (image1.header ++ image1.body) with slots := [] })).sec.err = 4 := by decide +kernel
/-- An image of kind 4 waits to be installed. -/
def installS (st : CtxState) : State :=
  { hostS fun x => { x with st := st } with sec := { Sec.reset with busy := true, installing := 1, flash := [(8, some { image1 with
    header := image1.header.set 4 4 })] } }
theorem wit_install : (installS .idle).sec.installing = BitVec.ofNat 8 (2 ^ 0) ∧ ((installS .idle).sec.copy 4 0).map (·.kind) = some 4 ∧
    smWf none (installS .idle).sec.installed = true ∧ (installS .idle).anyLaunched = false ∧ (installS .running).anyLaunched = true := by
  decide +kernel
theorem test_install : (after (.firmwareInstallation 4) (installS .idle)).sec.busy = false ∧
    ((smGet none (after (.firmwareInstallation 4) (installS .idle)).sec.installed 4).map (·.kind)) = some 4 ∧
    (after (.firmwareInstallation 4) (installS .running)).sec.busy = true := by decide +kernel
theorem wit_authorised : smWf KeySlot.none (secS 2 1 id).sec.slots = true ∧ ((secS 2 1 id).sec.slot 1).key = [] ∧ (secS 2 1 id).sec.claimed = false ∧
    (secS 9 0 id).anyLaunched = false ∧ (tokenS .running []).anyLaunched = true ∧ (secS 4 0x302 id).sec.arg / 2 ^ 8 % 2 ^ 24 = 3 ∧
    (secS 4 0x302 id).sec.copy 2 0 = none := by decide +kernel
theorem test_authorised_refused : (after .enrolKey (secS 2 0 id)).sec.err = 4 ∧ (after .enrolKey (secS 2 4 id)).sec.err = 4 ∧
    (after .disableSlot (secS 3 1 id)).sec.err = 4 ∧ (after .disableSlot (secS 3 0 id)).sec.err = 2 ∧ (after .writeFmask (secS 9 1 id)).sec.err = 2 ∧
    (after .raiseFloor (secS 4 0x302 id)).sec.err = 2 ∧
    (after .raiseFloor { secS 4 0x302 id with boot := { Boot.reset with minimal := true } }).sec.err = 5 := by decide +kernel
theorem wit_debug : (secS 7 0 id).sec.nonce = none ∧ (secS 7 0 fun c => { c with nonce := some [1] }).sec.nonce = some [1] ∧
    smWf 0 (secS 5 0 id).sec.buffer = true := by decide +kernel
theorem test_debug : (after .debugUnlock (secS 7 0 id)).sec.err = 5 ∧ (after .debugUnlock (secS 7 0 fun c => { c with nonce := some [1] })).sec.err = 2 ∧
    (after .debugLock (secS 8 0 fun c => { c with unlocked := true })).sec.unlocked = false ∧
    (after .debugChallenge (secS 6 0 id)).sec.nonce.isSome = true := by decide +kernel
/-- R357: no copy of kind 3 in flash; a fourth start after three counted failures. -/
theorem wit_reset : h0.boot.tripped = false ∧ h0.sec.copy 3 0 = none ∧ h0.sec.copy 3 1 = none ∧
    (∀ n : Nat × Nat, n.1 < 4 → (n.1 < 4 ∨ 7 < n.1)) := ⟨by decide +kernel, by decide +kernel, by decide +kernel, fun _ h => .inl h⟩
theorem test_reset : (after .reset { h0 with boot := { Boot.reset with fails := 3 } }).boot.minimal = true ∧
    (after .reset { h0 with boot := { Boot.reset with fails := 3 }, hostMem := [(1, 2)], fmask := 5 }).hostMem = [(1, 2)] ∧
    (after .reset { h0 with boot := { Boot.reset with fails := 3 }, hostMem := [(1, 2)], fmask := 5 }).ctxs = [] ∧
    (after .bootTimeout { h0 with boot := { Boot.reset with stage := 2 } }).boot.cause = 7 ∧ (after .bootTimeout h0).boot.stage = 5 := by
  decide +kernel
theorem wit_thermal : smWf Gov.reset h0.govs = true ∧ (∀ o, o < 8 → (h0.gov o).temp < 16 * 80) := by decide +kernel
theorem test_thermal : ((after (.thermalSample 0 1520) h0).gov 0).halved = true ∧ ((after (.thermalSample 0 1519) h0).gov 0).halved = false ∧
    ((after (.thermalSample 0 1680) h0).gov 0).stopped = true ∧ (after (.thermalSample 0 1840) h0).boot.tripped = true ∧
    (after (.thermalSample 0 1840) h0).boot.trips = 1 ∧ (after (.thermalSample 0 1280) { h0 with boot := { Boot.reset with tripped := true } }).boot.tripped = true := by
  decide +kernel
theorem wit_telemetry : h0.memOn = true ∧ h0.hbmErr = [] ∧ smWf 0 h0.hbm = true := by decide +kernel
theorem test_telemetry : (after .telemetrySnapshot h0).telGen = 1 ∧ (after .telemetrySnapshot h0).telCopy = true ∧
    (after .telemetrySnapshot State.reset).telGen = 0 := by decide +kernel

/-! ## Steps -/

/-- The agenda names the sequencer of context 0, whose word at pc 0 is yield; or is empty of a legal word; or names a firing. -/
def stepS : State := State.withFetchWord State.reset 32 0x94000000
theorem wit_step : stepS.agenda = [.seq 0] ∧ (stepS.ctx 0).seqRuns = true ∧ stepS.spErr = [] ∧ (stepS.ctx 0).seq.pc.toNat < 2 ^ 30 ∧
    (stepS.ctx 0).inBlock ((stepS.ctx 0).spAddr 0 / 2 ^ 24) = true ∧ stepS.carved ((stepS.ctx 0).spAddr 0 + 3) = false ∧
    decodeSeq (rdBytes stepS.sp 0 4) = .ok .yield ∧ stepS.memWf = true ∧ stepS.ctxWf = true ∧ stepS.regWf = true := by decide +kernel
/-- What a step gives; the state before it where it gives none. -/
def stepOf (s : State) : State :=
  match step s with
  | .next t => t
  | .fault _ | .refused _ => s
theorem test_step : ((stepOf stepS).seq 0).pc = 4 ∧ (stepOf stepS).cur = .none ∧
    ((stepOf (State.withFetchWord State.reset 32 0xFC000000)).seq 0).cause = 0x0401 ∧
    ((stepOf { stepS with ctxs := [(0, { placedCtx with seq := { Seq.reset with pc := 0x40000000 } })] }).seq 0).cause = 0x0304 := by decide +kernel
/-- A node operation's word is executed by the firing that holds it. -/
def stepN : State := State.withFetchWord State.reset 32 0x01400F88
theorem wit_step_node : stepN.agenda = [.firing 0 0] ∧ (stepN.ctx 0).live = true ∧
    ((stepN.nodeImg (stepN.ctx 0) placedFiring.ref).map (·.ops)) = some [.addInteger .i32 (.port 0) (.port 1) true] := by decide +kernel
theorem test_step_node : ((stepOf stepN).fab 0).firings = [] ∧ encode .taskPlace = none := by decide +kernel
theorem wit_round_trip : Instr.wf (.add 3 1 2 false true) = true ∧ (encodeSeq (.add 3 1 2 false true)).isSome = true ∧
    Instr.wf (.nop) = true ∧ (encodeNode .nop).isSome = true := by decide
theorem wit_frames : Issues 0 [(1, true), (2, false)] 6 s1 s1' ∧ s1'.ctxWf = true ∧ smWf 0 (s1'.seq 0).regs = true ∧ NoBoundary (s1'.seq 0) ∧
    s1.ctxWf = true ∧ (s1.seq 0).faults = [] ∧ (∃ t, exec (.add 6 1 2 true false) s1 = .next t) ∧ (∃ t, exec .yield s1 = .next t) :=
  ⟨⟨rfl, by decide, rfl⟩, by decide, by decide, by unfold NoBoundary; decide, by decide, by decide, ⟨_, rfl⟩, ⟨_, rfl⟩⟩
theorem test_reset_state : State.reset.memWf = true ∧ State.reset.ctxWf = true ∧ State.reset.regWf = true ∧ (State.reset.ctx 63).sys = 0x10 := by
  decide

/-! ## Images, windows and forwarding -/

/-- An image of identity 5, fold 1, one cluster and an empty part stands at 0x1000; s1 names it, s2 an all-zero header. -/
def imgS : State :=
  { seqS fun x => withRegs [(1, 0x1000), (2, 0x2000)] (mapped x) with
    hbm := wrBytes [] 0x1000 (5 + 0x10001 * 2 ^ 64) 16
    tlb := [0, 1, 2, 3, 4, 5, 6, 7].map fun d => (d, [{ level := 0, ia := 0, pa := 0, w := true }]) }
def imgS' : State := (beginPass 0 imgS).1
theorem wit_cfg : Issues 0 [(1, false)] 0 imgS imgS' ∧ (0x1000 : Nat) % 64 = 0 ∧ (imgS'.ctx 0).size = 1 ∧
    (match readWords 0 (.seq 0) (imgS'.ctx 0).seqDie 0x1000 16 imgS' with
      | .ok ws u => decide (imgHeadBad ws = none) && decide (bits (ws.getD 2 0) 31 16 = 1) && !u.resident (u.ctx 0) 3 1 0x1000 5 &&
          !u.periodUses (u.ctx 0) 3 1 &&
          (match readWords 0 (.seq 0) (u.ctx 0).seqDie 0x1040 4 u with
            | .ok ds v => match readParts 0 (.seq 0) (u.ctx 0).seqDie 0x1000 1 3 (descsOf 0 ds) { nodes := [], holds := [], offs := [] } v with
              | .ok d w => decide (destsBad d 1 = none ∧ d.holds = []) && w.ctxWf
              | _ => false
            | _ => false)
      | _ => false) = true ∧
    (match readWords 0 (.seq 0) (imgS'.ctx 0).seqDie 0x2000 16 imgS' with
      | .ok ws _ => decide (imgHeadBad ws = some 2)
      | _ => false) = true :=
  ⟨⟨rfl, by decide, rfl⟩, by decide, by decide, by decide +kernel, by decide +kernel⟩
theorem test_cfg : ((after (.cfg 1 false 3) imgS).fab 0).loads.map (fun j => (j.addr, j.ident, j.plane, j.fold)) = [(0x1000, 5, 3, 1)] ∧
    ((after (.cfg 1 false 3) imgS).seq 0).pc = 4 ∧ ((after (.cfg 2 false 3) imgS).seq 0).cause = 0x0401 ∧
    ((after (.cfg 2 false 3) imgS).seq 0).tval = 0x2008 ∧
    ((after (.cfg 1 false 3) { imgS with planes := [(3, (0x1000, 5, 3, 1))] }).fab 0).loads = [] := by decide +kernel
/-- A global store into a host window: everything maps 0x40 TiB higher. -/
def windowS : State :=
  let f := fun x : Ctx => { x with rngA := [(0, 0xFFFFFFFF00000000)], rngB := [(0, 0x740000000)] }
  let s := after (.memoryAccessAccept 0 0) (after (.stg .i32 (.port 0) (.port 1) false) (fireS (.stg .i32 (.port 0) (.port 1) false) 0 0 (gA 64) f))
  { s with wa := [(0, 0xC000000000000000)] }
theorem wit_window_store : ((windowS.fab 0).accesses[0]?.map (·.accepted)) = some true ∧
    (windowS.ctx 0).toIa false true 64 = .ok (0x40 * 2 ^ 40 + 64) ∧ inWindow (0x40 * 2 ^ 40 + 64) = true ∧
    (match windowCheck 0 (0x40 * 2 ^ 40 + 64) windowS with
      | .ok w _ => decide (w = 2)
      | _ => false) = true := by decide +kernel
theorem test_window_store : (after (.accessPerform 0 0) windowS).posted.map (fun p => (p.ia, p.bytes)) = [(0x40 * 2 ^ 40 + 64, [7, 0, 0, 0])] ∧
    (after (.accessPerform 0 0) { windowS with wa := [] }).posted = [] := by decide +kernel
/-- The edge adder forwards to the window 0 of the host. -/
theorem test_edge_forward : (after (.edgeAdderStore 0 0x1004 [0, 0, 0x80, 0x3F]) { edgeS with
    eaa := [(0, 0x8000000000001000)], wa := [(0, 0xC000000000000000)] }).posted.map (fun p => (p.ia, p.ctx, p.bytes)) =
      [(0x40 * 2 ^ 40 + 4, 64, [0, 0, 0x40, 0x40])] := by decide +kernel

/-! ## The loader -/

/-- `n` as little-endian bytes. -/
def leB (v n : Nat) : List Byte := toBytes v n

/-- A table entry of a section (R280). -/
def entryB (kind target pref image off n : Nat) : List Byte :=
  leB kind 1 ++ leB target 1 ++ leB pref 1 ++ leB 0 1 ++ leB image 4 ++ leB off 8 ++ leB n 8 ++ leB 0 8

/-- An object whose image 0 holds only `done s0`, with its version and the target of that image. -/
def tinyObject (version target : Nat) : List Byte :=
  leB 0x4F434249 4 ++ leB version 2 ++ leB 1 2 ++ leB 132 8 ++ List.replicate 48 0 ++ entryB 4 target 0 0 128 4 ++
    List.replicate 32 0 ++ leB 0xEC000000 4

/-- A request for `c` clusters with a 1 MiB overflow store. -/
def reqOf (c : Nat) : LoadReq := { clusters := c, ovStore := 0x100000, ovBase := 0, ovSize := 0, pools := [], windows := [] }

/-- What a load of an object reports. -/
def reported (o : List Byte) (q : LoadReq) : Option (Nat × Nat) :=
  match loadObject State.reset (State.reset.loadEnv o q) o q with
  | .error r => some (r.code, r.reason)
  | .ok _ => none

theorem wit_load : reported (tinyObject 1 1) (reqOf 1) = none ∧ reported (tinyObject 2 1) (reqOf 1) = some (0x0A06, 1) := by
  decide +kernel
theorem wit_request : reported (tinyObject 1 1) (reqOf 3) = some (0x0A06, 6) ∧
    reported (tinyObject 1 1) { reqOf 1 with ovSize := 4096 * 65536 } = some (0x0A06, 6) := by decide +kernel
theorem test_load_turn : ((match runTurn (.load 0x1000 (tinyObject 1 2) (reqOf 1)) State.reset with
      | .next t => (t.ldrLog.map (·.reason), t.records.map (·.1))
      | _ => ([], [])) = ([1], [])) ∧
    ((match runTurn (.load 0x1000 (tinyObject 1 1) (reqOf 8)) State.reset with
      | .next t => (t.ldrLog.map (·.reason), t.records.map fun e => (e.1, e.2.lsize, e.2.program.length))
      | _ => ([], [])) = ([], [(0x1000, 3, 4)])) := by decide +kernel

/-- The four native images of the worked figure of R284, and the portable one. -/
def figImages (two : Bool) : List Sect :=
  let seq := fun (i target pref : Nat) => ({ (default : Sect) with kind := 4, target := target, pref := pref, image := i } : Sect)
  let req := fun (i : Nat) (es : List (List Byte)) => ({ (default : Sect) with kind := 1, image := i, data := es.flatten } : Sect)
  let e := fun (kind v : Nat) => leB kind 8 ++ leB v 8
  [seq 0 1 0, seq 1 2 10, req 1 [e 1 2]] ++ (if two then [seq 2 2 5, req 2 [e 1 4, e 2 4]] else []) ++
    [seq 3 1 5, req 3 [e 1 4], seq 4 3 20]

/-- A device with sparse masked. -/
def sparseMasked : State := { State.reset with fmask := 4 }

/-- R284's worked figure: image 2 is chosen, and without it image 3; a request of two clusters leaves image 3. -/
theorem test_choose : chooseImage sparseMasked 0 (reqOf 8) (figImages true) true = some 2 ∧
    chooseImage sparseMasked 0 (reqOf 8) (figImages false) true = some 3 ∧
    chooseImage sparseMasked 0 (reqOf 2) (figImages true) true = some 3 ∧
    chooseImage State.reset 0 (reqOf 8) (figImages true) true = some 1 := by decide +kernel
theorem wit_choose : 2 ∈ imagesOf (figImages true) ∧ imageMatch sparseMasked 0 (reqOf 8) (figImages true) true 2 = true ∧
    chooseImage sparseMasked 0 (reqOf 8) ((figImages true).take 1) true = some 0 ∧
    chooseImage sparseMasked 0 (reqOf 8) [{ (default : Sect) with kind := 4, target := 3 }] true = none := by decide +kernel

/-- R286's worked figure, and the two refusals. -/
theorem test_copies : copiesOf 2 8 [some 1, none, none] = .ok [1, 7, 7] ∧
    copiesOf 1 1 [some 2] = .error { code := 0x0A03, reason := 0, node := none } ∧
    copiesOf 1 1 [some 1, none] = .error { code := 0x0A07, reason := 0, node := none } := by decide +kernel

/-- A node of a test graph. -/
def nodeG (num : Nat) (op : Instr) (inputs space target tagsel : Nat) (outs : List (Bool × Nat × Nat)) (link : Option (Nat × Nat))
    (source : Bool) : GNode :=
  { (default : GNode) with
    num := num, space := space, target := target, outs := outs, link := link,
    img := { head := { kind := if source then .source else .data, inputs := inputs, rule := .strict, space := space,
                       stages := 1, switches := 0, kmask := 0, scales := 0 },
             ops := [op], emit := { tagsel := tagsel, node := num }, consts := [], leaves := [] } }

/-- The loop of R300's worked figure: en 0, lp 1, sm 2, cn 3, dc 4, gt 5, sv 6, fr 7, ex 8, and the exit's node 9; `direct`
feeds fr by sm in place of sv's output 0. -/
def loopG (direct : Bool) : Graph :=
  { spaces := [{ kind := .plain, parent := none, home := 0, n := 4 }, { kind := .plain, parent := some 0, home := 0, n := 2 }] ++
      List.replicate 254 SpaceDesc.none,
    nodes := [
      nodeG 0 (.alloc (.port 0)) 1 0 1 1 [(false, 1, 1)] none true,
      nodeG 1 .merge 2 1 0 0 [(false, 2, 0), (false, 3, 0), (false, 4, 0)] none false,
      nodeG 2 (.rdcInteger .i32 (.port 0) .add false) 1 1 0 0 ((if direct then [(false, 7, 0)] else []) ++ [(false, 6, 1)]) none false,
      nodeG 3 (.cmpInteger .i32 (.port 0) .zero .gt) 1 1 0 0 [(false, 5, 0), (false, 6, 0)] none false,
      nodeG 4 (.subInteger .i32 (.port 0) .zero false) 1 1 0 0 [(false, 5, 1)] none false,
      nodeG 5 .gate 2 1 0 0 [(false, 1, 0)] (some (9, 1)) false,
      nodeG 6 (.steer (.port 0) (.port 1)) 2 1 0 0 ((if direct then [] else [(false, 7, 0)]) ++ [(true, 8, 0)]) none false,
      nodeG 7 (.free (.port 0)) 1 1 0 0 [] none false,
      nodeG 8 (.ctag (.port 0)) 1 1 0 1 [(false, 9, 0)] none false,
      nodeG 9 (.addInteger .i32 (.port 0) (.port 1) false) 2 0 0 0 [] none false] }

/-- R300's worked figure: the loop passes, and with fr fed by sm it is refused with reason 8 and node 7. -/
theorem test_tagcheck : (loopG false).check State.reset 0 { nums := [], bare := false } = none ∧
    (loopG true).check State.reset 0 { nums := [], bare := false } = some (8, some 7) := by decide +kernel


/-- 64 nodes of one port in a space of `n` slots. -/
def flatG (n : Nat) : Graph :=
  { spaces := [{ kind := .plain, parent := none, home := 0, n := n }],
    nodes := (List.range 64).map fun k => nodeG k .nop 1 0 0 0 [] none false }

/-- A node on each PE of cluster 0. -/
def flatP : List NodeRef := (List.range 64).map fun k => { cl := 0, pe := k, slot := 0, plane := 0 }

/-- R29's worked figure: d = 640 on every PE of a cluster leaves no excess over 1 MiB, and d = 700 leaves 491,520 bytes. -/
theorem test_frames : (flatG 640).excess flatP 1 0x100000 = 0 ∧
    (flatG 700).excess flatP 1 0x100000 = 491520 := by decide +kernel

/-- A portable node (R293): steer p0, p1 of tile 1, graph node 17, with an edge from output 1 to port 2 of node 5. -/
theorem test_pload :
    parsePload 9 [0x01030001, 0x20150000, 0x68000F80, 0x00000011, 0xC0000005] =
      some [{ tile := 1, words := [0x20150000, 0x68000F80, 0x00000011], edges := [{ out := true, port := 2, all := false, dst := 5 }],
              link := [], place := none }] := by decide +kernel

/-- A relocation of kind 3 into window 2 at offset 8 (R302). -/
theorem test_reloc : (match checkRelocs [none, none, some 16] 0 0 (leB 2 1 ++ leB 3 1 ++ leB 0 2 ++ leB 0 4 ++ leB 8 8) with
      | .ok rs => rs.map fun r => (r.win, r.kind, r.off)
      | .error _ => []) = [(2, 3, 8)] ∧
    (checkRelocs [none, none, some 8] 0 0 (leB 2 1 ++ leB 3 1 ++ leB 0 2 ++ leB 0 4 ++ leB 8 8)).toOption = none := by
  decide +kernel

/-! ## Boundary cases of the clauses -/

/-! ## Boundary cases of the clauses -/

/-- Issue of one instruction of each operand shape. -/
theorem wit_issuing : Issuing (.add 3 1 2 true false, [(1, true), (2, false)], 3) ∧ Issuing (.ld 3 1 true 5, [(1, true)], 3) ∧
    Issuing (.done 1 true, [(1, true)], 0) ∧ Issuing (.jal 3 5, [], 3) ∧ Issuing (.trap 1, [], 0) ∧
    Issuing (.movk 3 1 5, [(3, false)], 3) ∧ Issuing (.st 2 1 true false 5, [(1, true), (2, false)], 0) ∧
    Issuing (.tbind 1 2 true false, [(1, true), (2, false)], 0) := by
  refine ⟨⟨3, 1, 2, true, false, 0, 0, 0, 0, 0, 0, 0, 0, 0, 0, 0, 0, ?_⟩, ⟨3, 1, 0, true, false, 5, 0, 0, 0, 0, 0, 0, 0, 0, 0, 0, 0, ?_⟩,
    ⟨0, 1, 0, true, false, 0, 0, 0, 0, 0, 0, 0, 0, 0, 0, 0, 0, ?_⟩, ⟨3, 0, 0, false, false, 0, 0, 5, 0, 0, 0, 0, 0, 0, 0, 0, 0, ?_⟩,
    ⟨0, 0, 0, false, false, 1, 0, 0, 0, 0, 0, 0, 0, 0, 0, 0, 0, ?_⟩, ⟨3, 0, 0, false, false, 0, 0, 0, 5, 0, 0, 0, 0, 1, 0, 0, 0, ?_⟩,
    ⟨0, 1, 2, true, false, 0, 5, 0, 0, 0, 0, 0, 0, 0, 0, 0, 0, ?_⟩, ⟨0, 1, 2, true, false, 0, 0, 0, 0, 0, 0, 0, 0, 0, 0, 0, 0, ?_⟩⟩ <;>
    simp
/-- A sequencer with register 1 empty and a fault held for registers 2 and 3. -/
def issueS (empty busy : Word) : State := seqS fun x => { x with seq := { x.seq with
  empty := empty.setWidth 32, busy := busy.setWidth 32, faults := [{ reg := 2, code := 0x0206, reason := 1, report := 5 }, { reg := 3, code := 0x0206, reason := 2, report := 6 }] } }
theorem wit_issue_order : ((issueS 6 0).seq 0).issue [(4, false), (2, true)] 7 = .empty 2 ∧ ((issueS 6 0).seq 0).issue [(1, true), (2, true)] 7 = .empty 1 ∧
    ((issueS 6 0).seq 0).issue [(1, false)] 7 = .wait ∧ ((issueS 0 8).seq 0).issue [(3, true)] 7 = .wait ∧
    ((issueS 0 0).seq 0).issue [(3, true), (2, true)] 7 = .fault { reg := 2, code := 0x0206, reason := 1, report := 5 } ∧
    ((issueS 0 8).seq 0).issue [(4, true)] 3 = .wait ∧ ((issueS 0 8).seq 0).issue [(4, true)] 7 = .go ∧
    (issueS 0 8).cur = .seq 0 ∧ ((issueS 0 8).seq 0).phase = .ready ∧
    (s4.seq 0).issue [] 0 = .go ∧ (beginPass 0 s4).2 = some 2 := by decide

/-- An image that the planes hold, and one of another region size. -/
def keptS : State := { imgS with planes := [(3, (0x1000, 5, 3, 1))], hbm := wrBytes imgS.hbm 0x3008 0x20001 8 }
theorem wit_cfg_kept : Issues 0 [(1, false)] 0 keptS (beginPass 0 keptS).1 ∧
    (match readWords 0 (.seq 0) (keptS.ctx 0).seqDie 0x1000 16 (beginPass 0 keptS).1 with
      | .ok ws u => decide (imgHeadBad ws = none) && u.resident (u.ctx 0) 3 1 0x1000 (ws.getD 0 0 + ws.getD 1 0 * 2 ^ 32)
      | _ => false) = true ∧
    (match readWords 0 (.seq 0) (keptS.ctx 0).seqDie 0x3000 16 (beginPass 0 keptS).1 with
      | .ok ws _ => decide (imgHeadBad ws = none ∧ bits (ws.getD 2 0) 31 16 = 2 ∧ ws.getD 2 0 % 256 = 1)
      | _ => false) = true ∧ (keptS.ctx 0).size = 1 := ⟨⟨rfl, by decide, rfl⟩, by decide +kernel, by decide +kernel, by decide⟩
/-- A load of planes 0 and 1 is in progress; the cfg of plane 1 drops it. -/
def jobF (x : Ctx) : Ctx := { x with fab := { x.fab with
  loads := [{ addr := 0x40, ident := 9, plane := 0, fold := 2, nodes := [], holds := [(3, [5])], dropped := false }] } }
theorem test_cfg_drops : ((after (.cfg 1 false 1) { imgS with ctxs := [(0, jobF (imgS.ctx 0))] }).fab 0).loads.map (fun j => (j.plane, j.dropped)) =
    [(0, true), (1, false)] ∧ ((after (.cfg 1 false 3) { imgS with ctxs := [(0, jobF (imgS.ctx 0))] }).fab 0).loads.map (·.dropped) = [false, false] := by
  decide +kernel
def runL : State := seqS jobF
theorem wit_run_waits : Issues 0 [(2, false)] 0 runL (beginPass 0 runL).1 ∧
    (((beginPass 0 runL).1.ctx 0).fab.loads.any fun j => !j.dropped && decide (j.plane = 0 ∧ j.holds ≠ [])) = true ∧
    (((beginPass 0 runL).1.ctx 0).fab.loads.any fun j => !j.dropped && decide (j.plane = 1)) = false ∧
    ((beginPass 0 runL).1.planeOf ((beginPass 0 runL).1.ctx 0) 0 1).2.2.1 ≠ 1 ∧ s12.seqPending 0 AccOp.writes = true :=
  ⟨⟨rfl, by decide, rfl⟩, by decide, by decide, by decide, by decide⟩
theorem test_run_waits : ((after (.run 2 false 0) runL).seq 0).pc = 0 ∧ ((after (.run 2 false 1) runL).seq 0).cause = 0x0305 := by decide

/-- The sequencer has joined phase 1 of barrier 5, and has seen it complete where `seen` is 1; it waits in `p`. -/
def barQ (joined seen : Nat) (p : SeqPhase) : State := seqS fun x => { x with
  seq := { x.seq with phase := p }
  fab := { x.fab with
    bars := [(barInst 5 4096, { parts := [4096], phase := seen, arrived := [] })]
    joined := smSet 0 [] (4096 * 2 ^ 21 + barInst 5 4096) joined, seen := smSet 0 [] (barInst 5 4096) seen } }
theorem wit_seq_barriers : Issues 0 [] 0 (barQ 0 0 .ready) (beginPass 0 (barQ 0 0 .ready)).1 ∧ (beginPass 0 (barQ 0 0 .ready)).1.ctxWf = true ∧
    Issues 0 [] 0 (barQ 1 0 (.barWait (barInst 5 4096) 1)) (beginPass 0 (barQ 1 0 (.barWait (barInst 5 4096) 1))).1 ∧
    (((barQ 0 0 .ready).fab 0).bar (barInst 5 4096)).parts.contains 4096 = true ∧
    (((barQ 0 0 .ready).fab 0).bar (barInst 6 4096)).parts.contains 4096 = false ∧
    smWf 0 ((barQ 1 1 .ready).fab 0).joined = true ∧
    (∀ p ∈ [(0, 0), (1, 0), (1, 1)], ((barQ p.1 p.2 .ready).fab 0).joinedOf 4096 (barInst 5 4096) = p.1 ∧
      ((barQ p.1 p.2 .ready).fab 0).seenOf 0 (barInst 5 4096) = p.2) :=
  ⟨⟨rfl, by decide, rfl⟩, by decide, ⟨rfl, by decide, rfl⟩, by decide, by decide, by decide, by decide⟩
theorem test_seq_barriers : ((after (.arrive 5) (barQ 1 0 .ready)).seq 0).pc = 0 ∧ ((after (.arrive 5) (barQ 1 1 .ready)).seq 0).pc = 4 ∧
    ((after (.wait 5) (barQ 1 1 .ready)).seq 0).pc = 4 ∧ ((after (.wait 5) (barQ 1 1 (.barWait (barInst 5 4096) 1))).seq 0).pc = 4 ∧
    ((after (.wait 5) (barQ 1 0 (.barWait (barInst 5 4096) 1))).seq 0).pc = 0 := by decide
/-- A load and a store of the sequencer are pending, or a posted store of its context. -/
def ldS : State := { after (.ld 6 1 false 1) s1 with cur := .seq 0 }
def postS : State := { s1 with posted := [{ id := 1, ctx := 0, die := 0, ia := 0x40 * 2 ^ 40 + 8, bytes := [7], acc := 1, firing := none, done := false, foot := [], src := 0 }] }
theorem wit_fence_waits : Issues 0 [] 0 ldS (beginPass 0 ldS).1 ∧ Issues 0 [] 0 s12 (beginPass 0 s12).1 ∧ Issues 0 [] 0 postS (beginPass 0 postS).1 ∧
    ((beginPass 0 ldS).1.fab 0).accesses.map (fun a => (a.agent, a.op)) = [(.seq, .load)] ∧
    ((beginPass 0 s12).1.fab 0).accesses.map (fun a => (a.agent, a.op)) = [(.seq, .store 7)] ∧
    ((beginPass 0 postS).1.ctx 0).scopeLevel 4 = .acked ∧ ((beginPass 0 ldS).1.ctx 0).scopeLevel 1 ≠ .accepted ∧
    (s1'.ctx 0).scopeEmpty 4 = false ∧ bit (s1'.ctx 0).sys.toNat 4 = true ∧ (s1'.ctx 0).scopeEmpty 3 = false ∧ bit (s1'.ctx 0).sys.toNat 3 = false ∧
    (∀ p ∈ ((beginPass 0 ldS).1.fab 0).pairs, p.agent ≠ .seq) :=
  ⟨⟨rfl, by decide, rfl⟩, ⟨rfl, by decide, rfl⟩, ⟨rfl, by decide, rfl⟩, by decide, by decide, by decide, by decide, by decide, by decide,
    by decide, by decide, by decide⟩
theorem test_fence_waits : ((after (.fenceAcq 3) ldS).seq 0).pc = 4 ∧ ((after (.fenceAcq 3) s12).seq 0).pc = 8 ∧
    ((after (.fence 4) postS).seq 0).pc = 0 ∧ ((after (.fence 3) postS).seq 0).pc = 4 := by decide
/-- done waits at a period in a draining region, or finishes with a header out, a held fault, an apply or a posted store left. -/
def doneP : State := seqS fun x => { inPeriod x with st := .draining, cause := some .priority }
def finS (f : Ctx → Ctx) : State := seqS fun x => f { x with st := .retiring, seq := { x.seq with phase := .finishing 64 } }
def faultF (x : Ctx) : Ctx := { x with seq := { x.seq with faults := [{ reg := 1, code := 0x0206, reason := 1, report := 5 }] } }
def applyF (x : Ctx) : Ctx := { x with apply := some { handles := [0], why := .done, waits := [], leave := [] } }
def cmdS : State := let s := { after (.send 7 8 9 true true) s9 with cur := .seq 0 }
  { s with ctxs := [(0, { s.ctx 0 with seq := { (s.ctx 0).seq with phase := .finishing 64 } })] }
def finP (n : Nat) : State := { finS (fun c => c) with posted := [{ id := n, ctx := 0, die := 0, ia := 0x40 * 2 ^ 40 + 8, bytes := [7], acc := 1, firing := none, done := false, foot := [], src := 0 }] }
theorem wit_done_waits : Issues 0 [(1, false)] 0 doneP (beginPass 0 doneP).1 ∧ ((beginPass 0 doneP).1.ctx 0).st = .draining ∧
    ((beginPass 0 doneP).1.ctx 0).fab.period ≠ none ∧ (doneP.seq 0).phase = .ready ∧
    (∀ s ∈ [finS id, finS faultF, finS applyF, cmdS, finP 0], s.cur = .seq 0 ∧ (s.seq 0).phase = .finishing 64) ∧
    cmdS.hasCmd 0 true = true ∧ ((finS faultF).ctx 0).seq.faults ≠ [] ∧ ((finS applyF).ctx 0).apply ≠ none ∧
    (finP 0).posted.map (finP 0).postedFailed = [false] ∧ { finP 0 with wa := [(0, 0x8000000000000000)] }.posted.map
      { finP 0 with wa := [(0, 0x8000000000000000)] }.postedFailed = [true] :=
  ⟨⟨rfl, by decide, rfl⟩, by decide, by decide, by decide, by decide +kernel, by decide +kernel, by decide, by decide, by decide, by decide⟩
theorem test_done_waits : ((after (.done 1 false) doneP).seq 0).phase = .stopped ∧ (after (.done 1 false) (finP 0)).ctxs = (finP 0).ctxs ∧
    ((after (.done 1 false) { finP 0 with wa := [(0, 0x8000000000000000)] }).ctx 0).ending.map (fun k => (k.code, k.report, k.extra)) =
      some (0x0901, 0, 1) := by decide

/-- 1.5 and -0 are finite, an infinity is not; and the rounding of 2.5 in each mode. -/
theorem wit_finite : finite .f32 0x3FC00000 ∧ finite .f16 0x8000 ∧ ¬ finite .f32 0x7F800000 ∧ ratOf .f32 0x3FC00000 = 3 / 2 ∧
    ratOf .f16 0x8000 = 0 ∧ signBit .f16 0x8000 = true ∧
    Nearest .rne false 0 (5 / 2) 2 ∧ Nearest .rz true 0 (5 / 2) 2 ∧ Nearest .ru false 0 (5 / 2) 3 ∧ Nearest .rd false 0 (5 / 2) 2 ∧
    Nearest .rd true 0 (5 / 2) 3 := by
  refine ⟨by unfold finite; decide, by unfold finite; decide, by unfold finite; decide, ?_, ?_, by decide, ?_, ?_, ?_, ?_, ?_⟩
  · norm_num [ratOf, expField, signBit, FltTy.frac, FltTy.exp, FltTy.bias, show Nat.testBit 0x3FC00000 31 = false by decide]
  · norm_num [ratOf, expField, signBit, FltTy.frac, FltTy.exp, FltTy.bias]
  · refine ⟨by rw [abs_le]; norm_num, fun _ => rfl⟩
  all_goals (simp only [Nearest]; norm_num)
/-- A value of each kind, a block of each kind: R43's zero, NaN and finite scales. -/
theorem wit_values : (∃ n, fVal .f32 0xFF800000 = .inf n) ∧ (∃ q, fVal .f32 0x7F800001 = .nan q) ∧ scaleE 0xFF00 = 255 ∧ scaleE 0 = 0 ∧
    scaleE 0x7F80 = 127 ∧ mantOf (BlkTy.w .bx8) 0x40 = 64 := by
  exact ⟨⟨true, by decide⟩, ⟨true, by decide⟩, by decide, by decide, by decide, by decide⟩
/-- A block operand whose lane fits its scale's index, and one that does not (R46, R139). -/
theorem wit_blocks : firesB (.dequant .bx8 (.port 0) .f32 .rne false) 0 0 (fir 0 1 [0x10001] [] []) id = true ∧
    (let e := mkEnv (fireS .nop 0 0 (fir 0 1 [0x10001, 2] [] []) id) 0 (fir 0 1 [0x10001, 2] [] []) (img (fireS .nop 0 0 (fir 0 1 [0x10001, 2] [] []) id)) [];
      (laneAt (blkLanes e (.port 0)) 0).toNat / 2 ^ 16 ≠ (laneAt (blkScales e (.port 0)) 0).toNat / 2 ^ 16 ∧
      (laneAt (blkLanes e (.port 0)) 1).toNat / 2 ^ 16 = (laneAt (blkScales e (.port 0)) 1).toNat / 2 ^ 16 ∧
      mappedOn e.mask false false 0) := by
  exact ⟨by decide, by decide, by decide, ⟨by decide, by decide, by decide⟩⟩
theorem test_blocks : cause (.dequant .bx8 (.port 0) .f32 .rne false) 0 0 (fir 0 1 [0x10001] [] []) id = 0x0402 ∧
    cause (.bdot .bx8 (.port 0) (.port 1) .bx8 .rne false) 0 0 (fir 0 1 [1] [0x10001] []) id = 0x0402 ∧
    outOf (.dequant .bx8 (.port 0) .f32 .rne false) [0x7F] [] [] = [0, 0] := by decide
/-- A node whose later stage is a block operation, and a firing that holds a flag for it. -/
theorem wit_flags_wait : (∃ j i, g0.stage < j ∧ ({ img twoS with ops := [.nop, .bmul .bx8 .x (.port 1) .bx8 .rne false] } : NodeImg).ops[j]? = some i ∧
      Instr.blockSels i ≠ []) ∧ ((seqS inPeriod).ctx 0).fab.period ≠ none :=
  ⟨⟨1, _, by decide, rfl, by decide⟩, by decide⟩
/-- Firing 1 of the node is in its E stage with a copy left; firing 2 comes behind it. -/
def busyF (f : Fabric) : Fabric :=
  { f with firings := [{ g0 with id := 1, phase := .emit [] }, { g0 with id := 2 }], nextId := 3, draining := true }
theorem wit_outputs_wait : ((fabS twoWs busyF).fab 0).routeBusy { g0 with id := 2 } = true ∧ ((fabS twoWs busyF).fab 0).routeBusy { g0 with id := 1, phase := .emit [] } = false ∧
    ((fabS twoWs busyF).fab 0).draining = true ∧ (fabS twoWs busyF).ctxWf = true ∧ ((fireS .nop 0 0 g0 id).fab 0).routeBusy g0 = false ∧
    (img (fireS (.ret (.port 0)) 0 0 gCall called)).last = some (.ret (.port 0)) := by decide
/-- rdc: the next ordinal is not the firing's; the ring of a root space; a tag of a call. -/
def rdcI : Instr := .rdcInteger .i32 (.port 0) .add false
theorem wit_rdc_cases : let x := (fireS rdcI 0 0 gIn inner).ctx 0
    (∀ k ∈ ([(gIn, inner), (g0, id), (gCall, called)] : List (Firing × (Ctx → Ctx))), firesB rdcI 0 0 k.1 k.2 = true) ∧
    x.isRoot (tagSpace gIn.tag) = false ∧ (x.tagSlot gIn.tag).opened = true ∧ x.isRoot (tagSpace g0.tag) = true ∧
    (rdcFind (fireS rdcI 0 0 g0 id) ((fireS rdcI 0 0 g0 id).ctx 0) g0).next ≠ none ∧
    smWf 0 (rdcFind (fireS rdcI 0 0 gIn inner) x gIn).acc = true ∧ (((fireS rdcI 0 0 gCall called).ctx 0).space (tagSpace gCall.tag)).kind = .call := by decide
theorem test_rdc_cases : cause rdcI 0 0 gCall called = 0x0105 ∧
    phases rdcI 0 0 gIn (fun x => let y := inner x
      { y with slots := smSet Slot.zero y.slots 4096 { y.slot 1 0 with opened := false } }) = [.waitFence []] := by decide
theorem wit_root_ring : let s := srcS 1 false false
    (s.sources (s.ctx 0)).head? = some placedFiring.ref ∧ (s.nodeImg (s.ctx 0) placedFiring.ref).map (·.head.space) = some 0 ∧
    (s.ctx 0).ringNext 0 0 < 2 ^ 64 ∧ smGet 0 (s.fab 0).cursors placedFiring.ref.key = 1 := by decide

/-- add with a window operand: window 0 is bound to `n` bytes at 0x10000, everything mapped; `w` elements are read. -/
def winI : Instr := .addInteger .i32 .win (.port 1) false
def winS (n : Nat) (w : List Nat) (tl : Bool) : State :=
  let s := fireS winI 0 0 { g0 with wins := w } fun x => { mapped x with windows := if n = 0 then [] else [(0, some (0x10000, n))] }
  { s with tlb := if tl then [(0, [{ level := 2, ia := 0x10000, pa := 0x50000, w := true }])] else [] }
theorem wit_windows : (∀ p ∈ [(0, []), (2, []), (4, [5]), (64, [])], Fires 0 { g0 with wins := p.2 } (img (winS p.1 p.2 true)) (winS p.1 p.2 true) ∧
      winMore winI { g0 with wins := p.2 } = true) ∧
    (∃ b, ((winS 0 [] true).ctx 0).window 0 = .error b) ∧ ((winS 2 [] true).ctx 0).window 0 = .ok (0x10000, 2) ∧
    (match readWin 0 (.access 0 0) 0 0x10000 64 0 4 (winS 64 [] true) with
      | .ok v _ => decide (v = 0)
      | _ => false) = true ∧
    (match readWin 0 (.access 0 0) 0 0x10000 64 0 4 (winS 64 [] false) with
      | .stall _ => true
      | _ => false) = true := by
  refine ⟨?_, ⟨_, rfl⟩, by decide, by decide, by decide⟩
  intro p hp
  simp only [List.mem_cons, List.not_mem_nil, or_false] at hp
  rcases hp with rfl | rfl | rfl | rfl <;> exact ⟨⟨rfl, by decide, rfl, rfl, by decide⟩, by decide⟩
theorem test_windows : ((after winI (winS 64 [] true)).fab 0).firings.map (·.wins) = [[0]] ∧ ((after winI (winS 2 [] true)).ctx 0).flags = fOob ∧
    ((after winI (winS 0 [] true)).seq 0).cause = 0x0501 ∧ (after winI (winS 64 [] false)).misses.length = 1 ∧
    ((after winI (winS 4 [5] true)).fab 0).firings.map (·.wins) = [[5, 0]] := by decide
/-- A fence or an acquire of the PE holds: an access that has not been performed stands in its hold. -/
def heldS (i : Instr) : State := fireS i 0 0 (gA 5) fun x => { mapped x with fab := { x.fab with
  accesses := [{ id := 9, agent := .pe 0 0, mnode := 0, op := .load, glob := false, addr := 64, size := 4, lane := 0, firing := 7,
                 accepted := true, arrived := 0, deps := [], parked := false, replay := false, foot := [] }],
  holds := [{ agent := .pe 0 0, deps := [{ id := 9, level := .performed }], storesOnly := false }] } }
theorem wit_held : (heldS (.lookup (.port 0))).depsDone 0 (((heldS (.lookup (.port 0))).fab 0).holdDeps (.pe 0 0) true) = false ∧
    (heldS winI).depsDone 0 (((heldS winI).fab 0).holdDeps (.pe 0 0) false) = false ∧ (gA 5).agent = .pe 0 0 ∧
    (∀ i ∈ [Instr.lookup (.port 0), .insert (.port 0) (.port 1), .evict (.port 0)], firesB i 0 0 (gA 5) (fun _ => (heldS i).ctx 0) = true) ∧
    (heldS (.fenceNode 3 .acq)).tagWaits 0 (.pe 0 0) = [] ∧ ((heldS (.fenceNode 3 .acq)).ctx 0).scopeLevel 4 = .acked := by decide
theorem test_held : (after (.insert (.port 0) (.port 1)) (heldS (.insert (.port 0) (.port 1)))).tagtab = [] ∧
    ((after (.fenceNode 3 .acq) (heldS (.fenceNode 3 .acq))).fab 0).firings.map (·.phase) = [.waitFence [{ id := 9, level := .performed }]] ∧
    ((after (.fenceNode 3 .rel) (heldS (.fenceNode 3 .rel))).fab 0).holds.map (·.storesOnly) = [false, true] := by decide
/-- PE 0 has joined phase 1 of barrier 5 and has seen `seen` phases of it. -/
def barN (seen : Nat) (x : Ctx) : Ctx := { x with fab := { x.fab with
  bars := [(barInst 5 0, { parts := [0], phase := seen, arrived := [] })]
  joined := [(barInst 5 0, 1)], seen := smSet 0 [] (barInst 5 0) seen } }
theorem wit_barrier_cases : (Agent.pe 0 0).index = 0 ∧
    (∀ n ∈ [0, 1], ((fireS .nop 0 0 g0 (barN n)).fab 0).joinedOf 0 (barInst 5 0) = 1 ∧ ((fireS .nop 0 0 g0 (barN n)).fab 0).seenOf (agentCl 0) (barInst 5 0) = n) := by
  decide
theorem test_barrier_cases : phases (.arriveNode 5) 0 0 g0 (barN 0) = [.waitFence []] ∧ sent (.arriveNode 5) 0 0 g0 (barN 1) = [(0, 2, 0)] ∧
    sent (.waitNode 5) 0 0 g0 (barN 1) = [(0, 2, 0)] ∧ phases (.waitNode 5) 0 0 g0 (barN 0) = [.waitPhase (barInst 5 0) 1] := by decide +kernel
/-- A node breakpoint that watches the stage of trap and brk. -/
def nodeBp (x : Ctx) : Ctx := { x with nbpA := [(2, 0x8000000000000007)], nbpB := [(2, 0)] }
theorem wit_node_break : let s := fireS (.brkNode 9) 0 0 g0 nodeBp
    (img s).emit.node = 7 ∧ (s.ctx 0).nodeBreak (img s) g0.tag g0.stage = some 2 ∧ (s.ctx 0).live = true ∧
    ((fireS (.brkNode 9) 0 0 g0 id).ctx 0).nodeBreak (img s) g0.tag g0.stage = none := by decide
theorem test_node_break : ((after (.brkNode 9) (fireS (.brkNode 9) 0 0 g0 nodeBp)).ctx 0).later.map (·.1) = [0x0404] ∧
    ((after (.trapNode 9) (fireS (.trapNode 9) 0 0 g0 nodeBp)).ctx 0).causeCode = 0x0403 := by decide
/-- A running and a draining context take a trap that suspends, and one that retires. -/
theorem wit_node_trap : (∀ s ∈ [s1, s6], s.ctxWf = true ∧ (s.seq 0).h = false) ∧ (s1.ctx 0).st = .running ∧ (s6.ctx 0).st = .draining := by decide
theorem test_node_trap : ((nodeTrap 0 0x0404 3 5 s6).ctx 0).later = [(0x0404, 3, 5)] ∧ ((nodeTrap 0 0x0105 0 5 s6).ctx 0).st = .retiring ∧
    ((nodeTrap 0 0x0404 3 5 s1).ctx 0).st = .draining := by decide

/-- A load of window 0, of the host or of peer package 2, whose link is up. -/
def windowL (wa : Word) : State :=
  let s := fireS (.ldg .i32 (.port 0) false) 0 0 (gA 64) fun x => { x with rngA := [(0, 0xFFFFFFFF00000000)], rngB := [(0, 0x740000000)] }
  { after (.memoryAccessAccept 0 0) (after (.ldg .i32 (.port 0) false) s) with
    wa := [(0, wa)], wb := [(0, 1)], ports := [(0, { LinkPort.reset with up := true })], hostMem := [(64, 5)], peerMem := [(2 * 2 ^ 48 + 64, 9)] }
/-- What R260 asks of a load of four bytes of a window. -/
def windowOk (s : State) : Bool :=
  decide (s.posted = []) && decide ((s.fab 0).accesses.map (fun a => (a.accepted, a.glob, a.op)) = [(true, true, .load)]) &&
    [0, 1, 2, 3].all fun j => inWindow (0x400000000040 + j) && decide (s.remoteAddr (0x400000000040 + j) = 64 + j) &&
      match windowCheck 0 (0x400000000040 + j) s with
      | .ok _ _ => true
      | _ => false
theorem wit_window_load : windowOk (windowL 0xC000000000000000) = true ∧ windowOk (windowL 0x8000020000000000) = true ∧
    isHostPlace ((windowL 0xC000000000000000).remotePlace 0x400000000040) = true ∧ (windowL 0x8000020000000000).remotePlace 0x400000000040 = 2 := by
  decide +kernel
theorem test_window_load : ((after (.accessPerform 0 0) (windowL 0xC000000000000000)).fab 0).firings.map (·.got) = [[(0, 5)]] ∧
    ((after (.accessPerform 0 0) (windowL 0x8000020000000000)).fab 0).firings.map (·.got) = [[(0, 9)]] := by decide +kernel
/-- Two accesses of one memory node: the earlier overlaps, or is replayed; the later must wait. -/
def heldA (addr : Nat) (replay : Bool) : State :=
  let a : Access := { (loadA.fab 0).accesses.headD default with id := 8, firing := 7, addr := addr, replay := replay }
  loadA.modFab 0 fun f => { f with accesses := a :: f.accesses }
theorem wit_access_held : (∀ p ∈ [(66, false), (128, true)], ((heldA p.1 p.2).fab 0).accesses.map (fun a => a.accepted) = [true, true] ∧
      (let x := (heldA p.1 p.2).ctx 0; x.unitOf 0 (x.fab.accesses.headD default) = x.unitOf 0 (x.fab.accesses.getD 1 default))) ∧
    (let x := (heldA 66 false).ctx 0; accOverlap x (x.fab.accesses.headD default) x (x.fab.accesses.getD 1 default) = true) := by decide
theorem test_access_held : after (.accessPerform 0 1) (heldA 66 false) = heldA 66 false ∧ after (.accessPerform 0 1) (heldA 128 true) = heldA 128 true ∧
    ((after (.accessPerform 0 1) (heldA 128 false)).fab 0).accesses.length = 1 := by decide
/-- Two misses of one page have joined a walk that ends in an entry that is not valid. -/
def joinS : State := { missS true false 0 with
  misses := [{ who := .access 0 0, ia := 0x12345, wr := false, walking := true }, { who := .access 0 1, ia := 0x12346, wr := false, walking := true },
             { who := .access 0 2, ia := 0x12346, wr := false, walking := false }] }
theorem wit_joined : joinS.misses[0]? = some { who := .access 0 0, ia := 0x12345, wr := false, walking := true } ∧ joinS.hbmErr = [] ∧
    dieOf 0x12346 = dieOf 0x12345 ∧ bit (rdBytes joinS.hbm 0 8) 63 = false ∧
    (∃ n ∈ joinS.misses.filter fun n => n.walking && decide (dieOf n.ia = dieOf 0x12346), n.ia / 2 ^ 16 = 0x12346 / 2 ^ 16) :=
  ⟨by decide, by decide, by decide, by decide, ⟨_, List.mem_cons_self .., by decide⟩⟩
theorem test_joined : (after (.walkResult 0) joinS).faultToks.length = 2 ∧ (after (.walkResult 0) joinS).misses.length = 1 := by decide
theorem wit_page_table_busy : (after (.ptInval 0x80001) State.reset).ptInval.getLsbD 63 = true ∧
    (after (.ptInval 0x80001) State.reset).invalRange = (0, 0x80000) := by decide
/-- A token whose frame waits in the global overflow area: not mapped, mapped, and translated; with an error of `e`. -/
def areaS (map tl : Bool) (e : Nat) : State :=
  let s := fabS twoWs fun f => { f with chan := [tok 0 0 [1]], waiting := [{ tok := tok 0 1 [2], place := .area, err := e }] }
  let y : Ctx := { s.ctx 0 with ovfp := 0x10010 }
  { s with ctxs := [(0, if map then mapped y else y)], tlb := if tl then [(0, [{ level := 2, ia := 0x10000, pa := 0x50000, w := true }])] else [] }
theorem wit_match_area : (areaS true true 0).ctxWf = true ∧ (((areaS true true 0).ctx 0).fab.firstOfRoute 0 (tok 0 0 [1])) = true ∧
    ((areaS true true 0).ctx 0).replays = false ∧ ((areaS true true 0).ctx 0).fab.inArea.map (·.tok) = [tok 0 1 [2]] ∧
    (match reachAreas 0 [0] (areaS true true 0) with
      | .ok v u => decide (v = 0 ∧ u = areaS true true 0)
      | _ => false) = true ∧
    (match reachAreas 0 [0] (areaS true false 0) with
      | .stall _ => true
      | _ => false) = true ∧
    (match reachAreas 0 [0] (areaS false true 0) with
      | .bad _ _ => true
      | _ => false) = true ∧
    2 ≤ popWord (BitVec.ofNat 64 3) ∧ ((spaced placedCtx).space 3).kind = .deep := by decide +kernel
theorem test_match_area : ((after (.tokenMatch 0 0) (areaS true true 0)).fab 0).firings.length = 1 ∧ (after (.tokenMatch 0 0) (areaS true false 0)).misses.length = 1 ∧
    ((after (.tokenMatch 0 0) (areaS true true 3)).seq 0).cause = 0x0B03 ∧ ((after (.tokenMatch 0 0) (areaS false true 0)).seq 0).cause = 0x0207 := by
  decide +kernel
/-- Of two requests for one ring the later waits for the earlier. -/
def allocTwo : State := allocS.modFab 0 fun f => { f with
  allocs := { firing := 5, space := 1, ring := 0, parent := 0, opened := true } :: f.allocs }
theorem wit_alloc_order : (allocTwo.fab 0).allocs[1]? = some { firing := 0, space := 1, ring := 0, parent := 0, opened := true } ∧
    (∃ q ∈ (allocTwo.fab 0).allocs.take 1, q.space = 1 ∧ q.ring = 0) := ⟨by decide, ⟨_, List.mem_cons_self .., rfl, rfl⟩⟩
theorem test_alloc_order : after (.tagAllocGrant 0 1) allocTwo = allocTwo := by decide
/-- A dropped load, which ends without a fabric load in its planes. -/
def droppedS : State := loadJobS.modFab 0 fun f => { f with loads := f.loads.map fun j => { j with dropped := true } }
theorem test_load_dropped : smGet noPlane (after (.configurationLoadComplete 0) droppedS).planes 1 = noPlane ∧
    (after (.configurationLoadComplete 0) droppedS).nodes = (after (.configurationLoadComplete 0) loadJobS).nodes := by decide
/-- The bin SRAM of stack 0 is full, of records of the binding's own lines. -/
theorem wit_sorter_full (n : Nat) :
    n ≤ ((List.replicate n rec0).filter fun r => decide (r.stack = 0 ∧ r.run = 0)).length ∧
    (∀ r ∈ List.replicate n rec0, r.ctx = 0 → r.handle = 0 → r.stack = 0 → r.run = 0) := by
  refine ⟨?_, fun r h _ _ _ => ?_⟩
  · simp [rec0]
  · rw [List.eq_of_mem_replicate h]; rfl
/-- A sorter holds leave for its apply. -/
def leaveA : State :=
  let s := applyS .flush []
  { s with ctxs := [(0, { s.ctx 0 with apply := some { handles := [0], why := .flush, waits := [], leave := [0] } })]
           govs := [(0, { Gov.reset with held := 8 })] }
theorem wit_leave_held : (leaveA.ctx 0).apply = some { handles := [0], why := .flush, waits := [], leave := [0] } ∧ (leaveA.ctx 0).st = .running ∧
    ((leaveA.ctx 0).binding 0).isSome = true ∧ leaveA.ctxWf = true ∧ smWf Gov.reset leaveA.govs = true ∧
    (match applyStacks { ctx := 0, handle := 0, b := ((leaveA.ctx 0).binding 0).getD default } [0] leaveA with
      | .ok _ u => u.ctxWf && smWf Gov.reset u.govs
      | .bad _ _ | .stall _ => false) = true := by decide +kernel
theorem test_leave_held : ((after (.applyCompletion 0) leaveA).gov 0).held = 0 ∧ (after (.applyCompletion 0) leaveA).recs = [] ∧
    (((after (.applyCompletion 0) leaveA).ctx 0).apply.map (·.leave)) = some [] := by decide +kernel

/-- The TLB maps every unit of the frame of a region of one cluster at address 0. -/
def unitAt (i : Nat) : Bool :=
  match (smGet [] (hostS id).tlb (dieOf (i * 2 ^ 16))).find? fun e => e.hits (i * 2 ^ 16) false with
  | some e => e.w && decide (e.paOf (i * 2 ^ 16) = i * 2 ^ 16) && !inWindow (i * 2 ^ 16) &&
    match ((hostS id).ctx 0).toIa false true (i * 2 ^ 16) with
    | .ok ia => decide (ia = i * 2 ^ 16)
    | .error _ => false
  | none => false
theorem wit_frame_units : ((List.range 400).all unitAt) = true ∧ ((hostS id).ctx 0).size = 1 ∧ ((hostS id).ctx 0).save = 0 ∧
    ((List.range 32).all fun i => match ((hostS id).ctx 0).toIa false true (8 * i) with
      | .ok ia => decide (ia = 8 * i)
      | .error _ => false) = true := by decide +kernel
theorem wit_frame_distinct : smWf 0 (hostS id).hbm = true ∧ smWf 0 (hostS id).sp = true ∧ (hostS id).hbmErr = [] ∧
    (∀ i j, i * 2 ^ 16 = j * 2 ^ 16 → i = j) ∧ ∀ i, (i * 2 ^ 16) % 2 ^ 16 = 0 :=
  ⟨by decide +kernel, by decide +kernel, rfl, fun i j h => by omega, fun i => by omega⟩
/-- A token of a write reaches its channel, waits behind a memory write, or is dropped; one without credits does not arrive. -/
def tok8 : List Word := [1, 0, 0, 0, 0, 0, 0, 0]
def fullOut : State := { h0 with hostWrs := (List.range 128).map fun k =>
  ({ req := 1, write := .memory (BitVec.ofNat 46 (4096 * k)) (List.replicate 4096 none), forwarded := false, acks := [] } : HostWr) }
theorem wit_host_tokens : h0.ctxWf = true ∧ h0.credit 64 = true ∧ (h0.ctx 0).en = true ∧ (h0.ctx 1).en = false ∧ h0.credit 8 = true ∧
    (hostS fun x => { x with channel := List.replicate 64 tok8 }).credit 64 = true ∧
    (held1.hostWrs.any fun w => match w.write with
      | .ingress d _ => decide (d = (0 : CtxId))
      | .memory _ _ | .physical _ _ => decide (w.req = 1)) = true ∧ held1.credit 64 = true ∧
    fullOut.credit 64 = false ∧ fullOut.credit 1 = false := by decide +kernel
theorem test_host_tokens : let send := fun (c : CtxId) (t : List Word) (s : State) => after (.hostPostedWrite 1 (.ingress c t)) s
    ((send 0 tok8 h0).ctx 0).channel = [tok8] ∧ ((send 0 [1] h0).ctx 0).bad = true ∧ ((send 1 tok8 h0).ctx 1).off = true ∧
    ((send 0 tok8 (hostS fun x => { x with channel := List.replicate 64 tok8 })).ctx 0).ovf = true ∧
    (send 0 tok8 held1).hostWrs.length = 2 ∧ (send 0 tok8 fullOut).hostWrs.length = 128 ∧ ((send 0 tok8 fullOut).ctx 0).channel = [] := by
  decide +kernel
/-- The index word is no write's: a byte of it, and the byte behind it. -/
theorem test_index_word : let s := after (.hostPostedWrite 1 (.physical 0xFFFF000007 [some 5, some 6])) { h0 with pwin := true }
    (after (.homeAcknowledgement 0 0) (after (.hostWriteForward 0) s)).hbm = [(0xFFFF000008, 6)] := by decide +kernel
/-- A posted store that a load has met before; one into a peer's window. -/
def metS : State := { postedS 0 with posted := (postedS 0).posted.map fun p => { p with done := true } }
theorem wit_posted_done : (metS.posted[0]?.map fun p => (p.done, metS.canAck p)) = some (true, true) ∧
    bits (smGet 0 metS.wa 0).toNat 62 61 = 2 ∧ bits (0x0000030000000000 : Word).toNat 62 61 ≠ 2 := by decide +kernel
theorem test_posted_done : (after (.peerStoreAcknowledgement 0) metS).hostMem = [] ∧ (after (.linkRemoteRefusal 0) metS).posted.length = 1 ∧
    (after (.peerStoreAcknowledgement 0) { postedS 0 with wa := [(0, 0x0000030000000000)] }).peerMem =
      [(3 * 2 ^ 48 + 8, 7)] := by decide +kernel
/-- A peer's store is translated at the home of each byte. -/
theorem wit_peer_homes : (List.range 2).all fun i =>
    decide (edgeS.tlbLook (0x17FF / 2 ^ 16 * 2 ^ 16 + stackOf (0x17FF + i) * 2 ^ 11) true = some (stackOf (0x17FF + i) * 2 ^ 11)) = true ∧
    edgeS.boundCell [(0x17FF, 1), (0x1800, 2)] = none := by decide +kernel
/-- Two copies of equal version in flash: the load replaces the one that the last load did not write. -/
def twinS (n : Nat) : Sec := { Sec.reset with flash := [(4, some image1), (5, some image1)], newest := [(2, n)] }
theorem test_equal_versions : (twinS 1).olderCopy 2 = 1 ∧ (twinS 2).olderCopy 2 = 0 ∧
    ({ twinS 1 with flash := [(5, some image1)] } : Sec).olderCopy 2 = 0 := by decide +kernel
/-- A start that finds kinds 1 to 4 and not kind 5 stops at stage 3, kind 5 named; kind 3 is validated first. -/
theorem test_boot_order : (bootWork.map (·.2.1)) = [3, 1, 0, 2, 4, 5, 6, 7, 0] ∧
    (runStages Sec.reset (0, 0)).cause = 2 ∧ (runStages Sec.reset (0, 0)).place = 3 ∧ (runStages Sec.reset (7, 0)).cause = 7 := by decide +kernel
/-- Accesses of a restored region are still to be replayed: neither its sequencer nor a firing executes. -/
def replayS : State := { stepS with ctxs := stepS.ctxs.map fun e => (e.1, { e.2 with fab := { e.2.fab with
  accesses := (gloadA 64 (.ldg .i32 (.port 0) false)).ctxs.flatMap fun p => p.2.fab.accesses.map fun a => { a with replay := true } } }) }
theorem wit_replays : (replayS.ctx 0).replays = true ∧ replayS.agenda = [.seq 0] ∧ (stepS.ctx 0).replays = false := by decide +kernel
theorem test_replays : ((stepOf replayS).seq 0).pc = (replayS.seq 0).pc ∧ (stepOf replayS).agenda = [] := by decide +kernel
/-- R290, R291: an image of one cluster of fold 2, with a node of one word on plane 1 only. -/
theorem test_image : imageWords (5 + 2 ^ 32) 1 2 [{ (default : ImageNode) with ref := { cl := 0, pe := 3, slot := 4, plane := 1 }, words := [7] }] =
    [5, 1, 0x10002, 0, 0, 0, 0, 0, 0, 0, 0, 0, 0, 0, 0, 0] ++ [96, 0, 0, 0, 96, 3, 0, 0] ++ [0x30401, 7, 0x80000000] := by decide +kernel


/-! ## Further witnesses -/

/-- A breakpoint register watches the instruction with two passes left. -/
def bpS : State := { s1 with ctxs := [(0, { s1.ctx 0 with sbp := [(0, 0x8000000200000000)] })] }
theorem wit_breakpoint_counts : bpS.ctxWf = true ∧ (bpS.seq 0).counted = false ∧ (smGet 0 (bpS.ctx 0).sbp 0).getLsbD 63 = true ∧
    bits (smGet 0 (bpS.ctx 0).sbp 0).toNat 29 2 * 4 = (bpS.seq 0).addr.toNat ∧ bits (smGet 0 (bpS.ctx 0).sbp 0).toNat 47 32 = 2 ∧
    (∀ k, k < 4 → k ≠ 0 → (smGet 0 (bpS.ctx 0).sbp k).getLsbD 63 = false) ∧ (s1'.seq 0).counted = true ∧ (bpS.seq 0).issue [] 0 = .go := by decide
theorem test_breakpoint_counts : smGet 0 ((beginPass 0 bpS).1.ctx 0).sbp 0 = 0x8000000100000000 ∧ (beginPass 0 bpS).2 = none := by decide

/-- Two levels end at one address, the inner with one iteration left, the outer with two: 4 words from 4 to 16. -/
def nestS : State := seqS fun x => { x with seq := { x.seq with pc := 16, act := 3, lc := [(0, 2), (1, 1)], lb := [(0, 4), (1, 8)], le := [(0, 16), (1, 16)] } }
theorem wit_nested_loops : nestS.ctxWf = true ∧ (∀ v, v < 2 → (nestS.seq 0).act.getLsbD v = true ∧ smGet 0 (nestS.seq 0).le v = (nestS.seq 0).addr.toNat) ∧
    (nestS.seq 0).cpend = 0 ∧ (nestS.seq 0).wpend = 0 ∧ (nestS.seq 0).act.getLsbD 2 = false := by decide
theorem test_nested_loops : ((retire 0 nestS).seq 0).pc = 4 ∧ ((retire 0 nestS).seq 0).act = 1 ∧ smGet 0 ((retire 0 nestS).seq 0).lc 0 = 1 := by decide

/-- A node's destination is its own slot, which its load fills on one plane. -/
theorem wit_destination_plane : let s := fireS .nop 0 0 g0 id
    s.nodeWords (s.ctx 0) { placedFiring.ref with plane := 0 } ≠ [] ∧ (∀ q : Fin 4, q ≠ 0 → s.nodeWords (s.ctx 0) { placedFiring.ref with plane := q } = []) ∧
    s.settle (s.ctx 0) placedFiring.ref 0 ({ placedFiring.ref with plane := 2 }, 1) = (placedFiring.ref, 1) := by decide +kernel

/-- Numbers, the root of a number, and operands that are none. -/
theorem wit_numbers : (fVal .f32 0x3F800000).isNan = false ∧ (fVal .f32 0x80000000).isNan = false ∧ (fVal .f32 0x7FC00000).isNan = true ∧
    fZero .f32 true = 0x80000000 ∧ fZero .f32 false = 0 ∧ 0x3F800000 < 2 ^ FltTy.width .f32 ∧ fMinMax false .f32 0x80000000 0 = { val := 0x80000000, fl := fNone } ∧
    (fCmp .f32 .lt 0x80000000 0).val = false ∧ fSignOp true .f32 0x3F800000 = { val := 0xBF800000, fl := fNone } := by decide +kernel
theorem test_roots : (fSqrt .f32 .rne false 0 0x40800000).val = 0x40000000 ∧ (fRsqrt .f32 .rne false 0 0x40800000).val = 0x3F000000 ∧
    (fSqrt .f32 .rne false 0 0x40000000).val = 0x3FB504F3 := by decide +kernel

/-- Components that wait: a port without a token, a request, a free, a phase, sorters, a full queue, an arrive, and a source. -/
def waitsS (ph : Phase) : State :=
  let s := chanS twoWs [] [tok 0 0 [1]]
  { s with ctxs := [(0, let x := s.ctx 0; { x with fab := { x.fab with
      firings := [{ g0 with phase := ph }], allocs := [{ firing := g0.id, space := 0, ring := 0, parent := 0, opened := false }] } })] }
theorem wit_hang_entries : let s := waitsS .waitAlloc
    (s.nodeImg (s.ctx 0) placedFiring.ref).map (·.portList) = some [0, 1] ∧ ((s.fab 0).waiting.map fun w => (w.tok.dest, w.tok.port)) = [(placedFiring.ref, 0)] ∧
    ((s.fab 0).allocs.find? fun q => q.firing == g0.id).isSome = true ∧ (s.ctx 0).seq.phase ≠ .stopped ∧
    (hangPorts s (s.ctx 0)).map (fun e => (e.kind, e.port)) = [(1, 1)] ∧ (hangFiring s (s.ctx 0) { g0 with phase := .waitAlloc }).map (·.kind) = [2] ∧
    (hangSeq s (s.ctx 0)).map (·.kind) = [9] ∧ (hangFiring s (s.ctx 0) { g0 with phase := .waitFree }).map (·.kind) = [3] ∧
    (hangFiring s (s.ctx 0) { g0 with phase := .waitPairs }).map (fun e => (e.kind, e.port)) = [(7, 0xFF)] ∧
    (hangFiring s (s.ctx 0) { g0 with phase := .waitPhase 8192 3 }).map (fun e => (e.kind, e.source)) = [(4, 1)] ∧
    (hangSources (srcS 0 true false) ((srcS 0 true false).ctx 0)).map (·.kind) = [2] := by decide +kernel
/-- A full queue of a route. -/
theorem wit_full_queue : hasRoom (List.replicate queueDepth (tok 0 0 [1])) (tok 0 0 [1]) = false := by simp [hasRoom]
/-- An arrive that its barrier holds, and an rdc that awaits an ordinal. -/
theorem wit_hang_held : (hangFiring (fireS (.arriveNode 3) 0 0 g0 id) ((fireS (.arriveNode 3) 0 0 g0 id).ctx 0) { g0 with phase := .waitFence [] }).map
      (fun e => (e.kind, e.source)) = [(4, 3)] ∧
    (hangFiring (fireS (.rdcInteger .i32 (.port 1) .add false) 0 0 g0 id) ((fireS (.rdcInteger .i32 (.port 1) .add false) 0 0 g0 id).ctx 0)
      { g0 with phase := .waitFence [] }).map (fun e => (e.kind, e.port)) = [(5, 1)] := by decide +kernel
/-- The map of an idle context whose sequencer waits, in a page at 0x5000. -/
def allTlb : SMap (List TlbEntry) := [0, 1, 2, 3, 4, 5, 6, 7].map fun d => (d, [{ level := 0, ia := 0, pa := 0, w := true }])
def hangS : State := { hostS fun x => { x with
  st := .running, hang := 0x0010000000005000, fab := { x.fab with idle := 2 ^ 24 } } with tlb := allTlb }
theorem wit_hang_map : bits (hangS.ctx 0).hang.toNat 63 52 ≠ 0 ∧ hangS.hbmErr = [] ∧ smWf 0 hangS.hbm = true ∧ hangS.ctxWf = true ∧
    (hangS.ctx 0).live = true ∧ bits (hangS.ctx 0).hang.toNat 47 12 * 2 ^ 12 = 0x5000 ∧
    ((List.range 512).all fun i => match (hangS.ctx 0).toIa false true (0x5000 + 8 * i) with
      | .ok ia => decide (ia = 0x5000 + 8 * i) && !inWindow ia && match (smGet [] hangS.tlb (dieOf ia)).find? fun e => e.hits ia false with
        | some e => e.w && decide (e.paOf ia = ia)
        | none => false
      | .error _ => false) = true := by decide +kernel
theorem test_hang_map : rdBytes (after (.watchdogTrip 0) hangS).hbm 0x5000 8 = 1 + 2 ^ 32 ∧ rdBytes (after (.watchdogTrip 0) hangS).hbm 0x5008 8 = 0 ∧
    rdBytes (after (.watchdogTrip 0) hangS).hbm 0x5040 8 = 0xFF09 := by decide +kernel

/-- A sorter whose bin SRAM is full of another binding's records, which has spilled some of handle 0's. -/
def spillS (n : Nat) (sp : List Rec) (op : Nat) : State :=
  { sortS with
    recs := List.replicate n { rec0 with handle := 1, current := true } ++ sp
    ctxs := [(0, let x := sortS.ctx 0; { x with bindings := [(0, ((x.binding 0).map fun b => { b with op := op, spillsize := 1 }))] })]
    tlb := [(0, [{ level := 0, ia := 0, pa := 0, w := true }])] }
def spilt (o v : Nat) : Rec := { rec0 with offset := o, value := v, run := 1, current := true }
theorem wit_spill (n : Nat) (sp : List Rec) (op : Nat) (hsp : ∀ r ∈ sp, r.handle = 0 ∧ r.run = 1 ∧ r.stack = 0 ∧ r.ctx = 0 ∧ r.err = 0) :
    n ≤ ((spillS n sp op).recs.filter fun r => decide (r.stack = 0 ∧ r.run = 0)).length ∧ (∀ r ∈ (spillS n sp op).recs, r.err = 0) ∧
    ((spillS n sp op).recs.filter fun r => decide ((r.ctx = 0 ∧ r.handle = 0 ∧ r.stack = 0) ∧ 0 < r.run)) = sp ∧
    ((spillS n sp op).fab 0).pairs[0]? = some pair0 ∧ (spillS n sp op).hbmErr = [] ∧ (spillS n sp op).ctxWf = true ∧
    (((spillS n sp op).ctx 0).binding 0).map (fun b => (b.op, b.spillsize * 128)) = some (op, 128) := by
  refine ⟨?_, ?_, ?_, rfl, rfl, rfl, rfl⟩
  · simp [spillS, rec0, List.filter_append]
  · intro r hr
    rcases List.mem_append.mp hr with h | h
    · rw [List.eq_of_mem_replicate h]; rfl
    · exact (hsp r h).2.2.2.2
  · simp only [spillS, List.filter_append]
    rw [List.filter_eq_nil_iff.mpr fun r h => by rw [List.eq_of_mem_replicate h]; decide, List.nil_append,
      List.filter_eq_self.mpr fun r h => by simp [hsp r h]]
/-- Its share holds 128 records: none, 128 of as many elements, or 128 of one element. -/
theorem wit_spill_shares : (∀ slot < 4, ∀ d ∈ [0, 8, 16, 24], ((((spillS 0 [] 0).ctx 0).binding 0).bind fun b => b.toIa (b.spillAddr 0 slot)) = some (0x20000 + 32 * slot) ∧
      (spillS 0 [] 0).tlbLook (0x20000 + 32 * slot + d) true = some (0x20000 + 32 * slot + d)) ∧
    (((List.range 128).map fun i => spilt (4 * i) 1).map (·.offset)).Nodup ∧ ¬ ((List.replicate 128 (spilt 8 1)).map (·.offset)).Nodup := by
  decide +kernel

/-- Fault tokens of a sequencer, of a sorter and of an engine; the context of each. -/
theorem wit_fault_units : let s := engS .copy 1 32 bLin dataL
    s.whoCtx (.seq 0) = some 0 ∧ s.whoCtx (.sorter 0 0) = some 0 ∧ (s.ctx 0).st = .running ∧
    (runS .copy 1 32 bLin dataL 1 [] []).whoCtx (.eng (engAt .copy 0 0)) = some 0 ∧ (s.seq 0).phase ≠ .stopped := by decide +kernel
theorem test_fault_units : ((after (.pageFault 0) { faultS with faultToks := [{ who := .seq 0, ia := 0x12345, wr := true }] }).seq 0).phase = .stopped ∧
    ((after (.pageFault 0) { faultS with faultToks := [{ who := .seq 0, ia := 0x12345, wr := true }] }).ctx 0).faultWr = true := by decide
/-- R334: an entry with a reserved bit, a leaf that is not aligned, and a pointer that is not, are malformed. -/
theorem wit_malformed : (∀ e ∈ [0xC000010040000000, 0xC000000040000008, 0x8000000000000008], bit e 63 = true ∧
      (bits e 60 40 ≠ 0 ∨ (bit e 62 = true ∧ bits e 39 0 % 2 ^ 29 ≠ 0) ∨ (bit e 62 = false ∧ bits e 39 0 % 128 ≠ 0))) ∧
    (missS true false 0xC000010040000000).misses.length = 1 := by decide
theorem test_malformed : ∀ e ∈ [0xC000010040000000, 0xC000000040000008, 0x8000000000000008],
    ((after (.walkResult 0) { missS true false e with ctxs := [(0, placedCtx)] }).seq 0).cause = 0x0209 ∧
    ((after (.walkResult 0) { missS true false e with ctxs := [(0, placedCtx)] }).seq 0).tval = 0 := by decide +kernel

/-- A later access to the same bytes, and one behind an access that is replayed, of one unit; a load of the host's memory. -/
def orderS (f : Access → Access) (addr : Nat) : State :=
  let a : Access := { id := 9, agent := .pe 0 0, mnode := 0, op := .store 5, glob := false, addr := 64, size := 4, lane := 0, firing := 7,
                      accepted := true, arrived := 0, deps := [], parked := false, replay := false, foot := [] }
  fireS .nop 0 0 (gA 5) fun x => { mapped x with fab := { x.fab with accesses := [f a, { a with id := 10, op := .load, addr := addr }] } }
theorem wit_access_order : let s := orderS id 66
    (match (s.fab 0).accesses with
      | [b, a] => decide ((s.ctx 0).unitOf 0 b = (s.ctx 0).unitOf 0 a) && accOverlap (s.ctx 0) b (s.ctx 0) a
      | _ => false) = true ∧ (orderS (fun a => { a with replay := true }) 512).ctxWf = true := by decide +kernel
theorem test_access_order : ((after (.accessPerform 0 1) (orderS id 66)).fab 0).accesses.length = 2 ∧
    ((after (.accessPerform 0 1) (orderS (fun a => { a with replay := true }) 512)).fab 0).accesses.length = 2 ∧
    ((after (.accessPerform 0 1) (orderS id 512)).fab 0).accesses.length = 1 := by decide +kernel
theorem wit_window_load_place : let s := accS [] []
    s.posted = [] ∧ s.remotePlace 0x400000000000 = s.remotePlace 0x400000000003 ∧ isHostPlace (s.remotePlace 0x400000000000) = true ∧
    s.remoteAddr 0x400000000003 = s.remoteAddr 0x400000000000 + 3 ∧
    isHostPlace (({ s with wa := [(0, 0x8000000000000000)] } : State).remotePlace 0x400000000000) = false := by decide +kernel

/-- A launch with a window table; one whose record names an image; the tables' pages are in the TLB, at 0 on every die. -/
def wtabS : State :=
  { queuedS fun x => { x with queue := [{ task1 with wtab := 0x3000 }] } with
    hbm := wrBytes (wrBytes [] 0x3000 0x7000 8) 0x3008 0x100 8, tlb := allTlb }
theorem wit_window_table : wtabS.topTask = some (0, { task1 with wtab := 0x3000 }) ∧
    (match readWtab 0 (.sched 0 true) 0 0x3000 (List.range 8) wtabS with
      | .ok es v => decide (es = [0x7000 + 0x100 * 2 ^ 64, 0, 0, 0, 0, 0, 0, 0]) && v.ctxWf
      | .bad _ _ | .stall _ => false) = true := by decide +kernel
theorem test_window_table : smGet none ((after .taskPlace wtabS).ctx 0).windows 0 = some (0x7000, 0x100) ∧
    smGet none ((after .taskPlace wtabS).ctx 0).windows 1 = none := by decide +kernel
def imageS (ws : List Nat) (tlb : SMap (List TlbEntry)) : State :=
  { queuedS id with
    records := [(0x40, { rec1 with images := [0x4000] })], tlb := tlb
    hbm := ws.zipIdx.foldl (fun m w => wrBytes m (0x4000 + 4 * w.2) w.1 4) [] }
theorem wit_first_image : (match taskCheck 0 (.sched 0 true) task1 (imageS (imageWords 5 1 1 []) allTlb) with
      | .ok r u => decide (r.images = [0x4000] ∧ u.pickBlock 0 task1 [0x4000] = some 0) && decide ((imageWait 0 0x4000 u).isSome = false)
      | .refuse _ _ _ _ | .stall _ => false) = true ∧
    (imageWait 0 0x4000 (imageS (imageWords 5 1 1 []) [])).isSome = true ∧ imgHeadBad ((imageWords 5 1 1 []).take 16) = none ∧
    imgHeadBad [5, 0, 0x10005] = some 2 := by decide +kernel
theorem test_first_image : smGet noPlane (after .taskPlace (imageS (imageWords 5 1 1 []) allTlb)).planes 0 = (0x4000, 5, 0, 1) ∧
    ((after .taskPlace (imageS [5, 0, 0x10005] allTlb)).seq 0).cause = 0x0401 ∧ ((after .taskPlace (imageS [5, 0, 0x20001] allTlb)).seq 0).cause = 0x0305 := by
  decide +kernel

/-- R310: a byte of a token that must be 0. -/
theorem wit_zero_bytes : tokByte [3, 0, 0, 0, 0, 0, 0, 1] 56 = 1 ∧ (suspS [3, 0, 0, 0, 0, 0, 0, 1]).nextToken 0 = some [3, 0, 0, 0, 0, 0, 0, 1] := by
  decide +kernel
theorem test_zero_bytes : refusedT (.retire 0) (suspS [3, 0, 0, 0, 0, 0, 0, 1]) = 0x108040002 ∧
    refusedT (.stop 0) (suspS [5, 1, 0, 0, 0, 0, 0, 0]) = 0x108040002 ∧ refusedT (.mark 0) (suspS [4, 0, 0, 0, 0, 0, 7, 0]) = 0x108040002 := by
  decide +kernel
/-- A ring without room, and a task whose output tiles a success makes resident. -/
def ringS (n : Word) : State := hostS fun x => { x with
  st := .retiring, ecount := n, task := some { task1 with outmask := 6 }
  ending := some { kind := 1, code := 0, reason := 0, value := 7, flags := 0, report := 0, extra := 0, cookie := 8, seqno := 9 } }
theorem wit_ring : 64 ≤ (((ringS 64).ctx 0).ecount - ((ringS 64).ctx 0).ehead).toNat ∧ ((ringS 0).ctx 0).trigen = 0 ∧ (ringS 0).ctxWf = true := by
  decide +kernel
theorem test_ring : ((after (.completionTokenWrite 0) (ringS 0)).ctx 0).tiles = 6 ∧ ((after (.completionTokenWrite 0) (ringS 0)).ctx 0).ecount = 1 ∧
    ((after (.completionTokenWrite 0) (ringS 64)).ctx 0).ecount = 64 ∧ ((after (.completionTokenWrite 0) (ringS 64)).ctx 0).tiles = 6 := by decide +kernel
/-- R272: a register write without credits waits. -/
theorem test_credit : ((after (.registerWrite 0x200050 0x2001) fullOut).ctx 0).egress = (fullOut.ctx 0).egress ∧ fullOut.credit 8 = false := by
  decide +kernel

/-- A forwarded write of the intermediate space, at its home, and the pages that it and a read find. -/
def homeS : State := { h0 with
  hostWrs := [{ req := 1, write := .memory 0x100 [some 5, none], forwarded := true, acks := [0] }], tlb := allTlb }
theorem wit_home : (homeS.hostWrs[0]?).map (fun w => (w.forwarded, w.acks)) = some (true, [0]) ∧ homeS.memOn = true ∧ homeS.hostBusy 2 = false ∧
    homeS.regionOf 0x100 = none ∧ (match (smGet [] homeS.tlb (dieOf 0)).find? fun e => e.hits 0 false with
      | some e => e.w && decide (e.paOf 0 = 0)
      | none => false) = true ∧ (match (smGet [] homeS.tlb (dieOf 0x100)).find? fun e => e.hits 0x100 false with
      | some e => decide (e.paOf 0x100 = 0x100)
      | none => false) = true := by decide +kernel
theorem test_home : (after (.homeAcknowledgement 0 0) homeS).hbm = [(0x100, 5)] ∧ (after (.homeAcknowledgement 0 0) homeS).hostWrs = [] ∧
    (after (.hostRead 2 .memory 0x100 2) { homeS with hbm := [(0x101, 9)] }).lastReply = some (.data [0, 9]) ∧
    (after (.hostRead 2 .memory 0x100 2) { homeS with boot := Boot.reset }).lastReply = some .unsupported := by decide +kernel
/-- Two posted stores of one unit to one location: the later one's acknowledgement performs the earlier. -/
def twicePosted : State := { postedS 0 with posted := (postedS 0).posted ++ (postedS 0).posted.map fun p => { p with id := 2, bytes := [8] } }
theorem wit_posted_order : (match twicePosted.posted with
      | [q, p] => decide (q.src = p.src ∧ q.done = false) && remoteMeet (twicePosted.postedAt q) (twicePosted.postedAt p) && twicePosted.canAck p
      | _ => false) = true ∧ (twicePosted.posted.map Posted.id).Nodup := by decide +kernel
theorem test_posted_order : (after (.peerStoreAcknowledgement 1) twicePosted).posted.map (fun p => (p.id, p.done)) = [(1, true), (2, false)] ∨
    (after (.peerStoreAcknowledgement 1) twicePosted).posted.map (fun p => (p.id, p.done)) = [(1, true)] := by decide +kernel

/-- A sequencer that keeps its instruction, one beyond 32 bits, and one of a region that still has fences to perform. -/
def irS : State := { stepS with ctxs := [(0, { placedCtx with seq := { Seq.reset with ir := some 0xFC000000 } })] }
def farS : State := { stepS with ctxs := [(0, { placedCtx with seq := { Seq.reset with far := true } })] }
theorem wit_step_cases : (irS.ctx 0).seq.ir = some 0xFC000000 ∧ (irS.ctx 0).seqRuns = true ∧ (farS.ctx 0).seq.far = true ∧ (farS.ctx 0).seqRuns = true ∧
    (replayS.ctx 0).goesOn none = false ∧ (replayS.ctx 0).goesOn (some 0) = false ∧
    ({ placedCtx with fab := { placedCtx.fab with heldFences := [none] } } : Ctx).fab.fencing = true ∧ (placedCtx.goesOn none = true) := by decide +kernel
theorem test_step_cases : ((stepOf irS).seq 0).cause = 0x0401 ∧ ((stepOf farS).seq 0).cause = 0x0304 := by decide +kernel

end Sys2Proof.Tests
end

section
/-! SUPPORT. What a write of the host, of a peer or of the loader at the homes of its bytes leaves alone. -/

namespace Sys2Proof.Machine

open Sys2Proof

/-- The state without what an access at a home may change: HBM and its checks, the TLBs, the fault log, the free values
and the last reply. -/
def State.offHome (s : State) : State :=
  { s with
    hbm := [], hbmErr := [], corrected := [], uncorrected := [], tlb := [], frees := 0, eccLog := [], eccCount := 0,
    lastReply := none }

theorem offHome_countEcc (s : State) (d f b : Nat) : (s.countEcc d f b).offHome = s.offHome := by
  unfold State.countEcc; split <;> rfl

theorem offHome_hbmRead (a n : Nat) (s : State) : (hbmRead a n s).s.offHome = s.offHome :=
  countWords_keeps State.offHome offHome_countEcc _ _ _ _

theorem offHome_hbmWrite (a n v : Nat) (s : State) : (hbmWrite a n v s).s.offHome = s.offHome :=
  countWords_keeps State.offHome offHome_countEcc _ _ _ _

theorem offHome_tlbFill (die : Nat) (e : TlbEntry) (s : State) : (tlbFill die e s).offHome = s.offHome := by
  unfold tlbFill
  dsimp only
  split <;> rfl

theorem offHome_walkFrom (ia : Nat) (wr : Bool) (fuel level table : Nat) (s : State) :
    (walkFrom ia wr fuel level table s).2.offHome = s.offHome := by
  induction fuel generalizing level table s with
  | zero => rfl
  | succ fuel ih =>
    have hr := offHome_hbmRead (table + 8 * walkIndex level ia) 8 s
    simp only [walkFrom]
    split
    · exact hr
    · simp only [ih, hr, apply_ite Prod.snd, apply_ite State.offHome, ite_self]

theorem offHome_walk (ia : Nat) (wr : Bool) (s : State) : (walk ia wr s).2.offHome = s.offHome :=
  offHome_walkFrom ia wr 3 0 s.ptRoot.toNat s

/-- A walk whose leaf the TLB takes. -/
theorem offHome_walkFill (ia : Nat) (wr : Bool) (s : State) :
    (match (walk ia wr s).1 with
      | .leaf e => ((walk ia wr s).1, tlbFill (dieOf ia) e (walk ia wr s).2)
      | .fault | .malformed _ | .ecc _ => walk ia wr s).2.offHome = s.offHome := by
  split
  · exact (offHome_tlbFill _ _ _).trans (offHome_walk ia wr s)
  all_goals exact offHome_walk ia wr s

theorem offHome_pageLook (ia : Nat) (wr : Bool) (s : State) : (pageLook ia wr s).2.offHome = s.offHome := by
  unfold pageLook
  dsimp only
  split
  · exact offHome_walkFill ia wr s
  · split_ifs
    · rfl
    · rfl
    · exact offHome_walkFill ia wr s.fresh.2

theorem offHome_homePa (ia : Nat) (wr : Bool) (s : State) : (homePa ia wr s).2.offHome = s.offHome := by
  unfold homePa
  dsimp only
  split <;> exact offHome_pageLook ia wr s

theorem offHome_homeBytes (pa : Nat) (cs : List Cell) (r : MemRes) :
    (cs.foldl (fun (r : MemRes) c => if r.bad.isSome then r else hbmWrite (pa + c.1 % 8) 1 c.2.toNat r.s) r).s.offHome =
      r.s.offHome := by
  induction cs generalizing r with
  | nil => rfl
  | cons c t ih =>
    rw [List.foldl_cons, ih]
    split
    · rfl
    · exact offHome_hbmWrite _ _ _ _

theorem offHome_homeWord (pa : Nat) (cs : List Cell) (s : State) : (homeWord pa cs s).offHome = s.offHome := by
  unfold homeWord
  split
  · exact offHome_hbmWrite _ _ _ _
  · have h := offHome_homeBytes pa cs { s := s, val := 0, bad := none }
    dsimp only
    split <;> exact h

theorem offHome_writePhys (cs : List Cell) (s : State) : (writePhys cs s).offHome = s.offHome := by
  unfold writePhys
  induction cellWords cs generalizing s with
  | nil => rfl
  | cons w t ih => exact (ih _).trans (offHome_homeWord _ _ _)

theorem offHome_writePart (cs : List Cell) (s : State) (p : Nat × Nat) : (writePart cs s p).offHome = s.offHome := by
  have h := offHome_homePa (partAddr p) true s
  unfold writePart
  split
  · rename_i hq
    rw [hq] at h
    exact h
  · rename_i hq
    rw [hq] at h
    exact (offHome_writePhys _ _).trans h

/-- A write at the homes of its bytes leaves everything else of the state alone. -/
theorem offHome_writeHome (cs : List Cell) (s : State) : (writeHome cs s).offHome = s.offHome := by
  unfold writeHome
  induction (cs.map fun c => homePart c.1).dedup generalizing s with
  | nil => rfl
  | cons p t ih => exact (ih _).trans (offHome_writePart _ _ _)

end Sys2Proof.Machine
end

section
/-! SUPPORT. The loader's results: where a load ends, the choice of the image, replication, and the tag check. -/

namespace Sys2Proof.Machine

open Sys2Proof Sys2Proof.Claims

/-! ### The end of a load -/

/-- A load that the loader refuses appends its report and counts one free value. -/
theorem loaderTurn_error {s : State} {object : List Byte} {q : LoadReq} {r : LdrReport} (ia : Nat)
    (h : loadObject s (s.loadEnv object q) object q = .error r) :
    loaderTurn ia object q s = { s with frees := s.frees + 1, ldrLog := s.ldrLog ++ [r] } := by
  simp [loaderTurn, h]

/-- A load that the loader accepts leaves the record and writes its bytes. -/
theorem loaderTurn_ok {s : State} {object : List Byte} {q : LoadReq} {l : Loaded} (ia : Nat)
    (h : loadObject s (s.loadEnv object q) object q = .ok l) :
    loaderTurn ia object q s = writeHome l.cells { s with
      frees := s.frees + 1, records := smIns s.records ia l.rec_, idents := s.idents + l.images } := by
  simp [loaderTurn, h]

theorem loadsEndInARecordOrAReport : LoadsEndInARecordOrAReport := by
  intro s ia object q
  refine ⟨fun r h => ⟨_, rfl, ?_⟩, fun l h => ⟨_, rfl, ?_⟩⟩
  · rw [loaderTurn_error ia h]
    exact ⟨rfl, rfl, rfl, rfl, rfl, rfl, rfl⟩
  · rw [loaderTurn_ok ia h]
    have kept := offHome_writeHome l.cells { s with
      frees := s.frees + 1, records := smIns s.records ia l.rec_, idents := s.idents + l.images }
    exact ⟨(congrArg State.records kept :), (congrArg State.ldrLog kept :), (congrArg State.nodes kept :),
      (congrArg State.ctxs kept :), (congrArg State.sp kept :), (congrArg State.hostMem kept :)⟩

/-! ### Requests (R281, R285) -/

/-- A check that passes every element passes the list. -/
theorem mapM_ok_of_forall {α β : Type} {f : α → LoadRes β} {l : List α} (h : ∀ x ∈ l, ∃ y, f x = .ok y) :
    ∃ ys, l.mapM f = .ok ys := by
  induction l with
  | nil => exact ⟨[], rfl⟩
  | cons x t ih =>
    obtain ⟨y, hy⟩ := h x (by simp)
    obtain ⟨ys, hys⟩ := ih fun z hz => h z (by simp [hz])
    exact ⟨y :: ys, by rw [List.mapM_cons, hy, hys]; rfl⟩

/-- What puts a field of a load request out of its range. -/
theorem not_inRange {q : LoadReq} (h : q.clusters ∉ [1, 2, 4, 8, 16, 32, 64] ∨ q.ovStore % 65536 ≠ 0 ∨ 4194304 < q.ovStore ∨
    q.ovBase % 65536 ≠ 0 ∨ q.ovSize % 65536 ≠ 0 ∨ 4095 * 65536 < q.ovSize ∨ ∃ p ∈ q.pools, p.2 = 0 ∨ 4096 < p.2) :
    q.inRange = false := by
  by_contra hr
  simp only [LoadReq.inRange, regionSize, Bool.not_eq_false, Bool.and_eq_true, decide_eq_true_eq, List.all_eq_true,
    List.contains_iff_mem] at hr
  obtain ⟨⟨⟨hc, hs⟩, ha⟩, hp⟩ := hr
  obtain h | h | h | h | h | h | ⟨p, hm, h⟩ := h
  · exact h hc
  · exact h (by omega)
  · omega
  · exact h (by omega)
  · exact h (by omega)
  · omega
  · have := hp p hm
    omega

theorem requestsOutOfRangeAreRefused : RequestsOutOfRangeAreRefused := by
  intro s env object q ss hobj hreqs hq
  obtain ⟨us, hus⟩ := mapM_ok_of_forall (f := checkReqs) (l := ss.filter fun x => decide (x.kind = 1)) fun x hx => by
    obtain ⟨hx, hk⟩ := List.mem_filter.1 hx
    exact ⟨(), hreqs x hx (of_decide_eq_true hk)⟩
  have hneed : need q.inRange ldrFormat 6 none = .error { code := 0x0A06, reason := 6, node := none } := by
    rw [not_inRange hq]; rfl
  simp only [loadObject, hobj, hus, hneed, bind, Except.bind]

/-! ### The choice of the image (R284) -/

/-- The preference of an image: that of its seq section. -/
def prefOf (ss : List Sect) (i : Nat) : Nat := ((sectsIn ss i 4).map (·.pref)).headD 0

theorem imageBefore_iff (ss : List Sect) (i j : Nat) : imageBefore ss i j = true ↔
    prefOf ss j < prefOf ss i ∨ (prefOf ss i = prefOf ss j ∧
      (targetOf ss j < targetOf ss i ∨ (targetOf ss i = targetOf ss j ∧ i < j))) := by
  simp [imageBefore, prefOf]

/-- Whether image `i` is chosen over image `j`, or is it (R284). -/
def AtLeast (ss : List Sect) (i j : Nat) : Prop :=
  prefOf ss j < prefOf ss i ∨ (prefOf ss j = prefOf ss i ∧
    (targetOf ss j < targetOf ss i ∨ (targetOf ss j = targetOf ss i ∧ i ≤ j)))

theorem AtLeast.refl (ss : List Sect) (i : Nat) : AtLeast ss i i := by unfold AtLeast; omega

theorem AtLeast.trans {ss : List Sect} {i j k : Nat} (h : AtLeast ss i j) (g : AtLeast ss j k) : AtLeast ss i k := by
  unfold AtLeast at *; omega

/-- The better of two images: it is one of them and at least each. -/
theorem better_spec (ss : List Sect) (i j : Nat) :
    (if imageBefore ss j i then j else i) ∈ [i, j] ∧ AtLeast ss (if imageBefore ss j i then j else i) i ∧
      AtLeast ss (if imageBefore ss j i then j else i) j := by
  split
  · rename_i h
    rw [imageBefore_iff] at h
    exact ⟨by simp, by unfold AtLeast; omega, .refl ss j⟩
  · rename_i h
    rw [imageBefore_iff] at h
    exact ⟨by simp, .refl ss i, by unfold AtLeast; omega⟩

/-- The best of some images is one of them and at least each. -/
theorem best_spec (ss : List Sect) (t : List Nat) (a : Nat) :
    t.foldl (fun i j => if imageBefore ss j i then j else i) a ∈ a :: t ∧
      ∀ j ∈ a :: t, AtLeast ss (t.foldl (fun i j => if imageBefore ss j i then j else i) a) j := by
  induction t generalizing a with
  | nil => simp [AtLeast.refl]
  | cons b t ih =>
    obtain ⟨hmem, hbest⟩ := ih (if imageBefore ss b a then b else a)
    obtain ⟨hone, ha, hb⟩ := better_spec ss a b
    rw [List.foldl_cons]
    refine ⟨?_, fun j hj => ?_⟩
    · simp only [List.mem_cons, List.not_mem_nil, or_false] at hmem hone ⊢
      grind
    · have hc := hbest _ (List.mem_cons_self ..)
      simp only [List.mem_cons] at hj
      obtain rfl | rfl | hj := hj
      · exact hc.trans ha
      · exact hc.trans hb
      · exact hbest j (List.mem_cons_of_mem _ hj)

/-- The native images that match. -/
def nativeHits (s : State) (version : Nat) (q : LoadReq) (ss : List Sect) : List Nat :=
  (imagesOf ss).filter fun i => decide (1 ≤ i) && imageMatch s version q ss true i

theorem mem_nativeHits {s : State} {version : Nat} {q : LoadReq} {ss : List Sect} {j : Nat} :
    j ∈ nativeHits s version q ss ↔ j ∈ imagesOf ss ∧ j ≠ 0 ∧ imageMatch s version q ss true j = true := by
  simp [nativeHits, Nat.one_le_iff_ne_zero]

/-- Without a native image that matches, the loader takes image 0 where that matches. -/
theorem chooseImage_of_none {s : State} {version : Nat} {q : LoadReq} {ss : List Sect} (h : nativeHits s version q ss = []) :
    chooseImage s version q ss true = if imageMatch s version q ss true 0 then some 0 else none := by
  unfold nativeHits at h
  simp only [chooseImage, h]

/-- Where native images match, the loader takes the best of them. -/
theorem chooseImage_of_some {s : State} {version : Nat} {q : LoadReq} {ss : List Sect} (h : nativeHits s version q ss ≠ []) :
    ∃ i ∈ nativeHits s version q ss, chooseImage s version q ss true = some i ∧
      ∀ j ∈ nativeHits s version q ss, AtLeast ss i j := by
  obtain ⟨a, t, hat⟩ := List.exists_cons_of_ne_nil h
  obtain ⟨hmem, hbest⟩ := best_spec ss t a
  refine ⟨_, hat ▸ hmem, ?_, hat ▸ hbest⟩
  unfold nativeHits at hat
  simp only [chooseImage, hat]

theorem loaderChoosesTheImage : LoaderChoosesTheImage := by
  intro s version q ss
  have hempty : (∀ j ∈ imagesOf ss, j ≠ 0 → ¬ imageMatch s version q ss true j = true) → nativeHits s version q ss = [] := by
    intro h
    refine List.eq_nil_iff_forall_not_mem.2 fun j hj => ?_
    obtain ⟨hj, h0, hm⟩ := mem_nativeHits.1 hj
    exact h j hj h0 hm
  refine ⟨fun i hi h0 => ?_, fun h hz => ?_, fun h hz => ?_, fun j hj h0 hm => ?_⟩
  · have hne : nativeHits s version q ss ≠ [] := by
      intro h
      rw [chooseImage_of_none h] at hi
      split at hi
      · exact h0 (Option.some.inj hi).symm
      · cases hi
    obtain ⟨k, hk, hc, hbest⟩ := chooseImage_of_some hne
    obtain rfl : k = i := Option.some.inj (hc.symm.trans hi)
    obtain ⟨hmem, -, hmatch⟩ := mem_nativeHits.1 hk
    exact ⟨hmem, hmatch, fun j hj hj0 hm => hbest j (mem_nativeHits.2 ⟨hj, hj0, hm⟩)⟩
  · rw [chooseImage_of_none (hempty h), if_pos hz]
  · rw [chooseImage_of_none (hempty h), if_neg hz]
  · obtain ⟨k, hk, hc, -⟩ := chooseImage_of_some (List.ne_nil_of_mem (mem_nativeHits.2 ⟨hj, h0, hm⟩))
    exact ⟨k, (mem_nativeHits.1 hk).2.1, hc⟩

/-! ### Replication (R286) -/

theorem tilesAreReplicated : TilesAreReplicated := by
  intro f c tiles h1 h4
  refine ⟨fun h => ?_, fun h ha hr => ?_, fun h hr => ?_⟩
  · have : ¬ (1 ≤ f ∧ f ≤ 4 ∧ (tiles.map fun t => t.getD 0).sum ≤ f * c) := by omega
    simp only [copiesOf, need, this, decide_false]
    rfl
  · have hframes : 1 ≤ f ∧ f ≤ 4 ∧ (tiles.map fun t => t.getD 0).sum ≤ f * c := ⟨h1, h4, h⟩
    have hplace := not_or_intro ha (Nat.not_le.2 hr)
    simp only [copiesOf, need, hframes, hplace, decide_false]
    rfl
  · have hframes : 1 ≤ f ∧ f ≤ 4 ∧ (tiles.map fun t => t.getD 0).sum ≤ f * c := ⟨h1, h4, h⟩
    simp only [copiesOf, need, hframes, hr]
    rfl

/-! ### The tag check (R298) -/

/-- A reason shows: by a node, or bare. -/
def Shown.shows (h : Shown) : Prop := ¬ (h.nums = [] ∧ h.bare = false)

theorem firstReason_some {r₀ : Nat} {l : List Shown} {r : Nat} {n : Option Nat} (h : firstReason r₀ l = some (r, n)) :
    ∃ k x, l[k]? = some x ∧ r = r₀ + k ∧ x.shows ∧ n = x.nums.min? ∧ ∀ j < k, ∀ y, l[j]? = some y → ¬ y.shows := by
  induction l generalizing r₀ with
  | nil => cases h
  | cons a t ih =>
    rw [firstReason] at h
    split at h
    · rename_i ha
      obtain ⟨k, x, hx, rfl, hshow, hn, hlow⟩ := ih h
      refine ⟨k + 1, x, by simpa using hx, by omega, hshow, hn, fun j hj y hy => ?_⟩
      cases j with
      | zero =>
        obtain rfl : a = y := by simpa using hy
        exact fun hs => hs (by simpa using ha)
      | succ j => exact hlow j (by omega) y (by simpa using hy)
    · rename_i ha
      obtain ⟨rfl, rfl⟩ := Prod.mk.inj (Option.some.inj h)
      exact ⟨0, a, rfl, rfl, fun hs => ha (by simpa using hs), rfl, fun j hj => absurd hj (by omega)⟩

theorem firstReason_none {r₀ : Nat} {l : List Shown} : firstReason r₀ l = none ↔ ∀ x ∈ l, ¬ x.shows := by
  induction l generalizing r₀ with
  | nil => simp [firstReason]
  | cons a t ih =>
    rw [firstReason, List.forall_mem_cons]
    split
    · rename_i ha
      have : ¬ a.shows := fun hs => hs (by simpa using ha)
      simp [ih, this]
    · rename_i ha
      have : a.shows := fun hs => ha (by simpa using hs)
      simp [this]

theorem length_reasons (g : Graph) (s : State) (lsize : Nat) (shared : Shown) : (g.reasons s lsize shared).length = 12 := rfl

theorem tagCheckReportsTheFirstReason : TagCheckReportsTheFirstReason := by
  intro s g lsize shared
  have hlen := length_reasons g s lsize shared
  unfold Graph.check
  generalize g.reasons s lsize shared = l at hlen ⊢
  refine ⟨fun r n h => ?_, ?_⟩
  · obtain ⟨k, x, hx, rfl, hshow, rfl, hlow⟩ := firstReason_some h
    have hk : k < l.length := (List.getElem?_eq_some_iff.1 hx).1
    have hget : l.getD (1 + k - 1) { nums := [], bare := false } = x := by simp [List.getD, hx]
    dsimp only
    rw [hget]
    refine ⟨by omega, by omega, fun j hj => ?_, ?_, fun m hm => ?_, fun hm => ?_⟩
    · have hj' : j < l.length := by omega
      have := hlow j (by omega) l[j] (List.getElem?_eq_getElem hj')
      simpa [List.getD, hj', Shown.shows] using this
    · unfold Shown.shows at hshow
      cases hb : x.bare
      · exact .inl fun hn => hshow ⟨hn, hb⟩
      · exact .inr rfl
    · exact ⟨List.min?_mem hm, fun j hj => (List.min?_eq_some_iff.1 hm).2 j hj⟩
    · simpa using hm
  · rw [firstReason_none]
    refine ⟨fun h k hk => ?_, fun h x hx hshow => ?_⟩
    · have := h l[k] (List.getElem_mem (by omega))
      have hk' : k < l.length := by omega
      simpa [List.getD, hk', Shown.shows] using this
    · obtain ⟨k, hk, rfl⟩ := List.getElem_of_mem hx
      exact hshow (by simpa [List.getD, hk] using h k (by omega))

end Sys2Proof.Machine
end

section
/-! SUPPORT. The layout of a configuration image (R290, R291). -/

namespace Sys2Proof.Machine

open Sys2Proof Sys2Proof.Claims

theorem length_partDescs (o : Nat) (ps : List (List Nat)) : (partDescs o ps).length = 4 * ps.length := by
  induction ps generalizing o with
  | nil => rfl
  | cons p t ih => simp only [partDescs, List.length_cons, ih]; omega

/-- Descriptor `i` gives where the parts before it end, and the length of its own part. -/
theorem partDescs_getD {ps : List (List Nat)} {i : Nat} (hi : i < ps.length) (o j : Nat) (hj : j < 4) :
    (partDescs o ps).getD (4 * i + j) 0 = [o + 4 * (ps.take i).flatten.length, (ps.getD i []).length, 0, 0].getD j 0 := by
  induction ps generalizing o i with
  | nil => simp at hi
  | cons p t ih =>
    cases i with
    | zero => interval_cases j <;> simp [partDescs]
    | succ i =>
      have hstep : (partDescs o (p :: t)).getD (4 * (i + 1) + j) 0 = (partDescs (o + 4 * p.length) t).getD (4 * i + j) 0 := by
        rw [show 4 * (i + 1) + j = 4 * i + j + 4 by omega]
        rfl
      rw [hstep, ih (by simpa using hi), List.take_succ_cons, List.flatten_cons, List.length_append, List.getD_cons_succ,
        Nat.mul_add, Nat.add_assoc]

/-- Part `i` stands after the parts before it. -/
theorem part_of_flatten {ps : List (List Nat)} {i : Nat} (hi : i < ps.length) :
    (ps.flatten.drop (ps.take i).flatten.length).take (ps.getD i []).length = ps.getD i [] := by
  have hsplit : ps.flatten = (ps.take i).flatten ++ (ps[i] ++ (ps.drop (i + 1)).flatten) := by
    rw [← List.flatten_cons, ← List.drop_eq_getElem_cons hi, ← List.flatten_append, List.take_append_drop]
  rw [List.getD_eq_getElem _ _ hi]
  conv_lhs => rw [hsplit]
  rw [List.drop_left, List.take_left]

/-- The 16 words of an image's header: its identity, its planes and clusters, and zeros (R290). -/
def imageHead (ident c f : Nat) : List Nat :=
  [ident % 2 ^ 32, ident / 2 ^ 32 % 2 ^ 32, f + c * 2 ^ 16] ++ List.replicate 13 0

/-- The parts of an image, by relative cluster and plane offset. -/
def imageParts (c f : Nat) (ns : List ImageNode) : List (List Nat) :=
  (List.range (c * f)).map fun i => partWords ns (i / f) (i % f)

theorem imageWords_eq (ident c f : Nat) (ns : List ImageNode) : imageWords ident c f ns =
    imageHead ident c f ++ (partDescs (64 + 16 * (c * f)) (imageParts c f ns) ++ (imageParts c f ns).flatten) := by
  simp [imageWords, imageHead, imageParts]

theorem length_imageParts (c f : Nat) (ns : List ImageNode) : (imageParts c f ns).length = c * f := by simp [imageParts]

theorem imageWords_head (ident c f : Nat) (ns : List ImageNode) {j : Nat} (hj : j < 16) :
    (imageWords ident c f ns).getD j 0 = (imageHead ident c f).getD j 0 := by
  rw [imageWords_eq, List.getD_append _ _ _ _ (by simpa [imageHead] using hj)]

theorem imageWords_desc (ident f : Nat) {c i j : Nat} (ns : List ImageNode) (hi : i < c * f) (hj : j < 4) :
    (imageWords ident c f ns).getD (16 + 4 * i + j) 0 =
      [64 + 16 * (c * f) + 4 * ((imageParts c f ns).take i).flatten.length, ((imageParts c f ns).getD i []).length, 0, 0].getD
        j 0 := by
  have hlen := length_imageParts c f ns
  rw [imageWords_eq, List.getD_append_right _ _ _ _ (by simp [imageHead]; omega),
    List.getD_append _ _ _ _ (by rw [length_partDescs]; simp [imageHead]; omega), ← partDescs_getD (by omega) _ j hj]
  congr 1
  simp [imageHead]
  omega

/-- The words of an image from where the parts begin. -/
theorem imageWords_drop (ident c f n : Nat) (ns : List ImageNode) :
    (imageWords ident c f ns).drop (16 + 4 * (c * f) + n) = (imageParts c f ns).flatten.drop n := by
  have hhead : (imageHead ident c f).length = 16 := rfl
  have hdescs := length_partDescs (64 + 16 * (c * f)) (imageParts c f ns)
  rw [length_imageParts] at hdescs
  rw [imageWords_eq, ← List.append_assoc, ← List.drop_drop, List.drop_left' (by simp [hhead, hdescs])]

theorem imageParts_getD {c f i : Nat} (ns : List ImageNode) (hi : i < c * f) :
    (imageParts c f ns).getD i [] = partWords ns (i / f) (i % f) := by
  simp [imageParts, hi]

/-- The words of a part, by whether a node lies in it. -/
theorem partWords_eq (ns : List ImageNode) (cl plane : Nat) : partWords ns cl plane =
    if ns.filter (fun n => decide (n.ref.cl = cl ∧ n.ref.plane = plane)) = [] then [] else
      ((ns.filter fun n => decide (n.ref.cl = cl ∧ n.ref.plane = plane)).flatMap fun n =>
        (n.ref.pe * 2 ^ 16 + n.ref.slot * 2 ^ 8 + n.words.length) :: n.words) ++ [0x80000000] := by
  unfold partWords endRecord
  split
  · rename_i h; rw [if_pos h]
  · rename_i h; rw [if_neg h]

theorem imagesAreLaidOut : ImagesAreLaidOut := by
  intro ident c f i ns h1 h4 hi
  dsimp only
  have hdesc := fun j hj => imageWords_desc ident f ns hi (j := j) hj
  have hoff := hdesc 0 (by omega)
  have hlen := hdesc 1 (by omega)
  simp only [List.getD_cons_zero, List.getD_cons_succ, Nat.add_zero] at hoff hlen
  refine ⟨?_, ?_, fun j h3 h16 => ?_, ?_, hdesc 2 (by omega), hdesc 3 (by omega), ?_, ?_⟩
  · rw [imageWords_head ident c f ns (j := 0) (by omega), imageWords_head ident c f ns (j := 1) (by omega)]
    simp only [imageHead, List.cons_append, List.getD_cons_zero, List.getD_cons_succ]
    omega
  · exact imageWords_head ident c f ns (by omega)
  · rw [imageWords_head _ _ _ _ h16]
    interval_cases j <;> rfl
  · exact hlen.trans (by rw [imageParts_getD ns hi, partWords_eq])
  · rw [hoff]; omega
  · rw [hoff, hlen, show (64 + 16 * (c * f) + 4 * ((imageParts c f ns).take i).flatten.length) / 4 =
      16 + 4 * (c * f) + ((imageParts c f ns).take i).flatten.length by omega, imageWords_drop,
      part_of_flatten (by rwa [length_imageParts]), imageParts_getD ns hi, partWords_eq]

/-- Settles O53: a refused load only appends its report, an accepted one writes at the homes of its bytes; the image, the
choice of the image, the copies and the tag check follow the loader's own functions. -/
theorem loaderChecksAndRecords : Obligations.LoaderChecksAndRecords :=
  ⟨loadsEndInARecordOrAReport, imagesAreLaidOut, requestsOutOfRangeAreRefused, loaderChoosesTheImage, tilesAreReplicated,
    tagCheckReportsTheFirstReason⟩

end Sys2Proof.Machine
end

section
/-! SUPPORT. What the registers of BAR0 take and give, register by register (R304, R331, R340, R346, R350, R352, R357, R358,
R365). -/

namespace Sys2Proof.Machine

open Sys2Proof Sys2Proof.Claims

/-! ### The set-up registers of a context (R304) -/

section
variable (x : Ctx) (v : Word)

theorem setUp_of_setUp {x : Ctx} (h : x.st ∈ [CtxState.free, .idle]) (y : Ctx) : x.setUp y = y :=
  if_pos (by simpa using h)

theorem setUp_late {x : Ctx} (h : ¬ x.st ∈ [CtxState.free, .idle]) (y : Ctx) : x.setUp y = { x with late := true } :=
  if_neg (by simpa using h)

theorem regWrite_ingress {o : Nat} (h : o < 0x040) : x.regWrite o v = { x with bad := true } := if_pos h

theorem regWrite_rngA {j : Nat} (hj : j < 16) :
    x.regWrite (0x100 + 16 * j) v = x.setUp { x with rngA := smSet 0 x.rngA j v } := by
  have hd : (0x100 + 16 * j - 0x100) / 16 = j := by omega
  simp (disch := omega) only [Ctx.regWrite, if_neg, if_pos, hd]

theorem regWrite_rngB {j : Nat} (hj : j < 16) :
    x.regWrite (0x108 + 16 * j) v = x.setUp { x with rngB := smSet 0 x.rngB j (v &&& 0x7FFFFFFFF) } := by
  have hd : (0x108 + 16 * j - 0x100) / 16 = j := by omega
  simp (disch := omega) only [Ctx.regWrite, if_neg, if_pos, hd]

theorem regWrite_nbpA {k : Nat} (hk : k < 4) :
    x.regWrite (0x200 + 16 * k) v = { x with nbpA := smSet 0 x.nbpA k (v &&& 0x800000003FFFFFFF) } := by
  have hd : (0x200 + 16 * k - 0x200) / 16 = k := by omega
  simp (disch := omega) only [Ctx.regWrite, if_neg, if_pos, hd]

theorem regWrite_nbpB {k : Nat} (hk : k < 4) : x.regWrite (0x208 + 16 * k) v = { x with nbpB := smSet 0 x.nbpB k v } := by
  have hd : (0x208 + 16 * k - 0x200) / 16 = k := by omega
  simp (disch := omega) only [Ctx.regWrite, if_neg, if_pos, hd]

theorem regWrite_sbp {k : Nat} (hk : k < 4) :
    x.regWrite (0x240 + 8 * k) v = { x with sbp := smSet 0 x.sbp k (v &&& 0x8000FFFF3FFFFFFC) } := by
  have hd : (0x240 + 8 * k - 0x240) / 8 = k := by omega
  simp (disch := omega) only [Ctx.regWrite, if_neg, if_pos, hd]

/-- A register that is no set-up register: it is read only, or not listed. -/
theorem regWrite_ignored {o : Nat} (h : o = 0x058 ∨ o = 0x078 ∨ (0x260 ≤ o ∧ o < 0x1000)) : x.regWrite o v = x := by
  simp (disch := omega) only [Ctx.regWrite, if_neg]

/-- A write of a set-up register goes through the state of the context. -/
theorem regWrite_setUp {o : Nat} (h : o = 0x050 ∨ o = 0x068 ∨ o = 0x070 ∨ (0x100 ≤ o ∧ o < 0x200)) :
    ∃ y, x.regWrite o v = x.setUp y := by
  obtain rfl | rfl | rfl | ⟨hlo, hhi⟩ := h
  · exact ⟨_, rfl⟩
  · exact ⟨_, rfl⟩
  · exact ⟨_, rfl⟩
  · simp (disch := omega) only [Ctx.regWrite, if_neg, if_pos]
    split <;> exact ⟨_, rfl⟩

end

/-! ### The registers of a context as they are read -/

theorem bitN_le_one (b : Bool) : bitN b ≤ 1 := by cases b <;> decide

theorem decide_of_eq_bitN {n : Nat} {b : Bool} (h : n = bitN b) : decide (n = 1) = b := by
  subst h; cases b <;> rfl

/-- The fields of ctx.istat. -/
theorem istat_toNat (x : Ctx) : x.istat.toNat = x.taken.toNat * 2 ^ 16 + bitN x.off * 2 ^ 10 + bitN x.late * 2 ^ 9 +
    bitN x.bad * 2 ^ 8 + bitN x.ovf * 2 ^ 7 + x.channel.length % 2 ^ 7 := by
  have := x.taken.isLt
  have := bitN_le_one x.off
  have := bitN_le_one x.late
  have := bitN_le_one x.bad
  have := bitN_le_one x.ovf
  rw [Ctx.istat, BitVec.toNat_ofNat]
  omega

theorem istat_sticky (x : Ctx) : x.istat.getLsbD 10 = x.off ∧ x.istat.getLsbD 9 = x.late ∧ x.istat.getLsbD 8 = x.bad ∧
    x.istat.getLsbD 7 = x.ovf := by
  have := bitN_le_one x.off
  have := bitN_le_one x.late
  have := bitN_le_one x.bad
  have := bitN_le_one x.ovf
  simp only [BitVec.getLsbD, Nat.testBit_eq_decide_div_mod_eq, istat_toNat]
  refine ⟨?_, ?_, ?_, ?_⟩
  · exact decide_of_eq_bitN (by omega)
  · exact decide_of_eq_bitN (by omega)
  · exact decide_of_eq_bitN (by omega)
  · exact decide_of_eq_bitN (by omega)

theorem istat_fill (x : Ctx) : x.istat.toNat % 2 ^ 7 = x.channel.length % 2 ^ 7 ∧ x.istat.toNat / 2 ^ 16 = x.taken.toNat := by
  have := bitN_le_one x.off
  have := bitN_le_one x.late
  have := bitN_le_one x.bad
  have := bitN_le_one x.ovf
  rw [istat_toNat]
  omega

theorem ctl_toNat (x : Ctx) : x.ctl.toNat = (if x.en then 256 else 0) + x.st.code := by
  have hst : x.st.code < 8 := by cases x.st <;> decide
  rw [Ctx.ctl, BitVec.toNat_ofNat]
  cases x.en <;> simp only [bitN, Bool.false_eq_true, if_true, if_false] <;> omega

theorem faultWord_toNat {x : Ctx} (h : x.faultIa < 2 ^ 48) :
    x.faultWord.toNat = (if x.faultPend then 2 ^ 63 else 0) + (if x.faultWr then 2 ^ 62 else 0) + x.faultIa := by
  rw [Ctx.faultWord, BitVec.toNat_ofNat]
  cases x.faultPend <;> cases x.faultWr <;> simp only [bitN, Bool.false_eq_true, if_true, if_false] <;> omega

theorem reg_rngA (x : Ctx) {j : Nat} (hj : j < 16) : x.reg (0x100 + 16 * j) = smGet 0 x.rngA j := by
  have hd : (0x100 + 16 * j - 0x100) / 16 = j := by omega
  unfold Ctx.reg
  simp (disch := omega) only [if_neg, if_pos]
  rw [hd]

theorem reg_rngB (x : Ctx) {j : Nat} (hj : j < 16) : x.reg (0x108 + 16 * j) = smGet 0 x.rngB j := by
  have hd : (0x108 + 16 * j - 0x100) / 16 = j := by omega
  unfold Ctx.reg
  simp (disch := omega) only [if_neg, if_pos]
  rw [hd]

/-- A read of a context's block gives the register of the context. -/
theorem regRead_ctx {s : State} (hon : s.blocksOn = true) {c o : Nat} (hc : c < 64) (ho : o < 0x1000) :
    s.regRead (0x200000 + 0x1000 * c + o) = (s.ctx c).reg o := by
  have hd : (0x200000 + 0x1000 * c + o - 0x200000) / 0x1000 = c := by omega
  have hm : (0x200000 + 0x1000 * c + o) % 0x1000 = o := by omega
  have hne : 0x200000 + 0x1000 * c + o ≠ 0x10000 + 8 := by omega
  simp (disch := omega) only [State.regRead, hon, Bool.not_true, Bool.and_false, Bool.false_eq_true, if_false, if_neg, if_pos,
    secBlock, secBuffer, secBufferSize, ptBlock, fiBlock, logBlock, linkBlock, ctxBlock, hd, hm]

/-- In minimal mode a block other than the device and security blocks reads 0 (R357). -/
theorem regRead_minimal {s : State} (h : s.boot.minimal = true) {off : Nat} (ho : schedBlock ≤ off) : s.regRead off = 0 := by
  simp [State.regRead, State.blocksOn, bootBlocks, h, ho]

/-- The registers of the page table, the links and the scheduler, where their blocks are on. -/
theorem regRead_blocks {s : State} (hon : s.blocksOn = true) : s.regRead 0x40000 = s.ptRoot ∧ s.regRead 0x101000 = s.etype ∧
    s.regRead 0x30000 = if s.preempt then 1 else 0 := by
  refine ⟨?_, ?_, ?_⟩
  · simp [State.regRead, hon, secBlock, secBuffer, secBufferSize, ptBlock, fiBlock]
  · simp [State.regRead, State.linkReg, hon, secBlock, secBuffer, secBufferSize, ptBlock, fiBlock, logBlock, linkBlock, ctxBlock]
  · cases hp : s.preempt <;> simp [State.regRead, hon, hp, bitN, secBlock, secBuffer, secBufferSize, ptBlock, schedBlock]

theorem registersReadTheirFields : RegistersReadTheirFields := by
  intro s c j hc htrip
  refine ⟨rfl, ?_, rfl, fun hmin => ⟨regRead_minimal hmin ?_, regRead_minimal hmin (by decide)⟩, fun hmin => ?_⟩
  · exact (show s.regRead 0x020 = BitVec.ofNat 64 (bitN s.pwin) from rfl).trans (by cases s.pwin <;> rfl)
  · exact (show schedBlock ≤ 0x200000 from by decide).trans (by omega)
  · have hon : s.blocksOn = true := by simp [State.blocksOn, hmin, htrip]
    have hat := fun o (ho : o < 0x1000) => regRead_ctx (s := s) hon hc ho
    have hctl : s.regRead (0x200000 + 0x1000 * c + 0x040) = (s.ctx c).ctl := hat 0x040 (by decide)
    have hstat : s.regRead (0x200000 + 0x1000 * c + 0x048) = (s.ctx c).istat := hat 0x048 (by decide)
    have hfault : s.regRead (0x200000 + 0x1000 * c + 0x088) = (s.ctx c).faultWord := hat 0x088 (by decide)
    obtain ⟨hroot, hetype, hpre⟩ := regRead_blocks hon
    refine ⟨hroot, hetype, hpre, ?_, ?_, fun hia => ?_, hat 0x050 (by decide), hat 0x058 (by decide), hat 0x060 (by decide),
      hat 0x068 (by decide), hat 0x070 (by decide), hat 0x078 (by decide), hat 0x080 (by decide), fun hj => ⟨?_, ?_⟩, ?_⟩
    · exact (congrArg BitVec.toNat hctl).trans (ctl_toNat _)
    · dsimp only
      rw [hstat]
      exact istat_sticky _
    · exact (congrArg BitVec.toNat hfault).trans (faultWord_toNat hia)
    · exact (hat _ (by omega)).trans (reg_rngA _ hj)
    · exact (hat _ (by omega)).trans (reg_rngB _ hj)
    · dsimp only
      rw [hstat]
      exact istat_fill _

end Sys2Proof.Machine
end

section
/-! SUPPORT. Writes of the registers of BAR0 (R7, R272, R304, R306, R331, R346, R350, R352, R358, R363, R365). -/

namespace Sys2Proof.Machine

open Sys2Proof Sys2Proof.Claims

/-! ### The blocks -/

/-- A write of a register of a context's block. -/
theorem exec_registerWrite_ctx {s : State} (hon : s.blocksOn = true) (hcr : s.credit 8 = true) {c : CtxId} {off : BitVec 26}
    {o : Nat} (hoff : off.toNat = 0x200000 + c.val * 0x1000 + o) (ho : o < 0x1000) (ho8 : o % 8 = 0) (v : Word) :
    exec (.registerWrite off v) s = .next (s.setCtx c.val ((s.ctx c.val).regWrite o v)) := by
  have hc := c.isLt
  have htrip : s.boot.tripped = false := by simp [State.blocksOn] at hon; exact hon.2
  have hd : (0x200000 + c.val * 0x1000 + o - 0x200000) / 0x1000 = c.val := by omega
  have hm : (0x200000 + c.val * 0x1000 + o) % 0x1000 = o := by omega
  have hgo : ¬ (s.boot.tripped = true ∨ (!bootBlocks off.toNat) = true ∧ (!s.blocksOn) = true ∨ (!s.regCredit) = true) := by
    simp [htrip, hon, State.regCredit, hcr]
  change execRegisterWrite off v s = _
  unfold execRegisterWrite
  dsimp only
  rw [if_neg (by simpa using hgo), hoff, ctxBlock, if_pos (by omega), if_neg (by omega), hd, hm]
  rfl

/-- A write of a register of another block. -/
theorem exec_registerWrite_low {s : State} (hon : s.blocksOn = true) (hcr : s.credit 8 = true) {off : BitVec 26}
    (hoff : off.toNat < 0x200000) (ho8 : off.toNat % 8 = 0) (v : Word) : exec (.registerWrite off v) s = .next (
      if linkBlock ≤ off.toNat then linkWrite (off.toNat - linkBlock) v s
      else if off.toNat = fiBlock + 8 then if s.fiOpen then { s with fiSel := v &&& 0xFC0000003FFFFFFF } else s
      else if secBlock ≤ off.toNat ∧ off.toNat < schedBlock then { s with sec := s.sec.regWrite (off.toNat - secBlock) v }
      else if off.toNat = 0x020 then { s with pwin := v.getLsbD 0 } else s) := by
  have htrip : s.boot.tripped = false := by simp [State.blocksOn] at hon; exact hon.2
  change execRegisterWrite off v s = _
  unfold execRegisterWrite
  dsimp only
  rw [if_neg (by simp [htrip, hon, State.regCredit, hcr]), if_neg (by unfold ctxBlock; omega), if_neg (by omega)]
  split_ifs <;> rfl

/-- A write of a window's first word (R352). -/
theorem linkWrite_wa {j : Nat} (hj : j < 64) (v : Word) (s : State) : linkWrite (0x400 + 16 * j) v s =
    if s.anyLaunched then s else { s with wa := smSet 0 s.wa j (v &&& 0xE00FFF00000000FF) } := by
  have hd : (0x400 + 16 * j - 0x400) / 16 = j := by omega
  unfold linkWrite
  rw [if_neg (by omega), if_pos (by omega), if_pos (by omega : (0x400 + 16 * j) % 16 = 0), hd]

/-- A command that comes while one is in progress is discarded (R358). -/
theorem command_of_busy {c : Sec} (h : c.busy = true) (v : Word) : c.command v = { c with ovr := true } := by
  simp [Sec.command, h]

/-- A command of a known op begins (R358). -/
theorem command_begins {c : Sec} {v : Word} (h : c.busy = false) (h1 : 1 ≤ v.toNat % 256) (h9 : v.toNat % 256 ≤ 9) :
    c.command v = { c with
      busy := true, op := v.toNat % 256, arg := v.toNat / 2 ^ 32, err := 0, len := 0, taken := c.buffer } := by
  have hop : bits v.toNat 7 0 = v.toNat % 256 := by simp [bits]
  have harg : bits v.toNat 63 32 = v.toNat / 2 ^ 32 := by have := v.isLt; simp only [bits]; omega
  have hknown : ¬ (v.toNat % 256 = 0 ∨ 9 < v.toNat % 256) := by omega
  simp only [Sec.command, h, hop, harg, hknown, Bool.false_eq_true, if_false]

/-! ### Fault injection (R350) -/

/-- Two bits flipped are both set in the mask. -/
theorem two_pow_xor_two_pow {i j : Nat} (h : i ≠ j) : 2 ^ i ^^^ 2 ^ j = 2 ^ i ||| 2 ^ j := by
  refine Nat.eq_of_testBit_eq fun k => ?_
  rw [Nat.testBit_xor, Nat.testBit_or, Nat.testBit_two_pow, Nat.testBit_two_pow]
  by_cases hi : i = k <;> by_cases hj : j = k <;> simp [hi, hj]
  omega

/-- The bits that an injection flips: the selected one, and with dbl the next one (log 81). -/
def flipOf (ctl sel : Word) : Nat :=
  let i := bits sel.toNat 63 58
  if ctl.getLsbD 3 then 2 ^ i ^^^ 2 ^ ((i + 1) % 64) else 2 ^ i

theorem fiMask_toNat (ctl sel : Word) : (fiMask ctl sel).toNat = flipOf ctl sel := by
  have hi : bits sel.toNat 63 58 < 64 := by have := sel.isLt; simp only [bits]; omega
  have hbit : bit ctl.toNat 3 = ctl.getLsbD 3 := by
    simp [bit, BitVec.getLsbD, Nat.testBit_eq_decide_div_mod_eq, beq_eq_decide]
  unfold fiMask flipOf
  simp only [hbit]
  generalize bits sel.toNat 63 58 = i at hi
  have hone : ∀ k < 64, (BitVec.ofNat 64 (2 ^ k)).toNat = 2 ^ k := fun k hk => by
    rw [BitVec.toNat_ofNat, Nat.mod_eq_of_lt (Nat.pow_lt_pow_right (by decide) hk)]
  cases ctl.getLsbD 3
  · exact (congrArg BitVec.toNat BitVec.or_zero).trans (hone i hi)
  · simp only [if_true, BitVec.toNat_or, hone i hi, hone _ (Nat.mod_lt (i + 1) (by decide : 0 < 64))]
    exact (two_pow_xor_two_pow (by omega)).symm

theorem fiMask_eq (ctl sel : Word) : fiMask ctl sel = BitVec.ofNat 64 (flipOf ctl sel) :=
  BitVec.eq_of_toNat_eq (by
    rw [fiMask_toNat, BitVec.toNat_ofNat, ← fiMask_toNat, Nat.mod_eq_of_lt (fiMask ctl sel).isLt])

/-- fi.ctl as a write leaves it: arm, dbl and kind are RW, fired is cleared by a one (R350). -/
def fiCtlWrite (old v : Word) : Word := (v &&& 0x800000000000000F) ||| (old &&& ~~~v &&& 0x4000000000000000)

theorem fiCtlWrite_arm (old v : Word) : (fiCtlWrite old v).getLsbD 63 = v.getLsbD 63 := by
  simp [fiCtlWrite]

theorem fiCtlWrite_fields (old v : Word) : bits (fiCtlWrite old v).toNat 3 0 = bits v.toNat 3 0 := by
  have hlow : (fiCtlWrite old v).setWidth 4 = v.setWidth 4 := by
    refine BitVec.eq_of_getLsbD_eq fun i hi => ?_
    interval_cases i <;> simp [fiCtlWrite]
  simpa [bits] using congrArg BitVec.toNat hlow

theorem fiCtl_fired (w : Word) : ((w &&& 0x7FFFFFFFFFFFFFFF) ||| 0x4000000000000000).getLsbD 63 = false ∧
    ((w &&& 0x7FFFFFFFFFFFFFFF) ||| 0x4000000000000000).getLsbD 62 = true := by
  simp

/-- A locked or masked debug block ignores the write. -/
theorem exec_faultInjectionArm_closed {s : State} (h : s.sec.unlocked = false ∨ s.fmask.getLsbD 12 = true) (v : Word) :
    exec (.faultInjectionArm v) s = .next s := by
  have hclosed : s.fiOpen = false := by
    obtain h | h := h <;> simp [State.fiOpen, State.masked, h]
  change execFaultInjectionArm v s = _
  simp [execFaultInjectionArm, hclosed]

/-- A scratchpad injection fires at once. -/
theorem exec_faultInjectionArm_fires {s : State} {v : Word} (hopen : s.fiOpen = true) (hcr : s.credit 8 = true)
    (harm : v.getLsbD 63 = true) (hkind : bits v.toNat 2 0 = 3) : exec (.faultInjectionArm v) s =
      .next { s with
        fiCtl := (fiCtlWrite s.fiCtl v &&& 0x7FFFFFFFFFFFFFFF) ||| 0x4000000000000000,
        sp := wrBytes s.sp (8 * bits s.fiSel.toNat 29 3)
          (rdBytes s.sp (8 * bits s.fiSel.toNat 29 3) 8 ^^^ (fiMask v s.fiSel).toNat) 8,
        spErr := smSet 0 s.spErr (bits s.fiSel.toNat 29 3)
          (smGet 0 s.spErr (bits s.fiSel.toNat 29 3) ^^^ fiMask v s.fiSel) } := by
  have hbit : bit v.toNat 63 = true := by
    simpa [bit, BitVec.getLsbD, Nat.testBit_eq_decide_div_mod_eq, beq_eq_decide] using harm
  change execFaultInjectionArm v s = _
  simp [execFaultInjectionArm, hopen, State.regCredit, hcr, hbit, hkind, fiCtlWrite]

/-- Any other write of fi.ctl only arms. -/
theorem exec_faultInjectionArm_arms {s : State} {v : Word} (hopen : s.fiOpen = true) (hcr : s.credit 8 = true)
    (h : v.getLsbD 63 = false ∨ bits v.toNat 2 0 ≠ 3) :
    exec (.faultInjectionArm v) s = .next { s with fiCtl := fiCtlWrite s.fiCtl v } := by
  have hbit : bit v.toNat 63 = v.getLsbD 63 := by
    simp [bit, BitVec.getLsbD, Nat.testBit_eq_decide_div_mod_eq, beq_eq_decide]
  have hnot : (v.getLsbD 63 && decide (bits v.toNat 2 0 = 3)) = false := by
    obtain h | h := h
    · rw [h, Bool.false_and]
    · rw [decide_eq_false h, Bool.and_false]
  change execFaultInjectionArm v s = _
  simp only [execFaultInjectionArm, hopen, State.regCredit, hcr, hbit, hnot, fiCtlWrite]
  rfl

/-! ### The statement -/

theorem registerWritesTakeTheirFields : RegisterWritesTakeTheirFields := by
  refine ⟨fun c off o v s hmin htrip hcr hwf hoff ho ho8 => ?_, fun off v p s hcr j hj => ?_,
    fun off v s hmin htrip hcr => ?_, fun v s => ⟨fun h => exec_faultInjectionArm_closed h v, fun hmin htrip hun hmask hcr => ?_⟩⟩
  · have hon : s.blocksOn = true := by simp [State.blocksOn, hmin, htrip]
    have hexec := exec_registerWrite_ctx hon hcr hoff ho ho8 v
    have gives : ∀ {y : Ctx}, (s.ctx c.val).regWrite o v = y →
        exec (.registerWrite off v) s = .next (s.setCtx c.val y) := fun h => h ▸ hexec
    refine ⟨fun hset => ⟨?_, ?_, ?_, fun j hj => ⟨?_, ?_⟩⟩, fun hset h => ?_, fun h => gives (regWrite_ingress _ _ h), ?_, ?_, ?_,
      fun k hk => ⟨?_, ?_, ?_⟩, fun h => gives (regWrite_ignored _ _ h)⟩
    · rintro rfl; exact gives (setUp_of_setUp hset _)
    · rintro rfl; exact gives (setUp_of_setUp hset _)
    · rintro rfl; exact gives (setUp_of_setUp hset _)
    · rintro rfl; exact gives ((regWrite_rngA _ v hj).trans (setUp_of_setUp hset _))
    · rintro rfl; exact gives ((regWrite_rngB _ v hj).trans (setUp_of_setUp hset _))
    · obtain ⟨y, hy⟩ := regWrite_setUp (s.ctx c.val) v h
      exact gives (hy.trans (setUp_late hset y))
    · rintro rfl; exact gives rfl
    · rintro rfl; exact gives rfl
    · rintro rfl; exact gives rfl
    · rintro rfl; exact gives (regWrite_nbpA _ v hk)
    · rintro rfl; exact gives (regWrite_nbpB _ v hk)
    · rintro rfl; exact gives (regWrite_sbp _ v hk)
  · have hno : s.regCredit = false := hcr
    simp only [List.mem_cons, List.not_mem_nil, or_false] at hj
    obtain rfl | rfl | rfl | rfl | rfl | rfl := hj
    · change execRegisterWrite off v s = _
      simp [execRegisterWrite, hno]
    · change execPtRootWrite v s = _
      simp [execPtRootWrite, hno]
    · change execPtInval v s = _
      simp [execPtInval, hno]
    · change execFaultInjectionArm v s = _
      simp [execFaultInjectionArm, hno]
    · change execPortRetrain p s = _
      simp [execPortRetrain, hno]
    · change execBootRetry s = _
      simp [execBootRetry, hno]
  · have hon : s.blocksOn = true := by simp [State.blocksOn, hmin, htrip]
    have hexec := fun hlt h8 => exec_registerWrite_low hon hcr (off := off) hlt h8 v
    refine ⟨fun j hj hoff => ?_, fun hoff => ?_, fun hoff => ?_, fun hoff hbusy => ?_, fun hoff hbusy h1 h9 => ?_⟩
    · have hlink := hexec (by omega) (by omega)
      rw [if_pos (by unfold linkBlock; omega), hoff, show 0x100400 + 16 * j - linkBlock = 0x400 + 16 * j by unfold linkBlock; omega,
        linkWrite_wa hj] at hlink
      exact ⟨fun h => by rw [hlink, if_pos h], fun h => by rw [hlink, if_neg (by simp [h])]⟩
    · exact (hexec (by omega) (by omega)).trans (by rw [hoff]; rfl)
    · exact (hexec (by omega) (by omega)).trans (by rw [hoff]; rfl)
    · have hsec := hexec (by omega) (by omega)
      rw [hoff] at hsec
      exact hsec.trans (congrArg (fun c : Sec => Host.Outcome.next { s with sec := c }) (command_of_busy hbusy v))
    · have hsec := hexec (by omega) (by omega)
      rw [hoff] at hsec
      exact ⟨_, hsec.trans (congrArg (fun c : Sec => Host.Outcome.next { s with sec := c }) (command_begins hbusy h1 h9)),
        rfl, rfl, rfl, rfl⟩
  · have hopen : s.fiOpen = true := by
      simp only [State.fiOpen, State.blocksOn, State.masked, hmin, htrip, hun, hmask]
      rfl
    refine ⟨fun harm hkind => ⟨_, exec_faultInjectionArm_fires hopen hcr harm hkind, (fiCtl_fired _).1, (fiCtl_fired _).2, rfl, rfl,
      ?_, fun hwf => ?_⟩, fun h => ⟨_, exec_faultInjectionArm_arms hopen hcr h, rfl, fiCtlWrite_arm _ _, fiCtlWrite_fields _ _⟩⟩
    · dsimp only
      rw [fiMask_toNat]
      rfl
    · dsimp only
      rw [smGet_smSet_same hwf, fiMask_eq]
      rfl

/-- Settles O48: each register's write and read, block by block. -/
theorem registersOfBar0 : Obligations.RegistersOfBar0 := ⟨registerWritesTakeTheirFields, registersReadTheirFields⟩

end Sys2Proof.Machine
end

section
/-! SUPPORT. What a word decodes to: the sequencer's decoder gives an instruction of the sequencer, and the node decoder an
operation of a node (R59, R67, R75). -/

namespace Sys2Proof

/-- Every instruction that a decoder's result holds has a property. -/
def Gives {ε : Type} (p : Instr → Prop) (r : Except ε Instr) : Prop := ∀ i, r = .ok i → p i

section
variable {ε : Type} {p : Instr → Prop}

@[simp] theorem gives_ok {i : Instr} : Gives p (.ok i : Except ε Instr) ↔ p i :=
  ⟨fun h => h i rfl, fun h _ hj => by cases hj; exact h⟩

@[simp] theorem gives_error (e : ε) : Gives p (.error e) := fun _ h => by cases h

theorem gives_firstBad {l : List (Bool × ε)} {i : Instr} (h : p i) : Gives p (firstBad l i) := by
  induction l with
  | nil => exact gives_ok.2 h
  | cons x t ih =>
    obtain ⟨b, e⟩ := x
    cases b
    · exact gives_error e
    · exact ih

theorem gives_typed {α : Type} {f : NodeFields} {t : Option α} {k : α → Except NodeIll Instr} (h : ∀ v, Gives p (k v)) :
    Gives p (typed f t k) := by
  cases t with
  | none => exact gives_error _
  | some v => exact h v

theorem gives_coded {α : Type} {f : NodeFields} {c : Option α} {k : α → Except NodeIll Instr} (h : ∀ v, Gives p (k v)) :
    Gives p (coded f c k) := by
  cases c with
  | none => exact gives_error _
  | some v => exact h v

theorem gives_rounded {f : NodeFields} {k : Rnd → Except NodeIll Instr} (h : ∀ r, Gives p (k r)) : Gives p (rounded f k) := by
  unfold rounded
  split
  · exact h _
  · exact gives_error _

end

/-! ### The families of node operations -/

section
variable {p : Instr → Prop} (f : NodeFields)

theorem gives_dInt1 {k : IntTy → Sel → Instr} (h : ∀ t a, p (k t a)) : Gives p (dInt1 f k) := gives_firstBad (h _ _)

theorem gives_dInt1s {k : IntTy → Sel → Bool → Instr} (h : ∀ t a s, p (k t a s)) : Gives p (dInt1s f k) :=
  gives_firstBad (h _ _ _)

theorem gives_dInt2 {k : IntTy → Sel → Sel → Instr} (h : ∀ t a b, p (k t a b)) : Gives p (dInt2 f k) :=
  gives_firstBad (h _ _ _)

theorem gives_dInt2s {k : IntTy → Sel → Sel → Bool → Instr} (h : ∀ t a b s, p (k t a b s)) : Gives p (dInt2s f k) :=
  gives_firstBad (h _ _ _ _)

theorem gives_dFlt1 {k : FltTy → Sel → Rnd → Bool → Instr} (h : ∀ t a r s, p (k t a r s)) : Gives p (dFlt1 f k) :=
  gives_typed fun _ => gives_rounded fun _ => gives_firstBad (h _ _ _ _)

theorem gives_dFlt2 {k : FltTy → Sel → Sel → Rnd → Bool → Instr} (h : ∀ t a b r s, p (k t a b r s)) : Gives p (dFlt2 f k) :=
  gives_typed fun _ => gives_rounded fun _ => gives_firstBad (h _ _ _ _ _)

theorem gives_dFlt1x {k : FltTy → Sel → Instr} (h : ∀ t a, p (k t a)) : Gives p (dFlt1x f k) :=
  gives_typed fun _ => gives_firstBad (h _ _)

theorem gives_dFlt2x {k : FltTy → Sel → Sel → Instr} (h : ∀ t a b, p (k t a b)) : Gives p (dFlt2x f k) :=
  gives_typed fun _ => gives_firstBad (h _ _ _)

theorem gives_dCvt {α β : Type} {t : Option α} {c : Option β} {ok : β → Rnd → Bool} {k : α → Sel → β → Rnd → Bool → Instr}
    (h : ∀ t a c r s, p (k t a c r s)) : Gives p (dCvt f t c ok k) :=
  gives_typed fun _ => gives_coded fun _ => gives_rounded fun _ => gives_firstBad (h _ _ _ _ _)

theorem gives_dBlk2 {k : BlkTy → Sel → Sel → BlkTy → Rnd → Bool → Instr} (h : ∀ t a b c r s, p (k t a b c r s)) :
    Gives p (dBlk2 f k) :=
  gives_typed fun _ => gives_coded fun _ => gives_rounded fun _ => gives_firstBad (h _ _ _ _ _ _)

theorem gives_dRedI {k : IntTy → Sel → RedOp → Bool → Instr} (h : ∀ t a c s, p (k t a c s)) : Gives p (dRedI f k) :=
  gives_coded fun _ => gives_firstBad (h _ _ _ _)

theorem gives_dRedF {k : FltTy → Sel → FRedOp → Rnd → Bool → Instr} (h : ∀ t a c r s, p (k t a c r s)) :
    Gives p (dRedF f k) :=
  gives_typed fun _ => gives_coded fun _ => gives_rounded fun _ => gives_firstBad (h _ _ _ _ _)

theorem gives_dW2 {k : WTy → Sel → Sel → Instr} (h : ∀ t a b, p (k t a b)) : Gives p (dW2 f k) :=
  gives_typed fun _ => gives_firstBad (h _ _ _)

theorem gives_dNone0 {i : Instr} (h : p i) : Gives p (dNone0 f i) := gives_firstBad h

theorem gives_dNone1 {k : Sel → Instr} (h : ∀ a, p (k a)) : Gives p (dNone1 f k) := gives_firstBad (h _)

theorem gives_dNone2 {k : Sel → Sel → Instr} (h : ∀ a b, p (k a b)) : Gives p (dNone2 f k) := gives_firstBad (h _ _)

theorem gives_dLoad {k : IntTy → Sel → Bool → Instr} (h : ∀ t a o, p (k t a o)) : Gives p (dLoad f k) :=
  gives_firstBad (h _ _ _)

theorem gives_dStore {k : IntTy → Sel → Sel → Bool → Instr} (h : ∀ t a b o, p (k t a b o)) : Gives p (dStore f k) :=
  gives_firstBad (h _ _ _ _)

theorem gives_dBar {k : Fin 128 → Instr} (h : ∀ n, p (k n)) : Gives p (dBar f k) := gives_firstBad (h _)

theorem gives_dCode (w : Nat) {k : BitVec 10 → Instr} (h : ∀ n, p (k n)) : Gives p (dCode w f k) := gives_firstBad (h _)

end

/-! ### The decoders -/

/-- An instruction of the sequencer: one with a word of R60. -/
def OfSeq (i : Instr) : Prop := (encodeSeq i).isSome = true

/-- An operation of a node: one with a word of R70. -/
def OfNode (i : Instr) : Prop := (encodeNode i).isSome = true

theorem decodeAlu_ofSeq (f : SeqFields) : Gives OfSeq (decodeAlu f) := by
  unfold decodeAlu
  split <;> simp only [gives_ok, gives_error] <;> exact rfl

theorem decodeShift_ofSeq (f : SeqFields) : Gives OfSeq (decodeShift f) := by
  unfold decodeShift
  split <;> simp only [gives_ok, gives_error] <;> exact rfl

theorem decodeBranch_ofSeq (f : SeqFields) : Gives OfSeq (decodeBranch f) := by
  unfold decodeBranch
  split <;> simp only [gives_ok, gives_error] <;> exact rfl

theorem decodeSeqFence_ofSeq (f : SeqFields) : Gives OfSeq (decodeSeqFence f) := by
  unfold decodeSeqFence
  cases firstBad [(f.d == 0 && f.a == 0 && !f.e, SeqIll.unusedField)] () with
  | error e => exact gives_error e
  | ok u =>
    simp only [Except.bind]
    split <;> simp only [gives_ok, gives_error] <;> exact rfl

/-- The sequencer's decoder gives instructions of the sequencer alone: one reason for each opcode of R62. -/
theorem decodeSeq_ofSeq (w : Nat) : Gives OfSeq (decodeSeq w) := by
  unfold decodeSeq
  dsimp only
  split
  exacts [
    decodeAlu_ofSeq _, gives_ok.2 rfl, gives_ok.2 rfl, gives_ok.2 rfl, gives_ok.2 rfl, decodeShift_ofSeq _,
    gives_firstBad rfl, gives_firstBad rfl, gives_ok.2 rfl, gives_ok.2 rfl, gives_ok.2 rfl, decodeBranch_ofSeq _,
    gives_ok.2 rfl, gives_ok.2 rfl, gives_ok.2 rfl, gives_ok.2 rfl, gives_firstBad rfl, gives_firstBad rfl,
    gives_firstBad rfl, gives_firstBad rfl, gives_firstBad rfl, gives_firstBad rfl, gives_firstBad rfl, gives_firstBad rfl,
    decodeSeqFence_ofSeq _, gives_firstBad rfl, gives_ok.2 rfl, gives_ok.2 rfl, gives_ok.2 rfl, gives_firstBad rfl,
    gives_firstBad rfl, gives_firstBad rfl, gives_firstBad rfl, gives_firstBad rfl, gives_firstBad rfl, gives_firstBad rfl,
    gives_firstBad rfl, gives_firstBad rfl, gives_firstBad rfl, gives_firstBad rfl, gives_firstBad rfl, gives_error _]

/-- The node decoder gives operations of nodes alone: one reason for each opcode of R75. -/
theorem decodeNode_ofNode (w : Nat) : Gives OfNode (decodeNode w) := by
  unfold decodeNode
  dsimp only
  split
  exacts [
    gives_dNone0 _ rfl, gives_dInt2s _ fun _ _ _ _ => rfl, gives_dInt2s _ fun _ _ _ _ => rfl,
    gives_dInt2s _ fun _ _ _ _ => rfl, gives_dInt2 _ fun _ _ _ => rfl, gives_firstBad rfl, gives_dInt1s _ fun _ _ _ => rfl,
    gives_dInt1s _ fun _ _ _ => rfl, gives_dInt2 _ fun _ _ _ => rfl, gives_dInt2 _ fun _ _ _ => rfl,
    gives_dInt2 _ fun _ _ _ => rfl, gives_dInt2 _ fun _ _ _ => rfl, gives_dInt2 _ fun _ _ _ => rfl,
    gives_dInt1 _ fun _ _ => rfl, gives_dInt2 _ fun _ _ _ => rfl, gives_dInt2 _ fun _ _ _ => rfl,
    gives_dInt2 _ fun _ _ _ => rfl, gives_dInt2 _ fun _ _ _ => rfl, gives_dInt2 _ fun _ _ _ => rfl,
    gives_dInt1 _ fun _ _ => rfl, gives_dInt1 _ fun _ _ => rfl, gives_firstBad rfl,
    by split; exacts [gives_firstBad rfl, gives_error _], gives_dFlt2 _ fun _ _ _ _ _ => rfl,
    gives_dFlt2 _ fun _ _ _ _ _ => rfl, gives_dFlt2 _ fun _ _ _ _ _ => rfl,
    gives_typed fun _ => gives_rounded fun _ => gives_ok.2 rfl, gives_dFlt2x _ fun _ _ _ => rfl,
    gives_dFlt2x _ fun _ _ _ => rfl, gives_dFlt1x _ fun _ _ => rfl, gives_dFlt1x _ fun _ _ => rfl,
    gives_typed fun _ => by split; exacts [gives_firstBad rfl, gives_error _], gives_dFlt1 _ fun _ _ _ _ => rfl,
    gives_dFlt1 _ fun _ _ _ _ => rfl, gives_dFlt1 _ fun _ _ _ _ => rfl, gives_dFlt1 _ fun _ _ _ _ => rfl,
    gives_dFlt1 _ fun _ _ _ _ => rfl, gives_dCvt _ fun _ _ _ _ _ => rfl, gives_dCvt _ fun _ _ _ _ _ => rfl,
    gives_dCvt _ fun _ _ _ _ _ => rfl, by split; exacts [gives_dCvt _ fun _ _ _ _ _ => rfl, gives_error _],
    gives_dBlk2 _ fun _ _ _ _ _ _ => rfl, gives_dBlk2 _ fun _ _ _ _ _ _ => rfl, gives_dW2 _ fun _ _ _ => rfl,
    gives_dW2 _ fun _ _ _ => rfl, gives_dRedI _ fun _ _ _ _ => rfl, gives_dRedF _ fun _ _ _ _ _ => rfl,
    gives_dRedI _ fun _ _ _ _ => rfl, gives_dRedF _ fun _ _ _ _ _ => rfl, gives_dNone1 _ fun _ => rfl,
    gives_dNone1 _ fun _ => rfl, gives_dNone2 _ fun _ _ => rfl, gives_dNone1 _ fun _ => rfl, gives_dNone1 _ fun _ => rfl,
    gives_dNone2 _ fun _ _ => rfl, gives_dNone0 _ rfl, gives_dNone0 _ rfl, gives_dNone1 _ fun _ => rfl,
    gives_dNone1 _ fun _ => rfl, gives_dNone1 _ fun _ => rfl, gives_dRedI _ fun _ _ _ _ => rfl,
    gives_dRedF _ fun _ _ _ _ _ => rfl, gives_dLoad _ fun _ _ _ => rfl, gives_dStore _ fun _ _ _ _ => rfl,
    gives_dLoad _ fun _ _ _ => rfl, gives_dStore _ fun _ _ _ _ => rfl, gives_dStore _ fun _ _ _ _ => rfl,
    gives_dStore _ fun _ _ _ _ => rfl, gives_firstBad rfl, gives_firstBad rfl, gives_dW2 _ fun _ _ _ => rfl,
    gives_dW2 _ fun _ _ _ => rfl, gives_dW2 _ fun _ _ _ => rfl, gives_dW2 _ fun _ _ _ => rfl, gives_dW2 _ fun _ _ _ => rfl,
    gives_dW2 _ fun _ _ _ => rfl, gives_dW2 _ fun _ _ _ => rfl, gives_typed fun _ => gives_firstBad rfl,
    gives_dNone1 _ fun _ => rfl, gives_dNone2 _ fun _ _ => rfl, gives_dNone1 _ fun _ => rfl, gives_dW2 _ fun _ _ _ => rfl,
    gives_dBar _ fun _ => rfl, gives_dBar _ fun _ => rfl, by split; exacts [gives_firstBad rfl, gives_error _],
    gives_dNone0 _ rfl, gives_dNone2 _ fun _ _ => rfl, gives_dCode _ _ fun _ => rfl, gives_dCode _ _ fun _ => rfl,
    gives_error _]

end Sys2Proof
end

section
/-! SUPPORT. Every instruction, operation and event has a next state where the agent that it belongs to holds the turn (R16,
R93). -/

namespace Sys2Proof.Machine

open Sys2Proof

/-- An outcome is a next state: no stop and no refusal. -/
def Answers (o : Out) : Prop := ∃ t, o = .next t

/-! ### The shared operations of the sequencer -/

/-- A sequencer holds the turn. -/
def SeqTurn (s : State) : Prop := ∃ c, s.cur = .seq c

theorem answers_asSeq {s : State} (h : SeqTurn s) {k : Nat → Out} (hk : ∀ c, Answers (k c)) : Answers (asSeq s k) := by
  obtain ⟨c, hc⟩ := h
  simpa only [asSeq, hc] using hk c

/-- An instruction that issues has a next state where its effect has one. -/
theorem answers_seqIssue {s : State} (h : SeqTurn s) {srcs : List Src} {dst : SReg} {k : Nat → State → Out}
    (hk : ∀ c s, Answers (k c s)) : Answers (seqIssue srcs dst s k) := by
  refine answers_asSeq h fun c => ?_
  split
  · exact ⟨_, rfl⟩
  · exact ⟨_, rfl⟩
  · exact ⟨_, rfl⟩
  · split
    · exact ⟨_, rfl⟩
    · exact hk _ _

theorem answers_seqAlu {s : State} (h : SeqTurn s) (srcs : List Src) (dst : SReg) (f : Seq → Word) :
    Answers (seqAlu srcs dst s f) := answers_seqIssue h fun _ _ => ⟨_, rfl⟩

theorem answers_seqFence {s : State} (h : SeqTurn s) (deps : Nat → State → List Dep) : Answers (seqFence s deps) :=
  answers_seqIssue h fun _ _ => ⟨_, rfl⟩

theorem answers_csrBits {s : State} (h : SeqTurn s) (a : SReg) (e : Bool) (n : BitVec 12) (f : Word → Word → Word) :
    Answers (csrBits a e n s f) := by
  refine answers_seqIssue h fun c s => ?_
  dsimp only
  split <;> exact ⟨_, rfl⟩

theorem answers_execCsrs {s : State} (h : SeqTurn s) (a : SReg) (e : Bool) (n : BitVec 12) : Answers (execCsrs a e n s) :=
  answers_csrBits h a e n _

theorem answers_execCsrc {s : State} (h : SeqTurn s) (a : SReg) (e : Bool) (n : BitVec 12) : Answers (execCsrc a e n s) :=
  answers_csrBits h a e n _

theorem answers_seqApply {s : State} (h : SeqTurn s) (a : SReg) (e : Bool) (why : ApplyWhy) :
    Answers (seqApply a e why s) := by
  refine answers_seqIssue h fun c s => ?_
  dsimp only
  split_ifs <;> exact ⟨_, rfl⟩

theorem answers_cfgParts (c va p f ident : Nat) (s : State) : Answers (cfgParts c va p f ident s) := by
  unfold cfgParts
  dsimp only
  split
  · exact ⟨_, rfl⟩
  · exact ⟨_, rfl⟩
  split
  · exact ⟨_, rfl⟩
  · exact ⟨_, rfl⟩
  · exact ⟨_, rfl⟩
  split
  · exact ⟨_, rfl⟩
  · split <;> exact ⟨_, rfl⟩

theorem answers_execCfg {s : State} (h : SeqTurn s) (a : SReg) (e : Bool) (p : Fin 4) : Answers (execCfg a e p s) := by
  refine answers_seqIssue h fun c s => ?_
  dsimp only
  split
  · exact ⟨_, rfl⟩
  split
  · exact ⟨_, rfl⟩
  · exact ⟨_, rfl⟩
  split
  · exact ⟨_, rfl⟩
  split_ifs
  · exact ⟨_, rfl⟩
  · exact ⟨_, rfl⟩
  · exact ⟨_, rfl⟩
  · exact answers_cfgParts _ _ _ _ _ _

theorem answers_execRun {s : State} (h : SeqTurn s) (a : SReg) (e : Bool) (p : Fin 4) : Answers (execRun a e p s) := by
  refine answers_seqIssue h fun c s => ?_
  dsimp only
  split_ifs <;> exact ⟨_, rfl⟩

theorem answers_execQwait {s : State} (h : SeqTurn s) : Answers (execQwait s) := by
  refine answers_seqIssue h fun c s => ?_
  dsimp only
  split
  · exact ⟨_, rfl⟩
  · split <;> exact ⟨_, rfl⟩

theorem answers_execCsrw {s : State} (h : SeqTurn s) (a : SReg) (e : Bool) (n : BitVec 12) : Answers (execCsrw a e n s) := by
  refine answers_seqIssue h fun c s => ?_
  dsimp only
  split_ifs <;> exact ⟨_, rfl⟩

theorem answers_execSend {s : State} (h : SeqTurn s) (d a b : SReg) (ea eb : Bool) : Answers (execSend d a b ea eb s) := by
  refine answers_asSeq h fun c => ?_
  split
  · exact ⟨_, rfl⟩
  · refine answers_seqIssue h fun c s => ?_
    extract_lets x lo raw
    split
    · exact ⟨_, rfl⟩
    · split_ifs <;> exact ⟨_, rfl⟩

theorem answers_execEstat {s : State} (h : SeqTurn s) (d a : SReg) (e : Bool) : Answers (execEstat d a e s) := by
  refine answers_seqIssue h fun c s => ?_
  dsimp only
  split <;> exact ⟨_, rfl⟩

theorem answers_execArrive {s : State} (h : SeqTurn s) (n : Fin 128) : Answers (execArrive n s) := by
  refine answers_seqIssue h fun c s => ?_
  split <;> exact ⟨_, rfl⟩

theorem answers_ubindWith (c : Nat) (d : SReg) (addr v : Nat) (s : State) : Answers (ubindWith c d addr v s) := by
  unfold ubindWith
  dsimp only
  split
  · exact ⟨_, rfl⟩
  · exact ⟨_, rfl⟩
  · split
    · exact ⟨_, rfl⟩
    · split <;> exact ⟨_, rfl⟩

theorem answers_execUbind {s : State} (h : SeqTurn s) (d a : SReg) (e : Bool) : Answers (execUbind d a e s) := by
  refine answers_seqIssue h fun c s => ?_
  dsimp only
  split
  · exact ⟨_, rfl⟩
  split
  · exact ⟨_, rfl⟩
  split
  · exact ⟨_, rfl⟩
  split
  · exact answers_ubindWith _ _ _ _ _
  · exact ⟨_, rfl⟩
  · exact ⟨_, rfl⟩

theorem answers_tbindToken (c tile pb : Nat) (s : State) : Answers (tbindToken c tile pb s) := by
  unfold tbindToken
  dsimp only
  split
  · exact ⟨_, rfl⟩
  · exact ⟨_, rfl⟩
  · split <;> exact ⟨_, rfl⟩

theorem answers_execTbind {s : State} (h : SeqTurn s) (a b : SReg) (ea eb : Bool) : Answers (execTbind a b ea eb s) := by
  refine answers_seqIssue h fun c s => ?_
  dsimp only
  split
  · exact ⟨_, rfl⟩
  split
  · exact ⟨_, rfl⟩
  split
  · exact ⟨_, rfl⟩
  · exact ⟨_, rfl⟩
  split
  · exact ⟨_, rfl⟩
  · exact ⟨_, rfl⟩
  split_ifs
  · exact ⟨_, rfl⟩
  · exact ⟨_, rfl⟩
  · exact answers_tbindToken _ _ _ _

theorem answers_execDone {s : State} (h : SeqTurn s) (a : SReg) (e : Bool) : Answers (execDone a e s) := by
  refine answers_asSeq h fun c => ?_
  split
  · exact ⟨_, rfl⟩
  · refine answers_seqIssue h fun c s => ?_
    dsimp only
    split <;> exact ⟨_, rfl⟩

theorem answers_execLd {s : State} (h : SeqTurn s) (d a : SReg) (e : Bool) (i : BitVec 15) : Answers (execLd d a e i s) := by
  refine answers_seqIssue h fun c s => ?_
  dsimp only
  split <;> exact ⟨_, rfl⟩

theorem answers_execSt {s : State} (h : SeqTurn s) (v a : SReg) (ea ev : Bool) (i : BitVec 14) :
    Answers (execSt v a ea ev i s) := by
  refine answers_seqIssue h fun c s => ?_
  dsimp only
  split <;> exact ⟨_, rfl⟩

theorem answers_execWld {s : State} (h : SeqTurn s) (d a : SReg) (e : Bool) (w : Fin 8) (o : BitVec 12) :
    Answers (execWld d a e w o s) := by
  refine answers_seqIssue h fun c s => ?_
  dsimp only
  split
  · exact ⟨_, rfl⟩
  · split <;> exact ⟨_, rfl⟩

/-- An instruction of the sequencer has a next state in a sequencer's turn. -/
theorem answers_exec_seq {s : State} (h : SeqTurn s) {i : Instr} (hi : OfSeq i) : Answers (exec i s) := by
  cases i with
  | add | sub | mul | mulh | mulhn | and | or | xor | sll | srl | sra | slt | sltn | seq | min | max | minn | maxn
  | addi | andi | ori | xori | slli | srli | srai | slti | sltni | seqi | movz | movk => exact answers_seqAlu h _ _ _
  | beqz | bnez | bltz | bgez | bgtz | blez | bbs | bbc | jal | jalr | loop | trap | brk | tret | wait | csrr | yield =>
    exact answers_seqIssue h fun _ _ => ⟨_, rfl⟩
  | fence | fenceAcq | fenceRel => exact answers_seqFence h _
  | csrs => exact answers_execCsrs h _ _ _
  | csrc => exact answers_execCsrc h _ _ _
  | uflush | unbind => exact answers_seqApply h _ _ _
  | cfg => exact answers_execCfg h _ _ _
  | run => exact answers_execRun h _ _ _
  | qwait => exact answers_execQwait h
  | csrw => exact answers_execCsrw h _ _ _
  | send => exact answers_execSend h _ _ _ _ _
  | estat => exact answers_execEstat h _ _ _
  | arrive => exact answers_execArrive h _
  | ubind => exact answers_execUbind h _ _ _
  | tbind => exact answers_execTbind h _ _ _ _
  | done => exact answers_execDone h _ _
  | ld => exact answers_execLd h _ _ _ _
  | st => exact answers_execSt h _ _ _ _ _
  | wld => exact answers_execWld h _ _ _ _ _
  | _ => cases hi

/-- The illegal word raises its trap in a sequencer's turn (R67). -/
theorem answers_exec_illegal {s : State} (h : SeqTurn s) (w : BitVec 32) : Answers (exec (.illegalSequencerWord w) s) :=
  answers_asSeq h fun _ => ⟨_, rfl⟩

end Sys2Proof.Machine
end

section
/-! SUPPORT. Every operation of a node has a next state in a firing's turn (R16). -/

namespace Sys2Proof.Machine

open Sys2Proof

/-! ### The shared operations of a firing -/

/-- A firing of a node with an image holds the turn. -/
def FiringTurn (s : State) : Prop := ∃ c fid g m, s.cur = .firing c fid ∧
  (s.fab c).firings.find? (fun g => g.id == fid) = some g ∧ s.nodeImg (s.ctx c) g.ref = some m

theorem answers_asFiring {s : State} (h : FiringTurn s) {k : Nat → Firing → NodeImg → Out}
    (hk : ∀ c g m, Answers (k c g m)) : Answers (asFiring s k) := by
  obtain ⟨c, fid, g, m, hc, hg, hm⟩ := h
  simp only [asFiring, hc, hg, hm]
  split
  · exact ⟨_, rfl⟩
  · exact ⟨_, rfl⟩
  · split
    · exact ⟨_, rfl⟩
    · exact hk c g m
  · exact hk c g m

theorem answers_withEnv {s : State} (h : FiringTurn s) {i : Instr} {k : Nat → Firing → NodeImg → OpEnv → State → Out}
    (hk : ∀ c g m env s, Answers (k c g m env s)) : Answers (withEnv i s k) := by
  refine answers_asFiring h fun c g m => ?_
  split
  · exact ⟨_, rfl⟩
  · exact hk _ _ _ _ _

theorem answers_compute {s : State} (h : FiringTurn s) (i : Instr) (f : OpEnv → OpRes) : Answers (compute i s f) := by
  refine answers_withEnv h fun c g m env s => ?_
  split <;> exact ⟨_, rfl⟩

theorem answers_computeBlock {s : State} (h : FiringTurn s) (i : Instr) (okScale : OpEnv → Bool) (f : OpEnv → OpRes) :
    Answers (computeBlock i s okScale f) := by
  refine answers_withEnv h fun c g m env s => ?_
  split_ifs <;> exact ⟨_, rfl⟩

/-! ### Tags and flow (R152 to R164) -/

theorem answers_execAlloc {s : State} (h : FiringTurn s) (a : Sel) : Answers (execAlloc a s) := by
  refine answers_withEnv h fun c g m env s => ?_
  generalize g.phase = p
  cases p with
  | run => dsimp only; split <;> exact ⟨_, rfl⟩
  | _ => exact ⟨_, rfl⟩

theorem answers_execFree {s : State} (h : FiringTurn s) (a : Sel) : Answers (execFree a s) := by
  refine answers_withEnv h fun c g m env s => ?_
  generalize g.phase = p
  cases p with
  | run => dsimp only; split <;> exact ⟨_, rfl⟩
  | _ => exact ⟨_, rfl⟩

theorem answers_execRetag {s : State} (h : FiringTurn s) (a b : Sel) : Answers (execRetag a b s) := by
  refine answers_withEnv h fun c g m env s => ?_
  split
  · exact ⟨_, rfl⟩
  · split
    · exact ⟨_, rfl⟩
    · extract_lets
      split_ifs <;> exact ⟨_, rfl⟩

theorem answers_execCtag {s : State} (h : FiringTurn s) (a : Sel) : Answers (execCtag a s) := by
  refine answers_withEnv h fun c g m env s => ?_
  split_ifs <;> exact ⟨_, rfl⟩

theorem answers_execTagrd {s : State} (h : FiringTurn s) (a : Sel) : Answers (execTagrd a s) := by
  refine answers_withEnv h fun c g m env s => ?_
  split <;> exact ⟨_, rfl⟩

theorem answers_execSteer {s : State} (h : FiringTurn s) (a b : Sel) : Answers (execSteer a b s) := by
  refine answers_withEnv h fun c g m env s => ?_
  split <;> exact ⟨_, rfl⟩

theorem answers_execMerge {s : State} (h : FiringTurn s) : Answers (execMerge s) := by
  refine answers_asFiring h fun c g m => ?_
  split
  · exact ⟨_, rfl⟩
  · split <;> exact ⟨_, rfl⟩

theorem answers_execDup {s : State} (h : FiringTurn s) (a : Sel) : Answers (execDup a s) := by
  refine answers_withEnv h fun c g m env s => ?_
  split
  · exact ⟨_, rfl⟩
  · split <;> exact ⟨_, rfl⟩

theorem answers_execGate {s : State} (h : FiringTurn s) : Answers (execGate s) := by
  refine answers_withEnv h fun c g m env s => ?_
  generalize g.phase = p
  cases p with
  | run => dsimp only; split_ifs <;> exact ⟨_, rfl⟩
  | _ => exact ⟨_, rfl⟩

theorem answers_execCall {s : State} (h : FiringTurn s) (a : Sel) : Answers (execCall a s) := by
  refine answers_withEnv h fun c g m env s => ?_
  generalize g.phase = p
  cases p with
  | run =>
    dsimp only
    split
    · exact ⟨_, rfl⟩
    · split <;> exact ⟨_, rfl⟩
    · exact ⟨_, rfl⟩
    · exact ⟨_, rfl⟩
  | _ => exact ⟨_, rfl⟩

theorem answers_execRet {s : State} (h : FiringTurn s) (a : Sel) : Answers (execRet a s) := by
  refine answers_withEnv h fun c g m env s => ?_
  generalize g.phase = p
  cases p with
  | run => dsimp only; split <;> exact ⟨_, rfl⟩
  | _ => exact ⟨_, rfl⟩

theorem answers_rdcFire {s : State} (h : FiringTurn s) (i : Instr) (wide : Bool) (val : OpEnv → Nat → Nat)
    (step : OpEnv → Nat → Nat → Nat → Res Nat) : Answers (rdcFire i wide s val step) := by
  refine answers_withEnv h fun c g m env s => ?_
  extract_lets
  split
  · exact ⟨_, rfl⟩
  · split <;> exact ⟨_, rfl⟩

/-! ### Synchronisation (R173 to R179) -/

theorem answers_execArriveNode {s : State} (h : FiringTurn s) (n : Fin 128) : Answers (execArriveNode n s) := by
  refine answers_asFiring h fun c g m => ?_
  split
  · exact ⟨_, rfl⟩
  · split <;> exact ⟨_, rfl⟩

theorem answers_execWaitNode {s : State} (h : FiringTurn s) (n : Fin 128) : Answers (execWaitNode n s) := by
  refine answers_asFiring h fun c g m => ?_
  split <;> exact ⟨_, rfl⟩

theorem answers_execFenceNode {s : State} (h : FiringTurn s) (scope : Fin 32) (k : FenceKind) :
    Answers (execFenceNode scope k s) := by
  refine answers_asFiring h fun c g m => ?_
  split
  · exact ⟨_, rfl⟩
  · extract_lets
    split <;> exact ⟨_, rfl⟩
  · exact ⟨_, rfl⟩

theorem answers_execYieldNode {s : State} (h : FiringTurn s) : Answers (execYieldNode s) := by
  refine answers_asFiring h fun c g m => ?_
  split <;> exact ⟨_, rfl⟩

theorem answers_execSendNode {s : State} (h : FiringTurn s) (a b : Sel) : Answers (execSendNode a b s) := by
  refine answers_withEnv h fun c g m env s => ?_
  extract_lets x lo raw
  generalize headerOf s x raw = o
  clear_value raw lo
  generalize g.phase = p
  cases p with
  | run =>
    cases o with
    | none => exact ⟨_, rfl⟩
    | some hd => dsimp only; split <;> exact ⟨_, rfl⟩
  | _ => exact ⟨_, rfl⟩

/-! ### Memory, the tag table and updates (R165 to R172) -/

theorem answers_issueLoad (c : Nat) (g : Firing) (m : NodeImg) (t : IntTy) (glob : Bool) (bad : Option Bad)
    (es : List (Nat × Nat)) (s : State) : Answers (issueLoad c g m t glob bad es s) := by
  unfold issueLoad
  split
  · exact ⟨_, rfl⟩
  · split <;> exact ⟨_, rfl⟩

theorem answers_issueStore (c : Nat) (g : Firing) (m : NodeImg) (t : IntTy) (glob : Bool) (extra : List Dep) (v : Nat → Nat)
    (bad : Option Bad) (es : List (Nat × Nat)) (s : State) : Answers (issueStore c g m t glob extra v bad es s) := by
  unfold issueStore
  split
  · exact ⟨_, rfl⟩
  · split
    · exact ⟨_, rfl⟩
    · split <;> exact ⟨_, rfl⟩

theorem answers_execLdacq {s : State} (h : FiringTurn s) (t : IntTy) (a : Sel) (gn : Fin 32) (o : Bool) :
    Answers (execLdacq t a gn o s) := by
  refine answers_withEnv h fun c g m env s => ?_
  extract_lets
  split
  · exact ⟨_, rfl⟩
  · split <;> exact ⟨_, rfl⟩

theorem answers_execAtom {s : State} (h : FiringTurn s) (i : Instr) (op : AtomOp) (t : WTy) (a b cc : Sel) :
    Answers (execAtom i op t a b cc s) := by
  refine answers_withEnv h fun c g m env s => ?_
  extract_lets
  split
  · exact ⟨_, rfl⟩
  · split <;> exact ⟨_, rfl⟩

theorem answers_tagOp {s : State} (h : FiringTurn s) (i : Instr)
    (f : OpEnv → Nat → Nat → SMap (BitVec 63) → Nat × SMap (BitVec 63)) : Answers (tagOp i s f) := by
  refine answers_withEnv h fun c g m env s => ?_
  extract_lets
  split
  · exact ⟨_, rfl⟩
  · split <;> exact ⟨_, rfl⟩

theorem answers_execUpd {s : State} (h : FiringTurn s) (t : WTy) (a b : Sel) : Answers (execUpd t a b s) := by
  refine answers_withEnv h fun c g m env s => ?_
  extract_lets ty
  split
  · exact ⟨_, rfl⟩
  · split
    · exact ⟨_, rfl⟩
    split
    · exact ⟨_, rfl⟩
    split
    · exact ⟨_, rfl⟩
    · split <;> exact ⟨_, rfl⟩
  · exact ⟨_, rfl⟩

/-! ### The statement for nodes -/

/-- An operation of a node has a next state in a firing's turn. -/
theorem answers_exec_node {s : State} (h : FiringTurn s) {i : Instr} (hi : OfNode i) : Answers (exec i s) := by
  cases i with
  | nop | addInteger | subInteger | mulInteger | mulhInteger | mad | negInteger | absInteger | minInteger | maxInteger
  | andInteger | orInteger | xorInteger | notInteger | andn | shl | shr | rotl | rotr | clz | popc | sel | cmpInteger
  | addFloat | subFloat | mulFloat | fma | minFloat | maxFloat | absFloat | negFloat | cmpFloat | rcp | rsqrt | sqrt | exp2
  | log2 | cvtIntegerSource | cvtFloatSource | quant | bcast | shuf | redInteger | redFloat | scanInteger | scanFloat =>
    dsimp only [exec]
    exact answers_compute h _ _
  | dequant | bmul | bdot =>
    dsimp only [exec]
    exact answers_computeBlock h _ _ _
  | alloc => exact answers_execAlloc h _
  | free => exact answers_execFree h _
  | retag => exact answers_execRetag h _ _
  | ctag => exact answers_execCtag h _
  | tagrd => exact answers_execTagrd h _
  | steer => exact answers_execSteer h _ _
  | merge => exact answers_execMerge h
  | dup => exact answers_execDup h _
  | gate => exact answers_execGate h
  | call => exact answers_execCall h _
  | ret => exact answers_execRet h _
  | rdcInteger | rdcFloat =>
    dsimp only [exec]
    exact answers_rdcFire h _ _ _ _
  | arriveNode => exact answers_execArriveNode h _
  | waitNode => exact answers_execWaitNode h _
  | fenceNode => exact answers_execFenceNode h _ _
  | yieldNode => exact answers_execYieldNode h
  | sendNode => exact answers_execSendNode h _ _
  | trapNode | brkNode =>
    dsimp only [exec]
    exact answers_asFiring h fun _ _ _ => ⟨_, rfl⟩
  | lds | ldg | gather =>
    dsimp only [exec]
    exact answers_withEnv h fun _ _ _ _ _ => answers_issueLoad _ _ _ _ _ _ _ _
  | sts | stg | scatter | strel =>
    dsimp only [exec]
    exact answers_withEnv h fun _ _ _ _ _ => answers_issueStore _ _ _ _ _ _ _ _ _ _
  | ldacq => exact answers_execLdacq h _ _ _ _
  | atomIadd | atomImin | atomImax | atomAnd | atomOr | atomXor | atomXchg | atomCas => exact answers_execAtom h _ _ _ _ _ _
  | lookup | insert | evict =>
    dsimp only [exec]
    exact answers_tagOp h _ _
  | upd => exact answers_execUpd h _ _ _
  | _ => cases hi

end Sys2Proof.Machine
end

section
/-! SUPPORT. Every event has a next state, whichever turn is due (R10, R16). -/

namespace Sys2Proof.Machine

open Sys2Proof

/-! ### Registers, tags and barriers -/

theorem answers_execLongLatencyWrite (c : CtxId) (k : Nat) (s : State) : Answers (execLongLatencyWrite c k s) := by
  unfold execLongLatencyWrite
  extract_lets
  split
  · exact ⟨_, rfl⟩
  · split
    · exact ⟨_, rfl⟩
    · split <;> exact ⟨_, rfl⟩

theorem answers_execTagAllocGrant (c : CtxId) (k : Nat) (s : State) : Answers (execTagAllocGrant c k s) := by
  unfold execTagAllocGrant
  extract_lets
  split
  · exact ⟨_, rfl⟩
  split
  · exact ⟨_, rfl⟩
  split
  · exact ⟨_, rfl⟩
  split
  · exact ⟨_, rfl⟩
  · split <;> exact ⟨_, rfl⟩

theorem answers_execFreeComplete (c : CtxId) (f : Nat) (s : State) : Answers (execFreeComplete c f s) := by
  unfold execFreeComplete
  extract_lets
  split
  · exact ⟨_, rfl⟩
  · split
    · exact ⟨_, rfl⟩
    · split <;> exact ⟨_, rfl⟩

theorem answers_execBarrierArrivalRecord (c : CtxId) (k : Nat) (s : State) : Answers (execBarrierArrivalRecord c k s) := by
  unfold execBarrierArrivalRecord
  extract_lets
  split
  · exact ⟨_, rfl⟩
  · split <;> exact ⟨_, rfl⟩

theorem answers_execPhaseCompletion (c : CtxId) (k : Nat) (s : State) : Answers (execPhaseCompletion c k s) := by
  unfold execPhaseCompletion
  split
  · exact ⟨_, rfl⟩
  · split <;> exact ⟨_, rfl⟩

/-! ### Updates -/

theorem answers_execApplyCompletion (c : CtxId) (s : State) : Answers (execApplyCompletion c s) := by
  unfold execApplyCompletion
  split
  · exact ⟨_, rfl⟩
  split
  · exact ⟨_, rfl⟩
  split
  · exact ⟨_, rfl⟩
  · exact ⟨_, rfl⟩
  · split <;> exact ⟨_, rfl⟩

theorem answers_execSorterApply (c : CtxId) (h stack : Fin 16) (s : State) : Answers (execSorterApply c h stack s) := by
  unfold execSorterApply
  split
  · exact ⟨_, rfl⟩
  · split <;> exact ⟨_, rfl⟩

theorem answers_execPairAccept (c : CtxId) (k : Nat) (s : State) : Answers (execPairAccept c k s) := by
  unfold execPairAccept
  split
  · exact ⟨_, rfl⟩
  split
  · exact ⟨_, rfl⟩
  split
  · exact ⟨_, rfl⟩
  split
  · exact ⟨_, rfl⟩
  · split <;> exact ⟨_, rfl⟩

/-! ### Memory and translation -/

theorem answers_execMemoryAccessAccept (c : CtxId) (k : Nat) (s : State) : Answers (execMemoryAccessAccept c k s) := by
  unfold execMemoryAccessAccept
  extract_lets
  split
  · exact ⟨_, rfl⟩
  · split <;> exact ⟨_, rfl⟩

theorem answers_execLoadResult (c : CtxId) (f : Nat) (s : State) : Answers (execLoadResult c f s) := by
  unfold execLoadResult
  split
  · exact ⟨_, rfl⟩
  · split
    · exact ⟨_, rfl⟩
    · split <;> exact ⟨_, rfl⟩

theorem answers_execAccessPerform (c : CtxId) (k : Nat) (s : State) : Answers (execAccessPerform c k s) := by
  unfold execAccessPerform
  split
  · exact ⟨_, rfl⟩
  · split
    · exact ⟨_, rfl⟩
    · split <;> exact ⟨_, rfl⟩

theorem answers_execTlbMiss (k : Nat) (s : State) : Answers (execTlbMiss k s) := by
  unfold execTlbMiss
  split
  · exact ⟨_, rfl⟩
  · extract_lets
    split <;> exact ⟨_, rfl⟩

theorem answers_execWalkResult (k : Nat) (s : State) : Answers (execWalkResult k s) := by
  unfold execWalkResult
  split
  · exact ⟨_, rfl⟩
  · split
    · exact ⟨_, rfl⟩
    · extract_lets
      split <;> exact ⟨_, rfl⟩

theorem answers_execPageFault (k : Nat) (s : State) : Answers (execPageFault k s) := by
  unfold execPageFault
  split
  · exact ⟨_, rfl⟩
  · extract_lets
    split
    · exact ⟨_, rfl⟩
    · split <;> exact ⟨_, rfl⟩

theorem answers_execPtInval (v : Word) (s : State) : Answers (execPtInval v s) := by
  unfold execPtInval
  extract_lets
  split_ifs <;> exact ⟨_, rfl⟩

theorem answers_execScrubPass (d : Die) (w : BitVec 40) (s : State) : Answers (execScrubPass d w s) := by
  unfold execScrubPass
  extract_lets
  split <;> exact ⟨_, rfl⟩

/-! ### Token match and the configuration period -/

theorem answers_matchFrame (c k : Nat) (t : Tok) (m : NodeImg) (s : State) : Answers (matchFrame c k t m s) := by
  unfold matchFrame
  extract_lets
  split
  · exact ⟨_, rfl⟩
  split
  · exact ⟨_, rfl⟩
  split
  · split
    · exact ⟨_, rfl⟩
    · exact ⟨_, rfl⟩
    · split <;> exact ⟨_, rfl⟩
  split
  · exact ⟨_, rfl⟩
  · split <;> exact ⟨_, rfl⟩
  · exact ⟨_, rfl⟩

theorem answers_execTokenMatch (c : CtxId) (k : Nat) (s : State) : Answers (execTokenMatch c k s) := by
  unfold execTokenMatch
  extract_lets
  split
  · exact ⟨_, rfl⟩
  split
  · exact ⟨_, rfl⟩
  extract_lets
  split_ifs
  · exact ⟨_, rfl⟩
  · exact ⟨_, rfl⟩
  · exact ⟨_, rfl⟩
  · exact ⟨_, rfl⟩
  · exact ⟨_, rfl⟩
  · exact answers_matchFrame _ _ _ _ _

theorem answers_execIndexTokenIssue (c : CtxId) (k : Nat) (s : State) : Answers (execIndexTokenIssue c k s) := by
  unfold execIndexTokenIssue
  extract_lets
  split
  · split
    · exact ⟨_, rfl⟩
    · extract_lets
      split
      · exact ⟨_, rfl⟩
      split
      · split <;> exact ⟨_, rfl⟩
      split
      · exact ⟨_, rfl⟩
      split
      · exact ⟨_, rfl⟩
      · extract_lets
        split <;> exact ⟨_, rfl⟩
  · exact ⟨_, rfl⟩

theorem answers_execPlaneSwitch (n : Cluster) (s : State) : Answers (execPlaneSwitch n s) := by
  unfold execPlaneSwitch
  split
  · exact ⟨_, rfl⟩
  · extract_lets
    split
    · exact ⟨_, rfl⟩
    · split <;> exact ⟨_, rfl⟩

theorem answers_execConfigurationLoadComplete (c : CtxId) (s : State) : Answers (execConfigurationLoadComplete c s) := by
  unfold execConfigurationLoadComplete
  split
  · exact ⟨_, rfl⟩
  · split <;> exact ⟨_, rfl⟩

theorem answers_execQuiescenceReport (c : CtxId) (s : State) : Answers (execQuiescenceReport c s) := by
  unfold execQuiescenceReport
  extract_lets
  split
  · exact ⟨_, rfl⟩
  · split <;> exact ⟨_, rfl⟩

theorem answers_execReplyTokenDelivery (c : CtxId) (k : Nat) (s : State) : Answers (execReplyTokenDelivery c k s) := by
  unfold execReplyTokenDelivery
  extract_lets
  split
  · split
    · exact ⟨_, rfl⟩
    · extract_lets
      split
      · exact ⟨_, rfl⟩
      · split <;> exact ⟨_, rfl⟩
  · exact ⟨_, rfl⟩

theorem answers_execWatchdogTrip (c : CtxId) (s : State) : Answers (execWatchdogTrip c s) := by
  unfold execWatchdogTrip
  extract_lets
  split <;> exact ⟨_, rfl⟩

/-! ### Engines -/

theorem answers_startCmd (e : EngRef) (o : CmdOp) (s : State) : Answers (startCmd e o s) := by
  unfold startCmd
  split
  · exact ⟨_, rfl⟩
  · extract_lets
    split
    · exact ⟨_, rfl⟩
    · split <;> exact ⟨_, rfl⟩

theorem answers_engineTurn (e : EngRef) (o : CmdOp) (s : State) : Answers (engineTurn e o s) := by
  unfold engineTurn
  split
  · exact ⟨_, rfl⟩
  · exact answers_startCmd _ _ _

theorem answers_execGath (c : Cluster) (u : Fin 16) (s : State) : Answers (execGath c u s) := by
  unfold execGath
  split
  · exact ⟨_, rfl⟩
  · exact answers_engineTurn _ _ _

theorem answers_execInboxAccept (e : EngRef) (s : State) : Answers (execInboxAccept e s) := by
  unfold execInboxAccept
  extract_lets
  split
  · exact ⟨_, rfl⟩
  · split <;> exact ⟨_, rfl⟩

theorem answers_execLeaveGrant (d : Die) (s : State) : Answers (execLeaveGrant d s) := by
  unfold execLeaveGrant
  extract_lets
  split
  · exact ⟨_, rfl⟩
  · split <;> exact ⟨_, rfl⟩

theorem answers_execFollowOnDelivery (e : EngRef) (s : State) : Answers (execFollowOnDelivery e s) := by
  unfold execFollowOnDelivery
  split
  · exact ⟨_, rfl⟩
  · extract_lets
    split <;> exact ⟨_, rfl⟩

theorem answers_execCommitPoint (e : EngRef) (s : State) : Answers (execCommitPoint e s) := by
  unfold execCommitPoint
  extract_lets
  split
  · exact ⟨_, rfl⟩
  · split
    · exact ⟨_, rfl⟩
    · extract_lets
      split <;> exact ⟨_, rfl⟩

/-! ### Scheduling -/

theorem answers_withToken (c kind : Nat) (named : List Nat) (s : State) (fits : Ctx → Bool) (k : List Word → State → State) :
    Answers (withToken c kind named s fits k) := by
  unfold withToken
  split
  · exact ⟨_, rfl⟩
  · split_ifs <;> exact ⟨_, rfl⟩

theorem answers_execLaunch (c : CtxId) (s : State) : Answers (execLaunch c s) := by
  unfold execLaunch
  split
  · exact ⟨_, rfl⟩
  · split
    · exact ⟨_, rfl⟩
    · split <;> exact ⟨_, rfl⟩

theorem answers_execResume (c : CtxId) (s : State) : Answers (execResume c s) := by
  unfold execResume
  split
  · exact ⟨_, rfl⟩
  · split
    · exact ⟨_, rfl⟩
    · exact answers_withToken _ _ _ _ _ _

theorem answers_execRetire (c : CtxId) (s : State) : Answers (execRetire c s) := answers_withToken _ _ _ _ _ _

theorem answers_execMark (c : CtxId) (s : State) : Answers (execMark c s) := answers_withToken _ _ _ _ _ _

theorem answers_execStop (c : CtxId) (s : State) : Answers (execStop c s) := answers_withToken _ _ _ _ _ _

theorem answers_execTbindCommit (c : CtxId) (s : State) : Answers (execTbindCommit c s) := by
  unfold execTbindCommit
  split <;> exact ⟨_, rfl⟩

theorem answers_execCtxCtlEn (c : CtxId) (v : Bool) (s : State) : Answers (execCtxCtlEn c v s) := by
  unfold execCtxCtlEn
  extract_lets
  split_ifs <;> exact ⟨_, rfl⟩

theorem answers_execFaultGo (c : CtxId) (req : BitVec 16) (s : State) : Answers (execFaultGo c req s) := by
  unfold execFaultGo
  extract_lets
  split <;> exact ⟨_, rfl⟩

theorem answers_loadFirst (c va : Nat) (ws : List Nat) (s : State) : Answers (loadFirst c va ws s) := by
  unfold loadFirst
  extract_lets
  split
  · exact ⟨_, rfl⟩
  split
  · exact ⟨_, rfl⟩
  split
  · exact ⟨_, rfl⟩
  split
  · exact ⟨_, rfl⟩
  · exact ⟨_, rfl⟩
  split
  · exact ⟨_, rfl⟩
  · exact ⟨_, rfl⟩
  · exact ⟨_, rfl⟩
  · split <;> exact ⟨_, rfl⟩

theorem answers_freshLaunch (c first : Nat) (t : Task) (r : LoadRecord) (wins : List (Nat × Nat)) (s : State) :
    Answers (freshLaunch c first t r wins s) := by
  unfold freshLaunch
  extract_lets
  split
  · exact ⟨_, rfl⟩
  · split
    · exact answers_loadFirst _ _ _ _
    · exact ⟨_, rfl⟩
    · exact ⟨_, rfl⟩

theorem answers_placeFresh (c : Nat) (t : Task) (s : State) : Answers (placeFresh c t s) := by
  unfold placeFresh
  split
  · exact ⟨_, rfl⟩
  split
  · exact ⟨_, rfl⟩
  · exact ⟨_, rfl⟩
  split
  · exact ⟨_, rfl⟩
  · exact ⟨_, rfl⟩
  split
  · exact ⟨_, rfl⟩
  · exact ⟨_, rfl⟩
  · exact answers_freshLaunch _ _ _ _ _ _

theorem answers_placeSaved (c : Nat) (t : Task) (d : ClusterData) (s : State) : Answers (placeSaved c t d s) := by
  unfold placeSaved
  split
  · exact ⟨_, rfl⟩
  · exact ⟨_, rfl⟩
  · extract_lets
    split <;> exact ⟨_, rfl⟩

theorem answers_execTaskPlace (s : State) : Answers (execTaskPlace s) := by
  unfold execTaskPlace
  split
  · exact ⟨_, rfl⟩
  · split
    · exact answers_placeSaved _ _ _ _
    · exact answers_placeFresh _ _ _

theorem answers_execPreemptRequest (s : State) : Answers (execPreemptRequest s) := by
  unfold execPreemptRequest
  split
  · exact ⟨_, rfl⟩
  · extract_lets
    split
    · exact ⟨_, rfl⟩
    · split <;> exact ⟨_, rfl⟩

theorem answers_execDrainComplete (c : CtxId) (s : State) : Answers (execDrainComplete c s) := by
  unfold execDrainComplete
  extract_lets
  split
  · exact ⟨_, rfl⟩
  split
  · exact ⟨_, rfl⟩
  · split <;> exact ⟨_, rfl⟩

theorem answers_execCompletionTokenWrite (c : CtxId) (s : State) : Answers (execCompletionTokenWrite c s) := by
  unfold execCompletionTokenWrite
  extract_lets
  split
  · split <;> exact ⟨_, rfl⟩
  split
  · exact ⟨_, rfl⟩
  split
  · exact ⟨_, rfl⟩
  · extract_lets
    split <;> exact ⟨_, rfl⟩

/-! ### The host -/

theorem answers_execHostPostedWrite (req : BitVec 16) (w : HostWrite) (s : State) : Answers (execHostPostedWrite req w s) := by
  unfold execHostPostedWrite
  split
  · exact ⟨_, rfl⟩
  · split <;> exact ⟨_, rfl⟩
  · split <;> exact ⟨_, rfl⟩

theorem answers_execHostWriteForward (k : Nat) (s : State) : Answers (execHostWriteForward k s) := by
  unfold execHostWriteForward
  split
  · exact ⟨_, rfl⟩
  split
  · exact ⟨_, rfl⟩
  split
  · exact ⟨_, rfl⟩
  split
  · exact ⟨_, rfl⟩
  · exact ⟨_, rfl⟩
  · split <;> exact ⟨_, rfl⟩

theorem answers_execHomeAcknowledgement (k : Nat) (stack : Fin 16) (s : State) :
    Answers (execHomeAcknowledgement k stack s) := by
  unfold execHomeAcknowledgement
  split
  · exact ⟨_, rfl⟩
  · split <;> exact ⟨_, rfl⟩

theorem answers_execHostRead (req : BitVec 16) (space : HostSpace) (a : BitVec 46) (n : Nat) (s : State) :
    Answers (execHostRead req space a n s) := by
  unfold execHostRead
  split
  · exact ⟨_, rfl⟩
  · extract_lets r
    clear_value r
    cases r <;> exact ⟨_, rfl⟩

theorem answers_execPeerAccess (ia : BitVec 48) (w : Option (List Byte)) (n : Nat) (s : State) :
    Answers (execPeerAccess ia w n s) := by
  unfold execPeerAccess
  split
  · exact ⟨_, rfl⟩
  · split
    · exact ⟨_, rfl⟩
    · split <;> exact ⟨_, rfl⟩

theorem answers_execPeerStoreAcknowledgement (k : Nat) (s : State) : Answers (execPeerStoreAcknowledgement k s) := by
  unfold execPeerStoreAcknowledgement
  split
  · exact ⟨_, rfl⟩
  · split <;> exact ⟨_, rfl⟩

/-! ### Links -/

theorem answers_execLinkRemoteRefusal (k : Nat) (s : State) : Answers (execLinkRemoteRefusal k s) := by
  unfold execLinkRemoteRefusal
  split
  · exact ⟨_, rfl⟩
  · split <;> exact ⟨_, rfl⟩

theorem answers_execFlitCrcFailure (p : Port) (s : State) : Answers (execFlitCrcFailure p s) := by
  unfold execFlitCrcFailure
  extract_lets
  split <;> exact ⟨_, rfl⟩

theorem answers_execCttRetransmission (p : Fin 8) (s : State) : Answers (execCttRetransmission p s) := by
  unfold execCttRetransmission
  extract_lets
  split <;> exact ⟨_, rfl⟩

theorem answers_execPortRetrain (p : Port) (s : State) : Answers (execPortRetrain p s) := by
  unfold execPortRetrain
  extract_lets
  split <;> exact ⟨_, rfl⟩

theorem answers_execPortTrained (p : Port) (lanes : Fin 3) (s : State) : Answers (execPortTrained p lanes s) := by
  unfold execPortTrained
  extract_lets
  split <;> exact ⟨_, rfl⟩

theorem answers_execEdgeAdderStore (p : Port) (ia : BitVec 48) (bytes : List Byte) (s : State) :
    Answers (execEdgeAdderStore p ia bytes s) := by
  unfold execEdgeAdderStore
  extract_lets
  split
  · exact ⟨_, rfl⟩
  · split
    · exact ⟨_, rfl⟩
    · exact ⟨_, rfl⟩
    · extract_lets
      split
      · exact ⟨_, rfl⟩
      · split <;> exact ⟨_, rfl⟩

/-! ### Security, boot and management -/

theorem answers_asCommand (op : Nat) (s : State) (k : Sec → State) : Answers (asCommand op s k) := by
  unfold asCommand
  split <;> exact ⟨_, rfl⟩

theorem answers_execFirmwareInstallation (kind : Fin 8) (s : State) : Answers (execFirmwareInstallation kind s) := by
  unfold execFirmwareInstallation
  split
  · exact ⟨_, rfl⟩
  · split <;> exact ⟨_, rfl⟩

theorem answers_execBootTimeout (s : State) : Answers (execBootTimeout s) := by
  unfold execBootTimeout
  extract_lets
  split <;> exact ⟨_, rfl⟩

theorem answers_execThermalSample (d : Die) (t : Nat) (s : State) : Answers (execThermalSample d t s) := by
  unfold execThermalSample
  extract_lets
  split <;> exact ⟨_, rfl⟩

theorem answers_execTelemetrySnapshot (s : State) : Answers (execTelemetrySnapshot s) := by
  unfold execTelemetrySnapshot
  split <;> exact ⟨_, rfl⟩

theorem answers_execFaultInjectionArm (v : Word) (s : State) : Answers (execFaultInjectionArm v s) := by
  unfold execFaultInjectionArm
  extract_lets
  split
  · exact ⟨_, rfl⟩
  · split <;> exact ⟨_, rfl⟩

theorem answers_execRegisterWrite (off : BitVec 26) (v : Word) (s : State) : Answers (execRegisterWrite off v s) := by
  unfold execRegisterWrite
  extract_lets
  split_ifs <;> exact ⟨_, rfl⟩

/-! ### The statement for events -/

/-- An event has a next state, whichever turn is due. -/
theorem answers_exec_event {i : Instr} (hi : ofAgent i = false) (s : State) : Answers (exec i s) := by
  cases i with
  | longLatencyWrite => exact answers_execLongLatencyWrite _ _ _
  | copyLin | copy2d | copyRows | copySeg | pressMm | pressBf | pressRd | maskCls =>
    dsimp only [exec]
    exact answers_engineTurn _ _ _
  | gath => exact answers_execGath _ _ _
  | inboxAccept => exact answers_execInboxAccept _ _
  | leaveGrant => exact answers_execLeaveGrant _ _
  | commitPoint => exact answers_execCommitPoint _ _
  | followOnDelivery => exact answers_execFollowOnDelivery _ _
  | replyTokenDelivery => exact answers_execReplyTokenDelivery _ _ _
  | tokenMatch => exact answers_execTokenMatch _ _ _
  | indexTokenIssue => exact answers_execIndexTokenIssue _ _ _
  | tagAllocGrant => exact answers_execTagAllocGrant _ _ _
  | freeComplete => exact answers_execFreeComplete _ _ _
  | planeSwitch => exact answers_execPlaneSwitch _ _
  | configurationLoadComplete => exact answers_execConfigurationLoadComplete _ _
  | quiescenceReport => exact answers_execQuiescenceReport _ _
  | watchdogTrip => exact answers_execWatchdogTrip _ _
  | memoryAccessAccept => exact answers_execMemoryAccessAccept _ _ _
  | accessPerform => exact answers_execAccessPerform _ _ _
  | loadResult => exact answers_execLoadResult _ _ _
  | tlbMiss => exact answers_execTlbMiss _ _
  | walkResult => exact answers_execWalkResult _ _
  | pageFault => exact answers_execPageFault _ _
  | barrierArrivalRecord => exact answers_execBarrierArrivalRecord _ _ _
  | phaseCompletion => exact answers_execPhaseCompletion _ _ _
  | pairAccept => exact answers_execPairAccept _ _ _
  | sorterApply => exact answers_execSorterApply _ _ _ _
  | applyCompletion => exact answers_execApplyCompletion _ _
  | hostPostedWrite => exact answers_execHostPostedWrite _ _ _
  | hostWriteForward => exact answers_execHostWriteForward _ _
  | homeAcknowledgement => exact answers_execHomeAcknowledgement _ _ _
  | hostRead => exact answers_execHostRead _ _ _ _ _
  | peerAccess => exact answers_execPeerAccess _ _ _ _
  | peerStoreAcknowledgement => exact answers_execPeerStoreAcknowledgement _ _
  | linkRemoteRefusal => exact answers_execLinkRemoteRefusal _ _
  | flitCrcFailure => exact answers_execFlitCrcFailure _ _
  | cttRetransmission => exact answers_execCttRetransmission _ _
  | portRetrain => exact answers_execPortRetrain _ _
  | portTrained => exact answers_execPortTrained _ _ _
  | edgeAdderStore => exact answers_execEdgeAdderStore _ _ _ _
  | launch => exact answers_execLaunch _ _
  | resume => exact answers_execResume _ _
  | retire => exact answers_execRetire _ _
  | mark => exact answers_execMark _ _
  | stop => exact answers_execStop _ _
  | tbindCommit => exact answers_execTbindCommit _ _
  | taskPlace => exact answers_execTaskPlace _
  | preemptRequest => exact answers_execPreemptRequest _
  | drainComplete => exact answers_execDrainComplete _ _
  | completionTokenWrite => exact answers_execCompletionTokenWrite _ _
  | ctxCtlEn => exact answers_execCtxCtlEn _ _ _
  | faultGo => exact answers_execFaultGo _ _ _
  | ptInval => exact answers_execPtInval _ _
  | scrubPass => exact answers_execScrubPass _ _ _
  | faultInjectionArm => exact answers_execFaultInjectionArm _ _
  | registerWrite => exact answers_execRegisterWrite _ _ _
  | loadFirmware | enrolKey | disableSlot | raiseFloor | attest | debugChallenge | debugUnlock | debugLock | writeFmask =>
    dsimp only [exec]
    exact answers_asCommand _ _ _
  | firmwareInstallation => exact answers_execFirmwareInstallation _ _
  | bootTimeout => exact answers_execBootTimeout _
  | thermalSample => exact answers_execThermalSample _ _ _
  | telemetrySnapshot => exact answers_execTelemetrySnapshot _
  | hostAtomicRequest | laneLockLoss | ptRootWrite | invalidationComplete | reset | bootRetry => exact ⟨_, rfl⟩
  | _ => cases hi

end Sys2Proof.Machine
end

section
/-! Every step has a next state: a turn executes only what belongs to the agent that holds it. -/

namespace Sys2Proof.Machine

open Sys2Proof

/-! ### What a turn executes -/

/-- A word of the program is an instruction of the sequencer, or the illegal word (R67). -/
theorem answers_exec_instrOf {s : State} (h : SeqTurn s) (w : BitVec 32) : Answers (exec (instrOf w) s) := by
  unfold instrOf
  split
  next i hi => exact answers_exec_seq h (decodeSeq_ofSeq _ i hi)
  · exact answers_exec_illegal h w

/-- What a fetch gives is a word of the program, or a trap. -/
theorem fetchSeq_instr {c : Nat} {s t : State} {i : Instr} (h : fetchSeq c s = (.instr i, t)) : ∃ w, i = instrOf w := by
  revert h
  fun_cases fetchSeq c s
  all_goals
    intro h
    cases h
  · exact ⟨_, rfl⟩
  · exact ⟨_, rfl⟩

theorem opOf_ofNode {w : Nat} {i : Instr} (h : opOf w = some i) : OfNode i := by
  unfold opOf at h
  split at h
  next j hj =>
    cases h
    exact decodeNode_ofNode w _ hj
  · cases h

theorem eq_some_of_mem_mapM {α β : Type} {f : α → Option β} {l : List α} {ys : List β} (h : l.mapM f = some ys) {y : β}
    (hy : y ∈ ys) : ∃ x, f x = some y := by
  induction l generalizing ys with
  | nil =>
    cases h
    cases hy
  | cons x l ih =>
    rw [List.mapM_cons] at h
    obtain ⟨z, hz, h⟩ := Option.bind_eq_some_iff.1 h
    obtain ⟨zs, hzs, h⟩ := Option.bind_eq_some_iff.1 h
    cases h
    cases hy with
    | head => exact ⟨x, hz⟩
    | tail _ hy => exact ih hzs hy

/-- Each operation of a node's image is the decoded word of one. -/
theorem parseNode_ofNode {ws : List Nat} {m : NodeImg} (h : parseNode ws = some m) : ∀ i ∈ m.ops, OfNode i := by
  unfold parseNode at h
  split at h
  · cases h
  split at h
  · cases h
  extract_lets at h
  split at h
  · cases h
  split at h
  next ops _ _ hops _ _ =>
    cases h
    intro i hi
    obtain ⟨w, hw⟩ := eq_some_of_mem_mapM hops hi
    exact opOf_ofNode hw
  · cases h

/-- A firing's operation is one of its node's, whose image is found. -/
theorem firingOp_some {c fid : Nat} {s : State} {i : Instr} (h : firingOp c fid s = some i) :
    FiringTurn (s.withCur (.firing c fid)) ∧ OfNode i := by
  unfold firingOp at h
  split at h
  · cases h
  next g hg =>
    obtain ⟨m, hm, hi⟩ := Option.bind_eq_some_iff.1 h
    exact ⟨⟨c, fid, g, m, rfl, hg, hm⟩, parseNode_ofNode hm i (List.mem_of_getElem? hi)⟩

/-! ### Turns -/

theorem answers_seqTurn (c : Nat) (s : State) : Answers (seqTurn c s) := by
  unfold seqTurn
  split
  · exact ⟨_, rfl⟩
  split
  next i t hf =>
    obtain ⟨w, rfl⟩ := fetchSeq_instr hf
    exact answers_exec_instrOf ⟨c, rfl⟩ w
  · exact ⟨_, rfl⟩

theorem answers_firingTurn (c fid : Nat) (s : State) : Answers (firingTurn c fid s) := by
  unfold firingTurn
  split
  · exact ⟨_, rfl⟩
  split
  · exact ⟨_, rfl⟩
  next i hi =>
    obtain ⟨ht, hn⟩ := firingOp_some hi
    exact answers_exec_node ht hn

theorem answers_runTurn (t : Turn) (s : State) : Answers (runTurn t s) := by
  cases t with
  | seq c => exact answers_seqTurn c s
  | firing c f => exact answers_firingTurn c f s
  | event i =>
    dsimp only [runTurn]
    split
    · exact ⟨_, rfl⟩
    next hi => exact answers_exec_event (Bool.eq_false_iff.2 hi) _
  | tick | load | outside | tlbDrop | upset => exact ⟨_, rfl⟩

theorem answers_endTurn {o : Out} (h : Answers o) : Answers (endTurn o) := by
  obtain ⟨t, rfl⟩ := h
  exact ⟨_, rfl⟩

/-- Settles O58: a turn executes an instruction of the sequencer in a sequencer's turn, an operation of a node in the turn of a
firing whose image is found, and an event in any other turn, and each of them has a next state there. -/
theorem everyStepHasANextState : Obligations.EveryStepHasANextState := by
  unfold Obligations.EveryStepHasANextState
  intro s
  exact answers_endTurn (answers_runTurn _ _)

end Sys2Proof.Machine
end

section
/-! What a turn of the agenda does in a step: the sequencer's fetch, the operation of a firing, and an event (R16, R67, R93, R339). -/

namespace Sys2Proof.Machine

open Sys2Proof Sys2Proof.Claims

/-! ### The turn that the agenda gives -/

theorem step_of_agenda {s : State} {t : Turn} {l : List Turn} (h : s.agenda = t :: l) :
    step s = endTurn (runTurn t { s with agenda := l }) := by
  simp [step, nextTurn, h]

/-- A step ends with no agent holding the turn. -/
theorem cur_of_endTurn {o : Out} {t : State} (h : endTurn o = .next t) : t.cur = .none := by
  cases o with
  | next s => cases h; rfl
  | fault f => cases h
  | refused r => cases h

/-! ### The sequencer's turn -/

theorem instrOf_ok {w : BitVec 32} {i : Instr} (h : decodeSeq w.toNat = .ok i) : instrOf w = i := by
  simp [instrOf, h]

theorem instrOf_error {w : BitVec 32} {e : SeqIll} (h : decodeSeq w.toNat = .error e) :
    instrOf w = .illegalSequencerWord w := by
  simp [instrOf, h]

theorem seqTurn_idle {c : Nat} {s : State} (h : (s.ctx c).seqRuns = false) : seqTurn c s = .next s := by
  simp [seqTurn, h]

theorem seqTurn_instr {c : Nat} {s t : State} {i : Instr} (h : (s.ctx c).seqRuns = true)
    (hf : fetchSeq c s = (.instr i, t)) : seqTurn c s = exec i { t with cur := .seq c } := by
  simp [seqTurn, h, hf, State.withCur]

theorem seqTurn_bad {c : Nat} {s t : State} {code : Nat} {epc report : Word} (h : (s.ctx c).seqRuns = true)
    (hf : fetchSeq c s = (.bad code epc report, t)) : seqTurn c s = .next (seqTrap c code 0 epc report t) := by
  simp [seqTurn, h, hf]

/-- The word of the instruction in progress is not fetched again (R93). -/
theorem fetchSeq_held {c : Nat} {s : State} {w : BitVec 32} (h : (s.ctx c).seq.ir = some w) :
    fetchSeq c s = (.instr (instrOf w), s) := by
  simp [fetchSeq, h]

/-- The places from which no instruction is fetched (R92, R93). -/
def OutsideFetch (c : Nat) (s : State) : Prop :=
  let x := s.ctx c
  x.seq.far = true ∨ 2 ^ 30 ≤ x.seq.pc.toNat ∨ x.inBlock (x.spAddr x.seq.pc.toNat / 2 ^ 24) = false ∨
    s.carved (x.spAddr x.seq.pc.toNat + 3) = true

theorem addr_toNat (q : Seq) : q.addr.toNat = q.pc.toNat := by
  have := q.pc.isLt
  simp [Seq.addr]
  omega

theorem outsideFetch_iff (c : Nat) (s : State) :
    OutsideFetch c s ↔ ((s.ctx c).seq.far || !s.fetchable (s.ctx c) (s.ctx c).seq.addr.toNat) = true := by
  simp only [OutsideFetch, State.fetchable, addr_toNat]
  generalize Ctx.inBlock _ _ = inb
  generalize State.carved _ _ = carved
  generalize (s.ctx c).seq.far = far
  cases far <;> cases inb <;> cases carved <;> simp

theorem fetchSeq_outside {c : Nat} {s : State} (h : (s.ctx c).seq.ir = none) (ho : OutsideFetch c s) :
    fetchSeq c s = (.bad 0x0304 (s.ctx c).seq.addr (s.ctx c).seq.addr, s) := by
  simp only [fetchSeq, h, (outsideFetch_iff c s).1 ho, if_true, trapSeqPc]

/-- Without upsets the word at the pc is fetched and kept (R93). -/
theorem fetchSeq_word {c : Nat} {s : State} (h : (s.ctx c).seq.ir = none) (hs : s.spErr = []) (ho : ¬ OutsideFetch c s) :
    let w := BitVec.ofNat 32 (rdBytes s.sp ((s.ctx c).spAddr (s.ctx c).seq.pc.toNat) 4)
    fetchSeq c s = (.instr (instrOf w), s.modSeq c fun q => { q with ir := some w }) := by
  rw [outsideFetch_iff, addr_toNat, Bool.not_eq_true] at ho
  simp only [fetchSeq, h, ho, spRead_clean hs, addr_toNat, Bool.false_eq_true, if_false]

theorem seqRuns_goesOn {x : Ctx} (h : x.goesOn none = false) : x.seqRuns = false := by
  simp [Ctx.seqRuns, h]

/-! ### A region that has not resumed (R339) -/

theorem goesOn_replays {x : Ctx} (h : x.replays = true) (k : Option Nat) : x.goesOn k = false := by
  simp [Ctx.goesOn, Ctx.resuming, h]

theorem goesOn_fencing {x : Ctx} (hr : x.st = .running) (h : x.fab.fencing = true) {k : Option Nat}
    (hk : k ∉ x.fab.heldFences) : x.goesOn k = false := by
  simp [Ctx.goesOn, Ctx.resuming, hr, h, hk]

/-! ### The turns of a firing and of an event -/

theorem firingTurn_idle {c f : Nat} {s : State} (h : (s.ctx c).goesOn (some f) = false) : firingTurn c f s = .next s := by
  simp [firingTurn, h]

theorem firingTurn_op {c f : Nat} {s : State} {g : Firing} {m : NodeImg} {i : Instr} (hl : (s.ctx c).live = true)
    (hg : (s.ctx c).goesOn (some f) = true) (hf : ((s.ctx c).fab.firings.find? fun g => g.id == f) = some g)
    (hm : s.nodeImg (s.ctx c) g.ref = some m) (hi : m.ops[g.stage]? = some i) :
    firingTurn c f s = exec i { s with cur := .firing c f } := by
  simp [firingTurn, firingOp, State.fab, hl, hg, hf, hm, hi, State.withCur]

theorem ofAgent_event {i : Instr} (h : encode i = none) (hw : ∀ w, i ≠ .illegalSequencerWord w) : ofAgent i = false := by
  unfold ofAgent
  rw [h]
  split
  next w => exact absurd rfl (hw w)
  next => rfl

/-! ### The statement -/

/-- Settles O54: the turn that the agenda gives first is unfolded once, and each agent's turn is one of the cases above. -/
theorem stepRunsDecodedInstruction : Obligations.StepRunsDecodedInstruction := by
  unfold Obligations.StepRunsDecodedInstruction
  intro s l c f i
  refine ⟨fun ha hr => ?_, fun ha hg => ?_, fun ha hg => ?_,
    fun k => ⟨fun h => goesOn_replays h k, fun hr hf hk => goesOn_fencing hr hf hk⟩,
    fun g m ha hl hg hf hm hi => ?_, fun ha he hw => ?_, fun t h => cur_of_endTurn h⟩
  · rw [step_of_agenda ha]
    have instr : ∀ (w : BitVec 32) (y : State), fetchSeq c { s with agenda := l } = (.instr (instrOf w), y) →
        endTurn (runTurn (.seq c) { s with agenda := l }) = endTurn (exec (instrOf w) { y with cur := .seq c }) :=
      fun w y hf => congrArg endTurn (seqTurn_instr (s := { s with agenda := l }) hr hf)
    have words : ∀ (w : BitVec 32) (y : State), fetchSeq c { s with agenda := l } = (.instr (instrOf w), y) →
        (∀ j, decodeSeq w.toNat = .ok j →
          endTurn (runTurn (.seq c) { s with agenda := l }) = endTurn (exec j { y with cur := .seq c })) ∧
        ∀ e, decodeSeq w.toNat = .error e → endTurn (runTurn (.seq c) { s with agenda := l }) =
          endTurn (exec (.illegalSequencerWord w) { y with cur := .seq c }) :=
      fun w y hf => ⟨fun j hj => instrOf_ok hj ▸ instr w y hf, fun e he => instrOf_error he ▸ instr w y hf⟩
    exact ⟨fun v hv => words v _ (fetchSeq_held hv), fun hn hs ho => words _ _ (fetchSeq_word hn hs ho),
      fun hn ho => congrArg endTurn (seqTurn_bad (s := { s with agenda := l }) hr (fetchSeq_outside hn ho))⟩
  · rw [step_of_agenda ha]
    exact congrArg endTurn (seqTurn_idle (seqRuns_goesOn hg))
  · rw [step_of_agenda ha]
    exact congrArg endTurn (firingTurn_idle hg)
  · rw [step_of_agenda ha]
    exact congrArg endTurn (firingTurn_op (s := { s with agenda := l }) hl hg hf hm hi)
  · rw [step_of_agenda ha]
    simp [runTurn, ofAgent_event he hw, State.withCur]

end Sys2Proof.Machine
end

section
/-! SUPPORT. Sparse stores: what a store lists, and what a fold of writes leaves at a key. -/

namespace Sys2Proof.Machine

variable {α β : Type} {d : α}

/-- A key that reads as something else than an unlisted one is listed with what it reads as. -/
theorem mem_of_smGet_ne {m : SMap α} {i : Nat} (h : smGet d m i ≠ d) : (i, smGet d m i) ∈ m := by
  induction m with
  | nil => exact absurd rfl h
  | cons p t ih =>
    obtain ⟨k, v⟩ := p
    by_cases hk : i = k
    · simp [smGet, hk]
    · by_cases hl : i < k
      · exact absurd (by simp [smGet, hk, hl]) h
      · simp only [smGet, hk, hl, if_false] at h ⊢
        exact List.mem_cons_of_mem _ (ih h)

theorem smGet_of_unlisted {m : SMap α} {i : Nat} (h : ∀ v, (i, v) ∉ m) : smGet d m i = d := by
  by_contra hn
  exact h _ (mem_of_smGet_ne hn)

variable [DecidableEq α]

theorem le_of_mem {lo : Nat} {m : SMap α} (h : smWfFrom d lo m = true) {i : Nat} {v : α} (hm : (i, v) ∈ m) : lo ≤ i := by
  induction m generalizing lo with
  | nil => cases hm
  | cons p t ih =>
    simp only [smWfFrom, Bool.and_eq_true, decide_eq_true_eq] at h
    rcases List.mem_cons.1 hm with rfl | ht
    · exact h.1.1
    · have := ih h.2 ht
      omega

/-- A canonical store reads at each listed key as it lists. -/
theorem smGet_of_mem {lo : Nat} {m : SMap α} (h : smWfFrom d lo m = true) {i : Nat} {v : α} (hm : (i, v) ∈ m) :
    smGet d m i = v := by
  induction m generalizing lo with
  | nil => cases hm
  | cons p t ih =>
    simp only [smWfFrom, Bool.and_eq_true, decide_eq_true_eq] at h
    rcases List.mem_cons.1 hm with rfl | ht
    · simp [smGet]
    · have hl := le_of_mem h.2 ht
      have h1 : i ≠ p.1 := by omega
      have h2 : ¬ i < p.1 := by omega
      simp [smGet, h1, h2, ih h.2 ht]

/-- Writes of other keys leave a key alone. -/
theorem smGet_foldl_smSet_ne {m : SMap α} (hm : smWf d m = true) {k : β → Nat} {v : β → α} {l : List β} {i : Nat}
    (h : ∀ b ∈ l, k b ≠ i) : smGet d (l.foldl (fun m b => smSet d m (k b) (v b)) m) i = smGet d m i := by
  induction l generalizing m with
  | nil => rfl
  | cons b t ih =>
    rw [List.foldl_cons, ih (smWf_smSet hm _ _) fun b' hb' => h b' (List.mem_cons_of_mem _ hb')]
    exact smGet_smSet_ne hm _ (h b List.mem_cons_self).symm

/-- A key that some writes name reads as the value that they all write. -/
theorem smGet_foldl_smSet {m : SMap α} (hm : smWf d m = true) {k : β → Nat} {v : β → α} {l : List β} {i : Nat} {w : α}
    (hex : ∃ b ∈ l, k b = i) (h : ∀ b ∈ l, k b = i → v b = w) :
    smGet d (l.foldl (fun m b => smSet d m (k b) (v b)) m) i = w := by
  induction l generalizing m with
  | nil => obtain ⟨b, hb, -⟩ := hex; cases hb
  | cons b t ih =>
    have ht : ∀ b' ∈ t, k b' = i → v b' = w := fun b' hb' => h b' (List.mem_cons_of_mem _ hb')
    rw [List.foldl_cons]
    by_cases hin : ∃ b' ∈ t, k b' = i
    · exact ih (smWf_smSet hm _ _) hin ht
    · rw [smGet_foldl_smSet_ne (smWf_smSet hm _ _) fun b' hb' hk => hin ⟨b', hb', hk⟩]
      obtain ⟨b', hb', hk⟩ := hex
      obtain rfl : b' = b := (List.mem_cons.1 hb').resolve_right fun hb' => hin ⟨b', hb', hk⟩
      rw [← hk, smGet_smSet_same hm]
      exact h b' List.mem_cons_self hk

end Sys2Proof.Machine
end

section
/-! SUPPORT. Lanes of a vector: what is built lane by lane reads back lane by lane (R17). -/

namespace Sys2Proof.Machine

open Sys2Proof

theorem laneAt_mkLanes (f : Nat → Lane) {i : Nat} (hi : i < 16) : laneAt (mkLanes f) i = f i := by
  simp [laneAt, mkLanes, hi]

end Sys2Proof.Machine
end

section
/-! Plane switches, the end of a configuration load, and replies to node ports (R32, R104, R291, R292, R377). -/

namespace Sys2Proof.Machine

open Sys2Proof Sys2Proof.Claims

/-! ### Plane switches (R32) -/

theorem inPipe_iff (p : Phase) :
    p.inPipe = true ↔ p = .run ∨ (∃ es, p = .emit es) ∨ (∃ v, p = .granted v) ∨ ∃ v, p = .freed v := by
  cases p <;> simp [Phase.inPipe]

/-- The work that keeps a cluster on its active plane: a token that waits for it, or a firing in its pipelines (R32). -/
theorem planeBusy_iff (s : State) (x : Ctx) (cl a : Nat) :
    (s.waitsFor x cl a || x.fab.firings.any fun g => decide (g.ref.cl = cl ∧ g.ref.plane = a) && g.phase.inPipe) = true ↔
      s.waitsFor x cl a = true ∨ ∃ g ∈ x.fab.firings, g.ref.cl = cl ∧ g.ref.plane = a ∧
        (g.phase = .run ∨ (∃ es, g.phase = .emit es) ∨ (∃ v, g.phase = .granted v) ∨ ∃ v, g.phase = .freed v) := by
  simp only [Bool.or_eq_true, List.any_eq_true, Bool.and_eq_true, decide_eq_true_eq, inPipe_iff, and_assoc]

theorem find_next_plane {a d : Nat} {waits : Nat → Bool} (h1 : 1 ≤ d) (h3 : d ≤ 3) (hd : waits ((a + d) % 4) = true)
    (hmin : ∀ e, 1 ≤ e → e < d → ¬ waits ((a + e) % 4) = true) :
    ([1, 2, 3].map fun d => (a + d) % 4).find? waits = some ((a + d) % 4) := by
  have hb : ∀ e, 1 ≤ e → e < d → waits ((a + e) % 4) = false := fun e he hl => Bool.eq_false_iff.2 (hmin e he hl)
  obtain rfl | rfl | rfl : d = 1 ∨ d = 2 ∨ d = 3 := by omega
  · simp [hd]
  · simp [hd, hb 1]
  · simp [hd, hb 1, hb 2]

theorem exec_planeSwitch (n : Cluster) (s : State) : exec (.planeSwitch n) s = execPlaneSwitch n s := rfl

theorem planeSwitchesToNextWaiting : PlaneSwitchesToNextWaiting := by
  unfold PlaneSwitchesToNextWaiting
  intro n c x s hx cl a waits runs
  have hbusy := planeBusy_iff s x cl a
  simp only [exec_planeSwitch, execPlaneSwitch, hx]
  refine ⟨fun hb => if_pos (hbusy.2 hb), fun d hw hr h1 h3 hd hmin => ?_⟩
  rw [if_neg (hbusy.not.2 (not_or.2 ⟨hw, hr⟩)), find_next_plane h1 h3 hd hmin]
  refine ⟨_, rfl, rfl, fun hwf k => ?_⟩
  split
  next hk => exact hk ▸ smGet_smSet_same hwf _ _
  next hk => exact smGet_smSet_ne hwf _ hk

/-! ### The end of a configuration load (R104, R291, R292) -/

theorem laneAt_holdLanes (v : List Lane) (i : Nat) : laneAt (holdLanes v) i = laneAt v i := by
  unfold holdLanes
  split
  next h =>
    simp only [List.all_eq_true, beq_iff_eq] at h
    by_cases hi : i < v.length
    · simp [laneAt, hi, h _ (List.getElem_mem hi)]
    · simp [laneAt, hi]
  · rfl

theorem nodeKey_reloc (f cl q pe slot : Nat) :
    nodeKey (f + cl) q pe slot = nodeKey cl q pe slot + f * (4 * 64 * 128) := by
  unfold nodeKey; omega

theorem nodeKey_plane {cl q pe slot : Nat} (hpe : pe < 64) (hs : slot < 128) :
    nodeKey cl q pe slot / (64 * 128) = cl * 4 + q := by
  unfold nodeKey; omega

section
variable {x : Ctx} {j : LoadJob} {s : State}

@[simp] theorem finishLoad_ctxs : (finishLoad x j s).ctxs = s.ctxs := rfl
@[simp] theorem finishLoad_sp : (finishLoad x j s).sp = s.sp := rfl
@[simp] theorem finishLoad_hbm : (finishLoad x j s).hbm = s.hbm := rfl

/-- The keys of the planes that a load writes: each of its planes in every cluster of the region. -/
def loadPlaneKeys (x : Ctx) (j : LoadJob) : List Nat :=
  (List.range x.size).flatMap fun cl => (List.range j.fold).map fun q => (x.first + cl) * 4 + j.plane + q

/-- What the planes of a load hold at its end: nothing where a later load has dropped it (R104). -/
def LoadJob.held (j : LoadJob) : Nat × Nat × Nat × Nat := if j.dropped then noPlane else (j.addr, j.ident, j.plane, j.fold)

theorem finishLoad_planes : (finishLoad x j s).planes =
    (loadPlaneKeys x j).foldl (fun m k => smSet noPlane m k j.held) (s.dropLoads x j.plane j.fold).planes := by
  simp [finishLoad, loadPlaneKeys, LoadJob.held, List.foldl_flatMap, List.foldl_map]

theorem finishLoad_planeOf (hp : smWf noPlane s.planes = true) {cl q : Nat} (hcl : cl < x.size) (hq : q < j.fold) :
    (finishLoad x j s).planeOf x cl (j.plane + q) = j.held := by
  unfold State.planeOf
  rw [finishLoad_planes]
  refine smGet_foldl_smSet (smWf_filter _ hp) (k := id) (v := fun _ => j.held) ⟨_, ?_, rfl⟩ fun _ _ _ => rfl
  simp only [loadPlaneKeys, List.mem_flatMap, List.mem_map, List.mem_range]
  exact ⟨cl, hcl, q, hq, Nat.add_assoc _ _ _⟩

/-- A node word of the load's planes is the load's own: what the planes held before is gone (R291, R292). -/
theorem finishLoad_node (hn : smWf [] s.nodes = true) (hj : smWf [] j.nodes = true) (h4 : j.plane + j.fold ≤ 4)
    {cl q pe slot : Nat} (hcl : cl < x.size) (hq : j.plane ≤ q) (hq' : q < j.plane + j.fold) (hpe : pe < 64)
    (hs : slot < 128) : smGet [] (finishLoad x j s).nodes (nodeKey (x.first + cl) q pe slot) =
      smGet [] j.nodes (nodeKey cl q pe slot) := by
  simp only [finishLoad, State.dropLoads]
  by_cases hl : ∃ n ∈ j.nodes, n.1 = nodeKey cl q pe slot
  · refine smGet_foldl_smSet (smWf_filter _ hn) (k := fun n => n.1 + x.first * (4 * 64 * 128)) (v := Prod.snd) ?_ ?_
    · obtain ⟨n, hm, hk⟩ := hl
      exact ⟨n, hm, by rw [nodeKey_reloc, hk]⟩
    · intro n hm hk
      rw [nodeKey_reloc] at hk
      have hk : n.1 = nodeKey cl q pe slot := by omega
      exact (smGet_of_mem hj (hk ▸ hm)).symm
  · have hunlisted : smGet [] j.nodes (nodeKey cl q pe slot) = [] := smGet_of_unlisted fun v hv => hl ⟨_, hv, rfl⟩
    rw [hunlisted, smGet_foldl_smSet_ne (smWf_filter _ hn) (k := fun n => n.1 + x.first * (4 * 64 * 128)) (v := Prod.snd)]
    · refine smGet_of_unlisted fun v hv => ?_
      have hout := (List.mem_filter.1 hv).2
      simp only [nodeKey_plane hpe hs] at hout
      simp at hout
      omega
    · intro n hm hk
      rw [nodeKey_reloc] at hk
      exact hl ⟨n, hm, by omega⟩

theorem finishLoad_hold (hh : smWf [] s.hold = true) (hj : smWf [] j.holds = true) {k : Nat} {v : List Lane}
    (hm : (k, v) ∈ j.holds) : smGet [] (finishLoad x j s).hold (x.first * 1024 + k) = holdLanes v := by
  simp only [finishLoad, State.dropLoads, show x.first * 1024 + k = k + x.first * (64 * 16) by omega]
  refine smGet_foldl_smSet hh (k := fun h => h.1 + x.first * (64 * 16)) (v := fun h => holdLanes h.2)
    ⟨_, hm, rfl⟩ fun h hh hk => ?_
  have hk : h.1 = k := by omega
  have := smGet_of_mem hj (show (k, h.2) ∈ j.holds from hk ▸ hh)
  rw [← this, smGet_of_mem hj hm]

theorem exec_configurationLoadComplete {c : CtxId} {l : List LoadJob} (hl : (s.ctx c.val).live = true)
    (hj : (s.fab c.val).loads = j :: l) : exec (.configurationLoadComplete c) s =
      .next ((finishLoad (s.ctx c.val) j s).modFab c.val fun f => { f with loads := l }) := by
  have hexec : exec (.configurationLoadComplete c) s = execConfigurationLoadComplete c s := rfl
  simp [hexec, execConfigurationLoadComplete, hj, hl]

end

theorem loadCompletionWritesPlanes : LoadCompletionWritesPlanes := by
  unfold LoadCompletionWritesPlanes
  intro c j l s hc hl hj h4 _ hp hn hjn x
  have hcf : (finishLoad x j s).ctxWf = true := hc
  refine ⟨_, exec_configurationLoadComplete hl hj, ?_, rfl, rfl, fun cl q hcl hq => finishLoad_planeOf hp hcl hq,
    fun cl q pe slot hcl hq hq' hpe hs => finishLoad_node hn hjn h4 hcl hq hq' hpe hs, fun k v hh hjh hm i _ => ?_⟩
  · rw [State.fab_modFab_same hcf]
  · rw [← laneAt_holdLanes v, ← finishLoad_hold (x := x) hh hjh hm]
    rfl

/-! ### Replies to node ports (R377) -/

/-- An empty branch has room: its queue holds at least one token (R325). -/
theorem hasRoom_of_no_branch {chan : List Tok} {t : Tok} (h : ∀ o ∈ chan, ¬ (o.src = t.src ∧ o.dest = t.dest ∧ o.port = t.port)) :
    hasRoom chan t = true := by
  have : (chan.filter fun k => decide (k.src = t.src ∧ k.dest = t.dest ∧ k.port = t.port)) = [] :=
    List.filter_eq_nil_iff.2 fun o ho => by simpa using h o ho
  simp only [hasRoom, this, queueDepth, List.length_nil, Nat.zero_lt_succ, decide_true]

/-- The node that a reply of the period names (R377). -/
def replyRef (x : Ctx) (p : Period) (r : NodeReply) : NodeRef :=
  { cl := LinkDest.clusterOf r.dest - x.base, plane := p.plane + r.plane, pe := r.dest.pe, slot := r.dest.node }

/-- The token that a reply becomes at its port (R377). -/
def replyTok (x : Ctx) (p : Period) (r : NodeReply) : Tok :=
  { tag := r.tag, kind := .data, mask := 0x0003, dest := replyRef x p r, port := r.dest.port, pred := r.pred,
    payload := mkLanes fun l => BitVec.ofNat 32 (match l with
      | 0 => r.word.toNat
      | 1 => r.word.toNat / 2 ^ 32
      | _ => 0),
    src := { replyRef x p r with plane := 4 } }

theorem replyTok_lanes (x : Ctx) (p : Period) (r : NodeReply) :
    laneAt (replyTok x p r).payload 0 = r.word.setWidth 32 ∧
      laneAt (replyTok x p r).payload 1 = (r.word >>> 32).setWidth 32 := by
  simp only [replyTok, laneAt_mkLanes, Nat.zero_lt_succ, Nat.one_lt_ofNat]
  constructor <;> apply BitVec.eq_of_toNat_eq <;> simp [Nat.shiftRight_eq_div_pow]

theorem exec_replyTokenDelivery (c : CtxId) (k : Nat) (s : State) :
    exec (.replyTokenDelivery c k) s = execReplyTokenDelivery c k s := rfl

section
variable {c : CtxId} {k : Nat} {r : NodeReply} {p : Period} {s : State}
variable (hl : (s.ctx c.val).live = true) (hr : (s.ctx c.val).resuming = false)
  (hk : (s.ctx c.val).fab.replies[k]? = some r) (hp : (s.ctx c.val).fab.period = some p)
include hl hr hk hp

/-- A delivered reply that names no node, plane or data port of the load raises OP.ILL (R377). -/
theorem exec_replyTokenDelivery_ill (h : ∀ m, s.nodeImg (s.ctx c.val) (replyRef (s.ctx c.val) p r) = some m →
      (s.planeOf (s.ctx c.val) (LinkDest.clusterOf r.dest - (s.ctx c.val).base) p.plane).2.2.2 ≤ r.plane ∨
        m.head.inputs ≤ r.dest.port) :
    exec (.replyTokenDelivery c k) s = .next (nodeTrap c.val 0x0401 0 (BitVec.ofNat 64 (r.header % 2 ^ 64))
      (s.modFab c.val fun f => { f with replies := f.replies.eraseIdx k })) := by
  simp only [exec_replyTokenDelivery, execReplyTokenDelivery, hk, hp, hl, hr]
  refine (if_neg (by decide)).trans ?_
  split
  · rfl
  next m hm => exact if_pos (h m hm)

theorem exec_replyTokenDelivery_token {m : NodeImg} (hm : s.nodeImg (s.ctx c.val) (replyRef (s.ctx c.val) p r) = some m)
    (hpl : r.plane < (s.planeOf (s.ctx c.val) (LinkDest.clusterOf r.dest - (s.ctx c.val).base) p.plane).2.2.2)
    (hpo : r.dest.port < m.head.inputs) : exec (.replyTokenDelivery c k) s =
      .next (if hasRoom (s.ctx c.val).fab.chan (replyTok (s.ctx c.val) p r) = true
        then sendToks c.val [replyTok (s.ctx c.val) p r] (s.modFab c.val fun f => { f with replies := f.replies.eraseIdx k })
        else s) := by
  rw [replyRef] at hm
  simp only [exec_replyTokenDelivery, execReplyTokenDelivery, hk, hp, hl, hr, hm]
  exact (if_neg (by decide)).trans (if_neg (by omega))

end

theorem replyTokenReachesItsPort : ReplyTokenReachesItsPort := by
  unfold ReplyTokenReachesItsPort
  intro c k r p s _ x f hl hr hk hp cl ref fold u ill
  refine ⟨fun hm => exec_replyTokenDelivery_ill hl hr hk hp fun m hm' => ?_, fun m hm => ⟨fun hbad =>
    exec_replyTokenDelivery_ill hl hr hk hp fun m' hm' => ?_, fun hpl hport =>
    ⟨_, exec_replyTokenDelivery_token hl hr hk hp hm hpl hport, ?_, rfl, rfl, rfl, rfl, rfl, replyTok_lanes x p r⟩⟩⟩
  · exact absurd (hm.symm.trans hm') (by simp)
  · obtain rfl : m = m' := Option.some.inj (hm.symm.trans hm')
    exact hbad
  · exact fun h => hasRoom_of_no_branch fun o ho hb => (h o ho).elim (absurd hb.2.1) (absurd hb.2.2)

/-- Settles O36, its three parts by the definitions of the three events. -/
theorem planesLoadsAndReplies : Obligations.PlanesLoadsAndReplies :=
  ⟨planeSwitchesToNextWaiting, loadCompletionWritesPlanes, replyTokenReachesItsPort⟩

end Sys2Proof.Machine
end

section
/-! SUPPORT. The outputs of a node: what its branches accept, and its round markers (R320, R325). -/

namespace Sys2Proof.Machine

open Sys2Proof

/-! ### Firings in a fabric -/

theorem setFiring_fab {s : State} (h : s.ctxWf = true) (c : Nat) (g : Firing) : (setFiring c g s).fab c =
    { s.fab c with firings := (s.fab c).firings.map fun h => if h.id = g.id then g else h } :=
  State.fab_modFab_same h c _

theorem dropFiring_fab {s : State} (h : s.ctxWf = true) (c fid : Nat) : (dropFiring c fid s).fab c =
    { s.fab c with firings := (s.fab c).firings.filter fun g => g.id ≠ fid } :=
  State.fab_modFab_same h c _

theorem ctxWf_setFiring {s : State} (h : s.ctxWf = true) (c : Nat) (g : Firing) : (setFiring c g s).ctxWf = true :=
  State.ctxWf_modFab h c _

theorem ctxWf_dropFiring {s : State} (h : s.ctxWf = true) (c fid : Nat) : (dropFiring c fid s).ctxWf = true :=
  State.ctxWf_modFab h c _

/-- A firing that is complete leaves the channels alone. -/
theorem emitted_chan {s : State} (h : s.ctxWf = true) (c : Nat) (g : Firing) (m : NodeImg) :
    (emitted c g m s).ctxWf = true ∧ ((emitted c g m s).fab c).chan = (s.fab c).chan := by
  unfold emitted
  split
  · exact ⟨ctxWf_setFiring h c _, by rw [setFiring_fab h]⟩
  · exact ⟨ctxWf_dropFiring h c _, by rw [dropFiring_fab h]⟩

/-- Firings are no part of what freezes an element (R321). -/
theorem frozen_firings (s : State) (l : SMap Ctx) (x : Ctx) (fs : List Firing) (n : Nat) (r : NodeRef) :
    State.frozen { s with ctxs := l } { x with fab := { x.fab with firings := fs, nextId := n } } r = s.frozen x r := rfl

/-! ### The queues of branches (R325) -/

theorem hasRoom_eq_false {chan : List Tok} {t : Tok} : hasRoom chan t = false ↔
    queueDepth ≤ (chan.filter fun k => decide (k.src = t.src ∧ k.dest = t.dest ∧ k.port = t.port)).length := by
  rw [hasRoom, decide_eq_false_iff_not, Nat.not_lt]

theorem hasRoom_append {chan : List Tok} {t : Tok} (h : hasRoom chan t = false) (l : List Tok) :
    hasRoom (chan ++ l) t = false := by
  rw [hasRoom_eq_false] at h ⊢
  rw [List.filter_append, List.length_append]
  omega

/-- Each token of a list is accepted or not, and one that is not finds its branch full to the end (R325). -/
theorem admitToks_spec (frozen : NodeRef → Bool) (chan ts : List Tok) : ∃ sent,
    (admitToks frozen chan ts).1 = chan ++ sent ∧ (sent ++ (admitToks frozen chan ts).2).Perm ts ∧
      ∀ t ∈ (admitToks frozen chan ts).2, frozen t.dest = false ∧ hasRoom (admitToks frozen chan ts).1 t = false := by
  induction ts generalizing chan with
  | nil => exact ⟨[], by simp [admitToks]⟩
  | cons t ts ih =>
    by_cases ha : (hasRoom chan t || frozen t.dest) = true
    · obtain ⟨sent, hc, hp, hk⟩ := ih (chan ++ [t])
      simp only [admitToks, ha, if_true]
      exact ⟨t :: sent, by simp [hc], hp.cons t, hk⟩
    · obtain ⟨sent, hc, hp, hk⟩ := ih chan
      simp only [admitToks, ha]
      refine ⟨sent, hc, List.perm_middle.trans (hp.cons t), fun u hu => ?_⟩
      rcases List.mem_cons.1 hu with rfl | hu
      · simp only [Bool.or_eq_true, not_or, Bool.not_eq_true] at ha
        exact ⟨ha.2, by rw [hc]; exact hasRoom_append ha.1 sent⟩
      · exact hk u hu

/-- What sending the outputs of a firing in E does once its route is free: some are in their channels, and the firing keeps the
others, whose branches are full (R16, R325). -/
theorem emitNow_spec {s : State} (hc : s.ctxWf = true) {c : Nat} {g : Firing} (m : NodeImg) (outs : List Emission)
    (hb : (s.fab c).routeBusy g = false) (hblk : g.blocked = true) (hg : g ∈ (s.fab c).firings) :
    let u := emitNow c g m outs s
    ∃ sent kept, u.ctxWf = true ∧ (u.fab c).chan = (s.fab c).chan ++ sent ∧
      (sent ++ kept).Perm (outs.flatMap (s.toks (s.ctx c) g.ref m)) ∧
      (∀ t ∈ kept, s.frozen (s.ctx c) t.dest = false ∧ hasRoom (u.fab c).chan t = false) ∧
      (kept ≠ [] → ∃ h ∈ (u.fab c).firings, h.ref = g.ref ∧ h.phase = .emit (kept.map Tok.again)) := by
  obtain ⟨sent, hchan, hperm, hkept⟩ :=
    admitToks_spec (s.frozen (s.ctx c)) (s.fab c).chan (outs.flatMap (s.toks (s.ctx c) g.ref m))
  simp only [emitNow, hb, Bool.false_eq_true, if_false]
  generalize admitToks (s.frozen (s.ctx c)) (s.fab c).chan (outs.flatMap (s.toks (s.ctx c) g.ref m)) = r at *
  have hc' : (s.modFab c fun f => { f with chan := r.1 }).ctxWf = true := State.ctxWf_modFab hc c _
  have hfab : (s.modFab c fun f => { f with chan := r.1 }).fab c = { s.fab c with chan := r.1 } :=
    State.fab_modFab_same hc c _
  refine ⟨sent, r.2, ?_⟩
  split
  next hn =>
    obtain ⟨hcu, hu⟩ := emitted_chan hc' c g m
    exact ⟨hcu, by rw [hu, hfab]; exact hchan, hperm, fun t ht => absurd (hn ▸ ht) List.not_mem_nil, fun h => absurd hn h⟩
  next hn =>
    simp only [waitEmit, hblk, if_true, ctxWf_setFiring hc', setFiring_fab hc', hfab]
    exact ⟨trivial, hchan, hperm, hkept, fun _ => ⟨_, List.mem_map.2 ⟨g, hg, if_pos rfl⟩, rfl, rfl⟩⟩

/-! ### Round markers (R320) -/

/-- A marker that waits at its branch is sent again as itself. -/
theorem toks_again_markerTok (s : State) (x : Ctx) (r : NodeRef) (m : NodeImg) (d : NodeRef × Nat) :
    s.toks x r m (markerTok r d).again = [markerTok r d] := rfl

theorem flatMap_toks_again {s : State} {x : Ctx} {r : NodeRef} {m : NodeImg} {l : List Tok}
    (h : ∀ t ∈ l, ∃ d, t = markerTok r d) : (l.map Tok.again).flatMap (s.toks x r m) = l := by
  induction l with
  | nil => rfl
  | cons t l ih =>
    obtain ⟨d, rfl⟩ := h t List.mem_cons_self
    rw [List.map_cons, List.flatMap_cons, toks_again_markerTok, ih fun t ht => h t (List.mem_cons_of_mem _ ht)]
    rfl

theorem exists_of_mem_markersOut {s : State} {x : Ctx} {r : NodeRef} {m : NodeImg} {t : Tok}
    (h : t ∈ s.markersOut x r m) : ∃ d, t = markerTok r d := by
  obtain ⟨d, -, rfl⟩ := List.mem_map.1 h
  exact ⟨d, rfl⟩

/-- A node's markers name each of its destinations. -/
theorem mem_destsAt_iff {s : State} {x : Ctx} {r : NodeRef} {m : NodeImg} {d : NodeRef × Nat} :
    d ∈ s.destsAt x r m ↔ ∃ t ∈ s.markersOut x r m, (t.dest, t.port) = d := by
  simp only [State.markersOut, List.mem_map, exists_exists_and_eq_and, markerTok, Prod.mk.eta, exists_eq_right]

/-- The firing in E that sends the markers of a node (R320). -/
def markerFiring (f : Fabric) (r : NodeRef) (outs : List Emission) : Firing :=
  { id := f.nextId, ref := r, tag := 0, ports := [], scales := [], stage := 0, x := [], mask := 0, act := 0, fwd := [],
    fl := 0, phase := .emit outs, wins := [], got := [] }

/-- A fabric with that firing. -/
def Fabric.marking (f : Fabric) (r : NodeRef) (outs : List Emission) : Fabric :=
  { f with nextId := f.nextId + 1, firings := f.firings ++ [markerFiring f r outs] }

theorem sendMarkers_eq (c : Nat) (r : NodeRef) (m : NodeImg) (s : State) {outs : List Emission}
    (h : outs = (s.markersOut (s.ctx c) r m).map Tok.again) : sendMarkers c r m s = if outs = [] then s else
      emitNow c (markerFiring (s.fab c) r outs) m outs (s.modFab c fun _ => (s.fab c).marking r outs) := by
  subst h; rfl

/-- Where no output of a node stands in E, its markers find its route free. -/
theorem routeBusy_marking {f : Fabric} {r : NodeRef} {outs : List Emission}
    (h : ∀ g ∈ f.firings, g.ref = r → ∀ es, g.phase ≠ .emit es) :
    (f.marking r outs).routeBusy (markerFiring f r outs) = false := by
  have hfree : ∀ g ∈ f.firings, (decide (g.ref = r) && g.blocked) = false := by
    intro g hg
    rw [Bool.and_eq_false_iff, decide_eq_false_iff_not, or_iff_not_imp_left, not_not]
    intro hr
    unfold Firing.blocked
    split
    next es hp => exact absurd hp (h g hg hr es)
    next => rfl
  rw [Fabric.routeBusy, if_pos (show (markerFiring f r outs).blocked = true from rfl), List.any_eq_false]
  intro g hg
  have hid := List.mem_takeWhile_imp hg
  rcases List.mem_append.1 ((List.takeWhile_sublist _).subset hg) with hg | hg
  · exact Bool.eq_false_iff.1 (hfree g hg)
  · obtain rfl := List.mem_singleton.1 hg
    simp at hid

/-- What sending the markers of a node does: some are in their channels, the others stay in E behind full branches. -/
theorem sendMarkers_spec {s : State} (hc : s.ctxWf = true) {c : Nat} {r : NodeRef} (m : NodeImg)
    (h : ∀ g ∈ (s.fab c).firings, g.ref = r → ∀ es, g.phase ≠ .emit es) :
    let u := sendMarkers c r m s
    ∃ sent kept, u.ctxWf = true ∧ (u.fab c).chan = (s.fab c).chan ++ sent ∧
      (sent ++ kept).Perm (s.markersOut (s.ctx c) r m) ∧
      (∀ t ∈ kept, s.frozen (s.ctx c) t.dest = false ∧ hasRoom (u.fab c).chan t = false) ∧
      (kept ≠ [] → ∃ g ∈ (u.fab c).firings, g.ref = r ∧ g.phase = .emit (kept.map Tok.again)) := by
  generalize ho : (s.markersOut (s.ctx c) r m).map Tok.again = outs
  rw [sendMarkers_eq c r m s ho.symm]
  dsimp only
  split
  next hn =>
    have : s.markersOut (s.ctx c) r m = [] := by simpa [← ho] using hn
    exact ⟨[], [], by simp [hc, this]⟩
  next =>
    have hfab : (s.modFab c fun _ => (s.fab c).marking r outs).fab c = (s.fab c).marking r outs :=
      State.fab_modFab_same hc c _
    have hctx : (s.modFab c fun _ => (s.fab c).marking r outs).ctx c = { s.ctx c with fab := (s.fab c).marking r outs } :=
      State.ctx_modCtx_same hc c _
    obtain ⟨sent, kept, hcu, hchan, hperm, hkept, hlast⟩ := emitNow_spec (State.ctxWf_modFab hc c _)
      (g := markerFiring (s.fab c) r outs) m outs (by rw [hfab]; exact routeBusy_marking h) rfl
      (by rw [hfab]; exact List.mem_append_right _ (List.mem_singleton_self _))
    refine ⟨sent, kept, hcu, by rw [hchan, hfab]; rfl, ?_, fun t ht => ⟨?_, (hkept t ht).2⟩, hlast⟩
    · refine hperm.trans (.of_eq ?_)
      rw [← ho]
      exact flatMap_toks_again fun t => exists_of_mem_markersOut
    · have hf := (hkept t ht).1
      rw [hctx] at hf
      exact (frozen_firings s _ (s.ctx c) _ _ t.dest).symm.trans hf

end Sys2Proof.Machine
end

section
/-! Sources issue their points; allocators grant slots, and frees release them (R20, R22, R23, R105, R154, R320, R325). -/

namespace Sys2Proof.Machine

open Sys2Proof Sys2Proof.Claims

/-! ### Index tokens (R22, R105) -/

theorem exec_indexTokenIssue (c : CtxId) (k : Nat) (s : State) : exec (.indexTokenIssue c k) s = execIndexTokenIssue c k s := rfl

/-- The index token of a point (R105). -/
def indexTok (p : Period) (i : Nat) (r : NodeRef) (t : Tag) : Tok :=
  { tag := t, kind := .data, mask := 0xFFFF, payload := p.point i, dest := r, port := 0, src := r, pred := [] }

theorem laneAt_point (p : Period) (i : Nat) : laneAt (p.point i) 0 = BitVec.ofNat 32 (i % p.nx) ∧
    laneAt (p.point i) 1 = BitVec.ofNat 32 (i / p.nx % p.ny) ∧
    laneAt (p.point i) 2 = BitVec.ofNat 32 (i / (p.nx * p.ny)) ∧ ∀ l, 3 ≤ l → l < 16 → laneAt (p.point i) l = 0 := by
  refine ⟨laneAt_mkLanes _ (by decide), laneAt_mkLanes _ (by decide), laneAt_mkLanes _ (by decide), fun l hl hu => ?_⟩
  obtain ⟨n, rfl⟩ : ∃ n, l = n + 3 := ⟨l - 3, by omega⟩
  exact laneAt_mkLanes _ hu

section
variable {c : CtxId} {k : Nat} {p : Period} {r : NodeRef} {m : NodeImg} {s : State}
variable (hp : (s.ctx c.val).fab.period = some p) (hr : (s.sources (s.ctx c.val))[k]? = some r)
  (hm : s.nodeImg (s.ctx c.val) r = some m) (hl : (s.ctx c.val).live = true) (hres : (s.ctx c.val).resuming = false)
include hp hr hm hl hres

theorem exec_indexTokenIssue_done (hd : (s.ctx c.val).fab.draining = false)
    (hi : p.points ≤ smGet 0 (s.ctx c.val).fab.cursors r.key) : exec (.indexTokenIssue c k) s = .next s := by
  simp [exec_indexTokenIssue, execIndexTokenIssue, hp, hr, hm, hl, hres, hd, hi]

theorem exec_indexTokenIssue_waits (hd : (s.ctx c.val).fab.draining = false)
    (hg : (s.ctx c.val).grant m.head.space 0 0 false none none = none) : exec (.indexTokenIssue c k) s = .next s := by
  simp only [exec_indexTokenIssue, execIndexTokenIssue, hp, hr, hm, hl, hres, hd, hg, Bool.not_true, Bool.or_self,
    Bool.false_eq_true, if_false, ite_self]

theorem exec_indexTokenIssue_point (hd : (s.ctx c.val).fab.draining = false)
    (hi : smGet 0 (s.ctx c.val).fab.cursors r.key < p.points) {t : Tag} {y : Ctx}
    (hg : (s.ctx c.val).grant m.head.space 0 0 false none none = some (t, y)) :
    let q := indexTok p (smGet 0 (s.ctx c.val).fab.cursors r.key) r t
    exec (.indexTokenIssue c k) s = .next (if hasRoom (s.ctx c.val).fab.chan q = true then
      sendToks c.val [q] ((s.setCtx c.val y).modFab c.val fun f =>
        { f with cursors := smSet 0 f.cursors r.key (smGet 0 (s.ctx c.val).fab.cursors r.key + 1) }) else s) := by
  simp only [exec_indexTokenIssue, execIndexTokenIssue, hp, hr, hm, hl, hres, hd, hg, Nat.not_le.2 hi, Bool.not_true,
    Bool.or_self, Bool.false_eq_true, if_false, Bool.not_eq_true', ← Bool.not_eq_true, ite_not]
  exact (apply_ite _ _ _ _).symm

theorem exec_indexTokenIssue_stops (hd : (s.ctx c.val).fab.draining = true)
    (hs : smGet 0 (s.ctx c.val).fab.stopped r.key = 0) (hb : s.pointBusy c.val r = false) :
    exec (.indexTokenIssue c k) s = .next ((sendMarkers c.val r m s).modFab c.val fun f =>
      { f with stopped := smSet 0 f.stopped r.key 1 }) := by
  simp [exec_indexTokenIssue, execIndexTokenIssue, hp, hr, hm, hl, hres, hd, hs, hb]

end

theorem sourcesIssueThePoints : SourcesIssueThePoints := by
  unfold SourcesIssueThePoints
  intro c k p r m s hc x hp hr hm hl hres i
  refine ⟨exec_indexTokenIssue_done hp hr hm hl hres, fun t y hd hi hg => ?_,
    exec_indexTokenIssue_waits hp hr hm hl hres, fun hd hs hb hfree => ?_⟩
  · have hexec := exec_indexTokenIssue_point hp hr hm hl hres hd hi hg
    refine ⟨fun hroom => hexec.trans (congrArg _ (if_neg (Bool.eq_false_iff.1 hroom))),
      fun h => hasRoom_of_no_branch fun o ho hb => ?_, fun hroom => ⟨_, hexec.trans (congrArg _ (if_pos hroom)), ?_⟩⟩
    · obtain ⟨hsrc, hdest, hport⟩ := hb
      rcases h o ho with hn | hn | hn
      · exact hn hsrc
      · exact hn hdest
      · exact hn hport
    · have hcy := State.ctxWf_setCtx hc c.val y
      have hctx : ∀ f : Fabric → Fabric, ∀ g : Fabric → Fabric, (((s.setCtx c.val y).modFab c.val f).modFab c.val g).ctx c.val =
          { y with fab := g (f y.fab) } := by
        intro f g
        rw [State.modFab, State.ctx_modCtx_same (State.ctxWf_modFab hcy _ _), State.modFab, State.ctx_modCtx_same hcy,
          State.ctx_setCtx_same hc]
      obtain ⟨h0, h1, h2, hrest⟩ := laneAt_point p i
      unfold State.fab sendToks
      simp only [hctx]
      exact ⟨rfl, h0, h1, h2, hrest, smGet_smSet_of_ne_default _ (Nat.succ_ne_zero _), trivial, trivial⟩
  · obtain ⟨sent, kept, hcu, hchan, hperm, hkept, hlast⟩ := sendMarkers_spec hc m hfree
    have hmem : ∀ t, t ∈ sent ++ kept ↔ t ∈ s.markersOut x r m := fun t => hperm.mem_iff
    have hmark : ∀ t ∈ sent ++ kept, ∃ d, t = markerTok r d := fun t ht => exists_of_mem_markersOut ((hmem t).1 ht)
    refine ⟨_, sent, kept, exec_indexTokenIssue_stops hp hr hm hl hres hd hs hb, ?_⟩
    rw [State.fab_modFab_same hcu]
    refine ⟨smGet_smSet_of_ne_default _ Nat.one_ne_zero, hchan, hperm, fun d => ?_, fun t ht => ?_, fun t ht => ?_,
      fun hne => ?_⟩
    · simp only [mem_destsAt_iff, hmem]
    · obtain ⟨d, rfl⟩ := hmark t ht
      exact ⟨rfl, rfl, rfl⟩
    · exact ⟨(hkept t ht).1, hasRoom_eq_false.1 (hkept t ht).2⟩
    · obtain ⟨g, hg, href, hphase⟩ := hlast hne
      exact ⟨g, hg, href, _, hphase, flatMap_toks_again fun t ht => hmark t (List.mem_append_right _ ht)⟩

/-! ### Grants (R20, R22) -/

theorem slot_setSlot_of_live (x : Ctx) (sp i : Nat) {v : Slot} (hv : v.live = true) : (x.setSlot sp i v).slot sp i = v :=
  smGet_smSet_of_ne_default _ fun h => by rw [h] at hv; cases hv

theorem tagSlot_setSlot {x : Ctx} (h : smWf Slot.zero x.slots = true) (t : Tag) (v : Slot) :
    (x.setSlot (tagSpace t) (tagIndex t) v).tagSlot t = v := smGet_smSet_same h _ _

theorem grant_live {x : Ctx} {sp q : Nat} (parent : Tag) (opened : Bool) (key : Option OrdKey)
    (ret : Option (Tag × NodeRef × Nat)) (h : (x.slot sp (x.nextSlot sp q)).live = true) :
    x.grant sp q parent opened key ret = none := by
  simp only [Ctx.grant, h, if_true]

/-- What a granted slot and its ring hold (R20, R22). -/
theorem grant_free {x : Ctx} (hr : smWf 0 x.rings = true) {sp q i : Nat} (hi : i = x.nextSlot sp q) (parent : Tag) (opened : Bool)
    (hv : (x.slot sp i).live = false) : ∃ y, x.grant sp q parent opened none none =
        some (mkTag (x.space sp).home sp i (x.slot sp i).gen, y) ∧
      (y.slot sp i).live = true ∧ (y.slot sp i).gen = (x.slot sp i).gen ∧ (y.slot sp i).parent = parent ∧
      (y.slot sp i).key = { space := sp, ring := q, ordinal := x.ringNext sp q } ∧
      y.ringNext sp q = (x.ringNext sp q + 1) % 2 ^ 64 := by
  simp only [Ctx.grant, ← hi, hv, Bool.false_eq_true, if_false, Option.getD_none]
  refine ⟨_, rfl, ?_⟩
  have hslot := slot_setSlot_of_live x sp i
    (v := ⟨true, (x.slot sp i).gen, parent, ⟨sp, q, x.ringNext sp q⟩, opened, none⟩) rfl
  exact ⟨(congrArg Slot.live hslot :), (congrArg Slot.gen hslot :), (congrArg Slot.parent hslot :),
    (congrArg Slot.key hslot :), smGet_smSet_same hr _ _⟩

/-- A firing's request is a grant of its ring; a call tag takes its caller's key and records the return (R22, R24, R162). -/
theorem grantReq_grant {s : State} {x y : Ctx} {g : Firing} {m : NodeImg} {r : AllocReq} {t : Tag}
    (h : grantReq s x g m r = some (t, y)) : ∃ z, x.grant r.space r.ring r.parent r.opened
        (if (x.space r.space).kind = .call then some (x.keyOf g.tag) else none)
        (if (x.space r.space).kind = .call then some (g.tag, (s.callDest x m g).1, (s.callDest x m g).2) else none) =
          some (t, z) ∧ y.slots = z.slots ∧ y.rings = z.rings := by
  unfold grantReq at h
  split at h
  next hcall =>
    simp only [hcall, if_true]
    exact ⟨y, h, rfl, rfl⟩
  next hcall =>
    simp only [hcall, if_false]
    obtain ⟨⟨t', z⟩, hz, hy⟩ := Option.map_eq_some_iff.1 h
    split at hy
    · cases hy
      exact ⟨_, hz, rfl, rfl⟩
    · cases hy
      exact ⟨_, hz, rfl, rfl⟩

theorem exec_tagAllocGrant (c : CtxId) (k : Nat) (s : State) : exec (.tagAllocGrant c k) s = execTagAllocGrant c k s := rfl

section
variable {c : CtxId} {k : Nat} {r : AllocReq} {s : State}
variable (hl : (s.ctx c.val).live = true) (hres : (s.ctx c.val).resuming = false)
  (hk : (s.ctx c.val).fab.allocs[k]? = some r)
include hk

/-- A request behind one of its ring waits (R22). -/
theorem exec_tagAllocGrant_behind (h : ∃ q ∈ (s.ctx c.val).fab.allocs.take k, q.space = r.space ∧ q.ring = r.ring) :
    exec (.tagAllocGrant c k) s = .next s := by
  have hany : ((s.ctx c.val).fab.allocs.take k).any (fun q => decide (q.space = r.space ∧ q.ring = r.ring)) = true := by
    simpa only [List.any_eq_true, decide_eq_true_eq] using h
  simp only [exec_tagAllocGrant, execTagAllocGrant, hk, hany, Bool.or_true, if_true]

variable {g : Firing} {m : NodeImg} (hg : ((s.ctx c.val).fab.firings.find? fun g => g.id == r.firing) = some g)
  (hm : s.nodeImg (s.ctx c.val) g.ref = some m)
include hg hm

theorem exec_tagAllocGrant_waits (h : grantReq s (s.ctx c.val) g m r = none) : exec (.tagAllocGrant c k) s = .next s := by
  simp only [exec_tagAllocGrant, execTagAllocGrant, hk, hg, hm, h, ite_self]

include hl hres in
theorem exec_tagAllocGrant_grants (hfirst : ∀ q ∈ (s.ctx c.val).fab.allocs.take k, q.space ≠ r.space ∨ q.ring ≠ r.ring)
    {t : Tag} {y : Ctx} (h : grantReq s (s.ctx c.val) g m r = some (t, y)) : exec (.tagAllocGrant c k) s =
      .next ((setFiring c.val { g with phase := .granted t } (s.setCtx c.val y)).modFab c.val fun f =>
        { f with allocs := f.allocs.eraseIdx k }) := by
  have hany : ((s.ctx c.val).fab.allocs.take k).any (fun q => decide (q.space = r.space ∧ q.ring = r.ring)) = false := by
    rw [List.any_eq_false]
    intro q hq
    rw [decide_eq_true_eq, not_and_or]
    exact hfirst q hq
  simp only [exec_tagAllocGrant, execTagAllocGrant, hk, hg, hm, hl, hres, hany, h, Bool.not_true, Bool.or_self,
    Bool.false_eq_true, if_false]

end

/-! ### Frees (R23, R154) -/

theorem exec_freeComplete (c : CtxId) (f : Nat) (s : State) : exec (.freeComplete c f) s = execFreeComplete c f s := rfl

/-- The slot of a freed tag: it is not live, and in its next generation (R23). -/
def Slot.freed (v : Slot) : Slot := { v with live := false, gen := (v.gen + 1) % 256, opened := false, ret := none }

/-- What a free gives where the tag is not live, where a live tag names it as its parent, and where neither holds (R23). -/
theorem freeTag_cases (x : Ctx) (t : Tag) : (x.tagLive t = false → x.freeTag t = .error 0x0102) ∧
    (x.tagLive t = true → x.namedAsParent t = true → x.freeTag t = .error 0x0101) ∧
    (x.tagLive t = true → x.namedAsParent t = false →
      x.freeTag t = .ok ((x.tagSlot t).parent, x.setSlot (tagSpace t) (tagIndex t) (x.tagSlot t).freed)) :=
  ⟨fun h => by simp [Ctx.freeTag, h, trapTagStale], fun h hn => by simp [Ctx.freeTag, h, hn, trapTagNest],
    fun h hn => by simp [Ctx.freeTag, h, hn, Slot.freed]⟩

/-- The context after a free of a tag by a node: a gate's ends its invocation (R33, R154). -/
def Ctx.afterFree (x : Ctx) (m : NodeImg) (t : Tag) : Ctx :=
  if m.isGate then { x with fab := { x.fab with
    loops := smSet 0 x.fab.loops (tagSpace t) (smGet 0 x.fab.loops (tagSpace t) - 1) } } else x

section
variable {c : CtxId} {g : Firing} {m : NodeImg} {s : State}
variable (hl : (s.ctx c.val).live = true) (hres : (s.ctx c.val).resuming = false)
  (hg : ((s.ctx c.val).fab.firings.find? fun h => h.id == g.id) = some g) (hp : g.phase = .waitFree)
include hg

theorem exec_freeComplete_waits (hu : s.tagInUse c.val g.id g.tag = true) : exec (.freeComplete c g.id) s = .next s := by
  simp only [exec_freeComplete, execFreeComplete, hg, hu, Bool.or_true, if_true]

variable (hm : s.nodeImg (s.ctx c.val) g.ref = some m) (hu : s.tagInUse c.val g.id g.tag = false)
include hl hres hp hm hu

theorem exec_freeComplete_traps {code : Nat} (h : (s.ctx c.val).freeTag g.tag = .error code) :
    exec (.freeComplete c g.id) s = .next (nodeTrap c.val code 0 (nodeTagReport m.emit.node g.tag) s) := by
  simp [exec_freeComplete, execFreeComplete, hg, hl, hres, hp, hu, hm, h, trapNodeTag]

theorem exec_freeComplete_frees {p : Tag} {x : Ctx} (h : (s.ctx c.val).freeTag g.tag = .ok (p, x)) :
    exec (.freeComplete c g.id) s =
      .next (setFiring c.val { g with phase := .freed p } (s.setCtx c.val (x.afterFree m g.tag))) := by
  simp [exec_freeComplete, execFreeComplete, hg, hl, hres, hp, hu, hm, h, Ctx.afterFree]

end

theorem tagsAreGrantedAndFreed : TagsAreGrantedAndFreed := by
  unfold TagsAreGrantedAndFreed
  refine ⟨fun x sp q parent opened hr => ⟨grant_live _ _ _ _, grant_free hr rfl parent opened⟩, ?_, ?_⟩
  · intro c k r g m s x hl hres hk hg hm
    exact ⟨fun t y => grantReq_grant, exec_tagAllocGrant_behind hk, exec_tagAllocGrant_waits hk hg hm,
      fun t y hfirst => exec_tagAllocGrant_grants hl hres hk hg hm hfirst⟩
  intro c g m s x v hl hres hg hp hm
  obtain ⟨hstale, hnest, hok⟩ := freeTag_cases x g.tag
  refine ⟨exec_freeComplete_waits hg, fun hu h hn => exec_freeComplete_traps hl hres hg hp hm hu (hnest h hn),
    fun hu h => exec_freeComplete_traps hl hres hg hp hm hu (hstale h), fun hu h hn =>
      ⟨_, exec_freeComplete_frees hl hres hg hp hm hu (hok h hn), ?_, fun hgate => ?_, fun hwf => ?_⟩⟩
  · unfold Ctx.afterFree
    split <;> rfl
  · simp only [Ctx.afterFree, hgate]
    rfl
  · have hslot := tagSlot_setSlot hwf g.tag v.freed
    have : ∀ y : Ctx, (y.afterFree m g.tag).tagSlot g.tag = y.tagSlot g.tag := fun y => by
      unfold Ctx.afterFree
      split <;> rfl
    rw [this, hslot]
    exact ⟨rfl, rfl⟩

/-- Settles O35, its two parts by the definitions of the three events and of the allocator. -/
theorem pointsAndTags : Obligations.PointsAndTags := ⟨sourcesIssueThePoints, tagsAreGrantedAndFreed⟩

end Sys2Proof.Machine
end

section
/-! SUPPORT. The end of a graph and the words that the device writes for it: what they leave of its context (R124, R310,
R324, R326). -/

namespace Sys2Proof.Machine

open Sys2Proof Sys2Proof.Claims

/-! ### The end of a graph -/

theorem dropApply_ctx {s : State} (h : s.ctxWf = true) (c : Nat) : (dropApply c s).ctx c = { s.ctx c with apply := none } := by
  unfold dropApply
  split
  next ha => rw [← ha]
  next a _ =>
    have hgov : ∀ (w : List Nat) (t : State), t.ctxs = s.ctxs → (w.foldl (fun s k =>
        let d := k % 16 % 8
        s.setGov d { s.gov d with queue := (s.gov d).queue.filter fun r => decide (r.2 ≠ .sorter c (k / 16) (k % 16)) })
        t).ctxs = s.ctxs := by
      intro w
      induction w with
      | nil => exact fun _ ht => ht
      | cons k w ih => exact fun t ht => ih _ ht
    have hc := hgov a.waits _ (returnLeave_frame a.leave s).2
    dsimp only
    rw [State.ctx_modCtx_same (by unfold State.ctxWf; rw [hc]; exact h)]
    unfold State.ctx
    rw [hc]

/-- What the end of a graph makes of its context, after its apply is given up (R310, R326). -/
theorem endGraph_eq (c kind code reason : Nat) (value report extra : Word) (s : State) : ∃ (u : State) (f : Ctx → Ctx),
    endGraph c kind code reason value report extra s = u.modCtx c f ∧ u.ctxs = (dropApply c s).ctxs ∧
      ∀ x, (f x).st = .retiring ∧ (f x).seq = { x.seq with phase := .stopped } ∧ ∃ t, (f x).ending = some t ∧
        t.kind = kind ∧ t.code = code ∧ t.reason = reason ∧ t.value = value ∧ t.report = report ∧ t.extra = extra := by
  unfold endGraph
  refine ⟨?u, ?f, ?eq, ?ctxs, ?fields⟩
  case eq => rfl
  case ctxs => rfl
  case fields => exact fun _ => ⟨rfl, rfl, _, rfl, rfl, rfl, rfl, rfl, rfl, rfl⟩

/-- A graph that ends leaves its context retiring, with a completion token (R310, R326). -/
theorem endGraph_ctx {s : State} (h : s.ctxWf = true) (c kind code reason : Nat) (value report extra : Word) :
    let y := (endGraph c kind code reason value report extra s).ctx c
    y.st = .retiring ∧ y.seq = { (s.ctx c).seq with phase := .stopped } ∧ ∃ t, y.ending = some t ∧ t.kind = kind ∧
      t.code = code ∧ t.reason = reason ∧ t.value = value ∧ t.report = report ∧ t.extra = extra := by
  obtain ⟨u, f, heq, hu, hf⟩ := endGraph_eq c kind code reason value report extra s
  have huc : u.ctx c = { s.ctx c with apply := none } := by rw [State.ctx, hu]; exact dropApply_ctx h c
  have huw : u.ctxWf = true := by rw [State.ctxWf, hu]; exact dropApply_ctxWf h c
  dsimp only
  rw [heq, State.ctx_modCtx_same huw, huc]
  exact hf _

/-- A trap of the graph as a whole, outside a handler (R95, R324). -/
theorem graphTrap_ctx {s : State} (h : s.ctxWf = true) {c : Nat} (hh : (s.seq c).h = false) (code reason : Nat)
    (value report extra : Word) :
    let y := (graphTrap c code reason value report extra s).ctx c
    y.st = .retiring ∧ y.seq.cause = causeWord code reason ∧ y.seq.epc = epcWord (s.seq c).addr ∧
      ∃ t, y.ending = some t ∧ t.kind = 2 ∧ t.code = code ∧ t.reason = reason ∧ t.extra = extra := by
  simp only [graphTrap, hh, Bool.false_eq_true, if_false]
  obtain ⟨hst, hseq, t, ht, hk, hc, hr, -, -, he⟩ := endGraph_ctx
    (State.ctxWf_modSeq h c fun q => q.trapped code reason (s.seq c).addr report) c 2 code reason value report extra
  rw [show (State.ctx _ c).seq = _ from State.seq_modSeq_same h c _] at hseq
  exact ⟨hst, by rw [hseq]; rfl, by rw [hseq]; rfl, t, ht, hk, hc, hr, he⟩

theorem graphTrap_hbm (c code reason : Nat) (value report extra : Word) (s : State) :
    (graphTrap c code reason value report extra s).hbm = s.hbm := by
  unfold graphTrap
  dsimp only
  split <;> exact (endGraph_stores _ _ _ _ _ _ _ _).2.1

/-! ### Words at virtual addresses -/

/-- The check of a window answers in the state that it is given. -/
theorem windowCheck_cases (die ia : Nat) (s : State) :
    (∃ k, windowCheck die ia s = .ok k s) ∨ ∃ b, windowCheck die ia s = .bad b s := by
  unfold windowCheck
  dsimp only
  split
  · exact .inr ⟨_, rfl⟩
  · split
    · exact .inl ⟨_, rfl⟩
    · exact .inr ⟨_, rfl⟩

theorem windowCheck_ok {die ia k : Nat} {s t : State} (h : windowCheck die ia s = .ok k t) : t = s := by
  rcases windowCheck_cases die ia s with ⟨_, hc⟩ | ⟨_, hc⟩ <;> cases hc.symm.trans h
  rfl

theorem windowCheck_not_stall {die ia : Nat} {s t : State} : windowCheck die ia s ≠ .stall t := by
  intro h
  rcases windowCheck_cases die ia s with ⟨_, hc⟩ | ⟨_, hc⟩ <;> cases hc.symm.trans h

theorem windowCheck_bad {die ia : Nat} {b : Bad} {s t : State} (h : windowCheck die ia s = .bad b t) : t = s := by
  rcases windowCheck_cases die ia s with ⟨_, hc⟩ | ⟨_, hc⟩ <;> cases hc.symm.trans h
  rfl

/-- A store posted for a unit changes its context only in the name that the next one takes. -/
theorem postNew_seq {s : State} (h : s.ctxWf = true) (c die ia : Nat) (bytes : List Byte) (src : Nat) :
    (postNew c die ia bytes src s).ctxWf = true ∧ (postNew c die ia bytes src s).seq c = s.seq c := by
  have hp : (postStore c die ia bytes (s.fab c).nextId none [] src s).ctxWf = true := h
  refine ⟨State.ctxWf_modFab hp c _, ?_⟩
  unfold postNew State.seq
  rw [State.modFab, State.ctx_modCtx_same hp]
  rfl

theorem pageLook_ctxs (ia : Nat) (wr : Bool) (s : State) : (pageLook ia wr s).2.ctxs = s.ctxs := by
  have h := congrArg (fun t : State => t.ctxs) (offHome_pageLook ia wr s)
  exact h

theorem pageLook_ctxs_of {ia : Nat} {wr : Bool} {s t : State} {r : WalkRes} (h : pageLook ia wr s = (r, t)) :
    t.ctxs = s.ctxs := by
  rw [← pageLook_ctxs ia wr s, h]

theorem hbmWrite_ctxs (a n v : Nat) (s : State) : (hbmWrite a n v s).s.ctxs = s.ctxs := by
  have h := congrArg (fun t : State => t.ctxs) (offHome_hbmWrite a n v s)
  exact h

theorem seq_of_ctxs {s t : State} (h : t.ctxs = s.ctxs) (hs : s.ctxWf = true) (c : Nat) :
    t.ctxWf = true ∧ t.seq c = s.seq c := by
  unfold State.ctxWf State.seq State.ctx
  rw [h]
  exact ⟨hs, rfl⟩

/-- The words that the device writes leave the sequencer alone, whether they reach their places or not. -/
theorem writeVaWords_seq {s : State} (h : s.ctxWf = true) (c va : Nat) (ws : List Word) :
    (writeVaWords c va ws s).1.ctxWf = true ∧ (writeVaWords c va ws s).1.seq c = s.seq c := by
  fun_induction writeVaWords c va ws s with
  | case1 => exact ⟨h, rfl⟩
  | case2 => exact ⟨h, rfl⟩
  | case3 va w t s ia _ _ _ u hu ih =>
    obtain rfl := windowCheck_ok hu
    obtain ⟨hw, hq⟩ := postNew_seq h c 0 ia (toBytes w.toNat 8) (srcDevice c)
    exact ⟨(ih hw).1, (ih hw).2.trans hq⟩
  | case4 va w t s ia _ _ u hu => exact absurd hu windowCheck_not_stall
  | case5 va w t s ia _ _ b u hu =>
    obtain rfl := windowCheck_bad hu
    exact ⟨h, rfl⟩
  | case6 va w t s ia _ _ e u hu r _ =>
    exact seq_of_ctxs ((hbmWrite_ctxs _ _ _ u).trans (pageLook_ctxs_of hu)) h c
  | case7 va w t s ia _ _ e u hu r _ ih =>
    obtain ⟨hw, hq⟩ := seq_of_ctxs ((hbmWrite_ctxs (e.paOf ia) 8 w.toNat u).trans (pageLook_ctxs_of hu)) h c
    exact ⟨(ih hw).1, (ih hw).2.trans hq⟩
  | case8 va w t s ia _ _ _ u _ hu => exact seq_of_ctxs (pageLook_ctxs_of hu) h c

/-- A store with words written at the places that `pa` gives, in order. -/
def wrScattered (m : SMap Byte) (pa : Nat → Nat) : List Word → SMap Byte
  | [] => m
  | w :: t => wrScattered (wrBytes m (pa 0) w.toNat 8) (fun i => pa (i + 1)) t

theorem smGet_wrScattered_outside (ws : List Word) {m : SMap Byte} (h : Memory.wf m = true) (pa : Nat → Nat) {q : Nat}
    (hq : ∀ i < ws.length, q < pa i ∨ pa i + 8 ≤ q) : smGet 0 (wrScattered m pa ws) q = smGet 0 m q := by
  induction ws generalizing m pa with
  | nil => rfl
  | cons w t ih =>
    rw [wrScattered, ih (wf_wrBytes 8 h _ _) _ fun i hi => hq (i + 1) (Nat.succ_lt_succ hi)]
    exact smGet_wrBytes_outside 8 h _ _ (hq 0 (Nat.succ_pos _))

theorem rdBytes_wrScattered_outside (ws : List Word) {m : SMap Byte} (h : Memory.wf m = true) (pa : Nat → Nat) {a : Nat}
    (ha : ∀ i < ws.length, a + 8 ≤ pa i ∨ pa i + 8 ≤ a) : rdBytes (wrScattered m pa ws) a 8 = rdBytes m a 8 := by
  induction ws generalizing m pa with
  | nil => rfl
  | cons w t ih =>
    rw [wrScattered, ih (wf_wrBytes 8 h _ _) _ fun i hi => ha (i + 1) (Nat.succ_lt_succ hi)]
    exact rdBytes_wrBytes_outside 8 8 h _ _ _ (ha 0 (Nat.succ_pos _))

/-- Words written apart read back. -/
theorem rdBytes_wrScattered (ws : List Word) {m : SMap Byte} (h : Memory.wf m = true) (pa : Nat → Nat)
    (hpa : ∀ i j, i < ws.length → j < ws.length → i ≠ j → pa i + 8 ≤ pa j ∨ pa j + 8 ≤ pa i) {i : Nat} {w : Word}
    (hw : ws[i]? = some w) : rdBytes (wrScattered m pa ws) (pa i) 8 = w.toNat := by
  induction ws generalizing m pa i with
  | nil => cases hw
  | cons v t ih =>
    cases i with
    | zero =>
      obtain rfl : v = w := by simpa using hw
      rw [wrScattered, rdBytes_wrScattered_outside t (wf_wrBytes 8 h _ _) _ fun j hj =>
        hpa 0 (j + 1) (Nat.succ_pos _) (Nat.succ_lt_succ hj) (by omega), rdBytes_wrBytes 8 h]
      exact Nat.mod_eq_of_lt v.isLt
    | succ i =>
      exact ih (wf_wrBytes 8 h _ _) (fun j => pa (j + 1))
        (fun j k hj hk hne => hpa (j + 1) (k + 1) (Nat.succ_lt_succ hj) (Nat.succ_lt_succ hk) (by omega)) hw

theorem pageLook_maps {s : State} {ia pa : Nat} {wr : Bool} (h : Maps s ia wr pa) :
    ∃ e, pageLook ia wr s = (.leaf e, s) ∧ e.paOf ia = pa := by
  obtain ⟨e, he, hw, hpa⟩ := h
  refine ⟨e, ?_, hpa⟩
  have hallow : (!wr || e.w) = true := by cases wr <;> simp_all
  simp only [pageLook, he, hallow, if_true]

theorem hbmWrite_clean {s : State} (h : s.hbmErr = []) (a n v : Nat) :
    hbmWrite a n v s = { s := { s with hbm := wrBytes s.hbm a v n }, val := 0, bad := none } := by
  have hc : eccWrite s.hbm s.hbmErr a n = { m := s.hbm, errs := s.hbmErr, fixed := [], bad := [] } := by rw [h]; rfl
  unfold hbmWrite
  rw [hc]
  rfl

/-- Words whose pages the TLB holds are all written, each at its place. -/
theorem writeVaWords_mapped (c va : Nat) (ws : List Word) {s : State} (herr : s.hbmErr = []) (ia pa : Nat → Nat)
    (h : ∀ i < ws.length, (s.ctx c).toIa false true (va + 8 * i) = .ok (ia i) ∧ inWindow (ia i) = false ∧
      Maps s (ia i) true (pa i)) :
    writeVaWords c va ws s = ({ s with hbm := wrScattered s.hbm pa ws }, true) := by
  induction ws generalizing va s ia pa with
  | nil => rfl
  | cons w t ih =>
    obtain ⟨hia, hwin, hmap⟩ := h 0 (Nat.succ_pos _)
    obtain ⟨e, hlook, hpa⟩ := pageLook_maps hmap
    have hrest := ih (va + 8) (s := { s with hbm := wrBytes s.hbm (pa 0) w.toNat 8 }) herr (fun i => ia (i + 1))
      (fun i => pa (i + 1)) fun i hi => by
        rw [show va + 8 + 8 * i = va + 8 * (i + 1) by omega]
        exact h (i + 1) (Nat.succ_lt_succ hi)
    simp only [Nat.mul_zero, Nat.add_zero] at hia
    simp only [writeVaWords, hia, hwin, Bool.false_eq_true, if_false, hlook, hpa, hbmWrite_clean herr, Option.isSome_none]
    exact hrest

/-! ### The words of a hang map -/

/-- The number of entries that the area of a hang map holds (R324). -/
def hangRoom (x : Ctx) (es : List HangEntry) : Nat := min es.length ((bits x.hang.toNat 63 52 * 4096 - 64) / 16)

theorem getElem?_flatMap_words {es : List HangEntry} {i : Nat} {e : HangEntry} (he : es[i]? = some e) :
    (es.flatMap (·.words))[2 * i]? = e.words[0]? ∧ (es.flatMap (·.words))[2 * i + 1]? = e.words[1]? := by
  induction es generalizing i with
  | nil => cases he
  | cons a t ih =>
    cases i with
    | zero =>
      obtain rfl : a = e := by simpa using he
      exact ⟨rfl, rfl⟩
    | succ i => exact ih he

theorem length_hangWords (x : Ctx) (es : List HangEntry) : (hangWords x es).length = 8 + 2 * hangRoom x es := by
  have hflat : ∀ l : List HangEntry, (l.flatMap (·.words)).length = 2 * l.length := by
    intro l
    induction l with
    | nil => rfl
    | cons a t ih =>
      rw [List.flatMap_cons, List.length_append, ih, List.length_cons]
      show 2 + _ = _
      omega
  have hn : hangRoom x es ≤ es.length := Nat.min_le_left _ _
  show ([_, _, _, _, _, _, _, _] ++ (es.take (hangRoom x es)).flatMap HangEntry.words).length = _
  rw [List.length_append, hflat, List.length_take, Nat.min_eq_left hn]
  rfl

/-- The header of a hang map: the entries found and written, the region's first cluster and size, and zeros. -/
theorem hangWords_header (x : Ctx) (es : List HangEntry) :
    (hangWords x es)[0]? = some (BitVec.ofNat 64 (es.length + hangRoom x es * 2 ^ 32)) ∧
      (hangWords x es)[1]? = some (BitVec.ofNat 64 (x.first + x.lsize * 2 ^ 8)) ∧
      ∀ i, 2 ≤ i → i < 8 → (hangWords x es)[i]? = some 0 := by
  refine ⟨rfl, rfl, fun i h2 h8 => ?_⟩
  interval_cases i <;> rfl

/-- The two words of an entry that the area holds. -/
theorem hangWords_entry {x : Ctx} {es : List HangEntry} {i : Nat} {e : HangEntry} (hi : i < hangRoom x es)
    (he : es[i]? = some e) :
    (hangWords x es)[8 + 2 * i]? = e.words[0]? ∧ (hangWords x es)[9 + 2 * i]? = e.words[1]? := by
  have ht : (es.take (hangRoom x es))[i]? = some e := by rw [List.getElem?_take_of_lt hi, he]
  obtain ⟨h0, h1⟩ := getElem?_flatMap_words ht
  have hshift : ∀ k, (hangWords x es)[8 + k]? = ((es.take (hangRoom x es)).flatMap (·.words))[k]? := by
    intro k
    rw [Nat.add_comm]
    rfl
  exact ⟨(hshift _).trans h0, by rw [show 9 + 2 * i = 8 + (2 * i + 1) by omega]; exact (hshift _).trans h1⟩

/-! ### The watchdog -/

theorem exec_watchdogTrip (c : CtxId) (s : State) : exec (.watchdogTrip c) s = execWatchdogTrip c s := rfl

/-- The state in which the watchdog ends the graph: where ctx.hang names a page, with the hang map written. -/
def hangWritten (c : Nat) (s : State) : State :=
  let x := s.ctx c
  if bits x.hang.toNat 63 52 = 0 then s
  else (writeVaWords c (bits x.hang.toNat 47 12 * 2 ^ 12) (hangWords x (hangEntries s x)) s).1.modCtx c
    fun x => x.count statHang 1

theorem watchdog_early {c : CtxId} {s : State} (h : (s.fab c.val).idle < 2 ^ 24) :
    exec (.watchdogTrip c) s = .next s := by
  have hi : (s.ctx c.val).fab.idle < watchdogCycles := h
  simp [exec_watchdogTrip, execWatchdogTrip, hi]

theorem watchdog_trip {c : CtxId} {s : State} (hlive : (s.ctx c.val).live = true) (h : 2 ^ 24 ≤ (s.fab c.val).idle) :
    exec (.watchdogTrip c) s = .next (graphTrap c.val 0x0801 0 0 0
      (BitVec.ofNat 64 (bits (s.ctx c.val).hang.toNat 47 12 * 2 ^ 12)) (hangWritten c.val s)) := by
  have hi : ¬ (s.ctx c.val).fab.idle < watchdogCycles := Nat.not_lt.2 h
  simp only [exec_watchdogTrip, execWatchdogTrip, hlive, hi, Bool.not_true, decide_false, Bool.or_false,
    Bool.false_eq_true, if_false]
  rfl

theorem hangWritten_seq {s : State} (h : s.ctxWf = true) (c : Nat) :
    (hangWritten c s).ctxWf = true ∧ (hangWritten c s).seq c = s.seq c := by
  unfold hangWritten
  dsimp only
  split
  · exact ⟨h, rfl⟩
  · obtain ⟨hw, hq⟩ := writeVaWords_seq h c (bits (s.ctx c).hang.toNat 47 12 * 2 ^ 12)
      (hangWords (s.ctx c) (hangEntries s (s.ctx c)))
    refine ⟨State.ctxWf_modCtx hw c _, ?_⟩
    rw [← hq, State.seq, State.ctx_modCtx_same hw]
    rfl

/-- A hang map whose words' pages the TLB holds is written whole. -/
theorem hangWritten_hbm {s : State} {c : Nat} (ia pa : Nat → Nat) (hpage : bits (s.ctx c).hang.toNat 63 52 ≠ 0)
    (herr : s.hbmErr = [])
    (h : ∀ i < 8 + 2 * hangRoom (s.ctx c) (hangEntries s (s.ctx c)),
      (s.ctx c).toIa false true (bits (s.ctx c).hang.toNat 47 12 * 2 ^ 12 + 8 * i) = .ok (ia i) ∧
        inWindow (ia i) = false ∧ Maps s (ia i) true (pa i)) :
    (hangWritten c s).hbm = wrScattered s.hbm pa (hangWords (s.ctx c) (hangEntries s (s.ctx c))) := by
  unfold hangWritten
  dsimp only
  rw [if_neg hpage, State.modCtx_hbm,
    writeVaWords_mapped c _ _ herr ia pa fun i hi => h i (by rwa [length_hangWords] at hi)]

theorem toNat_regionWord {first lsize : Nat} (hf : first < 64) (hl : lsize < 7) :
    (BitVec.ofNat 64 (first + lsize * 2 ^ 8)).toNat = first + lsize * 2 ^ 8 := by
  rw [BitVec.toNat_ofNat]
  exact Nat.mod_eq_of_lt (by omega)

theorem toNat_sourceWord (tag : Tag) (source : Nat) :
    (BitVec.ofNat 64 (tag.toNat + source % 2 ^ 32 * 2 ^ 32)).toNat = tag.toNat + source % 2 ^ 32 * 2 ^ 32 := by
  rw [BitVec.toNat_ofNat]
  exact Nat.mod_eq_of_lt (by have := tag.isLt; omega)

/-- What a hang map reads as, once its words stand at their places. -/
theorem hangMap_reads {x : Ctx} {es : List HangEntry} {m : SMap Byte} (hm : Memory.wf m = true) {pa : Nat → Nat}
    (hpa : ∀ i j, i < 8 + 2 * hangRoom x es → j < 8 + 2 * hangRoom x es → i ≠ j →
      pa i + 8 ≤ pa j ∨ pa j + 8 ≤ pa i) :
    let w := fun i => rdBytes (wrScattered m pa (hangWords x es)) (pa i) 8
    w 0 = (es.length + hangRoom x es * 2 ^ 32) % 2 ^ 64 ∧
      (x.first < 64 → x.lsize < 7 → w 1 = x.first + x.lsize * 2 ^ 8) ∧ (∀ i, 2 ≤ i → i < 8 → w i = 0) ∧
      ∀ i e, i < hangRoom x es → es[i]? = some e → w (8 + 2 * i) =
          (e.kind + e.port * 2 ^ 8 + e.node * 2 ^ 16 + e.plane * 2 ^ 24 + (e.cl * 64 + e.pe) * 2 ^ 32) % 2 ^ 64 ∧
        w (9 + 2 * i) = e.tag.toNat + e.source % 2 ^ 32 * 2 ^ 32 := by
  intro w
  have hw : ∀ i v, (hangWords x es)[i]? = some v → w i = v.toNat := fun i v hv =>
    rdBytes_wrScattered _ hm pa (by rwa [length_hangWords]) hv
  obtain ⟨h0, h1, h2⟩ := hangWords_header x es
  refine ⟨?_, fun hf hl => ?_, fun i hi hi8 => hw i 0 (h2 i hi hi8), fun i e hi he => ?_⟩
  · rw [hw 0 _ h0, BitVec.toNat_ofNat]
  · rw [hw 1 _ h1, toNat_regionWord hf hl]
  · obtain ⟨ha, hb⟩ := hangWords_entry hi he
    rw [hw _ _ ha, hw _ _ hb, toNat_sourceWord, BitVec.toNat_ofNat]
    exact ⟨rfl, rfl⟩

theorem watchdogRetiresTheGraph : WatchdogRetiresTheGraph := by
  intro c s hwf hlive
  refine ⟨watchdog_early, fun hidle hh => ⟨fun hnone => ?_, fun ia pa hpage herr hm => ?_, ?_⟩⟩
  · rw [watchdog_trip hlive hidle]
    unfold hangWritten
    rw [if_pos hnone]
  · intro x es n hplace hapart
    have hhbm := hangWritten_hbm ia pa hpage herr hplace
    refine ⟨_, watchdog_trip hlive hidle, ?_⟩
    rw [graphTrap_hbm, hhbm]
    exact ⟨hangMap_reads hm hapart, fun q hq =>
      smGet_wrScattered_outside _ hm pa (by rw [length_hangWords]; exact hq)⟩
  · obtain ⟨hw, hq⟩ := hangWritten_seq hwf c.val
    obtain ⟨hst, hcause, hepc, t, ht, hkind, hcode, hreason, hextra⟩ := graphTrap_ctx hw (by rw [hq]; exact hh) 0x0801 0 0 0
      (BitVec.ofNat 64 (bits (s.ctx c.val).hang.toNat 47 12 * 2 ^ 12))
    rw [hq] at hepc
    exact ⟨_, t, watchdog_trip hlive hidle, hst, ht, hcause, hepc, hkind, hcode, hreason, hextra⟩

/-! ### Barrier phases -/

theorem exec_barrierArrivalRecord (c : CtxId) (k : Nat) (s : State) :
    exec (.barrierArrivalRecord c k) s = execBarrierArrivalRecord c k s := rfl

theorem exec_phaseCompletion (c : CtxId) (k : Nat) (s : State) : exec (.phaseCompletion c k) s = execPhaseCompletion c k s := rfl

/-- The participants of a barrier that have arrived, with one more. -/
def BarInst.arrivedWith (b : BarInst) (a : Nat) : List Nat := if b.arrived.contains a then b.arrived else b.arrived ++ [a]

theorem mem_arrivedWith {b : BarInst} {a k : Nat} : k ∈ b.arrivedWith a ↔ k = a ∨ k ∈ b.arrived := by
  unfold BarInst.arrivedWith
  split
  next h =>
    have ha : a ∈ b.arrived := List.contains_iff_mem.1 h
    exact ⟨Or.inr, fun hk => hk.elim (fun heq => heq ▸ ha) id⟩
  next => rw [List.mem_append, List.mem_singleton, or_comm]

/-- The arrival of a participant that leaves none out: the phase completes (R257). -/
theorem recordArrival_last {m : ArriveMsg} {f : Fabric}
    (h : ∀ a ∈ (f.bar m.inst).parts, a = m.agent ∨ a ∈ (f.bar m.inst).arrived) :
    recordArrival m f = { f with
      bars := smSet BarInst.none f.bars m.inst { f.bar m.inst with phase := (f.bar m.inst).phase + 1, arrived := [] },
      phases := f.phases ++ (((f.bar m.inst).parts.map agentCl).dedup.map fun cl =>
        { inst := m.inst, cl := cl, phase := (f.bar m.inst).phase + 1 }) } := by
  have hall : (f.bar m.inst).parts.all (fun a => ((f.bar m.inst).arrivedWith m.agent).contains a) = true :=
    List.all_eq_true.2 fun a ha => List.contains_iff_mem.2 (mem_arrivedWith.2 (h a ha))
  exact if_pos hall

/-- An arrival before the last is noted (R257). -/
theorem recordArrival_early {m : ArriveMsg} {f : Fabric}
    (h : ¬ ∀ a ∈ (f.bar m.inst).parts, a = m.agent ∨ a ∈ (f.bar m.inst).arrived) :
    recordArrival m f = { f with
      bars := smSet BarInst.none f.bars m.inst { f.bar m.inst with arrived := (f.bar m.inst).arrivedWith m.agent } } := by
  have hall : ¬ (f.bar m.inst).parts.all (fun a => ((f.bar m.inst).arrivedWith m.agent).contains a) = true := fun hc =>
    h fun a ha => mem_arrivedWith.1 (List.contains_iff_mem.1 (List.all_eq_true.1 hc a ha))
  exact if_neg hall

/-- What the record of an arrival leaves of the region's barrier state. -/
theorem recordArrival_keeps (m : ArriveMsg) (f : Fabric) :
    (recordArrival m f).arrives = f.arrives ∧ (recordArrival m f).joined = f.joined ∧ (recordArrival m f).seen = f.seen := by
  by_cases h : ∀ a ∈ (f.bar m.inst).parts, a = m.agent ∨ a ∈ (f.bar m.inst).arrived
  · rw [recordArrival_last h]
    exact ⟨rfl, rfl, rfl⟩
  · rw [recordArrival_early h]
    exact ⟨rfl, rfl, rfl⟩

theorem BarInst.ne_none_of_arrived {b : BarInst} {a : Nat} (h : a ∈ b.arrived) : b ≠ BarInst.none := by
  rintro rfl
  exact absurd h List.not_mem_nil

/-- The phase that the last arrival completes: its barrier has the next one in progress, and a message goes to each cluster
that holds a participant. -/
theorem recordArrival_completes {m : ArriveMsg} {f : Fabric} (hp : (f.bar m.inst).parts ≠ [])
    (h : ∀ a ∈ (f.bar m.inst).parts, a = m.agent ∨ a ∈ (f.bar m.inst).arrived) :
    ((recordArrival m f).bar m.inst).phase = (f.bar m.inst).phase + 1 ∧ ((recordArrival m f).bar m.inst).arrived = [] ∧
      ∀ a ∈ (f.bar m.inst).parts,
        ({ inst := m.inst, cl := agentCl a, phase := (f.bar m.inst).phase + 1 } : PhaseMsg) ∈ (recordArrival m f).phases := by
  have hbar : (recordArrival m f).bar m.inst = { f.bar m.inst with phase := (f.bar m.inst).phase + 1, arrived := [] } := by
    rw [recordArrival_last h]
    exact smGet_smSet_of_ne_default _ fun h0 => hp (congrArg BarInst.parts h0)
  rw [hbar, recordArrival_last h]
  exact ⟨rfl, rfl, fun a ha => List.mem_append_right _
    (List.mem_map.2 ⟨agentCl a, List.mem_dedup.2 (List.mem_map_of_mem ha), rfl⟩)⟩

theorem recordArrival_notes {m : ArriveMsg} {f : Fabric}
    (h : ¬ ∀ a ∈ (f.bar m.inst).parts, a = m.agent ∨ a ∈ (f.bar m.inst).arrived) :
    ((recordArrival m f).bar m.inst).phase = (f.bar m.inst).phase ∧ m.agent ∈ ((recordArrival m f).bar m.inst).arrived ∧
      (recordArrival m f).phases = f.phases := by
  have hin : m.agent ∈ (f.bar m.inst).arrivedWith m.agent := mem_arrivedWith.2 (.inl rfl)
  have hbar : (recordArrival m f).bar m.inst = { f.bar m.inst with arrived := (f.bar m.inst).arrivedWith m.agent } := by
    rw [recordArrival_early h]
    exact smGet_smSet_of_ne_default _ (BarInst.ne_none_of_arrived hin)
  rw [hbar, recordArrival_early h]
  exact ⟨rfl, hin, rfl⟩

theorem barrierPhasesComplete : BarrierPhasesComplete := by
  refine ⟨fun c k m s hwf hlive hm => ?_, fun c k m s hwf hlive hm hseen => ?_⟩
  · intro f b last
    have hexec : exec (.barrierArrivalRecord c k) s = if s.depsDone c.val m.deps = true then
        .next (s.modFab c.val fun f => recordArrival m { f with arrives := f.arrives.eraseIdx k }) else .next s := by
      simp only [exec_barrierArrivalRecord, execBarrierArrivalRecord, hm, hlive, Bool.true_and]
    refine ⟨fun hdeps => ?_, fun hdeps => ?_⟩
    · rw [hexec, hdeps]
      rfl
    · rw [hexec, if_pos hdeps]
      refine ⟨_, rfl, ?_⟩
      rw [State.fab_modFab_same hwf]
      obtain ⟨harr, hjoin, hseen⟩ := recordArrival_keeps m { f with arrives := f.arrives.eraseIdx k }
      exact ⟨harr, hjoin, hseen, rfl, fun hp hl => recordArrival_completes hp hl, fun hl => recordArrival_notes hl⟩
  · have hexec : exec (.phaseCompletion c k) s = .next (s.modFab c.val fun f =>
        { f with phases := f.phases.eraseIdx k,
                 seen := smSet 0 f.seen (m.cl * 2 ^ 21 + m.inst) (max (smGet 0 f.seen (m.cl * 2 ^ 21 + m.inst)) m.phase) }) := by
      simp only [exec_phaseCompletion, execPhaseCompletion, hm, hlive, if_true]
    refine ⟨_, hexec, ?_⟩
    rw [State.fab_modFab_same hwf]
    refine ⟨rfl, rfl, fun i => ?_⟩
    split
    next hi => rw [hi]; exact smGet_smSet_same hseen _ _
    next hi => exact smGet_smSet_ne hseen _ hi

/-! ### The order of a hang map -/

theorem lexLe_iff (a b : List Nat) : lexLe a b = true ↔ ¬ b < a := by
  fun_induction lexLe a b with
  | case1 b => simp
  | case2 => simp
  | case3 a s b t hab => simp [List.cons_lt_cons_iff]; omega
  | case4 a s b t hab hba => simp [List.cons_lt_cons_iff, hba]
  | case5 a s b t hab hba ih =>
    obtain rfl : a = b := by omega
    simp [ih]

/-- The fields by which a hang map is ordered (R324). -/
def HangEntry.key (e : HangEntry) : List Nat := [e.cl, e.pe, e.plane, e.node, e.port]

theorem HangEntry.le_iff (a b : HangEntry) : a.le b = true ↔ ¬ b.key < a.key := lexLe_iff a.key b.key

theorem hangEntries_sorted (s : State) (x : Ctx) : (hangEntries s x).Pairwise fun a b => ¬ b.key < a.key := by
  have hs : (hangEntries s x).Pairwise fun a b => a.le b = true :=
    List.pairwise_mergeSort
      (fun a b c hab hbc => by
        rw [HangEntry.le_iff, not_lt] at hab hbc ⊢
        exact hab.trans hbc)
      (fun a b => by
        rw [Bool.or_eq_true, HangEntry.le_iff, HangEntry.le_iff, not_lt, not_lt]
        exact le_total _ _) _
  exact hs.imp fun {a b} h => (HangEntry.le_iff a b).1 h

theorem mem_hangEntries {s : State} {x : Ctx} {e : HangEntry} : e ∈ hangEntries s x ↔
    e ∈ hangPorts s x ∨ (∃ g ∈ x.fab.firings, e ∈ hangFiring s x g) ∨ e ∈ hangSources s x ∨ e ∈ hangSpills s x ∨
      e ∈ hangSeq s x := by
  unfold hangEntries
  simp only [List.mem_mergeSort, List.mem_append, List.mem_flatMap, or_assoc]

/-! ### The entries of a hang map, by their sources -/

section
variable {s : State} {x : Ctx}

theorem hangPorts_names {w : Waiting} {m : NodeImg} {p : Nat} (hw : w ∈ x.fab.waiting)
    (hm : s.nodeImg x w.tok.dest = some m) (hp : p ∈ m.portList)
    (hfree : ∀ v ∈ x.fab.waiting, v.tok.dest = w.tok.dest → v.tok.tag = w.tok.tag → v.tok.port ≠ p) :
    hangAt 1 p w.tok.dest w.tok.tag
      ((((s.feeds x).find? fun e => decide (e.2 = (w.tok.dest, p))).map fun e => e.1.peer).getD 0) ∈ hangPorts s x := by
  have hopen : (x.fab.frame w.tok.dest w.tok.tag).all (fun v => decide (v.tok.port ≠ p)) = true := by
    rw [List.all_eq_true]
    intro v hv
    obtain ⟨hv, hfr⟩ := List.mem_filter.1 hv
    obtain ⟨hd, ht⟩ := of_decide_eq_true hfr
    exact decide_eq_true (hfree v hv hd ht)
  refine List.mem_flatMap.2 ⟨(w.tok.dest, w.tok.tag), List.mem_dedup.2 (List.mem_map.2 ⟨w, hw, rfl⟩), ?_⟩
  simp only [hm]
  exact List.mem_map.2 ⟨p, List.mem_filter.2 ⟨hp, hopen⟩, rfl⟩

theorem hangSources_names {p : Period} {r : NodeRef} {m : NodeImg} (hp : x.fab.period = some p) (hr : r ∈ s.sources x)
    (hm : s.nodeImg x r = some m) (hd : x.fab.draining = false) (hleft : smGet 0 x.fab.cursors r.key < p.points)
    (hslot : x.grant m.head.space 0 0 false none none = none) :
    hangAt 2 0xFF r (mkTag (x.space m.head.space).home m.head.space (x.nextSlot m.head.space 0)
      (x.slot m.head.space (x.nextSlot m.head.space 0)).gen) 0 ∈ hangSources s x := by
  unfold hangSources
  simp only [hp]
  refine List.mem_flatMap.2 ⟨r, hr, ?_⟩
  have hopen : ¬ (x.fab.draining = true ∨ p.points ≤ smGet 0 x.fab.cursors r.key) := by
    rw [hd]
    exact fun h => h.elim nofun (Nat.not_le.2 hleft)
  simp only [hm]
  rw [if_neg hopen, hslot]
  exact List.mem_singleton_self _

theorem hangSpills_names {t : Tok} (ht : t ∈ x.fab.chan) (hk : t.kind ≠ .marker) (hp : s.waitPlace x t = none) :
    hangAt 8 t.port t.dest t.tag 0 ∈ hangSpills s x := by
  refine List.mem_filterMap.2 ⟨t, ht, ?_⟩
  simp [hk, hp]

theorem hangSeq_names (h : x.seq.phase ≠ .stopped) :
    hangAt 9 0xFF { cl := 0, plane := 0, pe := 0, slot := waitReg s x } 0 0 ∈ hangSeq s x := by
  unfold hangSeq
  rw [if_neg h]
  exact List.mem_singleton_self _

theorem hangFiring_alloc {g : Firing} {q : AllocReq} (hg : g.phase = .waitAlloc)
    (hq : (x.fab.allocs.find? fun q => q.firing == g.id) = some q) :
    hangAt 2 0xFF g.ref (mkTag (x.space q.space).home q.space (x.nextSlot q.space q.ring)
      (x.slot q.space (x.nextSlot q.space q.ring)).gen) 0 ∈ hangFiring s x g := by
  simp [hangFiring, hg, hq]

theorem hangFiring_queue {g : Firing} {m : NodeImg} {outs : List Emission} {t : Tok} (hg : g.phase = .emit outs)
    (hm : s.nodeImg x g.ref = some m) (ht : t ∈ outs.flatMap (s.toks x g.ref m)) (hr : hasRoom x.fab.chan t = false) :
    hangAt 6 t.port g.ref t.tag t.dest.peer ∈ hangFiring s x g := by
  unfold hangFiring
  simp only [hg, hm]
  exact List.mem_map.2 ⟨t, List.mem_filter.2 ⟨ht, by rw [hr]; rfl⟩, rfl⟩

theorem hangFiring_arrive {g : Firing} {m : NodeImg} {b : Fin 128} (hg : g.phase = .waitFence [])
    (hm : s.nodeImg x g.ref = some m) (hb : m.last = some (.arriveNode b)) :
    hangAt 4 0xFF g.ref g.tag b.val ∈ hangFiring s x g := by
  simp [hangFiring, hg, hm, hb]

/-- The port that an entry gives for an operand: 0xFF where it is none. -/
def hangPortOf (a : Sel) : Nat :=
  match a with
  | .port p => p.val
  | _ => 0xFF

theorem hangFiring_ordinal {g : Firing} {m : NodeImg} {t : IntTy} {a : Sel} {o : RedOp} {sat : Bool}
    (hg : g.phase = .waitFence []) (hm : s.nodeImg x g.ref = some m) (hl : m.last = some (.rdcInteger t a o sat)) :
    hangAt 5 (hangPortOf a) g.ref g.tag ((rdcFind s x g).next.getD 0) ∈ hangFiring s x g := by
  unfold hangFiring
  simp only [hg, hm, Option.bind_some, hl]
  exact List.mem_singleton_self _

theorem kind_of_hangPorts {e : HangEntry} (h : e ∈ hangPorts s x) : e.kind = 1 := by
  obtain ⟨d, -, h⟩ := List.mem_flatMap.1 h
  split at h
  · cases h
  · obtain ⟨p, -, rfl⟩ := List.mem_map.1 h
    rfl

theorem kind_of_hangFiring {g : Firing} {e : HangEntry} (h : e ∈ hangFiring s x g) : 2 ≤ e.kind ∧ e.kind ≤ 7 := by
  have hone : ∀ {k port src : Nat} {r : NodeRef} {t : Tag}, 2 ≤ k → k ≤ 7 → e ∈ [hangAt k port r t src] →
      2 ≤ e.kind ∧ e.kind ≤ 7 := by
    intro k port src r t h2 h7 he
    rw [List.mem_singleton.1 he]
    exact ⟨h2, h7⟩
  unfold hangFiring at h
  split at h
  · split at h
    · exact hone (by decide) (by decide) h
    · cases h
  · exact hone (by decide) (by decide) h
  · exact hone (by decide) (by decide) h
  · exact hone (by decide) (by decide) h
  · split at h
    · exact hone (by decide) (by decide) h
    · exact hone (by decide) (by decide) h
    · exact hone (by decide) (by decide) h
    · cases h
  · split at h
    · obtain ⟨t, -, rfl⟩ := List.mem_map.1 h
      exact ⟨(by decide : 2 ≤ 6), (by decide : 6 ≤ 7)⟩
    · cases h
  · cases h

theorem kind_of_hangSources {e : HangEntry} (h : e ∈ hangSources s x) : e.kind = 2 ∨ e.kind = 6 := by
  unfold hangSources at h
  split at h
  · cases h
  · obtain ⟨r, -, h⟩ := List.mem_flatMap.1 h
    split at h
    · cases h
    · dsimp only at h
      split at h
      · cases h
      · split at h
        · rw [List.mem_singleton.1 h]
          exact .inl rfl
        · split at h
          · cases h
          · rw [List.mem_singleton.1 h]
            exact .inr rfl

theorem kind_of_hangSpills {e : HangEntry} (h : e ∈ hangSpills s x) : e.kind = 8 := by
  obtain ⟨t, -, h⟩ := List.mem_filterMap.1 h
  split at h
  · cases h
    rfl
  · cases h

theorem kind_of_hangSeq {e : HangEntry} (h : e ∈ hangSeq s x) : e.kind = 9 := by
  unfold hangSeq at h
  split at h
  · cases h
  · rw [List.mem_singleton.1 h]

theorem kind_of_hangEntries {e : HangEntry} (h : e ∈ hangEntries s x) : 1 ≤ e.kind ∧ e.kind ≤ 9 := by
  rcases mem_hangEntries.1 h with h | ⟨g, -, h⟩ | h | h | h
  · have := kind_of_hangPorts h; omega
  · have := kind_of_hangFiring h; omega
  · have := kind_of_hangSources h; omega
  · have := kind_of_hangSpills h; omega
  · have := kind_of_hangSeq h; omega

end

theorem hangMapNamesTheWaits : HangMapNamesTheWaits := by
  intro s x es f key names
  have firing : ∀ {g e}, g ∈ f.firings → e ∈ hangFiring s x g → e ∈ es := fun hg he =>
    mem_hangEntries.2 (.inr (.inl ⟨_, hg, he⟩))
  refine ⟨hangEntries_sorted s x,
    fun w m p hw hm hp hfree => ⟨_, mem_hangEntries.2 (.inl (hangPorts_names hw hm hp hfree)), fun r hr => by rw [hr]; rfl⟩,
    fun g q hg hph hq => firing hg (hangFiring_alloc hph hq), fun g hg => ⟨?_, ?_, ?_, ?_, ?_⟩,
    fun p r m hp hr hm hd hleft hslot => mem_hangEntries.2 (.inr (.inr (.inl (hangSources_names hp hr hm hd hleft hslot)))),
    fun t ht hk hp => mem_hangEntries.2 (.inr (.inr (.inr (.inl (hangSpills_names ht hk hp))))),
    fun hseq => mem_hangEntries.2 (.inr (.inr (.inr (.inr (hangSeq_names hseq))))), fun e he => kind_of_hangEntries he⟩
  · exact fun hph => firing hg (by simp [hangFiring, hph, hangAt])
  · exact fun hph => firing hg (by simp [hangFiring, hph, hangAt])
  · exact fun i n hph => firing hg (by simp [hangFiring, hph, hangAt])
  · exact fun m outs hph hm t ht hr => firing hg (hangFiring_queue hph hm ht hr)
  · exact fun m hph hm => ⟨fun b hb => firing hg (hangFiring_arrive hph hm hb),
      fun t a o sat hl => firing hg (hangFiring_ordinal hph hm hl)⟩

/-- Settles O37, from what the end of a graph leaves, the words of its hang map, and the record of an arrival. -/
theorem watchdogAndBarrierPhases : Obligations.WatchdogAndBarrierPhases :=
  ⟨watchdogRetiresTheGraph, hangMapNamesTheWaits, barrierPhasesComplete⟩

end Sys2Proof.Machine
end

section
/-! SUPPORT. A token at its node: the frame that it meets, and what it makes of it (R17, R25 to R28). -/

namespace Sys2Proof.Machine

open Sys2Proof Sys2Proof.Claims

theorem exec_tokenMatch (c : CtxId) (k : Nat) (s : State) : exec (.tokenMatch c k) s = execTokenMatch c k s := rfl

theorem frozen_of_not_draining {s : State} {x : Ctx} (h : x.fab.draining = false) (r : NodeRef) : s.frozen x r = false := by
  simp [State.frozen, h]

/-! ### The frame of a token -/

/-- A waiting operand of the frame has come on the port. -/
def heldPort (f : Fabric) (t : Tok) (p : Nat) : Prop := ∃ w ∈ f.frame t.dest t.tag, w.tok.port = p

/-- The token is the last operand of its frame. -/
def completes (f : Fabric) (t : Tok) (m : NodeImg) : Prop := ∀ p ∈ m.portList, p = t.port ∨ heldPort f t p

/-- The accesses to the records of a frame in the global overflow area. -/
def reachFrame (c : Nat) (t : Tok) (s : State) : XRes :=
  reachAreas c ((((s.fab c).frame t.dest t.tag).filter fun w => decide (w.place = .area)).map (s.fab c).inArea.idxOf) s

/-- The access to the record that the next operand takes in the global overflow area. -/
def reachNew (c : Nat) (s : State) : XRes := reachArea c true (s.fab c).inArea.length s

theorem any_port_iff {f : Fabric} {t : Tok} {p : Nat} :
    ((f.frame t.dest t.tag).any fun w => decide (w.tok.port = p)) = true ↔ heldPort f t p := by
  simp only [List.any_eq_true, decide_eq_true_eq, heldPort]

theorem all_ports_iff {f : Fabric} {t : Tok} {m : NodeImg} : (m.portList.all fun p => decide (p = t.port) ||
    (f.frame t.dest t.tag).any fun w => decide (w.tok.port = p)) = true ↔ completes f t m := by
  simp only [List.all_eq_true, Bool.or_eq_true, decide_eq_true_eq, any_port_iff, completes]

section
variable {c k : Nat} {t : Tok} {m : NodeImg} {s : State}

theorem matchFrame_merge (h : m.head.rule = .merge) :
    matchFrame c k t m s = .next (fire c t.dest t.tag t.mask [t] (dropTok c k s)) := if_pos h

theorem matchFrame_held (hr : m.head.rule ≠ .merge) (h : heldPort (s.fab c) t t.port) :
    matchFrame c k t m s = .next (nodeTrap c 0x0103 0 (nodeTagReport m.emit.node t.tag) s) :=
  (if_neg hr).trans (if_pos (any_port_iff.2 h))

theorem matchFrame_completes (hr : m.head.rule ≠ .merge) (h : ¬ heldPort (s.fab c) t t.port) (hf : completes (s.fab c) t m) :
    matchFrame c k t m s = match reachFrame c t s with
      | .stall s => .next s
      | .bad b s => .next (nodeTrap c b.code 0 (BitVec.ofNat 64 b.report) s)
      | .ok _ u => match ((s.fab c).frame t.dest t.tag).find? fun w => decide (2 ≤ popWord (BitVec.ofNat 64 w.err)) with
        | some w => .next (nodeTrap c w.place.trap 0
            (Config.eccReport w.place.trap [(s.ctx c).first + t.dest.cl, t.dest.pe, (s.fab c).waiting.idxOf w])
            (u.countOperands (s.ctx c) ((s.fab c).frame t.dest t.tag)))
        | none => .next (fireFrame c k t m ((s.fab c).frame t.dest t.tag) u) :=
  (if_neg hr).trans ((if_neg (mt any_port_iff.1 h)).trans (if_pos (all_ports_iff.2 hf)))

theorem matchFrame_uncorrectable {u : State} {v : Nat} {w : Waiting} (hr : m.head.rule ≠ .merge)
    (h : ¬ heldPort (s.fab c) t t.port) (hf : completes (s.fab c) t m) (hu : reachFrame c t s = .ok v u)
    (hw : (((s.fab c).frame t.dest t.tag).find? fun w => decide (2 ≤ popWord (BitVec.ofNat 64 w.err))) = some w) :
    ∃ report u', matchFrame c k t m s = .next (nodeTrap c w.place.trap 0 report u') := by
  rw [matchFrame_completes hr h hf, hu]
  dsimp only
  rw [hw]
  exact ⟨_, _, rfl⟩

theorem matchFrame_fires {u : State} {v : Nat} (hr : m.head.rule ≠ .merge) (h : ¬ heldPort (s.fab c) t t.port)
    (hf : completes (s.fab c) t m) (hu : reachFrame c t s = .ok v u)
    (hw : (((s.fab c).frame t.dest t.tag).find? fun w => decide (2 ≤ popWord (BitVec.ofNat 64 w.err))) = none) :
    matchFrame c k t m s = .next (fireFrame c k t m ((s.fab c).frame t.dest t.tag) u) := by
  rw [matchFrame_completes hr h hf, hu]
  dsimp only
  rw [hw]

theorem matchFrame_waits (hr : m.head.rule ≠ .merge) (h : ¬ heldPort (s.fab c) t t.port) (hf : ¬ completes (s.fab c) t m) :
    matchFrame c k t m s = match s.waitPlace (s.ctx c) t with
      | none => .next s
      | some .area => match reachNew c s with
        | .stall s => .next s
        | .bad b s => .next (nodeTrap c b.code 0 (BitVec.ofNat 64 b.report) s)
        | .ok _ s => .next (storeTok c k t .area s)
      | some p => .next (storeTok c k t p s) :=
  (if_neg hr).trans ((if_neg (mt any_port_iff.1 h)).trans (if_neg (mt all_ports_iff.1 hf)))

end

/-! ### The firing of a frame (R16, R17) -/

theorem countOperands_clean {ws : List Waiting} (h : ∀ w ∈ ws, w.err = 0) (s : State) (x : Ctx) :
    s.countOperands x ws = s := by
  have hpop : popWord 0 = 0 := by decide
  have hnone : ∀ q : Nat → Bool, q 0 = false → ws.filter (fun w => q (popWord (BitVec.ofNat 64 w.err))) = [] := by
    intro q hq
    refine List.filter_eq_nil_iff.2 fun w hw => ?_
    rw [h w hw, show BitVec.ofNat 64 0 = 0 from rfl, hpop, hq]
    exact Bool.false_ne_true
  unfold State.countOperands
  dsimp only
  rw [hnone (fun n => n == 1) rfl, hnone (fun n => decide (1 < n)) rfl]
  rfl

/-- The mask of a firing has a lane where each of its counted operands has it. -/
theorem getLsbD_fireMask (m : NodeImg) (ts : List Tok) {l : Nat} (hl : l < 16) : (fireMask m ts).getLsbD l = true ↔
    ∀ q ∈ ts, q.port < m.head.inputs → some q.port ≠ m.ordPort → q.mask.getLsbD l = true := by
  have hfold : ∀ k : BitVec 16, (ts.foldl (fun k t => if t.port < m.head.inputs ∧ some t.port ≠ m.ordPort then k &&& t.mask
      else k) k).getLsbD l = true ↔ k.getLsbD l = true ∧
        ∀ q ∈ ts, q.port < m.head.inputs → some q.port ≠ m.ordPort → q.mask.getLsbD l = true := by
    induction ts with
    | nil => simp
    | cons t ts ih =>
      intro k
      rw [List.foldl_cons, ih, List.forall_mem_cons]
      split
      next h => rw [BitVec.getLsbD_and, Bool.and_eq_true, and_assoc]; simp only [h.1, h.2, ne_eq, not_false_eq_true, forall_const]
      next h => simp only [not_and] at h; tauto
  rw [fireMask, hfold]
  have hones : (0xFFFF : BitVec 16).getLsbD l = true := by
    rw [show (0xFFFF : BitVec 16) = BitVec.allOnes 16 from rfl, BitVec.getLsbD_allOnes]
    exact decide_eq_true hl
  simp only [hones, true_and]

/-- What a node that fires adds to its region (R16, R26). -/
theorem fire_fab {s : State} (h : s.ctxWf = true) (c : Nat) (r : NodeRef) (tag : Tag) (mask : BitVec 16) (ts : List Tok) :
    ∃ f : Firing, ((fire c r tag mask ts s).fab c).firings = (s.fab c).firings ++ [f] ∧ f.ref = r ∧ f.tag = tag ∧
      f.stage = 0 ∧ f.phase = .run ∧ f.mask = mask ∧ (∀ p < 3, f.ports.getD p none = ts.find? fun t => t.port == p) ∧
      ((fire c r tag mask ts s).fab c).chan = (s.fab c).chan ∧
      ((fire c r tag mask ts s).fab c).waiting = (s.fab c).waiting := by
  unfold fire
  rw [State.fab_modFab_same h]
  refine ⟨_, rfl, rfl, rfl, rfl, rfl, rfl, fun p hp => ?_, rfl, rfl⟩
  interval_cases p <;> rfl

/-- A frame without upsets fires: its operands are consumed, and the firing stands at its node with their masks' AND. -/
theorem fireFrame_fab {c k : Nat} {t : Tok} {m : NodeImg} {s : State} (h : s.ctxWf = true)
    (herr : ∀ w ∈ (s.fab c).frame t.dest t.tag, w.err = 0) :
    let u := fireFrame c k t m ((s.fab c).frame t.dest t.tag) s
    ∃ f : Firing, (u.fab c).firings = (s.fab c).firings ++ [f] ∧ f.ref = t.dest ∧ f.tag = t.tag ∧ f.stage = 0 ∧
      f.phase = .run ∧ (u.fab c).chan = (s.fab c).chan.eraseIdx k ∧
      (∀ w, w ∈ (u.fab c).waiting ↔ w ∈ (s.fab c).waiting ∧ ¬ (w.tok.dest = t.dest ∧ w.tok.tag = t.tag)) ∧
      (t.port < 3 → f.ports.getD t.port none = some t) ∧
      ∀ l, l < 16 → (f.mask.getLsbD l = true ↔ ∀ q, q = t ∨ (∃ w ∈ (s.fab c).frame t.dest t.tag, w.tok = q) →
        q.port < m.head.inputs → some q.port ≠ m.ordPort → q.mask.getLsbD l = true) := by
  have hd : (dropTok c k s).ctxWf = true := State.ctxWf_modFab h c _
  unfold fireFrame
  dsimp only
  rw [countOperands_clean herr]
  obtain ⟨f, hfir, href, htag, hstage, hphase, hmask, hports, hchan, hwait⟩ := fire_fab (State.ctxWf_modFab hd c fun f =>
    { f with waiting := f.waiting.filter fun w => !decide (w.tok.dest = t.dest ∧ w.tok.tag = t.tag) }) c t.dest t.tag
    (fireMask m (t :: ((s.fab c).frame t.dest t.tag).map (·.tok))) (t :: ((s.fab c).frame t.dest t.tag).map (·.tok))
  have hfab : (dropTok c k s).fab c = { s.fab c with chan := (s.fab c).chan.eraseIdx k } := State.fab_modFab_same h c _
  rw [State.fab_modFab_same hd, hfab] at hfir hchan hwait
  refine ⟨f, hfir, href, htag, hstage, hphase, hchan, fun w => ?_, fun hp => ?_, fun l hl => ?_⟩
  · rw [hwait, List.mem_filter, Bool.not_eq_true', decide_eq_false_iff_not]
  · rw [hports _ hp]
    exact List.find?_cons_of_pos (beq_self_eq_true t.port)
  · rw [hmask, getLsbD_fireMask m _ hl]
    simp only [List.mem_cons, List.mem_map]

/-- A token that is stored waits in its frame, and nothing fires (R25, R27, R28). -/
theorem storeTok_fab {s : State} (h : s.ctxWf = true) (c k : Nat) (t : Tok) (p : Place) :
    ((storeTok c k t p s).fab c).waiting = (s.fab c).waiting ++ [{ tok := t, place := p, err := 0 }] ∧
      ((storeTok c k t p s).fab c).chan = (s.fab c).chan.eraseIdx k ∧
      ((storeTok c k t p s).fab c).firings = (s.fab c).firings := by
  have hfab : (dropTok c k s).fab c = { s.fab c with chan := (s.fab c).chan.eraseIdx k } := State.fab_modFab_same h c _
  have hs : (storeTok c k t p s).fab c = { (dropTok c k s).fab c with
      waiting := ((dropTok c k s).fab c).waiting ++ [{ tok := t, place := p, err := 0 }] } := by
    have hd : (dropTok c k s).ctxWf = true := State.ctxWf_modFab h c _
    unfold storeTok State.fab
    rw [State.ctx_modCtx_same hd]
    cases p <;> rfl
  rw [hs, hfab]
  exact ⟨rfl, rfl, rfl⟩

/-! ### The first uncorrectable operand (R344) -/

theorem find?_bad_operand {fr : List Waiting} {j : Nat} {w : Waiting} (hw : fr[j]? = some w)
    (hbad : 2 ≤ popWord (BitVec.ofNat 64 w.err))
    (hfirst : ∀ (i : Nat) (v : Waiting), i < j → fr[i]? = some v → popWord (BitVec.ofNat 64 v.err) < 2) :
    (fr.find? fun w => decide (2 ≤ popWord (BitVec.ofNat 64 w.err))) = some w := by
  obtain ⟨hj, hget⟩ := List.getElem?_eq_some_iff.1 hw
  refine List.find?_eq_some_iff_getElem.2 ⟨decide_eq_true hbad, j, hj, hget, fun i hi => ?_⟩
  have := hfirst i fr[i] hi (List.getElem?_eq_getElem _)
  simp only [Bool.not_eq_true', decide_eq_false_iff_not]
  omega

theorem find?_no_bad_operand {fr : List Waiting} (h : ∀ w ∈ fr, w.err = 0) :
    (fr.find? fun w => decide (2 ≤ popWord (BitVec.ofNat 64 w.err))) = none := by
  have hpop : popWord 0 = 0 := by decide
  refine List.find?_eq_none.2 fun w hw => ?_
  rw [h w hw, show BitVec.ofNat 64 0 = 0 from rfl, hpop]
  decide

/-- A frame without an operand in the global overflow area reaches no record of it. -/
theorem reachFrame_of_no_area {c : Nat} {t : Tok} {s : State}
    (h : ∀ w ∈ (s.fab c).frame t.dest t.tag, w.place ≠ .area) : reachFrame c t s = .ok 0 s := by
  have hnil : ((s.fab c).frame t.dest t.tag).filter (fun w => decide (w.place = .area)) = [] :=
    List.filter_eq_nil_iff.2 fun w hw => by simpa using h w hw
  unfold reachFrame
  rw [hnil]
  rfl

/-! ### The match of a token -/

/-- A token that reaches the active plane of its node, first of its route, by its tag: two traps, or its frame (R23, R151). -/
theorem tokenMatch_eq {c : CtxId} {k : Nat} {t : Tok} {m : NodeImg} {s : State} (ht : (s.fab c.val).chan[k]? = some t)
    (hm : s.nodeImg (s.ctx c.val) t.dest = some m) (hlive : (s.ctx c.val).live = true)
    (hfirst : (s.fab c.val).firstOfRoute k t = true) (hres : (s.ctx c.val).resuming = false)
    (hact : smGet 0 s.active ((s.ctx c.val).first + t.dest.cl) = t.dest.plane) (hk : t.kind ≠ .marker)
    (hd : (s.fab c.val).draining = false) : exec (.tokenMatch c k) s =
      if (s.ctx c.val).tagAdmitted t.tag = false then .next (nodeTrap c.val 0x0105 0 (nodeTagReport m.emit.node t.tag) s)
      else if (s.ctx c.val).tagCurrent t.tag = false then
        .next (nodeTrap c.val 0x0102 0 (nodeTagReport m.emit.node t.tag) s)
      else matchFrame c.val k t m s := by
  have hfrozen : s.frozen (s.ctx c.val) t.dest = false := frozen_of_not_draining hd _
  simp only [State.fab] at ht hfirst
  simp only [exec_tokenMatch, execTokenMatch, ht, hm, hlive, hres, hfirst, hact, hk, hfrozen, Bool.not_true, Bool.false_or,
    Bool.false_and, ne_eq, not_true_eq_false, decide_false, Bool.false_eq_true, if_false, Bool.not_eq_true']
  rfl

/-- Settles O34, by the branches of the match of a token with its frame. -/
theorem tokenMatchFiresOrStores : Obligations.TokenMatchFiresOrStores := by
  intro c k t m s hwf x exec' trap frame held ht hm hlive hfirst hres hact hk hd reached fires
  have heq := tokenMatch_eq ht hm hlive hfirst hres hact hk hd
  refine ⟨fun ha => heq.trans (if_pos ha),
    fun ha hc => heq.trans ((if_neg (ne_false_of_eq_true ha)).trans (if_pos hc)), fun ha hc => ?_⟩
  have hmatch : exec' = matchFrame c.val k t m s :=
    heq.trans ((if_neg (ne_false_of_eq_true ha)).trans (if_neg (ne_false_of_eq_true hc)))
  refine ⟨fun hr => hmatch.trans (matchFrame_merge hr), fun hr hh => hmatch.trans (matchFrame_held hr hh),
    fun hn => reachFrame_of_no_area hn, fun u hf hu => ?_, fun b u hf hu => ?_, fun j w hf hu hj hbad hbefore => ?_,
    fun hf hu herr => ?_, fun p hr hh hp hne hno => ?_⟩
  · rw [hmatch, matchFrame_completes hf.1 hf.2.1 hf.2.2, show reachFrame c.val t s = _ from hu]
  · rw [hmatch, matchFrame_completes hf.1 hf.2.1 hf.2.2, show reachFrame c.val t s = _ from hu]
  · obtain ⟨hr, hh, hall⟩ := hf
    obtain ⟨r, u, hm⟩ := matchFrame_uncorrectable (k := k) hr hh hall hu (find?_bad_operand hj hbad hbefore)
    refine ⟨r, u, hmatch.trans (hm.trans ?_)⟩
    cases w.place <;> rfl
  · obtain ⟨hr, hh, hall⟩ := hf
    obtain ⟨f, hf⟩ := fireFrame_fab (k := k) (m := m) hwf herr
    exact ⟨_, f, hmatch.trans (matchFrame_fires hr hh hall hu (find?_no_bad_operand herr)), hf⟩
  · have hwaits := hmatch.trans (matchFrame_waits hr hh fun hall => (hall p hp).elim hne hno)
    refine ⟨fun place hplace harea => ⟨storeTok c.val k t place s, ?_, storeTok_fab hwf c.val k t place⟩,
      fun u hplace hu => ?_, fun b u hplace hu => ?_, fun hplace => ?_⟩
    · rw [hwaits, show s.waitPlace _ t = _ from hplace]
      cases place with
      | table => rfl
      | store => rfl
      | area =>
        obtain ⟨v, hv⟩ := harea rfl
        rw [show reachNew c.val s = _ from hv]
    · rw [hwaits, show s.waitPlace _ t = _ from hplace, show reachNew c.val s = _ from hu]
    · rw [hwaits, show s.waitPlace _ t = _ from hplace, show reachNew c.val s = _ from hu]
    · rw [hwaits, show s.waitPlace _ t = _ from hplace]

end Sys2Proof.Machine
end

section
/-! CSR accesses of a sequencer: reads, writes, and hold registers (R52, R66, R94, R103, R107, R120). -/

namespace Sys2Proof.Machine

open Sys2Proof Sys2Proof.Claims

/-! ### An instruction that issues -/

/-- An instruction that issues, with no breakpoint on its pass, has its effect. -/
theorem seqIssue_issues {c : Nat} {srcs : List Src} {dst : SReg} {s s' : State} (h : Issues c srcs dst s s')
    (k : Nat → State → Out) : seqIssue srcs dst s k = k c s' :=
  seqIssue_go k h.1 h.2.1 h.2.2

/-- A context whose events are all merged keeps its flags as they are (R53). -/
theorem settleFlags_merged {c : Nat} {s : State} (h : (s.ctx c).unmerged = 0) : settleFlags c s = s := if_pos h

/-! ### The four instructions (R66, R120) -/

section
variable {c : Nat} {d a : SReg} {e : Bool} {n : BitVec 12} {s s' : State}

theorem exec_csrr (h : Issues c [] d s s') (hn : n = 0x001 → (s'.ctx c).unmerged = 0) :
    exec (.csrr d n) s = writes c d ((s'.ctx c).csr c n.toNat) s' := by
  have hexec : exec (.csrr d n) s = execCsrr d n s := rfl
  rw [hexec, execCsrr, seqIssue_issues h]
  by_cases h1 : n = 0x001
  · simp only [h1, if_true, settleFlags_merged (hn h1)]
    rfl
  · simp only [if_neg h1]
    rfl

theorem exec_csrw_waits (h : Issues c [(a, e)] 0 s s') (hn : csrWaits n.toNat true = true) (hp : (s'.fab c).period ≠ none) :
    exec (.csrw a e n) s = .next s' := by
  have hexec : exec (.csrw a e n) s = execCsrw a e n s := rfl
  rw [hexec, execCsrw, seqIssue_issues h]
  exact if_pos (by simp [hn, Option.isSome_iff_ne_none.2 hp])

theorem exec_csrw_goes (h : Issues c [(a, e)] 0 s s') (hn : csrWaits n.toNat true = true → (s'.fab c).period = none) :
    exec (.csrw a e n) s =
      if n.toNat = 0x001 then .next (retire c ((settleFlags c s').modCtx c fun x =>
        { x with flags := x.flags &&& ~~~((s'.seq c).rd a).setWidth 8 }))
      else if 0x040 ≤ n.toNat ∧ n.toNat < 0x060 then .next (retire c (setHolds (s'.ctx c) (n.toNat % 16)
        (holdValue (decide (0x050 ≤ n.toNat)) ((s'.seq c).rd a)) s'))
      else .next (retire c (s'.modCtx c fun x => x.setCsr n.toNat ((s'.seq c).rd a))) := by
  have hexec : exec (.csrw a e n) s = execCsrw a e n s := rfl
  rw [hexec, execCsrw, seqIssue_issues h]
  refine if_neg ?_
  cases hw : csrWaits n.toNat true
  · simp
  · simp [hn hw]

theorem csrBits_waits (h : Issues c [(a, e)] 0 s s') (hn : csrWaits n.toNat false = true) (hp : (s'.fab c).period ≠ none)
    (f : Word → Word → Word) : csrBits a e n s f = .next s' := by
  rw [csrBits, seqIssue_issues h]
  exact if_pos (by simp [hn, Option.isSome_iff_ne_none.2 hp])

theorem csrBits_goes (h : Issues c [(a, e)] 0 s s') (hn : csrWaits n.toNat false = false) (f : Word → Word → Word) :
    csrBits a e n s f =
      .next (retire c (s'.modCtx c fun x => x.setCsr n.toNat (f (x.csr c n.toNat) ((s'.seq c).rd a)))) := by
  rw [csrBits, seqIssue_issues h]
  exact if_neg (by simp [hn])

theorem exec_csrs : exec (.csrs a e n) s = csrBits a e n s fun old w => old ||| w := rfl

theorem exec_csrc : exec (.csrc a e n) s = csrBits a e n s fun old w => old &&& ~~~w := rfl

end

/-! ### Which writes wait (R107, R246) -/

theorem csrWaits_scope {n : Nat} (h : 0x0C0 ≤ n ∧ n ≤ 0x100) (hold : Bool) : csrWaits n hold = true := by
  simp [csrWaits, h]

theorem csrWaits_hold {n : Nat} (h : 0x040 ≤ n ∧ n < 0x060) : csrWaits n true = true := by
  simp [csrWaits, h]

theorem csrWaits_other {n : Nat} (h : n < 0x0C0 ∨ 0x100 < n) (hold : Bool) (hh : hold = true → n < 0x040 ∨ 0x060 ≤ n) :
    csrWaits n hold = false := by
  have hs : ¬ (0x0C0 ≤ n ∧ n ≤ 0x100) := by omega
  cases hold
  · simp [csrWaits, hs]
  · have hn : ¬ (0x040 ≤ n ∧ n < 0x060) := by have := hh rfl; omega
    simp [csrWaits, hs, hn]

theorem csrReadAndWrite : CsrReadAndWrite := by
  unfold CsrReadAndWrite
  refine ⟨fun c d n s s' h _ h1 => exec_csrr h fun hn => absurd hn h1, fun c d s s' h hm => exec_csrr h fun _ => hm,
    ?_, fun x id w => ?_⟩
  · intro c a e n s s' h _ x w
    have scope : 0x0C0 ≤ n ∧ n ≤ 0x100 → 0x0C0 ≤ n.toNat ∧ n.toNat ≤ 0x100 := by simp [BitVec.le_def]
    have other : n < 0x0C0 ∨ 0x100 < n → n.toNat < 0x0C0 ∨ 0x100 < n.toNat := by simp [BitVec.lt_def]
    have noHold : n < 0x040 ∨ 0x060 ≤ n → n.toNat < 0x040 ∨ 0x060 ≤ n.toNat := by simp [BitVec.lt_def, BitVec.le_def]
    refine ⟨?_, ?_, ?_, ?_, ?_⟩
    · rintro rfl hm
      rw [exec_csrw_goes h fun hw => absurd hw (by decide), settleFlags_merged hm]
      rfl
    · intro h1 hh ho
      have h1 : n.toNat ≠ 0x001 := fun hn => h1 (BitVec.eq_of_toNat_eq hn)
      have hh := noHold hh
      rw [exec_csrw_goes h fun hw => absurd hw (by simp [csrWaits_other (other ho) true fun _ => hh]), if_neg h1,
        if_neg (by omega)]
    · intro ho
      have hw := csrWaits_other (other ho) false (by simp)
      exact ⟨exec_csrs.trans (csrBits_goes h hw _), exec_csrc.trans (csrBits_goes h hw _)⟩
    · intro hs hp
      have hw := csrWaits_scope (scope hs)
      exact ⟨exec_csrw_waits h (hw true) hp, exec_csrs.trans (csrBits_waits h (hw false) hp _),
        exec_csrc.trans (csrBits_waits h (hw false) hp _)⟩
    · intro hs hp
      have hs := scope hs
      rw [exec_csrw_goes h fun _ => hp, if_neg (by omega), if_neg (by omega)]
  · refine ⟨rfl, rfl, rfl, rfl, rfl, rfl, rfl, rfl, rfl, rfl, rfl, rfl, rfl, rfl, rfl⟩

/-! ### Hold registers (R107) -/

theorem laneAt_holdValue (wide : Bool) (w : Word) {i : Nat} (hi : i < 16) :
    (laneAt (holdValue wide w) i).toNat = (if wide ∧ i % 2 = 1 then w.toNat / 2 ^ 32 else w.toNat) % 2 ^ 32 := by
  rw [holdValue, laneAt_mkLanes _ hi, BitVec.toNat_ofNat]

section
variable {x : Ctx} {j : Nat} {v : List Lane} {s : State}

theorem setHolds_hold (x : Ctx) (j : Nat) (v : List Lane) (s : State) : (setHolds x j v s).hold =
    (List.range (x.size * 64)).foldl (fun m k => smSet [] m ((x.first * 64 + k) * 16 + j) (holdLanes v)) s.hold := rfl

theorem setHolds_hold_of_pe (hh : smWf [] s.hold = true) {pe : Nat} (hpe : pe < x.size * 64) :
    smGet [] (setHolds x j v s).hold ((x.first * 64 + pe) * 16 + j) = holdLanes v := by
  rw [setHolds_hold]
  exact smGet_foldl_smSet hh (k := fun k => (x.first * 64 + k) * 16 + j) (v := fun _ => holdLanes v)
    ⟨pe, List.mem_range.2 hpe, rfl⟩ fun _ _ _ => rfl

theorem setHolds_hold_other (hh : smWf [] s.hold = true) (hj : j < 16) {k : Nat}
    (hk : k % 16 ≠ j ∨ k / 16 < x.first * 64 ∨ (x.first + x.size) * 64 ≤ k / 16) :
    smGet [] (setHolds x j v s).hold k = smGet [] s.hold k := by
  rw [setHolds_hold]
  refine smGet_foldl_smSet_ne hh (k := fun k => (x.first * 64 + k) * 16 + j) (v := fun _ => holdLanes v) fun b hb he => ?_
  have hb := List.mem_range.1 hb
  omega

end

theorem holdWritesReachEveryPe : HoldWritesReachEveryPe := by
  unfold HoldWritesReachEveryPe
  intro c j a e wide s s' h hj x w n
  have hn : n.toNat = (if wide then 0x050 else 0x040) + j := by
    cases wide <;> simp only [n, BitVec.toNat_ofNat] <;> exact Nat.mod_eq_of_lt (by simp; omega)
  have hrange : 0x040 ≤ n.toNat ∧ n.toNat < 0x060 := by rw [hn]; cases wide <;> simp <;> omega
  have hreg : n.toNat % 16 = j := by rw [hn]; cases wide <;> simp <;> omega
  have hwide : decide (0x050 ≤ n.toNat) = wide := by rw [hn]; cases wide <;> simp; omega
  refine ⟨exec_csrw_waits h (csrWaits_hold hrange), fun hp hh => ⟨setHolds x j (holdValue wide ((s'.seq c).rd a)) s', ?_,
    fun pe i hpe hi => ?_, fun k hk => setHolds_hold_other hh hj hk⟩⟩
  · rw [exec_csrw_goes h fun _ => hp, if_neg (by omega), if_pos hrange, hreg, hwide]
  · rw [setHolds_hold_of_pe hh hpe, laneAt_holdLanes, laneAt_holdValue _ _ hi]

/-- Settles O10, by the case of the CSR's number in which each of the four instructions acts. -/
theorem csrsReadAndWrite : Obligations.CsrsReadAndWrite := ⟨csrReadAndWrite, holdWritesReachEveryPe⟩

end Sys2Proof.Machine
end

section
/-! SUPPORT. One rounding of an exact value: the whole number nearest to a magnitude in each mode, and the format's value with
its flags (R42, R47 to R50). -/

namespace Sys2Proof.Machine

open Sys2Proof Sys2Proof.Claims

/-! ### Rounding to a whole number (R47, R48) -/

/-- Whether a mode takes the upper one of the neighbours `n` and `n + 1` of the magnitude `n + f` (R47, R48). -/
def RoundsUp (r : Rnd) (neg : Bool) (u n : Nat) (f : ℚ) : Prop :=
  match r with
  | .rne => 1 / 2 < f ∨ (f = 1 / 2 ∧ n % 2 = 1)
  | .rz => False
  | .ru => f ≠ 0 ∧ neg = false
  | .rd => f ≠ 0 ∧ neg = true
  | .sr => u < ⌊2 ^ 32 * f⌋₊

theorem not_roundsUp_zero (r : Rnd) (neg : Bool) (u n : Nat) : ¬ RoundsUp r neg u n 0 := by
  cases r <;> simp [RoundsUp]

section
variable {r : Rnd} {neg : Bool} {u n k : Nat} {f : ℚ} (hf0 : 0 ≤ f) (hf1 : f < 1)
include hf0 hf1

theorem floor_add_fraction : ⌊(n : ℚ) + f⌋₊ = n := by
  rw [Nat.floor_eq_iff (by positivity)]
  constructor <;> linarith

theorem eq_of_below (h : (k : ℚ) ≤ n + f ∧ (n : ℚ) + f < k + 1) : k = n := by
  have h1 : (k : ℚ) < (n + 1 : Nat) := by push_cast; linarith [h.1]
  have h2 : (n : ℚ) < (k + 1 : Nat) := by push_cast; linarith [h.2]
  rw [Nat.cast_lt] at h1 h2
  omega

theorem eq_of_above (h : (n : ℚ) + f ≤ k ∧ (k : ℚ) < n + f + 1) : (f ≠ 0 → k = n + 1) ∧ (f = 0 → k = n) := by
  have h2 : (k : ℚ) < (n + 2 : Nat) := by push_cast; linarith [h.2]
  rw [Nat.cast_lt] at h2
  constructor
  · intro hf
    have h1 : (n : ℚ) < k := by linarith [h.1, lt_of_le_of_ne hf0 hf.symm]
    rw [Nat.cast_lt] at h1
    omega
  · rintro rfl
    have h1 : (n : ℚ) ≤ k ∧ (k : ℚ) < (n + 1 : Nat) := ⟨by linarith [h.1], by push_cast; linarith [h.2]⟩
    rw [Nat.cast_le, Nat.cast_lt] at h1
    omega

theorem eq_of_nearest_even (h : |(n : ℚ) + f - k| ≤ 1 / 2 ∧ (|(n : ℚ) + f - k| = 1 / 2 → k % 2 = 0)) :
    (RoundsUp .rne neg u n f → k = n + 1) ∧ (¬ RoundsUp .rne neg u n f → k = n) := by
  obtain ⟨hle, heven⟩ := h
  have hmem : k = n ∨ k = n + 1 := by
    have hd := abs_le.1 hle
    have h1 : (n : ℚ) < (k + 1 : Nat) := by push_cast; linarith
    have h2 : (k : ℚ) < (n + 2 : Nat) := by push_cast; linarith
    rw [Nat.cast_lt] at h1 h2
    omega
  rcases hmem with rfl | rfl
  · rw [add_sub_cancel_left, abs_of_nonneg hf0] at hle heven
    refine ⟨?_, fun _ => rfl⟩
    rintro (hup | ⟨hup, hodd⟩)
    · linarith
    · have := heven hup
      omega
  · have hdist : |(n : ℚ) + f - (n + 1 : Nat)| = 1 - f := by
      rw [abs_of_nonpos (by push_cast; linarith)]
      push_cast
      ring
    rw [hdist] at hle heven
    refine ⟨fun _ => rfl, fun hn => absurd ?_ hn⟩
    by_cases hf : f = 1 / 2
    · have := heven (by linarith)
      exact Or.inr ⟨hf, by omega⟩
    · exact Or.inl (lt_of_le_of_ne (by linarith) (Ne.symm hf))

/-- A rounded magnitude is the upper or the lower one of its two neighbours, as its mode says. -/
theorem nearest_eq (h : Nearest r neg u (n + f) k) :
    (RoundsUp r neg u n f → k = n + 1) ∧ (¬ RoundsUp r neg u n f → k = n) := by
  cases r with
  | rne => exact eq_of_nearest_even hf0 hf1 h
  | rz => exact ⟨False.elim, fun _ => eq_of_below hf0 hf1 h⟩
  | ru =>
    cases neg
    · obtain ⟨h1, h2⟩ := eq_of_above hf0 hf1 h
      exact ⟨fun hup => h1 hup.1, fun hup => h2 (not_not.1 fun hf => hup ⟨hf, rfl⟩)⟩
    · exact ⟨fun hup => absurd hup.2 (by decide), fun _ => eq_of_below hf0 hf1 h⟩
  | rd =>
    cases neg
    · exact ⟨fun hup => absurd hup.2 (by decide), fun _ => eq_of_below hf0 hf1 h⟩
    · obtain ⟨h1, h2⟩ := eq_of_above hf0 hf1 h
      exact ⟨fun hup => h1 hup.1, fun hup => h2 (not_not.1 fun hf => hup ⟨hf, rfl⟩)⟩
  | sr =>
    simp only [Nearest, floor_add_fraction hf0 hf1, add_sub_cancel_left] at h
    refine ⟨fun hup => h.trans (if_pos ⟨fun hf => ?_, hup⟩), fun hup => h.trans (if_neg fun hx => hup hx.2)⟩
    obtain rfl : f = 0 := by linarith
    exact not_roundsUp_zero .sr neg u n hup

theorem nearest_mem (h : Nearest r neg u (n + f) k) : k = n ∨ k = n + 1 := by
  obtain ⟨hup, hdown⟩ := nearest_eq hf0 hf1 h
  exact (em _).symm.imp hdown hup

end

/-- A magnitude that is whole rounds to itself. -/
theorem nearest_self (r : Rnd) (neg : Bool) (u k : Nat) : Nearest r neg u k k := by
  cases r <;> simp [Nearest]

section
variable {r : Rnd} {neg : Bool} {u k n : Nat} {w : ℚ}

theorem nearest_floor (h : Nearest r neg u w k) (hw : 0 ≤ w) : k = ⌊w⌋₊ ∨ k = ⌊w⌋₊ + 1 := by
  refine nearest_mem (r := r) (neg := neg) (u := u) (f := w - ⌊w⌋₊) (sub_nonneg.2 (Nat.floor_le hw)) (by linarith [Nat.lt_floor_add_one w]) ?_
  rwa [add_sub_cancel]

theorem nearest_whole (h : Nearest r neg u (n : ℚ) k) : k = n :=
  (nearest_eq (f := 0) le_rfl one_pos (by rwa [add_zero])).2 (not_roundsUp_zero r neg u n)

theorem le_nearest (h : Nearest r neg u w k) (hn : (n : ℚ) ≤ w) : n ≤ k := by
  have hfl : n ≤ ⌊w⌋₊ := Nat.le_floor hn
  have := nearest_floor h ((Nat.cast_nonneg n).trans hn)
  omega

theorem nearest_le (h : Nearest r neg u w k) (hw : 0 ≤ w) (hn : w ≤ n) : k ≤ n := by
  rcases hn.eq_or_lt with rfl | hlt
  · exact (nearest_whole h).le
  · have hfl : ⌊w⌋₊ < n := (Nat.floor_lt hw).2 hlt
    have := nearest_floor h hw
    omega

theorem two_pow_mul_zpow (n : Nat) (y : ℤ) : ((2 ^ n : Nat) : ℚ) * 2 ^ y = 2 ^ ((n : ℤ) + y) := by
  rw [Nat.cast_pow, Nat.cast_two, ← zpow_natCast, ← zpow_add₀ two_ne_zero]

theorem nearest_le_two_pow {v : ℚ} {y : ℤ} (h : Nearest r neg u (|v| / 2 ^ y) k) (hv : |v| ≤ 2 ^ ((n : ℤ) + y)) :
    k ≤ 2 ^ n :=
  nearest_le h (by positivity) ((div_le_iff₀ (by positivity)).2 (two_pow_mul_zpow n y ▸ hv))

theorem two_pow_le_nearest {v : ℚ} {y : ℤ} (h : Nearest r neg u (|v| / 2 ^ y) k) (hv : 2 ^ ((n : ℤ) + y) ≤ |v|) :
    2 ^ n ≤ k :=
  le_nearest h ((le_div_iff₀ (by positivity)).2 (two_pow_mul_zpow n y ▸ hv))

end

/-! ### The model's rounding of a quotient -/

section
variable {num den : Nat} (hd : 0 < den)
include hd

/-- A quotient is the whole number below it and the remainder's part, which is less than one. -/
theorem quotient_split : (num : ℚ) / den = (num / den : Nat) + (num % den : Nat) / den := by
  have hq : (den : ℚ) ≠ 0 := by exact_mod_cast hd.ne'
  have h : (num : ℚ) = den * (num / den : Nat) + (num % den : Nat) := by exact_mod_cast (Nat.div_add_mod num den).symm
  rw [div_eq_iff hq, add_mul, div_mul_cancel₀ _ hq, mul_comm, ← h]

theorem remainder_lt_one : ((num % den : Nat) / den : ℚ) < 1 := by
  rw [div_lt_one (by exact_mod_cast hd)]
  exact_mod_cast Nat.mod_lt num hd

theorem remainder_eq_zero : ((num % den : Nat) / den : ℚ) = 0 ↔ num % den = 0 := by
  have hq : (den : ℚ) ≠ 0 := by exact_mod_cast hd.ne'
  rw [div_eq_zero_iff, or_iff_left hq, Nat.cast_eq_zero]

/-- `roundQuot` gives the whole part of the quotient, or the next number where its mode takes the upper neighbour. -/
theorem roundQuot_fst (r : Rnd) (neg : Bool) (u : Nat) : ∃ up : Bool,
    (roundQuot r neg u num den).1 = num / den + (if up then 1 else 0) ∧
      (up = true ↔ RoundsUp r neg u (num / den) ((num % den : Nat) / den)) := by
  have hq : (0 : ℚ) < den := by exact_mod_cast hd
  have hzero := remainder_eq_zero (num := num) hd
  cases r with
  | rne =>
    have hhalf : den < 2 * (num % den) ↔ (1 / 2 : ℚ) < (num % den : Nat) / den := by
      rw [div_lt_div_iff₀ two_pos hq, one_mul, mul_comm 2]
      exact_mod_cast Iff.rfl
    have htie : 2 * (num % den) = den ↔ ((num % den : Nat) / den : ℚ) = 1 / 2 := by
      rw [div_eq_div_iff hq.ne' two_ne_zero, one_mul, mul_comm 2]
      exact_mod_cast Iff.rfl
    exact ⟨_, rfl, by simp only [RoundsUp, Bool.or_eq_true, Bool.and_eq_true, decide_eq_true_eq, beq_iff_eq, hhalf, htie]⟩
  | rz => exact ⟨_, rfl, by simp [RoundsUp]⟩
  | ru => exact ⟨_, rfl, by simp only [RoundsUp, Bool.and_eq_true, bne_iff_ne, ne_eq, Bool.not_eq_true', hzero]⟩
  | rd => exact ⟨_, rfl, by simp only [RoundsUp, Bool.and_eq_true, bne_iff_ne, ne_eq, hzero]⟩
  | sr =>
    have hdraw : ⌊(2 : ℚ) ^ 32 * ((num % den : Nat) / den)⌋₊ = 2 ^ 32 * (num % den) / den := by
      rw [← mul_div_assoc, ← Nat.floor_div_eq_div (K := ℚ)]
      push_cast
      rfl
    exact ⟨_, rfl, by simp only [RoundsUp, decide_eq_true_eq, hdraw]⟩

theorem roundQuot_snd (r : Rnd) (neg : Bool) (u : Nat) :
    (roundQuot r neg u num den).2 = decide (((num % den : Nat) / den : ℚ) ≠ 0) := by
  have hzero := remainder_eq_zero (num := num) hd
  rw [← Bool.coe_iff_coe]
  simp only [roundQuot, bne_iff_ne, decide_eq_true_eq, ne_eq, hzero]

/-- The model's rounding of a quotient is the whole number that R47 and R48 name, and inexact where the two differ. -/
theorem roundQuot_nearest {r : Rnd} {neg : Bool} {u k : Nat} (h : Nearest r neg u ((num : ℚ) / den) k) :
    roundQuot r neg u num den = (k, decide ((k : ℚ) ≠ (num : ℚ) / den)) := by
  rw [quotient_split hd] at h ⊢
  obtain ⟨hup, hdown⟩ := nearest_eq (by positivity) (remainder_lt_one hd) h
  obtain ⟨up, hfst, hiff⟩ := roundQuot_fst (num := num) hd r neg u
  refine Prod.ext ?_ ?_
  · rw [hfst]
    cases up with
    | true => exact (hup (hiff.1 rfl)).symm
    | false => exact (hdown fun hr => absurd (hiff.2 hr) Bool.false_ne_true).symm
  · rw [roundQuot_snd hd, decide_eq_decide, not_iff_not]
    constructor
    · intro hz
      rw [hz] at hdown ⊢
      rw [hdown (not_roundsUp_zero r neg u _), add_zero]
    · intro hk
      rcases nearest_mem (by positivity) (remainder_lt_one hd) h with rfl | rfl
      · linarith
      · push_cast at hk
        linarith [remainder_lt_one (num := num) hd]

end

/-! ### The cut of an exact magnitude -/

theorem two_pow_le_bitLen {q : Nat} (hq : q ≠ 0) : 2 ^ (bitLen q - 1) ≤ q := by
  rw [bitLen, if_neg hq]
  exact Nat.log2_self_le hq

theorem lt_two_pow_bitLen (q : Nat) : q < 2 ^ bitLen q := by
  unfold bitLen
  split
  next h => simp [h]
  · exact Nat.lt_log2_self

/-- The exponent that the model reads off a magnitude is that of its leading bit. -/
theorem exponent_of_bitLen {q : Nat} {x e : ℤ} (hq : q ≠ 0) (hlo : (2 : ℚ) ^ e ≤ q * 2 ^ x)
    (hhi : (q : ℚ) * 2 ^ x < 2 ^ (e + 1)) : (bitLen q : ℤ) - 1 + x = e := by
  have hpos : 1 ≤ bitLen q := by simp [bitLen, hq]
  have h1 : (2 : ℚ) ^ ((bitLen q : ℤ) - 1 + x) ≤ q * 2 ^ x := by
    rw [zpow_add₀ two_ne_zero]
    refine mul_le_mul_of_nonneg_right ?_ (by positivity)
    rw [show (bitLen q : ℤ) - 1 = ((bitLen q - 1 : Nat) : ℤ) by omega, zpow_natCast]
    exact_mod_cast two_pow_le_bitLen hq
  have h2 : (q : ℚ) * 2 ^ x < 2 ^ ((bitLen q : ℤ) - 1 + x + 1) := by
    rw [show (bitLen q : ℤ) - 1 + x + 1 = bitLen q + x by ring, zpow_add₀ two_ne_zero]
    refine mul_lt_mul_of_pos_right ?_ (by positivity)
    rw [zpow_natCast]
    exact_mod_cast lt_two_pow_bitLen q
  have h3 := (zpow_lt_zpow_iff_right₀ (one_lt_two (α := ℚ))).1 (hlo.trans_lt h2)
  have h4 := (zpow_lt_zpow_iff_right₀ (one_lt_two (α := ℚ))).1 (h1.trans_lt hhi)
  omega

/-- The cut of an exact magnitude is a quotient by a power of two. -/
theorem cut_quotient (q : Nat) (x lsb : ℤ) : ∃ num width : Nat,
    Mag.cut { q := q, x := x, sticky := false } lsb =
        { kept := num / 2 ^ width, rem := num % 2 ^ width, width := width, sticky := false } ∧
      (num : ℚ) / (2 ^ width : Nat) = q * 2 ^ x / 2 ^ lsb := by
  unfold Mag.cut
  split
  next h =>
    have h : x < lsb := h
    refine ⟨q, (lsb - x).toNat, rfl, ?_⟩
    rw [Nat.cast_pow, Nat.cast_two, ← zpow_natCast, Int.toNat_of_nonneg (by omega), zpow_sub₀ two_ne_zero]
    field_simp
  next h =>
    have h : ¬ x < lsb := h
    refine ⟨q * 2 ^ (x - lsb).toNat, 0, by simp [Nat.mod_one], ?_⟩
    rw [Nat.cast_mul, Nat.cast_pow, Nat.cast_two, ← zpow_natCast (2 : ℚ) (x - lsb).toNat,
      Int.toNat_of_nonneg (by omega), zpow_sub₀ two_ne_zero]
    simp [mul_div_assoc]

/-- The fraction of R48, written with the width of the part cut off. -/
theorem frac_eq (k m w : Nat) (b : Bool) :
    Cut.frac { kept := k, rem := m, width := w, sticky := b } = 2 ^ 32 * m / 2 ^ w := by
  simp only [Cut.frac]
  split
  next h =>
    obtain ⟨d, rfl⟩ := Nat.exists_eq_add_of_le h
    rw [Nat.add_sub_cancel_left, pow_add, Nat.mul_div_mul_left _ _ (by positivity)]
  next h =>
    obtain ⟨d, hd⟩ := Nat.exists_eq_add_of_le (Nat.le_of_not_le h)
    rw [show 32 - w = d by omega, hd, pow_add, mul_assoc, Nat.mul_div_cancel_left _ (by positivity), mul_comm]

/-- The rounding of a cut is that of the quotient. -/
theorem cut_roundQuot (r : Rnd) (neg : Bool) (u num w : Nat) :
    let c : Cut := { kept := num / 2 ^ w, rem := num % 2 ^ w, width := w, sticky := false }
    (c.round r neg u, c.inexact) = roundQuot r neg u num (2 ^ w) := by
  intro c
  have hinx : c.inexact = (num % 2 ^ w != 0) := Bool.or_false _
  refine Prod.ext ?_ hinx
  cases r with
  | rne =>
    have htie : (decide (0 < w) && decide (2 * (num % 2 ^ w) = 2 ^ w)) = decide (2 * (num % 2 ^ w) = 2 ^ w) := by
      cases w with
      | zero => simp
      | succ w => simp
    simp [c, Cut.round, Cut.up, roundQuot, htie]
  | rz => simp [Cut.round, Cut.up, roundQuot, c]
  | ru => simp only [Cut.round, Cut.up, roundQuot, hinx, c]
  | rd => simp only [Cut.round, Cut.up, roundQuot, hinx, c]
  | sr =>
    have hdraw : (c.inexact && decide (u < c.frac)) = decide (u < 2 ^ 32 * (num % 2 ^ w) / 2 ^ w) := by
      rw [hinx, frac_eq]
      by_cases hz : num % 2 ^ w = 0
      · simp [hz]
      · simp [hz]
    simp only [Cut.round, Cut.up, roundQuot, hdraw, c]

/-- A cut at a unit rounds to the whole number of units that R47 and R48 name. -/
theorem cut_nearest {r : Rnd} {neg : Bool} {u q k : Nat} {x lsb : ℤ} {w : ℚ} (hw : w = q * 2 ^ x / 2 ^ lsb)
    (h : Nearest r neg u w k) :
    (Mag.cut { q := q, x := x, sticky := false } lsb).round r neg u = k ∧
      (Mag.cut { q := q, x := x, sticky := false } lsb).inexact = decide ((k : ℚ) ≠ w) := by
  obtain ⟨num, width, hc, hq⟩ := cut_quotient q x lsb
  rw [hw, ← hq] at h ⊢
  rw [hc]
  exact Prod.mk.inj ((cut_roundQuot r neg u num width).trans (roundQuot_nearest (by positivity) h))

/-! ### The encoding of a magnitude (R40) -/

theorem expMax_eq (t : FltTy) : FltTy.expMax t = 2 * FltTy.bias t + 1 := by cases t <;> rfl

theorem bias_pos (t : FltTy) : 1 ≤ FltTy.bias t := by cases t <;> decide

theorem expMax_lt (t : FltTy) : FltTy.expMax t < 2 ^ FltTy.exp t := Nat.sub_lt (by positivity) one_pos

/-- The value of a pattern without its sign. -/
def magOf (t : FltTy) (p : Nat) : ℚ :=
  if p / 2 ^ FltTy.frac t = 0 then 2 ^ (1 - FltTy.bias t : ℤ) * ((p % 2 ^ FltTy.frac t : Nat) / 2 ^ FltTy.frac t)
  else 2 ^ ((p / 2 ^ FltTy.frac t : Nat) - FltTy.bias t : ℤ) * (1 + (p % 2 ^ FltTy.frac t : Nat) / 2 ^ FltTy.frac t)

theorem magOf_nonneg (t : FltTy) (p : Nat) : 0 ≤ magOf t p := by
  unfold magOf
  split <;> positivity

/-- The pattern of `k` units at the biased exponent `e + 1`, or below the normal range where `e = 0`: a carry out of the
fraction moves on to the next exponent. -/
theorem magOf_pattern (t : FltTy) {e k : Nat} (hk : k ≤ 2 ^ (FltTy.frac t + 1)) (he : e ≠ 0 → 2 ^ FltTy.frac t ≤ k) :
    magOf t (e * 2 ^ FltTy.frac t + k) = k * 2 ^ ((e : ℤ) + 1 - FltTy.bias t - FltTy.frac t) := by
  unfold magOf
  set f := FltTy.frac t
  have hf : 0 < 2 ^ f := by positivity
  have hunit : (2 : ℚ) ^ ((e : ℤ) + 1 - FltTy.bias t - f) = 2 ^ ((e : ℤ) + 1 - FltTy.bias t) / 2 ^ f := by
    rw [zpow_sub₀ two_ne_zero, zpow_natCast]
  rw [hunit]
  rcases lt_or_ge k (2 ^ f) with hlt | hge
  · obtain rfl : e = 0 := by
      by_contra hn
      exact absurd (he hn) (by omega)
    rw [if_pos (by simpa using Nat.div_eq_of_lt hlt), Nat.zero_mul, Nat.zero_add, Nat.mod_eq_of_lt hlt]
    push_cast
    ring_nf
  obtain ⟨m, rfl⟩ := Nat.exists_eq_add_of_le hge
  have hm : m ≤ 2 ^ f := by rw [pow_succ] at hk; omega
  rw [show e * 2 ^ f + (2 ^ f + m) = m + 2 ^ f * (e + 1) by ring, Nat.add_mul_div_left _ _ hf, Nat.add_mul_mod_self_left]
  rcases hm.lt_or_eq with hm | rfl
  · rw [Nat.div_eq_of_lt hm, Nat.mod_eq_of_lt hm, if_neg (by omega)]
    push_cast
    field_simp
    ring_nf
  · rw [Nat.div_self hf, Nat.mod_self, if_neg (by omega), show ((1 + (e + 1) : Nat) : ℤ) - FltTy.bias t =
      (e + 1 - FltTy.bias t : ℤ) + 1 by push_cast; ring, zpow_add_one₀ two_ne_zero]
    push_cast
    field_simp
    ring

theorem frac_signed (t : FltTy) (neg : Bool) (p : Nat) : (fZero t neg + p) % 2 ^ FltTy.frac t = p % 2 ^ FltTy.frac t := by
  rw [fZero, pow_add, ← mul_assoc, add_comm, Nat.add_mul_mod_self_right]

section
variable (t : FltTy) (neg : Bool) {p : Nat} (hp : p < 2 ^ (FltTy.exp t + FltTy.frac t))
include hp

/-- A pattern with a sign: its exponent field is that of the pattern without. -/
theorem expField_signed : expField t (fZero t neg + p) = p / 2 ^ FltTy.frac t := by
  have hlt : p / 2 ^ FltTy.frac t < 2 ^ FltTy.exp t := by
    rw [Nat.div_lt_iff_lt_mul (by positivity), ← pow_add]
    exact hp
  rw [expField, fZero, pow_add, ← mul_assoc, add_comm, Nat.add_mul_div_right _ _ (by positivity),
    Nat.add_mul_mod_self_right, Nat.mod_eq_of_lt hlt]

theorem signBit_signed : signBit t (fZero t neg + p) = neg := by
  rw [signBit, fZero, add_comm, mul_comm, Nat.testBit_eq_decide_div_mod_eq, Nat.add_mul_div_left _ _ (by positivity),
    Nat.div_eq_of_lt hp]
  cases neg <;> rfl

theorem ratOf_signed : ratOf t (fZero t neg + p) = if neg = true then -magOf t p else magOf t p := by
  simp only [ratOf, signBit_signed t neg hp, expField_signed t neg hp, frac_signed]
  rfl

theorem abs_ratOf_signed : |ratOf t (fZero t neg + p)| = magOf t p := by
  rw [ratOf_signed t neg hp]
  cases neg <;> simp [abs_of_nonneg (magOf_nonneg t p)]

theorem width_signed : fZero t neg + p < 2 ^ FltTy.width t := by
  rw [FltTy.width, show 1 + FltTy.exp t + FltTy.frac t = FltTy.exp t + FltTy.frac t + 1 by ring, pow_succ, fZero]
  cases neg
  · simp only [bitN, Bool.false_eq_true, if_false]
    omega
  · simp only [bitN, if_true]
    omega

end

/-! ### One rounding to a format (R42, R47 to R50) -/

theorem overflowed_eq (t : FltTy) (r : Rnd) (sat neg : Bool) : overflowed t r sat neg =
    if sat = true ∨ r = .rz ∨ (r = .ru ∧ neg = true) ∨ (r = .rd ∧ neg = false) then fInf t neg - 1 else fInf t neg := by
  cases sat
  · cases r <;> cases neg <;> rfl
  · rfl

/-- The lowest exponent of a normal number. -/
def FltTy.emin (t : FltTy) : ℤ := 1 - FltTy.bias t

/-- The largest finite value. -/
def FltTy.largest (t : FltTy) : ℚ := (2 - 2 ^ (-FltTy.frac t : ℤ)) * 2 ^ FltTy.bias t

theorem largest_eq (t : FltTy) :
    FltTy.largest t = (2 ^ (FltTy.frac t + 1) - 1 : Nat) * 2 ^ ((FltTy.bias t : ℤ) - FltTy.frac t) := by
  rw [FltTy.largest, Nat.cast_sub Nat.one_le_two_pow, zpow_sub₀ two_ne_zero, zpow_neg, zpow_natCast, zpow_natCast]
  push_cast
  field_simp
  ring

/-- What rounding answers, by the exponent of the magnitude and its whole numbers of units. -/
theorem roundFlt_eq {t : FltTy} {r : Rnd} {sat : Bool} {u : Nat} {neg : Bool} {q k j : Nat} {x e0 : ℤ} {inx : Bool}
    (he : (bitLen q : ℤ) - 1 + x = e0)
    (hk : (Mag.cut { q := q, x := x, sticky := false } (max e0 (FltTy.emin t) - FltTy.frac t)).round r neg u = k)
    (hi : (Mag.cut { q := q, x := x, sticky := false } (max e0 (FltTy.emin t) - FltTy.frac t)).inexact = inx)
    (hj : (Mag.cut { q := q, x := x, sticky := false } (e0 - FltTy.frac t)).round r neg u = j) :
    roundFlt t r sat u neg { q := q, x := x, sticky := false } =
      let p := (max e0 (FltTy.emin t) - FltTy.emin t).toNat * 2 ^ FltTy.frac t + k
      let tiny := decide (e0 < FltTy.emin t) &&
        !(decide (e0 = FltTy.emin t - 1) && decide (2 ^ (FltTy.frac t + 1) ≤ j))
      if FltTy.expMax t * 2 ^ FltTy.frac t ≤ p then { val := overflowed t r sat neg, fl := fOvf ||| fInx }
      else { val := fZero t neg + p, fl := flagIf inx fInx ||| flagIf (inx && tiny) fUnf } := by
  have hb : max e0 (FltTy.emin t) - FltTy.frac t + FltTy.frac t + FltTy.bias t - 1 =
      max e0 (FltTy.emin t) - FltTy.emin t := by unfold FltTy.emin; ring
  unfold roundFlt
  simp only [he, max_sub_sub_right]
  rw [show 1 - (FltTy.bias t : ℤ) = FltTy.emin t from rfl]
  rw [hk, hi, hj, hb]

/-- The pattern of an overflow is the pattern of a value above the largest finite one. -/
theorem pattern_overflows_iff (t : FltTy) {e k : Nat} (hk : k ≤ 2 ^ (FltTy.frac t + 1)) (he : e ≠ 0 → 2 ^ FltTy.frac t ≤ k) :
    FltTy.expMax t * 2 ^ FltTy.frac t ≤ e * 2 ^ FltTy.frac t + k ↔
      FltTy.largest t < k * 2 ^ ((e : ℤ) + 1 - FltTy.bias t - FltTy.frac t) := by
  have hb := bias_pos t
  have htwo : (0 : ℚ) < 2 ^ ((FltTy.bias t : ℤ) - FltTy.frac t) := by positivity
  have hscale : (k : ℚ) * 2 ^ ((e : ℤ) + 1 - FltTy.bias t - FltTy.frac t) =
      k * 2 ^ ((e : ℤ) + 1 - 2 * FltTy.bias t) * 2 ^ ((FltTy.bias t : ℤ) - FltTy.frac t) := by
    rw [mul_assoc, ← zpow_add₀ two_ne_zero]
    ring_nf
  rw [largest_eq, hscale, mul_lt_mul_iff_left₀ htwo, expMax_eq, pow_succ]
  rw [pow_succ] at hk
  set F := 2 ^ FltTy.frac t
  have hF : 1 ≤ F := Nat.one_le_two_pow
  rcases lt_trichotomy (e + 1) (2 * FltTy.bias t) with hlt | heq | hgt
  · -- The exponent lies below the highest: even a carry stays in range.
    have h1 : e * F + 2 * F ≤ 2 * FltTy.bias t * F := by
      rw [← add_mul]
      exact Nat.mul_le_mul_right F (by omega)
    have h2 : (k : ℚ) * 2 ^ ((e : ℤ) + 1 - 2 * FltTy.bias t) ≤ F := by
      have hz : (2 : ℚ) ^ ((e : ℤ) + 1 - 2 * FltTy.bias t) ≤ 2 ^ (-1 : ℤ) :=
        zpow_le_zpow_right₀ one_le_two (by omega)
      have hk' : (k : ℚ) ≤ F * 2 := by exact_mod_cast hk
      calc (k : ℚ) * 2 ^ ((e : ℤ) + 1 - 2 * FltTy.bias t) ≤ F * 2 * 2 ^ (-1 : ℤ) := by gcongr
        _ = F := by rw [zpow_neg_one]; field_simp
    have h3 : (F : ℚ) ≤ ((F * 2 - 1 : Nat) : ℚ) := by exact_mod_cast (by omega : F ≤ F * 2 - 1)
    refine ⟨fun h => absurd h ?_, fun h => absurd (h.trans_le h2) (not_lt.2 h3)⟩
    rw [add_mul, one_mul]
    omega
  · -- At the highest exponent the carry alone overflows.
    rw [show (e : ℤ) + 1 - 2 * FltTy.bias t = 0 by omega, zpow_zero, mul_one, Nat.cast_lt, ← heq]
    rw [show (e + 1 + 1) * F = e * F + F * 2 by ring]
    omega
  · -- Above it every pattern overflows.
    have hge := he (by omega)
    have h1 : (2 * FltTy.bias t + 1) * F ≤ e * F + k := by
      have : (2 * FltTy.bias t) * F ≤ e * F := Nat.mul_le_mul_right F (by omega)
      rw [add_mul, one_mul]
      omega
    refine iff_of_true h1 ?_
    have hz : (2 : ℚ) ^ (1 : ℤ) ≤ 2 ^ ((e : ℤ) + 1 - 2 * FltTy.bias t) := zpow_le_zpow_right₀ one_le_two (by omega)
    have hk' : (F : ℚ) ≤ k := by exact_mod_cast hge
    calc ((F * 2 - 1 : Nat) : ℚ) < F * 2 := by exact_mod_cast (by omega : F * 2 - 1 < F * 2)
      _ = F * 2 ^ (1 : ℤ) := by norm_num
      _ ≤ k * 2 ^ ((e : ℤ) + 1 - 2 * FltTy.bias t) := by gcongr

/-- R42: a magnitude is tiny after rounding exactly where it rounds below the normal range with the exponent unbounded. -/
theorem tiny_iff {t : FltTy} {r : Rnd} {neg : Bool} {u j : Nat} {v : ℚ} {e0 : ℤ} (hlo : 2 ^ e0 ≤ |v|)
    (hhi : |v| < 2 ^ (e0 + 1)) (h : Nearest r neg u (|v| / 2 ^ (e0 - FltTy.frac t : ℤ)) j) :
    (decide (e0 < FltTy.emin t) && !(decide (e0 = FltTy.emin t - 1) && decide (2 ^ (FltTy.frac t + 1) ≤ j))) = true ↔
      (j : ℚ) * 2 ^ (e0 - FltTy.frac t : ℤ) < 2 ^ FltTy.emin t := by
  have hj1 : 2 ^ FltTy.frac t ≤ j := two_pow_le_nearest h (by rwa [add_sub_cancel])
  have hj2 : j ≤ 2 ^ (FltTy.frac t + 1) := nearest_le_two_pow h (hhi.le.trans_eq (by push_cast; ring_nf))
  have hlow : ((2 ^ FltTy.frac t : Nat) : ℚ) * 2 ^ (e0 - FltTy.frac t : ℤ) = 2 ^ e0 := by
    rw [two_pow_mul_zpow, add_sub_cancel]
  have hhigh : ((2 ^ (FltTy.frac t + 1) : Nat) : ℚ) * 2 ^ (e0 - FltTy.frac t : ℤ) = 2 ^ (e0 + 1) := by
    rw [two_pow_mul_zpow]
    push_cast
    ring_nf
  have hunit : (0 : ℚ) < 2 ^ (e0 - FltTy.frac t : ℤ) := by positivity
  have hge : (2 : ℚ) ^ e0 ≤ j * 2 ^ (e0 - FltTy.frac t : ℤ) :=
    hlow ▸ mul_le_mul_of_nonneg_right (Nat.cast_le.2 hj1) hunit.le
  have hle : (j : ℚ) * 2 ^ (e0 - FltTy.frac t : ℤ) ≤ 2 ^ (e0 + 1) :=
    hhigh ▸ mul_le_mul_of_nonneg_right (Nat.cast_le.2 hj2) hunit.le
  rcases lt_trichotomy e0 (FltTy.emin t - 1) with hlt | heq | hgt
  · refine iff_of_true ?_ (hle.trans_lt (zpow_lt_zpow_right₀ one_lt_two (by omega)))
    simp [show e0 < FltTy.emin t by omega, hlt.ne]
  · rw [show FltTy.emin t = e0 + 1 by omega, ← hhigh, mul_lt_mul_iff_left₀ hunit, Nat.cast_lt]
    simp
  · refine iff_of_false ?_ (not_lt.2 ((zpow_le_zpow_right₀ one_le_two (by omega)).trans hge))
    simp [show ¬ e0 < FltTy.emin t by omega]

/-- A rounded magnitude fills at most the units of a normal number, and one above the lowest exponent fills them. -/
theorem rounded_units {t : FltTy} {r : Rnd} {neg : Bool} {u k : Nat} {v : ℚ} {e0 : ℤ} (hlo : 2 ^ e0 ≤ |v|)
    (hhi : |v| < 2 ^ (e0 + 1)) (h : Nearest r neg u (|v| / 2 ^ (max e0 (FltTy.emin t) - FltTy.frac t)) k) :
    k ≤ 2 ^ (FltTy.frac t + 1) ∧ ((max e0 (FltTy.emin t) - FltTy.emin t).toNat ≠ 0 → 2 ^ FltTy.frac t ≤ k) := by
  refine ⟨nearest_le_two_pow h (hhi.le.trans (zpow_le_zpow_right₀ one_le_two ?_)), fun hn => ?_⟩
  · have := le_max_left e0 (FltTy.emin t)
    push_cast
    linarith
  · have hmax : max e0 (FltTy.emin t) = e0 := by omega
    rw [hmax] at h
    exact two_pow_le_nearest h (by rwa [add_sub_cancel])

/-- R42, R47 to R50: the model rounds an exact magnitude once to its format, with its flags. -/
theorem roundFlt_rounds {t : FltTy} {r : Rnd} {sat : Bool} {u q : Nat} {x : ℤ} {v : ℚ} (hv : |v| = q * 2 ^ x) (h0 : v ≠ 0) :
    RoundsTo t r sat u v (roundFlt t r sat u (decide (v < 0)) { q := q, x := x, sticky := false }) := by
  intro e0 k j hlo hhi emin unit neg got free largest hk hj
  have hq : q ≠ 0 := by
    rintro rfl
    exact h0 (by simpa using hv)
  obtain ⟨hkeep, hinx⟩ := cut_nearest (w := |v| / 2 ^ unit) (by rw [hv]) hk
  obtain ⟨hfree, -⟩ := cut_nearest (w := |v| / 2 ^ (e0 - FltTy.frac t : ℤ)) (by rw [hv]) hj
  have heq := roundFlt_eq (sat := sat) (exponent_of_bitLen hq (hv ▸ hlo) (hv ▸ hhi)) hkeep hinx hfree
  obtain ⟨hk2, hk1⟩ := rounded_units hlo hhi hk
  set e : Nat := (max e0 (FltTy.emin t) - FltTy.emin t).toNat
  have he : (e : ℤ) = max e0 (FltTy.emin t) - FltTy.emin t :=
    Int.toNat_of_nonneg (sub_nonneg.2 (le_max_right _ _))
  have hgot : (k : ℚ) * 2 ^ ((e : ℤ) + 1 - FltTy.bias t - FltTy.frac t) = got := by
    rw [he]
    simp only [FltTy.emin, got, unit, emin]
    ring_nf
  have hover := pattern_overflows_iff t hk2 hk1
  have hmag := magOf_pattern t hk2 hk1
  rw [hgot] at hover hmag
  have hne : ((k : ℚ) ≠ |v| / 2 ^ unit) ↔ got ≠ |v| := not_congr (eq_div_iff (by positivity))
  rw [heq]
  refine ⟨fun h => ?_, fun h => ?_⟩
  · simp only [if_pos (hover.2 h), overflowed_eq]
    trivial
  · have hp := hover.not.2 (not_lt.2 h)
    have hlt : e * 2 ^ FltTy.frac t + k < 2 ^ (FltTy.exp t + FltTy.frac t) := by
      have := Nat.mul_le_mul_right (2 ^ FltTy.frac t) (expMax_lt t).le
      rw [pow_add]
      omega
    simp only [if_neg hp]
    refine ⟨?_, signBit_signed t neg hlt, by rw [abs_ratOf_signed t neg hlt, hmag], width_signed t neg hlt, ?_⟩
    · rw [finite, expField_signed t neg hlt]
      exact (Nat.div_lt_iff_lt_mul (by positivity)).2 (not_le.1 hp)
    · have htiny := tiny_iff hlo hhi hj
      have hunf : (decide ((k : ℚ) ≠ |v| / 2 ^ unit) && (decide (e0 < FltTy.emin t) &&
          !(decide (e0 = FltTy.emin t - 1) && decide (2 ^ (FltTy.frac t + 1) ≤ j)))) =
          decide (got ≠ |v| ∧ free < 2 ^ emin) := by
        rw [Bool.eq_iff_iff, Bool.and_eq_true, decide_eq_true_eq, decide_eq_true_eq, hne, htiny]
        exact Iff.rfl
      rw [hunf, decide_eq_decide.2 hne]

end Sys2Proof.Machine
end

section
/-! SUPPORT. The exact values that conversions, block elements and their products round (R40, R43, R44, R51), and the width of
every rounded pattern. -/

namespace Sys2Proof.Machine

open Sys2Proof Sys2Proof.Claims

/-! ### Exact values -/

theorem bit_eq_testBit (w i : Nat) : bit w i = w.testBit i := by
  rw [bit, Nat.testBit_eq_decide_div_mod_eq, beq_eq_decide]

theorem signedOf_eq_zero {n : Bool} {m : Nat} : signedOf n m = 0 ↔ m = 0 := by
  cases n <;> simp [signedOf]

theorem cast_signedOf (n : Bool) (m : Nat) : ((signedOf n m : ℤ) : ℚ) = if n = true then -(m : ℚ) else m := by
  cases n <;> simp [signedOf]

/-- The exact value of a finite number; 0 for a NaN or an infinity, which have none. -/
def FVal.rat : FVal → ℚ
  | .fin n m e => signedOf n m * 2 ^ e
  | .nan _ | .inf _ => 0

section
variable {n : Bool} {m : Nat} {e : ℤ}

theorem rat_eq_zero : (FVal.fin n m e).rat = 0 ↔ m = 0 := by
  rw [FVal.rat, mul_eq_zero, Int.cast_eq_zero, signedOf_eq_zero]
  exact or_iff_left (by positivity)

theorem abs_rat : |(FVal.fin n m e).rat| = m * 2 ^ e := by
  have hp : (0 : ℚ) < 2 ^ e := by positivity
  rw [FVal.rat, abs_mul, abs_of_pos hp, cast_signedOf]
  cases n <;> simp

theorem rat_neg_iff : (FVal.fin n m e).rat < 0 ↔ n = true ∧ m ≠ 0 := by
  have hp : (0 : ℚ) < 2 ^ e := by positivity
  rw [FVal.rat, mul_neg_iff, cast_signedOf]
  cases n <;> simp [hp, hp.le, Nat.pos_iff_ne_zero]

end

/-- A finite pattern is a signed whole number of units, and its value that of R40. -/
theorem fVal_of_finite {t : FltTy} {a : Nat} (h : finite t a) :
    ∃ m e, fVal t a = .fin (signBit t a) m e ∧ (fVal t a).rat = ratOf t a := by
  have hex : a / 2 ^ FltTy.frac t % 2 ^ FltTy.exp t ≠ FltTy.expMax t := by
    unfold finite expField at h
    exact h.ne
  have hsign : bit a (FltTy.frac t + FltTy.exp t) = signBit t a := by rw [bit_eq_testBit, signBit, add_comm]
  unfold fVal ratOf
  simp only [if_neg hex, hsign, show expField t a = a / 2 ^ FltTy.frac t % 2 ^ FltTy.exp t from rfl]
  generalize a / 2 ^ FltTy.frac t % 2 ^ FltTy.exp t = ex
  generalize a % 2 ^ FltTy.frac t = fr
  split
  · refine ⟨_, _, rfl, ?_⟩
    rw [FVal.rat, zpow_sub₀ two_ne_zero, zpow_natCast, cast_signedOf]
    split
    · ring
    · ring
  · refine ⟨_, _, rfl, ?_⟩
    rw [FVal.rat, zpow_sub₀ two_ne_zero, zpow_natCast, cast_signedOf]
    push_cast
    split
    · field_simp
    · field_simp

/-- A value by its sign and its magnitude. -/
theorem ratOf_eq_abs (t : FltTy) (b : Nat) : ratOf t b = if signBit t b = true then -|ratOf t b| else |ratOf t b| := by
  obtain ⟨m, hm, h⟩ : ∃ m : ℚ, 0 ≤ m ∧ ratOf t b = if signBit t b = true then -m else m :=
    ⟨_, by split <;> positivity, rfl⟩
  rw [h]
  split <;> simp [abs_of_nonneg hm]

/-- An exact zero takes the sign given and sets no flag. -/
theorem roundExact_zero (t : FltTy) (r : Rnd) (sat : Bool) (u : Nat) (z : Bool) {i : ℤ} (e : ℤ) (hi : i = 0) :
    roundExact t r sat u z i e = { val := fZero t z, fl := fNone } := if_pos hi

/-- R42, R47 to R50: an exact value that is not zero is rounded once. -/
theorem roundExact_rounds (t : FltTy) (r : Rnd) (sat : Bool) (u : Nat) (z : Bool) {i e : ℤ} {v : ℚ} (hv : i * 2 ^ e = v)
    (h0 : v ≠ 0) : RoundsTo t r sat u v (roundExact t r sat u z i e) := by
  have hi : i ≠ 0 := by
    rintro rfl
    exact h0 (by simpa using hv.symm)
  have hp : (0 : ℚ) < 2 ^ e := by positivity
  have hneg : v < 0 ↔ i < 0 := by
    rw [← hv, mul_neg_iff]
    simp [hp, hp.le]
  rw [roundExact, if_neg hi, ← decide_eq_decide.2 hneg]
  refine roundFlt_rounds ?_ h0
  rw [← hv, abs_mul, abs_of_pos hp, Nat.cast_natAbs, Int.cast_abs]

/-- A value that the format holds is the result of its rounding, without a flag. -/
theorem roundsTo_exact {t : FltTy} {r : Rnd} {sat : Bool} {u p : Nat} {x : ℤ} {v : ℚ} {res : Res Nat}
    (h : RoundsTo t r sat u v res) (h0 : v ≠ 0) (hv : |v| = p * 2 ^ x) (hp : p < 2 ^ (FltTy.frac t + 1))
    (hx : FltTy.emin t - FltTy.frac t ≤ x) (hl : |v| ≤ FltTy.largest t) : res.fl = fNone ∧ ratOf t res.val = v := by
  have hpos : 0 < |v| := abs_pos.2 h0
  have hlo : (2 : ℚ) ^ Int.log 2 |v| ≤ |v| := by exact_mod_cast Int.zpow_log_le_self (b := 2) one_lt_two hpos
  have hhi : |v| < (2 : ℚ) ^ (Int.log 2 |v| + 1) := by exact_mod_cast Int.lt_zpow_succ_log_self (b := 2) one_lt_two |v|
  have hp' : (p : ℚ) < 2 ^ ((FltTy.frac t : ℤ) + 1) := by exact_mod_cast hp
  have hlog : Int.log 2 |v| < FltTy.frac t + 1 + x := by
    rw [← zpow_lt_zpow_iff_right₀ (one_lt_two (α := ℚ)), zpow_add₀ two_ne_zero]
    refine hlo.trans_lt (hv ▸ ?_)
    gcongr
  -- At a unit not above `2^x` the magnitude is a whole number of units.
  have whole : ∀ y ≤ x, ((p * 2 ^ (x - y).toNat : Nat) : ℚ) * 2 ^ y = |v| := by
    intro y hy
    rw [hv, Nat.cast_mul, Nat.cast_pow, Nat.cast_two, ← zpow_natCast, Int.toNat_of_nonneg (by omega), mul_assoc,
      ← zpow_add₀ two_ne_zero]
    ring_nf
  have hnear : ∀ y ≤ x, Nearest r (decide (v < 0)) u (|v| / 2 ^ y) (p * 2 ^ (x - y).toNat) := by
    intro y hy
    rw [← whole y hy, mul_div_cancel_right₀ _ (by positivity)]
    exact nearest_self _ _ _ _
  have hunit : max (Int.log 2 |v|) (1 - FltTy.bias t) - FltTy.frac t ≤ x := by
    rcases max_choice (Int.log 2 |v|) (1 - FltTy.bias t) with hm | hm
    · omega
    · rw [hm]
      exact hx
  have hgot := whole _ hunit
  obtain ⟨-, hres⟩ := h _ _ _ hlo hhi (hnear _ hunit) (hnear (Int.log 2 |v| - FltTy.frac t) (by omega))
  obtain ⟨-, hsign, habs, -, hfl⟩ := hres (hgot.le.trans hl)
  constructor
  · rw [hfl, decide_eq_false (not_not.2 hgot), decide_eq_false fun hn => hn.1 hgot]
    rfl
  · rw [ratOf_eq_abs, habs, hgot, hsign]
    rcases lt_or_ge v 0 with hneg | hpos
    · rw [if_pos (decide_eq_true hneg), abs_of_neg hneg, neg_neg]
    · rw [if_neg (by simpa using hpos), abs_of_nonneg hpos]

/-! ### The width of a rounded pattern -/

section
variable (t : FltTy)

theorem fZero_lt (neg : Bool) : fZero t neg < 2 ^ FltTy.width t := width_signed t neg (p := 0) (by positivity)

theorem fInf_lt (neg : Bool) : fInf t neg < 2 ^ FltTy.width t := by
  refine width_signed t neg (p := FltTy.expMax t * 2 ^ FltTy.frac t) ?_
  rw [pow_add]
  exact Nat.mul_lt_mul_of_pos_right (expMax_lt t) (by positivity)

theorem fNaN_lt : fNaN t < 2 ^ FltTy.width t := by cases t <;> decide

theorem overflowed_lt (r : Rnd) (sat neg : Bool) : overflowed t r sat neg < 2 ^ FltTy.width t := by
  have := fInf_lt t neg
  rw [overflowed_eq]
  split <;> omega

theorem roundFlt_lt (r : Rnd) (sat : Bool) (u : Nat) (neg : Bool) (m : Mag) :
    (roundFlt t r sat u neg m).val < 2 ^ FltTy.width t := by
  unfold roundFlt
  dsimp only
  split
  · exact overflowed_lt t r sat neg
  next hp =>
    refine width_signed t neg ((not_le.1 hp).trans ?_)
    rw [pow_add]
    exact Nat.mul_lt_mul_of_pos_right (expMax_lt t) (by positivity)

theorem roundExact_lt (r : Rnd) (sat : Bool) (u : Nat) (z : Bool) (i e : ℤ) :
    (roundExact t r sat u z i e).val < 2 ^ FltTy.width t := by
  unfold roundExact
  split
  · exact fZero_lt t z
  · exact roundFlt_lt t _ _ _ _ _

theorem toFlt_lt (r : Rnd) (sat : Bool) (u : Nat) (v : FVal) : (toFlt t r sat u v).val < 2 ^ FltTy.width t := by
  cases v with
  | nan s => exact fNaN_lt t
  | inf n => exact fInf_lt t n
  | fin n m e => exact roundExact_lt t _ _ _ _ _ _

end

end Sys2Proof.Machine
end

section
/-! SUPPORT. The conversions of one value between integers and floats (R39, R41, R51, R137). -/

namespace Sys2Proof.Machine

open Sys2Proof Sys2Proof.Claims

/-! ### Integers (R39, R130) -/

theorem intRange_eq (t : IntTy) : intRange (IntTy.signed t) (IntTy.bits t) = (lo t, hi t) := by
  cases t <;> simp [intRange, lo, hi, IntTy.signed, IntTy.bits]

theorem hi_sub_lo (t : IntTy) : hi t - lo t + 1 = 2 ^ IntTy.bits t := by
  cases t <;> simp [lo, hi, IntTy.signed, IntTy.bits]

/-- Wrapping gives the value of the range that is congruent to the exact one. -/
theorem wrapInt_spec (t : IntTy) (e : ℤ) : lo t ≤ wrapInt (lo t) (hi t) e ∧ wrapInt (lo t) (hi t) e ≤ hi t ∧
    (wrapInt (lo t) (hi t) e - e) % 2 ^ IntTy.bits t = 0 := by
  have hsize := hi_sub_lo t
  have hpos : (0 : ℤ) < 2 ^ IntTy.bits t := by positivity
  have h1 := Int.emod_nonneg (e - lo t) hpos.ne'
  have h2 := Int.emod_lt_of_pos (e - lo t) hpos
  rw [wrapInt, hsize]
  refine ⟨by omega, by omega, Int.emod_eq_zero_of_dvd ⟨-((e - lo t) / 2 ^ IntTy.bits t), ?_⟩⟩
  linarith [Int.emod_add_mul_ediv (e - lo t) (2 ^ IntTy.bits t)]

/-- Narrowing clamps under .sat, and sets sat where it clamps; else it wraps (R130). -/
theorem narrowInt_spec (t : IntTy) (sat : Bool) (e : ℤ) :
    Narrowed t sat e (narrowInt (IntTy.signed t) (IntTy.bits t) sat e).val ∧
      (narrowInt (IntTy.signed t) (IntTy.bits t) sat e).fl = flagIf (sat && decide (e < lo t ∨ hi t < e)) fSat := by
  unfold narrowInt Narrowed
  simp only [intRange_eq, Bool.and_eq_true, decide_eq_true_eq]
  by_cases hlo : sat = true ∧ e < lo t
  · simp [hlo.1, hlo.2, flagIf]
  · rw [if_neg hlo, if_neg hlo]
    by_cases hhi : sat = true ∧ hi t < e
    · simp [hhi.1, hhi.2, flagIf]
    · rw [if_neg hhi, if_neg hhi]
      refine ⟨wrapInt_spec t e, ?_⟩
      have hnone : (sat && decide (e < lo t ∨ hi t < e)) = false := by
        cases sat
        · rfl
        · exact decide_eq_false fun h => h.elim (fun h => hlo ⟨rfl, h⟩) fun h => hhi ⟨rfl, h⟩
      rw [hnone]
      rfl

/-! ### Floats to integers (R51) -/

/-- A rounded magnitude with the sign of its pattern: a zero has none. -/
theorem nearest_signed {r : Rnd} {n : Bool} {u m k : Nat} {A w : ℚ} (hA : A < 0 ↔ n = true ∧ m ≠ 0) (hw : m = 0 → w = 0)
    (h : Nearest r (decide (A < 0)) u w k) :
    Nearest r n u w k ∧ (if A < 0 then -(k : ℤ) else k) = signedOf n k := by
  by_cases hm : m = 0
  · have hA' : ¬ A < 0 := fun ha => (hA.1 ha).2 hm
    have hw : w = (0 : Nat) := by rw [hw hm, Nat.cast_zero]
    subst hw
    obtain rfl := nearest_whole h
    exact ⟨nearest_self _ _ _ _, by rw [if_neg hA']; cases n <;> rfl⟩
  · cases n
    · have hA' : ¬ A < 0 := fun ha => Bool.false_ne_true (hA.1 ha).1
      rw [decide_eq_false hA'] at h
      exact ⟨h, if_neg hA'⟩
    · have hA' : A < 0 := hA.2 ⟨rfl, hm⟩
      rw [decide_eq_true hA'] at h
      exact ⟨h, if_pos hA'⟩

/-- A power of two by its two halves as natural numbers. -/
theorem zpow_eq_toNat_div (e : ℤ) : (2 : ℚ) ^ e = (2 ^ e.toNat : Nat) / (2 ^ (-e).toNat : Nat) := by
  rw [Nat.cast_pow, Nat.cast_pow, Nat.cast_two, ← zpow_natCast, ← zpow_natCast, ← zpow_sub₀ two_ne_zero]
  congr 1
  omega

/-- The whole part of a finite value in the model: exact for whole units, a rounded quotient below. -/
theorem whole_nearest {r : Rnd} {n : Bool} {u m k : Nat} {e : ℤ} (h : Nearest r n u (m * 2 ^ e : ℚ) k) :
    (if 0 ≤ e then (m * 2 ^ e.toNat, false) else roundQuot r n u m (2 ^ (-e).toNat)) =
      (k, decide ((k : ℚ) ≠ m * 2 ^ e)) := by
  split
  next he =>
    have hw : (m * 2 ^ e : ℚ) = (m * 2 ^ e.toNat : Nat) := by
      rw [zpow_eq_toNat_div, Int.toNat_of_nonpos (by omega : -e ≤ 0)]
      push_cast
      ring
    rw [hw] at h ⊢
    obtain rfl := nearest_whole h
    simp
  next he =>
    have hw : (m * 2 ^ e : ℚ) = m / (2 ^ (-e).toNat : Nat) := by
      rw [zpow_eq_toNat_div, Int.toNat_of_nonpos (by omega : e ≤ 0), pow_zero, Nat.cast_one, mul_one_div]
    rw [hw] at h ⊢
    exact roundQuot_nearest (by positivity) h

theorem cvtFI_finite {f : FltTy} {it : IntTy} {r : Rnd} {u a k : Nat} (h : finite f a)
    (hk : Nearest r (decide (ratOf f a < 0)) u |ratOf f a| k) :
    let v : ℤ := if ratOf f a < 0 then -(k : ℤ) else k
    cvtFI f (IntTy.signed it) (IntTy.bits it) r u a =
      if v < lo it then { val := lo it, fl := fInv } else if hi it < v then { val := hi it, fl := fInv }
      else { val := v, fl := flagIf (decide ((k : ℚ) ≠ |ratOf f a|)) fInx } := by
  intro v
  obtain ⟨m, e, hval, hrat⟩ := fVal_of_finite h
  rw [hval] at hrat
  have hA : ratOf f a < 0 ↔ signBit f a = true ∧ m ≠ 0 := hrat ▸ rat_neg_iff
  have habs : |ratOf f a| = m * 2 ^ e := hrat ▸ abs_rat
  obtain ⟨hnear, hv⟩ := nearest_signed (m := m) hA (fun hm => by rw [habs, hm]; simp) hk
  rw [habs] at hnear ⊢
  have hv : v = signedOf (signBit f a) k := hv
  simp only [cvtFI, intRange_eq, hval, whole_nearest hnear, hv]

theorem conversionsOfValues : ConversionsOfValues := by
  unfold ConversionsOfValues
  refine ⟨fun it sat i => narrowInt_spec it sat i, fun d r sat u i => ⟨fun hi => ?_, ?_⟩,
    fun f d r sat u a => ⟨fun hf => ?_, fun n hv => ?_, fun q hv => ?_⟩,
    fun f it r u a k => ⟨fun hf hk => ?_, fun n hv => ?_, fun q hv => ?_⟩⟩
  · exact roundExact_rounds d r sat u false (by simp) (by exact_mod_cast hi)
  · rw [cvtIF, roundExact_zero d r sat u false 0 rfl]
    simp [fZero, bitN]
  · obtain ⟨m, e, hval, hrat⟩ := fVal_of_finite hf
    rw [cvtFF, hval]
    rw [hval] at hrat
    exact ⟨fun h0 => roundExact_rounds d r sat u _ hrat h0,
      fun h0 => roundExact_zero d r sat u _ e (signedOf_eq_zero.2 (rat_eq_zero.1 (hrat.trans h0)))⟩
  · rw [cvtFF, hv]
    rfl
  · rw [cvtFF, hv]
    cases q <;> rfl
  · have heq := cvtFI_finite (it := it) hf hk
    refine ⟨fun h => heq.trans (if_pos h), fun h => heq.trans ?_, fun h h' => heq.trans ?_⟩
    · have hle : lo it ≤ hi it := by cases it <;> decide
      exact (if_neg (by linarith)).trans (if_pos h)
    · exact (if_neg (by linarith)).trans (if_neg (by linarith))
  · simp only [cvtFI, hv, intRange_eq]
  · simp only [cvtFI, hv]

end Sys2Proof.Machine
end

section
/-! SUPPORT. Block elements: their values, products and sums, each rounded once (R43, R44, R51, R141 to R144). -/

namespace Sys2Proof.Machine

open Sys2Proof Sys2Proof.Claims

/-! ### The value of a block element (R43, R44) -/

theorem scaleE_le (sc : Nat) : scaleE sc ≤ 255 := by unfold scaleE; omega

theorem scaleF_le (sc : Nat) : scaleF sc ≤ 255 := by unfold scaleF; omega

/-- A mantissa of `w` bits lies within half of its range on each side. -/
theorem natAbs_mantOf_le {w : Nat} (hw : w ≠ 0) (n : Nat) : (mantOf w n).natAbs ≤ 2 ^ (w - 1) := by
  obtain ⟨k, rfl⟩ := Nat.exists_eq_succ_of_ne_zero hw
  have hlt : n % 2 ^ (k + 1) < 2 ^ (k + 1) := Nat.mod_lt n (by positivity)
  simp only [mantOf, Nat.succ_eq_add_one, Nat.add_sub_cancel] at *
  rw [pow_succ] at *
  split <;> omega

theorem blkVal_nan {t : BlkTy} {sc : Nat} (m : Nat) (h : scaleE sc = 255) : blkVal t sc m = .nan false := if_pos h

theorem blkVal_zero {t : BlkTy} {sc : Nat} (m : Nat) (h : scaleE sc = 0) : blkVal t sc m = .fin false 0 0 := by
  rw [blkVal, if_neg (by omega), if_pos h]

/-- The units and the exponent of an element of a block that is neither a zero nor a NaN block. -/
theorem blkVal_finite {t : BlkTy} {sc : Nat} (m : Nat) (h0 : 0 < scaleE sc) (h255 : scaleE sc < 255) :
    blkVal t sc m = .fin (decide (mantOf (BlkTy.w t) m < 0)) ((mantOf (BlkTy.w t) m).natAbs * (256 + scaleF sc))
      ((scaleE sc : ℤ) - 127 - 8 - ((BlkTy.w t : ℤ) - 1)) := by
  rw [blkVal, if_neg (by omega), if_neg (by omega)]

theorem blkWidth_ne_zero (t : BlkTy) : BlkTy.w t ≠ 0 := by cases t <;> decide

theorem signedOf_mul_natAbs (i : ℤ) (n : Nat) : signedOf (decide (i < 0)) (i.natAbs * n) = i * n := by
  unfold signedOf
  split
  next h => push_cast; rw [abs_of_neg (by simpa using h)]; ring
  next h => push_cast; rw [abs_of_nonneg (by simpa using h)]

theorem rat_blkVal {t : BlkTy} {sc : Nat} (m : Nat) (h0 : 0 < scaleE sc) (h255 : scaleE sc < 255) :
    (blkVal t sc m).rat = blkRat t sc m := by
  have hw : ((BlkTy.w t : ℤ) - 1) = ((BlkTy.w t - 1 : Nat) : ℤ) := by have := blkWidth_ne_zero t; omega
  rw [blkVal_finite m h0 h255, FVal.rat, signedOf_mul_natAbs, blkRat, hw, zpow_sub₀ two_ne_zero, zpow_sub₀ two_ne_zero,
    zpow_natCast]
  push_cast
  field_simp

/-! ### Blocks to floats (R51, R142) -/

section
variable (t : BlkTy) (d : FltTy) (r : Rnd) (sat : Bool) (u : Nat) {sc : Nat} (m : Nat)

theorem dequantVal_nan (h : scaleE sc = 255) : dequantVal t d r sat u sc m = { val := fNaN d, fl := fNone } := by
  rw [dequantVal, blkVal_nan m h]
  rfl

theorem fZero_false : fZero d false = 0 := by simp [fZero, bitN]

theorem dequantVal_zero (h : scaleE sc = 0 ∨ (scaleE sc < 255 ∧ blkRat t sc m = 0)) :
    dequantVal t d r sat u sc m = { val := 0, fl := fNone } := by
  rcases Nat.eq_zero_or_pos (scaleE sc) with h0 | h0
  · rw [dequantVal, blkVal_zero m h0]
    exact (roundExact_zero d r sat u false _ rfl).trans (by rw [fZero_false])
  · obtain ⟨h255, hv⟩ := h.resolve_left h0.ne'
    rw [← rat_blkVal m h0 h255, blkVal_finite m h0 h255, rat_eq_zero] at hv
    rw [dequantVal, blkVal_finite m h0 h255]
    exact (roundExact_zero d r sat u false _ (signedOf_eq_zero.2 hv)).trans (by rw [fZero_false])

theorem dequantVal_rounds (h0 : 0 < scaleE sc) (h255 : scaleE sc < 255) (hv : blkRat t sc m ≠ 0) :
    RoundsTo d r sat u (blkRat t sc m) (dequantVal t d r sat u sc m) := by
  have hrat := rat_blkVal (t := t) m h0 h255
  rw [blkVal_finite m h0 h255] at hrat
  rw [dequantVal, blkVal_finite m h0 h255]
  exact roundExact_rounds d r sat u false hrat hv

/-- The units of a block element fill at most sixteen bits. -/
theorem blkUnits_lt : (mantOf (BlkTy.w t) m).natAbs * (256 + scaleF sc) < 2 ^ 16 := by
  have h1 := natAbs_mantOf_le (blkWidth_ne_zero t) m
  have h2 : 2 ^ (BlkTy.w t - 1) ≤ 2 ^ 7 := Nat.pow_le_pow_right two_pos (by cases t <;> decide)
  have h3 := scaleF_le sc
  calc _ ≤ 2 ^ 7 * 511 := Nat.mul_le_mul (h1.trans h2) (by omega)
    _ < _ := by norm_num

/-- No block element lies above `511 × 2^119`. -/
theorem abs_blkRat_le (h255 : scaleE sc < 255) : |blkRat t sc m| ≤ 511 * 2 ^ 119 := by
  have hM : (|mantOf (BlkTy.w t) m| : ℚ) / 2 ^ (BlkTy.w t - 1) ≤ 1 := by
    rw [div_le_one (by positivity)]
    have := natAbs_mantOf_le (blkWidth_ne_zero t) m
    rw [← Int.cast_abs, Int.abs_eq_natAbs]
    exact_mod_cast this
  have hF : (scaleF sc : ℚ) ≤ 255 := by exact_mod_cast scaleF_le sc
  have hE : (2 : ℚ) ^ (scaleE sc - 127 : ℤ) ≤ 2 ^ (127 : ℤ) := zpow_le_zpow_right₀ one_le_two (by omega)
  have hpos : (0 : ℚ) < 2 ^ (scaleE sc - 127 : ℤ) := by positivity
  rw [blkRat, mul_div_assoc, abs_mul, abs_mul, abs_of_pos hpos, abs_of_nonneg (by positivity), abs_div,
    abs_of_pos (by positivity : (0 : ℚ) < 2 ^ (BlkTy.w t - 1))]
  calc (2 : ℚ) ^ (scaleE sc - 127 : ℤ) * (1 + scaleF sc / 256) * ((|mantOf (BlkTy.w t) m| : ℚ) / 2 ^ (BlkTy.w t - 1))
      ≤ 2 ^ (127 : ℤ) * (1 + 255 / 256) * 1 := by gcongr
    _ = 511 * 2 ^ 119 := by norm_num

theorem block_le_largest (hd : d = .f32 ∨ d = .f64) : 511 * 2 ^ 119 ≤ FltTy.largest d := by
  have hf : 8 ≤ FltTy.frac d ∧ 127 ≤ FltTy.bias d := by rcases hd with rfl | rfl <;> decide
  have hz : (2 : ℚ) ^ (-FltTy.frac d : ℤ) ≤ 2 ^ (-8 : ℤ) := zpow_le_zpow_right₀ one_le_two (by omega)
  have hp : (2 : ℚ) ^ 127 ≤ 2 ^ FltTy.bias d := pow_le_pow_right₀ one_le_two hf.2
  have h8 : (2 : ℚ) ^ (-8 : ℤ) = 1 / 256 := by norm_num
  calc (511 : ℚ) * 2 ^ 119 = (2 - 2 ^ (-8 : ℤ)) * 2 ^ 127 := by rw [h8]; norm_num
    _ ≤ FltTy.largest d := mul_le_mul (by linarith) hp (by positivity) (by rw [h8] at hz; linarith)

/-- A dequantisation to binary32 or binary64 is exact (R142). -/
theorem dequantVal_exact (h0 : 0 < scaleE sc) (h255 : scaleE sc < 255) (hv : blkRat t sc m ≠ 0)
    (hd : d = .f32 ∨ d = .f64) : (dequantVal t d r sat u sc m).fl = fNone ∧
      ratOf d (dequantVal t d r sat u sc m).val = blkRat t sc m := by
  have habs := abs_rat (n := decide (mantOf (BlkTy.w t) m < 0))
    (m := (mantOf (BlkTy.w t) m).natAbs * (256 + scaleF sc)) (e := (scaleE sc : ℤ) - 127 - 8 - ((BlkTy.w t : ℤ) - 1))
  rw [← blkVal_finite m h0 h255, rat_blkVal m h0 h255] at habs
  have hw : (BlkTy.w t : ℤ) ≤ 8 := by cases t <;> decide
  refine roundsTo_exact (dequantVal_rounds t d r sat u m h0 h255 hv) hv habs ((blkUnits_lt t m).trans_le ?_) ?_
    ((abs_blkRat_le t m h255).trans (block_le_largest d hd))
  · rcases hd with rfl | rfl <;> decide
  · rcases hd with rfl | rfl <;> simp only [FltTy.emin, FltTy.bias, FltTy.frac] <;> push_cast <;> omega

end

/-! ### Floats to blocks (R141) -/

section
variable {t : BlkTy} {f : FltTy} {r : Rnd} {u sc a : Nat}

theorem quantVal_nan (h : scaleE sc = 255 ∨ ∃ q, fVal f a = .nan q) :
    quantVal t f r u sc a = { val := { m := 0, fwd := 0xFF00 }, fl := flagIf (fVal f a).isSnan fInv } := by
  refine if_pos (h.imp_right ?_)
  rintro ⟨q, hq⟩
  rw [hq]
  rfl

theorem isNan_eq_false {v : FVal} (h : ∀ q, v ≠ .nan q) : v.isNan = false := by
  cases v with
  | nan q => exact absurd rfl (h q)
  | inf n => rfl
  | fin n m e => rfl

theorem quantVal_zero (h0 : scaleE sc = 0) (h : ∀ q, fVal f a ≠ .nan q) :
    quantVal t f r u sc a = { val := { m := 0, fwd := 0 }, fl := flagIf (!(fVal f a).isZero) fInx } := by
  rw [quantVal]
  exact (if_neg (by simp [h0, isNan_eq_false h])).trans (if_pos h0)

/-- The greatest mantissa of a block format. -/
def topOf (t : BlkTy) : ℤ := 2 ^ (BlkTy.w t - 1) - 1

theorem quantVal_inf {n : Bool} (h0 : 0 < scaleE sc) (h255 : scaleE sc < 255) (h : fVal f a = .inf n) :
    quantVal t f r u sc a =
      { val := { m := if n then -topOf t - 1 else topOf t, fwd := sc }, fl := fSat ||| fInx } := by
  have hlo : -topOf t - 1 = -((2 ^ (BlkTy.w t - 1) : Nat) : ℤ) := by rw [topOf]; push_cast; ring
  have hhi : topOf t = ((2 ^ (BlkTy.w t - 1) : Nat) : ℤ) - 1 := by rw [topOf]; push_cast; rfl
  rw [quantVal, h, hlo, hhi]
  exact (if_neg (by simp [h255.ne, FVal.isNan])).trans (if_neg h0.ne')

/-- A finite value in units of a block's lowest mantissa bit. -/
theorem block_units (t : BlkTy) (sc m : Nat) (e : ℤ) :
    let x : ℤ := e + ((BlkTy.w t : ℤ) - 1) - ((scaleE sc : ℤ) - 127) + 8
    ((m * 2 ^ x.toNat : Nat) : ℚ) / ((256 + scaleF sc) * 2 ^ (-x).toNat : Nat) =
      m * 2 ^ e * 2 ^ (BlkTy.w t - 1) / (2 ^ (scaleE sc - 127 : ℤ) * (1 + scaleF sc / 256)) := by
  intro x
  have hw : ((BlkTy.w t : ℤ) - 1) = ((BlkTy.w t - 1 : Nat) : ℤ) := by have := blkWidth_ne_zero t; omega
  have hx : (2 : ℚ) ^ x = 2 ^ e * 2 ^ (BlkTy.w t - 1) / 2 ^ (scaleE sc - 127 : ℤ) * 256 := by
    rw [show x = e + ((BlkTy.w t - 1 : Nat) : ℤ) - (scaleE sc - 127) + 8 by simp only [x, hw], zpow_add₀ two_ne_zero,
      zpow_sub₀ two_ne_zero, zpow_add₀ two_ne_zero, zpow_natCast]
    norm_num
  rw [Nat.cast_mul, Nat.cast_mul, mul_div_mul_comm, ← zpow_eq_toNat_div, hx]
  push_cast
  field_simp

theorem quantVal_finite {k : Nat} (h0 : 0 < scaleE sc) (h255 : scaleE sc < 255) (h : finite f a)
    (hk : Nearest r (decide (ratOf f a < 0)) u
      (|ratOf f a| * 2 ^ (BlkTy.w t - 1) / (2 ^ (scaleE sc - 127 : ℤ) * (1 + scaleF sc / 256))) k) :
    let v : ℤ := if ratOf f a < 0 then -(k : ℤ) else k
    quantVal t f r u sc a =
      if topOf t < v then { val := { m := topOf t, fwd := sc }, fl := fSat ||| fInx }
      else if v < -topOf t - 1 then { val := { m := -topOf t - 1, fwd := sc }, fl := fSat ||| fInx }
      else { val := { m := v, fwd := sc }, fl := flagIf (decide ((k : ℚ) ≠
        |ratOf f a| * 2 ^ (BlkTy.w t - 1) / (2 ^ (scaleE sc - 127 : ℤ) * (1 + scaleF sc / 256)))) fInx } := by
  intro v
  obtain ⟨m, e, hval, hrat⟩ := fVal_of_finite h
  rw [hval] at hrat
  have hA : ratOf f a < 0 ↔ signBit f a = true ∧ m ≠ 0 := hrat ▸ rat_neg_iff
  have habs : |ratOf f a| = m * 2 ^ e := hrat ▸ abs_rat
  obtain ⟨hnear, hv⟩ := nearest_signed (m := m) hA (fun hm => by rw [habs, hm]; simp) hk
  rw [habs, ← block_units t sc m e] at hnear ⊢
  have hv : signedOf (signBit f a) k = v := hv.symm
  have hq := roundQuot_nearest (by positivity) hnear
  have hlo : -((2 ^ (BlkTy.w t - 1) : Nat) : ℤ) = -topOf t - 1 := by rw [topOf]; push_cast; ring
  have hhi : ((2 ^ (BlkTy.w t - 1) : Nat) : ℤ) - 1 = topOf t := by rw [topOf]; push_cast; rfl
  rw [quantVal, hval]
  refine (if_neg (by simp [h255.ne, FVal.isNan])).trans ((if_neg h0.ne').trans ?_)
  simp only [hq, hv, hlo, hhi]

/-- What a quantised element carries fits its fields: a scale of sixteen bits. -/
theorem quantVal_fwd_lt (t : BlkTy) (f : FltTy) (r : Rnd) (u a : Nat) (h : sc < 2 ^ 16) :
    (quantVal t f r u sc a).val.fwd < 2 ^ 16 := by
  unfold quantVal
  dsimp only
  split
  · simp
  split
  · simp
  split
  · simp
  · exact h
  · split_ifs <;> exact h

end

/-! ### Products and sums (R143, R144) -/

section
variable {ta tb : BlkTy} {sa ma sb mb : Nat}

/-- The product of two elements one of which is in a NaN block. -/
theorem blkProd_nan (h : scaleE sa = 255 ∨ scaleE sb = 255) : blkProd ta tb sa ma sb mb = .nan false := by
  unfold blkProd
  rcases h with h | h
  · rw [blkVal_nan ma h]
  · rw [blkVal_nan mb h]
    cases blkVal ta sa ma <;> rfl

/-- The exact product of two elements: zero where one is in a zero block. -/
def prodRat (ta tb : BlkTy) (sa ma sb mb : Nat) : ℚ :=
  if scaleE sa = 0 ∨ scaleE sb = 0 then 0 else blkRat ta sa ma * blkRat tb sb mb

theorem rat_mul (na nb : Bool) (a b : Nat) (ea eb : ℤ) : (FVal.fin (na != nb) (a * b) (ea + eb)).rat =
    (FVal.fin na a ea).rat * (FVal.fin nb b eb).rat := by
  simp only [FVal.rat, cast_signedOf, zpow_add₀ (two_ne_zero (α := ℚ))]
  push_cast
  cases na <;> cases nb <;> simp <;> ring

/-- An element of a block that is no NaN block is a finite value. -/
theorem blkVal_cases {t : BlkTy} {sc : Nat} (m : Nat) (h : scaleE sc ≠ 255) :
    ∃ n q e, blkVal t sc m = .fin n q e ∧ (FVal.fin n q e).rat = if scaleE sc = 0 then 0 else blkRat t sc m := by
  by_cases h0 : scaleE sc = 0
  · exact ⟨_, _, _, blkVal_zero m h0, by rw [if_pos h0, rat_eq_zero]⟩
  · have hle := scaleE_le sc
    have hrat := rat_blkVal (t := t) m (Nat.pos_of_ne_zero h0) (by omega)
    rw [blkVal_finite m (Nat.pos_of_ne_zero h0) (by omega)] at hrat
    exact ⟨_, _, _, blkVal_finite m (Nat.pos_of_ne_zero h0) (by omega), by rw [if_neg h0, hrat]⟩

theorem blkProd_finite (h : ¬ (scaleE sa = 255 ∨ scaleE sb = 255)) :
    ∃ n q e, blkProd ta tb sa ma sb mb = .fin n q e ∧ (FVal.fin n q e).rat = prodRat ta tb sa ma sb mb := by
  obtain ⟨ha, hb⟩ := not_or.1 h
  obtain ⟨na, qa, ea, hva, hra⟩ := blkVal_cases (t := ta) ma ha
  obtain ⟨nb, qb, eb, hvb, hrb⟩ := blkVal_cases (t := tb) mb hb
  refine ⟨na != nb, qa * qb, ea + eb, by rw [blkProd, hva, hvb], ?_⟩
  rw [rat_mul, hra, hrb, prodRat]
  split_ifs <;> simp_all

end

theorem sumDyadic_rat (i e j g : ℤ) :
    ((sumDyadic i e j g).1 : ℚ) * 2 ^ (sumDyadic i e j g).2 = i * 2 ^ e + j * 2 ^ g := by
  have scale : ∀ y, min e g ≤ y → ((2 ^ (y - min e g).toNat : Nat) : ℚ) * 2 ^ min e g = 2 ^ y := by
    intro y hy
    rw [Nat.cast_pow, Nat.cast_two, ← zpow_natCast, Int.toNat_of_nonneg (by omega), ← zpow_add₀ two_ne_zero]
    ring_nf
  simp only [sumDyadic]
  rw [← scale e (min_le_left e g), ← scale g (min_le_right e g)]
  push_cast
  ring

/-- The model's sum of finite values is exact. -/
theorem sumVals_finite {ps : List FVal} (h : ∀ p ∈ ps, ∃ n m e, p = .fin n m e) :
    ∃ s : ℤ × ℤ, sumVals ps = some s ∧ (s.1 : ℚ) * 2 ^ s.2 = (ps.map FVal.rat).sum := by
  induction ps with
  | nil => exact ⟨(0, 0), rfl, by simp⟩
  | cons p ps ih =>
    obtain ⟨s, hs, hsum⟩ := ih fun p hp => h p (List.mem_cons_of_mem _ hp)
    obtain ⟨n, m, e, rfl⟩ := h p List.mem_cons_self
    refine ⟨_, by rw [sumVals, hs]; rfl, ?_⟩
    rw [List.map_cons, List.sum_cons, ← hsum, FVal.rat]
    dsimp only
    split
    next hz => simp [hz]
    · exact sumDyadic_rat _ _ _ _

theorem sumVals_nan {ps : List FVal} {q : Bool} (h : .nan q ∈ ps) : sumVals ps = none := by
  induction ps with
  | nil => cases h
  | cons p ps ih =>
    cases p with
    | nan q => rfl
    | inf n => rfl
    | fin n m e =>
      rw [sumVals, ih ((List.mem_cons.1 h).resolve_left (by simp))]
      rfl

section
variable {r : Rnd} {sat : Bool} {u : Nat}

theorem bmulVal_finite {ta tb : BlkTy} {sa ma sb mb : Nat} (h : ¬ (scaleE sa = 255 ∨ scaleE sb = 255)) :
    (prodRat ta tb sa ma sb mb = 0 → bmulVal ta tb r sat u sa ma sb mb = { val := 0, fl := fNone }) ∧
      (prodRat ta tb sa ma sb mb ≠ 0 →
        RoundsTo .f32 r sat u (prodRat ta tb sa ma sb mb) (bmulVal ta tb r sat u sa ma sb mb)) := by
  obtain ⟨n, m, e, hval, hrat⟩ := blkProd_finite (ta := ta) (tb := tb) (ma := ma) (mb := mb) h
  rw [bmulVal, hval, ← hrat]
  refine ⟨fun h0 => ?_, fun h0 => roundExact_rounds .f32 r sat u false rfl h0⟩
  exact (roundExact_zero .f32 r sat u false e (signedOf_eq_zero.2 (rat_eq_zero.1 h0))).trans (by rw [fZero_false])

theorem bdotVal_nan {ps : List FVal} {q : Bool} (h : .nan q ∈ ps) :
    bdotVal r sat u ps = { val := fNaN .f32, fl := fNone } := by
  rw [bdotVal, sumVals_nan h]
  rfl

theorem bdotVal_finite {ps : List FVal} (h : ∀ p ∈ ps, ∃ n m e, p = .fin n m e) :
    ((ps.map FVal.rat).sum = 0 → bdotVal r sat u ps = { val := 0, fl := fNone }) ∧
      ((ps.map FVal.rat).sum ≠ 0 → RoundsTo .f32 r sat u (ps.map FVal.rat).sum (bdotVal r sat u ps)) := by
  obtain ⟨s, hs, hsum⟩ := sumVals_finite h
  rw [bdotVal, hs]
  refine ⟨fun h0 => ?_, fun h0 => roundExact_rounds .f32 r sat u false hsum h0⟩
  rw [← hsum, mul_eq_zero, or_iff_left (by positivity), Int.cast_eq_zero] at h0
  exact (roundExact_zero .f32 r sat u false _ h0).trans (by rw [fZero_false])

end

theorem blockValues : BlockValues := by
  unfold BlockValues
  refine ⟨fun t d r sat u sc m => ⟨dequantVal_nan t d r sat u m, dequantVal_zero t d r sat u m, fun h0 h255 hv =>
    ⟨dequantVal_rounds t d r sat u m h0 h255 hv, dequantVal_exact t d r sat u m h0 h255 hv⟩⟩,
    fun t f r u sc a k => ⟨quantVal_nan, quantVal_zero, fun h0 h255 => ⟨fun n => quantVal_inf h0 h255, fun hf hk => ?_⟩⟩,
    fun ta tb r sat u sa ma sb mb => ?_, fun ta tb r sat u es => ?_⟩
  · have heq := quantVal_finite h0 h255 hf hk
    have htop : -topOf t - 1 ≤ topOf t := by cases t <;> decide
    refine ⟨fun h => heq.trans (if_pos h), fun h => heq.trans ?_, fun h h' => heq.trans ?_⟩
    · exact (if_neg (not_lt.2 ((le_of_lt h).trans htop))).trans (if_pos h)
    · exact (if_neg (not_lt.2 h')).trans (if_neg (not_lt.2 h))
  · intro x v nan zero
    have hprod : zero ↔ prodRat ta tb sa ma sb mb = 0 := by
      simp only [zero, prodRat, ite_eq_left_iff, v]
      tauto
    refine ⟨fun h => ?_, fun h hz => (bmulVal_finite h).1 (hprod.1 hz), fun h hz => ?_⟩
    · simp only [x, bmulVal, blkProd_nan h]
      rfl
    · have := (bmulVal_finite (r := r) (sat := sat) (u := u) h).2 (hprod.not.1 hz)
      rwa [prodRat, if_neg (by tauto)] at this
  · intro x nan v
    have hprod : ¬ nan → ∀ e ∈ es, ∃ n m g, blkProd ta tb e.1 e.2.1 e.2.2.1 e.2.2.2 = .fin n m g ∧
        (FVal.fin n m g).rat = prodRat ta tb e.1 e.2.1 e.2.2.1 e.2.2.2 :=
      fun h e he => blkProd_finite fun hn => h ⟨e, he, hn⟩
    have hfin : ¬ nan → ∀ p ∈ es.map fun e => blkProd ta tb e.1 e.2.1 e.2.2.1 e.2.2.2, ∃ n m g, p = .fin n m g := by
      intro h p hp
      obtain ⟨e, he, rfl⟩ := List.mem_map.1 hp
      obtain ⟨n, m, g, hval, -⟩ := hprod h e he
      exact ⟨n, m, g, hval⟩
    have hsum : ¬ nan → ((es.map fun e => blkProd ta tb e.1 e.2.1 e.2.2.1 e.2.2.2).map FVal.rat).sum = v := by
      intro h
      rw [List.map_map]
      refine congrArg List.sum (List.map_congr_left fun e he => ?_)
      obtain ⟨n, m, g, hval, hrat⟩ := hprod h e he
      rw [Function.comp_apply, hval, hrat]
      rfl
    refine ⟨?_, fun h hz => (bdotVal_finite (hfin h)).1 ((hsum h).trans hz), fun h hz => ?_⟩
    · rintro ⟨e, he, hn⟩
      exact bdotVal_nan (q := false) (List.mem_map.2 ⟨e, he, blkProd_nan hn⟩)
    · have := (bdotVal_finite (r := r) (sat := sat) (u := u) (hfin h)).2 ((hsum h).trans_ne hz)
      rwa [hsum h] at this

end Sys2Proof.Machine
end

section
/-! SUPPORT. The results of the operations of a node: their lanes, pairs, masks and flags (R17, R126, R138). -/

namespace Sys2Proof.Machine

open Sys2Proof Sys2Proof.Claims

/-! ### Masks -/

theorem bitN_le (b : Bool) : bitN b ≤ 1 := by cases b <;> simp [bitN]

section
variable (f : Nat → Bool)

theorem maskSum_lt (n : Nat) : (List.range n).foldl (fun a i => a + bitN (f i) * 2 ^ i) 0 < 2 ^ n := by
  induction n with
  | zero => simp
  | succ n ih =>
    rw [List.range_succ, List.foldl_append, pow_succ]
    have hb := Nat.mul_le_mul_right (2 ^ n) (bitN_le (f n))
    simp only [List.foldl_cons, List.foldl_nil]
    omega

theorem maskSum_testBit (n i : Nat) :
    ((List.range n).foldl (fun a i => a + bitN (f i) * 2 ^ i) 0).testBit i = (decide (i < n) && f i) := by
  induction n with
  | zero => simp
  | succ n ih =>
    rw [List.range_succ, List.foldl_append]
    simp only [List.foldl_cons, List.foldl_nil]
    rw [add_comm, mul_comm, Nat.testBit_two_pow_mul_add _ (maskSum_lt f n), ih]
    rcases lt_trichotomy i n with h | rfl | h
    · simp [h, h.trans (Nat.lt_succ_self n)]
    · cases f i <;> simp [bitN]
    · have hb : bitN (f n) < 2 ^ (i - n) := (bitN_le (f n)).trans_lt (Nat.one_lt_two_pow (by omega))
      rw [if_neg (by omega), Nat.testBit_lt_two_pow hb, decide_eq_false (by omega)]
      rfl

theorem getLsbD_mkMask {i : Nat} (hi : i < 16) : (mkMask f).getLsbD i = f i := by
  rw [mkMask, BitVec.getLsbD_ofNat, maskSum_testBit]
  simp [hi]

end

theorem getLsbD_pairMask (m : BitVec 16) {i : Nat} (hi : i < 16) : (pairMask m).getLsbD i = m.getLsbD (2 * (i / 2)) := by
  rw [pairMask, getLsbD_mkMask _ hi, mul_comm]

theorem getLsbD_narrowMask (m : BitVec 16) {i : Nat} (hi : i < 16) :
    (narrowMask m).getLsbD i = (i % 2 == 0 && m.getLsbD i) := getLsbD_mkMask _ hi

theorem mem_activeLanes {m : BitVec 16} {k : Nat} : k ∈ activeLanes m ↔ k < 16 ∧ m.getLsbD k = true := by
  simp [activeLanes, laneOn]

theorem mem_activePairs {m : BitVec 16} {k : Nat} : k ∈ activePairs m ↔ k < 8 ∧ m.getLsbD (2 * k) = true := by
  simp [activePairs, pairOn]

/-! ### Flags -/

/-- Flags merge: one is set where one of the merged ones is. -/
theorem getLsbD_foldl_or (f : Nat → Flags) (l : List Nat) (z : Flags) (j : Nat) :
    (l.foldl (fun a i => a ||| f i) z).getLsbD j = true ↔ z.getLsbD j = true ∨ ∃ i ∈ l, (f i).getLsbD j = true := by
  induction l generalizing z with
  | nil => simp
  | cons i l ih => simp [ih, or_assoc]

theorem getLsbD_fNone (j : Nat) : fNone.getLsbD j = false := by simp [fNone]

/-! ### Lane-wise and pair-wise results -/

/-- The patterns that an element holds. -/
def elemSize (wide : Bool) : Nat := if wide then 2 ^ 64 else 2 ^ 32

theorem mappedOn_lane {m : BitVec 16} {k : Nat} : mappedOn m false false k ↔ k < 16 ∧ m.getLsbD k = true := by
  simp [mappedOn]

theorem mappedOn_pair {m : BitVec 16} {sw : Bool} {k : Nat} : mappedOn m sw true k ↔ k < 8 ∧ m.getLsbD (2 * k) = true := by
  simp [mappedOn]

theorem mappedOn_narrow {m : BitVec 16} {k : Nat} : mappedOn m true false k ↔ mappedOn (narrowMask m) false false k := by
  rw [mappedOn_lane, mappedOn, if_neg Bool.false_ne_true]
  refine and_congr_right fun hk => ?_
  rw [getLsbD_narrowMask m hk, Bool.and_eq_true, beq_iff_eq, and_comm]
  exact and_congr_left' (imp_iff_right rfl)

section
variable {m : BitVec 16} {sw dw : Bool} {f g : Nat → Res Nat} {r : OpRes}

/-- The elements that are not active do not matter. -/
theorem mappedResult_congr (h : ∀ k, mappedOn m sw dw k → f k = g k) (hf : MappedResult m sw dw f r) :
    MappedResult m sw dw g r := by
  obtain ⟨hval, hmask, hzero, hfl⟩ := hf
  refine ⟨fun k hk => by rw [hval k hk, h k hk], hmask, hzero, fun j => (hfl j).trans ?_⟩
  exact exists_congr fun k => and_congr_right fun hk => by rw [h k hk]

theorem laneAt_byLane {i : Nat} (hi : i < 16) :
    laneAt (byLane m f).lanes i = if m.getLsbD i = true then BitVec.ofNat 32 (f i).val else 0 := by
  simp only [byLane, laneAt_mkLanes _ hi]
  rfl

theorem laneAt_byPair {i : Nat} (hi : i < 16) : laneAt (byPair m f).lanes i = if m.getLsbD (2 * (i / 2)) = true then
    BitVec.ofNat 32 (if i % 2 = 0 then (f (i / 2)).val else (f (i / 2)).val / 2 ^ 32) else 0 := by
  simp only [byPair, laneAt_mkLanes _ hi]
  rfl

theorem byLane_mapped (hf : ∀ k, (f k).val < elemSize false) : MappedResult m false false f (byLane m f) := by
  refine ⟨fun k hk => ?_, fun l hl => ?_, fun l hl hm => ?_, fun j => ?_⟩
  · obtain ⟨hk, hm⟩ := mappedOn_lane.1 hk
    rw [elemOf, if_neg Bool.false_ne_true, laneAt_byLane hk, if_pos hm, BitVec.toNat_ofNat]
    exact Nat.mod_eq_of_lt (hf k)
  · rw [if_neg Bool.false_ne_true, mappedOn_lane]
    exact (and_iff_right hl).symm
  · rw [laneAt_byLane hl, if_neg (by rw [show m.getLsbD l = false from hm]; simp)]
  · simp [byLane, getLsbD_foldl_or, getLsbD_fNone, mem_activeLanes, mappedOn_lane]

theorem byPair_mapped (hf : ∀ k, (f k).val < elemSize true) : MappedResult m sw true f (byPair m f) := by
  refine ⟨fun k hk => ?_, fun l hl => ?_, fun l hl hm => ?_, fun j => ?_⟩
  · obtain ⟨hk, hm⟩ := mappedOn_pair.1 hk
    have hlt : (f k).val < 2 ^ 64 := hf k
    rw [elemOf, if_pos rfl, pairAt, laneAt_byPair (by omega), laneAt_byPair (by omega), show 2 * k / 2 = k by omega,
      show (2 * k + 1) / 2 = k by omega, if_pos hm, if_pos hm, if_pos (by omega), if_neg (by omega), BitVec.toNat_ofNat,
      BitVec.toNat_ofNat]
    omega
  · rw [if_pos rfl, mappedOn_pair, show (byPair m f).mask = pairMask m from rfl, getLsbD_pairMask m hl]
    exact (and_iff_right (by omega)).symm
  · have hm : m.getLsbD (2 * (l / 2)) = false := (getLsbD_pairMask m hl).symm.trans hm
    rw [laneAt_byPair hl, if_neg (by rw [hm]; simp)]
  · simp [byPair, getLsbD_foldl_or, getLsbD_fNone, mem_activePairs, mappedOn_pair]

theorem byElem_mapped {wide : Bool} (hf : ∀ k, (f k).val < elemSize wide) :
    MappedResult m wide wide f (byElem wide m f) := by
  cases wide
  · exact byLane_mapped hf
  · exact byPair_mapped hf

/-- R138: a conversion maps its elements to the lanes or pairs of its result. -/
theorem cvtMap_mapped (sw dw : Bool) (m : BitVec 16) (hf : ∀ k, (f k).val < elemSize dw) :
    MappedResult m sw dw (fun k => f (mappedFrom sw dw k)) (cvtMap sw dw m f) := by
  cases sw <;> cases dw
  · exact byLane_mapped hf
  · exact byPair_mapped fun k => hf (2 * k)
  · obtain ⟨hval, hmask, hzero, hfl⟩ := byLane_mapped (m := narrowMask m) fun k => hf (k / 2)
    refine ⟨fun k hk => hval k (mappedOn_narrow.1 hk), fun l hl => (hmask l hl).trans mappedOn_narrow.symm, hzero,
      fun j => (hfl j).trans ?_⟩
    exact exists_congr fun k => and_congr_left' mappedOn_narrow.symm
  · exact byPair_mapped hf

/-- The key of a converted element's draw is that of its result (R48, R138). -/
theorem cvtKey_mappedFrom {k : Nat} (hk : mappedOn m sw dw k) : cvtKey sw (mappedFrom sw dw k) = if dw then 2 * k else k := by
  cases sw <;> cases dw
  · rfl
  · rfl
  · obtain ⟨-, -, heven⟩ := hk
    have := heven rfl
    simp only [cvtKey, mappedFrom]
    simp
    omega
  · rfl

end

/-! ### The firing's operation -/

section
variable {i : Instr} {c : Nat} {g : Firing} {m : NodeImg} {env : OpEnv} {s : State}

theorem withEnv_computes (h : Computes i c g m env s) (k : Nat → Firing → NodeImg → OpEnv → State → Out) :
    withEnv i s k = k c g m env s := by
  obtain ⟨⟨hcur, hfind, himg, hrun, hbehind⟩, hwin, henv⟩ := h
  simp [withEnv, asFiring, hcur, hfind, himg, hrun, hbehind, hwin, henv]

/-- A compute operation hands its result on. -/
theorem compute_computes (h : Computes i c g m env s) (f : OpEnv → OpRes) : compute i s f = results c g m (f env) s := by
  have hrun := h.1.2.2.2.1
  rw [compute, withEnv_computes h, if_pos hrun]
  rfl

/-- A block operation hands its result on where its scales match, and else raises OP.SCALE (R139). -/
theorem computeBlock_computes (h : Computes i c g m env s) (ok : OpEnv → Bool) (f : OpEnv → OpRes) :
    computeBlock i s ok f = if ok env = true then results c g m (f env) s
      else .next (nodeTrap c 0x0402 0 (nodeTagReport m.emit.node g.tag) s) := by
  have hrun := h.1.2.2.2.1
  rw [computeBlock, withEnv_computes h, if_neg (not_not.2 hrun)]
  rfl

end

end Sys2Proof.Machine
end

section
/-! The conversions and the block operations of a node, element by element (R48, R126, R137 to R139, R141 to R144). -/

namespace Sys2Proof.Machine

open Sys2Proof Sys2Proof.Claims

/-! ### Every result fits its element -/

theorem intRaw_lt (t : IntTy) (v : ℤ) : intRaw t v < elemSize (IntTy.wide t) := by
  unfold intRaw elemSize
  split
  · have := Int.emod_lt_of_pos v (show (0 : ℤ) < (2 ^ 64 : Nat) by norm_num)
    omega
  · have := Int.emod_lt_of_pos v (show (0 : ℤ) < (2 ^ 32 : Nat) by norm_num)
    omega

theorem two_pow_width_le (t : FltTy) : 2 ^ FltTy.width t ≤ elemSize (FltTy.wide t) := by cases t <;> decide

theorem dequantVal_lt (t : BlkTy) (d : FltTy) (r : Rnd) (sat : Bool) (u sc m : Nat) :
    (dequantVal t d r sat u sc m).val < 2 ^ FltTy.width d := by
  unfold dequantVal
  split
  · exact fNaN_lt d
  · exact fInf_lt d _
  · exact roundExact_lt d _ _ _ _ _ _

theorem bmulVal_lt (ta tb : BlkTy) (r : Rnd) (sat : Bool) (u sa ma sb mb : Nat) :
    (bmulVal ta tb r sat u sa ma sb mb).val < 2 ^ 32 := by
  unfold bmulVal
  split
  · exact fNaN_lt .f32
  · exact fInf_lt .f32 _
  · exact roundExact_lt .f32 _ _ _ _ _ _

theorem bdotVal_lt (r : Rnd) (sat : Bool) (u : Nat) (ps : List FVal) : (bdotVal r sat u ps).val < 2 ^ 32 := by
  unfold bdotVal
  split
  · exact fNaN_lt .f32
  · exact roundExact_lt .f32 _ _ _ _ _ _

/-! ### Conversions (R137) -/

section
variable {env : OpEnv} {a : Sel}

theorem cvtInt_mapped (t : IntTy) (cv : CvtTy) (rnd : Rnd) (sat : Bool) :
    MappedResult env.mask (IntTy.wide t) (CvtTy.wide cv) (fun k =>
      let v := valAt env t a (mappedFrom (IntTy.wide t) (CvtTy.wide cv) k)
      match cv with
      | .int d => { val := intRaw d (cvtII (IntTy.signed d) (IntTy.bits d) sat v).val,
                    fl := (cvtII (IntTy.signed d) (IntTy.bits d) sat v).fl }
      | .flt d => cvtIF d rnd sat (env.key.draw (if FltTy.wide d then 2 * k else k)) v) (cvtInt env t a cv rnd sat) := by
  cases cv with
  | int d => exact cvtMap_mapped _ _ _ fun _ => intRaw_lt d _
  | flt d =>
    refine mappedResult_congr (fun k hk => ?_) (cvtMap_mapped (IntTy.wide t) (FltTy.wide d) env.mask fun k =>
      (roundExact_lt d _ _ _ _ _ _).trans_le (two_pow_width_le d))
    have hkey := cvtKey_mappedFrom (dw := FltTy.wide d) hk
    dsimp only
    rw [← hkey]
    rfl

theorem cvtFlt_mapped (t : FltTy) (cv : CvtTy) (rnd : Rnd) (sat : Bool) :
    MappedResult env.mask (FltTy.wide t) (CvtTy.wide cv) (fun k =>
      let v := selFlt env t a (mappedFrom (FltTy.wide t) (CvtTy.wide cv) k)
      match cv with
      | .int d =>
        let x := cvtFI t (IntTy.signed d) (IntTy.bits d) rnd (env.key.draw (if IntTy.wide d then 2 * k else k)) v
        { val := intRaw d x.val, fl := x.fl }
      | .flt d => cvtFF t d rnd sat (env.key.draw (if FltTy.wide d then 2 * k else k)) v) (cvtFlt env t a cv rnd sat) := by
  cases cv with
  | int d =>
    refine mappedResult_congr (fun k hk => ?_) (cvtMap_mapped (FltTy.wide t) (IntTy.wide d) env.mask fun _ =>
      intRaw_lt d _)
    have hkey := cvtKey_mappedFrom (dw := IntTy.wide d) hk
    dsimp only
    rw [← hkey]
    rfl
  | flt d =>
    refine mappedResult_congr (fun k hk => ?_) (cvtMap_mapped (FltTy.wide t) (FltTy.wide d) env.mask fun k =>
      (toFlt_lt d _ _ _ _).trans_le (two_pow_width_le d))
    have hkey := cvtKey_mappedFrom (dw := FltTy.wide d) hk
    dsimp only
    rw [← hkey]
    rfl

/-! ### Block operations (R139, R141 to R144) -/

theorem scalesMatch_iff (env : OpEnv) (s : Sel) (l : List Nat) : scalesMatch env s l = true ↔ ∀ i ∈ l,
    (laneAt (blkLanes env s) i).toNat / 2 ^ 16 = (laneAt (blkScales env s) i).toNat / 2 ^ 16 := by
  simp [scalesMatch]

/-- The lanes that a block operand is read in are the sources of the active elements. -/
theorem forall_blkRead {m : BitVec 16} {dw : Bool} {P : Nat → Prop} :
    (∀ i ∈ blkRead m dw, P i) ↔ ∀ k, mappedOn m false dw k → P (mappedFrom false dw k) := by
  cases dw
  · simp only [blkRead, Bool.false_eq_true, if_false, mem_activeLanes, mappedOn_lane]
    rfl
  · simp only [blkRead, if_true, List.forall_mem_map, mem_activePairs, mappedOn_pair]
    rfl

/-- An element that keeps the block index of its scale lane fits a lane. -/
theorem blockLane_lt (w : Lane) {n : Nat} (hn : n < 2 ^ 16) : w.toNat / 2 ^ 16 * 2 ^ 16 + n < elemSize false := by
  have := w.isLt
  unfold elemSize
  simp only [Bool.false_eq_true, if_false]
  omega

/-- A quantised element has the scale lane and the draw of its result's lane (R48, R138). -/
theorem quantKey {m : BitVec 16} {sw : Bool} {k : Nat} (hk : mappedOn m sw false k) :
    cvtKey sw (mappedFrom sw false k) = k := by
  simpa using cvtKey_mappedFrom hk

theorem blkQuant_mapped (t : BlkTy) (f : FltTy) (rnd : Rnd) :
    let q := fun k => quantVal t f rnd (env.key.draw k) ((laneAt env.quantScale k).toNat % 2 ^ 16)
      (selFlt env f a (mappedFrom (FltTy.wide f) false k))
    let bi := fun k => (laneAt env.quantScale k).toNat / 2 ^ 16 * 2 ^ 16
    MappedResult env.mask (FltTy.wide f) false (fun k => { val := bi k + ((q k).val.m % 256).toNat, fl := (q k).fl })
      (blkQuant env t a f rnd) ∧
    ∀ k, mappedOn env.mask (FltTy.wide f) false k → (laneAt (blkQuant env t a f rnd).fwd k).toNat = bi k + (q k).val.fwd := by
  intro q bi
  constructor
  · refine mappedResult_congr (fun k hk => ?_) (cvtMap_mapped (FltTy.wide f) false env.mask (f := fun i =>
      let q := quantVal t f rnd (env.key.draw (cvtKey (FltTy.wide f) i))
        ((laneAt env.quantScale (cvtKey (FltTy.wide f) i)).toNat % 2 ^ 16) (selFlt env f a i)
      { val := (laneAt env.quantScale (cvtKey (FltTy.wide f) i)).toNat / 2 ^ 16 * 2 ^ 16 + (q.val.m % 256).toNat,
        fl := q.fl }) fun k => blockLane_lt _ (by omega))
    simp only [quantKey hk]
    rfl
  · intro k hk
    have hfwd := (cvtMap_mapped (FltTy.wide f) false env.mask (f := fun i => quiet
      ((laneAt env.quantScale (cvtKey (FltTy.wide f) i)).toNat / 2 ^ 16 * 2 ^ 16 +
        (quantVal t f rnd (env.key.draw (cvtKey (FltTy.wide f) i))
          ((laneAt env.quantScale (cvtKey (FltTy.wide f) i)).toNat % 2 ^ 16) (selFlt env f a i)).val.fwd))
      fun k => blockLane_lt _ (quantVal_fwd_lt t f rnd _ _ (Nat.mod_lt _ (by norm_num)))).1 k hk
    simp only [quantKey hk] at hfwd
    exact hfwd

theorem blkDequant_mapped (t : BlkTy) (d : FltTy) (rnd : Rnd) (sat : Bool) :
    MappedResult env.mask false (FltTy.wide d) (fun k =>
      dequantVal t d rnd sat (env.key.draw (if FltTy.wide d then 2 * k else k))
        (scaleAt env a (mappedFrom false (FltTy.wide d) k)) (mantAt env a (mappedFrom false (FltTy.wide d) k)))
      (blkDequant env t a d rnd sat) := by
  refine mappedResult_congr (fun k hk => ?_) (cvtMap_mapped false (FltTy.wide d) env.mask fun k =>
    (dequantVal_lt t d _ _ _ _ _).trans_le (two_pow_width_le d))
  rw [← cvtKey_mappedFrom hk]
  rfl

end

/-- A result that stands in lane 0 alone. -/
theorem inLane0_lanes {v : Res Nat} (hv : v.val < 2 ^ 32) : (laneAt (inLane0 v).lanes 0).toNat = v.val ∧
    ∀ l, 1 ≤ l → l < 16 → laneAt (inLane0 v).lanes l = 0 := by
  refine ⟨?_, fun l h1 hl => ?_⟩
  · rw [inLane0, laneAt_mkLanes _ (by norm_num), if_pos rfl, BitVec.toNat_ofNat]
    exact Nat.mod_eq_of_lt hv
  · rw [inLane0, laneAt_mkLanes _ hl, if_neg (by omega)]

theorem conversionsAndBlocksPerElement : ConversionsAndBlocksPerElement := by
  unfold ConversionsAndBlocksPerElement
  intro ti tf tb tb2 a b cv df rnd sat c g m env s draw R sc mt fits trap on S isw fsw dfw
  have hscales : ∀ p l, scalesMatch env p l = true ↔ ∀ i ∈ l, fits p i := scalesMatch_iff env
  have hboth : scalesMatch2 a b env = true ↔ ∀ l, on l → fits a l ∧ fits b l := by
    simp only [scalesMatch2, Bool.and_eq_true, hscales, mem_activeLanes, on, mappedOn_lane]
    exact ⟨fun h l hl => ⟨h.1 l hl, h.2 l hl⟩, fun h => ⟨fun l hl => (h l hl).1, fun l hl => (h l hl).2⟩⟩
  refine ⟨fun h => ⟨_, compute_computes h fun env => cvtInt env ti a cv rnd sat, ?_⟩,
    fun h => ⟨_, compute_computes h fun env => cvtFlt env tf a cv rnd sat, ?_⟩,
    fun h => ⟨_, compute_computes h fun env => blkQuant env tb a df rnd, blkQuant_mapped tb df rnd⟩, fun h => ?_,
    fun h => ?_, fun h => ?_⟩
  · exact cvtInt_mapped ti cv rnd sat
  · exact cvtFlt_mapped tf cv rnd sat
  · have heq := computeBlock_computes h (fun env => scalesMatch env a (blkRead env.mask (FltTy.wide df)))
      fun env => blkDequant env tb a df rnd sat
    have hok := (hscales a (blkRead env.mask dfw)).trans forall_blkRead
    exact ⟨fun ho => ⟨_, heq.trans (if_pos (hok.2 ho)), blkDequant_mapped tb df rnd sat⟩,
      fun ho => heq.trans (if_neg (hok.not.2 ho))⟩
  · have heq := computeBlock_computes h (scalesMatch2 a b) fun env => blkMul env tb a b tb2 rnd sat
    exact ⟨fun ho => ⟨_, heq.trans (if_pos (hboth.2 ho)), byLane_mapped fun _ => bmulVal_lt _ _ _ _ _ _ _ _ _⟩,
      fun ho => heq.trans (if_neg (hboth.not.2 ho))⟩
  · have heq := computeBlock_computes h (scalesMatch2 a b) fun env => blkDot env tb a b tb2 rnd sat
    refine ⟨fun ho => ⟨_, heq.trans (if_pos (hboth.2 ho)), ?_⟩, fun ho => heq.trans (if_neg (hboth.not.2 ho))⟩
    obtain ⟨h0, hrest⟩ := inLane0_lanes (bdotVal_lt rnd sat (draw false 0) ((activeLanes env.mask).map fun l =>
      blkProd tb tb2 (sc a l) (mt a l) (sc b l) (mt b l)))
    exact ⟨rfl, h0, rfl, hrest⟩

end Sys2Proof.Machine
end

section
/-! The reductions and scans of a node: the fixed tree and the folds of its active elements (R56, R57, R146, R147). -/

namespace Sys2Proof.Machine

open Sys2Proof Sys2Proof.Claims

/-! ### The fixed tree (R57) -/

/-- The flags of a list of positions, merged. -/
def mergeFlags (f : Nat → Flags) (l : List Nat) : Flags := l.foldr (fun i a => f i ||| a) fNone

section
variable (step : Nat → Nat → Nat → Res Nat) (x : Nat → Option Nat)

/-- A position of the next level joins the two beneath it, or passes on the one that is present. -/
theorem treeAt_succ (l i : Nat) : treeAt step x (l + 1) i =
    match (treeAt step x l i).1, (treeAt step x l (i + 2 ^ l)).1 with
    | some p, some q => (some (step (i + 2 ^ l) p q).val, (treeAt step x l i).2 ||| (treeAt step x l (i + 2 ^ l)).2 |||
        (step (i + 2 ^ l) p q).fl)
    | some p, none => (some p, (treeAt step x l i).2 ||| (treeAt step x l (i + 2 ^ l)).2)
    | none, q => (q, (treeAt step x l i).2 ||| (treeAt step x l (i + 2 ^ l)).2) := rfl

/-- One level of the model's list gives the values of the next level of the tree, and adds the flags of its steps. -/
theorem treeLevel_treeAt (j n p : Nat) :
    (treeLevel step (2 ^ j) p ((List.range' p (2 * n) (2 ^ j)).map fun i => (treeAt step x j i).1)).1 =
        (List.range' p n (2 ^ (j + 1))).map (fun i => (treeAt step x (j + 1) i).1) ∧
      (treeLevel step (2 ^ j) p ((List.range' p (2 * n) (2 ^ j)).map fun i => (treeAt step x j i).1)).2 |||
          mergeFlags (fun i => (treeAt step x j i).2) (List.range' p (2 * n) (2 ^ j)) =
        mergeFlags (fun i => (treeAt step x (j + 1) i).2) (List.range' p n (2 ^ (j + 1))) := by
  induction n generalizing p with
  | zero => simp [treeLevel, mergeFlags, fNone]
  | succ n ih =>
    obtain ⟨hval, hfl⟩ := ih (p + 2 * 2 ^ j)
    have hrange : List.range' p (2 * (n + 1)) (2 ^ j) =
        p :: (p + 2 ^ j) :: List.range' (p + 2 * 2 ^ j) (2 * n) (2 ^ j) := by
      rw [show 2 * (n + 1) = 2 * n + 1 + 1 by ring, List.range'_succ, List.range'_succ,
        show p + 2 ^ j + 2 ^ j = p + 2 * 2 ^ j by ring]
    rw [hrange, List.range'_succ, show p + 2 ^ (j + 1) = p + 2 * 2 ^ j by ring]
    simp only [List.map_cons, treeLevel, mergeFlags, List.foldr_cons] at hval hfl ⊢
    rw [treeAt_succ, ← hval, ← hfl]
    generalize treeLevel step (2 ^ j) (p + 2 * 2 ^ j) _ = rest
    rcases treeAt step x j p with ⟨_ | a, fa⟩ <;> rcases treeAt step x j (p + 2 ^ j) with ⟨_ | b, fb⟩ <;>
      exact ⟨rfl, by dsimp only; ac_rfl⟩

/-- The model's tree over the positions of level `j` is the tree `n` levels higher. -/
theorem treeFold_treeAt (n j : Nat) :
    let l := (List.range' 0 (2 ^ n) (2 ^ j)).map fun i => (treeAt step x j i).1
    (treeFold step n (2 ^ j) l).1 = (treeAt step x (j + n) 0).1 ∧
      (treeFold step n (2 ^ j) l).2 ||| mergeFlags (fun i => (treeAt step x j i).2) (List.range' 0 (2 ^ n) (2 ^ j)) =
        (treeAt step x (j + n) 0).2 := by
  induction n generalizing j with
  | zero => simp [treeFold, mergeFlags, fNone]
  | succ n ih =>
    obtain ⟨hval, hfl⟩ := treeLevel_treeAt step x j (2 ^ n) 0
    obtain ⟨ihval, ihfl⟩ := ih (j + 1)
    rw [show j + 1 + n = j + (n + 1) by ring] at ihval ihfl
    intro l
    have hl : l = (List.range' 0 (2 * 2 ^ n) (2 ^ j)).map fun i => (treeAt step x j i).1 := by
      simp only [l, pow_succ, mul_comm]
    rw [← hl] at hval hfl
    rw [treeFold, hval, show 2 * 2 ^ j = 2 ^ (j + 1) by ring, show 2 ^ (n + 1) = 2 * 2 ^ n by ring]
    refine ⟨ihval, ?_⟩
    rw [← ihfl, ← hfl]
    ac_rfl

/-- A value of the tree is below every bound that its elements and its steps keep. -/
theorem treeAt_lt {N : Nat} (hx : ∀ k v, x k = some v → v < N)
    (hs : ∀ k p q, p < N → q < N → (step k p q).val < N) (l i v : Nat) (h : (treeAt step x l i).1 = some v) : v < N := by
  induction l generalizing i v with
  | zero => exact hx i v h
  | succ l ih =>
    have ha := ih i
    have hb := ih (i + 2 ^ l)
    rw [treeAt_succ] at h
    revert h ha hb
    rcases treeAt step x l i with ⟨_ | a, fa⟩ <;> rcases treeAt step x l (i + 2 ^ l) with ⟨_ | b, fb⟩ <;> intro h ha hb
    · cases h
    · exact hb v h
    · exact ha v h
    · obtain rfl := Option.some.inj h
      exact hs _ _ _ (ha a rfl) (hb b rfl)

end

/-! ### Reductions (R146) -/

theorem inPair0_lanes {v : Res Nat} (hv : v.val < 2 ^ 64) : pairAt (inPair0 v).lanes 0 = v.val ∧
    ∀ l, 2 ≤ l → l < 16 → laneAt (inPair0 v).lanes l = 0 := by
  refine ⟨?_, fun l h2 hl => ?_⟩
  · rw [pairAt, inPair0, laneAt_mkLanes _ (by norm_num), laneAt_mkLanes _ (by norm_num), if_pos rfl, if_neg (by norm_num),
      if_pos rfl, BitVec.toNat_ofNat, BitVec.toNat_ofNat]
    omega
  · rw [inPair0, laneAt_mkLanes _ hl, if_neg (by omega), if_neg (by omega)]

theorem present_eq (wide : Bool) (m : BitVec 16) (f : Nat → Nat) (step : Nat → Nat → Nat → Res Nat) :
    present wide m f = (List.range' 0 (2 ^ (if wide then 3 else 4)) (2 ^ 0)).map fun i =>
      (treeAt step (fun k => if (if wide then m.getLsbD (2 * k) else m.getLsbD k) = true then some (f k) else none) 0 i).1 := by
  cases wide
  · exact congrArg (List.map _) List.range_eq_range'
  · exact congrArg (List.map _) List.range_eq_range'

theorem mergeFlags_none (l : List Nat) : mergeFlags (fun _ => fNone) l = fNone := by
  induction l with
  | nil => rfl
  | cons i l ih => simp only [mergeFlags, List.foldr_cons] at ih ⊢; rw [ih]; rfl

/-- The model's reduction is that of R57: the tree's value, or the identity, alone in element 0. -/
theorem reduce_reduces {wide : Bool} {m : BitVec 16} {f : Nat → Nat} {ident N : Nat} {step : Nat → Nat → Nat → Res Nat}
    (hN : N ≤ elemSize wide) (hi : ident < N) (hf : ∀ k, f k < N) (hs : ∀ k p q, p < N → q < N → (step k p q).val < N) :
    Reduces wide m f ident step (reduce wide m f ident step) := by
  unfold Reduces
  intro on v
  obtain ⟨hval, hfl⟩ := treeFold_treeAt step (fun k => if on k = true then some (f k) else none) (if wide then 3 else 4) 0
  rw [← present_eq wide m f step] at hval hfl
  have hfl : (treeFold step (if wide then 3 else 4) 1 (present wide m f)).2 = v.2 := by
    rw [Nat.zero_add] at hfl
    rw [show v.2 = _ from hfl.symm, show (fun i => (treeAt step (fun k => if on k = true then some (f k) else none) 0 i).2) =
      fun _ => fNone from rfl, mergeFlags_none]
    exact (BitVec.or_zero).symm
  have hval : (treeFold step (if wide then 3 else 4) 1 (present wide m f)).1 = v.1 := by
    rw [Nat.zero_add] at hval
    exact hval
  have hlt : v.1.getD ident < elemSize wide := by
    cases hv : v.1 with
    | none => exact hi.trans_le hN
    | some w =>
      refine (treeAt_lt step _ (fun k w hw => ?_) hs _ 0 w hv).trans_le hN
      split at hw
      · exact Option.some.inj hw ▸ hf k
      · cases hw
  have hr : reduce wide m f ident step = if wide then inPair0 { val := v.1.getD ident, fl := v.2 }
      else inLane0 { val := v.1.getD ident, fl := v.2 } := by
    simp only [reduce, hval, hfl]
  rw [hr]
  cases wide
  · obtain ⟨h0, hrest⟩ := inLane0_lanes (v := { val := v.1.getD ident, fl := v.2 }) hlt
    exact ⟨h0, rfl, rfl, fun l hl h1 => hrest l h1 hl⟩
  · obtain ⟨h0, hrest⟩ := inPair0_lanes (v := { val := v.1.getD ident, fl := v.2 }) hlt
    exact ⟨h0, rfl, rfl, fun l hl h2 => hrest l h2 hl⟩

end Sys2Proof.Machine
end

section
/-! The scans of a node, the steps of reductions and scans, and the statement of the conversions, blocks and reductions (R39 to
R44, R56, R57, R137 to R147). -/

namespace Sys2Proof.Machine

open Sys2Proof Sys2Proof.Claims

/-! ### The folds of a scan (R147) -/

/-- What the prefixes of a list of elements hold for one of them; 0 for another. -/
def scanAt (step : Nat → Nat → Nat → Res Nat) (f : Nat → Nat) (acc : Option Nat) (l : List Nat) (i : Nat) : Nat :=
  (((prefixes step acc (l.map fun i => (i, f i))).1.find? fun e => e.1 == i).map Prod.snd).getD 0

/-- The flags of the prefixes of a list of elements. -/
def scanFlags (step : Nat → Nat → Nat → Res Nat) (f : Nat → Nat) (acc : Option Nat) (l : List Nat) : Flags :=
  (prefixes step acc (l.map fun i => (i, f i))).2

section
variable {step : Nat → Nat → Nat → Res Nat} {f : Nat → Nat}

theorem scanAt_head_none (i : Nat) (l : List Nat) : scanAt step f none (i :: l) i = f i := by
  simp [scanAt, prefixes]

theorem scanAt_head_some (a i : Nat) (l : List Nat) : scanAt step f (some a) (i :: l) i = (step i a (f i)).val := by
  simp [scanAt, prefixes]

theorem scanAt_tail (acc : Option Nat) {i k : Nat} (l : List Nat) (hk : k ≠ i) :
    scanAt step f acc (i :: l) k = scanAt step f (some (scanAt step f acc (i :: l) i)) l k := by
  cases acc <;> simp [scanAt, prefixes, hk.symm]

theorem scanFlags_cons_none (i : Nat) (l : List Nat) :
    scanFlags step f none (i :: l) = scanFlags step f (some (scanAt step f none (i :: l) i)) l := by
  rw [scanAt_head_none]
  rfl

theorem scanFlags_cons_some (a i : Nat) (l : List Nat) : scanFlags step f (some a) (i :: l) =
    (step i a (f i)).fl ||| scanFlags step f (some (scanAt step f (some a) (i :: l) i)) l := by
  rw [scanAt_head_some]
  rfl

/-- Each element but the first is the step of the one before it and its own. -/
theorem scanAt_next {acc : Option Nat} {l1 l2 : List Nat} {j k : Nat} (hd : (l1 ++ j :: k :: l2).Nodup) :
    scanAt step f acc (l1 ++ j :: k :: l2) k = (step k (scanAt step f acc (l1 ++ j :: k :: l2) j) (f k)).val := by
  induction l1 generalizing acc with
  | nil =>
    have hne : k ≠ j := by
      rintro rfl
      simp at hd
    rw [List.nil_append, scanAt_tail acc _ hne, scanAt_head_some]
  | cons i l1 ih =>
    obtain ⟨hi, hd⟩ := List.nodup_cons.1 hd
    have hj : j ≠ i := by rintro rfl; exact hi (by simp)
    have hk : k ≠ i := by rintro rfl; exact hi (by simp)
    rw [List.cons_append, scanAt_tail acc _ hj, scanAt_tail acc _ hk, ih hd]

/-- The flags of a scan are those of its steps: from a value before it to its first element, and between neighbours. -/
theorem getLsbD_scanFlags {acc : Option Nat} {l : List Nat} (hd : l.Nodup) (b : Nat) :
    (scanFlags step f acc l).getLsbD b = true ↔
      (∃ a k l2, acc = some a ∧ l = k :: l2 ∧ (step k a (f k)).fl.getLsbD b = true) ∨
      ∃ l1 j k l2, l = l1 ++ j :: k :: l2 ∧ (step k (scanAt step f acc l j) (f k)).fl.getLsbD b = true := by
  induction l generalizing acc with
  | nil => simp [scanFlags, prefixes, fNone]
  | cons i l ih =>
    obtain ⟨hi, hd⟩ := List.nodup_cons.1 hd
    set v := scanAt step f acc (i :: l) i with hv
    -- The steps within the rest, and the one into it, are the pairs of neighbours.
    have hrest : (scanFlags step f (some v) l).getLsbD b = true ↔
        ∃ l1 j k l2, i :: l = l1 ++ j :: k :: l2 ∧
          (step k (scanAt step f acc (i :: l) j) (f k)).fl.getLsbD b = true := by
      rw [ih hd]
      constructor
      · rintro (⟨a, k, l2, ha, rfl, hb⟩ | ⟨l1, j, k, l2, rfl, hb⟩)
        · obtain rfl := Option.some.inj ha
          exact ⟨[], i, k, l2, rfl, hb⟩
        · have hj : j ≠ i := by rintro rfl; exact hi (by simp)
          exact ⟨i :: l1, j, k, l2, rfl, by rwa [scanAt_tail acc _ hj]⟩
      · rintro ⟨l1, j, k, l2, hl, hb⟩
        cases l1 with
        | nil =>
          obtain ⟨rfl, rfl⟩ := List.cons.inj hl
          exact .inl ⟨_, k, l2, rfl, rfl, hb⟩
        | cons i' l1 =>
          obtain ⟨rfl, rfl⟩ := List.cons.inj hl
          have hj : j ≠ i := by rintro rfl; exact hi (by simp)
          exact .inr ⟨l1, j, k, l2, rfl, by rwa [scanAt_tail acc _ hj] at hb⟩
    cases acc with
    | none =>
      rw [scanFlags_cons_none, ← hv, hrest]
      simp
    | some a =>
      rw [scanFlags_cons_some, ← hv, BitVec.getLsbD_or, Bool.or_eq_true, hrest]
      refine or_congr_left ⟨fun h => ⟨a, i, l, rfl, rfl, h⟩, ?_⟩
      rintro ⟨a', k, l2, ha, hl, hb⟩
      obtain rfl := Option.some.inj ha
      obtain ⟨rfl, rfl⟩ := List.cons.inj hl
      exact hb

theorem scanAt_lt {N : Nat} (hf : ∀ k, f k < N) (hs : ∀ k p q, p < N → q < N → (step k p q).val < N) {acc : Option Nat}
    (hacc : ∀ a, acc = some a → a < N) (l : List Nat) (i : Nat) : scanAt step f acc l i < N := by
  induction l generalizing acc with
  | nil => exact (Nat.zero_le _).trans_lt (hf 0)
  | cons k l ih =>
    have hhead : scanAt step f acc (k :: l) k < N := by
      cases acc with
      | none => exact scanAt_head_none k l ▸ hf k
      | some a => exact scanAt_head_some a k l ▸ hs _ _ _ (hacc a rfl) (hf k)
    by_cases hk : i = k
    · exact hk ▸ hhead
    · rw [scanAt_tail acc l hk]
      exact ih fun a ha => Option.some.inj ha ▸ hhead

end

/-- Neighbours in an ascending list are the members with none between them. -/
theorem neighbours_iff {l : List Nat} (hl : l.Pairwise (· < ·)) {j k : Nat} :
    (j ∈ l ∧ k ∈ l ∧ j < k ∧ ∀ i, j < i → i < k → i ∉ l) ↔ ∃ l1 l2, l = l1 ++ j :: k :: l2 := by
  constructor
  · rintro ⟨hj, hk, hjk, hnone⟩
    obtain ⟨l1, t, rfl⟩ := List.append_of_mem hj
    obtain ⟨-, ht, h1⟩ := List.pairwise_append.1 hl
    have hkt : k ∈ t := by
      rcases List.mem_append.1 hk with h | h
      · exact absurd (h1 k h j List.mem_cons_self) (by omega)
      · exact (List.mem_cons.1 h).resolve_left (by omega)
    cases t with
    | nil => cases hkt
    | cons i t =>
      have hji : j < i := (List.pairwise_cons.1 ht).1 i List.mem_cons_self
      rcases List.mem_cons.1 hkt with rfl | hkt
      · exact ⟨l1, t, rfl⟩
      · have hik : i < k := (List.pairwise_cons.1 (List.pairwise_cons.1 ht).2).1 k hkt
        exact absurd (by simp) (hnone i hji hik)
  · rintro ⟨l1, l2, rfl⟩
    obtain ⟨-, ht, h1⟩ := List.pairwise_append.1 hl
    obtain ⟨hj, ht⟩ := List.pairwise_cons.1 ht
    obtain ⟨hk, -⟩ := List.pairwise_cons.1 ht
    refine ⟨by simp, by simp, hj k List.mem_cons_self, fun i hji hik hi => ?_⟩
    rcases List.mem_append.1 hi with h | h
    · exact absurd (h1 i h j List.mem_cons_self) (by omega)
    · rcases List.mem_cons.1 h with rfl | h
      · omega
      rcases List.mem_cons.1 h with rfl | h
      · omega
      · exact absurd (hk i h) (by omega)

/-- The first element of an ascending list is its lowest member. -/
theorem lowest_head {l : List Nat} (hl : l.Pairwise (· < ·)) {k : Nat} (hk : k ∈ l) (hmin : ∀ j, j < k → j ∉ l) :
    ∃ t, l = k :: t := by
  cases l with
  | nil => cases hk
  | cons i t =>
    rcases List.mem_cons.1 hk with rfl | h
    · exact ⟨t, rfl⟩
    · exact absurd List.mem_cons_self (hmin i ((List.pairwise_cons.1 hl).1 k h))

/-- The active elements of a mask, ascending. -/
def activeElems (wide : Bool) (m : BitVec 16) : List Nat := if wide then activePairs m else activeLanes m

theorem mem_activeElems {wide : Bool} {m : BitVec 16} {k : Nat} : k ∈ activeElems wide m ↔ mappedOn m wide wide k := by
  cases wide
  · exact mem_activeLanes.trans mappedOn_lane.symm
  · exact mem_activePairs.trans mappedOn_pair.symm

theorem activeElems_ascending (wide : Bool) (m : BitVec 16) : (activeElems wide m).Pairwise (· < ·) := by
  cases wide
  · exact List.pairwise_lt_range.filter _
  · exact List.pairwise_lt_range.filter _

/-- The model's scan is that of R147: each active element is the step of the one before it and its own. -/
theorem scanElems_scans {wide : Bool} {m : BitVec 16} {f : Nat → Nat} {N : Nat} {step : Nat → Nat → Nat → Res Nat}
    (hN : N ≤ elemSize wide) (hf : ∀ k, f k < N) (hs : ∀ k p q, p < N → q < N → (step k p q).val < N) :
    Scans wide m f step (scanElems wide m f fun i => step (laneKey wide i)) := by
  set l := activeElems wide m
  have hl := activeElems_ascending wide m
  have hd : l.Nodup := hl.imp fun h => h.ne
  set step' := fun i => step (laneKey wide i)
  set r := scanElems wide m f step'
  obtain ⟨hval, hmask, hzero, -⟩ := byElem_mapped (wide := wide) (m := m) (f := fun i => quiet (scanAt step' f none l i))
    fun i => (scanAt_lt hf (fun k => hs _) (by simp) l i).trans_le hN
  have hval : ∀ k, mappedOn m wide wide k → elemOf wide r.lanes k = scanAt step' f none l k := hval
  have hfl : r.fl = scanFlags step' f none l := rfl
  unfold Scans
  intro act next made
  have hmade : ∀ j k, act j → made j k = step' k (scanAt step' f none l j) (f k) := fun j k hj => by rw [← hval j hj]
  have hnext : ∀ j k, next j k ↔ ∃ l1 l2, l = l1 ++ j :: k :: l2 := by
    intro j k
    simp only [next, act, ← mem_activeElems]
    exact neighbours_iff hl
  refine ⟨fun k hk hmin => ?_, fun j k hjk => ?_, hmask, hzero, fun i => ?_⟩
  · obtain ⟨t, ht⟩ := lowest_head hl (mem_activeElems.2 hk) fun j hj => mem_activeElems.not.2 (hmin j hj)
    rw [hval k hk, show l = k :: t from ht, scanAt_head_none]
  · obtain ⟨l1, l2, h⟩ := (hnext j k).1 hjk
    rw [hval k hjk.2.1, hmade j k hjk.1, h]
    exact scanAt_next (h ▸ hd)
  · rw [hfl, getLsbD_scanFlags hd]
    constructor
    · rintro (⟨a, k, l2, ha, -⟩ | ⟨l1, j, k, l2, h, hb⟩)
      · cases ha
      · have hjk := (hnext j k).2 ⟨l1, l2, h⟩
        exact ⟨j, k, hjk, by rwa [hmade j k hjk.1]⟩
    · rintro ⟨j, k, hjk, hb⟩
      obtain ⟨l1, l2, h⟩ := (hnext j k).1 hjk
      rw [hmade j k hjk.1] at hb
      exact .inr ⟨l1, j, k, l2, h, hb⟩

/-! ### The steps (R146) -/

theorem redStepI_lt (t : IntTy) (c : RedOp) (sat : Bool) (a b : Nat) :
    (redStepI t c sat a b).val < elemSize (IntTy.wide t) := by
  cases c <;> exact intRaw_lt t _

theorem addVals_lt (t : FltTy) (r : Rnd) (sat : Bool) (u : Nat) (a b : FVal) :
    (addVals t r sat u a b).val < 2 ^ FltTy.width t := by
  unfold addVals
  split
  · exact fNaN_lt t
  · exact fNaN_lt t
  · split
    · exact fInf_lt t _
    · exact fNaN_lt t
  · exact fInf_lt t _
  · exact fInf_lt t _
  · exact roundExact_lt t _ _ _ _ _ _

theorem fMinMax_lt (w : Bool) (t : FltTy) {a b : Nat} (ha : a < 2 ^ FltTy.width t) (hb : b < 2 ^ FltTy.width t) :
    (fMinMax w t a b).val < 2 ^ FltTy.width t := by
  have hn := fNaN_lt t
  unfold fMinMax
  dsimp only
  split_ifs <;> assumption

theorem redStepF_lt (t : FltTy) (c : FRedOp) (r : Rnd) (sat : Bool) (u : Nat) {a b : Nat} (ha : a < 2 ^ FltTy.width t)
    (hb : b < 2 ^ FltTy.width t) : (redStepF t c r sat u a b).val < 2 ^ FltTy.width t := by
  cases c with
  | add => exact addVals_lt t r sat u _ _
  | min => exact fMinMax_lt false t ha hb
  | max => exact fMinMax_lt true t ha hb

theorem selFlt_lt (env : OpEnv) (t : FltTy) (a : Sel) (k : Nat) : selFlt env t a k < 2 ^ FltTy.width t :=
  Nat.mod_lt _ (by positivity)

/-! ### The identities (R57) -/

/-- The value that leaves an integer reduction's other operand as it is. -/
def identI (t : IntTy) (o : RedOp) : ℤ :=
  match o with
  | .add | .or | .xor => 0
  | .and => if IntTy.signed t then -1 else hi t
  | .min => hi t
  | .max => lo t

theorem redIdI_eq (t : IntTy) (o : RedOp) : redIdI t o = intRaw t (identI t o) := by
  cases o with
  | add => cases t <;> rfl
  | or => cases t <;> rfl
  | xor => cases t <;> rfl
  | and => cases t <;> decide
  | min => rw [redIdI, intRange_eq]; rfl
  | max => rw [redIdI, intRange_eq]; rfl

theorem redIdF_lt (t : FltTy) (o : FRedOp) : redIdF t o < 2 ^ FltTy.width t := by
  cases o with
  | add => exact fZero_lt t false
  | min => exact fInf_lt t false
  | max => exact fInf_lt t true

theorem redStepI_add (t : IntTy) (sat : Bool) (a b : Nat) : ∃ v, Narrowed t sat (intVal t a + intVal t b) v ∧
    (redStepI t .add sat a b).val = intRaw t v ∧ (redStepI t .add sat a b).fl =
      flagIf (sat && decide (intVal t a + intVal t b < lo t ∨ hi t < intVal t a + intVal t b)) fSat := by
  obtain ⟨hv, hfl⟩ := narrowInt_spec t sat (intVal t a + intVal t b)
  exact ⟨_, hv, rfl, hfl⟩

theorem reductionsAndScans : ReductionsAndScans := by
  unfold ReductionsAndScans
  refine ⟨fun ti tf a ro fo rnd sat c g m env s => ?_, fun t sat a b => ?_, fun t r sat u a b => ⟨rfl, rfl, rfl⟩⟩
  · intro R xi xf idI idF
    have hflt := two_pow_width_le tf
    have hxi : ∀ k, xi k < elemSize (IntTy.wide ti) := fun k => intRaw_lt ti _
    have hsi : ∀ k p q : Nat, p < elemSize (IntTy.wide ti) → q < elemSize (IntTy.wide ti) →
        (redStepI ti ro sat p q).val < elemSize (IntTy.wide ti) := fun _ p q _ _ => redStepI_lt ti ro sat p q
    have hsf : ∀ k p q : Nat, p < 2 ^ FltTy.width tf → q < 2 ^ FltTy.width tf →
        (redStepF tf fo rnd sat (env.key.draw k) p q).val < 2 ^ FltTy.width tf :=
      fun k p q hp hq => redStepF_lt tf fo rnd sat _ hp hq
    have hidI : redIdI ti ro = intRaw ti idI := redIdI_eq ti ro
    have hidF : redIdF tf fo = idF := by
      simp only [idF]
      cases fo with
      | add => simp [redIdF, fZero_false]
      | min => rfl
      | max => rfl
    refine ⟨fun h => ⟨_, compute_computes h fun env => redInt env ti a ro sat, ?_⟩,
      fun h => ⟨_, compute_computes h fun env => redFlt env tf a fo rnd sat, ?_⟩,
      fun h => ⟨_, compute_computes h fun env => scanInt env ti a ro sat, ?_⟩,
      fun h => ⟨_, compute_computes h fun env => scanFlt env tf a fo rnd sat, ?_⟩⟩
    · rw [← hidI]
      exact reduce_reduces le_rfl (hidI ▸ intRaw_lt ti _) hxi hsi
    · rw [← hidF]
      exact reduce_reduces hflt (redIdF_lt tf fo) (selFlt_lt env tf a) hsf
    · exact scanElems_scans le_rfl hxi hsi
    · exact scanElems_scans hflt (selFlt_lt env tf a) hsf
  · intro A B n is
    refine ⟨redStepI_add t sat a b, ?_, ?_, fun o f hof => ?_⟩
    · simp only [is, redStepI, min_def]
      rfl
    · simp only [is, redStepI, max_comm A B, max_def]
      rfl
    · simp only [List.mem_cons, Prod.mk.injEq, List.not_mem_nil, or_false] at hof
      rcases hof with ⟨rfl, rfl⟩ | ⟨rfl, rfl⟩ | ⟨rfl, rfl⟩ <;> rfl

/-- Settles O22, by its four parts: exact values are rounded once; elements map to their places as R138 says; and reductions and
scans fold the active elements. -/
theorem conversionsBlocksAndReductions : Obligations.ConversionsBlocksAndReductions :=
  ⟨conversionsOfValues, blockValues, conversionsAndBlocksPerElement, reductionsAndScans⟩

end Sys2Proof.Machine
end

section
/-! SUPPORT. What the shared operations of a sequencer keep: the stores, the other contexts, and of its own context the
registers, seq.tvec and the flags (R95, R102, R310, R348). -/

namespace Sys2Proof.Machine

open Sys2Proof Sys2Proof.Claims

/-- What every operation keeps whose effect is where the sequencer of `c` goes on, or where it stops. -/
structure Keeps (c : Nat) (s t : State) : Prop where
  wf : t.ctxWf = true
  stores : SameStores s t
  acc : t.acc = s.acc
  tagtab : t.tagtab = s.tagtab
  others : ∀ o, o ≠ c → t.ctx o = s.ctx o
  regs : (t.seq c).regs = (s.seq c).regs
  tvec : (t.seq c).tvec = (s.seq c).tvec
  flags : (t.ctx c).flags = (s.ctx c).flags

section
variable {c : Nat} {s t u : State}

theorem Keeps.refl (h : s.ctxWf = true) : Keeps c s s := ⟨h, SameStores.rfl, rfl, rfl, fun _ _ => rfl, rfl, rfl, rfl⟩

theorem Keeps.trans (h : Keeps c s t) (g : Keeps c t u) : Keeps c s u :=
  ⟨g.wf, h.stores.trans g.stores, g.acc.trans h.acc, g.tagtab.trans h.tagtab,
    fun o ho => (g.others o ho).trans (h.others o ho), g.regs.trans h.regs, g.tvec.trans h.tvec, g.flags.trans h.flags⟩

/-- A change of fields of a context other than the registers, seq.tvec and the flags. -/
theorem keeps_modCtx (h : s.ctxWf = true) {f : Ctx → Ctx} (hr : (f (s.ctx c)).seq.regs = (s.ctx c).seq.regs)
    (ht : (f (s.ctx c)).seq.tvec = (s.ctx c).seq.tvec) (hf : (f (s.ctx c)).flags = (s.ctx c).flags) :
    Keeps c s (s.modCtx c f) := by
  have hc := State.ctx_modCtx_same h c f
  exact ⟨State.ctxWf_modCtx h c f, SameStores.rfl, rfl, rfl, fun o ho => State.ctx_modCtx_ne h f ho,
    by rw [State.seq, hc, hr]; rfl, by rw [State.seq, hc, ht]; rfl, by rw [hc, hf]⟩

theorem keeps_modSeq (h : s.ctxWf = true) {f : Seq → Seq} (hr : (f (s.seq c)).regs = (s.seq c).regs)
    (ht : (f (s.seq c)).tvec = (s.seq c).tvec) : Keeps c s (s.modSeq c f) := keeps_modCtx h hr ht rfl

theorem keeps_modFab (h : s.ctxWf = true) (f : Fabric → Fabric) : Keeps c s (s.modFab c f) := keeps_modCtx h rfl rfl rfl

/-- Stores that a region's context does not hold: governors, engines and records. -/
theorem keeps_of_ctxs (h : s.ctxWf = true) (hs : SameStores s t) (ha : t.acc = s.acc) (hg : t.tagtab = s.tagtab)
    (hc : t.ctxs = s.ctxs) : Keeps c s t := by
  have hctx : t.ctx = s.ctx := funext fun o => by rw [State.ctx, hc]; rfl
  exact ⟨by rw [State.ctxWf, hc]; exact h, hs, ha, hg, fun o _ => by rw [hctx], by rw [State.seq, hctx]; rfl,
    by rw [State.seq, hctx]; rfl, by rw [hctx]⟩

end

/-! ### The end of a graph, and traps -/

/-- A fold of writes to the governors writes the governors alone. -/
theorem foldl_setGov (f : State → Nat → State) (hf : ∀ s k, ∃ g, f s k = { s with govs := g }) (l : List Nat) (s : State) :
    ∃ g, l.foldl f s = { s with govs := g } := by
  induction l generalizing s with
  | nil => exact ⟨s.govs, rfl⟩
  | cons k l ih =>
    obtain ⟨g, hg⟩ := hf s k
    obtain ⟨g', hg'⟩ := ih (f s k)
    exact ⟨g', by rw [List.foldl_cons, hg', hg]⟩

/-- An apply that is given up changes the governors, and its context's apply. -/
theorem dropApply_cases (c : Nat) (s : State) : dropApply c s = s ∨
    ∃ g, dropApply c s = ({ s with govs := g } : State).modCtx c fun x => { x with apply := none } := by
  unfold dropApply
  split
  · exact .inl rfl
  · rename_i a _
    obtain ⟨g, hg⟩ := foldl_setGov (fun s k => s.setGov (k % 16 % 8)
      { s.gov (k % 16 % 8) with held := (s.gov (k % 16 % 8)).held - sorterLeave }) (fun _ _ => ⟨_, rfl⟩) a.leave s
    obtain ⟨g', hg'⟩ := foldl_setGov (fun s k => s.setGov (k % 16 % 8) { s.gov (k % 16 % 8) with
      queue := (s.gov (k % 16 % 8)).queue.filter fun r => decide (r.2 ≠ .sorter c (k / 16) (k % 16)) })
      (fun _ _ => ⟨_, rfl⟩) a.waits (returnLeave a.leave s)
    refine .inr ⟨g', ?_⟩
    dsimp only
    rw [hg', returnLeave, hg]

theorem dropApply_keeps {s : State} (h : s.ctxWf = true) (c : Nat) : Keeps c s (dropApply c s) := by
  obtain he | ⟨g, he⟩ := dropApply_cases c s
  · rw [he]
    exact .refl h
  · rw [he]
    exact (keeps_of_ctxs (t := { s with govs := g }) h SameStores.rfl rfl rfl rfl).trans
      (keeps_modCtx (s := { s with govs := g }) h rfl rfl rfl)

theorem endGraph_keeps {s : State} (h : s.ctxWf = true) (c kind code reason : Nat) (v r e : Word) :
    Keeps c s (endGraph c kind code reason v r e s) := by
  have hd := dropApply_keeps h c
  unfold endGraph
  dsimp only
  refine hd.trans ?_
  generalize dropApply c s = u at hd ⊢
  refine Keeps.trans (t := { u with
    recs := u.recs.filter fun r => decide (r.ctx ≠ c),
    engs := smMap Eng.reset (fun _ e => { e with waiting := e.waiting.filter fun k => decide (k.from_.ctx ≠ c) }) u.engs })
    (keeps_of_ctxs hd.wf SameStores.rfl rfl rfl rfl) (keeps_modCtx ?_ rfl rfl rfl)
  exact hd.wf

theorem beginDrain_keeps {s : State} (h : s.ctxWf = true) (c : Nat) (w : DrainCause) (code reason : Nat) (r : Word) :
    Keeps c s (beginDrain c w code reason r s) := by
  refine keeps_modCtx h ?_ ?_ ?_ <;> cases (s.ctx c).st <;> rfl

theorem outcome_keeps {s : State} (h : s.ctxWf = true) (c code reason : Nat) (r : Word) :
    Keeps c s (outcome c code reason r s) := by
  unfold outcome
  split
  · exact beginDrain_keeps h c _ code reason r
  · exact endGraph_keeps h c 2 code reason 0 r 0

theorem seqTrap_keeps {s : State} (h : s.ctxWf = true) (c code reason : Nat) (epc tval : Word) :
    Keeps c s (seqTrap c code reason epc tval s) := by
  unfold seqTrap
  split
  · have hm := keeps_modSeq (c := c) (s := s)
      (f := fun q => q.trapped trapSeqDouble 0 q.addr (causeWord code reason)) h rfl rfl
    exact hm.trans (outcome_keeps hm.wf _ _ _ _)
  · have hm := keeps_modSeq (c := c) (s := s)
      (f := fun q => if (s.ctx c).records code then q.halt epc else q.trapped code reason epc tval) h
      (by split <;> rfl) (by split <;> rfl)
    exact hm.trans (outcome_keeps hm.wf _ _ _ _)

theorem raiseHeld_keeps {s : State} (h : s.ctxWf = true) (c : Nat) (f : HeldFault) : Keeps c s (raiseHeld c f s) := by
  have hm := keeps_modSeq (c := c) (s := s) (f := fun q => { q with faults := q.faults.erase f }) h rfl rfl
  exact hm.trans (seqTrap_keeps hm.wf _ _ _ _ _)

/-! ### Retirement -/

/-- Boundary processing changes nothing of a sequencer but its loop levels. -/
theorem boundary_levels (a : Nat) (l : List Nat) (q : Seq) : ∃ lc lb le act cp wp,
    (boundary a l q).1 = { q with lc := lc, lb := lb, le := le, act := act, cpend := cp, wpend := wp } := by
  induction l generalizing q with
  | nil => exact ⟨q.lc, q.lb, q.le, q.act, q.cpend, q.wpend, rfl⟩
  | cons v l ih =>
    unfold boundary
    split
    · dsimp only
      generalize (if q.cpend.getLsbD v then smGet 0 q.lcw v else smGet 0 q.lc v - 1) = nlc
      generalize (if q.wpend.getLsbD v then smGet 0 q.plb v else smGet 0 q.lb v) = nlb
      generalize (if q.wpend.getLsbD v then smGet 0 q.ple v else smGet 0 q.le v) = nle
      split
      · obtain ⟨lc, lb, le, act, cp, wp, h⟩ := ih _
        exact ⟨lc, lb, le, act, cp, wp, h⟩
      · split <;> exact ⟨_, _, _, _, _, _, rfl⟩
    · exact ih q

theorem moveTo_keeps {s : State} (h : s.ctxWf = true) (c : Nat) (pc : Word) : Keeps c s (moveTo c pc s) :=
  keeps_modCtx h rfl rfl rfl

theorem retire_keeps {s : State} (h : s.ctxWf = true) (c : Nat) : Keeps c s (retire c s) := by
  obtain ⟨lc, lb, le, act, cp, wp, hb⟩ := boundary_levels (s.seq c).addr.toNat loopLevels (s.seq c)
  have hm : Keeps c s (s.modSeq c fun _ => (boundary (s.seq c).addr.toNat loopLevels (s.seq c)).1) :=
    keeps_modSeq h (by rw [hb]) (by rw [hb])
  unfold retire
  dsimp only
  refine hm.trans ?_
  split
  · exact moveTo_keeps hm.wf c _
  · exact moveTo_keeps hm.wf c _
  · exact seqTrap_keeps hm.wf c _ _ _ _

/-- An instruction at which no active level ends goes to the next word (R102). -/
theorem retire_of_noBoundary {c : Nat} {s : State} (hb : NoBoundary (s.seq c)) :
    retire c s = moveTo c ((s.seq c).addr + 4) (s.modSeq c fun _ => s.seq c) := by
  have hn : boundary (s.seq c).addr.toNat loopLevels (s.seq c) = (s.seq c, .none) :=
    boundary_none fun v hv => hb v (by simp [loopLevels] at hv; omega)
  unfold retire
  dsimp only
  rw [hn]

theorem moveTo_ctx {s : State} (h : s.ctxWf = true) (c : Nat) (pc : Word) : (moveTo c pc s).ctx c = { s.ctx c with
    seq := { (s.seq c).point pc with phase := .ready, counted := false },
    fab := { (s.ctx c).fab with idle := 0, heldFences := (s.ctx c).fab.heldFences.erase none } } :=
  State.ctx_modCtx_same h c _

theorem retire_of_noBoundary_ctx {c : Nat} {s : State} (h : s.ctxWf = true) (hb : NoBoundary (s.seq c)) :
    (retire c s).ctx c = { s.ctx c with
      seq := { (s.seq c).point ((s.seq c).addr + 4) with phase := .ready, counted := false },
      fab := { (s.ctx c).fab with idle := 0, heldFences := (s.ctx c).fab.heldFences.erase none } } := by
  rw [retire_of_noBoundary hb, moveTo_ctx (State.ctxWf_modSeq h c _), State.seq_modSeq_same h, State.modSeq,
    State.ctx_modCtx_same h]

/-! ### Issue -/

theorem beginPass_keeps {s : State} (h : s.ctxWf = true) (c : Nat) : Keeps c s (beginPass c s).1 := by
  unfold beginPass
  dsimp only
  split
  · exact .refl h
  · exact keeps_modCtx (f := fun _ => _) h rfl rfl rfl

theorem sbpFreeze_keeps {s : State} (h : s.ctxWf = true) (c k : Nat) : Keeps c s (sbpFreeze c k s) := by
  have ht := seqTrap_keeps h c trapSeqBrk 0 (s.seq c).addr (BitVec.ofNat 64 (0x200 + k))
  exact ht.trans (keeps_modSeq ht.wf rfl rfl)

/-- An instruction keeps what its effect keeps, whatever its issue finds. -/
theorem seqIssue_keeps {c : Nat} {srcs : List Src} {dst : SReg} {s t : State} {k : Nat → State → Out} (hw : s.ctxWf = true)
    (hc : s.cur = .seq c) (h : seqIssue srcs dst s k = .next t)
    (hk : ∀ s', s'.ctxWf = true → k c s' = .next t → Keeps c s' t) : Keeps c s t := by
  obtain ⟨c', hc', hcase⟩ := seqIssue_cases h
  obtain rfl : c' = c := by rw [hc] at hc'; cases hc'; rfl
  have hb := beginPass_keeps hw c'
  obtain ⟨r, -, rfl⟩ | ⟨-, rfl⟩ | ⟨f, -, rfl⟩ | ⟨-, ⟨s', b, hb', rfl⟩ | ⟨s', hb', hk'⟩⟩ := hcase
  · exact seqTrap_keeps hw _ _ _ _ _
  · exact .refl hw
  · exact raiseHeld_keeps hw _ _
  · rw [hb'] at hb
    exact hb.trans (sbpFreeze_keeps hb.wf _ _)
  · rw [hb'] at hb
    exact hb.trans (hk s' hb.wf hk')

end Sys2Proof.Machine
end

section
/-! The arithmetic, the immediate forms, the moves and the control transfer of a sequencer (R97 to R100). -/

namespace Sys2Proof.Machine

open Sys2Proof Sys2Proof.Claims

section
variable {c : Nat} {d a b : SReg} {ea eb e : Bool} {srcs : List Src} {s s' : State}

/-- An instruction whose whole effect is one register write, once it issues (R97 to R99). -/
theorem seqAlu_issues (h : Issues c srcs d s s') (f : Seq → Word) : seqAlu srcs d s f = writes c d (f (s'.seq c)) s' :=
  seqIssue_issues h _

theorem alu2_issues (h : Issues c [(a, ea), (b, eb)] d s s') {f : Word → Word → Word} {v : Word}
    (hv : f ((s'.seq c).rd a) ((s'.seq c).rd b) = v) : alu2 d a b ea eb s f = writes c d v s' :=
  hv ▸ seqAlu_issues h _

theorem aluImm_issues (h : Issues c [(a, e)] d s s') {f : Word → Word} {v : Word} (hv : f ((s'.seq c).rd a) = v) :
    aluImm d a e s f = writes c d v s' :=
  hv ▸ seqAlu_issues h _

end

/-! ### The values of R97 -/

section
variable (x y : Word)

theorem shiftLeft_eq (n : Nat) : x <<< n = BitVec.ofNat 64 (x.toNat * 2 ^ n) := by
  apply BitVec.eq_of_toNat_eq
  simp [Nat.shiftLeft_eq]

theorem ushiftRight_eq (n : Nat) : x >>> n = BitVec.ofNat 64 (x.toNat / 2 ^ n) := by
  apply BitVec.eq_of_toNat_eq
  have hlt : x.toNat / 2 ^ n < 2 ^ 64 := lt_of_le_of_lt (Nat.div_le_self _ _) x.isLt
  rw [BitVec.toNat_ushiftRight, Nat.shiftRight_eq_div_pow, BitVec.toNat_ofNat, Nat.mod_eq_of_lt hlt]

theorem sshiftRight_eq (n : Nat) : x.sshiftRight n = BitVec.ofInt 64 (x.toInt / 2 ^ n) := by
  rw [BitVec.sshiftRight, Int.shiftRight_eq_div_pow]
  norm_cast

theorem boolWord_slt : boolWord (x.slt y) = if x.toInt < y.toInt then 1 else 0 := by
  simp [boolWord, BitVec.slt]

theorem boolWord_ult : boolWord (x.ult y) = if x.toNat < y.toNat then 1 else 0 := by
  simp [boolWord, BitVec.ult]

theorem boolWord_beq : boolWord (x == y) = if x = y then 1 else 0 := by
  simp [boolWord]

theorem smin_eq : (if x.sle y then x else y) = if x.toInt ≤ y.toInt then x else y := by
  simp [BitVec.sle]

theorem umin_eq : (if x.ule y then x else y) = if x.toNat ≤ y.toNat then x else y := by
  simp [BitVec.ule]

/-- Where the two operands are equal, either one is the greater. -/
theorem smax_eq : (if y.sle x then x else y) = if x.toInt ≤ y.toInt then y else x := by
  obtain h | h | h := lt_trichotomy x.toInt y.toInt
  · simp [BitVec.sle, h.le, not_le.2 h]
  · simp [BitVec.eq_of_toInt_eq h]
  · simp [BitVec.sle, h.le, not_le.2 h]

theorem umax_eq : (if y.ule x then x else y) = if x.toNat ≤ y.toNat then y else x := by
  obtain h | h | h := lt_trichotomy x.toNat y.toNat
  · simp [BitVec.ule, h.le, not_le.2 h]
  · simp [BitVec.eq_of_toNat_eq h]
  · simp [BitVec.ule, h.le, not_le.2 h]

end

/-! ### What a register write keeps -/

theorem seq_wr_levels (q : Seq) (d : SReg) (v : Word) : q.wr d v = { q with regs := (q.wr d v).regs } := by
  unfold Seq.wr
  split <;> rfl

theorem noBoundary_wr {q : Seq} (h : NoBoundary q) (d : SReg) (v : Word) : NoBoundary (q.wr d v) := by
  rw [seq_wr_levels]
  exact h

section
variable {c : Nat} {d : SReg} {v : Word} {s t : State}

/-- The write of a register and its retirement, where no active level ends (R61, R102). -/
theorem writes_ctx (hw : s.ctxWf = true) (hb : NoBoundary (s.seq c)) (h : writes c d v s = .next t) :
    t.ctx c = { s.ctx c with
      seq := { ((s.seq c).wr d v).point (((s.seq c).wr d v).addr + 4) with phase := .ready, counted := false },
      fab := { (s.ctx c).fab with idle := 0, heldFences := (s.ctx c).fab.heldFences.erase none } } := by
  cases h
  have hseq := State.seq_modSeq_same hw c fun q => q.wr d v
  rw [retire_of_noBoundary_ctx (State.ctxWf_modSeq hw c _) (by rw [hseq]; exact noBoundary_wr hb d v), hseq, State.modSeq,
    State.ctx_modCtx_same hw]

/-- A register write and its retirement leave the flags, also where its boundary raises SEQ.LOOP (R52, R97). -/
theorem writes_flags (hw : s.ctxWf = true) (h : writes c d v s = .next t) : (t.ctx c).flags = (s.ctx c).flags := by
  cases h
  rw [(retire_keeps (State.ctxWf_modSeq hw c _) c).flags, State.modSeq, State.ctx_modCtx_same hw]

end

/-- Settles O1: the value of each operation is the one of R97's table. -/
theorem aluGroupWritesTableValue : Obligations.AluGroupWritesTableValue := by
  unfold Obligations.AluGroupWritesTableValue
  intro c d a b ea eb s s' h x y sh
  have op := fun (f : Word → Word → Word) {v : Word} (hv : f x y = v) => alu2_issues h hv
  refine ⟨op (fun x y => x + y) ?_, op (fun x y => x - y) ?_, op (fun x y => x * y) ?_, op mulHigh rfl, op mulHighN rfl,
    op (fun x y => x &&& y) rfl, op (fun x y => x ||| y) rfl, op (fun x y => x ^^^ y) rfl,
    op (fun x y => x <<< shiftOf y) (shiftLeft_eq x sh), op (fun x y => x >>> shiftOf y) (ushiftRight_eq x sh),
    op (fun x y => x.sshiftRight (shiftOf y)) (sshiftRight_eq x sh), op (fun x y => boolWord (x.slt y)) (boolWord_slt x y),
    op (fun x y => boolWord (x.ult y)) (boolWord_ult x y), op (fun x y => boolWord (x == y)) (boolWord_beq x y),
    op (fun x y => if x.sle y then x else y) (smin_eq x y), op (fun x y => if y.sle x then x else y) (smax_eq x y),
    op (fun x y => if x.ule y then x else y) (umin_eq x y), op (fun x y => if y.ule x then x else y) (umax_eq x y),
    fun v t hw ht => ⟨writes_flags hw ht, fun hb => ?_⟩⟩
  · exact BitVec.eq_of_toNat_eq (by simp [x, y])
  · rw [Int.sub_eq_add_neg, BitVec.ofInt_add, BitVec.ofInt_neg, BitVec.ofInt_natCast, BitVec.ofInt_natCast, BitVec.ofNat_toNat, BitVec.ofNat_toNat,
      BitVec.setWidth_eq, BitVec.setWidth_eq, BitVec.sub_eq_add_neg]
  · exact BitVec.eq_of_toNat_eq (by simp [x, y])
  · rw [State.seq, writes_ctx hw hb ht]
    exact ⟨rfl, rfl⟩

/-! ### Immediates and moves (R98, R99) -/

theorem immediateFormsUseExtendedImmediate : ImmediateFormsUseExtendedImmediate := by
  unfold ImmediateFormsUseExtendedImmediate
  intro c d a e i n s s' h x si zi
  have hi : si.toInt = i.toInt := BitVec.toInt_signExtend_of_le (by decide)
  have op := fun (f : Word → Word) {v : Word} (hv : f x = v) => aluImm_issues h hv
  exact ⟨op (fun x => x + si) rfl, op (fun x => boolWord (x.slt si)) (by rw [boolWord_slt, ← hi]),
    op (fun x => boolWord (x.ult si)) (boolWord_ult x si), op (fun x => boolWord (x == si)) (boolWord_beq x si),
    op (fun x => x &&& zi) rfl, op (fun x => x ||| zi) rfl, op (fun x => x ^^^ zi) rfl,
    op (fun x => x <<< n.val) (shiftLeft_eq x n), op (fun x => x >>> n.val) (ushiftRight_eq x n),
    op (fun x => x.sshiftRight n.val) (sshiftRight_eq x n)⟩

/-- A word of ones. -/
theorem getLsbD_ones (n j : Nat) : (BitVec.ofNat 64 (2 ^ n - 1)).getLsbD j = (decide (j < 64) && decide (j < n)) := by
  rw [BitVec.getLsbD_ofNat, Nat.testBit_two_pow_sub_one]

/-- Bits <16q+15:16q> of a word replaced by an immediate (R99). -/
theorem getLsbD_quarter (w : Word) (q : Fin 4) (i : BitVec 16) {k : Nat} (hk : k < 64) :
    ((w &&& ~~~((0xFFFF : Word) <<< (16 * q.val))) ||| (i.zeroExtend 64 <<< (16 * q.val))).getLsbD k =
      if k / 16 = q.val then i.getLsbD (k % 16) else w.getLsbD k := by
  have hm : ∀ j, (0xFFFF : Word).getLsbD j = (decide (j < 64) && decide (j < 16)) := getLsbD_ones 16
  have hq := q.isLt
  simp only [BitVec.getLsbD_or, BitVec.getLsbD_and, BitVec.getLsbD_not, BitVec.getLsbD_shiftLeft, hm, hk, decide_true,
    Bool.true_and, BitVec.truncate_eq_setWidth, BitVec.getLsbD_setWidth]
  by_cases hlo : k < 16 * q.val
  · simp [hlo, show k / 16 ≠ q.val by omega]
  · by_cases hhi : k - 16 * q.val < 16
    · simp [hlo, show k / 16 = q.val by omega, show k - 16 * q.val = k % 16 by omega, Nat.mod_lt k (show 16 > 0 by decide),
        show k % 16 < 64 by omega]
    · simp [hlo, hhi, show k / 16 ≠ q.val by omega, i.getLsbD_of_ge (k - 16 * q.val) (by omega)]

/-- An instruction whose source is empty under rule 0 waits (R61). -/
theorem seqIssue_waits_empty {c : Nat} {d dst : SReg} {s : State} (hc : s.cur = .seq c) (he : (s.seq c).isEmpty d = true)
    (k : Nat → State → Out) : seqIssue [(d, false)] dst s k = .next s := by
  have hr : (s.seq c).ready d = false := by
    simp only [Seq.isEmpty, Bool.and_eq_true, decide_eq_true_eq] at he
    simp [Seq.ready, he]
  simp [seqIssue, asSeq, hc, Seq.issue, hr]

theorem movesWriteOneQuarter : MovesWriteOneQuarter := by
  unfold MovesWriteOneQuarter
  refine ⟨fun c d q i s s' h => (seqAlu_issues h _).trans ?_, fun c d q i s s' h => ⟨_, seqAlu_issues h _, fun k hk => ?_⟩,
    fun c d q i s hc he => seqIssue_waits_empty hc he _⟩
  · rw [shiftLeft_eq, BitVec.toNat_setWidth_of_le (by decide)]
  · exact getLsbD_quarter _ q i hk

/-- Settles O2, by the issue of a register write and the bits of a quarter. -/
theorem immediatesAndMoves : Obligations.ImmediatesAndMoves := ⟨immediateFormsUseExtendedImmediate, movesWriteOneQuarter⟩

/-! ### Branches and jumps (R100) -/

theorem wordTarget_eq {w : Nat} (pc : Word) (i : BitVec w) (hw : w ≤ 64) :
    wordTarget pc i = pc + BitVec.ofInt 64 (4 * i.toInt) := by
  have hi : i.signExtend 64 * 4 = BitVec.ofInt 64 (4 * i.toInt) := by
    apply BitVec.eq_of_toInt_eq
    rw [BitVec.toInt_mul, BitVec.toInt_signExtend_of_le hw, BitVec.toInt_ofInt, mul_comm]
    rfl
  rw [wordTarget, hi]

section
variable {c : Nat} {a : SReg} {e : Bool} {i : BitVec 15} {s s' : State}

/-- A branch that issues goes to its target or retires (R100). -/
theorem branch_issues (h : Issues c [(a, e)] 0 s s') {taken : Word → Bool} {p : Prop} [Decidable p]
    (hp : taken ((s'.seq c).rd a) = true ↔ p) : branch a e i s taken =
      .next (if p then moveTo c ((s'.seq c).addr + BitVec.ofInt 64 (4 * i.toInt)) s' else retire c s') := by
  rw [branch, seqIssue_issues h]
  simp only [hp, wordTarget_eq _ i (by decide)]

end

theorem branchesCompareWithZero : BranchesCompareWithZero := by
  unfold BranchesCompareWithZero
  intro c a e i k s s' h x t go
  have hz : x = 0 ↔ x.toInt = 0 := ⟨fun h => by simp [h], fun h => BitVec.eq_of_toInt_eq (by simp [h])⟩
  have op := fun (taken : Word → Bool) {p : Prop} [Decidable p] (hp : taken x = true ↔ p) => branch_issues (i := i) h hp
  exact ⟨op (fun x => x == 0) (by simpa using hz), op (fun x => x != 0) (by simpa using not_congr hz),
    op (fun x => x.slt 0) (by simp [BitVec.slt]), op (fun x => !x.slt 0) (by simp [BitVec.slt]),
    op (fun x => BitVec.slt 0 x) (by simp [BitVec.slt]), op (fun x => !BitVec.slt 0 x) (by simp [BitVec.slt]),
    op (fun x => x.getLsbD k.val) Iff.rfl, op (fun x => !x.getLsbD k.val) (by simp)⟩

/-- The two low bits cleared. -/
theorem toNat_clear_low_bits (w : Word) : (w &&& ~~~(3 : Word)).toNat = w.toNat / 4 * 4 := by
  have h : w &&& ~~~(3 : Word) = (w >>> 2) <<< 2 := by
    apply BitVec.eq_of_getLsbD_eq
    intro k hk
    have h3 : (3 : Word).getLsbD k = (decide (k < 64) && decide (k < 2)) := getLsbD_ones 2 k

    simp only [BitVec.getLsbD_and, BitVec.getLsbD_not, BitVec.getLsbD_shiftLeft, BitVec.getLsbD_ushiftRight, h3, hk,
      decide_true, Bool.true_and]
    by_cases h2 : k < 2
    · simp [h2]
    · simp [h2, show 2 + (k - 2) = k by omega]
  rw [h, shiftLeft_eq, ushiftRight_eq]
  simp
  omega

theorem jumpsLinkAndGo : JumpsLinkAndGo := by
  unfold JumpsLinkAndGo
  refine ⟨fun c d i s s' h => ?_, fun c d a e i s s' h => ⟨_, seqIssue_issues h _, ?_⟩⟩
  · rw [← wordTarget_eq _ _ (by decide)]
    exact seqIssue_issues h _
  · rw [toNat_clear_low_bits]
    exact congrArg (fun w : Word => w.toNat / 4 * 4) (wordTarget_eq _ _ (by decide))

/-- Settles O5, by the branch and the two jumps once they issue. -/
theorem branchesAndJumps : Obligations.BranchesAndJumps := ⟨branchesCompareWithZero, jumpsLinkAndGo⟩

end Sys2Proof.Machine
end

section
/-! What the register and control instructions of a sequencer leave unchanged (R97 to R103, R111 to R113, R121 to R123). -/

namespace Sys2Proof.Machine

open Sys2Proof Sys2Proof.Claims

/-! ### The instructions whose whole effect is one register -/

theorem rd_wr_ne {q : Seq} (h : smWf 0 q.regs = true) {d r : SReg} (hr : r ≠ d) (v : Word) : (q.wr d v).rd r = q.rd r := by
  unfold Seq.wr
  split
  · rfl
  · have hv : r.val ≠ d.val := fun he => hr (Fin.ext he)
    simp only [Seq.rd, smGet_smSet_ne h v hv]

/-- Each of them writes some value to its destination and retires. -/
theorem registerInstruction_writes {c : Nat} {d a b : SReg} {ea eb : Bool} {i : BitVec 15} {n : Fin 64} {q : Fin 4}
    {k : BitVec 16} {s s' : State} {srcs : List Src} {j : Instr}
    (hj : (srcs, j) ∈ ([Instr.add d a b ea eb, .sub d a b ea eb, .mul d a b ea eb, .mulh d a b ea eb, .mulhn d a b ea eb,
        .and d a b ea eb, .or d a b ea eb, .xor d a b ea eb, .sll d a b ea eb, .srl d a b ea eb, .sra d a b ea eb,
        .slt d a b ea eb, .sltn d a b ea eb, .seq d a b ea eb, .min d a b ea eb, .max d a b ea eb, .minn d a b ea eb,
        .maxn d a b ea eb].map fun j => ([(a, ea), (b, eb)], j)) ++
      ([Instr.addi d a ea i, .slti d a ea i, .sltni d a ea i, .seqi d a ea i, .andi d a ea i, .ori d a ea i, .xori d a ea i,
        .slli d a ea n, .srli d a ea n, .srai d a ea n].map fun j => ([(a, ea)], j)) ++
      [([], .movz d q k), ([(d, false)], .movk d q k)])
    (h : Issues c srcs d s s') : ∃ v, exec j s = writes c d v s' := by
  have alu : ∀ {f : Seq → Word}, exec j s = seqAlu srcs d s f → ∃ v, exec j s = writes c d v s' :=
    fun he => ⟨_, he.trans (seqAlu_issues h _)⟩
  simp only [List.map_cons, List.map_nil, List.cons_append, List.nil_append] at hj
  fin_cases hj <;> exact alu rfl

theorem registerInstructionsFrame : RegisterInstructionsFrame := by
  unfold RegisterInstructionsFrame
  intro c d a b r ea eb i n q k s s' t srcs j hj hi hw hregs hb ht x y
  obtain ⟨v, hv⟩ := registerInstruction_writes hj hi
  have hwr : writes c d v s' = .next t := hv.symm.trans ht
  have hy : y = _ := writes_ctx hw hb hwr
  have hrd := fun hr : r ≠ d => rd_wr_ne hregs hr v
  have hlev := seq_wr_levels (s'.seq c) d v
  have hret : t = retire c (s'.modSeq c fun q => q.wr d v) := by cases hwr; rfl
  have hnb : NoBoundary ((s'.modSeq c fun q => q.wr d v).seq c) := by
    rw [State.seq_modSeq_same hw]
    exact noBoundary_wr hb d v
  have hk := retire_keeps (State.ctxWf_modSeq hw c fun q => q.wr d v) c
  rw [← hret] at hk
  have hrecs : t.recs = s'.recs := by rw [hret, retire_of_noBoundary hnb]; rfl
  refine ⟨hk.stores.1, hk.stores.2.1, hk.stores.2.2.1, hk.tagtab, hk.acc, hrecs,
    fun o ho => (hk.others o ho).trans (State.ctx_modCtx_ne hw _ ho), fun hr => ?_, ?_⟩
  · rw [hy]
    exact hrd hr
  · rw [hy, hlev]
    exact ⟨rfl, rfl, rfl, rfl, rfl, rfl, rfl, rfl, rfl, rfl, rfl, rfl, rfl, rfl, rfl⟩

/-! ### The instructions that go elsewhere or wait -/

theorem stopAt_keeps {s : State} (h : s.ctxWf = true) (c : Nat) (pc : Word) : Keeps c s (stopAt c pc s) :=
  keeps_modSeq h rfl rfl

theorem next_inj {s t : State} (h : (Host.Outcome.next s : Out) = .next t) : s = t := by cases h; rfl

/-- The barrier and the phase that a wait of the sequencer is held for: those of the wait in progress, or its target (R111). -/
def heldTarget (c n : Nat) (s : State) : Nat × Nat :=
  match (s.seq c).phase with
  | .barWait i p => (i, p)
  | _ => waitTarget c n .seq s

theorem execWait_eq (n : Fin 128) (s : State) : execWait n s = seqIssue [] 0 s fun c s =>
    .next (if released c .seq (heldTarget c n.val s).1 (heldTarget c n.val s).2 s then retire c s
      else s.modSeq c fun q => { q with phase := .barWait (heldTarget c n.val s).1 (heldTarget c n.val s).2 }) := rfl

section
variable {c : Nat} {s t : State} (hw : s.ctxWf = true) (hc : s.cur = .seq c)
include hw hc

theorem branch_keeps {a : SReg} {e : Bool} {i : BitVec 15} {taken : Word → Bool} (h : branch a e i s taken = .next t) :
    Keeps c s t := by
  refine seqIssue_keeps hw hc h fun s' hw' hk => ?_
  rw [← next_inj hk]
  split
  · exact moveTo_keeps hw' c _
  · exact retire_keeps hw' c

theorem execLoop_keeps {v : Fin 4} {a : SReg} {e : Bool} {n : BitVec 15} (h : execLoop v a e n s = .next t) : Keeps c s t := by
  refine seqIssue_keeps hw hc h fun s' hw' hk => ?_
  rw [← next_inj hk]
  split
  · exact moveTo_keeps hw' c _
  · have hm := keeps_modSeq (c := c) (s := s') (f := fun q => q.startLoop v.val n.toNat (q.rd a)) hw' rfl rfl
    exact hm.trans (moveTo_keeps hm.wf c _)

omit hw hc in
theorem arriveAt_keeps {n : Nat} {a : Agent} {s u : State} (hw : s.ctxWf = true) (h : arriveAt c n a s = .joins u) :
    Keeps c s u := by
  unfold arriveAt at h
  dsimp only at h
  split at h
  · cases h
  · split at h
    · cases h
    · cases h
      exact keeps_modFab hw _

theorem execArrive_keeps {n : Fin 128} (h : execArrive n s = .next t) : Keeps c s t := by
  refine seqIssue_keeps hw hc h fun s' hw' hk => ?_
  split at hk
  · exact next_inj hk ▸ .refl hw'
  · rw [← next_inj hk]
    split
    · exact retire_keeps hw' c
    · exact .refl hw'
  · next u hu =>
    have hj := arriveAt_keeps hw' hu
    exact next_inj hk ▸ hj.trans (retire_keeps hj.wf c)

theorem execWait_keeps {n : Fin 128} (h : execWait n s = .next t) : Keeps c s t := by
  rw [execWait_eq] at h
  refine seqIssue_keeps hw hc h fun s' hw' hk => ?_
  rw [← next_inj hk]
  split
  · exact retire_keeps hw' c
  · exact keeps_modSeq hw' rfl rfl

theorem seqFence_keeps {deps : Nat → State → List Dep} (h : seqFence s deps = .next t) : Keeps c s t := by
  refine seqIssue_keeps hw hc h fun s' hw' hk => ?_
  rw [← next_inj hk]
  split
  · exact retire_keeps hw' c
  · exact .refl hw'

theorem execYield_keeps (h : execYield s = .next t) : Keeps c s t := by
  refine seqIssue_keeps hw hc h fun s' hw' hk => ?_
  rw [← next_inj hk]
  have hr := retire_keeps hw' c
  split
  · exact hr.trans (stopAt_keeps hr.wf c _)
  · exact hr

theorem execQwait_keeps (h : execQwait s = .next t) : Keeps c s t := by
  refine seqIssue_keeps hw hc h fun s' hw' hk => ?_
  dsimp only at hk
  split at hk
  · rw [← next_inj hk]
    split
    · exact stopAt_keeps hw' c _
    · exact .refl hw'
  · split at hk
    · exact next_inj hk ▸ raiseHeld_keeps hw' c _
    · exact next_inj hk ▸ retire_keeps hw' c

omit hc in
theorem trapAfter_keeps (code : Nat) (tval : Word) : Keeps c s (trapAfter c code tval s) := by
  have hr := retire_keeps hw c
  unfold trapAfter
  dsimp only
  split
  · exact hr
  · split
    · have hm := keeps_modSeq (c := c) (s := retire c s) (f := fun q => q.point (s.seq c).addr) hr.wf rfl rfl
      exact (hr.trans hm).trans (seqTrap_keeps hm.wf c _ _ _ _)
    · exact hr.trans (seqTrap_keeps hr.wf c _ _ _ _)

theorem execTret_keeps (h : execTret s = .next t) : Keeps c s t := by
  refine seqIssue_keeps hw hc h fun s' hw' hk => ?_
  rw [← next_inj hk]
  split
  · have hm := keeps_modSeq (c := c) (s := s') (f := fun r => { r with h := false }) hw' rfl rfl
    exact hm.trans (moveTo_keeps hm.wf c _)
  · exact seqTrap_keeps hw' c _ _ _ _

theorem controlInstruction_keeps {a : SReg} {e : Bool} {i : BitVec 15} {k : Fin 32} {v : Fin 4} {n : Fin 128} {g : Fin 32}
    {m : BitVec 9} {j : Instr}
    (hj : j ∈ [Instr.beqz a e i, .bnez a e i, .bltz a e i, .bgez a e i, .bgtz a e i, .blez a e i, .bbs k a e i, .bbc k a e i,
      .loop v a e i, .arrive n, .wait n, .fence g, .fenceAcq g, .fenceRel g, .yield, .qwait, .trap i, .brk m, .tret])
    (h : exec j s = .next t) : Keeps c s t := by
  have branches : ∀ taken : Word → Bool, exec j s = branch a e i s taken → Keeps c s t :=
    fun _ he => branch_keeps hw hc (he.symm.trans h)
  have fences : ∀ {deps : Nat → State → List Dep}, exec j s = seqFence s deps → Keeps c s t :=
    fun he => seqFence_keeps hw hc (he.symm.trans h)
  have trapsAfter : ∀ {code : Nat} {tval : Word},
      (exec j s = seqIssue [] 0 s fun c s => .next (trapAfter c code tval s)) → Keeps c s t :=
    fun he => seqIssue_keeps hw hc (he.symm.trans h) fun s' hw' hk => next_inj hk ▸ trapAfter_keeps hw' _ _
  simp only [List.mem_cons, List.not_mem_nil, or_false] at hj
  rcases hj with rfl | rfl | rfl | rfl | rfl | rfl | rfl | rfl | rfl | rfl | rfl | rfl | rfl | rfl | rfl | rfl | rfl | rfl | rfl
  exacts [branches (fun x => x == 0) rfl, branches (fun x => x != 0) rfl, branches (fun x => x.slt 0) rfl,
    branches (fun x => !x.slt 0) rfl, branches (fun x => BitVec.slt 0 x) rfl, branches (fun x => !BitVec.slt 0 x) rfl,
    branches (fun x => x.getLsbD k.val) rfl, branches (fun x => !x.getLsbD k.val) rfl,
    execLoop_keeps hw hc h, execArrive_keeps hw hc h, execWait_keeps hw hc h, fences rfl, fences rfl, fences rfl,
    execYield_keeps hw hc h, execQwait_keeps hw hc h, trapsAfter rfl, trapsAfter rfl, execTret_keeps hw hc h]

end

theorem controlInstructionsFrame : ControlInstructionsFrame := by
  unfold ControlInstructionsFrame
  intro c a e i k v n g m s t j hj hc hw _ h
  obtain ⟨-, ⟨hsp, hhbm, hhost, -⟩, hacc, htag, hothers, hregs, htvec, -⟩ := controlInstruction_keeps hw hc hj h
  exact ⟨hsp, hhbm, hhost, hacc, htag, hregs, htvec, hothers⟩

/-- Settles O60, by what each instruction's effect, and a trap, a wait or a breakpoint in its place, keeps. -/
theorem instructionFrames : Obligations.InstructionFrames := ⟨registerInstructionsFrame, controlInstructionsFrame⟩

end Sys2Proof.Machine
end

section
/-! Traps of a sequencer, of a node and of an access: the trap registers, and how the graph is suspended or retired (R10, R95,
R122, R180, R310, R320, R322, R342, R343). -/

namespace Sys2Proof.Machine

open Sys2Proof Sys2Proof.Claims

/-! ### Changes of every entry of a store -/

theorem smGet_smMapFrom {α : Type} [DecidableEq α] {d : α} {f : Nat → α → α} (hf : ∀ i, f i d = d) {lo : Nat} {m : SMap α}
    (h : smWfFrom d lo m = true) (i : Nat) : smGet d (smMap d f m) i = f i (smGet d m i) := by
  induction m generalizing lo with
  | nil => exact (hf i).symm
  | cons p m ih =>
    simp only [smWfFrom, Bool.and_eq_true, decide_eq_true_eq] at h
    have htail : smGet d (smMap d f m) i = f i (smGet d m i) := ih h.2
    have hbelow : i < p.1 + 1 → smGet d (smMap d f m) i = d := smGet_below (smWfFrom_smMap f h.2)
    have hcons : smMap d f (p :: m) = if f p.1 p.2 = d then smMap d f m else (p.1, f p.1 p.2) :: smMap d f m := by
      rw [smMap, List.filterMap_cons]
      by_cases hd : f p.1 p.2 = d <;> simp [hd, smMap]
    rw [hcons]
    obtain hi | rfl | hi := lt_trichotomy i p.1
    · have hne : i ≠ p.1 := by omega
      have hb := hbelow (by omega)
      split <;> simp [smGet, hne, hi, hf, hb]
    · have hb := hbelow (by omega)
      split
      next hd => simp [smGet, hd, hb]
      next hd => simp [smGet]
    · have hne : i ≠ p.1 := by omega
      have hnl : ¬ i < p.1 := by omega
      split <;> simp [smGet, hne, hnl, htail]

/-- A change of every entry of a canonical store, read at a key. -/
theorem smGet_smMap {α : Type} [DecidableEq α] {d : α} {f : Nat → α → α} (hf : ∀ i, f i d = d) {m : SMap α}
    (h : smWf d m = true) (i : Nat) : smGet d (smMap d f m) i = f i (smGet d m i) := smGet_smMapFrom hf h i

/-! ### The two outcomes of a trap (R10) -/

theorem suspendCause_isSome (code : Nat) :
    (suspendCause code).isSome = true ↔ code ∈ [0x0301, 0x0302, 0x0308, 0x0403, 0x0404, 0x0104] := by
  simp only [suspendCause, trapSeqBrk, trapOpBrk, trapSeqEmpty, trapSeqTrap, trapTagDeep, trapOpTrap, List.mem_cons,
    List.not_mem_nil, or_false]
  by_cases hf : code = 776 ∨ code = 1028
  · simp only [hf, if_true, Option.isSome_some, true_iff]
    omega
  · by_cases ht : code = 769 ∨ code = 770 ∨ code = 260 ∨ code = 1027
    · simp only [hf, ht, if_true, if_false, Option.isSome_some, true_iff]
      omega
    · simp only [hf, ht, if_false, Option.isSome_none, Bool.false_eq_true, false_iff]
      omega

theorem records_iff (x : Ctx) (code : Nat) :
    x.records code = true ↔ x.st = .draining ∧ code ∈ [0x0301, 0x0302, 0x0308, 0x0403, 0x0404, 0x0104] := by
  rw [Ctx.records, Bool.and_eq_true, decide_eq_true_eq, suspendCause_isSome]

theorem causeWord_eq {code reason : Nat} (hc : code < 2 ^ 16) (hr : reason < 2 ^ 16) :
    causeWord code reason = BitVec.ofNat 64 (code + reason * 2 ^ 16) := by
  rw [causeWord, Nat.mod_eq_of_lt hc, Nat.mod_eq_of_lt hr]

theorem ctx_modCtx_of {s : State} {c : Nat} {x : Ctx} (hw : s.ctxWf = true) (hx : s.ctx c = x) (f : Ctx → Ctx) :
    (s.modCtx c f).ctx c = f x := by
  rw [State.ctx_modCtx_same hw, hx]

section
variable {s : State} (hw : s.ctxWf = true) (c code reason : Nat) (report : Word)
include hw

/-- The context of a graph that has ended (R124, R310, R326). -/
theorem endGraph_ctx_eq (kind : Nat) (v e : Word) : (endGraph c kind code reason v report e s).ctx c = { s.ctx c with
    apply := none, st := .retiring, fab := (s.ctx c).fab.strip, seq := { s.seq c with phase := .stopped }, cause := none,
    cookieStop := none, later := [], saved := none, slots := smMap Slot.zero (fun _ v => v.discard) (s.ctx c).slots,
    bindings := [],
    ending := some { kind := kind, code := code, reason := reason, value := v, flags := 0, report := report, extra := e,
                     cookie := ((s.ctx c).task.map (·.cookie)).getD 0, seqno := ((s.ctx c).task.map (·.seqno)).getD 0 } } := by
  have hd := dropApply_ctx hw c
  have hdw := dropApply_ctxWf hw c
  unfold endGraph
  dsimp only
  refine (ctx_modCtx_of (x := { s.ctx c with apply := none }) ?_ ?_ _).trans rfl
  · exact hdw
  · exact hd

theorem outcome_seq : (outcome c code reason report s).seq c =
    if (suspendCause code).isSome = true then s.seq c else { s.seq c with phase := .stopped } := by
  unfold outcome
  split
  next w h =>
    rw [h, Option.isSome_some, if_pos rfl, State.seq, beginDrain, State.ctx_modCtx_same hw]
    split <;> rfl
  next h =>
    rw [h, Option.isSome_none, if_neg Bool.false_ne_true, State.seq, endGraph_ctx_eq hw]

theorem outcome_running {w : DrainCause} (hs : suspendCause code = some w) (hst : (s.ctx c).st = .running) :
    (outcome c code reason report s).ctx c = { s.ctx c with
      st := .draining, cause := some w, causeCode := code, causeReason := reason, causeReport := report,
      fab := { (s.ctx c).fab with draining := true } } := by
  unfold outcome
  rw [hs]
  dsimp only
  rw [beginDrain, State.ctx_modCtx_same hw, hst]

theorem outcome_draining {w : DrainCause} (hs : suspendCause code = some w) (hst : (s.ctx c).st = .draining) :
    (outcome c code reason report s).ctx c = { s.ctx c with
      later := (s.ctx c).later ++ (if code = 0 then [] else [(code, reason, report)]) } := by
  unfold outcome
  rw [hs]
  dsimp only
  rw [beginDrain, State.ctx_modCtx_same hw, hst]

omit hw in
theorem outcome_retires (hs : suspendCause code = none) :
    outcome c code reason report s = endGraph c 2 code reason 0 report 0 s := by
  unfold outcome
  rw [hs]

end

/-! ### The trap registers (R95, R122, R322) -/

section
variable {s : State} (hw : s.ctxWf = true) {c : Nat} (code reason : Nat) (epc tval : Word)
include hw

theorem seqTrap_seq (hh : (s.seq c).h = false) : (seqTrap c code reason epc tval s).seq c =
    if (s.ctx c).records code = true then (s.seq c).halt epc else (s.seq c).trapped code reason epc tval := by
  simp only [seqTrap, hh, Bool.false_eq_true, if_false]
  rw [outcome_seq (State.ctxWf_modSeq hw c _), State.seq_modSeq_same hw]
  split <;> split <;> rfl

theorem seqTrap_seq_double (hh : (s.seq c).h = true) : (seqTrap c code reason epc tval s).seq c =
    (s.seq c).trapped trapSeqDouble 0 (s.seq c).addr (causeWord code reason) := by
  simp only [seqTrap, hh, if_true]
  rw [outcome_seq (State.ctxWf_modSeq hw c _), State.seq_modSeq_same hw]
  rfl

/-- A trap of a node is recorded, or writes seq.cause and seq.tval, and seq.epc where it retires the graph. -/
def Seq.nodeTrapped (q : Seq) (recorded : Bool) (code reason : Nat) (report : Word) : Seq :=
  if recorded = true then q
  else { q with cause := causeWord code reason, tval := report,
                epc := if (suspendCause code).isNone then epcWord q.addr else q.epc }

omit hw in
theorem nodeTrap_eq (hh : (s.seq c).h = false) : nodeTrap c code reason tval s =
    outcome c code reason tval (s.modSeq c fun q => q.nodeTrapped ((s.ctx c).records code) code reason tval) := by
  simp only [nodeTrap, hh, Bool.false_eq_true, if_false]
  rfl

theorem nodeTrap_seq (hh : (s.seq c).h = false) : (nodeTrap c code reason tval s).seq c =
    if (suspendCause code).isSome = true then (s.seq c).nodeTrapped ((s.ctx c).records code) code reason tval
    else { (s.seq c).nodeTrapped ((s.ctx c).records code) code reason tval with phase := .stopped } := by
  rw [nodeTrap_eq code reason tval hh, outcome_seq (State.ctxWf_modSeq hw c _), State.seq_modSeq_same hw]

omit hw in
theorem nodeTrap_double (hh : (s.seq c).h = true) : nodeTrap c code reason tval s =
    endGraph c 2 trapSeqDouble 0 0 (causeWord code reason) 0 (s.modSeq c fun q =>
      { q with cause := causeWord trapSeqDouble 0, epc := epcWord q.addr, tval := causeWord code reason }) := by
  simp only [nodeTrap, hh, if_true]
  exact outcome_retires c trapSeqDouble 0 _ (by decide)

end

theorem nodeTrap_keeps {s : State} (h : s.ctxWf = true) (c code reason : Nat) (r : Word) :
    Keeps c s (nodeTrap c code reason r s) := by
  cases hh : (s.seq c).h
  · rw [nodeTrap_eq code reason r hh]
    have hm := keeps_modSeq (c := c) (s := s)
      (f := fun q => q.nodeTrapped ((s.ctx c).records code) code reason r) h
      (by unfold Seq.nodeTrapped; split <;> rfl) (by unfold Seq.nodeTrapped; split <;> rfl)
    exact hm.trans (outcome_keeps hm.wf _ _ _ _)
  · rw [nodeTrap_double code reason r hh]
    have hm := keeps_modSeq (c := c) (s := s) (f := fun q =>
      { q with cause := causeWord trapSeqDouble 0, epc := epcWord q.addr, tval := causeWord code reason }) h rfl rfl
    exact hm.trans (endGraph_keeps hm.wf c _ _ _ _ _ _)

theorem trapEntryWritesTrapRegisters : TrapEntryWritesTrapRegisters := by
  unfold TrapEntryWritesTrapRegisters
  intro c code reason epc tval s hw hcode hreason q t u word halted records
  have hrec : (s.ctx c).records code = true ↔ records := records_iff _ _
  have hword : causeWord code reason = word := causeWord_eq hcode hreason
  obtain ⟨htsp, hthbm, hthost, -⟩ := seqTrap_stores c code reason epc tval s
  obtain ⟨husp, huhbm, huhost, -⟩ := nodeTrap_stores c code reason tval s
  have hplain := fun hh : q.h = false => seqTrap_seq hw code reason epc tval hh
  have hnode := fun hh : q.h = false => nodeTrap_seq hw code reason tval hh
  refine ⟨htsp, hthbm, hthost, fun hh hr => ?_, fun hh hr => ?_, fun hh => ?_, husp, huhbm, huhost,
    (nodeTrap_keeps hw c code reason tval).regs, fun hh hr => ?_, fun hh hr => ?_, fun hh => ?_⟩
  · rw [hplain hh, if_neg (mt hrec.1 hr), Seq.trapped, hword]
    rfl
  · rw [hplain hh, if_pos (hrec.2 hr)]
    rfl
  · rw [seqTrap_seq_double hw code reason epc tval hh, hword]
    rfl
  · rw [hnode hh, Seq.nodeTrapped, if_neg (mt hrec.1 hr), hword]
    split <;> exact ⟨rfl, rfl⟩
  · rw [hnode hh, Seq.nodeTrapped, if_pos (hrec.2 hr), if_pos ((suspendCause_isSome code).2 hr.2)]
  · rw [State.seq, show u = _ from nodeTrap_double code reason tval hh, endGraph_ctx_eq (State.ctxWf_modSeq hw c _),
      State.seq_modSeq_same hw, hword]
    exact ⟨rfl, rfl⟩

theorem trapOutcomeSuspendsOrRetires : TrapOutcomeSuspendsOrRetires := by
  unfold TrapOutcomeSuspendsOrRetires
  intro c reason epc tval s hw hh hst after
  have hafter : ∀ code, after code = (outcome c code reason tval (s.modSeq c fun q => q.trapped code reason epc tval)).ctx c := by
    intro code
    simp [after, seqTrap, hh, Ctx.records, hst]
  have hwm : ∀ f, (s.modSeq c f).ctxWf = true := State.ctxWf_modSeq hw c
  have hstm : ∀ f, ((s.modSeq c f).ctx c).st = .running := fun f => by rw [State.modSeq, State.ctx_modCtx_same hw, hst]
  refine ⟨fun code hcode => ?_, fun code hcode => ?_⟩
  · have hs : suspendCause code = some (if code = 0x0308 then .freeze else .trap) := by
      simp only [List.mem_cons, List.not_mem_nil, or_false] at hcode
      rcases hcode with rfl | rfl | rfl <;> rfl
    rw [hafter, outcome_running (hwm _) c code reason tval hs (hstm _)]
    exact ⟨rfl, rfl, rfl, rfl⟩
  · have hs : suspendCause code = none := by
      simp only [List.mem_cons, List.not_mem_nil, or_false] at hcode
      rcases hcode with rfl | rfl | rfl | rfl <;> rfl
    rw [hafter, outcome_retires c code reason tval hs, endGraph_ctx_eq (hwm _)]
    exact ⟨rfl, _, rfl, rfl, rfl, rfl, rfl⟩

/-! ### The trap of a node -/

theorem nodeTrapTakesItsOutcome : NodeTrapTakesItsOutcome := by
  unfold NodeTrapTakesItsOutcome
  intro c code reason report s hw hh hcode hreason t y suspends records
  have hsus : (suspendCause code).isSome = true ↔ suspends := by
    rw [suspendCause_isSome]
    simp only [suspends, List.mem_cons, List.not_mem_nil, or_false]
    omega
  have hrec : (s.ctx c).records code = true ↔ records := by
    rw [Ctx.records, Bool.and_eq_true, decide_eq_true_eq, hsus]
    exact And.comm
  have hseq : y.seq = _ := nodeTrap_seq hw code reason report hh
  have ht : t = _ := nodeTrap_eq code reason report hh
  have hctx := State.ctx_modCtx_same hw c fun x => { x with seq := x.seq.nodeTrapped ((s.ctx c).records code) code reason report }
  obtain ⟨hsp, hhbm, hhost, -⟩ := nodeTrap_stores c code reason report s
  have hwm := State.ctxWf_modSeq hw c fun q => q.nodeTrapped ((s.ctx c).records code) code reason report
  refine ⟨fun hr => ?_, fun hr => ?_, (nodeTrap_keeps hw c code reason report).regs, fun hs => ?_, fun hs => ?_, hsp, hhbm, hhost,
    fun hs hst => ?_, fun hs hst => ?_, fun hs => ?_⟩
  · rw [hseq, Seq.nodeTrapped, if_neg (mt hrec.1 hr), causeWord_eq hcode hreason]
    split <;> exact ⟨rfl, rfl⟩
  · rw [hseq, if_pos (hsus.2 hr.1), Seq.nodeTrapped, if_pos (hrec.2 hr)]
  · rw [hseq, if_pos (hsus.2 hs), Seq.nodeTrapped]
    obtain ⟨w, hw⟩ := Option.isSome_iff_exists.1 (hsus.2 hs)
    split
    · rfl
    · simp [hw]
  · have hn : suspendCause code = none := by simpa using mt hsus.1 hs
    have hnr : ¬ (s.ctx c).records code = true := fun h => hs (hrec.1 h).1
    rw [hseq, if_neg (mt hsus.1 hs), Seq.nodeTrapped, if_neg hnr, hn]
    rfl
  · obtain ⟨w, hsome⟩ := Option.isSome_iff_exists.1 (hsus.2 hs)
    have hy : y = _ := (congrArg (State.ctx · c) ht).trans
      (outcome_running hwm c code reason report hsome (by rw [State.modSeq, hctx, hst]))
    rw [hy]
    exact ⟨rfl, rfl, rfl, rfl, rfl⟩
  · obtain ⟨w, hsome⟩ := Option.isSome_iff_exists.1 (hsus.2 hs)
    have hy : y = _ := (congrArg (State.ctx · c) ht).trans
      (outcome_draining hwm c code reason report hsome (by rw [State.modSeq, hctx, hst]))
    rw [hy, State.modSeq, hctx]
    exact ⟨hst, rfl, rfl, fun h0 => by rw [if_neg h0]⟩
  · have hn : suspendCause code = none := by simpa using mt hsus.1 hs
    have hy : y = _ := (congrArg (State.ctx · c) (ht.trans (outcome_retires c code reason report hn))).trans
      (endGraph_ctx_eq hwm c code reason report 2 0 0)
    rw [hy, State.modSeq, hctx]
    refine ⟨rfl, rfl, rfl, rfl, fun n hslots => ?_, _, rfl, rfl, rfl, rfl, rfl⟩
    rw [smGet_smMap (fun _ => rfl) hslots]
    unfold Slot.discard
    split
    next hl => exact ⟨rfl, rfl⟩
    next hl => exact ⟨by simpa using hl, rfl⟩

/-- Settles O6, by the trap registers and the two outcomes of a trap. -/
theorem trapsTakeTheirOutcomes : Obligations.TrapsTakeTheirOutcomes :=
  ⟨trapEntryWritesTrapRegisters, trapOutcomeSuspendsOrRetires, nodeTrapTakesItsOutcome⟩

end Sys2Proof.Machine
end

section
/-! The configuration of a region: cfg checks its image, keeps a resident one, and else starts a load (R104, R290). -/

namespace Sys2Proof.Machine

open Sys2Proof Sys2Proof.Claims

theorem overlaid_eq (p f : Nat) (j : LoadJob) :
    j.overlaid p f = if j.plane < p + f ∧ p < j.plane + j.fold then { j with dropped := true } else j := by
  unfold LoadJob.overlaid
  split
  next h => simp [h]
  next h => simp [h]

/-- The parts of an image whose destinations are its own nodes start its load (R104, R292). -/
theorem cfgParts_loads {c va p f ident : Nat} {u v w : State} {ds : List Nat} {d : ImgData}
    (hds : readWords c (.seq c) (u.ctx c).seqDie (va + 64) (4 * ((u.ctx c).size * f)) u = .ok ds v)
    (hparts : readParts c (.seq c) (u.ctx c).seqDie va f p (descsOf 0 ds) { nodes := [], holds := [], offs := [] } v = .ok d w)
    (hdest : destsBad d (u.ctx c).size = none) (hhold : d.holds = [] ∨ (u.ctx c).fab.period = none) :
    cfgParts c va p f ident u = .next (retire c ((w.dropLoads (u.ctx c) p f).modFab c fun b => { b with
      loads := (b.loads.map fun j => if j.plane < p + f ∧ p < j.plane + j.fold then { j with dropped := true } else j) ++
        [{ addr := va, ident := ident, plane := p, fold := f, nodes := d.nodes, holds := d.holds, dropped := false }] })) := by
  have hnw : ¬ (d.holds ≠ [] ∧ (u.ctx c).fab.period.isSome = true) := by
    rintro ⟨h1, h2⟩
    obtain h | h := hhold
    · exact h1 h
    · simp [h] at h2
  unfold cfgParts
  simp only [hds, hparts, hdest, if_neg hnw, funext (overlaid_eq p f)]

section
variable {c : Nat} {a : SReg} {e : Bool} {p : Fin 4} {s s' u : State} {ws : List Nat}

theorem exec_cfg_misaligned (h : Issues c [(a, e)] 0 s s') (hva : ((s'.seq c).rd a).toNat % 64 ≠ 0) :
    exec (.cfg a e p) s = trapHere c { code := 0x0201, report := ((s'.seq c).rd a).toNat } s' := by
  have hexec : exec (.cfg a e p) s = execCfg a e p s := rfl
  rw [hexec, execCfg, seqIssue_issues h]
  exact if_pos hva

/-- cfg after it has read the image's header, by the checks of R104 in their order. -/
theorem exec_cfg_header (h : Issues c [(a, e)] 0 s s') (hva : ((s'.seq c).rd a).toNat % 64 = 0)
    (hws : readWords c (.seq c) (s'.ctx c).seqDie ((s'.seq c).rd a).toNat 16 s' = .ok ws u) :
    exec (.cfg a e p) s =
      let va := ((s'.seq c).rd a).toNat
      let f := ws.getD 2 0 % 256
      let ident := ws.getD 0 0 + ws.getD 1 0 * 2 ^ 32
      match imgHeadBad ws with
      | some w => trapHere c { code := 0x0401, report := va + 4 * w } u
      | none =>
        if 4 < p.val + f ∨ bits (ws.getD 2 0) 31 16 ≠ (s'.ctx c).size then trapHere c { code := 0x0305, report := va } u
        else if u.resident (s'.ctx c) p.val f va ident = true then .next (retire c u)
        else if u.periodUses (s'.ctx c) p.val f = true then .next u
        else cfgParts c va p.val f ident u := by
  have hexec : exec (.cfg a e p) s = execCfg a e p s := rfl
  rw [hexec, execCfg, seqIssue_issues h]
  dsimp only
  rw [if_neg (not_not.2 hva), hws]
  rfl

end

/-- Settles O8, by the checks of cfg in their order, and the load that its parts start. -/
theorem cfgStartsOrKeepsLoad : Obligations.CfgStartsOrKeepsLoad := by
  unfold Obligations.CfgStartsOrKeepsLoad
  intro c a e p s s' h va x
  refine ⟨exec_cfg_misaligned h, fun ws u hva hws => ?_⟩
  intro f ident
  have hhead := exec_cfg_header (p := p) h hva hws
  dsimp only at hhead
  refine ⟨fun w hw => ?_, fun hok => ?_⟩
  · rw [hhead, hw]
  · rw [hok] at hhead
    refine ⟨fun hfit => hhead.trans (if_pos hfit), fun hf hsize hres => ?_, ?_⟩
    · rw [hhead, if_neg (not_or.2 ⟨not_lt.2 hf, not_not.2 hsize⟩), if_pos hres]
    · intro hf hsize hres hper ds v w d hds hparts hdest hhold
      rw [hhead, if_neg (not_or.2 ⟨not_lt.2 hf, not_not.2 hsize⟩), if_neg (Bool.not_eq_true _ ▸ hres),
        if_neg (Bool.not_eq_true _ ▸ hper)]
      exact cfgParts_loads hds hparts hdest hhold

end Sys2Proof.Machine
end

section
/-! Configuration periods: run starts one, qwait waits for its end, yield and qwait take a pre-emption, and the quiescence report
ends it (R15, R53, R104 to R106, R110, R113, R214). -/

namespace Sys2Proof.Machine

open Sys2Proof Sys2Proof.Claims

/-! ### run (R104, R105) -/

theorem begins_iff (l : List LoadJob) (p : Nat) :
    l.any (·.begins p) = true ↔ ∃ j ∈ l, j.dropped = false ∧ j.plane = p := by
  simp [LoadJob.begins]

theorem runWaits_iff (s : State) (c p : Nat) : s.runWaits c p = true ↔
    (s.ctx c).fab.period ≠ none ∨ (∃ j ∈ (s.ctx c).fab.loads, j.dropped = false ∧ j.plane = p) ∨
      (∃ j ∈ (s.ctx c).fab.loads, j.holds ≠ []) ∨ s.seqPending c AccOp.writes = true := by
  have hl : ((s.ctx c).fab.loads.any fun j => j.begins p || decide (j.holds ≠ [])) = true ↔
      (∃ j ∈ (s.ctx c).fab.loads, j.dropped = false ∧ j.plane = p) ∨ ∃ j ∈ (s.ctx c).fab.loads, j.holds ≠ [] := by
    rw [← begins_iff]
    simp only [List.any_eq_true, Bool.or_eq_true, decide_eq_true_eq, and_or_left, exists_or]
  simp only [State.runWaits, Bool.or_eq_true, hl, Option.isSome_iff_ne_none]
  rw [or_assoc, or_comm (a := s.seqPending c AccOp.writes = true), or_assoc]

/-- The bindings of a context after a change of every binding. -/
theorem smGet_map_bindings (f : Binding → Binding) (m : SMap (Option Binding)) {h : Nat} {b : Binding}
    (hb : smGet none m h = some b) : smGet none (m.map fun e => (e.1, e.2.map f)) h = some (f b) := by
  induction m with
  | nil => cases hb
  | cons e m ih =>
    simp only [List.map_cons, smGet] at hb ⊢
    split at hb
    next he => simp [he, hb]
    next he =>
      split at hb
      next hl => cases hb
      next hl => simp [he, hl, ih hb]

theorem runStartsPeriod : RunStartsPeriod := by
  unfold RunStartsPeriod
  intro c a e p s s' h x v loading
  have hexec : exec (.run a e p) s = _ := (show exec (.run a e p) s = execRun a e p s from rfl).trans (seqIssue_issues h _)
  dsimp only at hexec
  have hload : (x.fab.loads.any (·.begins p.val)) = true ↔ loading := begins_iff _ _
  have hwaits := runWaits_iff s' c p.val
  have hplane : ∀ q, (!(x.fab.loads.any (·.begins p.val)) && decide (q ≠ p.val)) = true ↔ ¬ loading ∧ q ≠ p.val := by
    intro q
    rw [Bool.and_eq_true, Bool.not_eq_true', ← Bool.not_eq_true, hload, decide_eq_true_eq]
  refine ⟨fun hl hp => ?_, fun hp hw => ?_, fun hp hper hl hh hst ha hph hwr => ?_⟩
  · rw [hexec, if_pos ((hplane _).2 ⟨hl, hp⟩)]
    rfl
  · rw [hexec, if_neg (mt (hplane _).1 fun hn => hp.elim hn.1 hn.2), if_pos (hwaits.2 hw)]
  · have hnw : ¬ s'.runWaits c p.val = true := by
      rw [hwaits]
      rintro (h | h | ⟨j, hj, hjh⟩ | h)
      · exact h hper
      · exact hl h
      · exact hjh (hh j hj)
      · simp [hst] at h
    refine ⟨startPeriod p.val ((s'.seq c).rd a), ?_, ?_, rfl, rfl, rfl, rfl, fun h b hb => smGet_map_bindings _ _ hb⟩
    · rw [hexec, if_neg (mt (hplane _).1 fun hn => hn.2 hp), if_neg hnw, if_neg (by simp [show (s'.ctx c).apply = none from ha]),
        if_neg (by rw [show (s'.ctx c).seq.phase = .ready from hph]; decide), if_neg (not_not.2 hwr)]
    · simp [startPeriod, bits, v]

/-! ### qwait and yield (R106, R110, R113) -/

theorem stopAt_seq {s : State} (h : s.ctxWf = true) (c : Nat) (pc : Word) :
    (stopAt c pc s).seq c = { s.seq c with phase := .stopped, epc := epcWord pc, counted := false } :=
  State.seq_modSeq_same h c _

theorem qwaitWaitsForQuiescence : QwaitWaitsForQuiescence := by
  unfold QwaitWaitsForQuiescence
  intro c s s' h hw x busy
  have hexec : exec .qwait s = _ := (show exec .qwait s = execQwait s from rfl).trans (seqIssue_issues h _)
  dsimp only at hexec
  refine ⟨fun hb hst => ?_, fun hb hst => ⟨stopAt c x.seq.addr s', ?_, ?_⟩, fun hb f r hf => ?_, fun hb hf => ?_⟩
  · rw [hexec, if_pos hb, if_neg (by simpa [Ctx.drains] using hst)]
  · rw [hexec, if_pos hb, if_pos (by simpa [Ctx.drains] using hst)]
  · rw [stopAt_seq hw]
    exact ⟨rfl, rfl, rfl⟩
  · rw [hexec, if_neg (Bool.not_eq_true _ ▸ hb), show (s'.ctx c).seq.faults = f :: r from hf]
  · rw [hexec, if_neg (Bool.not_eq_true _ ▸ hb), show (s'.ctx c).seq.faults = [] from hf]

/-- The pc keeps the bits of an address that seq.epc holds (R92, R94). -/
theorem epcWord_pc (a : Word) : epcWord ((a.setWidth 32).setWidth 64) = epcWord a := by
  unfold epcWord
  apply BitVec.eq_of_getLsbD_eq
  intro k hk
  have hmask : (0x3FFFFFFC : Word).getLsbD k = (0x3FFFFFFC : BitVec 32).getLsbD k := by
    rw [show (0x3FFFFFFC : Word) = (0x3FFFFFFC : BitVec 32).setWidth 64 from rfl, BitVec.getLsbD_setWidth, decide_eq_true hk,
      Bool.true_and]
  rw [BitVec.getLsbD_and, BitVec.getLsbD_and, hmask, BitVec.getLsbD_setWidth, BitVec.getLsbD_setWidth, decide_eq_true hk]
  by_cases h32 : k < 32
  · simp [h32]
  · rw [BitVec.getLsbD_of_ge (0x3FFFFFFC : BitVec 32) k (not_lt.1 h32), Bool.and_false, Bool.and_false]

theorem yieldTakesPreemption : YieldTakesPreemption := by
  unfold YieldTakesPreemption
  intro c s s' h hw
  have hexec : exec .yield s = _ := (show exec .yield s = execYield s from rfl).trans (seqIssue_issues h _)
  dsimp only at hexec
  refine ⟨fun hst => ?_, fun hst hb => ⟨stopAt c ((retire c s').seq c).addr (retire c s'), ?_, ?_⟩⟩
  · rw [hexec, if_neg (by simp [Ctx.drains, hst])]
  · have hctx := retire_of_noBoundary_ctx hw hb
    rw [hexec, if_pos ⟨by simp [Ctx.drains, hst], by rw [State.seq, hctx]⟩]
  · have hctx := retire_of_noBoundary_ctx hw hb
    rw [stopAt_seq (retire_ctxWf hw c), State.seq, hctx]
    exact ⟨rfl, epcWord_pc _, rfl⟩

/-! ### Quiescence (R15, R106, R214) -/

theorem exhausted_iff (s : State) (x : Ctx) (p : Period) :
    s.exhausted x p = true ↔ ∀ r ∈ s.sources x, p.nx * p.ny * p.nz ≤ smGet 0 x.fab.cursors r.key := by
  rw [State.exhausted, List.all_eq_true]
  simp only [decide_eq_true_eq]
  rfl

theorem quiescent_iff (s : State) (c : Nat) : s.quiescent c = true ↔
    (s.fab c).chan = [] ∧ (s.fab c).waiting = [] ∧ (s.fab c).firings = [] ∧ (s.fab c).allocs = [] ∧ (s.fab c).pairs = [] ∧
      (s.fab c).replies = [] ∧ (∀ a ∈ (s.fab c).accesses, a.agent = .seq) ∧ s.hasCmd c false = false := by
  simp [State.quiescent, and_assoc]

theorem quiescenceEndsThePeriod : QuiescenceEndsThePeriod := by
  unfold QuiescenceEndsThePeriod
  intro c p s hw x hp hlive empty
  have hexec : exec (.quiescenceReport c) s =
      if (x.live && s.exhausted x p && s.quiescent c.val) = true then .next (endPeriod c.val s) else .next s := by
    have h : exec (.quiescenceReport c) s = execQuiescenceReport c s := rfl
    rw [h, execQuiescenceReport]
    simp only [show (s.ctx c.val).fab.period = some p from hp]
    rfl
  have hempty : (x.live && s.exhausted x p && s.quiescent c.val) = true ↔ empty := by
    rw [hlive, Bool.true_and, Bool.and_eq_true, exhausted_iff, quiescent_iff, and_comm]
    simp only [and_assoc]
    rfl
  refine ⟨fun hn => hexec.trans (if_neg (mt hempty.1 hn)), fun he => ⟨endPeriod c.val s, hexec.trans (if_pos (hempty.2 he)), ?_⟩⟩
  have hctx : (endPeriod c.val s).ctx c.val =
      { x.mergeAll with fab := { x.fab with period := none, holds := [], loops := [] } } := by
    unfold endPeriod
    dsimp only
    refine (ctx_modCtx_of (x := x) ?_ ?_ _).trans rfl
    · exact hw
    · rfl
  rw [State.fab, hctx]
  exact ⟨rfl, rfl, rfl, rfl, rfl, rfl, rfl⟩

/-- Settles O9, by the equation of each instruction once it issues, and what quiescence of a region is. -/
theorem periodsRunAndEnd : Obligations.PeriodsRunAndEnd :=
  ⟨runStartsPeriod, qwaitWaitsForQuiescence, yieldTakesPreemption, quiescenceEndsThePeriod⟩

end Sys2Proof.Machine
end

section
/-! Barriers and fences of a sequencer (R111, R112, R248, R257, R258, R379). -/

namespace Sys2Proof.Machine

open Sys2Proof Sys2Proof.Claims

/-! ### arrive and wait (R111, R257, R379) -/

/-- The sequencer joins the next phase of a barrier, with what its release waits for (R257). -/
def Fabric.joinSeq (i : Nat) (deps : List Dep) (f : Fabric) : Fabric :=
  { f with
    joined := smSet 0 f.joined (4096 * 2 ^ 21 + i) (f.joinedOf 4096 i + 1),
    arrives := f.arrives ++ [{ inst := i, agent := 4096, deps := deps }] }

theorem joinedOf_joinSeq {f : Fabric} (h : smWf 0 f.joined = true) (i : Nat) (deps : List Dep) :
    (f.joinSeq i deps).joinedOf 4096 i = f.joinedOf 4096 i + 1 := by
  unfold Fabric.joinSeq Fabric.joinedOf
  dsimp only
  rw [smGet_smSet_same h]

theorem seq_modFab {s : State} (hw : s.ctxWf = true) (c : Nat) (f : Fabric → Fabric) : (s.modFab c f).seq c = s.seq c := by
  rw [State.seq, State.modFab, State.ctx_modCtx_same hw]
  rfl

theorem fab_modSeq {s : State} (hw : s.ctxWf = true) (c : Nat) (f : Seq → Seq) : (s.modSeq c f).fab c = s.fab c := by
  rw [State.fab, State.modSeq, State.ctx_modCtx_same hw]
  rfl

theorem exec_arrive {c : Nat} {n : Fin 128} {s s' : State} (h : Issues c [] 0 s s') : exec (.arrive n) s =
    match arriveAt c n.val .seq s' with
    | .wait => .next s'
    | .outside deps => .next (if s'.depsDone c deps = true then retire c s' else s')
    | .joins u => .next (retire c u) := by
  have hexec : exec (.arrive n) s = execArrive n s := rfl
  rw [hexec, execArrive]
  exact seqIssue_issues h _

theorem exec_wait {c : Nat} {n : Fin 128} {s s' : State} (h : Issues c [] 0 s s') {i target : Nat}
    (ht : heldTarget c n.val s' = (i, target)) : exec (.wait n) s =
      .next (if target ≤ (s'.fab c).seenOf 0 i then retire c s'
        else s'.modSeq c fun q => { q with phase := .barWait i target }) := by
  have hexec : exec (.wait n) s = execWait n s := rfl
  rw [hexec, execWait_eq, seqIssue_issues h, ht]
  simp only [released, decide_eq_true_eq]
  rfl

theorem heldTarget_ready {c n : Nat} {s : State} (h : (s.seq c).phase = .ready) :
    heldTarget c n s = waitTarget c n .seq s := by
  unfold heldTarget
  rw [h]

theorem heldTarget_waiting {c n j p : Nat} {s : State} (h : (s.seq c).phase = .barWait j p) : heldTarget c n s = (j, p) := by
  unfold heldTarget
  rw [h]

theorem sequencerBarriers : SequencerBarriers := by
  unfold SequencerBarriers
  intro c n s s' h hw f i member seen joined before target
  have harrive := exec_arrive (n := n) h
  have hat : arriveAt c n.val .seq s' = if (!member) = true then .outside before
      else if seen < joined then .wait
      else .joins (s'.modFab c (Fabric.joinSeq i before)) := rfl
  have hready : (s'.seq c).phase = .ready → heldTarget c n.val s' = (i, target) := fun hp => heldTarget_ready hp
  refine ⟨fun hm hj => ?_, fun hm hj => ?_, fun hm => ?_, fun hp ht => ?_, fun hp ht => ?_, fun j p hp => ⟨fun ht => ?_, fun ht => ?_⟩⟩
  · refine ⟨s'.modFab c (Fabric.joinSeq i before), ?_, ?_⟩
    · rw [harrive, hat, if_neg (by simp [hm]), if_neg (not_lt.2 hj)]
    · rw [State.fab_modFab_same hw, seq_modFab hw]
      exact ⟨rfl, fun hjw => joinedOf_joinSeq hjw i before, rfl, rfl, rfl, rfl, rfl⟩
  · rw [harrive, hat, if_neg (by simp [hm]), if_pos hj]
  · rw [harrive, hat, if_pos (by simp [hm])]
  · exact (exec_wait h (hready hp)).trans (congrArg _ (if_pos ht))
  · refine ⟨_, (exec_wait h (hready hp)).trans (congrArg _ (if_neg (not_le.2 ht))), State.seq_modSeq_same hw c _,
      fab_modSeq hw c _⟩
  · exact (exec_wait h (heldTarget_waiting hp)).trans (congrArg _ (if_pos ht))
  · refine ⟨_, (exec_wait h (heldTarget_waiting hp)).trans (congrArg _ (if_neg (not_le.2 ht))), ?_,
      fab_modSeq hw c _⟩
    rw [State.seq_modSeq_same hw, ← hp]

/-! ### Fences (R112, R248) -/

section
variable {c : Nat} {s : State}

/-- A firing's agent is its PE: no tag-table operation is the sequencer's. -/
theorem tagWaits_seq (s : State) (c : Nat) : s.tagWaits c .seq = [] := by
  simp [State.tagWaits, Firing.agent]

/-- A sequencer with no access and no pair pending depends on nothing but, at the host's scope, its posted stores. -/
theorem agentDeps_seq_none {l : Level} {p : AccOp → Bool} (ha : ∀ a ∈ (s.fab c).accesses, a.agent = .seq → p a.op = false)
    (hp : ∀ q ∈ (s.fab c).pairs, q.agent ≠ .seq) (hl : l = .acked → ∀ q ∈ s.posted, q.ctx ≠ c) :
    s.agentDeps c .seq l p = [] := by
  unfold State.agentDeps
  have h1 : ((s.fab c).accesses.filter fun x => decide (x.agent = .seq) && p x.op) = [] :=
    List.filter_eq_nil_iff.2 fun a hm => by
      rw [Bool.and_eq_true, decide_eq_true_eq]
      exact fun h => Bool.false_ne_true ((ha a hm h.1).symm.trans h.2)
  have h2 : ((s.fab c).pairs.filter fun x => decide (x.agent = .seq)) = [] :=
    List.filter_eq_nil_iff.2 fun q hm => by simpa using hp q hm
  have h3 : l = .acked → (s.posted.filter fun x => decide (x.ctx = c)) = [] :=
    fun h => List.filter_eq_nil_iff.2 fun q hm => by simpa using hl h q hm
  dsimp only
  rw [tagWaits_seq, h1, h2]
  split
  next h => rw [h3 h]; rfl
  next h => rfl

/-- A dependence on a pending access that its acceptance does not meet. -/
theorem depsDone_access {l : Level} {p : AccOp → Bool} (hl : l ≠ .accepted) {a : Access} (ha : a ∈ (s.fab c).accesses)
    (hs : a.agent = .seq) (hp : p a.op = true) : s.depsDone c (s.agentDeps c .seq l p) = false := by
  have hd : s.depDone c { id := a.id, level := l } = false := by
    have hall : (s.fab c).accesses.all (fun b => decide (b.id ≠ a.id)) = false := by
      simpa using ⟨a, ha, rfl⟩
    cases l with
    | accepted => exact absurd rfl hl
    | performed => simp only [State.depDone, hall, Bool.false_and]
    | acked => simp only [State.depDone, hall, Bool.false_and]
  rw [State.depsDone, List.all_eq_false]
  refine ⟨_, ?_, by rw [hd]; decide⟩
  simp only [State.agentDeps, List.mem_append, List.mem_map, List.mem_filter]
  exact .inl (.inl (.inl ⟨a, ⟨ha, by simp [hs, hp]⟩, rfl⟩))

theorem depsDone_posted {p : AccOp → Bool} {q : Posted} (hq : q ∈ s.posted) (hc : q.ctx = c) :
    s.depsDone c (s.agentDeps c .seq .acked p) = false := by
  have hd : s.depDone c { id := q.acc, level := .acked } = false := by
    have hall : (s.posted.all fun r => !decide (r.ctx = c ∧ r.acc = q.acc)) = false := by
      rw [List.all_eq_false]
      exact ⟨q, hq, by simp [hc]⟩
    simp only [State.depDone, hall, Bool.and_false]
  rw [State.depsDone, List.all_eq_false]
  refine ⟨_, ?_, by rw [hd]; decide⟩
  simp only [State.agentDeps, if_true, List.mem_append, List.mem_map, List.mem_filter]
  exact .inr ⟨q, ⟨hq, by simp [hc]⟩, rfl⟩

end

theorem isLoad_iff (o : AccOp) : o.isLoad = true ↔ o = .load := by
  cases o <;> simp [AccOp.isLoad]

theorem sequencerFencesWaitForAccesses : SequencerFencesWaitForAccesses := by
  unfold SequencerFencesWaitForAccesses
  intro c g s s' h x level f mine loads posted both
  have hfence : ∀ {o : Out}, (.next (if s'.depsDone c (s'.agentDeps c .seq level fun _ => true) = true then retire c s' else s')) = o →
      both o := fun ho => ho ▸ ⟨seqIssue_issues h _, seqIssue_issues h _⟩
  have hacq : exec (.fenceAcq g) s =
      .next (if s'.depsDone c (s'.agentDeps c .seq .performed AccOp.isLoad) = true then retire c s' else s') := seqIssue_issues h _
  refine ⟨hfence rfl, hacq, fun hm hp hq => hfence ?_, fun hl hp => ?_, fun ⟨a, ha, hs⟩ hl => hfence ?_, fun ⟨a, ha, hs, ho⟩ => ?_,
    fun ⟨q, hq, hc⟩ hl => hfence ?_, fun hg he => ?_⟩
  · rw [agentDeps_seq_none (fun a ha hs => absurd ⟨a, ha, hs⟩ hm) hp fun hl q hq' hc => hq hl ⟨q, hq', hc⟩]
    rfl
  · rw [hacq, agentDeps_seq_none (fun a ha hs => ?_) hp fun hl => by cases hl]
    · rfl
    · rw [← Bool.not_eq_true, isLoad_iff]
      exact fun ho => hl ⟨a, ha, hs, ho⟩
  · rw [depsDone_access hl ha hs rfl]
    rfl
  · rw [hacq, depsDone_access (by decide) ha hs ((isLoad_iff _).2 ho)]
    rfl
  · rw [hl, depsDone_posted hq hc]
    rfl
  · simp only [level, Ctx.scopeLevel, he, hg, Bool.false_eq_true, or_self, if_false]

/-- Settles O13, by the three answers of an arrive, the target of a wait, and the dependences of a fence. -/
theorem sequencerBarriersAndFences : Obligations.SequencerBarriersAndFences :=
  ⟨sequencerBarriers, sequencerFencesWaitForAccesses⟩

end Sys2Proof.Machine
end

section
/-! Update regions and tile bindings: ubind, uflush, unbind and tbind, the commit of a tbind, and ctx.ctl.en and ctx.fault.go
(R117 to R119, R208, R272, R304, R310, R314, R315, R339, R340). -/

namespace Sys2Proof.Machine

open Sys2Proof Sys2Proof.Claims

/-! ### ubind (R117, R208) -/

/-- The lowest free handle (R208). -/
theorem freeHandle_eq {x : Ctx} {h : Nat} (hlt : h < 16) (hfree : x.binding h = none) (hmin : ∀ k, k < h → x.binding k ≠ none) :
    x.freeHandle = h := by
  have hfind : (List.range 16).find? (fun h => (x.binding h).isNone) = some h := by
    rw [List.find?_range_eq_some]
    refine ⟨by simp [hfree], List.mem_range.2 hlt, fun k hk => ?_⟩
    simpa [Option.isSome_iff_ne_none] using hmin k hk
  rw [Ctx.freeHandle, hfind]
  rfl

section
variable {c : Nat} {d a : SReg} {e : Bool} {s s' u : State} {p v : Nat}

theorem exec_ubind_waits (h : Issues c [(a, e)] d s s') (hp : (s'.ctx c).fab.period ≠ none) :
    exec (.ubind d a e) s = .next s' := by
  have hexec : exec (.ubind d a e) s = execUbind d a e s := rfl
  rw [hexec, execUbind, seqIssue_issues h]
  exact if_pos (by rw [Option.isSome_iff_ne_none.2 hp, Bool.true_or])

/-- ubind whose descriptor has been read (R117). -/
theorem exec_ubind_reads (h : Issues c [(a, e)] d s s') (hp : (s'.ctx c).fab.period = none)
    (hw : s'.seqPending c AccOp.writes = false) (hc : spCheck s' (s'.ctx c) ((s'.ctx c).seq.rd a).toNat 32 1 = .ok p)
    (ha : ((s'.ctx c).seq.rd a).toNat % 32 = 0) (hr : seqSpRead p 32 s' = .ok v u) :
    exec (.ubind d a e) s = ubindWith c d ((s'.ctx c).seq.rd a).toNat v u := by
  have hexec : exec (.ubind d a e) s = execUbind d a e s := rfl
  rw [hexec, execUbind, seqIssue_issues h]
  dsimp only
  rw [if_neg (by simp [hp, hw]), hc]
  dsimp only
  rw [if_neg (not_not.2 ha), hr]

end

section
variable {c : Nat} {d : SReg} {addr v : Nat} {u : State}

theorem ubindWith_refused {r : Nat} (h : descReason u v (bindingOf (u.ctx c) v) = some r) :
    ubindWith c d addr v u = ubindFault c r (BitVec.ofNat 64 addr) u := by
  unfold ubindWith
  dsimp only
  rw [h]

theorem ubindWith_bound {r : Nat} (hd : descReason u v (bindingOf (u.ctx c) v) = none)
    (h : boundReason (u.ctx c) (bindingOf (u.ctx c) v) = some r) :
    ubindWith c d addr v u = ubindFault c r (BitVec.ofNat 64 addr) u := by
  unfold ubindWith
  dsimp only
  rw [hd, h]

theorem ubindWith_binds {h : Nat} (hd : descReason u v (bindingOf (u.ctx c) v) = none)
    (hb : boundReason (u.ctx c) (bindingOf (u.ctx c) v) = none)
    (he : (extentBad (u.ctx c) (bindingOf (u.ctx c) v).base (bindingOf (u.ctx c) v).size).or
      (extentBad (u.ctx c) (bindingOf (u.ctx c) v).spill (bindingOf (u.ctx c) v).spillsize) = none)
    (ho : ¬ (otherBound u c (u.ctx c) (bindingOf (u.ctx c) v).base (bindingOf (u.ctx c) v).size = true ∨
      otherBound u c (u.ctx c) (bindingOf (u.ctx c) v).spill (bindingOf (u.ctx c) v).spillsize = true))
    (hh : (u.ctx c).freeHandle = h) :
    ubindWith c d addr v u = writes c d (BitVec.ofNat 64 h) (u.modCtx c (bindRegion h (bindingOf (u.ctx c) v))) := by
  unfold ubindWith
  dsimp only
  rw [hd, hb]
  dsimp only
  rw [he]
  dsimp only
  rw [if_neg ho, hh]
  rfl

end

theorem ubindBindsLowestHandle : UbindBindsLowestHandle := by
  unfold UbindBindsLowestHandle
  intro c d a e s s' h x addr
  refine ⟨exec_ubind_waits h, fun p v u hp hw hc ha hr => ?_⟩
  intro y b
  have hexec := exec_ubind_reads h hp hw hc ha hr
  refine ⟨fun r hd => hexec.trans (ubindWith_refused hd), fun r hd hb => hexec.trans (ubindWith_bound hd hb), ?_⟩
  intro k hd hb he1 he2 ho1 ho2 hk hfree hmin
  refine hexec.trans (ubindWith_binds hd hb ?_ ?_ (freeHandle_eq hk hfree hmin))
  · exact (congrArg₂ Option.or he1 he2).trans rfl
  · simpa using ⟨ho1, ho2⟩

/-! ### uflush and unbind (R118) -/

/-- uflush and unbind, once they issue. -/
theorem seqApply_issues {c : Nat} {a : SReg} {e : Bool} {why : ApplyWhy} {s s' : State} (h : Issues c [(a, e)] 0 s s') :
    seqApply a e why s =
      let x := s'.ctx c
      let h := (x.seq.rd a).toNat
      if x.fab.period.isSome = true then .next s'
      else if x.apply.isSome = true then .next (s'.modSeq c fun q => { q with phase := .applyWait })
      else if x.seq.phase = .applyWait then .next (retire c s')
      else if (x.binding h).isNone = true then ubindFault c 6 s'.fresh.1 s'.fresh.2
      else .next (startApply c [h] why (s'.modSeq c fun q => { q with phase := .applyWait })) :=
  seqIssue_issues h _

theorem uflushAndUnbindApply : UflushAndUnbindApply := by
  unfold UflushAndUnbindApply
  intro c a e s s' hi x h both
  have hof : ∀ {o : ApplyWhy → Out}, (∀ why, seqApply a e why s = o why) →
      exec (.uflush a e) s = o .flush ∧ exec (.unbind a e) s = o .unbind := fun ho => ⟨ho _, ho _⟩
  have hperiod : x.fab.period = none → ¬ x.fab.period.isSome = true := fun hp => by simp [hp]
  have happly : x.apply = none → ¬ x.apply.isSome = true := fun ha => by simp [ha]
  have hready : x.seq.phase = .ready → ¬ x.seq.phase = .applyWait := fun hr => by rw [hr]; decide
  refine ⟨fun hp => ?_, fun hp ha hph => ?_, fun hp ha hph hb => ?_, fun hp ha hph hb => ?_⟩
  · exact hof (o := fun _ => _) fun why => (seqApply_issues hi).trans (if_pos (Option.isSome_iff_ne_none.2 hp))
  · refine hof (o := fun _ => _) fun why => (seqApply_issues hi).trans ?_
    dsimp only
    rw [if_neg (hperiod hp), if_neg (happly ha), if_pos hph]
  · refine hof (o := fun _ => _) fun why => (seqApply_issues hi).trans ?_
    dsimp only
    rw [if_neg (hperiod hp), if_neg (happly ha), if_neg (hready hph), if_pos (Option.isNone_iff_eq_none.2 hb)]
    rfl
  · refine hof (o := fun why => .next (startApply c [h] why (s'.modSeq c fun q => { q with phase := .applyWait })))
      fun why => (seqApply_issues hi).trans ?_
    dsimp only
    rw [if_neg (hperiod hp), if_neg (happly ha), if_neg (hready hph), if_neg (mt Option.isNone_iff_eq_none.1 hb)]

/-- Settles O14, by the steps of ubind in their order, and the branches of an apply. -/
theorem updateBindings : Obligations.UpdateBindings := ⟨ubindBindsLowestHandle, uflushAndUnbindApply⟩

/-! ### tbind (R119, R315) -/

section
variable {c : Nat} {a b : SReg} {ea eb : Bool} {s s' u : State} {pa v : Nat}

theorem exec_tbind_waiting (h : Issues c [(a, ea), (b, eb)] 0 s s') (hp : (s'.ctx c).seq.phase = .tbindWait) :
    exec (.tbind a b ea eb) s = .next (if (s'.ctx c).tbinds = [] then retire c s' else s') := by
  have hexec : exec (.tbind a b ea eb) s = execTbind a b ea eb s := rfl
  rw [hexec, execTbind, seqIssue_issues h]
  exact if_pos hp

/-- tbind whose descriptor's word has been read, with the address of its token if it names one (R315). -/
theorem exec_tbind_reads (h : Issues c [(a, ea), (b, eb)] 0 s s') (hp : (s'.ctx c).seq.phase = .ready)
    (hw : s'.seqPending c AccOp.writes = false) (ha : spCheck s' (s'.ctx c) ((s'.ctx c).seq.rd a).toNat 8 8 = .ok pa) {pb : Nat}
    (hb : (if ((s'.ctx c).seq.rd b).toNat = 0 then .ok 0 else spCheck s' (s'.ctx c) ((s'.ctx c).seq.rd b).toNat 64 64) =
      (.ok pb : Except Bad Nat))
    (hr : seqSpRead pa 8 s' = .ok v u) : exec (.tbind a b ea eb) s =
      if 63 < v then bindFault c 7 u
      else if ((s'.ctx c).seq.rd b).toNat = 0 then .next (tbindPost c v none u) else tbindToken c v pb u := by
  have hexec : exec (.tbind a b ea eb) s = execTbind a b ea eb s := rfl
  rw [hexec, execTbind, seqIssue_issues h]
  dsimp only
  rw [if_neg (by rw [hp]; decide), if_neg (by simp [hw]), ha, hb]
  dsimp only
  rw [hr]

end

theorem tbindAsksScheduler : TbindAsksScheduler := by
  unfold TbindAsksScheduler
  intro c a b ea eb s s' h x va vb
  refine ⟨fun hp ht => ?_, fun hp ht => ?_, fun pa v u hp hw ha hr => ⟨fun hb hv => ?_, fun hb hv => ?_, ?_⟩⟩
  · rw [exec_tbind_waiting h hp, if_pos ht]
  · rw [exec_tbind_waiting h hp, if_neg ht]
  · rw [exec_tbind_reads h hp hw ha (if_pos hb) hr, if_pos hv]
    rfl
  · rw [exec_tbind_reads h hp hw ha (if_pos hb) hr, if_neg (not_lt.2 hv), if_pos hb]
  · intro pb ws u2 u3 t hb hv hpb hws hcheck
    rw [exec_tbind_reads h hp hw ha ((if_neg hb).trans hpb) hr, if_neg (not_lt.2 hv), if_neg hb, tbindToken, hws]
    dsimp only
    rw [hcheck]

/-! ### The commit of a tbind, ctx.ctl.en and ctx.fault.go (R304, R310, R314, R315, R339, R340) -/

/-- The commit of a tbind: the binding changes, and the tile's waiting triggers issue from a new one (R314, R315). -/
theorem exec_tbindCommit {c : CtxId} {s : State} {b : TbindReq} {l : List TbindReq} (h : (s.ctx c.val).tbinds = b :: l) :
    exec (.tbindCommit c) s =
      let t := s.modCtx c.val fun x => { x with tbinds := l, binds := smSet [] x.binds b.tile (b.token.getD []) }
      .next (if b.token.getD [] = [] then t else issueWaiting c.val b.tile (b.token.getD []) t) := by
  have hexec : exec (.tbindCommit c) s = execTbindCommit c s := rfl
  rw [hexec, execTbindCommit, h]

/-- No trigger of a tile waits: none issues. -/
theorem issueWaiting_none {c tile : Nat} {tok : List Word} {s : State} (h : ∀ i ∈ (s.ctx c).triggers, i ≠ tile) :
    issueWaiting c tile tok s = s.modCtx c fun x => { x with triggers := x.triggers.filter (· != tile) } := by
  have hn : (s.ctx c).triggers.filter (· == tile) = [] := List.filter_eq_nil_iff.2 fun i hi => by simpa using h i hi
  rw [issueWaiting, hn]
  rfl

/-- The commit of a tbind as its context shows it, where it changes no trigger that waits (R315). -/
theorem tbindCommit_ctx {c : CtxId} {s : State} (hw : s.ctxWf = true) {b : TbindReq} {l : List TbindReq}
    (h : (s.ctx c.val).tbinds = b :: l) (ht : b.token = none ∨ ∀ i ∈ (s.ctx c.val).triggers, i ≠ b.tile) :
    ∃ u, exec (.tbindCommit c) s = .next u ∧ (u.ctx c.val).tbinds = l ∧ (u.ctx c.val).queue = (s.ctx c.val).queue ∧
      (u.ctx c.val).binds = smSet [] (s.ctx c.val).binds b.tile (b.token.getD []) := by
  have hctx := State.ctx_modCtx_same hw c.val fun x =>
    { x with tbinds := l, binds := smSet [] x.binds b.tile (b.token.getD []) }
  have hwt := State.ctxWf_modCtx hw c.val fun x =>
    { x with tbinds := l, binds := smSet [] x.binds b.tile (b.token.getD []) }
  refine ⟨_, exec_tbindCommit h, ?_⟩
  split
  · rw [hctx]
    exact ⟨rfl, rfl, rfl⟩
  next hne =>
    have hnone : ∀ i ∈ (s.ctx c.val).triggers, i ≠ b.tile := ht.resolve_left fun h0 => hne (by rw [h0]; rfl)
    rw [issueWaiting_none (by rw [hctx]; exact hnone), State.ctx_modCtx_same hwt, hctx]
    exact ⟨rfl, rfl, rfl⟩

section
variable {c : CtxId} {s : State}

/-- A write of ctx.ctl.en, or of go, waits while posted credits are withheld (R272). -/
theorem exec_ctxCtlEn_withheld (h : s.credit 8 = false) (v : Bool) : exec (.ctxCtlEn c v) s = .next s := by
  have hexec : exec (.ctxCtlEn c v) s = execCtxCtlEn c v s := rfl
  rw [hexec, execCtxCtlEn]
  exact if_pos (by simp [State.regCredit, h])

theorem exec_faultGo_withheld (h : s.credit 8 = false) (req : BitVec 16) : exec (.faultGo c req) s = .next s := by
  have hexec : exec (.faultGo c req) s = execFaultGo c req s := rfl
  rw [hexec, execFaultGo]
  exact if_pos (by simp [State.regCredit, h])

/-- ctx.ctl.en where the write is taken (R304, R310). -/
theorem exec_ctxCtlEn (h : s.credit 8 = true) (v : Bool) : exec (.ctxCtlEn c v) s =
    if v = true then
      if (s.ctx c.val).st = .free ∧ s.boot.stage = 5 ∧ s.boot.minimal = false then
        .next (s.setCtx c.val { s.ctx c.val with st := .idle, en := true, tiles := 0, stats := [] })
      else .next s
    else if (s.ctx c.val).st = .free ∨ (s.ctx c.val).st = .idle then
      .next (s.setCtx c.val { s.ctx c.val with st := .free, en := false })
    else .next s := by
  have hexec : exec (.ctxCtlEn c v) s = execCtxCtlEn c v s := rfl
  rw [hexec, execCtxCtlEn]
  exact if_neg (by simp [State.regCredit, h])

theorem exec_ctxCtlEn_enables (h : s.credit 8 = true) (hst : (s.ctx c.val).st = .free) (h5 : s.boot.stage = 5)
    (hm : s.boot.minimal = false) : exec (.ctxCtlEn c true) s =
      .next (s.setCtx c.val { s.ctx c.val with st := .idle, en := true, tiles := 0, stats := [] }) := by
  rw [exec_ctxCtlEn h, if_pos rfl, if_pos ⟨hst, h5, hm⟩]

theorem exec_ctxCtlEn_discards (hst : (s.ctx c.val).st ≠ .free) : exec (.ctxCtlEn c true) s = .next s := by
  cases h : s.credit 8
  · exact exec_ctxCtlEn_withheld h true
  · rw [exec_ctxCtlEn h, if_pos rfl, if_neg fun hf => hst hf.1]

theorem exec_ctxCtlEn_disables (h : s.credit 8 = true) (hst : (s.ctx c.val).st ∈ [CtxState.free, .idle]) :
    exec (.ctxCtlEn c false) s = .next (s.setCtx c.val { s.ctx c.val with st := .free, en := false }) := by
  rw [exec_ctxCtlEn h, if_neg Bool.false_ne_true, if_pos (by simpa using hst)]

theorem exec_ctxCtlEn_keeps (hst : (s.ctx c.val).st ∉ [CtxState.free, .idle]) : exec (.ctxCtlEn c false) s = .next s := by
  cases h : s.credit 8
  · exact exec_ctxCtlEn_withheld h false
  · rw [exec_ctxCtlEn h, if_neg Bool.false_ne_true, if_neg (by simpa using hst)]

end

/-- ctx.fault.go where the write is taken (R272, R340). -/
theorem exec_faultGo {c : CtxId} {req : BitVec 16} {s : State} (hb : s.hostBusy req = false) (hm : s.boot.minimal = false)
    (ht : s.boot.tripped = false) (hcr : s.credit 8 = true) : exec (.faultGo c req) s =
      if (s.ctx c.val).faultPend = false then .next s
      else .next (s.setCtx c.val (
        if (s.ctx c.val).st = .suspended ∧ (s.ctx c.val).cause = some .page then
          Ctx.requeue { s.ctx c.val with faultPend := false } false
        else if (s.ctx c.val).st = .draining ∧ (s.ctx c.val).cause = some .page then
          { s.ctx c.val with faultPend := false, faultGo := true }
        else { s.ctx c.val with faultPend := false })) := by
  have hexec : exec (.faultGo c req) s = execFaultGo c req s := rfl
  rw [hexec, execFaultGo]
  simp only [hb, State.blocksOn, hm, ht, State.regCredit, hcr, Bool.not_false, Bool.not_true, Bool.and_self, Bool.false_eq_true,
    false_or, Bool.not_eq_true']

theorem bindingEnableAndGo : BindingEnableAndGo := by
  unfold BindingEnableAndGo
  intro c s hw x
  have hset := fun y => State.ctx_setCtx_same hw c.val y
  refine ⟨fun b l hb ht hbw => ?_, fun hcr b req => ⟨exec_ctxCtlEn_withheld hcr b, exec_faultGo_withheld hcr req⟩,
    fun hst h5 hm hcr => ⟨_, exec_ctxCtlEn_enables hcr hst h5 hm, by rw [hset]; exact ⟨rfl, rfl, rfl, rfl⟩⟩,
    exec_ctxCtlEn_discards, fun hst hcr => ⟨_, exec_ctxCtlEn_disables hcr hst, by rw [hset]; exact ⟨rfl, rfl⟩⟩,
    exec_ctxCtlEn_keeps, fun req hb hm ht hcr => ?_⟩
  · obtain ⟨u, hu, htb, hq, hbinds⟩ := tbindCommit_ctx hw hb ht
    refine ⟨u, hu, htb, hq, fun i => ?_⟩
    rw [hbinds]
    split
    next hi => rw [hi, smGet_smSet_same hbw]
    next hi => rw [smGet_smSet_ne hbw _ hi]
  · have hgo := exec_faultGo (c := c) hb hm ht hcr
    refine ⟨fun hp => hgo.trans (if_pos hp), fun k hp hst hc hk => ?_, fun hp hst hc => ?_⟩
    · rw [if_neg (by rw [show (s.ctx c.val).faultPend = true from hp]; decide), if_pos ⟨hst, hc⟩] at hgo
      refine ⟨_, hgo, ?_⟩
      rw [hset]
      refine ⟨rfl, rfl, ?_⟩
      simp only [Ctx.requeue, show (s.ctx c.val).task = some k from hk]
      rfl
    · have hns : ¬ ((s.ctx c.val).st = .suspended ∧ (s.ctx c.val).cause = some .page) := fun h => by
        rw [show (s.ctx c.val).st = .draining from hst] at h
        cases h.1
      rw [if_neg (by rw [show (s.ctx c.val).faultPend = true from hp]; decide), if_neg hns, if_pos ⟨hst, hc⟩] at hgo
      refine ⟨_, hgo, ?_⟩
      rw [hset]
      exact ⟨rfl, rfl, hst⟩

/-- Settles O15, by the branches of each write, and of the commit of a tbind. -/
theorem tileBindingsAndContextEnable : Obligations.TileBindingsAndContextEnable := ⟨tbindAsksScheduler, bindingEnableAndGo⟩

end Sys2Proof.Machine
end

section
/-! done: it waits for its period and for what precedes it, then ends the graph with its value (R110, R124, R310, R353). -/

namespace Sys2Proof.Machine

open Sys2Proof Sys2Proof.Claims

/-! ### The first step: the period (R110, R321) -/

theorem exec_done_issues {c : Nat} {a : SReg} {e : Bool} {s s' : State} (hp : (s.seq c).phase = .ready)
    (h : Issues c [(a, e)] 0 s s') : exec (.done a e) s =
      if (s'.ctx c).fab.period.isSome = true then
        .next (if (s'.ctx c).drains = true then stopAt c (s'.ctx c).seq.addr s' else s')
      else .next (s'.modCtx c (passDone ((s'.ctx c).seq.rd a))) := by
  have hexec : exec (.done a e) s = execDone a e s := rfl
  rw [hexec, execDone, asSeq, h.1]
  dsimp only
  rw [hp]
  exact seqIssue_issues h _

theorem exec_done_finishing {c : Nat} {a : SReg} {e : Bool} {v : Word} {s : State} (hc : s.cur = .seq c)
    (hp : (s.seq c).phase = .finishing v) : exec (.done a e) s = .next (finishDone c v s) := by
  have hexec : exec (.done a e) s = execDone a e s := rfl
  rw [hexec, execDone, asSeq, hc]
  dsimp only
  rw [hp]

/-! ### The steps after it (R124) -/

/-- The posted stores of a context. -/
def State.postedOf (s : State) (c : Nat) : List Posted := s.posted.filter fun p => decide (p.ctx = c)

section
variable {c : Nat} {v : Word} {s : State}

theorem finishDone_waits_cmd (h : s.hasCmd c true = true) : finishDone c v s = s := if_pos h

theorem finishDone_raises {f : HeldFault} {r : List HeldFault} (h : s.hasCmd c true = false)
    (hf : (s.ctx c).seq.faults = f :: r) : finishDone c v s = raiseHeld c f s := by
  unfold finishDone
  dsimp only
  rw [if_neg (Bool.not_eq_true _ ▸ h), hf]

/-- The applies, the releases and the posted stores, once no fault is held. -/
theorem finishDone_stores (h : s.hasCmd c true = false) (hf : (s.ctx c).seq.faults = []) : finishDone c v s =
    if (s.ctx c).apply.isSome = true then s
    else if (s.ctx c).boundHandles ≠ [] then startApply c (s.ctx c).boundHandles .done s
    else match (s.postedOf c).find? s.postedFailed with
      | some p => graphTrap c trapLinkPosted 0 0 (BitVec.ofNat 64 (windowOf p.ia)) (BitVec.ofNat 64 (s.postedOf c).length) s
      | none => if s.postedOf c = [] then endGraph c 1 0 0 v 0 0 s else s := by
  unfold finishDone
  dsimp only
  rw [if_neg (Bool.not_eq_true _ ▸ h), hf]
  rfl

/-- With no apply in progress and nothing bound, done looks at the posted stores. -/
theorem finishDone_posted (h : s.hasCmd c true = false) (hf : (s.ctx c).seq.faults = []) (ha : (s.ctx c).apply = none)
    (hb : (s.ctx c).boundHandles = []) : finishDone c v s =
    match (s.postedOf c).find? s.postedFailed with
    | some p => graphTrap c trapLinkPosted 0 0 (BitVec.ofNat 64 (windowOf p.ia)) (BitVec.ofNat 64 (s.postedOf c).length) s
    | none => if s.postedOf c = [] then endGraph c 1 0 0 v 0 0 s else s := by
  rw [finishDone_stores h hf, if_neg (by simp [ha]), if_neg (not_not.2 hb)]

/-- A trap of the graph as a whole, outside a handler: the kind 2 token carries its report and extra word (R95, R353). -/
theorem graphTrap_ending (hw : s.ctxWf = true) (hh : (s.seq c).h = false) (code reason : Nat) (value report extra : Word) :
    let y := (graphTrap c code reason value report extra s).ctx c
    y.st = .retiring ∧ ∃ k, y.ending = some k ∧ k.kind = 2 ∧ k.code = code ∧ k.report = report ∧ k.extra = extra := by
  simp only [graphTrap, hh, Bool.false_eq_true, if_false]
  rw [endGraph_ctx_eq (State.ctxWf_modSeq hw c _)]
  exact ⟨rfl, _, rfl, rfl, rfl, rfl, rfl⟩

end

theorem done_takesItsPeriod (c : Nat) (a : SReg) (e : Bool) (s s' : State) (hp : (s.seq c).phase = .ready)
    (h : Issues c [(a, e)] 0 s s') (hw : s'.ctxWf = true) :
    let x := s'.ctx c
    (x.fab.period ≠ none → x.st ≠ .draining → exec (.done a e) s = .next s') ∧
    (x.fab.period ≠ none → x.st = .draining → ∃ t, exec (.done a e) s = .next t ∧ (t.seq c).phase = .stopped ∧
      (t.seq c).epc = x.seq.addr &&& 0x3FFFFFFC) ∧
    (x.fab.period = none → ∃ t, exec (.done a e) s = .next t ∧ (t.ctx c).st = .retiring ∧
      (t.seq c).phase = .finishing (x.seq.rd a) ∧ (t.ctx c).cause = none ∧ (t.fab c).draining = false) := by
  intro x
  have hexec := exec_done_issues hp h
  refine ⟨fun hper hst => ?_, fun hper hst => ⟨stopAt c x.seq.addr s', ?_, ?_⟩,
    fun hper => ⟨s'.modCtx c (passDone (x.seq.rd a)), ?_, ?_⟩⟩
  · rw [hexec, if_pos (Option.isSome_iff_ne_none.2 hper), if_neg (by simpa [Ctx.drains] using hst)]
  · rw [hexec, if_pos (Option.isSome_iff_ne_none.2 hper), if_pos (by simpa [Ctx.drains] using hst)]
  · rw [stopAt_seq hw]
    exact ⟨rfl, rfl⟩
  · rw [hexec, if_neg (by simpa using hper)]
  · rw [State.seq, State.fab, State.ctx_modCtx_same hw]
    exact ⟨rfl, rfl, rfl, rfl⟩

/-- Settles O16, by the steps of done in their order. -/
theorem doneRetiresGraph : Obligations.DoneRetiresGraph := by
  unfold Obligations.DoneRetiresGraph
  refine ⟨done_takesItsPeriod, fun c a e v s hc hp => ?_⟩
  intro x mine
  have hexec := exec_done_finishing (a := a) (e := e) hc hp
  have hmine : s.postedOf c = mine := rfl
  refine ⟨fun h => ?_, fun f r h hf => ?_, fun h hf ha => ?_, fun h hf ha hb => ?_, fun h hf ha hb => ⟨fun hm hok => ?_,
    fun p hp hh hw => ?_, ?_⟩⟩
  · rw [hexec, finishDone_waits_cmd h]
  · rw [hexec, finishDone_raises h hf]
  · rw [hexec, finishDone_stores h hf, if_pos (Option.isSome_iff_ne_none.2 ha)]
  · rw [hexec, finishDone_stores h hf, if_neg (by simpa using ha), if_pos hb]
  · have hnone : (s.postedOf c).find? s.postedFailed = none := List.find?_eq_none.2 fun p hp => by simp [hok p hp]
    rw [hexec, finishDone_posted h hf ha hb, hnone]
    exact congrArg _ (if_neg hm)
  · obtain ⟨hst, k, hk⟩ := graphTrap_ending hw hh trapLinkPosted 0 0 (BitVec.ofNat 64 (windowOf p.ia))
      (BitVec.ofNat 64 (s.postedOf c).length)
    refine ⟨_, k, ?_, hst, hk⟩
    rw [hexec, finishDone_posted h hf ha hb, hmine, hp]
  · have hends : mine = [] → exec (.done a e) s = .next (endGraph c 1 0 0 v 0 0 s) := fun hm => by
      rw [hexec, finishDone_posted h hf ha hb, hmine, hm]
      rfl
    refine ⟨hends, fun hm hw => ?_⟩
    obtain ⟨hst, hseq, k, hk, hkind, hcode, hreason, hvalue, hreport, -⟩ := endGraph_ctx hw c 1 0 0 v 0 0
    refine ⟨_, k, hends hm, hst, ?_, hk, hkind, hcode, hreason, hvalue, hreport⟩
    rw [State.seq, hseq]

end Sys2Proof.Machine
end

section
/-! A restore whose frame is a device memory with two entries for one byte: the read of a range takes the last entry of
the byte, the read of the byte its first (R323). -/

namespace Sys2Proof.Machine

open Sys2Proof Sys2Proof.Claims

/-- A task of one cluster that ran before and whose record names no image. -/
def dupTask : Task :=
  { prio := 0, lsize := 0, consume := false, base := 0, record := 0, seed := 0, wtab := 0, inmask := 0, outmask := 0, cookie := 0,
    entry := 0, w := 0, held := 0, placed := true, trigger := false, seqno := 0, handler := false }

/-- Its saved clusters, with eight bytes of scratchpad outside the carve-out, from byte 256 of a frame at virtual address 0. -/
def dupSaved : ClusterData :=
  { sp := [], nodes := [], planes := [], hold := [], tagtab := [], acc := [], csrow := [], cscol := [], active := [], engs := [],
    latches := [], carve := 2 ^ 24 - 8, frame := 0, spOff := 256 }

/-- The state in which it is restored: unit 0 of the address space is mapped to unit 0 of the device memory, which names byte
256 twice. -/
def dupState : State :=
  { State.reset with
    ctxs := [(0, { Ctx.reset with
      st := .queued, en := true, queue := [dupTask], saved := some dupSaved, rngB := [(0, 0x500000000)] })],
    tlb := [(0, [{ level := 0, ia := 0, pa := 0, w := true }])], hbm := [(256, 1), (256, 2)] }

/-- The unit of the frame that the restore reads. -/
def dupPlace (i : Nat) : Option Nat := if i = 0 then some 0 else none

/-- The scratchpad byte 0 that an outcome leaves. -/
def restoredByte : Out → Byte
  | .next u => smGet 0 u.sp 0
  | _ => 0

theorem topTask_dupState : dupState.topTask = some (0, dupTask) := by decide +kernel

theorem pickBlock_dupState : dupState.pickBlock 0 dupTask (dupState.imagesOf 0 dupTask) = some 0 := by decide +kernel

theorem headerWait_dupState : headerWait 0 (dupState.imagesOf 0 dupTask) dupState = none := by
  have himages : dupState.imagesOf 0 dupTask = [] := by decide +kernel
  rw [himages]
  rfl

/-- The restore takes the last of the two entries. -/
theorem restoredByte_dupState : restoredByte (exec .taskPlace dupState) = 2 := by decide +kernel

/-- The frame's section lies in unit 0 alone. -/
theorem needs_dupSaved {i : Nat}
    (h : SpSection.needs { off := 256, per := 8, clusters := 1 } i = true) : i = 0 := by
  have hspan := of_decide_eq_true h
  simp only [SpSection.span, SpSection.size] at hspan
  omega

theorem reach_dupState : (dupState.ctx 0).toIa true false 0 = .ok 0 ∧ dupState.tlbLook 0 false = some 0 :=
  ⟨by decide +kernel, by decide +kernel⟩

/-- Refutes O46: the restored bytes are claimed to be those of the frame without the premise that the device memory names
each byte once. Where it names one twice, the restore takes the last entry and the claim reads the first. -/
theorem not_placementAndPreemption : ¬ Obligations.PlacementAndPreemption := by
  intro h
  obtain ⟨⟨-, hrestore, -⟩, -, -⟩ := h
  obtain ⟨hia, hlook⟩ := reach_dupState
  obtain ⟨u, hexec, -, -, hbytes, -⟩ := hrestore 0 dupTask dupSaved 0 dupState (by decide +kernel) topTask_dupState rfl rfl rfl
    headerWait_dupState pickBlock_dupState rfl rfl rfl (by decide) (by decide) dupPlace (by decide) fun i hi => by
      obtain rfl : i = 0 := needs_dupSaved hi
      refine ⟨fun hnone => absurd hnone (by decide), fun pa hpa => ⟨0, hia, by decide, ?_⟩⟩
      rw [hlook]
      exact hpa
  obtain ⟨-, hplaced⟩ := hbytes 0 (by decide)
  have hclaimed : smGet 0 u.sp 0 = 1 := (hplaced 256 rfl).2 0 rfl
  have hrestored : smGet 0 u.sp 0 = 2 := by
    have hbyte := restoredByte_dupState
    rwa [hexec] at hbyte
  exact absurd (hclaimed.symm.trans hrestored) (by decide)

end Sys2Proof.Machine
end

section
/-! SUPPORT. The lane-wise integer operations of a node, element by element (R17, R126, R130 to R132). -/

namespace Sys2Proof.Machine

open Sys2Proof Sys2Proof.Claims

/-! ### Elements of an integer type -/

theorem mappedOn_actives {t : IntTy} {m : BitVec 16} {k : Nat} :
    mappedOn m (IntTy.wide t) (IntTy.wide t) k ↔ actives t m k := by
  unfold actives
  cases IntTy.wide t
  · exact mappedOn_lane
  · exact mappedOn_pair

theorem byElem_mask (wide : Bool) (m : BitVec 16) (f : Nat → Res Nat) :
    (byElem wide m f).mask = if wide then pairMask m else m := by cases wide <;> rfl

section
variable {t : IntTy} {m : BitVec 16} {f : Nat → Res Nat} (hf : ∀ k, (f k).val < elemSize (IntTy.wide t))
include hf

theorem elemAt_byElem {k : Nat} (hk : actives t m k) : elemAt t (byElem (IntTy.wide t) m f).lanes k = (f k).val :=
  (byElem_mapped hf).1 k (mappedOn_actives.2 hk)

theorem laneAt_byElem_off {l : Nat} (hl : l < 16) (h : (byElem (IntTy.wide t) m f).mask.getLsbD l = false) :
    laneAt (byElem (IntTy.wide t) m f).lanes l = 0 := (byElem_mapped hf).2.2.1 l hl h

theorem getLsbD_byElem_fl (j : Nat) :
    (byElem (IntTy.wide t) m f).fl.getLsbD j = true ↔ ∃ k, actives t m k ∧ (f k).fl.getLsbD j = true :=
  ((byElem_mapped hf).2.2.2 j).trans (exists_congr fun _ => and_congr_left' mappedOn_actives)

/-- The merged flags of elements that each set one flag or none. -/
theorem byElem_fl_of_flagIf {p : Nat → Bool} {x : Flags} (hp : ∀ k, (f k).fl = flagIf (p k) x) :
    ((∃ k, actives t m k ∧ p k = true) → (byElem (IntTy.wide t) m f).fl = x) ∧
      ((∀ k, actives t m k → p k = false) → (byElem (IntTy.wide t) m f).fl = fNone) := by
  have hbit : ∀ j, (byElem (IntTy.wide t) m f).fl.getLsbD j = true ↔
      (∃ k, actives t m k ∧ p k = true) ∧ x.getLsbD j = true := by
    intro j
    rw [getLsbD_byElem_fl hf, ← exists_and_right]
    refine exists_congr fun k => ?_
    rw [hp, flagIf]
    cases p k <;> simp [getLsbD_fNone]
  refine ⟨fun h => BitVec.eq_of_getLsbD_eq fun j _ => ?_, fun h => BitVec.eq_of_getLsbD_eq fun j _ => ?_⟩
  · rw [Bool.eq_iff_iff, hbit]
    exact and_iff_right h
  · rw [Bool.eq_iff_iff, hbit, getLsbD_fNone]
    refine iff_of_false (fun ⟨⟨k, hk, hpk⟩, _⟩ => ?_) Bool.false_ne_true
    exact Bool.false_ne_true ((h k hk).symm.trans hpk)

end

/-- Elements that set no flag merge to none. -/
theorem byElem_fl_quiet (wide : Bool) (m : BitVec 16) (v : Nat → Nat) : (byElem wide m fun k => quiet (v k)).fl = fNone := by
  cases wide
  · exact List.foldl_fixed' (fun _ => BitVec.or_self) _
  · exact List.foldl_fixed' (fun _ => BitVec.or_self) _

/-! ### Arithmetic (R130) -/

/-- An exact value narrowed to its type, as an element. -/
def narrowElem (t : IntTy) (sat : Bool) (e : ℤ) : Res Nat :=
  { val := intRaw t (narrowInt (IntTy.signed t) (IntTy.bits t) sat e).val,
    fl := (narrowInt (IntTy.signed t) (IntTy.bits t) sat e).fl }

section
variable {i : Instr} {c : Nat} {g : Firing} {m : NodeImg} {env : OpEnv} {s : State} {t : IntTy}

/-- An operation that narrows an exact value in every active element is one of R130. -/
theorem arithResult_of_narrowed {sat : Bool} {f : Nat → ℤ} {r : OpRes}
    (h : exec i s = results c g m r s) (hr : r = byElem (IntTy.wide t) env.mask fun k => narrowElem t sat (f k)) :
    ArithResult i c g m env s t sat f := by
  subst hr
  have hlt : ∀ k, (narrowElem t sat (f k)).val < elemSize (IntTy.wide t) := fun k => intRaw_lt t _
  obtain ⟨hset, hclear⟩ := byElem_fl_of_flagIf (m := env.mask) hlt fun k => (narrowInt_spec t sat (f k)).2
  refine ⟨_, h, byElem_mask _ _ _, fun k hk => ⟨_, (narrowInt_spec t sat (f k)).1, elemAt_byElem hlt hk⟩,
    fun l => laneAt_byElem_off hlt, ?_, fun hin => hclear fun k hk => ?_⟩
  · rintro ⟨k, hk, hsat, hout⟩
    exact hset ⟨k, hk, by rw [hsat, decide_eq_true hout]; rfl⟩
  · rcases hin k hk with rfl | ⟨hlo, hhi⟩
    · rfl
    · rw [decide_eq_false (not_or.2 ⟨not_lt.2 hlo, not_lt.2 hhi⟩), Bool.and_false]

/-- An operation that writes a pattern, extended, to every active element and sets no flag is one of R131. -/
theorem bitResult_of_patterns {f v : Nat → Nat} {r : OpRes} (h : exec i s = results c g m r s)
    (hr : r = byElem (IntTy.wide t) env.mask fun k => quiet (extendRaw t (v k))) (hv : ∀ k, v k = f k) :
    BitResult i c g m env s t f := by
  subst hr
  have hlt : ∀ k, extendRaw t (v k) < elemSize (IntTy.wide t) := fun k => intRaw_lt t _
  refine ⟨_, h, byElem_mask _ _ _, byElem_fl_quiet _ _ _, fun k hk => ?_⟩
  rw [← hv k]
  exact elemAt_byElem (f := fun k => quiet (extendRaw t (v k))) hlt hk

end

/-- Settles O17: every operation narrows its exact value in each active element. -/
theorem integerArithmeticWrapsOrClamps : Obligations.IntegerArithmeticWrapsOrClamps := by
  intro t a b d sat c g m env s A B D R
  have hmulh : ∀ k, intMulh t (A k) (B k) = A k * B k / 2 ^ IntTy.bits t := fun k => by simp [intMulh]
  refine ⟨fun h => ?_, fun h => ?_, fun h => ?_, fun h => ?_, fun h => ?_, fun h => ?_, fun h => ?_, fun h => ?_, fun h => ?_⟩
  · exact arithResult_of_narrowed (compute_computes h fun env => intArith env t a b sat fun x y => x + y) rfl
  · exact arithResult_of_narrowed (compute_computes h fun env => intArith env t a b sat fun x y => x - y) rfl
  · exact arithResult_of_narrowed (compute_computes h fun env => intArith env t a b sat fun x y => x * y) rfl
  · exact arithResult_of_narrowed (compute_computes h fun env => intMad env t a b d sat) rfl
  · exact arithResult_of_narrowed (compute_computes h fun env => intUnary env t a sat fun x => -x) rfl
  · exact arithResult_of_narrowed (compute_computes h fun env => intUnary env t a sat fun x => if x < 0 then -x else x) rfl
  · refine arithResult_of_narrowed (compute_computes h fun env => intArith env t a b false (intMulh t)) ?_
    simp only [← hmulh]
    rfl
  · exact arithResult_of_narrowed
      (compute_computes h fun env => intArith env t a b false fun x y => if x ≤ y then x else y) rfl
  · exact arithResult_of_narrowed
      (compute_computes h fun env => intArith env t a b false fun x y => if y ≤ x then x else y) rfl

/-! ### Patterns (R131) -/

/-- The bits that a left shift moves out of an n-bit pattern come in at its low end. -/
theorem rotated_eq {n a s : Nat} (ha : a < 2 ^ n) (hs : s ≤ n) :
    ((a <<< s) ||| (a >>> (n - s))) % 2 ^ n = a * 2 ^ s % 2 ^ n + a / 2 ^ (n - s) := by
  have hsplit : 2 ^ n = 2 ^ s * 2 ^ (n - s) := by rw [← pow_add, Nat.add_sub_cancel' hs]
  have hlow : a / 2 ^ (n - s) < 2 ^ s := Nat.div_lt_of_lt_mul (by rwa [mul_comm, ← hsplit])
  rw [Nat.shiftRight_eq_div_pow, ← Nat.shiftLeft_add_eq_or_of_lt hlow, Nat.shiftLeft_eq, hsplit, Nat.mod_mul,
    mul_comm a, Nat.mul_add_mod, Nat.mod_eq_of_lt hlow, Nat.mul_add_div (by positivity), Nat.div_eq_of_lt hlow, add_zero,
    Nat.mul_mod_mul_left, add_comm]

section
variable {n a : Nat} (ha : a < 2 ^ n) (hn : 0 < n)
include ha hn

theorem rotlBits_eq (s : Nat) : rotlBits n a s = ((a <<< (s % n)) ||| (a >>> (n - s % n))) % 2 ^ n :=
  (rotated_eq ha (Nat.mod_lt s hn).le).symm

theorem rotrBits_eq (s : Nat) : rotrBits n a s = ((a >>> (s % n)) ||| (a <<< (n - s % n))) % 2 ^ n := by
  have hs := (Nat.mod_lt s hn).le
  have h := rotated_eq ha (Nat.sub_le n (s % n))
  rw [Nat.sub_sub_self hs, Nat.or_comm] at h
  have hsplit : 2 ^ n = 2 ^ (s % n) * 2 ^ (n - s % n) := by rw [← pow_add, Nat.add_sub_cancel' hs]
  rw [h, rotrBits, hsplit, Nat.mul_mod_mul_right, Nat.mul_mod_mul_right, Nat.mod_mod, add_comm]

end

theorem clzBits_eq (n a : Nat) : clzBits n a = if a = 0 then n else n - 1 - Nat.log2 a := by
  unfold clzBits bitLen
  split
  · rfl
  · omega

theorem popBits_eq (n a : Nat) : popBits n a = ((List.range n).filter fun j => a.testBit j).length := by
  simp only [popBits, bit_eq_testBit]

theorem intBits_pos (t : IntTy) : 0 < IntTy.bits t := by cases t <;> decide

/-- Settles O18: every operation writes the pattern that it makes of the patterns of its operands. -/
theorem bitOperationsOnPatterns : Obligations.BitOperationsOnPatterns := by
  intro t a b c g m env s n A B R
  have hA : ∀ k, A k < 2 ^ n := fun k => Nat.mod_lt _ (by positivity)
  have hn : 0 < n := intBits_pos t
  refine ⟨fun h => ?_, fun h => ?_, fun h => ?_, fun h => ?_, fun h => ?_, fun h => ?_, fun h => ?_, fun h => ?_, fun h => ?_,
    fun h => ?_, fun h => ?_⟩
  · exact bitResult_of_patterns (compute_computes h fun env => bitOp env t a b fun x y => x &&& y) rfl fun _ => rfl
  · exact bitResult_of_patterns (compute_computes h fun env => bitOp env t a b fun x y => x ||| y) rfl fun _ => rfl
  · exact bitResult_of_patterns (compute_computes h fun env => bitOp env t a b fun x y => x ^^^ y) rfl fun _ => rfl
  · exact bitResult_of_patterns (compute_computes h fun env => bitUnary env t a fun x => 2 ^ IntTy.bits t - 1 - x) rfl
      fun _ => rfl
  · exact bitResult_of_patterns
      (compute_computes h fun env => bitOp env t a b fun x y => x &&& (2 ^ IntTy.bits t - 1 - y)) rfl fun _ => rfl
  · exact bitResult_of_patterns (compute_computes h fun env => bitOp env t a b (shlBits n)) rfl fun _ => rfl
  · refine bitResult_of_patterns (compute_computes h fun env => bitOp env t a b (shrBits t)) rfl fun k => ?_
    simp only [shrBits, Nat.cast_pow, Nat.cast_ofNat]
    rfl
  · exact bitResult_of_patterns (compute_computes h fun env => bitOp env t a b (rotlBits n)) rfl
      fun k => rotlBits_eq (hA k) hn (B k)
  · exact bitResult_of_patterns (compute_computes h fun env => bitOp env t a b (rotrBits n)) rfl
      fun k => rotrBits_eq (hA k) hn (B k)
  · exact bitResult_of_patterns (compute_computes h fun env => bitUnary env t a (clzBits n)) rfl fun k => clzBits_eq n (A k)
  · exact bitResult_of_patterns (compute_computes h fun env => bitUnary env t a (popBits n)) rfl fun k => popBits_eq n (A k)

/-! ### nop, compare and select (R129, R132) -/

theorem laneAt_maskLanes (m : BitVec 16) (v : List Lane) {l : Nat} (hl : l < 16) :
    laneAt (maskLanes m v) l = if m.getLsbD l = true then laneAt v l else 0 := laneAt_mkLanes _ hl

theorem bitN_lt_elemSize (p wide : Bool) : bitN p < elemSize wide := by
  cases p <;> cases wide <;> decide

theorem bitN_holds (q : ICond) (x y : ℤ) : bitN (ICond.holds q x y) = match q with
    | .eq => if x = y then 1 else 0
    | .ne => if x = y then 0 else 1
    | .lt => if x < y then 1 else 0
    | .le => if x ≤ y then 1 else 0
    | .gt => if y < x then 1 else 0
    | .ge => if y ≤ x then 1 else 0 := by
  cases q <;> simp [bitN, ICond.holds]

/-- Settles O19, by the lanes of each result. -/
theorem nopCompareAndSelect : Obligations.NopCompareAndSelect := by
  intro t a b d c g m env s A B D
  refine ⟨fun h => ?_, fun q h => ?_, fun h => ?_⟩
  · refine ⟨_, compute_computes h fun env =>
      { lanes := maskLanes env.mask (if env.key.stage = 0 then env.ports.getD 0 [] else env.x),
        mask := env.mask, fwd := [], fl := fNone }, rfl, rfl, fun l hl => ?_⟩
    have hstage : env.key.stage = g.stage := by rw [h.2.2]; rfl
    rw [laneAt_maskLanes _ _ hl, hstage]
  · have hlt : ∀ k, bitN (ICond.holds q (A k) (B k)) < elemSize (IntTy.wide t) := fun _ => bitN_lt_elemSize _ _
    refine ⟨_, compute_computes h fun env => intCmp env t a b q, byElem_fl_quiet _ _ _, fun k hk => ?_⟩
    exact (elemAt_byElem (f := fun k => quiet (bitN (ICond.holds q (A k) (B k)))) hlt hk).trans (bitN_holds q (A k) (B k))
  · have hlt : ∀ k, intRaw t (if A k ≠ 0 then B k else D k) < elemSize (IntTy.wide t) := fun _ => intRaw_lt t _
    refine ⟨_, compute_computes h fun env => intSel env t a b d, byElem_fl_quiet _ _ _, fun k hk => ?_⟩
    refine (elemAt_byElem (f := fun k => quiet (intRaw t (if A k ≠ 0 then B k else D k))) hlt hk).trans ?_
    simp only [quiet, ne_eq, ite_not]

end Sys2Proof.Machine
end

section
/-! SUPPORT. The lane moves of a node, and the end of a stage (R16, R53, R126, R128, R145). -/

namespace Sys2Proof.Machine

open Sys2Proof Sys2Proof.Claims

/-! ### Lane moves (R145) -/

/-- An active element holds the low bits of its value. -/
theorem elemOf_byElem_mod (wide : Bool) (m : BitVec 16) (f : Nat → Res Nat) {k : Nat} (hk : mappedOn m wide wide k) :
    elemOf wide (byElem wide m f).lanes k = (f k).val % elemSize wide := by
  cases wide
  · obtain ⟨hk, hm⟩ := mappedOn_lane.1 hk
    exact (congrArg BitVec.toNat ((laneAt_byLane hk).trans (if_pos hm))).trans (BitVec.toNat_ofNat _ _)
  · obtain ⟨hk, hm⟩ := mappedOn_pair.1 hk
    have heven : laneAt (byPair m f).lanes (2 * k) = BitVec.ofNat 32 (f k).val := by
      rw [laneAt_byPair (by omega), show 2 * k / 2 = k by omega, if_pos hm, if_pos (by omega)]
    have hodd : laneAt (byPair m f).lanes (2 * k + 1) = BitVec.ofNat 32 ((f k).val / 2 ^ 32) := by
      rw [laneAt_byPair (by omega), show (2 * k + 1) / 2 = k by omega, if_pos hm, if_neg (by omega)]
    change pairAt (byPair m f).lanes k = _
    rw [pairAt, heven, hodd, BitVec.toNat_ofNat, BitVec.toNat_ofNat, elemSize, if_pos rfl]
    omega

theorem elemSize_int (t : WTy) : elemSize (IntTy.wide (WTy.int t)) = 2 ^ IntTy.bits (WTy.int t) := by cases t <;> decide

/-- The number of elements of a width. -/
def elemCount (wide : Bool) : Nat := if wide then 8 else 16

/-- Whether an element of a mask is active. -/
def elemOn (wide : Bool) (m : BitVec 16) (k : Nat) : Bool := if wide then pairOn m k else laneOn m k

/-- A source element: 0 where it is inactive in the firing. -/
def sourceElem (env : OpEnv) (t : IntTy) (a : Sel) (j : Nat) : Nat :=
  if elemOn (IntTy.wide t) env.act j then selInt env t a j else 0

theorem actives_iff_elemOn {t : IntTy} {m : BitVec 16} {k : Nat} :
    actives t m k ↔ k < elemCount (IntTy.wide t) ∧ elemOn (IntTy.wide t) m k = true := by
  unfold actives
  cases IntTy.wide t <;> exact Iff.rfl

theorem laneShuf_eq (env : OpEnv) (t : WTy) (a b : Sel) : laneShuf env t a b =
    byElem (IntTy.wide (WTy.int t)) env.mask fun k =>
      quiet (sourceElem env (WTy.int t) a (selInt env (WTy.int t) b k % elemCount (IntTy.wide (WTy.int t)))) := by
  unfold laneShuf sourceElem elemCount elemOn byElem
  dsimp only
  split <;> rfl

/-- The element of a list that satisfies a predicate first is the lowest. -/
theorem find_range_lowest {n k : Nat} {p : Nat → Bool} (hk : k < n) (hp : p k = true) (hmin : ∀ j, j < k → p j = false) :
    (List.range n).find? p = some k :=
  List.find?_range_eq_some.2 ⟨hp, List.mem_range.2 hk, fun j hj => by rw [hmin j hj]; rfl⟩

theorem laneBcast_eq {env : OpEnv} {t : WTy} {a b : Sel} {k : Nat} (hk : actives (WTy.int t) env.mask k)
    (hmin : ∀ j, j < k → ¬ actives (WTy.int t) env.mask j) : laneBcast env t a b =
    byElem (IntTy.wide (WTy.int t)) env.mask fun _ =>
      quiet (sourceElem env (WTy.int t) a (selInt env (WTy.int t) b k % elemCount (IntTy.wide (WTy.int t)))) := by
  obtain ⟨hlt, hon⟩ := actives_iff_elemOn.1 hk
  have hoff : ∀ j, j < k → elemOn (IntTy.wide (WTy.int t)) env.mask j = false := fun j hj =>
    Bool.eq_false_iff.2 fun h => hmin j hj (actives_iff_elemOn.2 ⟨hj.trans hlt, h⟩)
  unfold laneBcast sourceElem elemCount elemOn byElem at *
  cases hw : IntTy.wide (WTy.int t) <;> simp only [hw, Bool.false_eq_true, if_true, if_false] at hlt hon hoff ⊢
  · rw [show lowestLane env.mask = some k from find_range_lowest hlt hon hoff]
  · rw [show lowestPair env.mask = some k from find_range_lowest hlt hon hoff]

theorem laneBcast_fl (env : OpEnv) (t : WTy) (a b : Sel) : (laneBcast env t a b).fl = fNone := by
  unfold laneBcast
  dsimp only
  split
  · exact byElem_fl_quiet true _ _
  · exact byElem_fl_quiet false _ _

/-- What an active element holds that takes source element `j`. -/
theorem elemAt_source {env : OpEnv} {t : WTy} {a : Sel} {src : Nat → Nat} {j k : Nat}
    (hk : actives (WTy.int t) env.mask k) (hj : src k = j) (hlt : j < elemCount (IntTy.wide (WTy.int t))) :
    let r := byElem (IntTy.wide (WTy.int t)) env.mask fun k => quiet (sourceElem env (WTy.int t) a (src k))
    (actives (WTy.int t) env.act j →
      elemAt (WTy.int t) r.lanes k = selInt env (WTy.int t) a j % 2 ^ IntTy.bits (WTy.int t)) ∧
    (¬ actives (WTy.int t) env.act j → elemAt (WTy.int t) r.lanes k = 0) := by
  intro r
  have hr : elemAt (WTy.int t) r.lanes k = sourceElem env (WTy.int t) a j % 2 ^ IntTy.bits (WTy.int t) := by
    rw [← elemSize_int, ← hj]
    exact elemOf_byElem_mod _ _ _ (mappedOn_actives.2 hk)
  rw [hr, sourceElem, actives_iff_elemOn, and_iff_right hlt]
  exact ⟨fun h => by rw [if_pos h], fun h => by rw [if_neg h, Nat.zero_mod]⟩

theorem broadcastAndShuffle : BroadcastAndShuffle := by
  intro t a b c g m env s it n
  have hlt : ∀ k, selInt env it b k % n < n := fun k => Nat.mod_lt _ (by simp only [n]; split <;> decide)
  refine ⟨fun h => ⟨_, compute_computes h fun env => laneShuf env t a b, ?_, fun k hk => ?_⟩,
    fun h => ⟨_, compute_computes h fun env => laneBcast env t a b, ?_, fun k0 k hk0 hmin hk => ?_⟩⟩
  · rw [laneShuf_eq]
    exact byElem_fl_quiet _ _ _
  · rw [laneShuf_eq]
    exact elemAt_source hk rfl (hlt k)
  · exact laneBcast_fl env t a b
  · rw [laneBcast_eq hk0 hmin]
    exact elemAt_source hk rfl (hlt k0)

/-! ### What sending outputs keeps -/

/-- Only the fabric of one context changes. -/
structure FabricOnly (c : Nat) (s t : State) : Prop where
  wf : t.ctxWf = true
  stores : SameStores s t
  ctx : ∃ f, t.ctx c = { s.ctx c with fab := f }

section
variable {c : Nat} {s t u : State}

theorem FabricOnly.trans (h : FabricOnly c s t) (k : FabricOnly c t u) : FabricOnly c s u := by
  obtain ⟨f, hf⟩ := h.ctx
  obtain ⟨f', hf'⟩ := k.ctx
  exact ⟨k.wf, h.stores.trans k.stores, f', by rw [hf', hf]⟩

theorem fabricOnly_modFab (h : s.ctxWf = true) (f : Fabric → Fabric) : FabricOnly c s (s.modFab c f) :=
  ⟨State.ctxWf_modFab h c f, SameStores.rfl, _, State.ctx_modCtx_same h c _⟩

theorem fabricOnly_waitEmit (h : s.ctxWf = true) (g : Firing) (outs : List Emission) :
    FabricOnly c s (waitEmit c g outs s) := by
  unfold waitEmit
  dsimp only
  split
  · exact fabricOnly_modFab h _
  · have hdrop : FabricOnly c s (dropFiring c g.id s) := fabricOnly_modFab h _
    exact hdrop.trans (fabricOnly_modFab hdrop.wf _)

theorem fabricOnly_emitted (h : s.ctxWf = true) (g : Firing) (m : NodeImg) : FabricOnly c s (emitted c g m s) := by
  unfold emitted
  split <;> exact fabricOnly_modFab h _

theorem fabricOnly_emitNow (h : s.ctxWf = true) (g : Firing) (m : NodeImg) (outs : List Emission) :
    FabricOnly c s (emitNow c g m outs s) := by
  unfold emitNow
  split
  · exact fabricOnly_waitEmit h g outs
  · dsimp only
    generalize admitToks (s.frozen (s.ctx c)) (s.fab c).chan (outs.flatMap (s.toks (s.ctx c) g.ref m)) = r
    have hsent : FabricOnly c s (s.modFab c fun f => { f with chan := r.1 }) := fabricOnly_modFab h _
    split
    · exact hsent.trans (fabricOnly_emitted hsent.wf g m)
    · exact hsent.trans (fabricOnly_waitEmit hsent.wf g _)

end

/-! ### The end of a stage (R16, R53, R126, R128) -/

theorem scaleLater_iff {m : NodeImg} {n : Nat} :
    m.scaleLater n = true ↔ ∃ j i, n < j ∧ m.ops[j]? = some i ∧ Instr.blockSels i ≠ [] := by
  simp only [NodeImg.scaleLater, List.any_eq_true, List.mem_iff_getElem?, List.getElem?_drop, Bool.not_eq_true',
    List.isEmpty_eq_false_iff]
  constructor
  · rintro ⟨i, ⟨k, hk⟩, hi⟩
    exact ⟨n + 1 + k, i, by omega, hk, hi⟩
  · rintro ⟨j, i, hj, hji, hi⟩
    exact ⟨i, ⟨j - (n + 1), by rwa [Nat.add_sub_cancel' hj]⟩, hi⟩

/-- After its last stage a firing has no later block operation. -/
theorem scaleLater_last {m : NodeImg} {n : Nat} (h : m.ops.length ≤ n + 1) : m.scaleLater n = false := by
  rw [NodeImg.scaleLater, List.drop_eq_nil_of_le h, List.any_nil]

/-- The state whose flags a stage has merged, unless its firing may still raise OP.SCALE (R53, R128). -/
def stageFlags (c : Nat) (g : Firing) (m : NodeImg) (r : OpRes) (s : State) : State :=
  if m.scaleLater g.stage then s else s.raiseFlags c (g.fl ||| r.fl)

/-- A firing with the result of its stage. -/
def withResult (g : Firing) (m : NodeImg) (r : OpRes) : Firing :=
  { g with x := r.lanes, mask := r.mask, fwd := r.fwd, fl := if m.scaleLater g.stage then g.fl ||| r.fl else 0, wins := [] }

section
variable {c : Nat} {g : Firing} {m : NodeImg} {r : OpRes} {s : State} (hs : s.ctxWf = true)
include hs

theorem ctx_raiseFlags (f : Flags) : (s.raiseFlags c f).ctx c = if (s.fab c).period = none then
    { s.ctx c with flags := (s.ctx c).flags ||| f } else { s.ctx c with unmerged := (s.ctx c).unmerged ||| f } := by
  rw [State.raiseFlags, State.ctx_modCtx_same hs, State.fab]
  cases (s.ctx c).fab.period <;> rfl

theorem stageFlags_wf : (stageFlags c g m r s).ctxWf = true := by
  unfold stageFlags
  split
  · exact hs
  · exact State.ctxWf_modCtx hs c _

theorem stageFlags_fab : (stageFlags c g m r s).fab c = s.fab c := by
  unfold stageFlags
  split
  · rfl
  · rw [State.fab, ctx_raiseFlags hs]
    split <;> rfl

theorem stageFlags_nodeBreak (tag : Tag) (n : Nat) :
    ((stageFlags c g m r s).ctx c).nodeBreak m tag n = (s.ctx c).nodeBreak m tag n := by
  unfold stageFlags
  split
  · rfl
  · rw [ctx_raiseFlags hs]
    split <;> rfl

omit hs in
theorem stageFlags_stores : SameStores s (stageFlags c g m r s) := by
  unfold stageFlags
  split <;> exact SameStores.rfl

/-- The end of a stage at which no breakpoint fires: the firing goes on with its result, or its outputs leave. -/
theorem stageDone_eq (hb : (s.ctx c).nodeBreak m g.tag g.stage = none) : stageDone c g m r s =
    if g.stage + 1 < m.ops.length then setFiring c { withResult g m r with stage := g.stage + 1 } (stageFlags c g m r s)
    else emitNow c (withResult g m r) m (resultOuts m (withResult g m r)) (stageFlags c g m r s) := by
  have hflags : (if m.scaleLater g.stage then s else s.raiseFlags c (g.fl ||| r.fl)) = stageFlags c g m r s := rfl
  have hbreak : ((stageFlags c g m r s).ctx c).nodeBreak m g.tag g.stage = none := (stageFlags_nodeBreak hs _ _).trans hb
  simp only [stageDone, finish, hb, Option.isSome_none, Bool.not_false, Bool.and_true, Bool.false_eq_true, if_false, hflags,
    hbreak]
  rfl

/-- What a stage's end changes beside its context's fabric is where its flags go. -/
theorem fabricOnly_stageDone (hb : (s.ctx c).nodeBreak m g.tag g.stage = none) :
    FabricOnly c (stageFlags c g m r s) (stageDone c g m r s) := by
  rw [stageDone_eq hs hb]
  split
  · exact fabricOnly_modFab (stageFlags_wf hs) _
  · exact fabricOnly_emitNow (stageFlags_wf hs) _ m _

end

theorem stageEndHandsResultOn : StageEndHandsResultOn := by
  intro c g m r s hs hb _ t waits
  have hwaits : m.scaleLater g.stage = true ↔ waits := scaleLater_iff
  have hkept : FabricOnly c (stageFlags c g m r s) t := fabricOnly_stageDone hs hb
  have hstores : SameStores s t := (stageFlags_stores).trans hkept.stores
  obtain ⟨f, hctx⟩ := hkept.ctx
  have hraised : ¬ waits → stageFlags c g m r s = s.raiseFlags c (g.fl ||| r.fl) :=
    fun h => if_neg (hwaits.not.2 h)
  refine ⟨fun hlt => ?_, fun hge => ?_, fun hw hp => ?_, fun hw hp => ?_, fun hw => ?_, hstores.1, hstores.2.1⟩
  · have ht : t = setFiring c { withResult g m r with stage := g.stage + 1 } (stageFlags c g m r s) :=
      (stageDone_eq hs hb).trans (if_pos hlt)
    have hfab : t.fab c = { s.fab c with firings := (s.fab c).firings.map fun h => if h.id = g.id then
        { withResult g m r with stage := g.stage + 1 } else h } := by
      rw [ht, setFiring_fab (stageFlags_wf hs), stageFlags_fab hs]
      rfl
    refine ⟨by rw [hfab], fun h hh hid => ?_⟩
    rw [hfab] at hh
    obtain ⟨h', -, rfl⟩ := List.mem_map.1 hh
    have hid' : h'.id = g.id := by
      by_contra hne
      rw [if_neg hne] at hid
      exact hne hid
    rw [if_pos hid']
    exact ⟨rfl, rfl, rfl, rfl, rfl, rfl, rfl, fun hw => if_pos (hwaits.2 hw), fun hw => if_neg (hwaits.not.2 hw)⟩
  · refine ⟨stageFlags c g m r s, stageFlags_fab hs, ((stageDone_eq hs hb).trans (if_neg (not_lt.2 hge))).trans ?_⟩
    rw [withResult, scaleLater_last hge]
    rfl
  · rw [hctx, hraised hw, ctx_raiseFlags hs, if_pos hp]
    exact (BitVec.or_assoc _ _ _).symm
  · rw [hctx, hraised hw, ctx_raiseFlags hs, if_neg hp]
    exact ⟨(BitVec.or_assoc _ _ _).symm, rfl⟩
  · rw [hctx, stageFlags, if_pos (hwaits.2 hw)]
    exact ⟨rfl, rfl⟩

/-- Settles O23, by the source element of each lane, and where the flags and the result of a stage go. -/
theorem laneMovesAndStageEnds : Obligations.LaneMovesAndStageEnds := ⟨broadcastAndShuffle, stageEndHandsResultOn⟩

end Sys2Proof.Machine
end

section
/-! SUPPORT. The float operations of a node, element by element; the order of numbers, and their signs (R40, R133 to R136). -/

namespace Sys2Proof.Machine

open Sys2Proof Sys2Proof.Claims

theorem floatOperationsApply : FloatOperationsApply := by
  intro t a b d rnd sat q c g m env s w u A B D R
  refine ⟨fun h => ?_, fun h => ?_, fun h => ?_, fun h => ?_, fun h => ?_, fun h => ?_, fun h => ?_, fun h => ?_, fun h => ?_,
    fun h => ?_, fun h => ?_, fun h => ?_, fun h => ?_, fun h => ?_⟩
  · exact compute_computes h fun env => flt2 env t a b (fAdd t rnd sat)
  · exact compute_computes h fun env => flt2 env t a b (fSub t rnd sat)
  · exact compute_computes h fun env => flt2 env t a b (fMul t rnd sat)
  · exact compute_computes h fun env => flt3 env t a b d rnd sat
  · exact compute_computes h fun env => flt2 env t a b fun _ => fMinMax false t
  · exact compute_computes h fun env => flt2 env t a b fun _ => fMinMax true t
  · exact compute_computes h fun env => flt1 env t a fun _ => fSignOp false t
  · exact compute_computes h fun env => flt1 env t a fun _ => fSignOp true t
  · exact compute_computes h fun env => fltCmp env t a b q
  · exact compute_computes h fun env => flt1 env t a (fRcp t rnd sat)
  · exact compute_computes h fun env => flt1 env t a (fRsqrt t rnd sat)
  · exact compute_computes h fun env => flt1 env t a (fSqrt t rnd sat)
  · exact compute_computes h fun env => flt1 env t a (fExp2 t rnd sat)
  · exact compute_computes h fun env => flt1 env t a (fLog2 t rnd sat)

/-! ### Patterns (R40) -/

section
variable {t : FltTy} {a b : Nat}

theorem isSnan_of_number {v : FVal} (h : v.isNan = false) : v.isSnan = false := by
  cases v with
  | nan s => cases h
  | inf n => rfl
  | fin n m e => rfl

/-- A pattern is an infinity or a NaN where its exponent field is all ones, and else finite. -/
theorem fVal_of_not_finite (h : ¬ finite t a) : fVal t a =
    if a % 2 ^ FltTy.frac t = 0 then .inf (signBit t a) else .nan (a % 2 ^ FltTy.frac t < 2 ^ (FltTy.frac t - 1)) := by
  have hlt : expField t a < 2 ^ FltTy.exp t := Nat.mod_lt _ (by positivity)
  have hex : a / 2 ^ FltTy.frac t % 2 ^ FltTy.exp t = FltTy.expMax t := by
    unfold finite at h
    unfold expField at h hlt
    unfold FltTy.expMax
    omega
  rw [fVal, if_pos hex, bit_eq_testBit, signBit, add_comm]

/-- A number is finite or an infinity of its sign. -/
theorem number_cases (h : (fVal t a).isNan = false) :
    (finite t a ∧ ∃ m e, fVal t a = .fin (signBit t a) m e ∧ (fVal t a).rat = ratOf t a) ∨
      (¬ finite t a ∧ a % 2 ^ FltTy.frac t = 0 ∧ fVal t a = .inf (signBit t a)) := by
  by_cases hf : finite t a
  · exact .inl ⟨hf, fVal_of_finite hf⟩
  · have hv := fVal_of_not_finite hf
    split at hv
    next h0 => exact .inr ⟨hf, h0, hv⟩
    next => rw [hv] at h; cases h

theorem neg_of_number (h : (fVal t a).isNan = false) : (fVal t a).neg = signBit t a := by
  obtain ⟨-, m, e, hv, -⟩ | ⟨-, -, hv⟩ := number_cases h <;> rw [hv] <;> rfl

theorem width_eq (t : FltTy) : FltTy.width t = FltTy.exp t + FltTy.frac t + 1 := by unfold FltTy.width; omega

/-- A pattern is its sign and the rest. -/
theorem pattern_split (h : a < 2 ^ FltTy.width t) :
    a = fZero t (signBit t a) + a % 2 ^ (FltTy.exp t + FltTy.frac t) := by
  rw [width_eq, pow_succ] at h
  have hdiv : a / 2 ^ (FltTy.exp t + FltTy.frac t) < 2 := Nat.div_lt_of_lt_mul h
  have hsign : bitN (signBit t a) = a / 2 ^ (FltTy.exp t + FltTy.frac t) := by
    rw [signBit, Nat.testBit_eq_decide_div_mod_eq, Nat.mod_eq_of_lt hdiv, bitN]
    generalize a / 2 ^ (FltTy.exp t + FltTy.frac t) = q at *
    obtain rfl | rfl : q = 0 ∨ q = 1 := by omega
    · rfl
    · rfl
  rw [fZero, hsign, mul_comm]
  exact (Nat.div_add_mod a _).symm

/-- Larger patterns have larger magnitudes. -/
theorem magOf_strictMono (t : FltTy) : StrictMono (magOf t) := by
  refine strictMono_nat_of_lt_succ fun p => ?_
  set F := 2 ^ FltTy.frac t with hF
  obtain ⟨e, k, rfl, hk, he⟩ : ∃ e k, p = e * F + k ∧ k < 2 * F ∧ (e ≠ 0 → F ≤ k) := by
    have hFpos : 0 < F := by positivity
    have hdm := Nat.div_add_mod p F
    have hm := Nat.mod_lt p hFpos
    rcases Nat.eq_zero_or_pos (p / F) with h0 | h0
    · exact ⟨0, p, by omega, by rw [h0] at hdm; omega, fun h => absurd rfl h⟩
    · obtain ⟨e, he⟩ := Nat.exists_eq_succ_of_ne_zero h0.ne'
      rw [he, Nat.mul_succ, mul_comm] at hdm
      exact ⟨e, F + p % F, by omega, by omega, fun _ => by omega⟩
  rw [show e * F + k + 1 = e * F + (k + 1) from rfl, hF,
    magOf_pattern t (by rw [pow_succ]; omega) he, magOf_pattern t (by rw [pow_succ]; omega) fun h => (he h).trans (by omega)]
  refine mul_lt_mul_of_pos_right ?_ (by positivity)
  exact_mod_cast Nat.lt_succ_self k

/-- Patterns of equal values are equal, or both values are zero. -/
theorem eq_of_ratOf_eq (ha : a < 2 ^ FltTy.width t) (hb : b < 2 ^ FltTy.width t) (h : ratOf t a = ratOf t b) :
    a = b ∨ (ratOf t a = 0 ∧ ratOf t b = 0) := by
  have hlt : ∀ x : Nat, x % 2 ^ (FltTy.exp t + FltTy.frac t) < 2 ^ (FltTy.exp t + FltTy.frac t) :=
    fun x => Nat.mod_lt x (by positivity)
  have hsa := pattern_split ha
  have hsb := pattern_split hb
  have hmag : magOf t (a % 2 ^ (FltTy.exp t + FltTy.frac t)) = magOf t (b % 2 ^ (FltTy.exp t + FltTy.frac t)) := by
    rw [← abs_ratOf_signed t (signBit t a) (hlt a), ← abs_ratOf_signed t (signBit t b) (hlt b), ← hsa, ← hsb, h]
  have hp := (magOf_strictMono t).injective hmag
  by_cases hz : ratOf t a = 0
  · exact .inr ⟨hz, h ▸ hz⟩
  · left
    have hsign : signBit t a = signBit t b := by
      have hA := ratOf_eq_abs t a
      have hB := ratOf_eq_abs t b
      rw [← h] at hB
      have habs := abs_pos.2 hz
      cases hsa : signBit t a <;> cases hsb : signBit t b <;> simp only [hsa, hsb, Bool.false_eq_true, if_true, if_false] at hA hB
      · rfl
      · linarith
      · linarith
      · rfl
    rw [hsa, hsb, hsign, hp]

/-- The pattern of an infinity is the only one of its sign. -/
theorem eq_fInf (ha : a < 2 ^ FltTy.width t) (hf : ¬ finite t a) (h0 : a % 2 ^ FltTy.frac t = 0) :
    a = fInf t (signBit t a) := by
  have hlt : a % 2 ^ (FltTy.exp t + FltTy.frac t) < 2 ^ (FltTy.exp t + FltTy.frac t) := Nat.mod_lt _ (by positivity)
  have hex := expField_signed t (signBit t a) hlt
  have hfrac := frac_signed t (signBit t a) (a % 2 ^ (FltTy.exp t + FltTy.frac t))
  rw [← pattern_split ha] at hex hfrac
  have hmax : expField t a = FltTy.expMax t := by
    have : expField t a < 2 ^ FltTy.exp t := Nat.mod_lt _ (by positivity)
    unfold finite at hf
    unfold FltTy.expMax
    omega
  have hp := Nat.div_add_mod (a % 2 ^ (FltTy.exp t + FltTy.frac t)) (2 ^ FltTy.frac t)
  rw [← hfrac, ← hex, h0, hmax, add_zero, mul_comm] at hp
  rw [fInf, hp]
  exact pattern_split ha

end

/-! ### The order of numbers (R134, R135) -/

/-- The model compares finite values in units of the lower exponent. -/
theorem cmpVals_fin (na nb : Bool) (ma mb : Nat) (ea eb : ℤ) : cmpVals (.fin na ma ea) (.fin nb mb eb) =
    compare (FVal.fin na ma ea).rat (FVal.fin nb mb eb).rat := by
  have hl : StrictMono fun z : ℤ => (z : ℚ) * 2 ^ min ea eb := fun x y hxy =>
    mul_lt_mul_of_pos_right (by exact_mod_cast hxy) (by positivity)
  have ha := sumDyadic_rat (signedOf na ma) ea 0 eb
  have hb := sumDyadic_rat 0 ea (signedOf nb mb) eb
  simp only [sumDyadic, zero_mul, add_zero, zero_add, Int.cast_zero] at ha hb
  rw [FVal.rat, FVal.rat, ← ha, ← hb, ← cmp_eq_compare, hl.cmp_map_eq, cmp_eq_compare]
  rfl

section
variable {t : FltTy} {a b : Nat} (ha : (fVal t a).isNan = false) (hb : (fVal t b).isNan = false)
include ha hb

/-- The model's order of numbers is that of their values. -/
theorem cmpVals_lt_iff : cmpVals (fVal t a) (fVal t b) = .lt ↔ Below t a b := by
  unfold Below
  obtain ⟨hfa, m, e, hva, hra⟩ | ⟨hfa, -, hva⟩ := number_cases ha <;>
    obtain ⟨hfb, m', e', hvb, hrb⟩ | ⟨hfb, -, hvb⟩ := number_cases hb
  · rw [← hra, ← hrb, hva, hvb, cmpVals_fin, compare_lt_iff_lt]
    simp [hfa, hfb]
  · rw [hva, hvb]
    cases signBit t b <;> simp [cmpVals, hfb]
  · rw [hva, hvb]
    cases signBit t a <;> simp [cmpVals, hfa]
  · rw [hva, hvb]
    cases signBit t a <;> cases signBit t b <;> simp [cmpVals, hfa]

theorem cmpVals_swap : (cmpVals (fVal t a) (fVal t b)).swap = cmpVals (fVal t b) (fVal t a) := by
  obtain ⟨-, m, e, hva, -⟩ | ⟨-, -, hva⟩ := number_cases ha <;>
    obtain ⟨-, m', e', hvb, -⟩ | ⟨-, -, hvb⟩ := number_cases hb <;> rw [hva, hvb]
  · rw [cmpVals_fin, cmpVals_fin, ← cmp_eq_compare, ← cmp_eq_compare, cmp_swap]
  · cases signBit t b <;> rfl
  · cases signBit t a <;> rfl
  · cases signBit t a <;> cases signBit t b <;> rfl

theorem cmpVals_gt_iff : cmpVals (fVal t a) (fVal t b) = .gt ↔ Below t b a := by
  rw [← cmpVals_lt_iff hb ha, ← cmpVals_swap ha hb, Ordering.swap_eq_lt]

/-- Numbers that are equal in order are the same pattern, or two zeros. -/
theorem eq_of_cmpVals_eq (hwa : a < 2 ^ FltTy.width t) (hwb : b < 2 ^ FltTy.width t)
    (h : cmpVals (fVal t a) (fVal t b) = .eq) : a = b ∨ (ratOf t a = 0 ∧ ratOf t b = 0) := by
  obtain ⟨-, m, e, hva, hra⟩ | ⟨hfa, h0a, hva⟩ := number_cases ha <;>
    obtain ⟨-, m', e', hvb, hrb⟩ | ⟨hfb, h0b, hvb⟩ := number_cases hb
  · rw [hva, hvb, cmpVals_fin, ← hva, ← hvb, hra, hrb, compare_eq_iff_eq] at h
    exact eq_of_ratOf_eq hwa hwb h
  · rw [hva, hvb] at h
    cases hs : signBit t b <;> simp [hs, cmpVals] at h
  · rw [hva, hvb] at h
    cases hs : signBit t a <;> simp [hs, cmpVals] at h
  · have hs : signBit t a = signBit t b := by
      rw [hva, hvb] at h
      by_contra hne
      simp only [cmpVals, if_neg hne] at h
      split at h <;> cases h
    left
    rw [eq_fInf hwa hfa h0a, eq_fInf hwb hfb h0b, hs]

/-- min and max take the operand that is the lower or the higher one. -/
theorem fMinMax_numbers (w : Bool) : fMinMax w t a b =
    { val := if w then (if fLess (fVal t a) (fVal t b) then b else a) else (if fLess (fVal t b) (fVal t a) then b else a),
      fl := fNone } := by
  simp only [fMinMax, ha, hb, isSnan_of_number ha, isSnan_of_number hb, Bool.and_false, Bool.or_false, Bool.false_eq_true,
    if_false]
  rfl

/-- A comparison of numbers sets no flag, and holds as their order says. -/
theorem fCmp_numbers (q : FCond) : (fCmp t q a b).fl = fNone ∧ ((fCmp t q a b).val = true ↔ match q with
    | .eq => cmpVals (fVal t a) (fVal t b) = .eq
    | .ne => cmpVals (fVal t a) (fVal t b) ≠ .eq
    | .lt => cmpVals (fVal t a) (fVal t b) = .lt
    | .le => cmpVals (fVal t a) (fVal t b) ≠ .gt
    | .gt => cmpVals (fVal t a) (fVal t b) = .gt
    | .ge => cmpVals (fVal t a) (fVal t b) ≠ .lt
    | .un => False) := by
  have hun : ((fVal t a).isNan || (fVal t b).isNan) = false := by rw [ha, hb]; rfl
  have hsn : ((fVal t a).isSnan || (fVal t b).isSnan) = false := by rw [isSnan_of_number ha, isSnan_of_number hb]; rfl
  cases q <;> simp [fCmp, hun, hsn, flagIf]

end

theorem fLess_of_lt {x y : FVal} (h : cmpVals x y = .lt) : fLess x y = true := by simp [fLess, h]

theorem fLess_of_gt {x y : FVal} (h : cmpVals x y = .gt) : fLess x y = false := by simp [fLess, h]

/-! ### Zeros and signs -/

/-- The value of a pattern with a sign and a zero exponent field and fraction. -/
theorem fVal_fZero (t : FltTy) (n : Bool) : fVal t (fZero t n) = .fin n 0 (1 - (FltTy.bias t : ℤ) - FltTy.frac t) := by
  cases t <;> cases n <;> decide

/-- Minus zero is below plus zero, and the other way round it is not. -/
theorem fLess_zeros (t : FltTy) (n : Bool) : fLess (fVal t (fZero t n)) (fVal t (fZero t !n)) = n := by
  rw [fVal_fZero, fVal_fZero]
  cases t <;> cases n <;> decide

/-- Changing the top bit of a pattern changes its sign alone. -/
theorem xor_signBit {t : FltTy} {a : Nat} (ha : a < 2 ^ FltTy.width t) :
    a ^^^ 2 ^ (FltTy.exp t + FltTy.frac t) =
      if signBit t a then a % 2 ^ (FltTy.exp t + FltTy.frac t)
      else a % 2 ^ (FltTy.exp t + FltTy.frac t) + 2 ^ (FltTy.exp t + FltTy.frac t) := by
  unfold signBit
  rw [width_eq] at ha
  generalize FltTy.exp t + FltTy.frac t = n at *
  have hhigh : ∀ i, n < i → a.testBit i = false := fun i hi =>
    Nat.testBit_lt_two_pow (ha.trans_le (Nat.pow_le_pow_right two_pos hi))
  have hlt : a % 2 ^ n < 2 ^ n := Nat.mod_lt _ (by positivity)
  refine Nat.eq_of_testBit_eq fun i => ?_
  rw [Nat.testBit_xor, Nat.testBit_two_pow]
  rcases lt_trichotomy i n with h | rfl | h
  · split
    · simp [Nat.testBit_mod_two_pow, h, h.ne']
    · rw [add_comm, Nat.testBit_two_pow_add_gt h]
      simp [Nat.testBit_mod_two_pow, h, h.ne']
  · split
    next hb => simp [Nat.testBit_mod_two_pow, hb]
    next hb =>
      rw [add_comm, Nat.testBit_two_pow_add_eq]
      simpa [Nat.testBit_mod_two_pow] using hb
  · have hmod : (a % 2 ^ n + 2 ^ n).testBit i = false := by
      refine Nat.testBit_lt_two_pow ?_
      have := Nat.pow_le_pow_right two_pos (Nat.succ_le_of_lt h)
      rw [pow_succ] at this
      omega
    split
    · simp [Nat.testBit_mod_two_pow, hhigh i h, h.ne, h.not_gt]
    · rw [hmod]
      simp [hhigh i h, h.ne]

theorem numbersAreOrdered : NumbersAreOrdered := by
  intro t a b ha hb hwa hwb no lt gt
  have hlt : cmpVals (fVal t a) (fVal t b) = .lt ↔ lt := cmpVals_lt_iff ha hb
  have hgt : cmpVals (fVal t a) (fVal t b) = .gt ↔ gt := cmpVals_gt_iff ha hb
  have hswap := cmpVals_swap ha hb
  have heq : cmpVals (fVal t a) (fVal t b) = .eq ↔ ¬ lt ∧ ¬ gt := by
    rw [← hlt, ← hgt]
    cases cmpVals (fVal t a) (fVal t b) <;> simp
  have hmin := fMinMax_numbers ha hb
  refine ⟨fun h => ?_, fun h => ?_, fun h h' => ⟨?_, ?_, ?_, eq_of_cmpVals_eq ha hb hwa hwb (heq.2 ⟨h, h'⟩)⟩, ?_, ?_, fun q => ?_⟩
  · have hab := hlt.2 h
    have hba : cmpVals (fVal t b) (fVal t a) = .gt := by rw [← hswap, hab]; rfl
    rw [hmin, hmin, fLess_of_lt hab, fLess_of_gt hba]
    exact ⟨rfl, rfl⟩
  · have hab := hgt.2 h
    have hba : cmpVals (fVal t b) (fVal t a) = .lt := by rw [← hswap, hab]; rfl
    rw [hmin, hmin, fLess_of_gt hab, fLess_of_lt hba]
    exact ⟨rfl, rfl⟩
  · rintro rfl w
    simp only [hmin, ite_self, no]
  · rintro rfl rfl
    rw [hmin, hmin, show fLess (fVal t (fZero t true)) (fVal t (fZero t false)) = true from fLess_zeros t true,
      show fLess (fVal t (fZero t false)) (fVal t (fZero t true)) = false from fLess_zeros t false]
    exact ⟨rfl, rfl⟩
  · rintro rfl rfl
    rw [hmin, hmin, show fLess (fVal t (fZero t true)) (fVal t (fZero t false)) = true from fLess_zeros t true,
      show fLess (fVal t (fZero t false)) (fVal t (fZero t true)) = false from fLess_zeros t false]
    exact ⟨rfl, rfl⟩
  · simp only [fSignOp, ha, Bool.false_eq_true, if_false, Bool.false_and]
    rfl
  · rw [xor_signBit hwa]
    simp only [fSignOp, ha, neg_of_number ha, Bool.false_eq_true, if_false, Bool.true_and]
    cases signBit t a <;> rfl
  · obtain ⟨hfl, hval⟩ := fCmp_numbers ha hb q
    refine ⟨hfl, hval.trans ?_⟩
    have hor : ¬ (¬ lt ∧ ¬ gt) ↔ lt ∨ gt := by tauto
    cases q <;> simp only [ne_eq, heq, hlt, hgt, hor]

end Sys2Proof.Machine
end

section
/-! SUPPORT. The float operations on infinities, zeros, negative numbers and NaNs (R41, R133 to R136). -/

namespace Sys2Proof.Machine

open Sys2Proof Sys2Proof.Claims

/-! ### NaN operands (R41) -/

/-- Whether a value is an infinity. -/
def FVal.isInf : FVal → Bool
  | .inf _ => true
  | .nan _ | .fin _ _ _ => false

theorem isInf_iff {v : FVal} : v.isInf = true ↔ ∃ n, v = .inf n := by cases v <;> simp [FVal.isInf]

/-- Whether a product is 0 times an infinity. -/
def zeroTimesInf (a b : FVal) : Bool := (a.isZero && b.isInf) || (a.isInf && b.isZero)

section
variable {t : FltTy} {r : Rnd} {sat : Bool} {u : Nat}

theorem nan_of_isNan {v : FVal} (h : v.isNan = true) : v = .nan v.isSnan := by
  cases v with
  | nan s => rfl
  | inf n => cases h
  | fin n m e => cases h

theorem nanRes_one (s : Bool) : nanRes t [.nan s] = { val := fNaN t, fl := if s then fInv else fNone } := by cases s <;> rfl

theorem nanRes_two (a b : FVal) :
    nanRes t [a, b] = { val := fNaN t, fl := if a.isSnan || b.isSnan then fInv else fNone } := by
  simp [nanRes, flagIf]

theorem addVals_nan {a b : FVal} (h : (a.isNan || b.isNan) = true) : addVals t r sat u a b = nanRes t [a, b] := by
  rcases Bool.or_eq_true_iff.1 h with h | h
  · rw [nan_of_isNan h]
    rfl
  · rw [nan_of_isNan h]
    cases a <;> rfl

theorem isNan_negate (v : FVal) : v.negate.isNan = v.isNan := by cases v <;> rfl

theorem isSnan_negate (v : FVal) : v.negate.isSnan = v.isSnan := by cases v <;> rfl

variable {a b d : Nat}

theorem fSub_nan (h : ((fVal t a).isNan || (fVal t b).isNan) = true) :
    fSub t r sat u a b = nanRes t [fVal t a, fVal t b] := by
  rw [fSub, addVals_nan (by rwa [isNan_negate]), nanRes_two, isSnan_negate, nanRes_two]

theorem fMul_nan (h : ((fVal t a).isNan || (fVal t b).isNan) = true) :
    fMul t r sat u a b = nanRes t [fVal t a, fVal t b] := by
  unfold fMul
  rcases Bool.or_eq_true_iff.1 h with h | h
  · rw [nan_of_isNan h]
  · rw [nan_of_isNan h]
    cases fVal t a <;> rfl

theorem fFma_zeroTimesInf (h : zeroTimesInf (fVal t a) (fVal t b) = true) :
    fFma t r sat u a b d = { val := fNaN t, fl := fInv } := by
  unfold fFma
  generalize fVal t a = va at *
  generalize fVal t b = vb at *
  cases va <;> cases vb <;> simp_all [zeroTimesInf, FVal.isZero, FVal.isInf, invalidRes]

theorem fFma_nan (hz : zeroTimesInf (fVal t a) (fVal t b) = false)
    (h : ((fVal t a).isNan || (fVal t b).isNan || (fVal t d).isNan) = true) :
    fFma t r sat u a b d = nanRes t [fVal t a, fVal t b, fVal t d] := by
  unfold fFma
  generalize fVal t a = va at *
  generalize fVal t b = vb at *
  simp only [h, if_true]
  refine if_neg ?_
  cases va <;> cases vb <;> simp_all [zeroTimesInf, FVal.isZero, FVal.isInf]

theorem fMinMax_nan (w : Bool) :
    ((fVal t a).isNan = true → (fVal t b).isNan = false → (fMinMax w t a b).val = b) ∧
    ((fVal t a).isNan = false → (fVal t b).isNan = true → (fMinMax w t a b).val = a) ∧
    ((fVal t a).isNan = true → (fVal t b).isNan = true → (fMinMax w t a b).val = fNaN t) := by
  refine ⟨fun ha hb => ?_, fun ha hb => ?_, fun ha hb => ?_⟩ <;> simp [fMinMax, ha, hb]

theorem fCmp_nan (h : ((fVal t a).isNan || (fVal t b).isNan) = true) (q : FCond) :
    (fCmp t q a b).val = (match q with | .ne | .un => true | .eq | .lt | .le | .gt | .ge => false) ∧
      (fCmp t q a b).fl = match q with
        | .eq | .ne | .un => flagIf ((fVal t a).isSnan || (fVal t b).isSnan) fInv
        | .lt | .le | .gt | .ge => fInv := by
  cases q <;> simp [fCmp, h, flagIf]

end

theorem floatNanOperands : FloatNanOperands := by
  intro t a b an bn sn inv nan
  refine ⟨fun r sat u h => ?_, fun r sat u d h => ?_, fun r sat u h => ?_, fun w => ⟨?_, ?_, ?_, rfl⟩, fun w h => ?_,
    fun h q => ?_, fun ha hb q => (fCmp_numbers ha hb q).1⟩
  · rw [fAdd, addVals_nan h, fSub_nan h, fMul_nan h, nanRes_two]
    exact ⟨rfl, rfl, rfl⟩
  · intro bad
    have hbad : bad = zeroTimesInf (fVal t a) (fVal t b) := by
      simp only [bad, zeroTimesInf, ← isInf_iff, Bool.decide_eq_true]
    rw [hbad]
    cases hz : zeroTimesInf (fVal t a) (fVal t b) with
    | true => exact fFma_zeroTimesInf hz
    | false =>
      rw [fFma_nan hz h]
      simp [nanRes, flagIf, nan, inv, sn, Bool.or_assoc]
  · intro x
    have hx : nanRes t [.nan (fVal t a).isSnan] = x := nanRes_one _
    have hv := nan_of_isNan h
    rw [← hx, fRcp, fRsqrt, fSqrt, fExp2, fLog2, hv]
    exact ⟨rfl, rfl, rfl, rfl, rfl⟩
  · exact (fMinMax_nan w).1
  · exact (fMinMax_nan w).2.1
  · exact (fMinMax_nan w).2.2
  · have hx : fSignOp w t a = nanRes t [fVal t a] := if_pos h
    rw [hx, nan_of_isNan h, nanRes_one]
    exact ⟨rfl, rfl⟩
  · obtain ⟨hval, hfl⟩ := fCmp_nan h q
    exact ⟨hval, hfl⟩

/-! ### Infinities and zeros (R133) -/

section
variable (t : FltTy)

theorem fVal_fInf (n : Bool) : fVal t (fInf t n) = .inf n := by cases t <;> cases n <;> decide

theorem fVal_fNaN : fVal t (fNaN t) = .nan false := by cases t <;> decide

/-- The pattern of 1. -/
def fOne : Nat := FltTy.bias t * 2 ^ FltTy.frac t

theorem fVal_fOne : fVal t (fOne t) = .fin false (2 ^ FltTy.frac t) (-FltTy.frac t) := by cases t <;> decide

theorem finite_fOne : finite t (fOne t) := by
  unfold finite expField
  cases t <;> decide

theorem fOne_lt : fOne t < 2 ^ FltTy.width t := by cases t <;> decide

theorem ratOf_fOne : ratOf t (fOne t) = 1 := by
  obtain ⟨m, e, hv, hr⟩ := fVal_of_finite (finite_fOne t)
  rw [fVal_fOne] at hr
  rw [← hr, FVal.rat, cast_signedOf, if_neg Bool.false_ne_true, Nat.cast_pow, Nat.cast_two, ← zpow_natCast,
    ← zpow_add₀ two_ne_zero, add_neg_cancel, zpow_zero]

end

section
variable {t : FltTy} {r : Rnd} {sat : Bool} {u : Nat}

/-- The sum of two finite values is rounded once; an exact zero keeps the sign of two like zeros. -/
theorem addVals_fin {na nb : Bool} {ma mb : Nat} {ea eb : ℤ} {v : ℚ}
    (hv : (FVal.fin na ma ea).rat + (FVal.fin nb mb eb).rat = v) :
    (v ≠ 0 → RoundsTo t r sat u v (addVals t r sat u (.fin na ma ea) (.fin nb mb eb))) ∧
      (v = 0 → addVals t r sat u (.fin na ma ea) (.fin nb mb eb) =
        { val := fZero t (if ma = 0 ∧ mb = 0 ∧ na = nb then na else decide (r = .rd)), fl := fNone }) := by
  have hsum := (sumDyadic_rat (signedOf na ma) ea (signedOf nb mb) eb).trans hv
  refine ⟨fun h0 => roundExact_rounds t r sat u _ hsum h0, fun h0 => roundExact_zero t r sat u _ _ ?_⟩
  rw [h0, mul_eq_zero, or_iff_left (by positivity), Int.cast_eq_zero] at hsum
  exact hsum

/-- Two zeros add up to a zero. -/
theorem addVals_zeros (n k : Bool) (e e' : ℤ) : addVals t r sat u (.fin n 0 e) (.fin k 0 e') =
    { val := fZero t (if n = k then n else decide (r = .rd)), fl := fNone } := by
  have h := (addVals_fin (t := t) (r := r) (sat := sat) (u := u) (na := n) (nb := k) (ma := 0) (mb := 0) (ea := e) (eb := e')
    rfl).2 (by rw [rat_eq_zero.2 rfl, rat_eq_zero.2 rfl, add_zero])
  simpa using h

theorem addVals_infs (n k : Bool) : addVals t r sat u (.inf n) (.inf k) =
    if n = k then { val := fInf t n, fl := fNone } else { val := fNaN t, fl := fInv } := rfl

/-- Two factors whose product is an infinity of a sign: two infinities, or one and a number that is not zero. -/
inductive InfProduct : FVal → FVal → Bool → Prop
  | infs (n k : Bool) : InfProduct (.inf n) (.inf k) (n != k)
  | left (n s : Bool) {m : Nat} (e : ℤ) (hm : m ≠ 0) : InfProduct (.inf n) (.fin s m e) (n != s)
  | right (n s : Bool) {m : Nat} (e : ℤ) (hm : m ≠ 0) : InfProduct (.fin s m e) (.inf n) (n != s)

section
variable {a b d : Nat} {p : Bool}

theorem fMul_infProduct (h : InfProduct (fVal t a) (fVal t b) p) :
    fMul t r sat u a b = { val := fInf t p, fl := fNone } := by
  unfold fMul
  generalize fVal t a = va at *
  generalize fVal t b = vb at *
  cases h with
  | infs n k => rfl
  | left n s e hm => exact if_neg hm
  | right n s e hm =>
    rw [bne_comm]
    exact if_neg hm

theorem fMul_zeroTimesInf (h : zeroTimesInf (fVal t a) (fVal t b) = true) :
    fMul t r sat u a b = { val := fNaN t, fl := fInv } := by
  unfold fMul
  generalize fVal t a = va at *
  generalize fVal t b = vb at *
  cases va <;> cases vb <;> simp_all [zeroTimesInf, FVal.isZero, FVal.isInf, invalidRes]

/-- An infinite product and an infinity add up as two infinities do. -/
theorem fFma_infs {n : Bool} (h : InfProduct (fVal t a) (fVal t b) p) (hd : fVal t d = .inf n) :
    fFma t r sat u a b d = if n = p then { val := fInf t n, fl := fNone } else { val := fNaN t, fl := fInv } := by
  unfold fFma
  rw [hd]
  generalize fVal t a = va at *
  generalize fVal t b = vb at *
  cases h with
  | infs n k => rfl
  | left n s e hm =>
    simp only [beq_false_of_ne hm]
    rfl
  | right n s e hm =>
    simp only [beq_false_of_ne hm, bne_comm (a := n)]
    rfl

/-- An infinite product and a finite number add up to the product. -/
theorem fFma_infProduct (h : InfProduct (fVal t a) (fVal t b) p) (hd : finite t d) :
    fFma t r sat u a b d = { val := fInf t p, fl := fNone } := by
  obtain ⟨m, e, hv, -⟩ := fVal_of_finite hd
  unfold fFma
  rw [hv]
  generalize fVal t a = va at *
  generalize fVal t b = vb at *
  cases h with
  | infs n k => rfl
  | left n s e hm =>
    simp only [beq_false_of_ne hm]
    rfl
  | right n s e hm =>
    simp only [beq_false_of_ne hm, bne_comm (a := n)]
    rfl

end

/-- A finite product and an infinity add up to the infinity. -/
theorem fFma_addInf {a b d : Nat} {n : Bool} (ha : finite t a) (hb : finite t b) (hd : fVal t d = .inf n) :
    fFma t r sat u a b d = { val := fInf t n, fl := fNone } := by
  obtain ⟨ma, ea, hva, -⟩ := fVal_of_finite ha
  obtain ⟨mb, eb, hvb, -⟩ := fVal_of_finite hb
  simp only [fFma, hva, hvb, hd]
  rfl

/-- The square roots and the logarithm of a negative number are invalid. -/
theorem roots_of_negative {a : Nat} (hf : finite t a) (h : ratOf t a < 0) :
    fRsqrt t r sat u a = { val := fNaN t, fl := fInv } ∧ fSqrt t r sat u a = { val := fNaN t, fl := fInv } ∧
      fLog2 t r sat u a = { val := fNaN t, fl := fInv } := by
  obtain ⟨m, e, hv, hr⟩ := fVal_of_finite hf
  rw [← hr, hv, rat_neg_iff] at h
  obtain ⟨hs, hm⟩ := h
  simp only [fRsqrt, fSqrt, fLog2, hv, hs, if_neg hm, if_true]
  exact ⟨rfl, rfl, rfl⟩

/-- 1 is exact in every format. -/
theorem roundFlt_one : roundFlt t r sat u false { q := 1, x := 0, sticky := false } = { val := fOne t, fl := fNone } := by
  have hround : RoundsTo t r sat u 1 (roundFlt t r sat u false { q := 1, x := 0, sticky := false }) := by
    have h := roundFlt_rounds (t := t) (r := r) (sat := sat) (u := u) (v := 1) (q := 1) (x := 0) (by norm_num) one_ne_zero
    rwa [decide_eq_false (by norm_num)] at h
  have hlarge : (1 : ℚ) ≤ FltTy.largest t := by
    have h1 : (1 : ℚ) ≤ 2 - 2 ^ (-FltTy.frac t : ℤ) := by
      have : (2 : ℚ) ^ (-FltTy.frac t : ℤ) ≤ 2 ^ (0 : ℤ) := zpow_le_zpow_right₀ one_le_two (by omega)
      rw [zpow_zero] at this
      linarith
    have h2 : (1 : ℚ) ≤ 2 ^ FltTy.bias t := one_le_pow₀ one_le_two
    exact one_le_mul_of_one_le_of_one_le h1 h2
  have hemin : FltTy.emin t - FltTy.frac t ≤ 0 := by
    have := bias_pos t
    unfold FltTy.emin
    omega
  obtain ⟨hfl, hval⟩ := roundsTo_exact (p := 1) (x := 0) hround one_ne_zero (by norm_num) (Nat.one_lt_two_pow (by omega)) hemin
    (by rwa [abs_one])
  have hpat := eq_of_ratOf_eq (roundFlt_lt t r sat u false _) (fOne_lt t) (hval.trans (ratOf_fOne t).symm)
  rw [hval] at hpat
  generalize roundFlt t r sat u false { q := 1, x := 0, sticky := false } = res at *
  obtain ⟨v, fl⟩ := res
  obtain rfl : v = fOne t := hpat.resolve_right fun h => one_ne_zero h.1
  obtain rfl : fl = fNone := hfl
  rfl

theorem fLog2_one : fLog2 t r sat u (fOne t) = { val := fZero t false, fl := fNone } := by
  have hlen : bitLen (2 ^ FltTy.frac t) = FltTy.frac t + 1 := by cases t <;> decide
  have hm : 2 ^ FltTy.frac t ≠ 0 := by positivity
  simp only [fLog2, fVal_fOne, hlen, if_neg hm, Bool.false_eq_true, if_false, Nat.add_sub_cancel, if_true]
  exact roundExact_zero t r sat u false 0 (by push_cast; ring)

end

theorem floatSpecialOperands : FloatSpecialOperands := by
  intro t r sat n k u nan no dz one inf
  have hinf : ∀ n, fVal t (inf n) = .inf n := fVal_fInf t
  have hzero : ∀ n, fVal t (fZero t n) = _ := fVal_fZero t
  have hzt : ∀ z n, zeroTimesInf (fVal t (fZero t z)) (fVal t (inf n)) = true := fun z n => by rw [hzero, hinf]; rfl
  have htz : ∀ z n, zeroTimesInf (fVal t (inf n)) (fVal t (fZero t z)) = true := fun z n => by rw [hzero, hinf]; rfl
  have hprod : InfProduct (fVal t (inf n)) (fVal t (inf k)) (n != k) := by rw [hinf, hinf]; exact .infs n k
  refine ⟨?_, ?_, ?_, ?_, fun z => ⟨fMul_zeroTimesInf (hzt z n), fMul_zeroTimesInf (htz z n), fFma_zeroTimesInf (hzt z n),
    fFma_zeroTimesInf (htz z n)⟩, fMul_infProduct hprod, ?_, ?_, fun a ha => ?_, ?_, ?_, ?_, ?_, ?_, ?_, ?_, ?_, ?_, ?_, ?_, ?_,
    ?_, ?_, ?_, ?_, fLog2_one⟩
  · rw [fAdd, hinf, hinf, addVals_infs, if_neg (by cases n <;> decide)]
  · rw [fSub, hinf, FVal.negate, addVals_infs, if_neg (by cases n <;> decide)]
  · rw [fAdd, hinf, addVals_infs, if_pos rfl]
  · rw [fSub, hinf, hinf, FVal.negate, addVals_infs, if_pos (by cases n <;> decide)]
  · rw [fFma_infs hprod (hinf _), if_pos rfl]
  · rw [fFma_infs hprod (hinf _), if_neg (by cases n <;> cases k <;> decide)]
  · obtain ⟨m, e, hv, hr⟩ := fVal_of_finite ha
    have hne : ratOf t a ≠ 0 → m ≠ 0 := fun h hm => h (by rw [← hr, hv, rat_eq_zero.2 hm])
    intro s
    refine ⟨?_, ?_, ?_, ?_, fFma_infProduct hprod ha, fun b hb => fFma_addInf ha hb (hinf n), fun h0 => ?_,
      roots_of_negative ha⟩
    · rw [fAdd, hinf, hv]; rfl
    · rw [fAdd, hinf, hv]; rfl
    · rw [fSub, hinf, hv]; rfl
    · rw [fSub, hinf, hv]; rfl
    · have hl : InfProduct (fVal t (inf n)) (fVal t a) (n != s) := by rw [hinf, hv]; exact .left n s e (hne h0)
      have hrt : InfProduct (fVal t a) (fVal t (inf n)) (n != s) := by rw [hinf, hv]; exact .right n s e (hne h0)
      refine ⟨fMul_infProduct hl, fMul_infProduct hrt, ?_, ?_, fun b hb => ⟨fFma_infProduct hl hb, fFma_infProduct hrt hb⟩⟩
      · rw [fFma_infs hl (hinf _), if_pos rfl]
      · rw [fFma_infs hrt (hinf _), if_neg (by cases n <;> cases s <;> decide)]
  · rw [fAdd, hzero, addVals_zeros, if_pos rfl]
  · rw [fAdd, hzero, hzero, addVals_zeros, if_neg (by cases n <;> decide)]
  · rw [fRcp, hinf]; rfl
  · rw [fRcp, hzero]; rfl
  · rw [fRsqrt, hinf]; rfl
  · rw [fRsqrt, hinf]; rfl
  · rw [fRsqrt, hzero]; rfl
  · rw [fSqrt, hinf]; rfl
  · rw [fSqrt, hinf]; rfl
  · rw [fSqrt, hzero]; rfl
  · rw [fExp2, hinf]; rfl
  · rw [fExp2, hinf]; rfl
  · rw [fExp2, hzero]
    exact roundFlt_one
  · rw [fLog2, hinf]; rfl
  · rw [fLog2, hinf]; rfl
  · rw [fLog2, hzero]; rfl

/-- Settles O21, by the table of the infinities and zeros, and by that of the NaNs. -/
theorem floatSpecialValues : Obligations.FloatSpecialValues := ⟨floatSpecialOperands, floatNanOperands⟩

end Sys2Proof.Machine
end

section
/-! SUPPORT. One rounding of a magnitude that is known to lie strictly between two neighbouring whole numbers of units (R42, R47
to R50). -/

namespace Sys2Proof.Machine

open Sys2Proof Sys2Proof.Claims

/-! ### The cut of an inexact magnitude -/

/-- The cut of an inexact magnitude is a quotient by a power of two, of a number and a positive rest that no mode reads. -/
theorem cut_quotient_sticky (q : Nat) (x lsb : ℤ) {δ : ℚ} (h0 : 0 < δ) (h1 : δ < 1) (hs : δ * 2 ^ (32 + (x - lsb)) < 1) :
    ∃ (num width : Nat) (ε : ℚ), Mag.cut { q := q, x := x, sticky := true } lsb =
        { kept := num / 2 ^ width, rem := num % 2 ^ width, width := width, sticky := true } ∧
      0 < ε ∧ ε < 1 ∧ 2 ^ 32 * ε < (2 ^ width : Nat) ∧ (num + ε) / (2 ^ width : Nat) = (q + δ) * 2 ^ x / 2 ^ lsb := by
  rw [zpow_add₀ two_ne_zero] at hs
  unfold Mag.cut
  split
  next h =>
    have h : x < lsb := h
    have hw : ((2 ^ (lsb - x).toNat : Nat) : ℚ) = 2 ^ (lsb - x) := by
      rw [Nat.cast_pow, Nat.cast_two, ← zpow_natCast, Int.toNat_of_nonneg (by omega)]
    refine ⟨q, (lsb - x).toNat, δ, rfl, h0, h1, ?_, ?_⟩
    · rw [hw, ← neg_sub x lsb, zpow_neg, ← one_div, lt_div_iff₀ (by positivity)]
      linarith
    · rw [hw, zpow_sub₀ two_ne_zero]
      field_simp
  next h =>
    have h : ¬ x < lsb := h
    have hw : ((2 ^ (x - lsb).toNat : Nat) : ℚ) = 2 ^ (x - lsb) := by
      rw [Nat.cast_pow, Nat.cast_two, ← zpow_natCast, Int.toNat_of_nonneg (by omega)]
    have hp : (0 : ℚ) < 2 ^ (x - lsb) := by positivity
    refine ⟨q * 2 ^ (x - lsb).toNat, 0, δ * 2 ^ (x - lsb), by simp [Nat.mod_one], by positivity, ?_, ?_, ?_⟩
    · have : 0 < δ * 2 ^ (x - lsb) := by positivity
      norm_num at hs
      linarith
    · norm_num at hs ⊢
      linarith
    · rw [Nat.cast_mul, hw, ← add_mul, pow_zero, Nat.cast_one, div_one, zpow_sub₀ two_ne_zero, mul_div_assoc]

section
variable {num width : Nat} {ε : ℚ} (h0 : 0 < ε) (h1 : ε < 1) (hs : 2 ^ 32 * ε < (2 ^ width : Nat))
include h0 h1

theorem fraction_sticky : 0 < ((num % 2 ^ width : Nat) + ε) / (2 ^ width : Nat) ∧
    ((num % 2 ^ width : Nat) + ε) / (2 ^ width : Nat) < 1 := by
  have hw : (0 : ℚ) < (2 ^ width : Nat) := by positivity
  have hm : ((num % 2 ^ width : Nat) : ℚ) + 1 ≤ (2 ^ width : Nat) := by
    exact_mod_cast Nat.succ_le_of_lt (Nat.mod_lt num (by positivity))
  exact ⟨by positivity, (div_lt_one hw).2 (by linarith)⟩

omit h0 h1 in
theorem quotient_sticky : ((num : ℚ) + ε) / (2 ^ width : Nat) =
    (num / 2 ^ width : Nat) + ((num % 2 ^ width : Nat) + ε) / (2 ^ width : Nat) := by
  have h := quotient_split (num := num) (den := 2 ^ width) (by positivity)
  rw [add_div, h, add_assoc, ← add_div]

include hs

/-- Half of the unit is never met, and is passed where the number alone meets it. -/
theorem half_sticky : (1 / 2 < ((num % 2 ^ width : Nat) + ε) / (2 ^ width : Nat) ↔
      2 ^ width < 2 * (num % 2 ^ width) ∨ (0 < width ∧ 2 * (num % 2 ^ width) = 2 ^ width)) ∧
    ((num % 2 ^ width : Nat) + ε) / (2 ^ width : Nat) ≠ 1 / 2 := by
  have hw : (0 : ℚ) < (2 ^ width : Nat) := by positivity
  rw [lt_div_iff₀ hw, ne_eq, div_eq_iff hw.ne']
  cases width with
  | zero =>
    simp only [pow_zero, Nat.mod_one, Nat.cast_one] at hs ⊢
    constructor
    · simp only [lt_self_iff_false, false_and, or_false]
      constructor
      · intro h
        norm_num at h hs
        linarith
      · omega
    · intro h
      norm_num at h hs
      linarith
  | succ n =>
    generalize num % 2 ^ (n + 1) = r
    have hhalf : (1 / 2 : ℚ) * (2 ^ (n + 1) : Nat) = (2 ^ n : Nat) := by push_cast; ring
    rw [hhalf, pow_succ]
    generalize 2 ^ n = d
    constructor
    · constructor
      · intro h
        have : (d : ℚ) < (r + 1 : Nat) := by push_cast; linarith
        have := Nat.cast_lt.1 this
        omega
      · intro h
        have : (d : ℚ) ≤ r := by exact_mod_cast (by omega : d ≤ r)
        linarith
    · intro h
      have hl : (r : ℚ) < d := by linarith
      have hu : (d : ℚ) < (r + 1 : Nat) := by push_cast; linarith
      have := Nat.cast_lt.1 hl
      have := Nat.cast_lt.1 hu
      omega

/-- The fraction of R48 is that of the number alone. -/
theorem floor_sticky : ⌊(2 : ℚ) ^ 32 * (((num % 2 ^ width : Nat) + ε) / (2 ^ width : Nat))⌋₊ =
    2 ^ 32 * (num % 2 ^ width) / 2 ^ width := by
  generalize num % 2 ^ width = r
  rcases le_total 32 width with hw | hw
  · obtain ⟨d, rfl⟩ := Nat.exists_eq_add_of_le hw
    have hfloor : ⌊(r : ℚ) + ε⌋₊ = r := floor_add_fraction h0.le h1
    rw [show (2 : ℚ) ^ 32 * ((r + ε) / (2 ^ (32 + d) : Nat)) = (r + ε) / (2 ^ d : Nat) by push_cast; field_simp; ring,
      Nat.floor_div_natCast, hfloor, pow_add, Nat.mul_div_mul_left _ _ (by positivity)]
  · obtain ⟨d, hd⟩ := Nat.exists_eq_add_of_le hw
    rw [hd, pow_add] at hs ⊢
    have hp : (0 : ℚ) < (2 ^ width : Nat) := by positivity
    have hsplit : (2 : ℚ) ^ width * 2 ^ d * ((r + ε) / (2 ^ width : Nat)) = (2 ^ d * r : Nat) + 2 ^ d * ε := by
      push_cast
      field_simp
    rw [hsplit, floor_add_fraction (by positivity), pow_add, mul_assoc, Nat.mul_div_cancel_left _ (by positivity)]
    push_cast at hs hp
    rw [mul_assoc] at hs
    exact (mul_lt_iff_lt_one_right hp).1 hs

/-- The rounding of the cut of an inexact magnitude takes the upper neighbour where the whole magnitude does. -/
theorem cut_up_sticky (r : Rnd) (neg : Bool) (u : Nat) :
    Cut.up { kept := num / 2 ^ width, rem := num % 2 ^ width, width := width, sticky := true } r neg u = true ↔
      RoundsUp r neg u (num / 2 ^ width) (((num % 2 ^ width : Nat) + ε) / (2 ^ width : Nat)) := by
  obtain ⟨hhalf, htie⟩ := half_sticky (num := num) h0 h1 hs
  have hne := (fraction_sticky (num := num) (width := width) h0 h1).1.ne'
  have hfloor := floor_sticky (num := num) h0 h1 hs
  generalize ((num % 2 ^ width : Nat) + ε) / (2 ^ width : Nat) = f at *
  cases r with
  | rne => simp only [Cut.up, RoundsUp, hhalf, htie, Bool.true_or, Bool.and_true, Bool.or_eq_true, Bool.and_eq_true,
      decide_eq_true_eq, false_and, or_false]
  | rz => simp [Cut.up, RoundsUp]
  | ru => simp [Cut.up, RoundsUp, Cut.inexact, hne]
  | rd => simp [Cut.up, RoundsUp, Cut.inexact, hne]
  | sr => simp only [Cut.up, RoundsUp, Cut.inexact, frac_eq, hfloor, Bool.or_true, Bool.true_and,
      decide_eq_true_eq]

end

/-- A cut of an inexact magnitude at a unit rounds to the whole number of units that R47 and R48 name. -/
theorem cut_nearest_sticky {r : Rnd} {neg : Bool} {u q k : Nat} {x lsb : ℤ} {δ w : ℚ} (h0 : 0 < δ) (h1 : δ < 1)
    (hs : δ * 2 ^ (32 + (x - lsb)) < 1) (hw : w = (q + δ) * 2 ^ x / 2 ^ lsb) (h : Nearest r neg u w k) :
    (Mag.cut { q := q, x := x, sticky := true } lsb).round r neg u = k ∧
      (Mag.cut { q := q, x := x, sticky := true } lsb).inexact = decide ((k : ℚ) ≠ w) := by
  obtain ⟨num, width, ε, hc, hε0, hε1, hεs, hq⟩ := cut_quotient_sticky q x lsb h0 h1 hs
  obtain ⟨hf0, hf1⟩ := fraction_sticky (num := num) (width := width) hε0 hε1
  rw [hw, ← hq, quotient_sticky] at h ⊢
  obtain ⟨hup, hdown⟩ := nearest_eq hf0.le hf1 h
  have hiff := cut_up_sticky (num := num) hε0 hε1 hεs r neg u
  rw [hc]
  constructor
  · rw [Cut.round]
    split
    next hu => exact (hup (hiff.1 hu)).symm
    next hu => exact (hdown (hiff.not.1 hu)).symm
  · rw [Cut.inexact, Bool.or_true]
    generalize ((num % 2 ^ width : Nat) + ε) / (2 ^ width : Nat) = f at *
    have hne : (k : ℚ) ≠ (num / 2 ^ width : Nat) + f := by
      rcases nearest_mem hf0.le hf1 h with rfl | rfl
      · linarith
      · rw [Nat.cast_add_one]
        linarith
    exact (decide_eq_true hne).symm

end Sys2Proof.Machine
end

section
/-! SUPPORT. One rounding to a format of a magnitude that is known up to a rest, of one far above the format's range, and of one far
below it (R42, R47 to R50). -/

namespace Sys2Proof.Machine

open Sys2Proof Sys2Proof.Claims

/-- The exponent of a magnitude's leading bit is its only one. -/
theorem exponent_unique {w : ℚ} {e e' : ℤ} (hlo : 2 ^ e ≤ w) (hhi : w < 2 ^ (e + 1)) (hlo' : 2 ^ e' ≤ w)
    (hhi' : w < 2 ^ (e' + 1)) : e = e' := by
  have h1 := (zpow_lt_zpow_iff_right₀ (one_lt_two (α := ℚ))).1 (hlo.trans_lt hhi')
  have h2 := (zpow_lt_zpow_iff_right₀ (one_lt_two (α := ℚ))).1 (hlo'.trans_lt hhi)
  omega

/-- What rounding answers for any magnitude, by its exponent and its whole numbers of units. -/
theorem roundFlt_eq_of_cuts {t : FltTy} {r : Rnd} {sat : Bool} {u : Nat} {neg : Bool} {m : Mag} {k j : Nat} {e0 : ℤ}
    {inx : Bool} (he : (bitLen m.q : ℤ) - 1 + m.x = e0)
    (hk : (m.cut (max e0 (FltTy.emin t) - FltTy.frac t)).round r neg u = k)
    (hi : (m.cut (max e0 (FltTy.emin t) - FltTy.frac t)).inexact = inx)
    (hj : (m.cut (e0 - FltTy.frac t)).round r neg u = j) :
    roundFlt t r sat u neg m =
      let p := (max e0 (FltTy.emin t) - FltTy.emin t).toNat * 2 ^ FltTy.frac t + k
      let tiny := decide (e0 < FltTy.emin t) &&
        !(decide (e0 = FltTy.emin t - 1) && decide (2 ^ (FltTy.frac t + 1) ≤ j))
      if FltTy.expMax t * 2 ^ FltTy.frac t ≤ p then { val := overflowed t r sat neg, fl := fOvf ||| fInx }
      else { val := fZero t neg + p, fl := flagIf inx fInx ||| flagIf (inx && tiny) fUnf } := by
  have hb : max e0 (FltTy.emin t) - FltTy.frac t + FltTy.frac t + FltTy.bias t - 1 =
      max e0 (FltTy.emin t) - FltTy.emin t := by unfold FltTy.emin; ring
  unfold roundFlt
  simp only [he, max_sub_sub_right]
  rw [show 1 - (FltTy.bias t : ℤ) = FltTy.emin t from rfl, hk, hi, hj, hb]

/-- A magnitude whose cuts round to the whole numbers that R47 and R48 name is rounded once to its format. -/
theorem roundFlt_rounds_of_cuts {t : FltTy} {r : Rnd} {sat : Bool} {u : Nat} {v : ℚ} {m : Mag}
    (hexp : ∀ e0 : ℤ, 2 ^ e0 ≤ |v| → |v| < 2 ^ (e0 + 1) → (bitLen m.q : ℤ) - 1 + m.x = e0)
    (hcut : ∀ (lsb : ℤ) (k : Nat), (bitLen m.q : ℤ) - 1 + m.x - FltTy.frac t ≤ lsb →
      Nearest r (decide (v < 0)) u (|v| / 2 ^ lsb) k →
      (m.cut lsb).round r (decide (v < 0)) u = k ∧ (m.cut lsb).inexact = decide ((k : ℚ) ≠ |v| / 2 ^ lsb)) :
    RoundsTo t r sat u v (roundFlt t r sat u (decide (v < 0)) m) := by
  intro e0 k j hlo hhi emin unit neg got free largest hk hj
  have he := hexp e0 hlo hhi
  rw [he] at hcut
  have hunit : e0 - (FltTy.frac t : ℤ) ≤ unit := sub_le_sub_right (le_max_left _ _) _
  obtain ⟨hkeep, hinx⟩ := hcut _ _ hunit hk
  obtain ⟨hfree, -⟩ := hcut _ _ le_rfl hj
  rw [roundFlt_eq_of_cuts (sat := sat) he hkeep hinx hfree]
  obtain ⟨hk2, hk1⟩ := rounded_units hlo hhi hk
  set e : Nat := (max e0 (FltTy.emin t) - FltTy.emin t).toNat
  -- The units of the pattern are those of the format.
  have hgot : (k : ℚ) * 2 ^ ((e : ℤ) + 1 - FltTy.bias t - FltTy.frac t) = got := by
    have he : (e : ℤ) = max e0 (FltTy.emin t) - FltTy.emin t := Int.toNat_of_nonneg (sub_nonneg.2 (le_max_right _ _))
    rw [show (e : ℤ) + 1 - FltTy.bias t - FltTy.frac t = unit by rw [he]; simp only [FltTy.emin, unit, emin]; ring]
  have hover := pattern_overflows_iff t hk2 hk1
  rw [hgot] at hover
  refine ⟨fun h => ?_, fun h => ?_⟩
  · simp only [if_pos (hover.2 h), overflowed_eq]
    trivial
  · have hp := hover.not.2 (not_lt.2 h)
    have hlt : e * 2 ^ FltTy.frac t + k < 2 ^ (FltTy.exp t + FltTy.frac t) := by
      rw [pow_add]
      exact (not_le.1 hp).trans (Nat.mul_lt_mul_of_pos_right (expMax_lt t) (by positivity))
    have hne : decide ((k : ℚ) ≠ |v| / 2 ^ unit) = decide (got ≠ |v|) :=
      decide_eq_decide.2 (not_congr (eq_div_iff (by positivity)))
    simp only [if_neg hp, hne]
    refine ⟨?_, signBit_signed t neg hlt, ?_, width_signed t neg hlt, ?_⟩
    · rw [finite, expField_signed t neg hlt]
      exact (Nat.div_lt_iff_lt_mul (by positivity)).2 (not_le.1 hp)
    · rw [abs_ratOf_signed t neg hlt, magOf_pattern t hk2 hk1, hgot]
    · congr 2
      rw [Bool.eq_iff_iff, Bool.and_eq_true, tiny_iff hlo hhi hj, decide_eq_true_eq, decide_eq_true_eq]
      exact Iff.rfl

/-- An inexact magnitude is rounded as each value is that lies near enough above its known part. -/
theorem roundFlt_sticky {t : FltTy} {r : Rnd} {sat : Bool} {u q : Nat} {x : ℤ} {v δ : ℚ} (hq : q ≠ 0) (h0 : 0 < δ) (h1 : δ < 1)
    (hs : δ * 2 ^ ((33 : ℤ) + FltTy.frac t - bitLen q) < 1) (hv : |v| = (q + δ) * 2 ^ x) :
    RoundsTo t r sat u v (roundFlt t r sat u (decide (v < 0)) { q := q, x := x, sticky := true }) := by
  refine roundFlt_rounds_of_cuts (fun e0 hlo hhi => ?_) fun lsb k hlsb hk => ?_
  · have hx : (0 : ℚ) < 2 ^ x := by positivity
    have hpos : 1 ≤ bitLen q := by simp [bitLen, hq]
    have hb : (q : ℚ) + δ < 2 ^ (bitLen q : ℤ) := by
      have : ((q + 1 : Nat) : ℚ) ≤ (2 ^ bitLen q : Nat) := Nat.cast_le.2 (lt_two_pow_bitLen q)
      push_cast at this
      rw [zpow_natCast]
      linarith
    have ha : (2 : ℚ) ^ ((bitLen q : ℤ) - 1) ≤ q + δ := by
      have : ((2 ^ (bitLen q - 1) : Nat) : ℚ) ≤ q := Nat.cast_le.2 (two_pow_le_bitLen hq)
      rw [show (bitLen q : ℤ) - 1 = ((bitLen q - 1 : Nat) : ℤ) by omega, zpow_natCast]
      push_cast at this
      linarith
    refine exponent_unique (w := |v|) ?_ ?_ hlo hhi
    · rw [hv, zpow_add₀ two_ne_zero]
      exact mul_le_mul_of_nonneg_right ha hx.le
    · rw [hv, show (bitLen q : ℤ) - 1 + x + 1 = bitLen q + x by ring, zpow_add₀ two_ne_zero]
      exact mul_lt_mul_of_pos_right hb hx
  · refine cut_nearest_sticky h0 h1 (lt_of_le_of_lt ?_ hs) (by rw [hv]) hk
    exact mul_le_mul_of_nonneg_left (zpow_le_zpow_right₀ one_le_two (by simp only at hlsb; omega)) h0.le

/-- An inexact magnitude with enough known bits is rounded as each value is that lies strictly above its known part and below
the next. -/
theorem roundFlt_guarded {t : FltTy} {r : Rnd} {sat : Bool} {u q : Nat} {x : ℤ} {v : ℚ} {sticky : Bool}
    (hq : 2 ^ guardBits ≤ q) (hexact : sticky = false → |v| = q * 2 ^ x)
    (hopen : sticky = true → q * 2 ^ x < |v| ∧ |v| < (q + 1) * 2 ^ x) :
    RoundsTo t r sat u v (roundFlt t r sat u (decide (v < 0)) { q := q, x := x, sticky := sticky }) := by
  have hx : (0 : ℚ) < 2 ^ x := by positivity
  have hq0 : q ≠ 0 := (lt_of_lt_of_le (by positivity) hq).ne'
  cases sticky with
  | false =>
    refine roundFlt_rounds (hexact rfl) fun hv => ?_
    have h := hexact rfl
    rw [hv, abs_zero] at h
    exact (by positivity : (0 : ℚ) < q * 2 ^ x).ne h
  | true =>
    obtain ⟨hlo, hhi⟩ := hopen rfl
    refine roundFlt_sticky (δ := |v| / 2 ^ x - q) hq0 (sub_pos.2 ((lt_div_iff₀ hx).2 hlo)) ?_ ?_ ?_
    · rw [sub_lt_iff_lt_add, add_comm, div_lt_iff₀ hx]
      exact hhi
    · have hbits : guardBits < bitLen q := (Nat.pow_lt_pow_iff_right one_lt_two).1 (hq.trans_lt (lt_two_pow_bitLen q))
      have hfrac : FltTy.frac t ≤ 52 := by cases t <;> decide
      have hle : (2 : ℚ) ^ ((33 : ℤ) + FltTy.frac t - bitLen q) ≤ 2 ^ (0 : ℤ) :=
        zpow_le_zpow_right₀ one_le_two (by unfold guardBits at hbits; omega)
      have hδ : |v| / 2 ^ x - q < 1 := by
        rw [sub_lt_iff_lt_add, add_comm, div_lt_iff₀ hx]
        exact hhi
      rw [zpow_zero] at hle
      have hδ0 : 0 ≤ |v| / 2 ^ x - q := (sub_pos.2 ((lt_div_iff₀ hx).2 hlo)).le
      exact (mul_le_of_le_one_right hδ0 hle).trans_lt hδ
    · rw [add_sub_cancel, div_mul_cancel₀ _ hx.ne']

/-- Every inexact magnitude is rounded as some values above its known part are. -/
theorem exists_roundFlt_sticky {t : FltTy} {r : Rnd} {sat : Bool} {u q : Nat} (x : ℤ) (hq : q ≠ 0) : ∃ δ : ℚ, 0 < δ ∧ δ < 1 ∧
    ∀ v, |v| = (q + δ) * 2 ^ x →
      RoundsTo t r sat u v (roundFlt t r sat u (decide (v < 0)) { q := q, x := x, sticky := true }) := by
  refine ⟨2 ^ (-(33 : ℤ) - FltTy.frac t), by positivity, ?_, fun v hv => roundFlt_sticky hq (by positivity) ?_ ?_ hv⟩
  · exact zpow_lt_one_of_neg₀ one_lt_two (by omega)
  · exact zpow_lt_one_of_neg₀ one_lt_two (by omega)
  · have hpos : 1 ≤ bitLen q := by simp [bitLen, hq]
    rw [← zpow_add₀ two_ne_zero]
    exact zpow_lt_one_of_neg₀ one_lt_two (by omega)

/-! ### Magnitudes beyond the exponent range -/

section
variable (t : FltTy) (r : Rnd) (sat : Bool) (u : Nat)

/-- A magnitude whose exponent lies above every one of the format overflows. -/
theorem roundFlt_huge (neg : Bool) {m : Mag} (h : (FltTy.bias t : ℤ) + 3 ≤ bitLen m.q + m.x) :
    roundFlt t r sat u neg m = { val := overflowed t r sat neg, fl := fOvf ||| fInx } := by
  rw [roundFlt_eq_of_cuts (t := t) rfl rfl rfl rfl]
  refine if_pos ?_
  have hb := bias_pos t
  have he : FltTy.expMax t ≤ (max ((bitLen m.q : ℤ) - 1 + m.x) (FltTy.emin t) - FltTy.emin t).toNat := by
    rw [expMax_eq, FltTy.emin]
    omega
  exact (Nat.mul_le_mul_right _ he).trans (Nat.le_add_right _ _)

/-- A positive magnitude far below the least one of the format is tiny, and rounds away from zero under RU alone. -/
theorem roundFlt_tiny {m : Mag} (hq : m.q ≠ 0) (h : (bitLen m.q : ℤ) + m.x ≤ FltTy.emin t - FltTy.frac t - 33) :
    roundFlt t r sat u false m = { val := if r = .ru then 1 else 0, fl := fInx ||| fUnf } := by
  obtain ⟨q, x, sticky⟩ := m
  simp only at hq h
  set e0 : ℤ := (bitLen q : ℤ) - 1 + x with he0
  have hmax : max e0 (FltTy.emin t) = FltTy.emin t := max_eq_right (by omega)
  -- The whole magnitude is cut off, and it is less than one part in 2^33 of a unit.
  obtain ⟨w, hcut, hsmall⟩ : ∃ w, Mag.cut { q := q, x := x, sticky := sticky } (FltTy.emin t - FltTy.frac t) =
      { kept := 0, rem := q, width := w, sticky := sticky } ∧ 2 ^ 33 * q < 2 ^ w := by
    have hx : x < FltTy.emin t - FltTy.frac t := by omega
    obtain ⟨d, hd⟩ : ∃ d : Nat, (FltTy.emin t - FltTy.frac t - x).toNat = 33 + bitLen q + d :=
      Nat.exists_eq_add_of_le (by omega)
    have hlt : 2 ^ 33 * q < 2 ^ (33 + bitLen q + d) := by
      rw [add_assoc, pow_add]
      refine Nat.mul_lt_mul_of_pos_left ((lt_two_pow_bitLen q).trans_le ?_) (by positivity)
      exact Nat.pow_le_pow_right two_pos (Nat.le_add_right _ _)
    have hq' : q < 2 ^ (33 + bitLen q + d) := by omega
    refine ⟨33 + bitLen q + d, ?_, hlt⟩
    rw [Mag.cut, if_pos hx]
    simp only [hd, Nat.div_eq_of_lt hq', Nat.mod_eq_of_lt hq']
  have hinx : Cut.inexact { kept := 0, rem := q, width := w, sticky := sticky } = true := by simp [Cut.inexact, hq]
  have hround : Cut.round { kept := 0, rem := q, width := w, sticky := sticky } r false u = if r = .ru then 1 else 0 := by
    have hfrac : Cut.frac { kept := 0, rem := q, width := w, sticky := sticky } = 0 :=
      (frac_eq 0 q w sticky).trans (Nat.div_eq_of_lt (by omega))
    have h1 : ¬ 2 ^ w < 2 * q := by omega
    have h2 : 2 * q ≠ 2 ^ w := by omega
    cases r <;> simp [Cut.round, Cut.up, hinx, hfrac, h1, h2]
  rw [roundFlt_eq_of_cuts (t := t) (e0 := e0) (k := if r = .ru then 1 else 0) (inx := true) rfl
    (by rw [hmax, hcut, hround]) (by rw [hmax, hcut, hinx]) rfl]
  have htiny : decide (e0 < FltTy.emin t) = true := decide_eq_true (by omega)
  have hnext : decide (e0 = FltTy.emin t - 1) = false := decide_eq_false (by omega)
  have hfit : ¬ FltTy.expMax t * 2 ^ FltTy.frac t ≤ if r = .ru then 1 else 0 := by
    have : 2 ≤ FltTy.expMax t * 2 ^ FltTy.frac t := by cases t <;> decide
    split <;> omega
  simp only [hmax, sub_self, Int.toNat_zero, zero_mul, zero_add, if_neg hfit, htiny, hnext, fZero_false]
  rfl

end

end Sys2Proof.Machine
end

section
/-! SUPPORT. Sums, products, reciprocals and square roots of finite operands, each rounded once (R133, R136). -/

namespace Sys2Proof.Machine

open Sys2Proof Sys2Proof.Claims

/-! ### Sums and products (R133) -/

section
variable {t : FltTy} {r : Rnd} {sat : Bool} {u : Nat}

theorem ratOf_eq_zero_iff {a m : Nat} {e : ℤ} (hv : fVal t a = .fin (signBit t a) m e) (hr : (fVal t a).rat = ratOf t a) :
    ratOf t a = 0 ↔ m = 0 := by rw [← hr, hv, rat_eq_zero]

/-- A rounded result of R133: an exact value is rounded once, and an exact zero has the sign given. -/
def RoundsOnce (t : FltTy) (r : Rnd) (sat : Bool) (u : Nat) (v : ℚ) (zero : Bool) (x : Res Nat) : Prop :=
  (v ≠ 0 → RoundsTo t r sat u v x) ∧ (v = 0 → x = { val := fZero t zero, fl := fNone })

/-- The sum of two finite values: an exact zero keeps the sign of two like zeros, and is else minus only under RD. -/
theorem addVals_roundsOnce {na nb : Bool} {ma mb : Nat} {ea eb : ℤ} {x y v : ℚ} (hx : (FVal.fin na ma ea).rat = x)
    (hy : (FVal.fin nb mb eb).rat = y) (hv : x + y = v) :
    RoundsOnce t r sat u v (if x = 0 ∧ na = nb then na else decide (r = .rd))
      (addVals t r sat u (.fin na ma ea) (.fin nb mb eb)) := by
  obtain ⟨hround, hzero⟩ := addVals_fin (t := t) (r := r) (sat := sat) (u := u) ((congrArg₂ (· + ·) hx hy).trans hv)
  refine ⟨hround, fun h0 => (hzero h0).trans ?_⟩
  have hiff : (ma = 0 ∧ mb = 0 ∧ na = nb) ↔ (x = 0 ∧ na = nb) := by
    rw [← hx, ← rat_eq_zero (n := na) (e := ea), ← rat_eq_zero (n := nb) (e := eb), hx, hy]
    constructor
    · exact fun ⟨h1, _, h2⟩ => ⟨h1, h2⟩
    · exact fun ⟨h1, h2⟩ => ⟨h1, by linarith, h2⟩
  simp only [hiff]

section
variable {a b d : Nat} (ha : finite t a) (hb : finite t b)
include ha hb

theorem fAdd_roundsOnce : RoundsOnce t r sat u (ratOf t a + ratOf t b)
    (if ratOf t a = 0 ∧ signBit t a = signBit t b then signBit t a else decide (r = .rd)) (fAdd t r sat u a b) := by
  obtain ⟨ma, ea, hva, hra⟩ := fVal_of_finite ha
  obtain ⟨mb, eb, hvb, hrb⟩ := fVal_of_finite hb
  rw [fAdd, hva, hvb]
  exact addVals_roundsOnce (hva ▸ hra) (hvb ▸ hrb) rfl

theorem fSub_roundsOnce : RoundsOnce t r sat u (ratOf t a - ratOf t b)
    (if ratOf t a = 0 ∧ signBit t a ≠ signBit t b then signBit t a else decide (r = .rd)) (fSub t r sat u a b) := by
  obtain ⟨ma, ea, hva, hra⟩ := fVal_of_finite ha
  obtain ⟨mb, eb, hvb, hrb⟩ := fVal_of_finite hb
  have hneg : (FVal.fin (!signBit t b) mb eb).rat = -ratOf t b := by
    rw [← hrb, hvb, FVal.rat, FVal.rat, cast_signedOf, cast_signedOf]
    cases signBit t b <;> simp
  have hsign : signBit t a ≠ signBit t b ↔ signBit t a = !signBit t b := by
    cases signBit t a <;> cases signBit t b <;> decide
  rw [fSub, hva, hvb]
  simp only [hsign]
  exact addVals_roundsOnce (hva ▸ hra) hneg (sub_eq_add_neg _ _).symm

theorem fMul_roundsOnce : RoundsOnce t r sat u (ratOf t a * ratOf t b) (signBit t a != signBit t b) (fMul t r sat u a b) := by
  obtain ⟨ma, ea, hva, hra⟩ := fVal_of_finite ha
  obtain ⟨mb, eb, hvb, hrb⟩ := fVal_of_finite hb
  have hprod := rat_mul (signBit t a) (signBit t b) ma mb ea eb
  rw [← hva, ← hvb, hra, hrb] at hprod
  rw [fMul, hva, hvb]
  exact ⟨fun h0 => roundExact_rounds t r sat u _ hprod h0,
    fun h0 => roundExact_zero t r sat u _ _ (signedOf_eq_zero.2 (rat_eq_zero.1 (hprod.trans h0)))⟩

/-- A fused product and sum is the sum of the exact product and the third operand, in the order that puts it first. -/
theorem fFma_roundsOnce (hd : finite t d) : RoundsOnce t r sat u (ratOf t a * ratOf t b + ratOf t d)
    (if ratOf t d = 0 ∧ (signBit t a != signBit t b) = signBit t d then (signBit t a != signBit t b) else decide (r = .rd))
    (fFma t r sat u a b d) := by
  obtain ⟨ma, ea, hva, hra⟩ := fVal_of_finite ha
  obtain ⟨mb, eb, hvb, hrb⟩ := fVal_of_finite hb
  obtain ⟨md, ed, hvd, hrd⟩ := fVal_of_finite hd
  have hprod := rat_mul (signBit t a) (signBit t b) ma mb ea eb
  rw [← hva, ← hvb, hra, hrb] at hprod
  have heq : fFma t r sat u a b d =
      addVals t r sat u (.fin (signBit t a != signBit t b) (ma * mb) (ea + eb)) (.fin (signBit t d) md ed) := by
    have hsign : (if ma * mb = 0 ∧ md = 0 ∧ (signBit t a != signBit t b) = signBit t d then signBit t d
        else decide (r = .rd)) = if ma * mb = 0 ∧ md = 0 ∧ (signBit t a != signBit t b) = signBit t d then
        (signBit t a != signBit t b) else decide (r = .rd) :=
      if_ctx_congr Iff.rfl (fun h => h.2.2.symm) fun _ => rfl
    simp only [fFma, hva, hvb, hvd, addVals, ← hsign]
    rfl
  rw [heq]
  obtain ⟨hround, hzero⟩ := addVals_roundsOnce (t := t) (r := r) (sat := sat) (u := u) hprod (hvd ▸ hrd) rfl
  refine ⟨hround, fun h0 => (hzero h0).trans ?_⟩
  have hiff : ratOf t a * ratOf t b = 0 ↔ ratOf t d = 0 := by
    constructor <;> intro h <;> linarith
  simp only [hiff]

end

/-! ### Reciprocals (R136) -/

theorem fRcp_rounds {a : Nat} (ha : finite t a) (h0 : ratOf t a ≠ 0) :
    RoundsTo t r sat u (1 / ratOf t a) (fRcp t r sat u a) := by
  obtain ⟨m, e, hv, hr⟩ := fVal_of_finite ha
  have hm : m ≠ 0 := (ratOf_eq_zero_iff hv hr).not.1 h0
  rw [hv] at hr
  have hneg : decide (1 / ratOf t a < 0) = signBit t a := by
    have : 1 / ratOf t a < 0 ↔ signBit t a = true ∧ m ≠ 0 := by rw [one_div, inv_lt_zero, ← hr, rat_neg_iff]
    rw [Bool.eq_iff_iff, decide_eq_true_eq, this]
    exact and_iff_left hm
  obtain ⟨k, hk⟩ : ∃ k, k = bitLen m + guardBits := ⟨_, rfl⟩
  have hq : 2 ^ guardBits ≤ 2 ^ k / m := by
    rw [Nat.le_div_iff_mul_le (Nat.pos_of_ne_zero hm), hk, add_comm, pow_add]
    exact Nat.mul_le_mul_left _ (lt_two_pow_bitLen m).le
  have hm' : (0 : ℚ) < m := by exact_mod_cast Nat.pos_of_ne_zero hm
  -- The reciprocal in units of `2 ^ (-e - k)` is the quotient of `2 ^ k` and `m`.
  have hunits : |1 / ratOf t a| = ((2 ^ k : Nat) / m : ℚ) * 2 ^ (-e - k : ℤ) := by
    rw [abs_div, abs_one, ← hr, abs_rat, zpow_sub₀ two_ne_zero, zpow_neg, zpow_natCast]
    push_cast
    field_simp
  have hsplit := quotient_split (num := 2 ^ k) (Nat.pos_of_ne_zero hm)
  have hrest := remainder_lt_one (num := 2 ^ k) (Nat.pos_of_ne_zero hm)
  have hp : (0 : ℚ) < 2 ^ (-e - k : ℤ) := by positivity
  have heq : fRcp t r sat u a = roundFlt t r sat u (signBit t a)
      { q := 2 ^ k / m, x := -e - k, sticky := 2 ^ k % m != 0 } := by
    simp only [fRcp, hv, if_neg hm, ← hk]
  rw [heq, ← hneg]
  generalize 2 ^ k / m = q at *
  generalize 2 ^ k % m = rest at *
  refine roundFlt_guarded hq (fun hs => ?_) fun hs => ?_
  · rw [hunits, hsplit, bne_eq_false_iff_eq.1 hs, Nat.cast_zero, zero_div, add_zero]
  · rw [hunits, hsplit, mul_lt_mul_iff_left₀ hp, mul_lt_mul_iff_left₀ hp]
    have hpos : (0 : ℚ) < rest / m := by
      have := Nat.pos_of_ne_zero (bne_iff_ne.1 hs)
      positivity
    constructor <;> linarith

end

end Sys2Proof.Machine
end

section
/-! SUPPORT. The integer square root, and the square roots of finite operands, each rounded once (R136). -/

namespace Sys2Proof.Machine

open Sys2Proof Sys2Proof.Claims

/-! ### Newton's iteration -/

/-- From a value not below the root, and less than a power of two above it, that power's exponent bounds the steps. -/
theorem isqrtStep_eq_sqrt (n : Nat) (fuel x : Nat) (hx : n.sqrt ≤ x) (hfuel : x < n.sqrt + 2 ^ fuel) :
    isqrtStep n fuel x = n.sqrt := by
  induction fuel generalizing x with
  | zero =>
    rw [pow_zero] at hfuel
    exact (by omega : x = n.sqrt)
  | succ fuel ih =>
    have hlt : n < (n.sqrt + 1) * (n.sqrt + 1) := Nat.lt_succ_sqrt n
    have hle : n.sqrt * n.sqrt ≤ n := Nat.sqrt_le n
    rw [isqrtStep]
    rcases hx.eq_or_lt with hx | hx
    · -- At the root the iteration goes no further.
      have hnext : n.sqrt ≤ n / n.sqrt := by
        rcases Nat.eq_zero_or_pos n.sqrt with h0 | h0
        · rw [h0]
          exact Nat.zero_le _
        · exact (Nat.le_div_iff_mul_le h0).2 hle
      rw [← hx]
      generalize n / n.sqrt = y at *
      exact if_neg (by omega)
    · -- Above it the next value lies halfway to it at most, and not below it.
      have hpos : 0 < x := by omega
      have hdiv : n / x ≤ n.sqrt := by
        rw [← Nat.lt_succ_iff, Nat.div_lt_iff_lt_mul hpos]
        exact hlt.trans_le (Nat.mul_le_mul_left _ hx)
      have hmean : 2 * n.sqrt - x ≤ n / x := by
        rw [Nat.le_div_iff_mul_le hpos]
        refine le_trans ?_ hle
        obtain ⟨d, rfl⟩ := Nat.exists_eq_add_of_le hx.le
        have hsq : (n.sqrt - d) * (n.sqrt + d) = n.sqrt * n.sqrt - d * d := by
          rw [Nat.mul_self_sub_mul_self_eq, mul_comm]
        rw [show 2 * n.sqrt - (n.sqrt + d) = n.sqrt - d by omega, hsq]
        exact Nat.sub_le _ _
      rw [pow_succ] at hfuel
      generalize n / x = y at *
      exact (if_pos (by omega)).trans (ih _ (by omega) (by omega))

theorem isqrt_eq_sqrt (n : Nat) : isqrt n = n.sqrt := by
  unfold isqrt
  split
  next h => rw [h, Nat.sqrt_zero]
  next h =>
    have hroot : n.sqrt ≤ 2 ^ ((bitLen n + 1) / 2) := by
      rw [← Nat.lt_succ_iff, Nat.sqrt_lt]
      refine (lt_two_pow_bitLen n).trans_le (le_trans ?_ (Nat.mul_le_mul (Nat.le_succ _) (Nat.le_succ _)))
      rw [← pow_add]
      exact Nat.pow_le_pow_right two_pos (by omega)
    refine isqrtStep_eq_sqrt n _ _ hroot ((Nat.pow_lt_pow_right one_lt_two ?_).trans_le (Nat.le_add_left _ _))
    omega

/-! ### Roots of increasing functions (R136) -/

section
variable {t : FltTy} {r : Rnd} {sat : Bool} {u : Nat}

/-- Just above a point where a continuous function is negative, and below another point, it is still negative. -/
theorem exists_neg_above {f : ℚ → ℚ} (hf : Continuous f) {a b : ℚ} (hab : a < b) (ha : f a < 0) :
    ∃ x, a < x ∧ x < b ∧ f x < 0 := by
  have hneg := ((hf.tendsto a).eventually_lt_const ha).filter_mono (nhdsWithin_le_nhds (s := Set.Ioi a))
  obtain ⟨x, hx, hlo, hhi⟩ := (hneg.and (Ioo_mem_nhdsGT hab)).exists
  exact ⟨x, hlo, hhi, hx⟩

theorem exists_pos_below {f : ℚ → ℚ} (hf : Continuous f) {a b : ℚ} (hab : a < b) (hb : 0 < f b) :
    ∃ x, a < x ∧ x < b ∧ 0 < f x := by
  have hpos := ((hf.tendsto b).eventually_const_lt hb).filter_mono (nhdsWithin_le_nhds (s := Set.Iio b))
  obtain ⟨x, hx, hlo, hhi⟩ := (hpos.and (Ioo_mem_nhdsLT hab)).exists
  exact ⟨x, hlo, hhi, hx⟩

/-- A magnitude whose known part is the root of an increasing function, or just below it, rounds to that root. -/
theorem rootRounds_of_guarded {below : ℚ → ℚ} {q : Nat} {x : ℤ} {sticky : Bool} (hq : 2 ^ guardBits ≤ q)
    (hcont : Continuous below) (hmono : ∀ v w, 0 < v → v < w → below v < below w)
    (hexact : sticky = false → below (q * 2 ^ x) = 0)
    (hopen : sticky = true → below (q * 2 ^ x) < 0 ∧ 0 < below ((q + 1) * 2 ^ x)) :
    RootRounds t r sat u below (roundFlt t r sat u false { q := q, x := x, sticky := sticky }) := by
  have hx : (0 : ℚ) < 2 ^ x := by positivity
  have hq0 : (0 : ℚ) < q := by exact_mod_cast lt_of_lt_of_le (by positivity) hq
  have hlow : (0 : ℚ) < q * 2 ^ x := by positivity
  have hround : ∀ v : ℚ, 0 < v → (sticky = false → v = q * 2 ^ x) → (sticky = true → q * 2 ^ x < v ∧ v < (q + 1) * 2 ^ x) →
      RoundsTo t r sat u v (roundFlt t r sat u false { q := q, x := x, sticky := sticky }) := by
    intro v hv he ho
    have h := roundFlt_guarded (t := t) (r := r) (sat := sat) (u := u) (v := v) (x := x) hq (by rwa [abs_of_pos hv])
      (by rwa [abs_of_pos hv])
    rwa [decide_eq_false (not_lt.2 hv.le)] at h
  refine ⟨fun v hv h0 => hround v hv (fun hs => ?_) fun hs => ?_, fun hne => ?_⟩
  · have hz := hexact hs
    rcases lt_trichotomy v (q * 2 ^ x) with h | h | h
    · have := hmono _ _ hv h
      linarith
    · exact h
    · have := hmono _ _ hlow h
      linarith
  · obtain ⟨hneg, hpos⟩ := hopen hs
    constructor
    · by_contra hle
      rcases (not_lt.1 hle).eq_or_lt with h | h
      · rw [h] at h0
        linarith
      · have := hmono _ _ hv h
        linarith
    · by_contra hle
      rcases (not_lt.1 hle).eq_or_lt with h | h
      · rw [← h] at h0
        linarith
      · have := hmono _ _ (by positivity) h
        linarith
  · cases sticky with
    | false => exact absurd (hexact rfl) (hne _)
    | true =>
      obtain ⟨hneg, hpos⟩ := hopen rfl
      obtain ⟨lo, hlo1, hlo2, hlo⟩ := exists_neg_above hcont (by nlinarith : (q : ℚ) * 2 ^ x < (q + 1) * 2 ^ x) hneg
      obtain ⟨hi, hhi1, hhi2, hhi⟩ := exists_pos_below hcont hlo2 hpos
      exact ⟨lo, hi, hlow.trans hlo1, hlo, hhi, fun v hv1 hv2 => hround v (by linarith) (fun h => by cases h) fun _ =>
        ⟨hlo1.trans_le hv1, hv2.trans_lt hhi2⟩⟩

/-! ### Square roots -/

theorem evenExp_spec {m : Nat} (hm : m ≠ 0) (e : ℤ) : (evenExp m e).1 ≠ 0 ∧ (evenExp m e).2 = 2 * ((evenExp m e).2 / 2) ∧
    ((evenExp m e).1 : ℚ) * 2 ^ (evenExp m e).2 = m * 2 ^ e := by
  unfold evenExp
  split
  next h => exact ⟨hm, by simp only; omega, rfl⟩
  next h =>
    refine ⟨by simp only; omega, by simp only; omega, ?_⟩
    rw [Nat.cast_mul, Nat.cast_two, zpow_sub_one₀ two_ne_zero]
    field_simp

/-- A positive finite pattern: its whole number of units at an even exponent. -/
theorem fVal_of_positive {a : Nat} (ha : finite t a) (h0 : 0 < ratOf t a) : ∃ m e, fVal t a = .fin false m e ∧ m ≠ 0 ∧
    (m : ℚ) * 2 ^ e = ratOf t a := by
  obtain ⟨m, e, hv, hr⟩ := fVal_of_finite ha
  have hm : m ≠ 0 := (ratOf_eq_zero_iff hv hr).not.1 h0.ne'
  have hs : signBit t a = false := by
    rw [hv] at hr
    by_contra hs
    have : ratOf t a < 0 := hr ▸ rat_neg_iff.2 ⟨Bool.not_eq_false _ ▸ hs, hm⟩
    linarith
  rw [hs] at hv
  refine ⟨m, e, hv, hm, ?_⟩
  rw [← hr, hv, FVal.rat, cast_signedOf, if_neg Bool.false_ne_true]

theorem fSqrt_rounds {a : Nat} (ha : finite t a) (h0 : 0 < ratOf t a) :
    RootRounds t r sat u (fun v => v * v - ratOf t a) (fSqrt t r sat u a) := by
  obtain ⟨m, e, hv, hm, hA⟩ := fVal_of_positive ha h0
  obtain ⟨hp0, heven, hpe⟩ := evenExp_spec hm e
  have heq : fSqrt t r sat u a = roundFlt t r sat u false
      { q := ((evenExp m e).1 * 2 ^ (2 * guardBits)).sqrt, x := (evenExp m e).2 / 2 - guardBits,
        sticky := ((evenExp m e).1 * 2 ^ (2 * guardBits)).sqrt * ((evenExp m e).1 * 2 ^ (2 * guardBits)).sqrt !=
          (evenExp m e).1 * 2 ^ (2 * guardBits) } := by
    simp only [fSqrt, hv, if_neg hm, isqrt_eq_sqrt]
    rfl
  rw [heq]
  generalize (evenExp m e).1 = p at *
  generalize (evenExp m e).2 = pe at *
  obtain ⟨h, rfl⟩ : ∃ h, pe = 2 * h := ⟨_, heven⟩
  rw [Int.mul_ediv_cancel_left _ two_ne_zero]
  set V := p * 2 ^ (2 * guardBits) with hV
  have hc : (0 : ℚ) < 2 ^ (h - guardBits : ℤ) := by positivity
  have hq : 2 ^ guardBits ≤ V.sqrt := by
    rw [Nat.le_sqrt, ← pow_add, ← two_mul, hV]
    exact Nat.le_mul_of_pos_left _ (Nat.pos_of_ne_zero hp0)
  have hAV : ratOf t a = V * (2 ^ (h - guardBits : ℤ) * 2 ^ (h - guardBits : ℤ)) := by
    rw [← hA, ← hpe, hV, Nat.cast_mul, Nat.cast_pow, Nat.cast_two, ← zpow_natCast, mul_assoc, ← zpow_add₀ two_ne_zero,
      ← zpow_add₀ two_ne_zero]
    push_cast
    ring_nf
  have hdiff : ∀ z : Nat, (z * 2 ^ (h - guardBits : ℤ) * (z * 2 ^ (h - guardBits : ℤ)) - ratOf t a : ℚ) =
      ((z * z : Nat) - V) * (2 ^ (h - guardBits : ℤ) * 2 ^ (h - guardBits : ℤ)) := by
    intro z
    rw [hAV]
    push_cast
    ring
  refine rootRounds_of_guarded hq (by fun_prop) (fun v w hv hvw => ?_) (fun hs => ?_) fun hs => ?_
  · exact sub_lt_sub_right (mul_self_lt_mul_self hv.le hvw) _
  · rw [hdiff, bne_eq_false_iff_eq.1 hs, sub_self, zero_mul]
  · have hlt : V.sqrt * V.sqrt < V := lt_of_le_of_ne (Nat.sqrt_le V) (bne_iff_ne.1 hs)
    have hgt : V < (V.sqrt + 1) * (V.sqrt + 1) := Nat.lt_succ_sqrt V
    have h1 := hdiff V.sqrt
    have h2 := hdiff (V.sqrt + 1)
    rw [Nat.cast_add_one] at h2
    rw [h1, h2]
    exact ⟨mul_neg_of_neg_of_pos (sub_neg.2 (by exact_mod_cast hlt)) (by positivity),
      mul_pos (sub_pos.2 (by exact_mod_cast hgt)) (by positivity)⟩

theorem fRsqrt_rounds {a : Nat} (ha : finite t a) (h0 : 0 < ratOf t a) :
    RootRounds t r sat u (fun v => v * v * ratOf t a - 1) (fRsqrt t r sat u a) := by
  obtain ⟨m, e, hv, hm, hA⟩ := fVal_of_positive ha h0
  obtain ⟨hp0, heven, hpe⟩ := evenExp_spec hm e
  obtain ⟨k, hk⟩ : ∃ k, k = bitLen (evenExp m e).1 + guardBits := ⟨_, rfl⟩
  have heq : fRsqrt t r sat u a = roundFlt t r sat u false
      { q := (2 ^ (2 * k) / (evenExp m e).1).sqrt, x := -((evenExp m e).2 / 2) - k,
        sticky := (2 ^ (2 * k) / (evenExp m e).1).sqrt * (2 ^ (2 * k) / (evenExp m e).1).sqrt * (evenExp m e).1 !=
          2 ^ (2 * k) } := by
    simp only [fRsqrt, hv, if_neg hm, isqrt_eq_sqrt, hk]
    rfl
  rw [heq]
  generalize (evenExp m e).1 = p at *
  generalize (evenExp m e).2 = pe at *
  obtain ⟨h, rfl⟩ : ∃ h, pe = 2 * h := ⟨_, heven⟩
  rw [Int.mul_ediv_cancel_left _ two_ne_zero]
  have hp : 0 < p := Nat.pos_of_ne_zero hp0
  set V := 2 ^ (2 * k) / p with hV
  have hq : 2 ^ guardBits ≤ V.sqrt := by
    rw [Nat.le_sqrt, hV, Nat.le_div_iff_mul_le hp, ← pow_add]
    calc 2 ^ (guardBits + guardBits) * p ≤ 2 ^ (guardBits + guardBits) * 2 ^ bitLen p :=
          Nat.mul_le_mul_left _ (lt_two_pow_bitLen p).le
      _ = 2 ^ (guardBits + guardBits + bitLen p) := (pow_add _ _ _).symm
      _ ≤ 2 ^ (2 * k) := Nat.pow_le_pow_right two_pos (by omega)
  -- In units of `2 ^ (-h - k)` the square times the operand is a whole number over `2 ^ (2 * k)`.
  have hone : (2 ^ (-h - k : ℤ) * 2 ^ (-h - k : ℤ) * 2 ^ (2 * h) : ℚ) * (2 ^ (2 * k) : Nat) = 1 := by
    rw [Nat.cast_pow, Nat.cast_two, ← zpow_natCast, ← zpow_add₀ two_ne_zero, ← zpow_add₀ two_ne_zero,
      ← zpow_add₀ two_ne_zero]
    push_cast
    ring_nf
    exact zpow_zero _
  have hdiff : ∀ z : Nat, (z * 2 ^ (-h - k : ℤ) * (z * 2 ^ (-h - k : ℤ)) * ratOf t a - 1 : ℚ) =
      ((z * z * p : Nat) - (2 ^ (2 * k) : Nat)) * (2 ^ (-h - k : ℤ) * 2 ^ (-h - k : ℤ) * 2 ^ (2 * h)) := by
    intro z
    rw [← hA, ← hpe, sub_mul, mul_comm ((2 ^ (2 * k) : Nat) : ℚ), hone]
    push_cast
    ring
  have hc : (0 : ℚ) < 2 ^ (-h - k : ℤ) * 2 ^ (-h - k : ℤ) * 2 ^ (2 * h) := by positivity
  refine rootRounds_of_guarded hq (by fun_prop) (fun v w hv hvw => ?_) (fun hs => ?_) fun hs => ?_
  · exact sub_lt_sub_right (mul_lt_mul_of_pos_right (mul_self_lt_mul_self hv.le hvw) h0) _
  · rw [hdiff, bne_eq_false_iff_eq.1 hs, sub_self, zero_mul]
  · have hle : V.sqrt * V.sqrt * p ≤ 2 ^ (2 * k) := (Nat.le_div_iff_mul_le hp).1 (Nat.sqrt_le V)
    have hlt : V.sqrt * V.sqrt * p < 2 ^ (2 * k) := lt_of_le_of_ne hle (bne_iff_ne.1 hs)
    have hgt : 2 ^ (2 * k) < (V.sqrt + 1) * (V.sqrt + 1) * p := (Nat.div_lt_iff_lt_mul hp).1 (Nat.lt_succ_sqrt V)
    have h1 := hdiff V.sqrt
    have h2 := hdiff (V.sqrt + 1)
    rw [Nat.cast_add_one] at h2
    rw [h1, h2]
    exact ⟨mul_neg_of_neg_of_pos (sub_neg.2 (Nat.cast_lt.2 hlt)) hc, mul_pos (sub_pos.2 (Nat.cast_lt.2 hgt)) hc⟩

end

end Sys2Proof.Machine
end

section
/-! SUPPORT. The powers and logarithms to base 2 of finite operands, each rounded once from the bounds of their series (R136). -/

namespace Sys2Proof.Machine

open Sys2Proof Sys2Proof.Claims

/-! ### The series -/

/-- Truncated downwards, the terms of artanh stay below those of the series. -/
theorem artanhSum_le {p z2 : Nat} {z : ℝ} (hz : 0 ≤ z) (hz2 : (z2 : ℝ) ≤ z ^ 2 * 2 ^ p) (fuel k zk : Nat)
    (hzk : (zk : ℝ) ≤ z ^ (2 * k + 1) * 2 ^ p) : (artanhSum p z2 fuel k zk : ℝ) ≤
      (∑ j ∈ Finset.range fuel, z ^ (2 * (k + j) + 1) / (2 * (k + j : Nat) + 1)) * 2 ^ p := by
  induction fuel generalizing k zk with
  | zero => simp [artanhSum]
  | succ fuel ih =>
    have hnext : ((zk * z2 / 2 ^ p : Nat) : ℝ) ≤ z ^ (2 * (k + 1) + 1) * 2 ^ p := by
      refine Nat.cast_div_le.trans ?_
      rw [Nat.cast_mul, Nat.cast_pow, Nat.cast_two, div_le_iff₀ (by positivity)]
      calc (zk : ℝ) * z2 ≤ z ^ (2 * k + 1) * 2 ^ p * (z ^ 2 * 2 ^ p) := by gcongr
        _ = z ^ (2 * (k + 1) + 1) * 2 ^ p * 2 ^ p := by ring
    have hterm : ((zk / (2 * k + 1) : Nat) : ℝ) ≤ z ^ (2 * (k + 0) + 1) / (2 * (k + 0 : Nat) + 1) * 2 ^ p := by
      refine Nat.cast_div_le.trans ?_
      rw [div_le_iff₀ (by positivity)]
      push_cast
      rw [add_zero, add_zero]
      field_simp
      exact hzk
    have hrest := ih (k + 1) _ hnext
    simp only [Nat.add_right_comm k 1] at hrest
    rw [artanhSum, Finset.sum_range_succ', add_mul, Nat.cast_add, add_comm]
    refine add_le_add ?_ hterm
    exact hrest

/-- The model's ln 2 is not above the true one. -/
theorem ln2Fix_le (p : Nat) : (ln2Fix p : ℝ) ≤ Real.log 2 * 2 ^ p := by
  have hdiv : ∀ d : Nat, ((2 ^ p / d : Nat) : ℝ) ≤ 1 / d * 2 ^ p := fun d =>
    Nat.cast_div_le.trans (le_of_eq (by push_cast; ring))
  have hsum := artanhSum_le (p := p) (z := 1 / 3) (by norm_num) ((hdiv 9).trans (by norm_num)) (p / 3 + 2) 0 (2 ^ p / 3)
    ((hdiv 3).trans (by norm_num))
  have hseries := Real.hasSum_log_sub_log_of_abs_lt_one (x := 1 / 3) (by norm_num [abs_of_pos])
  have hlog : Real.log (1 + 1 / 3) - Real.log (1 - 1 / 3) = Real.log 2 := by
    rw [← Real.log_div (by norm_num) (by norm_num)]
    norm_num
  rw [hlog] at hseries
  have hpart := sum_le_hasSum (Finset.range (p / 3 + 2)) (fun j _ => by positivity) hseries
  have htwice : 2 * ∑ j ∈ Finset.range (p / 3 + 2), (1 / 3 : ℝ) ^ (2 * (0 + j) + 1) / (2 * (0 + j : Nat) + 1) ≤ Real.log 2 := by
    rw [Finset.mul_sum]
    refine (Finset.sum_congr rfl fun j _ => ?_).trans_le hpart
    rw [zero_add]
    ring
  rw [ln2Fix, Nat.cast_mul, Nat.cast_two]
  calc (2 : ℝ) * artanhSum p (2 ^ p / 9) (p / 3 + 2) 0 (2 ^ p / 3) ≤ 2 * (_ * 2 ^ p) := by gcongr
    _ ≤ Real.log 2 * 2 ^ p := by
      rw [← mul_assoc]
      gcongr

/-- Truncated downwards, the terms of the exponential series stay below those of the series. -/
theorem expSum_le {p y : Nat} {z : ℝ} (hz : 0 ≤ z) (hy : (y : ℝ) ≤ z * 2 ^ p) (fuel k term : Nat)
    (hterm : (term : ℝ) ≤ z ^ k / k.factorial * 2 ^ p) : (expSum p y fuel k term : ℝ) ≤
      (∑ j ∈ Finset.range fuel, z ^ (k + j) / (k + j).factorial) * 2 ^ p := by
  induction fuel generalizing k term with
  | zero => simp [expSum]
  | succ fuel ih =>
    have hnext : ((term * y / 2 ^ p / (k + 1) : Nat) : ℝ) ≤ z ^ (k + 1) / (k + 1).factorial * 2 ^ p := by
      rw [Nat.div_div_eq_div_mul]
      refine Nat.cast_div_le.trans ?_
      rw [Nat.cast_mul, Nat.cast_mul, Nat.cast_pow, Nat.cast_two, div_le_iff₀ (by positivity), Nat.factorial_succ]
      calc (term : ℝ) * y ≤ z ^ k / k.factorial * 2 ^ p * (z * 2 ^ p) := by gcongr
        _ = _ := by
          push_cast
          field_simp
          ring
    have hrest := ih (k + 1) _ hnext
    simp only [Nat.add_right_comm k 1] at hrest
    rw [expSum, Finset.sum_range_succ', add_mul, Nat.cast_add, add_comm]
    refine add_le_add ?_ (by simpa using hterm)
    exact hrest

/-- The model's power of two of a fraction is not above 2. -/
theorem expSum_le_two {num w p : Nat} (h : num < 2 ^ w) :
    let rf := if p ≤ w then num / 2 ^ (w - p) else num * 2 ^ (p - w)
    expSum p (rf * ln2Fix p / 2 ^ p) p 0 (2 ^ p) ≤ 2 ^ (p + 1) := by
  intro rf
  have hrf : rf ≤ 2 ^ p := by
    simp only [rf]
    split
    next hp =>
      refine Nat.div_le_of_le_mul (h.le.trans_eq ?_)
      rw [← pow_add, Nat.sub_add_cancel hp]
    next hp =>
      refine (Nat.mul_le_mul_right _ h.le).trans_eq ?_
      rw [← pow_add, Nat.add_sub_cancel' (by omega)]
  have hy : ((rf * ln2Fix p / 2 ^ p : Nat) : ℝ) ≤ Real.log 2 * 2 ^ p := by
    refine Nat.cast_div_le.trans ?_
    rw [Nat.cast_mul, Nat.cast_pow, Nat.cast_two, div_le_iff₀ (by positivity), mul_comm]
    have hrf' : (rf : ℝ) ≤ 2 ^ p := by exact_mod_cast hrf
    have := Real.log_nonneg one_le_two
    exact mul_le_mul (ln2Fix_le p) hrf' (by positivity) (by positivity)
  have hsum := expSum_le (Real.log_nonneg one_le_two) hy p 0 (2 ^ p) (by simp)
  have hexp : ∑ j ∈ Finset.range p, Real.log 2 ^ (0 + j) / (0 + j).factorial ≤ 2 := by
    simp only [zero_add]
    exact (Real.sum_le_exp_of_nonneg (Real.log_nonneg one_le_two) p).trans_eq (Real.exp_log two_pos)
  have hle : (expSum p (rf * ln2Fix p / 2 ^ p) p 0 (2 ^ p) : ℝ) ≤ 2 * 2 ^ p := hsum.trans (by gcongr)
  rw [pow_succ']
  exact_mod_cast hle

/-! ### The precision at which the bounds settle -/

/-- What holds of every magnitude that the precisions can end with. -/
theorem settle_induction {P : Mag → Prop} {bounds : Nat → Nat × Nat} (hnone : P { q := 1, x := 0, sticky := true })
    (hlast : ∀ p, P { q := max (bounds p).1 1, x := -(p : ℤ), sticky := true })
    (hsettled : ∀ p m, settled (bounds p).1 (bounds p).2 p = some m → P m) (ps : List Nat) : P (settle bounds ps) := by
  induction ps with
  | nil => exact hnone
  | cons p ps ih =>
    cases ps with
    | nil => exact hlast p
    | cons p' ps =>
      rw [settle]
      · split
        next m h => exact hsettled p m h
        next => exact ih
      · exact List.cons_ne_nil _ _

theorem settled_eq {lo hi p : Nat} {m : Mag} (h : settled lo hi p = some m) : ∃ s, s = bitLen hi - settleBits ∧
    lo / 2 ^ s = hi / 2 ^ s ∧ 0 < lo / 2 ^ s ∧ m = { q := lo / 2 ^ s, x := (s : ℤ) - p, sticky := true } := by
  unfold settled at h
  dsimp only at h
  split at h
  next hs => exact ⟨_, rfl, hs.1, hs.2, (Option.some.inj h).symm⟩
  next => cases h

/-- The magnitude that the bounds settle on is inexact and not zero. -/
theorem settle_sticky (bounds : Nat → Nat × Nat) (ps : List Nat) :
    (settle bounds ps).sticky = true ∧ (settle bounds ps).q ≠ 0 := by
  refine settle_induction (P := fun m => m.sticky = true ∧ m.q ≠ 0) ⟨rfl, one_ne_zero⟩ (fun p => ⟨rfl, ?_⟩)
    (fun p m h => ?_) ps
  · exact (lt_of_lt_of_le one_pos (le_max_right _ _)).ne'
  · obtain ⟨s, -, -, hpos, rfl⟩ := settled_eq h
    exact ⟨rfl, hpos.ne'⟩

/-- Bounds between 1 and 2 settle on a magnitude between 1 and 2. -/
theorem settle_binade {bounds : Nat → Nat × Nat}
    (h : ∀ p, 2 ^ p ≤ (bounds p).1 ∧ (bounds p).1 < 2 ^ (p + 1) ∧ (bounds p).2 < 2 ^ (p + 1)) (ps : List Nat) :
    1 ≤ ((settle bounds ps).q : ℚ) * 2 ^ (settle bounds ps).x ∧
      ((settle bounds ps).q + 1 : ℚ) * 2 ^ (settle bounds ps).x ≤ 2 := by
  -- A whole number from `2 ^ d` up and below `2 ^ (d + 1)`, in units of `2 ^ -d`, lies so.
  have hunits : ∀ {q d : Nat} {x : ℤ}, x = -(d : ℤ) → 2 ^ d ≤ q → q < 2 ^ (d + 1) →
      1 ≤ (q : ℚ) * 2 ^ x ∧ (q + 1 : ℚ) * 2 ^ x ≤ 2 := by
    rintro q d x rfl hlo hhi
    have hlo' : (2 : ℚ) ^ d ≤ q := by exact_mod_cast hlo
    have hhi' : (q : ℚ) + 1 ≤ 2 * 2 ^ d := by
      rw [← pow_succ']
      exact_mod_cast hhi
    rw [zpow_neg, zpow_natCast, ← div_eq_mul_inv, ← div_eq_mul_inv, one_le_div (by positivity), div_le_iff₀ (by positivity)]
    exact ⟨hlo', hhi'⟩
  refine settle_induction (P := fun m => 1 ≤ (m.q : ℚ) * 2 ^ m.x ∧ (m.q + 1 : ℚ) * 2 ^ m.x ≤ 2) ?_ (fun p => ?_)
    (fun p m hm => ?_) ps
  · norm_num
  · obtain ⟨hlo, hhi, -⟩ := h p
    have hmax : max (bounds p).1 1 = (bounds p).1 := max_eq_left (Nat.one_le_two_pow.trans hlo)
    simp only [hmax]
    exact hunits rfl hlo hhi
  · obtain ⟨s, hs, heq, -, rfl⟩ := settled_eq hm
    obtain ⟨hlo, -, hhi⟩ := h p
    have hle : s ≤ p := by
      have hlen : bitLen (bounds p).2 ≤ p + 1 := by
        by_contra hlt
        have h0 : (bounds p).2 ≠ 0 := by
          intro h0
          rw [h0] at hlt
          exact hlt (Nat.zero_le _)
        have := two_pow_le_bitLen h0
        have := Nat.pow_le_pow_right two_pos (show p + 1 ≤ bitLen (bounds p).2 - 1 by omega)
        omega
      rw [hs, settleBits]
      omega
    refine hunits (d := p - s) (by simp only; omega) ?_ ?_
    · rw [Nat.le_div_iff_mul_le (by positivity), ← pow_add, Nat.sub_add_cancel hle]
      exact hlo
    · simp only [heq]
      rw [Nat.div_lt_iff_lt_mul (by positivity), ← pow_add]
      exact hhi.trans_eq (by congr 1; omega)

/-! ### Powers of two -/

theorem exp2Bounds_binade {num w : Nat} (h : num < 2 ^ w) (p : Nat) : 2 ^ p ≤ (exp2Bounds num w p).1 ∧
    (exp2Bounds num w p).1 < 2 ^ (p + 1) ∧ (exp2Bounds num w p).2 < 2 ^ (p + 1) := by
  have hv := expSum_le_two (p := p) h
  have hslack : 0 < seriesSlack p := by unfold seriesSlack; omega
  have hpos : 0 < 2 ^ p := by positivity
  simp only [exp2Bounds]
  dsimp only at hv
  generalize expSum p _ p 0 (2 ^ p) = v at *
  rw [pow_succ] at *
  omega

/-- The binade of an exact magnitude. -/
theorem bitLen_binade {q : Nat} (hq : q ≠ 0) (x : ℤ) :
    (2 : ℚ) ^ ((bitLen q : ℤ) - 1 + x) ≤ q * 2 ^ x ∧ (q : ℚ) * 2 ^ x < 2 ^ ((bitLen q : ℤ) + x) := by
  have hpos : 1 ≤ bitLen q := by simp [bitLen, hq]
  have hx : (0 : ℚ) < 2 ^ x := by positivity
  rw [zpow_add₀ two_ne_zero, zpow_add₀ two_ne_zero, mul_le_mul_iff_left₀ hx, mul_lt_mul_iff_left₀ hx,
    show (bitLen q : ℤ) - 1 = ((bitLen q - 1 : Nat) : ℤ) by omega, zpow_natCast, zpow_natCast]
  exact ⟨by exact_mod_cast two_pow_le_bitLen hq, by exact_mod_cast lt_two_pow_bitLen q⟩

theorem bitLen_two_pow (n : Nat) : bitLen (2 ^ n) = n + 1 := by simp [bitLen, Nat.log2_two_pow]

section
variable {t : FltTy} {r : Rnd} {sat : Bool} {u : Nat}

/-- A power of two is rounded once. -/
theorem roundFlt_zpow (n : ℤ) : RoundsTo t r sat u (2 ^ n) (roundFlt t r sat u false { q := 1, x := n, sticky := false }) := by
  have hpos : (0 : ℚ) < 2 ^ n := by positivity
  have h := roundFlt_rounds (t := t) (r := r) (sat := sat) (u := u) (v := 2 ^ n) (q := 1) (x := n)
    (by rw [abs_of_pos hpos, Nat.cast_one, one_mul]) hpos.ne'
  rwa [decide_eq_false (not_lt.2 hpos.le)] at h

/-- What the model rounds for a magnitude beyond the exponent range of every format. -/
def beyond (neg : Bool) : Mag := { q := 2 ^ 64, x := if neg then -16384 else 16384, sticky := true }

/-- A magnitude beyond the range, above or below, is rounded as the model's is. -/
theorem roundFlt_beyond (neg : Bool) {m : Mag} (hq : m.q ≠ 0)
    (h : if neg then (bitLen m.q : ℤ) + m.x ≤ -16383 else 16384 ≤ (bitLen m.q : ℤ) + m.x) :
    roundFlt t r sat u false (beyond neg) = roundFlt t r sat u false m := by
  have hb : FltTy.bias t ≤ 1023 ∧ FltTy.frac t ≤ 52 := by cases t <;> decide
  have hlen : bitLen (2 ^ 64) = 65 := bitLen_two_pow 64
  cases neg
  · simp only [Bool.false_eq_true, if_false] at h
    rw [roundFlt_huge, roundFlt_huge]
    · omega
    · simp only [beyond, hlen, Bool.false_eq_true, if_false]
      omega
  · simp only [if_true] at h
    rw [roundFlt_tiny t r sat u (by simp [beyond]), roundFlt_tiny t r sat u hq]
    · unfold FltTy.emin
      omega
    · simp only [beyond, hlen, if_true, FltTy.emin]
      omega

section
variable {a m : Nat} {n : Bool} {e : ℤ} (hv : fVal t a = .fin n m e)
include hv

/-- The model's threshold is that of the value. -/
theorem threshold_iff (hm : m ≠ 0) : 14 < (bitLen m : ℤ) + e ↔ (2 : ℚ) ^ 14 ≤ |(fVal t a).rat| := by
  obtain ⟨hlo, hhi⟩ := bitLen_binade hm e
  rw [hv, abs_rat]
  constructor
  · intro h
    refine le_trans ?_ hlo
    rw [← zpow_natCast]
    exact zpow_le_zpow_right₀ one_le_two (by push_cast; omega)
  · intro h
    have h14 : (2 : ℚ) ^ (14 : ℤ) < 2 ^ ((bitLen m : ℤ) + e) := by
      refine lt_of_le_of_lt ?_ hhi
      exact_mod_cast h
    exact (zpow_lt_zpow_iff_right₀ one_lt_two).1 h14

/-- 2 to the power of a value beyond the range. -/
theorem fExp2_beyond (h : (2 : ℚ) ^ 14 ≤ |(fVal t a).rat|) : fExp2 t r sat u a = roundFlt t r sat u false (beyond n) := by
  have hm : m ≠ 0 := by
    rintro rfl
    rw [hv, rat_eq_zero.2 rfl, abs_zero] at h
    norm_num at h
  have h14 := (threshold_iff hv hm).2 h
  simp only [fExp2, hv, if_neg hm, if_pos h14]
  rfl

/-- 2 to the power of an integer in the range is exact. -/
theorem fExp2_integer (h : |(fVal t a).rat| < 2 ^ 14) {k : ℤ} (hk : (fVal t a).rat = k) :
    fExp2 t r sat u a = roundFlt t r sat u false { q := 1, x := k, sticky := false } := by
  by_cases hm : m = 0
  · have hk0 : k = 0 := by
      rw [hv, rat_eq_zero.2 hm] at hk
      exact_mod_cast hk.symm
    simp only [fExp2, hv, if_pos hm, hk0]
  have h14 := (threshold_iff hv hm).not.2 (not_le.2 h)
  rw [hv, FVal.rat] at hk
  simp only [fExp2, hv, if_neg hm, if_neg h14]
  split
  next he =>
    have hint : signedOf n (m * 2 ^ e.toNat) = k := by
      have : ((signedOf n (m * 2 ^ e.toNat) : ℤ) : ℚ) = k := by
        rw [← hk, cast_signedOf, cast_signedOf]
        lift e to Nat using he
        rw [Int.toNat_natCast, zpow_natCast]
        push_cast
        split <;> ring
      exact_mod_cast this
    rw [hint]
  next he =>
    have hint : signedOf n m = k * (2 ^ (-e).toNat : Nat) := by
      have : ((signedOf n m : ℤ) : ℚ) = (k * (2 ^ (-e).toNat : Nat) : ℤ) := by
        rw [Int.cast_mul, ← hk, Int.cast_natCast, Nat.cast_pow, Nat.cast_two, ← zpow_natCast, mul_assoc,
          ← zpow_add₀ two_ne_zero, Int.toNat_of_nonneg (by omega), add_neg_cancel, zpow_zero, mul_one]
      exact_mod_cast this
    have hpos : ((2 ^ (-e).toNat : Nat) : ℤ) ≠ 0 := by positivity
    rw [hint, Int.mul_emod_left, Int.mul_ediv_cancel _ hpos]
    exact if_pos rfl

/-- 2 to the power of another value in the range: the power of two of its floor, and that of a fraction. -/
theorem fExp2_fraction (h : |(fVal t a).rat| < 2 ^ 14) {k : ℤ} (hlo : (k : ℚ) < (fVal t a).rat)
    (hhi : (fVal t a).rat < k + 1) : ∃ num w : Nat, num < 2 ^ w ∧ fExp2 t r sat u a =
      roundFlt t r sat u false
        { q := (settle (exp2Bounds num w) precisions).q, x := (settle (exp2Bounds num w) precisions).x + k,
          sticky := (settle (exp2Bounds num w) precisions).sticky } := by
  have hm : m ≠ 0 := by
    intro hm
    rw [hv, rat_eq_zero.2 hm] at hlo hhi
    have h1 : k < 0 := by exact_mod_cast hlo
    have h2 : 0 < k + 1 := by exact_mod_cast hhi
    omega
  have h14 := (threshold_iff hv hm).not.2 (not_le.2 h)
  rw [hv, FVal.rat] at hlo hhi
  have he : ¬ 0 ≤ e := by
    intro he
    lift e to Nat using he
    rw [zpow_natCast] at hlo hhi
    have h1 : k < signedOf n m * 2 ^ e := by exact_mod_cast hlo
    have h2 : signedOf n m * 2 ^ e < k + 1 := by exact_mod_cast hhi
    omega
  obtain ⟨w, rfl⟩ : ∃ w : Nat, e = -(w : ℤ) := ⟨(-e).toNat, by omega⟩
  have hpos : (0 : ℤ) < (2 ^ w : Nat) := by positivity
  have hposq : (0 : ℚ) < 2 ^ w := by positivity
  rw [zpow_neg, zpow_natCast, ← div_eq_mul_inv] at hlo hhi
  rw [lt_div_iff₀ hposq] at hlo
  rw [div_lt_iff₀ hposq] at hhi
  have hlo' : k * (2 ^ w : Nat) < signedOf n m := by exact_mod_cast hlo
  have hhi' : signedOf n m < (k + 1) * (2 ^ w : Nat) := by exact_mod_cast hhi
  have hfloor : signedOf n m / (2 ^ w : Nat) = k :=
    le_antisymm (Int.lt_add_one_iff.1 ((Int.ediv_lt_iff_lt_mul hpos).2 hhi')) ((Int.le_ediv_iff_mul_le hpos).2 hlo'.le)
  have hdm := Int.emod_add_mul_ediv (signedOf n m) (2 ^ w : Nat)
  have hlt := Int.emod_lt_of_pos (signedOf n m) hpos
  rw [hfloor, mul_comm] at hdm
  refine ⟨(signedOf n m % (2 ^ w : Nat)).toNat, w, by omega, ?_⟩
  simp only [fExp2, hv, if_neg hm, if_neg h14, if_neg he, neg_neg, Int.toNat_natCast, hfloor]
  exact if_neg (by omega)

end

variable {a : Nat} (ha : finite t a)

/-- A value beyond the range is far from 0 on the side of its sign. -/
theorem beyond_cases (h : 2 ^ 14 ≤ |ratOf t a|) : if signBit t a then ratOf t a ≤ -16384 else 16384 ≤ ratOf t a := by
  have habs := ratOf_eq_abs t a
  have hnum : (2 : ℚ) ^ 14 = 16384 := by norm_num
  rw [hnum] at h
  cases hs : signBit t a <;> simp only [hs, Bool.false_eq_true, if_true, if_false] at habs ⊢ <;> linarith

include ha

/-- 2 to the power of an integer is rounded once. -/
theorem fExp2_integer_rounds {k : ℤ} (hk : ratOf t a = k) : RoundsTo t r sat u (2 ^ k) (fExp2 t r sat u a) := by
  obtain ⟨m, e, hv, hr⟩ := fVal_of_finite ha
  rcases lt_or_ge |(fVal t a).rat| (2 ^ 14) with h | h
  · rw [fExp2_integer hv h (hr.trans hk)]
    exact roundFlt_zpow k
  · have hcases := beyond_cases (hr ▸ h)
    have hone : bitLen 1 = 1 := bitLen_two_pow 0
    rw [fExp2_beyond hv h, roundFlt_beyond (signBit t a) (m := { q := 1, x := k, sticky := false }) one_ne_zero]
    · exact roundFlt_zpow k
    · rw [hk] at hcases
      simp only [hone]
      split <;> rename_i hs <;> simp only [hs, Bool.false_eq_true, if_true, if_false] at hcases
      · have : k ≤ -16384 := by exact_mod_cast hcases
        omega
      · have : 16384 ≤ k := by exact_mod_cast hcases
        omega

/-- 2 to the power of another value is a value between the neighbouring powers, rounded once. -/
theorem fExp2_fraction_rounds {k : ℤ} (hlo : (k : ℚ) < ratOf t a) (hhi : ratOf t a < k + 1) :
    ∃ v, 2 ^ k < v ∧ v < 2 ^ (k + 1) ∧ RoundsTo t r sat u v (fExp2 t r sat u a) := by
  obtain ⟨m, e, hv, hr⟩ := fVal_of_finite ha
  have hk : (0 : ℚ) < 2 ^ k := by positivity
  rw [zpow_add_one₀ two_ne_zero]
  rcases lt_or_ge |(fVal t a).rat| (2 ^ 14) with h | h
  · obtain ⟨num, w, hnum, heq⟩ := fExp2_fraction (t := t) (r := r) (sat := sat) (u := u) hv h (hr ▸ hlo) (hr ▸ hhi)
    obtain ⟨hsticky, hq⟩ := settle_sticky (exp2Bounds num w) precisions
    obtain ⟨h1, h2⟩ := settle_binade (exp2Bounds_binade hnum) precisions
    rw [heq, hsticky]
    generalize settle (exp2Bounds num w) precisions = mg at *
    obtain ⟨δ, hδ0, hδ1, hround⟩ := exists_roundFlt_sticky (t := t) (r := r) (sat := sat) (u := u) (mg.x + k) hq
    have hx : (0 : ℚ) < 2 ^ mg.x := by positivity
    have hv0 : (0 : ℚ) < (mg.q + δ) * 2 ^ (mg.x + k) := by positivity
    refine ⟨(mg.q + δ) * 2 ^ (mg.x + k), ?_, ?_, ?_⟩
    · rw [zpow_add₀ two_ne_zero, ← mul_assoc]
      refine lt_mul_of_one_lt_left hk (h1.trans_lt ?_)
      exact mul_lt_mul_of_pos_right (lt_add_of_pos_right _ hδ0) hx
    · rw [zpow_add₀ two_ne_zero, ← mul_assoc, mul_comm ((2 : ℚ) ^ k)]
      refine mul_lt_mul_of_pos_right (lt_of_lt_of_le ?_ h2) hk
      exact mul_lt_mul_of_pos_right (by linarith) hx
    · have := hround _ (abs_of_pos hv0)
      rwa [decide_eq_false (not_lt.2 hv0.le)] at this
  · have hcases := beyond_cases (hr ▸ h)
    have hthree : bitLen 3 = 2 := by decide
    have hhalf : (0 : ℚ) < 2 ^ (k - 1) := by positivity
    have hsplit : (2 : ℚ) ^ k = 2 ^ (k - 1) * 2 := by rw [← zpow_add_one₀ two_ne_zero, sub_add_cancel]
    have hv0 : (0 : ℚ) < 3 * 2 ^ (k - 1) := by positivity
    refine ⟨3 * 2 ^ (k - 1), by linarith, by linarith, ?_⟩
    rw [fExp2_beyond hv h, roundFlt_beyond (signBit t a) (m := { q := 3, x := k - 1, sticky := false }) three_ne_zero]
    · have := roundFlt_rounds (t := t) (r := r) (sat := sat) (u := u) (v := 3 * 2 ^ (k - 1)) (q := 3) (x := k - 1)
        (by rw [abs_of_pos hv0]; norm_num) hv0.ne'
      rwa [decide_eq_false (not_lt.2 hv0.le)] at this
    · simp only [hthree]
      split <;> rename_i hs <;> simp only [hs, Bool.false_eq_true, if_true, if_false] at hcases
      · have : k < -16384 := by exact_mod_cast hlo.trans_le hcases
        omega
      · have : 16384 < k + 1 := by exact_mod_cast hcases.trans_lt hhi
        omega

end

/-! ### Logarithms -/

section
variable {t : FltTy} {r : Rnd} {sat : Bool} {u a m : Nat} {e : ℤ} (hv : fVal t a = .fin false m e) (hm : m ≠ 0)
include hv hm

/-- The logarithm of a power of two is its exponent, rounded once. -/
theorem fLog2_power (h : m = 2 ^ (bitLen m - 1)) :
    fLog2 t r sat u a = roundExact t r sat u false ((bitLen m : ℤ) - 1 + e) 0 := by
  simp only [fLog2, hv, if_neg hm, Bool.false_eq_true, if_false, if_pos h]

/-- Another logarithm is rounded once from the magnitude that its bounds settle on. -/
theorem fLog2_settled (h : m ≠ 2 ^ (bitLen m - 1)) : ∃ bounds, fLog2 t r sat u a =
    roundFlt t r sat u (decide ((bitLen m : ℤ) - 1 + e < 0)) (settle bounds precisions) := by
  simp only [fLog2, hv, if_neg hm, Bool.false_eq_true, if_false, if_neg h]
  exact ⟨_, rfl⟩

end

section
variable {t : FltTy} {r : Rnd} {sat : Bool} {u a : Nat} (ha : finite t a)
include ha

/-- The logarithm of a power of two is exact before its one rounding. -/
theorem fLog2_power_rounds {k : ℤ} (hk : ratOf t a = 2 ^ k) : RoundsOnce t r sat u k false (fLog2 t r sat u a) := by
  obtain ⟨m, e, hv, hm, hA⟩ := fVal_of_positive ha (hk ▸ by positivity)
  have hexp : (bitLen m : ℤ) - 1 + e = k :=
    exponent_of_bitLen hm (by rw [hA, hk]) (by rw [hA, hk]; exact zpow_lt_zpow_right₀ one_lt_two (lt_add_one k))
  have hpow : m = 2 ^ (bitLen m - 1) := by
    have hpos : 1 ≤ bitLen m := by simp [bitLen, hm]
    have h2 : (m : ℚ) * 2 ^ e = (2 ^ (bitLen m - 1) : Nat) * 2 ^ e := by
      rw [hA, hk, ← hexp, Nat.cast_pow, Nat.cast_two, ← zpow_natCast, ← zpow_add₀ two_ne_zero, Nat.cast_sub hpos,
        Nat.cast_one]
    exact_mod_cast mul_right_cancel₀ (by positivity) h2
  rw [fLog2_power hv hm hpow, hexp]
  refine ⟨fun h0 => roundExact_rounds t r sat u false (by rw [zpow_zero, mul_one]) h0, fun h0 => ?_⟩
  exact roundExact_zero t r sat u false 0 (by exact_mod_cast h0)

/-- The logarithm of another value is a value of its sign, rounded once. -/
theorem fLog2_rounds (h0 : 0 < ratOf t a) (h1 : ratOf t a ≠ 1) :
    ∃ v, (v < 0 ↔ ratOf t a < 1) ∧ v ≠ 0 ∧ RoundsTo t r sat u v (fLog2 t r sat u a) := by
  obtain ⟨m, e, hv, hm, hA⟩ := fVal_of_positive ha h0
  obtain ⟨hlo, hhi⟩ := bitLen_binade hm e
  rw [hA] at hlo hhi
  set k : ℤ := (bitLen m : ℤ) - 1 + e with hk
  -- The floor of the logarithm is negative exactly below 1.
  have hsign : k < 0 ↔ ratOf t a < 1 := by
    constructor
    · intro hneg
      exact hhi.trans_le (zpow_le_one_of_nonpos₀ one_le_two (by omega))
    · intro hlt
      by_contra hge
      have := (one_le_zpow₀ (one_le_two (α := ℚ)) (not_lt.1 hge)).trans hlo
      linarith
  by_cases hpow : m = 2 ^ (bitLen m - 1)
  · have hAk : ratOf t a = 2 ^ k := by
      have hpos : 1 ≤ bitLen m := by simp [bitLen, hm]
      rw [← hA, hk, zpow_add₀ two_ne_zero, show (bitLen m : ℤ) - 1 = ((bitLen m - 1 : Nat) : ℤ) by omega, zpow_natCast]
      congr 1
      exact_mod_cast hpow
    have hk0 : (k : ℚ) ≠ 0 := by
      intro hz
      have hz : k = 0 := by exact_mod_cast hz
      rw [hz, zpow_zero] at hAk
      exact h1 hAk
    exact ⟨k, by rw [← hsign]; exact_mod_cast Iff.rfl, hk0, (fLog2_power_rounds ha hAk).1 hk0⟩
  · obtain ⟨bounds, heq⟩ := fLog2_settled (r := r) (sat := sat) (u := u) hv hm hpow
    obtain ⟨hsticky, hq⟩ := settle_sticky bounds precisions
    rw [heq, ← hk]
    generalize settle bounds precisions = mg at *
    obtain ⟨q, x, sticky⟩ := mg
    obtain rfl : sticky = true := hsticky
    obtain ⟨δ, hδ0, -, hround⟩ := exists_roundFlt_sticky (t := t) (r := r) (sat := sat) (u := u) x hq
    have hw : (0 : ℚ) < (q + δ) * 2 ^ x := by positivity
    by_cases hneg : k < 0
    · have hv0 : -((q + δ) * 2 ^ x) < 0 := neg_lt_zero.2 hw
      refine ⟨_, iff_of_true hv0 (hsign.1 hneg), hv0.ne, ?_⟩
      rw [decide_eq_decide.2 (iff_of_true hneg hv0)]
      exact hround _ (by rw [abs_neg, abs_of_pos hw])
    · have hv0 : ¬ (q + δ) * 2 ^ x < 0 := not_lt.2 hw.le
      refine ⟨_, iff_of_false hv0 (hsign.not.1 hneg), hw.ne', ?_⟩
      rw [decide_eq_decide.2 (iff_of_false hneg hv0)]
      exact hround _ (abs_of_pos hw)

end

theorem finiteResultsAreRoundedOnce : FiniteResultsAreRoundedOnce := by
  intro t r sat u a b d ha hb hd A B D sa sb sp rounds gives
  exact ⟨fAdd_roundsOnce ha hb, fSub_roundsOnce ha hb, fMul_roundsOnce ha hb, fFma_roundsOnce ha hb hd,
    fun h0 => fRcp_rounds ha h0, fun h0 => ⟨fSqrt_rounds ha h0, fRsqrt_rounds ha h0⟩,
    fun n hn => fExp2_integer_rounds ha hn, fun n hlo hhi => fExp2_fraction_rounds ha hlo hhi,
    fun n hn => fLog2_power_rounds ha hn, fun h0 h1 => fLog2_rounds ha h0 h1⟩

/-- Settles O20, by the function that each operation applies, its one rounding, and the order of numbers. -/
theorem floatOperationsPerElement : Obligations.FloatOperationsPerElement :=
  ⟨floatOperationsApply, finiteResultsAreRoundedOnce, numbersAreOrdered⟩

end Sys2Proof.Machine
end
